-- ==== Sys2Proof/Word.lean ====
section
/-! DEFINITION. The machine's words: bytes, 32-bit and 64-bit words, lane masks, the 32 lanes of a wave. -/

namespace Sys2Proof

/-- The smallest addressable unit (R10). -/
abbrev Byte := BitVec 8
/-- A 32-bit lane value (R57). -/
abbrev Word := BitVec 32
/-- A 64-bit pair value (R39). -/
abbrev DWord := BitVec 64
/-- One bit per lane: EXEC, LIVE, P0 to P6, MASK (R26, R66, R207). -/
abbrev Mask := BitVec 32
/-- A lane index, 0 to 31. -/
abbrev Lane := Fin 32
/-- One value per lane. -/
abbrev Lanes (α : Type) := Vector α 32

/-- A cause code: class in [8:5], sub-code in [4:0] (R426). -/
abbrev Cause := BitVec 9

/-- The 32 lanes in ascending order (R11). -/
def lanes : List Lane := List.finRange 32

/-- The mask of the lanes that satisfy `f`. -/
def maskOf (f : Lane → Bool) : Mask := BitVec.ofBoolListLE (lanes.map f) |>.setWidth 32

/-- Whether lane `L` is in the mask. -/
def Mask.has (m : Mask) (L : Lane) : Bool := m.getLsbD L.val

/-- The mask's lanes in ascending order. -/
def Mask.lanes (m : Mask) : List Lane := Sys2Proof.lanes.filter (fun L => m.getLsbD L.val)

/-- The mask's lowest lane, or lane 0 of the empty mask (R58). -/
def Mask.lowest (m : Mask) : Lane := (Mask.lanes m).headD 0

/-- The mask of one lane. -/
def Mask.one (L : Lane) : Mask := 1#32 <<< L.val

/-- How many lanes the mask holds. -/
def Mask.count (m : Mask) : Nat := (Mask.lanes m).length

/-- Every lane. -/
def fullMask : Mask := 0xFFFFFFFF#32

/-- Two words as one 64-bit value, the even register low (R77). -/
def pair (hi lo : Word) : DWord := hi ++ lo

/-- The low word of a 64-bit value. -/
def lo32 (v : DWord) : Word := v.setWidth 32
/-- The high word of a 64-bit value. -/
def hi32 (v : DWord) : Word := (v >>> 32).setWidth 32

/-- `x` as a signed number of `w` bits (R9, R11). -/
def sextInt (w : Nat) (x : Nat) : Int := (BitVec.ofNat w x).toInt

/-- An exact integer narrowed to `w` bits, modulo 2^w (R76). -/
def wrapNat (w : Nat) (x : Int) : Nat := (x % ((2 : Int) ^ w)).toNat

end Sys2Proof
end

