-- ==== Sys2Proof/Config.lean ====
section
/-! DEFINITION. What the manual leaves open: free values. Each is a constant without a body, so nothing in Lean can
evaluate it or prove a value of it. Sizes that one package fixes stand in `CfgRecord`, a field of State. -/

namespace Sys2Proof.Config

/-- What register `r` of a wave holds in a lane when its granule's last holder was of the same domain (R71): grant number,
register, lane. -/
opaque keptWord : Nat → Nat → Nat → Word
/-- What a tarn byte holds in the same case (R71): grant number, byte. -/
opaque keptByte : Nat → Nat → Byte
/-- The bits of a value that carries RACE poison (R189): draw number, lane. -/
opaque raceValue : Nat → Nat → BitVec 128
/-- The bits of a value that carries ERR poison (R64, R190): draw number, lane. -/
opaque errValue : Nat → Nat → BitVec 128
/-- What an uncorrectable word of a pool register delivers (R168): draw number, register, lane. -/
opaque errWord : Nat → Nat → Nat → Word
/-- The result the approximations of R126 deliver, within their bounds: operation (0 FRCP to 5 FCOS), operand bits. -/
opaque approx : Nat → Word → Int × Int
/-- Whether an access uses a cached translation that the tables no longer give (R339): draw number, page. -/
opaque stale : Nat → Nat → Bool
/-- What a byte of a stack or site that has come back with lost contents holds (R378): draw number, key. -/
opaque lostByte : Nat → Nat → BitVec 8
/-- What a remote or a majority page, a device that does not answer or an uncorrectable word supplies to a fetch, a walk or an
agent's read, and the words of an instruction that cannot be fetched (log entry 9): draw number, which. -/
opaque choice : Nat → Nat → Nat
/-- The bytes of an SPDM signature, digest or certificate (R414): draw number, which. -/
opaque spdmBits : Nat → Nat → Nat
/-- The ID of the block header at offset 0 of the register window (R401). -/
opaque rootId : BitVec 16
/-- Where a record lies in a domain's save areas, in steps of 64 bytes beyond the model's spacing (R294): record number. -/
opaque saveOffset : Nat → Nat

end Sys2Proof.Config
end

