-- ==== Sys2Proof/Syntax.lean ====
section
/-! DEFINITION. The instructions of a split and the steps of the package's other agents, one constructor of `Instr` per
row of the opcode table. Fields are the manual's own; what an encoding may hold is the business of WellFormed. -/

namespace Sys2Proof

/-! ## Field types of the 96-bit word -/

/-- A V register number. -/
abbrev VNum := BitVec 8
/-- A predicate number; 7 is PT (R26). -/
abbrev PNum := BitVec 3
/-- An index register number. -/
abbrev XNum := BitVec 3

/-- Integer types, codes 0x0 to 0x9 (R48). -/
inductive IType | si32 | ui32 | si16 | ui16 | si8 | ui8 | si64 | ui64 | si4 | ui4
  deriving DecidableEq, Repr

/-- Element types, codes 0x0 to 0xC (R48). -/
inductive EType | f32 | f16 | bf16 | f16x2 | bf16x2 | f64 | kf8e4 | kf8e5 | kf4 | si8 | ui8 | si4 | ui4
  deriving DecidableEq, Repr

/-- Rounding codes (R49). -/
inductive Rnd | dyn | rne | rtz | rup | rdn | rna
  deriving DecidableEq, Repr

/-- Scopes, codes 0 to 9 (R45). -/
inductive Scope | ln | wv | gp | co | sp | di | pk | hs | vd | sy
  deriving DecidableEq, Repr

/-- Orders, codes 0 to 5 (R44). -/
inductive Order | plain | rlx | acq | rel | ar | sc
  deriving DecidableEq, Repr

/-- Access widths, codes 0 to 5 (R44). -/
inductive MWidth | w8 | w16 | w32 | w64 | w128 | w512
  deriving DecidableEq, Repr

/-- Cache policies (R44). -/
inductive Cache | dflt | strm | keep | nol1
  deriving DecidableEq, Repr

/-- Spaces of a Form M access (R44, R46). -/
inductive Space | ordinary | handle | sps
  deriving DecidableEq, Repr

/-- Element widths of packed control (R35). -/
inductive EltW | w32 | w16 | w8 | w4
  deriving DecidableEq, Repr

/-- Step modes of an indirect operand (R33). -/
inductive StepMode | none | post | pre
  deriving DecidableEq, Repr

/-- A source's crossbar pattern, or its packed control under PAT 000 (R34, R35). -/
inductive Pat
  | elt (w : EltW) (i : BitVec 3)
  | rot (k : BitVec 5)
  | bc (k : BitVec 5)
  | bfly (k : BitVec 5)
  | mir (k : BitVec 5)
  | dn (k : BitVec 5)
  | up (k : BitVec 5)
  deriving DecidableEq, Repr

/-- The identity pattern without packed control. -/
abbrev Pat.ident : Pat := .elt .w32 0

/-- A source operand field (R33): direct, indirect, special register, immediate. -/
inductive Src
  | reg (r : VNum) (p : Pat) (fe : Bool)
  | ind (x : XNum) (ofs : BitVec 5) (st : StepMode) (fe : Bool)
  | spec (n : BitVec 8)
  | imm (v : BitVec 18)
  deriving DecidableEq, Repr

/-- A destination operand field (R36). -/
inductive Dst
  | reg (r : VNum) (w : EltW) (i : BitVec 3)
  | ind (x : XNum) (ofs : BitVec 5) (st : StepMode)
  deriving DecidableEq, Repr

/-- A field read plainly: a register number and FE (R435). -/
structure Plain where
  r : VNum
  fe : Bool
  deriving DecidableEq, Repr

/-- Guard and hints, bits [85:76] of every form (R26). -/
structure Hdr where
  neg : Bool
  pred : PNum
  yld : Bool
  last : Bool
  stall : BitVec 3
  dual : Bool
  deriving DecidableEq, Repr

/-! ## Operands of the instructions, by shape -/

/-- Target and reconvergence of BRA, BRC, LOOP (R216). -/
structure BraF where
  sig : BitVec 16
  tofs : BitVec 24
  rofs : BitVec 20
  deriving DecidableEq, Repr

/-- The target of CALL (R216): direct, or `.X`. -/
inductive CallTgt
  | direct (tofs : BitVec 24)
  | reg (b : Src)
  deriving DecidableEq, Repr

/-- The special registers SWR accepts (R227). -/
inductive SwrReg | fstat | fctl | fmt | mflags
  deriving DecidableEq, Repr

/-- Two-source integer operation with SAT (R99). -/
structure IntOp where
  ty : IType
  sat : Bool
  d : Dst
  a : Src
  b : Src
  deriving DecidableEq, Repr

/-- One-source integer operation with SAT (R99). -/
structure IntUn where
  ty : IType
  sat : Bool
  d : Dst
  a : Src
  deriving DecidableEq, Repr

/-- Three-source integer operation with SAT (R99). -/
structure IntTri where
  ty : IType
  sat : Bool
  d : Dst
  a : Src
  b : Src
  c : VNum
  deriving DecidableEq, Repr

/-- IADD.I (R104). -/
structure IntImm where
  ty : IType
  sat : Bool
  d : Dst
  imm : Word
  src : VNum
  deriving DecidableEq, Repr

/-- IADDC and ISUBB with their carry fields (R102). -/
structure CarryOp where
  ty : IType
  ci0 : Bool
  cip : PNum
  cop : PNum
  d : Dst
  a : Src
  b : Src
  deriving DecidableEq, Repr

/-- LEA (R103); `sc` is MOD[61:60]. -/
structure LeaOp where
  ty : IType
  sc : BitVec 2
  d : Dst
  a : Src
  b : Src
  c : VNum
  deriving DecidableEq, Repr

/-- Two-source operation of group 2 (R106). -/
structure LogOp where
  ty : IType
  d : Dst
  a : Src
  b : Src
  deriving DecidableEq, Repr

/-- One-source operation of groups 2 and 3 (R106, R109). -/
structure LogUn where
  ty : IType
  d : Dst
  a : Src
  deriving DecidableEq, Repr

/-- Three-source operation of groups 2 and 3 (R106, R110). -/
structure LogTri where
  ty : IType
  d : Dst
  a : Src
  b : Src
  c : VNum
  deriving DecidableEq, Repr

/-- BLUT (R105). -/
structure BlutOp where
  ty : IType
  tt : BitVec 8
  d : Dst
  a : Src
  b : Src
  deriving DecidableEq, Repr

/-- BLUT.I (R105). -/
structure BlutImm where
  ty : IType
  tt : BitVec 8
  d : Dst
  imm : Word
  src : VNum
  deriving DecidableEq, Repr

/-- FUNL (R106). -/
structure FunlOp where
  dn : Bool
  ty : IType
  d : Dst
  a : Src
  b : Src
  c : VNum
  deriving DecidableEq, Repr

/-- MOVI (R109). -/
structure MoviOp where
  ty : IType
  d : Dst
  imm : Word
  deriving DecidableEq, Repr

/-- How a compare joins the combining predicate (R111, R112). -/
inductive JoinOp | and | or | xor | andNot
  deriving DecidableEq, Repr

/-- Relation set, join and combining predicate of a compare (R111). -/
structure CmpF where
  rel : BitVec 3
  comb : JoinOp
  pc : PNum
  deriving DecidableEq, Repr

/-- ICMP (R111). -/
structure IcmpOp where
  f : CmpF
  ty : IType
  d : PNum
  a : Src
  b : Src
  deriving DecidableEq, Repr

/-- ICMP.I (R111). -/
structure IcmpImm where
  f : CmpF
  ty : IType
  d : PNum
  imm : Word
  src : VNum
  deriving DecidableEq, Repr

/-- FCMP (R111). -/
structure FcmpOp where
  f : CmpF
  ty : EType
  u : Bool
  tot : Bool
  d : PNum
  a : Src
  b : Src
  deriving DecidableEq, Repr

/-- PLUT (R114). -/
structure PlutOp where
  tt : BitVec 8
  pc : PNum
  d : PNum
  pa : PNum
  pb : PNum
  deriving DecidableEq, Repr

/-- Two-source floating operation; group 4 has type F64 (R123, R125). -/
structure FBin where
  ty : EType
  rnd : Rnd
  d : Dst
  a : Src
  b : Src
  deriving DecidableEq, Repr

/-- One-source floating operation (R123, R125). -/
structure FUn where
  ty : EType
  rnd : Rnd
  d : Dst
  a : Src
  deriving DecidableEq, Repr

/-- Multiply-add (R123, R125). -/
structure FTri where
  ty : EType
  rnd : Rnd
  d : Dst
  a : Src
  b : Src
  c : VNum
  deriving DecidableEq, Repr

/-- Minimum and maximum (R87). -/
structure FMinOp where
  ty : EType
  num : Bool
  d : Dst
  a : Src
  b : Src
  deriving DecidableEq, Repr

/-- Round to integral (R124). -/
structure FRintOp where
  ty : EType
  rnd : Rnd
  exact : Bool
  d : Dst
  a : Src
  deriving DecidableEq, Repr

/-- Operations without a rounding field (R124, R126). -/
structure FPlain where
  ty : EType
  d : Dst
  a : Src
  deriving DecidableEq, Repr

/-- A side of CVT: an integer or an element type (R127). -/
inductive CvtTy
  | int (t : IType)
  | elt (t : EType)
  deriving DecidableEq, Repr

/-- CVT (R128). -/
structure CvtOp where
  dst : CvtTy
  src : CvtTy
  rnd : Rnd
  sat : Bool
  d : Dst
  a : Src
  deriving DecidableEq, Repr

/-- CVTP (R129). -/
structure CvtpOp where
  dst : EType
  src : EType
  rnd : Rnd
  sat : Bool
  d : Dst
  a : Src
  b : Src
  deriving DecidableEq, Repr

/-- CVTN (R130); `dst = none` is `.FMT`. -/
structure CvtnOp where
  dst : Option EType
  src : EType
  rnd : Rnd
  sat : Bool
  d : Dst
  a : Src
  deriving DecidableEq, Repr

/-- The source format of UNPK (R131). -/
inductive UnpkSrc
  | elt (t : EType)
  | fmtA
  | fmtB
  deriving DecidableEq, Repr

/-- UNPK (R131). -/
structure UnpkOp where
  src : UnpkSrc
  d : Dst
  a : Src
  deriving DecidableEq, Repr

/-- DP2, DP4, DP8 (R132). -/
structure DpOp where
  rnd : Rnd
  d : Dst
  a : Src
  b : Src
  c : VNum
  deriving DecidableEq, Repr

/-- FMTSET (R134). -/
structure FmtsetOp where
  afmt : EType
  bfmt : EType
  acc : Bool
  sat : Bool
  deriving DecidableEq, Repr

/-- LPICK (R235). -/
structure LpickOp where
  c : Option VNum
  w64 : Bool
  d : Dst
  a : Plain
  b : Src
  deriving DecidableEq, Repr

/-- The predicate modes of POLL (R238). -/
inductive PollMode | any | all | same
  deriving DecidableEq, Repr

/-- The destination of POLL (R235). -/
inductive PollDst
  | pred (m : PollMode) (p : PNum)
  | mask (d : Dst)
  deriving DecidableEq, Repr

/-- RDLANE (R235). -/
structure RdlaneOp where
  w64 : Bool
  d : Dst
  a : Plain
  b : Src
  deriving DecidableEq, Repr

/-- WRLANE (R235). -/
structure WrlaneOp where
  w64 : Bool
  d : Dst
  a : Src
  b : Src
  deriving DecidableEq, Repr

/-- MATCH (R235). -/
structure MatchOp where
  all : Bool
  w64 : Bool
  d : Dst
  a : Src
  deriving DecidableEq, Repr

/-- Fold operations of REDUX and SCAN (R235). -/
inductive RedOp | add | min | max | and | or | xor
  deriving DecidableEq, Repr

/-- REDUX and SCAN (R235, R241). -/
structure ReduxOp where
  op : RedOp
  excl : Bool
  ty : IType
  d : Dst
  a : Src
  deriving DecidableEq, Repr

/-- Form M's shared fields (R44). -/
structure MemF where
  scope : Scope
  order : Order
  width : MWidth
  cache : Cache
  space : Space
  deriving DecidableEq, Repr

/-- LD, LDS, LDT, LDU (R186). -/
structure LdOp where
  m : MemF
  d : Dst
  a : Src
  b : Src
  deriving DecidableEq, Repr

/-- ST, STS, STT (R186). -/
structure StOp where
  m : MemF
  d : Src
  a : Src
  b : Src
  deriving DecidableEq, Repr

/-- PREF (R186). -/
structure PrefOp where
  m : MemF
  a : Src
  b : Src
  deriving DecidableEq, Repr

/-- Integer atomic operations, OP 0 to 8 (R192). -/
inductive AtomI | add | min | max | and | or | xor | exch | inc | dec
  deriving DecidableEq, Repr

/-- Floating atomic operations, OP 9 to 11 (R192). -/
inductive AtomF | fadd | fmin | fmax
  deriving DecidableEq, Repr

/-- OP and TYPE of an atomic (R191, R192). -/
inductive AtomOp
  | int (op : AtomI) (ty : IType)
  | fp (op : AtomF) (ty : EType)
  deriving DecidableEq, Repr

/-- The low ten bits of an atomic's B (R191): a byte offset, or the even register of the handle pair. -/
inductive AtomOff
  | ofs (o : BitVec 10)
  | handle (r : VNum)
  deriving DecidableEq, Repr

/-- ATOM, ATOMS (R193): D supplies the operand and receives the old value. -/
structure AtomF' where
  m : MemF
  op : AtomOp
  d : Dst
  a : Src
  off : AtomOff
  deriving DecidableEq, Repr

/-- RED (R193). -/
structure RedF where
  m : MemF
  op : AtomOp
  d : Src
  a : Src
  off : AtomOff
  deriving DecidableEq, Repr

/-- CAS, CASS (R194). -/
structure CasF where
  m : MemF
  d : Dst
  p : PNum
  a : Src
  off : AtomOff
  deriving DecidableEq, Repr

/-- FENCE (R196); `hnd` is the handle form. -/
structure FenceOp where
  scope : Scope
  order : Order
  hnd : Option Src
  deriving DecidableEq, Repr

/-- The operations of CCTL (R197). -/
inductive CctlKind | wb | inv | wbinv
  deriving DecidableEq, Repr

/-- CCTL (R197); `a = none` is `.ALL`. -/
structure CctlOp where
  scope : Scope
  op : CctlKind
  a : Option Src
  deriving DecidableEq, Repr

/-- COPY, COPYO (R201). -/
structure CopyOp where
  s2g : Bool
  lw : Plain
  a : Src
  b : Src
  deriving DecidableEq, Repr

/-- MLD (R383). -/
structure MldOp where
  scope : Scope
  order : Order
  hi : Bool
  ofs : BitVec 10
  d : Dst
  a : Src
  deriving DecidableEq, Repr

/-- MST (R383). -/
structure MstOp where
  scope : Scope
  order : Order
  hi : Bool
  ofs : BitVec 10
  d : Src
  a : Src
  deriving DecidableEq, Repr

/-- MMA, MMAB (R248). -/
structure MmaOp where
  ac : BitVec 5
  ta : BitVec 4
  tb : BitVec 4
  deriving DecidableEq, Repr

/-- Accumulator types (R246). -/
inductive AccTy | f32 | si32 | f64
  deriving DecidableEq, Repr

/-- ACLD (R262). -/
structure AcldOp where
  ac : BitVec 5
  ty : AccTy
  lw : Plain
  b : Src
  deriving DecidableEq, Repr

/-- Where ACST stores (R248): the scratchpad, or an object (`.G`). -/
inductive AcstTo
  | scratch (lw : Plain)
  | object (q : Src)
  deriving DecidableEq, Repr

/-- ACST (R262, R263). -/
structure AcstOp where
  ac : BitVec 5
  ty : AccTy
  add : Bool
  tgt : AcstTo
  b : Src
  deriving DecidableEq, Repr

/-- ACRD (R265). -/
structure AcrdOp where
  ac : BitVec 5
  w64 : Bool
  d : Dst
  b : Src
  deriving DecidableEq, Repr

/-- SPAWN (R361). -/
structure SpawnOp where
  a : Src
  b : Src
  c : VNum
  deriving DecidableEq, Repr

/-! ## Operands of the other agents' steps -/

/-- A Viaduct frame (R416): its EtherType, its header and its payload. -/
structure Frame where
  etype : BitVec 16
  src : BitVec 16
  dst : BitVec 16
  seq : Word
  ack : Word
  op : BitVec 8
  len : BitVec 8
  tag : BitVec 16
  addr : DWord
  attr : Word
  gen : BitVec 16
  zero : BitVec 16
  fcsOk : Bool
  /-- a read response that marks its data uncorrectable (R421) or RACE -/
  bad : Bool
  race : Bool
  payload : List Byte
  deriving DecidableEq, Repr

/-- The relation of WAITV and IFV (R407). -/
inductive VRel | eq | ne | ge | lt
  deriving DecidableEq, Repr

/-- What WAITV and IFV compare (R407). -/
structure VTest where
  rel : VRel
  w64 : Bool
  addr : DWord
  value : DWord
  deriving DecidableEq, Repr

/-- What Prawin saves: one waiting wave (eviction, R292) or a whole group (R293). -/
inductive PreTarget
  | wave (w : Nat)
  | group (g : Nat)
  deriving DecidableEq, Repr

/-- An access of a host agent (R328, R399): a byte of an address space, read or written. -/
structure HostAcc where
  write : Bool
  kind : BitVec 4
  pa : BitVec 52
  data : List Byte
  len : Nat
  deriving DecidableEq, Repr

/-- What the debugger writes (R289, R290). -/
inductive DbgTarget
  | reg (r : VNum) (v : Lanes Word)
  | window (x : XNum) (i : Nat) (v : Lanes Word)
  | pred (p : PNum) (v : Mask)
  | desc (x : XNum) (v : Word)
  | index (x : XNum) (v : Lanes Byte)
  | fctl (v : Word)
  | fstat (v : Lanes Word)
  | rqWord (e : Nat) (w : Nat) (v : Lanes Word)
  | rqDelete (e : Nat) (cmp : Bool)
  | breakpoints (on : Bool)
  deriving DecidableEq, Repr

/-- One firmware image or the configuration record as found at reset (R413). -/
structure Image where
  signed : Bool
  version : Word
  deriving DecidableEq, Repr

/-- A step of an engine (R202, R250): the operation, of the copy engines, or the core, of the matrix engines; and how many of its
next elements the engine performs, or 0 where it completes the operation. -/
structure EngineStep where
  which : Nat
  n : Nat
  deriving DecidableEq, Repr

/-- What the management processor checks at a reset (R413): the record and the two Prawin images. -/
structure ResetImages where
  record : Image
  prawinCmd : Image
  prawinMgmt : Image
  deriving DecidableEq, Repr

/-- The package's instructions and steps: one constructor per row of the opcode table. -/
inductive Instr
  -- group 0: control and system (10)
  | nop (h : Hdr)
  | bra (h : Hdr) (f : BraF)
  | brc (h : Hdr) (z : Bool) (c : VNum) (f : BraF)
  | brx (h : Hdr) (sig : BitVec 16) (rofs : BitVec 24) (b : Src)
  | call (h : Hdr) (sig : BitVec 16) (link : VNum) (t : CallTgt)
  | ret (h : Hdr) (sig : BitVec 16) (rofs : BitVec 24) (b : Src)
  | loop (h : Hdr) (c : VNum) (f : BraF)
  | sync (h : Hdr)
  | sealB (h : Hdr) (sig : BitVec 16)
  | exit (h : Hdr) (sig : BitVec 16)
  | yield (h : Hdr)
  | trap (h : Hdr) (n : BitVec 5)
  | rtt (h : Hdr) (retry skip nosig : Bool)
  | bkpt (h : Hdr) (tag : BitVec 14)
  | srd (h : Hdr) (w64 : Bool) (d : Dst) (n : BitVec 8)
  | swr (h : Hdr) (r : SwrReg) (a : Src)
  -- group 1: integer (05)
  | iadd (h : Hdr) (o : IntOp)
  | iaddI (h : Hdr) (o : IntImm)
  | isub (h : Hdr) (o : IntOp)
  | iaddc (h : Hdr) (o : CarryOp)
  | isubb (h : Hdr) (o : CarryOp)
  | imul (h : Hdr) (o : IntOp)
  | imulh (h : Hdr) (o : IntOp)
  | imad (h : Hdr) (o : IntTri)
  | imadw (h : Hdr) (o : IntTri)
  | idiv (h : Hdr) (o : IntOp)
  | irem (h : Hdr) (o : IntOp)
  | iabs (h : Hdr) (o : IntUn)
  | ineg (h : Hdr) (o : IntUn)
  | imin (h : Hdr) (o : IntOp)
  | imax (h : Hdr) (o : IntOp)
  | iadd3 (h : Hdr) (o : IntTri)
  | isad (h : Hdr) (o : IntTri)
  | lea (h : Hdr) (o : LeaOp)
  -- group 2: logic and bits (05)
  | blut (h : Hdr) (o : BlutOp)
  | blutI (h : Hdr) (o : BlutImm)
  | shl (h : Hdr) (o : LogOp)
  | shr (h : Hdr) (o : LogOp)
  | sar (h : Hdr) (o : LogOp)
  | rot (h : Hdr) (o : LogOp)
  | funl (h : Hdr) (o : FunlOp)
  | bfe (h : Hdr) (o : LogOp)
  | bfi (h : Hdr) (o : LogTri)
  | popc (h : Hdr) (o : LogUn)
  | clz (h : Hdr) (o : LogUn)
  | ctz (h : Hdr) (o : LogUn)
  | brev (h : Hdr) (o : LogUn)
  | bsel (h : Hdr) (o : LogTri)
  -- group 3: compare, select, move, shape (05)
  | mov (h : Hdr) (o : LogUn)
  | movi (h : Hdr) (o : MoviOp)
  | sel (h : Hdr) (o : LogTri)
  | icmp (h : Hdr) (o : IcmpOp)
  | icmpI (h : Hdr) (o : IcmpImm)
  | fcmp (h : Hdr) (o : FcmpOp)
  | plut (h : Hdr) (o : PlutOp)
  | psave (h : Hdr) (d : Dst)
  | pload (h : Hdr) (mask : BitVec 7) (a : Src)
  | shape (h : Hdr) (u : Bool) (d : Dst) (a : Src)
  | affine (h : Hdr) (d : Dst) (a b : Src)
  -- group 4: FP64 (06)
  | dadd (h : Hdr) (o : FBin)
  | dmul (h : Hdr) (o : FBin)
  | dfma (h : Hdr) (o : FTri)
  | ddiv (h : Hdr) (o : FBin)
  | dsqrt (h : Hdr) (o : FUn)
  | dmin (h : Hdr) (o : FMinOp)
  | dmax (h : Hdr) (o : FMinOp)
  | drint (h : Hdr) (o : FRintOp)
  | dscalb (h : Hdr) (o : FBin)
  | dgetexp (h : Hdr) (o : FPlain)
  | dgetmant (h : Hdr) (o : FPlain)
  | dclass (h : Hdr) (o : FPlain)
  -- group 5: FP32 and 16-bit (06)
  | fadd (h : Hdr) (o : FBin)
  | fmul (h : Hdr) (o : FBin)
  | ffma (h : Hdr) (o : FTri)
  | fdiv (h : Hdr) (o : FBin)
  | fsqrt (h : Hdr) (o : FUn)
  | fmin (h : Hdr) (o : FMinOp)
  | fmax (h : Hdr) (o : FMinOp)
  | frint (h : Hdr) (o : FRintOp)
  | fscalb (h : Hdr) (o : FBin)
  | fclass (h : Hdr) (o : FPlain)
  | frcp (h : Hdr) (o : FPlain)
  | frsq (h : Hdr) (o : FPlain)
  | fex2 (h : Hdr) (o : FPlain)
  | flg2 (h : Hdr) (o : FPlain)
  | fsin (h : Hdr) (o : FPlain)
  | fcos (h : Hdr) (o : FPlain)
  -- group 6: conversion, dot products, streams (06)
  | cvt (h : Hdr) (o : CvtOp)
  | cvtp (h : Hdr) (o : CvtpOp)
  | cvtn (h : Hdr) (o : CvtnOp)
  | unpk (h : Hdr) (o : UnpkOp)
  | dp2 (h : Hdr) (o : DpOp)
  | dp4 (h : Hdr) (o : DpOp)
  | dp8 (h : Hdr) (o : DpOp)
  | fmtset (h : Hdr) (o : FmtsetOp)
  | fmtget (h : Hdr) (d : Dst)
  | rngset (h : Hdr) (a : Src)
  | rng (h : Hdr) (d : Dst)
  -- group 7: index registers (07)
  | xset (h : Hdr) (x : XNum) (z : Bool) (a : Src)
  | xidx (h : Hdr) (x : XNum) (a : Src)
  | xrd (h : Hdr) (x : XNum) (i : Bool) (d : Dst)
  | xadd (h : Hdr) (x : XNum) (a : Src)
  | xclr (h : Hdr) (mask : BitVec 8)
  -- group 8: lane exchange (12)
  | lpick (h : Hdr) (o : LpickOp)
  | poll (h : Hdr) (d : PollDst) (pa : PNum)
  | rdlane (h : Hdr) (o : RdlaneOp)
  | wrlane (h : Hdr) (o : WrlaneOp)
  | matchI (h : Hdr) (o : MatchOp)
  | redux (h : Hdr) (o : ReduxOp)
  | scan (h : Hdr) (o : ReduxOp)
  | maxidx (h : Hdr) (o : FPlain)
  | elect (h : Hdr) (d : PNum)
  -- group 9: loads and stores (09)
  | ld (h : Hdr) (o : LdOp)
  | st (h : Hdr) (o : StOp)
  | lds (h : Hdr) (o : LdOp)
  | sts (h : Hdr) (o : StOp)
  | ldt (h : Hdr) (o : LdOp)
  | stt (h : Hdr) (o : StOp)
  | ldu (h : Hdr) (o : LdOp)
  | pref (h : Hdr) (o : PrefOp)
  -- group A: atomics and ordering (09)
  | atom (h : Hdr) (o : AtomF')
  | atoms (h : Hdr) (o : AtomF')
  | cas (h : Hdr) (o : CasF)
  | cass (h : Hdr) (o : CasF)
  | red (h : Hdr) (o : RedF)
  | fence (h : Hdr) (o : FenceOp)
  | cctl (h : Hdr) (o : CctlOp)
  | otsync (h : Hdr) (scope : Scope)
  -- group B: engines and majority (09, 23)
  | copy (h : Hdr) (o : CopyOp)
  | copyo (h : Hdr) (o : CopyOp)
  | bclose (h : Hdr) (mtx : Bool) (d : Dst)
  | bwait (h : Hdr) (mtx : Bool) (a : Src)
  | btest (h : Hdr) (mtx : Bool) (d : PNum) (a : Src)
  | mld (h : Hdr) (o : MldOp)
  | mst (h : Hdr) (o : MstOp)
  -- group C: matrix (13)
  | tcfg (h : Hdr) (t : BitVec 4) (a : Src)
  | tld (h : Hdr) (t : BitVec 4) (lw : Plain)
  | tst (h : Hdr) (t : BitVec 4) (lw : Plain)
  | tzero (h : Hdr) (t : BitVec 4)
  | mma (h : Hdr) (o : MmaOp)
  | mmab (h : Hdr) (o : MmaOp)
  | acz (h : Hdr) (ac : BitVec 5)
  | acld (h : Hdr) (o : AcldOp)
  | acst (h : Hdr) (o : AcstOp)
  | acrd (h : Hdr) (o : AcrdOp)
  | btake (h : Hdr)
  | bpass (h : Hdr) (b : Option Src)
  | bqry (h : Hdr) (d : Dst)
  -- group D: synchronisation, spans, tasks, traps (15, 16, 21)
  | barinit (h : Hdr) (n : BitVec 4) (a : Src)
  | bar (h : Hdr) (n : BitVec 4) (token : Option Src)
  | bara (h : Hdr) (n : BitVec 4) (d : Dst)
  | bardrop (h : Hdr) (n : BitVec 4)
  | barjoin (h : Hdr) (n : BitVec 4)
  | spanh (h : Hdr) (frz : Bool) (d : Dst)
  | spanq (h : Hdr) (d : Dst) (a : Src)
  | spanfrz (h : Hdr) (d : PNum) (a : Src)
  | spanthaw (h : Hdr) (a : Src)
  | spawn (h : Hdr) (o : SpawnOp)
  | join (h : Hdr) (d : Option Dst)
  | sdone (h : Hdr)
  | rqrd (h : Hdr) (e : BitVec 3) (w : BitVec 5) (d : Dst)
  | rqwr (h : Hdr) (e : BitVec 3) (w : BitVec 5) (a : Src)
  | rqdel (h : Hdr) (e : BitVec 3) (cmp : Bool)
  | kill (h : Hdr) (a : Src)
  | qend (h : Hdr)
  -- steps of the memory system, the engines and the Wellhead
  | memoryResponse (w k : Nat) (race err : Mask) (src : BitVec 3)
  | translationFault (w : Nat)
  | copyOperationComplete (k : EngineStep)
  | matrixOperationComplete (c : EngineStep)
  | groupPlacement (l : Nat)
  | preemption (t : PreTarget)
  | evictedWaveReturn (w : Nat)
  | joinResume (w : Nat)
  | launchCompletion (l : Nat)
  | regroupIntervalEnd (die : Nat) (plan : List (List Nat))
  | quantumEnd (w : Nat)
  | watchdogExpiry (w : Nat) (seconds : Word)
  -- the majority cells
  | majAccessStart (k : Nat)
  | majTagReply (k copy : Nat)
  | majCopyStore (m : Nat)
  | majLoadAnswer (k copy : Nat)
  | lossOfQuorum (k : Nat)
  | scrubStep (set cell : Nat)
  | stackUnreachable (tier : Bool) (n : Nat)
  | stackReturn (tier : Bool) (n : Nat) (lost : Bool)
  -- the Viaduct fabric
  | rtoExpiry (p : Nat)
  | rectoExpiry (p : Nat)
  | ackTimer (p : Nat)
  | ackOnly (f : Frame)
  | remoteRead (f : Frame)
  | remoteWrite (f : Frame)
  | remoteAtomic (f : Frame)
  | readResponse (f : Frame)
  | writeResponse (f : Frame)
  | atomicResponse (f : Frame)
  | errorResponse (f : Frame)
  | streamReset (f : Frame)
  | resetAcknowledge (f : Frame)
  | peerpWrite (p : Nat) (v : Word)
  | portLinkChange (i : Nat) (up : Bool)
  -- host commands
  | cmdNop (q : Nat) (irq : Bool) (len : Nat)
  | launch (q : Nat) (irq : Bool) (rec : DWord)
  | launchi (q : Nat) (irq : Bool) (rec grid : DWord)
  | waitv (q : Nat) (irq : Bool) (t : VTest)
  | signal (q : Nat) (irq add w64 : Bool) (addr value : DWord)
  | cmdFence (q : Nat) (irq : Bool)
  | cmdLoop (q : Nat) (irq : Bool) (back : BitVec 8) (count : Word)
  | ifv (q : Nat) (irq : Bool) (t : VTest) (skip : BitVec 8)
  | jump (q : Nat) (irq : Bool) (len : BitVec 20) (addr : DWord)
  | copyh (q : Nat) (irq : Bool) (dst src count : DWord)
  | setpow (q : Nat) (irq : Bool) (sel : BitVec 8) (v : DWord)
  | regroup (q : Nat) (irq : Bool) (dies : BitVec 4) (us : DWord)
  | cmdResume (q : Nat) (irq : Bool) (die : BitVec 2) (v : DWord)
  -- window writes
  | qtailWrite (q : Nat) (v : Word)
  | qrestart (q : Nat) (v : Word)
  | qcfgWrite (q : Nat) (v : Word)
  | qbaseWrite (q : Nat) (v : DWord)
  | queueSwitch (q : Nat) (on : Bool)
  | fqheadWrite (die : Nat) (v : Word)
  | fqbaseWrite (die : Nat) (size : Bool) (v : DWord)
  | resume (die : Nat) (v : DWord)
  | tlbinv (die : Nat) (v : DWord)
  | repsetWrite (n : BitVec 4) (v : DWord)
  | rebaseGo (v : Word)
  | aclkWrite (v : Word)
  | pauseWrite (v : Word)
  | registerWrite (off : Nat) (v : DWord)
  -- power, reset, link, host agents, SPDM
  | powerOver (watts : BitVec 16)
  | powerUnder (watts : BitVec 16)
  | thermalStateChange (core : Nat) (hot : Bool)
  | packageReset (img : ResetImages)
  | moduleTrainingFailure (m : BitVec 4)
  | hostMemoryAccess (a : HostAcc)
  | negotiateAlgorithms (asym hash : Word)
  | getCertificate (slot : BitVec 8) (ofs len : BitVec 16)
  | challenge (slot : BitVec 8) (nonce : BitVec 256)
  | getMeasurements (index : BitVec 8) (sign : Bool) (nonce : BitVec 256)
  -- debugger, and the remaining steps
  | debuggerStop (w : Nat)
  | debuggerResume (w : Nat)
  | debuggerWrite (w : Nat) (t : DbgTarget) (force : Bool)
  | unassignedOpcode (w0 w1 w2 : Word)
  | majStoreAnswer (k copy : Nat) (accept : Bool)
  | epochCounterReset (die : Nat)
  | discardedFrame (f : Frame)
  -- steps without operands: of the first die or tree for which the step is due
  | regroupInstall
  | quantumBoundary
  | tlbinvDone
  | rebaseComplete
  | energyWindowStart
  | getVersion
  | getCapabilities
  | getDigests
  | lossOfPower
  deriving DecidableEq, Repr

end Sys2Proof
end

