-- ==== Sys2Proof/Machine/Legality.lean ====
section
/-! DEFINITION. Which field values an instruction's entry accepts, and the class 0 cause of each refusal (R36-R49, R53,
R179 and the entries). The decoder and WellFormed use the same list; what cannot be written as a term of Syntax at all
(reserved codes, must-be-zero bits) is the decoder's business. -/

namespace Sys2Proof

/-! ## Type codes (R48) -/

/-- The width of an integer type in bits. -/
def IType.width : IType → Nat
  | .si32 | .ui32 => 32
  | .si16 | .ui16 => 16
  | .si8 | .ui8 => 8
  | .si64 | .ui64 => 64
  | .si4 | .ui4 => 4

/-- Whether an integer type is signed. -/
def IType.signed : IType → Bool
  | .si32 | .si16 | .si8 | .si64 | .si4 => true
  | .ui32 | .ui16 | .ui8 | .ui64 | .ui4 => false

/-- The 4-bit code of an integer type (R48). -/
def IType.code : IType → BitVec 4
  | .si32 => 0 | .ui32 => 1 | .si16 => 2 | .ui16 => 3 | .si8 => 4
  | .ui8 => 5 | .si64 => 6 | .ui64 => 7 | .si4 => 8 | .ui4 => 9

/-- The 4-bit code of an element type (R48). -/
def EType.code : EType → BitVec 4
  | .f32 => 0 | .f16 => 1 | .bf16 => 2 | .f16x2 => 3 | .bf16x2 => 4 | .f64 => 5 | .kf8e4 => 6
  | .kf8e5 => 7 | .kf4 => 8 | .si8 => 9 | .ui8 => 10 | .si4 => 11 | .ui4 => 12

/-- The width of one element in bits (R48); a packed type's element is one half. -/
def EType.width : EType → Nat
  | .f32 => 32 | .f64 => 64
  | .f16 | .bf16 | .f16x2 | .bf16x2 => 16
  | .kf8e4 | .kf8e5 | .si8 | .ui8 => 8
  | .kf4 | .si4 | .ui4 => 4

/-- The packed control width that selects an element of `n` bits (R35). -/
def eltWOf : Nat → EltW
  | 16 => .w16 | 8 => .w8 | 4 => .w4 | _ => .w32

/-- Types 32/64 (R99). -/
def IType.is3264 : IType → Bool
  | .si32 | .ui32 | .si64 | .ui64 => true
  | .si16 | .ui16 | .si8 | .ui8 | .si4 | .ui4 => false

/-- Types 32 (R99). -/
def IType.is32 : IType → Bool
  | .si32 | .ui32 => true
  | .si16 | .ui16 | .si8 | .ui8 | .si64 | .ui64 | .si4 | .ui4 => false

/-- Access width in bytes (R44). -/
def MWidth.bytes : MWidth → Nat
  | .w8 => 1 | .w16 => 2 | .w32 => 4 | .w64 => 8 | .w128 => 16 | .w512 => 64

/-! ## Operand kinds -/

/-- How an operand field is used: a whole 32-bit value that may select an element (R35), one that may select only one
element width (R120, R130, R131, R186), a whole register, a pair, a quad (R39), or a packed value with a swizzle. -/
inductive OpKind
  | single
  | only (e : EltW)
  | whole
  | pair
  | quad
  | packed (e : EltW)
  deriving DecidableEq, Repr

/-- Whether index `i` names an element of width `e` (R35). -/
def idxOk (e : EltW) (i : BitVec 3) : Bool :=
  match e with
  | .w32 => i == 0
  | .w16 => decide (i.toNat < 2)
  | .w8 => decide (i.toNat < 4)
  | .w4 => true

/-- Whether the packed control is legal for the operand kind (R35). -/
def ctlOk (k : OpKind) (e : EltW) (i : BitVec 3) : Bool :=
  match k with
  | .single => idxOk e i
  | .only o => (e == .w32 && i == 0) || (e == o && idxOk e i)
  | .whole | .pair | .quad => e == .w32 && i == 0
  | .packed o => (e == .w32 && i == 0) || (e == o && decide (i.toNat ≤ 4))

/-- The alignment of a direct register (R39). -/
def alignFaults (k : OpKind) (r : VNum) : List Cause :=
  match k with
  | .pair => if r.getLsbD 0 then [0x010] else []
  | .quad => if r.extractLsb' 0 2 = 0#2 then [] else [0x010]
  | .single | .only _ | .whole | .packed _ => []

/-- The pattern's own faults, and under PAT 000 those of the packed control (R34, R35). -/
def patFaults (k : OpKind) : Pat → List Cause
  | .elt e i => if ctlOk k e i then [] else [0x005]
  | .mir m => if 1 ≤ m.toNat ∧ m.toNat ≤ 5 then [] else [0x004]
  | .rot _ | .bc _ | .bfly _ | .dn _ | .up _ => []

/-- A special register as a source (R37): any of 0x00 to 0x1D at 32 bits, SPANCUR and CLOCKLO at 64. -/
def specFaults (k : OpKind) (n : BitVec 8) : List Cause :=
  match k with
  | .pair => if n = 0x0A ∨ n = 0x13 then [] else [0x00E]
  | .quad => [0x00E]
  | .single | .only _ | .whole | .packed _ => if n.toNat ≤ 0x1D then [] else [0x00E]

/-- The classes a source field accepts (R33, R36 to R38). -/
structure Classes where
  reg : Bool := true
  ind : Bool := true
  spec : Bool := true
  imm : Bool := true

/-- Every class. -/
def Classes.any : Classes := {}
/-- Register classes and special registers: a field whose entry names registers (R38). -/
def Classes.noImm : Classes := { imm := false }
/-- Class 00 alone. -/
def Classes.direct : Classes := { ind := false, spec := false, imm := false }
/-- Class 00 or a special register (R307). -/
def Classes.handle : Classes := { ind := false, imm := false }
/-- Class 00, a special register or an immediate (R235, WRLANE). -/
def Classes.noInd : Classes := { ind := false }

/-- The faults of a source field used as kind `k` (R33 to R39). -/
def srcFaults (c : Classes) (k : OpKind) : Src → List Cause
  | .reg r p _ => if c.reg then patFaults k p ++ alignFaults k r else [0x003]
  | .ind _ _ _ _ => if c.ind then [] else [0x003]
  | .spec n => if c.spec then specFaults k n else [0x003]
  | .imm _ => if c.imm then [] else [0x003]

/-- A source of any class. -/
def srcAny (k : OpKind) (s : Src) : List Cause := srcFaults .any k s

/-- A field read plainly has no pattern and no packed control (R435). -/
def plainPat : Src → List Cause
  | .reg _ p _ => if p = Pat.ident then [] else [0x00F]
  | .ind _ _ _ _ | .spec _ | .imm _ => []

/-- A source that, when direct, is read plainly (R217, R235, R435). -/
def srcPlain (c : Classes) (k : OpKind) : Src → List Cause
  | .reg r p fe => if c.reg then plainPat (.reg r p fe) ++ alignFaults k r else [0x003]
  | s => srcFaults c k s

/-- A packed destination takes no swizzle of its own (R36). -/
def swizzleFaults (k : OpKind) (e : EltW) (i : BitVec 3) : List Cause :=
  match k with
  | .packed _ => if e = .w32 ∧ i = 0 then [] else [0x00B]
  | .single | .only _ | .whole | .pair | .quad => []

/-- A destination field (R36): the packed control of its kind (R35), and no swizzle under a packed instruction. -/
def dstFaults (k : OpKind) : Dst → List Cause
  | .reg r e i =>
    (if ctlOk k e i then [] else [0x005]) ++ swizzleFaults k e i ++ alignFaults k r
  | .ind _ _ _ => []

/-- A register named by number alone: C of R32. -/
def cFaults (k : OpKind) (r : VNum) : List Cause := alignFaults k r

/-- `c` when the condition fails. -/
def need (b : Bool) (c : Cause) : List Cause := if b then [] else [c]

/-- The operand kind of an integer type's value (R95). -/
def IType.kind (t : IType) : OpKind := if t.width = 64 then .pair else .single

/-- The operand kind of an element type's value (R120). -/
def EType.kind : EType → OpKind
  | .f64 => .pair
  | .f16 | .bf16 => .only .w16
  | .f16x2 | .bf16x2 => .packed .w16
  | .f32 | .kf8e4 | .kf8e5 | .kf4 | .si8 | .ui8 | .si4 | .ui4 => .single

/-- The types of group 5 (R125). -/
def EType.short : EType → Bool
  | .f32 | .f16 | .bf16 | .f16x2 | .bf16x2 => true
  | .f64 | .kf8e4 | .kf8e5 | .kf4 | .si8 | .ui8 | .si4 | .ui4 => false

/-- F32, F16, BF16 and F64 (R111, R128, R235). -/
def EType.scalar : EType → Bool
  | .f32 | .f16 | .bf16 | .f64 => true
  | .f16x2 | .bf16x2 | .kf8e4 | .kf8e5 | .kf4 | .si8 | .ui8 | .si4 | .ui4 => false

/-- Element codes 0x6 to 0xC (R130). -/
def EType.narrow : EType → Bool
  | .kf8e4 | .kf8e5 | .kf4 | .si8 | .ui8 | .si4 | .ui4 => true
  | .f32 | .f16 | .bf16 | .f16x2 | .bf16x2 | .f64 => false

/-- The formats UNPK widens (R131). -/
def EType.unpackable : EType → Bool
  | .f16 | .bf16 | .kf8e4 | .kf8e5 | .kf4 | .si8 | .ui8 | .si4 | .ui4 => true
  | .f32 | .f16x2 | .bf16x2 | .f64 => false

/-! ## Families -/

/-- Two sources of one type (group 1, R99). -/
def intFaults (okTy okSat : Bool) (o : IntOp) : List Cause :=
  need okTy 0x00D ++ need (okSat || !o.sat) 0x002
    ++ dstFaults o.ty.kind o.d ++ srcAny o.ty.kind o.a ++ srcAny o.ty.kind o.b

/-- One source (group 1). -/
def intUnFaults (okTy okSat : Bool) (o : IntUn) : List Cause :=
  need okTy 0x00D ++ need (okSat || !o.sat) 0x002 ++ dstFaults o.ty.kind o.d ++ srcAny o.ty.kind o.a

/-- Three sources (group 1); `k` is the kind of every operand. -/
def intTriFaults (okTy okSat : Bool) (k : OpKind) (o : IntTri) : List Cause :=
  need okTy 0x00D ++ need (okSat || !o.sat) 0x002
    ++ dstFaults k o.d ++ srcAny k o.a ++ srcAny k o.b ++ cFaults k o.c

/-- IADDC and ISUBB (R102). -/
def carryFaults (o : CarryOp) : List Cause :=
  need o.ty.is32 0x00D ++ need (!o.ci0 || o.cip == 0) 0x002
    ++ dstFaults .single o.d ++ srcAny .single o.a ++ srcAny .single o.b

/-- Shifts and bit fields: A and D by type, B single (R106). -/
def logFaults (okTy : Bool) (bk : OpKind) (o : LogOp) : List Cause :=
  need okTy 0x00D ++ dstFaults o.ty.kind o.d ++ srcAny o.ty.kind o.a ++ srcAny bk o.b

/-- One-source operations of groups 2 and 3; `dk` is the kind of D. -/
def logUnFaults (dk : OpKind) (o : LogUn) : List Cause :=
  need o.ty.is3264 0x00D ++ dstFaults dk o.d ++ srcAny o.ty.kind o.a

/-- Three-source operations of groups 2 and 3. -/
def logTriFaults (okTy : Bool) (k bk ck : OpKind) (o : LogTri) : List Cause :=
  need okTy 0x00D ++ dstFaults k o.d ++ srcAny k o.a ++ srcAny bk o.b ++ cFaults ck o.c

/-- Two-source floating operations (R122, R125). -/
def fbinFaults (okTy : Bool) (bk : OpKind) (o : FBin) : List Cause :=
  need okTy 0x00D ++ dstFaults o.ty.kind o.d ++ srcAny o.ty.kind o.a ++ srcAny bk o.b

/-- One-source floating operations with a rounding field. -/
def funFaults (okTy : Bool) (o : FUn) : List Cause :=
  need okTy 0x00D ++ dstFaults o.ty.kind o.d ++ srcAny o.ty.kind o.a

/-- Multiply-add. -/
def ftriFaults (okTy : Bool) (o : FTri) : List Cause :=
  need okTy 0x00D ++ dstFaults o.ty.kind o.d ++ srcAny o.ty.kind o.a ++ srcAny o.ty.kind o.b ++ cFaults o.ty.kind o.c

/-- Minimum and maximum. -/
def fminFaults (okTy : Bool) (o : FMinOp) : List Cause :=
  need okTy 0x00D ++ dstFaults o.ty.kind o.d ++ srcAny o.ty.kind o.a ++ srcAny o.ty.kind o.b

/-- Round to integral. -/
def frintFaults (okTy : Bool) (o : FRintOp) : List Cause :=
  need okTy 0x00D ++ dstFaults o.ty.kind o.d ++ srcAny o.ty.kind o.a

/-- One source without rounding; `dk` is the kind of D. -/
def fplainFaults (okTy : Bool) (dk : OpKind) (o : FPlain) : List Cause :=
  need okTy 0x00D ++ dstFaults dk o.d ++ srcAny (if okTy then o.ty.kind else .single) o.a

/-- The kind of a side of CVT (R128). -/
def CvtTy.kind : CvtTy → OpKind
  | .int t => t.kind
  | .elt t => if t.scalar then t.kind else .single

/-- Whether CVT accepts the side (R128). -/
def CvtTy.ok : CvtTy → Bool
  | .int _ => true
  | .elt t => t.scalar

/-- The kind of a value whose entry accepts scalar formats only. -/
def EType.scalarKind (t : EType) : OpKind := if t.scalar then t.kind else .single

/-- CVT (R128): SAT is refused from floating to integer. -/
def cvtFaults (o : CvtOp) : List Cause :=
  need o.dst.ok 0x00D ++ need o.src.ok 0x00D
    ++ (match o.dst, o.src with
        | .int _, .elt _ => need (!o.sat || !o.src.ok) 0x002
        | .int _, .int _ | .elt _, .int _ | .elt _, .elt _ => [])
    ++ dstFaults o.dst.kind o.d ++ srcAny o.src.kind o.a

/-- CVTP (R129). -/
def cvtpFaults (o : CvtpOp) : List Cause :=
  need (o.dst == .f16x2 || o.dst == .bf16x2) 0x00D ++ need (o.src == .f32 || o.src == .f64) 0x00D
    ++ dstFaults (.packed .w16) o.d ++ srcAny o.src.scalarKind o.a ++ srcAny o.src.scalarKind o.b

/-- CVTN (R130). -/
def cvtnFaults (o : CvtnOp) : List Cause :=
  (match o.dst with
    | some t => need t.narrow 0x00D ++ dstFaults (if t.narrow then .only (eltWOf t.width) else .single) o.d
    | none => dstFaults .single o.d)
    ++ need o.src.scalar 0x00D ++ srcAny o.src.scalarKind o.a

/-- UNPK (R131). -/
def unpkFaults (o : UnpkOp) : List Cause :=
  (match o.src with
    | .elt t => need t.unpackable 0x00D ++ srcAny (if t.unpackable then .only (eltWOf t.width) else .single) o.a
    | .fmtA | .fmtB => srcAny .single o.a)
    ++ dstFaults .single o.d

/-- DP2, DP4, DP8 with element width `e` (R132). -/
def dpFaults (e : EltW) (o : DpOp) : List Cause :=
  dstFaults .single o.d ++ srcAny (.packed e) o.a ++ srcAny (.packed e) o.b

/-- A pair under W64, a single register otherwise. -/
def w64Kind (w64 : Bool) : OpKind := if w64 then .pair else .single

/-! ## Form M (R44 to R47, R179) -/

/-- The scopes an instruction's ordered forms accept. -/
inductive ScopeSet | global | scratch | lane
  deriving DecidableEq, Repr

/-- What a row of R179 accepts. -/
structure MemRow where
  orders : List Order
  scopes : ScopeSet
  plain : List MWidth
  ordered : List MWidth
  spaces : List Space
  cache : Bool

/-- Widths 8 to 128. -/
def widths128 : List MWidth := [.w8, .w16, .w32, .w64, .w128]

/-- The rows of R179 and R383. -/
def rowLD : MemRow := ⟨[.plain, .rlx, .acq, .sc], .global, widths128, [.w32, .w64], [.ordinary, .handle], true⟩
/-- ST. -/
def rowST : MemRow := ⟨[.plain, .rlx, .rel, .sc], .global, widths128, [.w32, .w64], [.ordinary, .handle], true⟩
/-- LDU. -/
def rowLDU : MemRow := ⟨[.plain, .rlx, .acq], .global, [.w32, .w64], [.w32, .w64], [.ordinary, .handle], true⟩
/-- PREF. -/
def rowPREF : MemRow := ⟨[.plain], .lane, widths128, [], [.ordinary], true⟩
/-- LDS. -/
def rowLDS : MemRow := ⟨[.plain, .rlx, .acq, .sc], .scratch, widths128, [.w32, .w64], [.ordinary, .sps], false⟩
/-- STS. -/
def rowSTS : MemRow := ⟨[.plain, .rlx, .rel, .sc], .scratch, widths128, [.w32, .w64], [.ordinary, .sps], false⟩
/-- LDT and STT. -/
def rowLDT : MemRow := ⟨[.plain], .lane, widths128, [], [.ordinary], false⟩
/-- ATOM and CAS. -/
def rowATOM : MemRow :=
  ⟨[.rlx, .acq, .rel, .ar, .sc], .global, [.w32, .w64], [.w32, .w64], [.ordinary, .handle], true⟩
/-- ATOMS and CASS. -/
def rowATOMS : MemRow :=
  ⟨[.rlx, .acq, .rel, .ar, .sc], .scratch, [.w32, .w64], [.w32, .w64], [.ordinary, .sps], false⟩
/-- RED. -/
def rowRED : MemRow := ⟨[.rlx, .rel], .global, [.w32, .w64], [.w32, .w64], [.ordinary, .handle], true⟩

/-- Whether an ordered access of the row may carry the scope under the space. -/
def scopeOk (r : ScopeSet) (sp : Space) (s : Scope) : Bool :=
  match r with
  | .global => s != .ln
  | .lane => s == .ln
  | .scratch =>
    match sp with
    | .ordinary => s == .wv || s == .gp || s == .co
    | .sps => s == .sp
    | .handle => s == .wv || s == .gp || s == .co || s == .sp

/-- The Form M faults of an instruction of row `r` (R46, R47, R179). -/
def memFaults (r : MemRow) (m : MemF) : List Cause :=
  need (r.orders.contains m.order) 0x008
    ++ (if m.order = .plain ∧ r.orders.contains .plain then
          need (m.scope == .ln) 0x007 ++ need (m.space != .handle) 0x012 ++ need (r.plain.contains m.width) 0x009
        else need (scopeOk r.scopes m.space m.scope) 0x007
          ++ need (r.ordered.contains m.width || (r.ordered.isEmpty && r.plain.contains m.width)) 0x009)
    ++ need (r.spaces.contains m.space) 0x012
    ++ need (m.space != .handle || m.scope == .sp) 0x012
    ++ need (r.cache || m.cache == .dflt) 0x012

/-- The kind of a data register by width; an element only of the access width (R44, R186). -/
def MWidth.kind : MWidth → OpKind
  | .w8 => .only .w8 | .w16 => .only .w16 | .w32 => .whole | .w64 => .pair | .w128 => .quad | .w512 => .whole

/-- The offset field of Form M: immediate or 32-bit register, or the handle pair (R44, R46). -/
def offFaults (sp : Space) (b : Src) : List Cause :=
  match sp with
  | .ordinary => srcAny .single b
  | .handle | .sps => srcFaults .direct .pair b

/-- Loads. -/
def ldFaults (r : MemRow) (o : LdOp) : List Cause :=
  memFaults r o.m ++ dstFaults o.m.width.kind o.d ++ srcFaults .direct .pair o.a ++ offFaults o.m.space o.b

/-- Stores; the data operand names a register (R44). -/
def stFaults (r : MemRow) (o : StOp) : List Cause :=
  memFaults r o.m ++ srcFaults .noImm o.m.width.kind o.d ++ srcFaults .direct .pair o.a ++ offFaults o.m.space o.b

/-- The B layout of an atomic (R191). -/
def atomOffFaults (sp : Space) : AtomOff → List Cause
  | .ofs _ => need (sp == .ordinary) 0x012
  | .handle r => need (sp != .ordinary) 0x012 ++ alignFaults .pair r

/-- OP and TYPE of an atomic (R192): the type's row, and its width against WIDTH. -/
def atomOpFaults (w : MWidth) : AtomOp → List Cause
  | .int op ty =>
    (match op with
      | .inc | .dec => need (ty == .ui32 || ty == .ui64) 0x00D
      | .add | .min | .max | .and | .or | .xor | .exch => need ty.is3264 0x00D)
    ++ need (ty.width == 8 * w.bytes) 0x009
  | .fp _ ty => need (ty == .f32 || ty == .f64) 0x00D
      ++ need ((if ty.short && ty != .f16 && ty != .bf16 then 32 else ty.width) == 8 * w.bytes) 0x009

/-- ATOM and ATOMS. -/
def atomFaults (r : MemRow) (o : AtomF') : List Cause :=
  memFaults r o.m ++ atomOpFaults o.m.width o.op ++ dstFaults o.m.width.kind o.d
    ++ srcFaults .direct .pair o.a ++ atomOffFaults o.m.space o.off

/-- CAS and CASS: a pair at width 32, a quad at width 64 (R194). -/
def casFaults (r : MemRow) (o : CasF) : List Cause :=
  memFaults r o.m ++ dstFaults (if o.m.width = .w64 then .quad else .pair) o.d
    ++ srcFaults .direct .pair o.a ++ atomOffFaults o.m.space o.off

/-- RED. -/
def redFaults (o : RedF) : List Cause :=
  memFaults rowRED o.m ++ atomOpFaults o.m.width o.op ++ srcFaults .noImm o.m.width.kind o.d
    ++ srcFaults .direct .pair o.a ++ atomOffFaults o.m.space o.off

/-- MLD and MST (R383). -/
def majFaults (orders : List Order) (sc : Scope) (od : Order) : List Cause :=
  need (orders.contains od) 0x008 ++ need (if od = .plain then sc == .ln else sc != .ln) 0x007

/-! ## Every instruction -/

/-- The opcodes of R50, by group. -/
def groupSize : Nat → Nat
  | 0 => 16 | 1 => 17 | 2 => 13 | 3 => 10 | 4 => 12 | 5 => 16 | 6 => 11 | 7 => 5 | 8 => 9 | 9 => 8
  | 10 => 8 | 11 => 7 | 12 => 13 | 13 => 17 | _ => 0

/-- Whether the opcode is one of the 162 assigned ones (R50). -/
def assigned (opc : BitVec 10) : Bool := decide (opc.toNat % 64 < groupSize (opc.toNat / 64))

/-- The class 0 causes that the instruction's own field values raise (R53); empty for a well-formed instruction. -/
def Instr.faults : Instr → List Cause
  | .nop _ | .bra _ _ | .brc _ _ _ _ => []
  | .brx _ _ _ b => srcPlain { imm := false } .whole b
  | .call _ _ _ t =>
    match t with
    | .direct _ => []
    | .reg b => srcPlain { imm := false } .whole b
  | .ret _ _ _ b => srcPlain { imm := false } .whole b
  | .loop _ _ _ | .sync _ | .sealB _ _ | .exit _ _ | .yield _ | .trap _ _ | .rtt _ _ _ _ | .bkpt _ _ => []
  | .srd _ w64 d n =>
    dstFaults (w64Kind w64) d
      ++ (if w64 then specFaults .pair n else need (decide (n.toNat ≤ 0x1D ∨ (0x40 ≤ n.toNat ∧ n.toNat ≤ 0x47))) 0x00E)
  | .swr _ _ a => srcAny .single a
  | .iadd _ o => intFaults true true o
  | .iaddI _ o => need o.ty.is32 0x00D ++ dstFaults .single o.d
  | .isub _ o => intFaults true true o
  | .iaddc _ o => carryFaults o
  | .isubb _ o => carryFaults o
  | .imul _ o => intFaults true true o
  | .imulh _ o => intFaults o.ty.is3264 false o
  | .imad _ o => intTriFaults true true o.ty.kind o
  | .imadw _ o =>
    need o.ty.is32 0x00D ++ need (!o.sat) 0x002 ++ dstFaults .pair o.d ++ srcAny .single o.a ++ srcAny .single o.b
      ++ cFaults .pair o.c
  | .idiv _ o => intFaults true false o
  | .irem _ o => intFaults true false o
  | .iabs _ o => intUnFaults o.ty.signed true o
  | .ineg _ o => intUnFaults true true o
  | .imin _ o => intFaults true false o
  | .imax _ o => intFaults true false o
  | .iadd3 _ o => intTriFaults (o.ty.width != 64) true .single o
  | .isad _ o => intTriFaults (o.ty.width != 64) false .single o
  | .lea _ o =>
    -- the pair A accepts an immediate, as a 64-bit source does (log entry 27)
    need o.ty.is32 0x00D ++ dstFaults .pair o.d ++ srcAny .pair o.a ++ srcAny .single o.b
  | .blut _ o => need o.ty.is3264 0x00D ++ dstFaults o.ty.kind o.d ++ srcAny o.ty.kind o.a ++ srcAny o.ty.kind o.b
  | .blutI _ o => need o.ty.is32 0x00D ++ dstFaults .single o.d
  | .shl _ o => logFaults o.ty.is3264 .single o
  | .shr _ o => logFaults o.ty.is3264 .single o
  | .sar _ o => logFaults o.ty.is3264 .single o
  | .rot _ o => logFaults o.ty.is3264 .single o
  | .funl _ o =>
    need o.ty.is32 0x00D ++ dstFaults .single o.d ++ srcAny .single o.a ++ srcAny .single o.b
  | .bfe _ o => logFaults o.ty.is3264 .single o
  | .bfi _ o => logTriFaults o.ty.is3264 o.ty.kind .single o.ty.kind o
  | .popc _ o => logUnFaults .single o
  | .clz _ o => logUnFaults .single o
  | .ctz _ o => logUnFaults .single o
  | .brev _ o => logUnFaults o.ty.kind o
  | .bsel _ o => logTriFaults o.ty.is32 .single .single .single o
  | .mov _ o => logUnFaults o.ty.kind o
  | .movi _ o => need o.ty.is32 0x00D ++ dstFaults .single o.d
  | .sel _ o => logTriFaults o.ty.is3264 o.ty.kind o.ty.kind .single o
  | .icmp _ o => need o.ty.is3264 0x00D ++ srcAny o.ty.kind o.a ++ srcAny o.ty.kind o.b
  | .icmpI _ o => need o.ty.is32 0x00D
  | .fcmp _ o =>
    need o.ty.scalar 0x00D ++ need (!(o.tot && o.u)) 0x002 ++ srcAny o.ty.scalarKind o.a
      ++ srcAny o.ty.scalarKind o.b
  | .plut _ _ => []
  | .psave _ d => dstFaults .single d
  | .pload _ _ a => srcFaults .noImm .single a
  | .shape _ u d a => dstFaults .single d ++ srcFaults (if u then .any else .direct) .single a
  | .affine _ d a b => dstFaults .single d ++ srcAny .single a ++ srcAny .single b
  | .dadd _ o => fbinFaults (o.ty == .f64) o.ty.kind o
  | .dmul _ o => fbinFaults (o.ty == .f64) o.ty.kind o
  | .dfma _ o => ftriFaults (o.ty == .f64) o
  | .ddiv _ o => fbinFaults (o.ty == .f64) o.ty.kind o
  | .dsqrt _ o => funFaults (o.ty == .f64) o
  | .dmin _ o => fminFaults (o.ty == .f64) o
  | .dmax _ o => fminFaults (o.ty == .f64) o
  | .drint _ o => frintFaults (o.ty == .f64) o
  | .dscalb _ o => fbinFaults (o.ty == .f64) .single o
  | .dgetexp _ o => fplainFaults (o.ty == .f64) .pair o
  | .dgetmant _ o => fplainFaults (o.ty == .f64) .pair o
  | .dclass _ o => fplainFaults (o.ty == .f64) .single o
  | .fadd _ o => fbinFaults o.ty.short o.ty.kind o
  | .fmul _ o => fbinFaults o.ty.short o.ty.kind o
  | .ffma _ o => ftriFaults o.ty.short o
  | .fdiv _ o => fbinFaults o.ty.short o.ty.kind o
  | .fsqrt _ o => funFaults o.ty.short o
  | .fmin _ o => fminFaults o.ty.short o
  | .fmax _ o => fminFaults o.ty.short o
  | .frint _ o => frintFaults o.ty.short o
  | .fscalb _ o => fbinFaults o.ty.short .single o
  | .fclass _ o => fplainFaults o.ty.short o.ty.kind o
  | .frcp _ o => fplainFaults o.ty.short o.ty.kind o
  | .frsq _ o => fplainFaults o.ty.short o.ty.kind o
  | .fex2 _ o => fplainFaults o.ty.short o.ty.kind o
  | .flg2 _ o => fplainFaults o.ty.short o.ty.kind o
  | .fsin _ o => fplainFaults o.ty.short o.ty.kind o
  | .fcos _ o => fplainFaults o.ty.short o.ty.kind o
  | .cvt _ o => cvtFaults o
  | .cvtp _ o => cvtpFaults o
  | .cvtn _ o => cvtnFaults o
  | .unpk _ o => unpkFaults o
  | .dp2 _ o => dpFaults .w16 o
  | .dp4 _ o => dpFaults .w8 o
  | .dp8 _ o => dpFaults .w4 o
  | .fmtset _ _ => []
  | .fmtget _ d => dstFaults .single d
  | .rngset _ a => srcAny .pair a
  | .rng _ d => dstFaults .quad d
  | .xset _ _ _ a => srcAny .single a
  | .xidx _ _ a => srcAny .single a
  | .xrd _ _ _ d => dstFaults .single d
  | .xadd _ _ a => srcAny .single a
  | .xclr _ _ => []
  | .lpick _ o =>
    dstFaults (w64Kind o.w64) o.d ++ alignFaults (w64Kind o.w64) o.a.r ++ srcAny .single o.b
      ++ (match o.c with | some c => cFaults (w64Kind o.w64) c | none => [])
  | .poll _ d _ =>
    match d with
    | .pred _ _ => []
    | .mask d => dstFaults .single d
  | .rdlane _ o => dstFaults (w64Kind o.w64) o.d ++ alignFaults (w64Kind o.w64) o.a.r ++ srcAny .single o.b
  | .wrlane _ o => dstFaults (w64Kind o.w64) o.d ++ srcPlain .noInd (w64Kind o.w64) o.a ++ srcAny .single o.b
  | .matchI _ o => dstFaults (w64Kind o.w64) o.d ++ srcAny (w64Kind o.w64) o.a
  | .redux _ o => need o.ty.is3264 0x00D ++ need (!o.excl) 0x002 ++ dstFaults o.ty.kind o.d ++ srcAny o.ty.kind o.a
  | .scan _ o => need o.ty.is3264 0x00D ++ dstFaults o.ty.kind o.d ++ srcAny o.ty.kind o.a
  | .maxidx _ o => fplainFaults o.ty.scalar .single o
  | .elect _ _ => []
  | .ld _ o => ldFaults rowLD o
  | .st _ o => stFaults rowST o
  | .lds _ o => ldFaults rowLDS o
  | .sts _ o => stFaults rowSTS o
  | .ldt _ o => ldFaults rowLDT o
  | .stt _ o => stFaults rowLDT o
  | .ldu _ o => ldFaults rowLDU o
  | .pref _ o => memFaults rowPREF o.m ++ srcFaults .direct .pair o.a ++ offFaults o.m.space o.b
  | .atom _ o => atomFaults rowATOM o
  | .atoms _ o => atomFaults rowATOMS o
  | .cas _ o => casFaults rowATOM o
  | .cass _ o => casFaults rowATOMS o
  | .red _ o => redFaults o
  | .fence _ o =>
    need (o.scope != .ln) 0x007 ++ need (o.order != .plain && o.order != .rlx) 0x008
      ++ (match o.hnd with
          | some b => need (o.scope == .sp) 0x012 ++ srcFaults .direct .pair b
          | none => [])
  | .cctl _ o =>
    need (o.scope == .co || o.scope == .di || o.scope == .pk || o.scope == .hs || o.scope == .sy) 0x007
      ++ (match o.a with | some a => srcAny .pair a | none => [])
  | .otsync _ sc => need (sc == .co || sc == .di || sc == .pk) 0x007
  | .copy _ o => srcFaults .noImm .pair o.a ++ srcFaults .noImm .pair o.b
  | .copyo _ o => srcFaults .noImm .quad o.a ++ srcFaults .noImm .pair o.b
  | .bclose _ _ d => dstFaults .single d
  | .bwait _ _ a => srcAny .single a
  | .btest _ _ _ a => srcAny .single a
  | .mld _ o => majFaults [.plain, .rlx, .acq, .sc] o.scope o.order ++ dstFaults .whole o.d ++ srcFaults .direct .pair o.a
  | .mst _ o =>
    majFaults [.plain, .rlx, .rel, .sc] o.scope o.order ++ srcFaults .noImm .whole o.d ++ srcFaults .direct .pair o.a
  | .tcfg _ _ a => srcAny .single a
  | .tld _ _ _ | .tst _ _ _ | .tzero _ _ | .mma _ _ | .mmab _ _ | .acz _ _ => []
  | .acld _ o => srcAny .single o.b
  | .acst _ o =>
    (match o.tgt with
      | .scratch _ => []
      | .object q => need (o.ty != .si32) 0x00D ++ srcFaults .noImm .quad q)
    ++ srcAny .single o.b
  | .acrd _ o => dstFaults (w64Kind o.w64) o.d ++ srcAny .single o.b
  | .btake _ => []
  | .bpass _ b => match b with | some b => srcAny .single b | none => []
  | .bqry _ d => dstFaults .single d
  | .barinit _ _ a => srcAny .single a
  | .bar _ _ t => match t with | some a => srcAny .single a | none => []
  | .bara _ _ d => dstFaults .single d
  | .bardrop _ _ | .barjoin _ _ => []
  | .spanh _ _ d => dstFaults .pair d
  | .spanq _ d a => dstFaults .quad d ++ hndFaults a
  | .spanfrz _ _ a => hndFaults a
  | .spanthaw _ a => hndFaults a
  | .spawn _ o => srcFaults .direct .pair o.a ++ srcAny .single o.b ++ cFaults .pair o.c
  | .join _ d => match d with | some d => dstFaults .single d | none => []
  | .sdone _ => []
  | .rqrd _ _ w d => need (decide (w.toNat ≤ 20)) 0x002 ++ dstFaults .single d
  | .rqwr _ _ w a => need (decide (w.toNat ≤ 20)) 0x002 ++ srcAny .single a
  | .rqdel _ _ _ => []
  | .kill _ a => srcAny .single a
  | .qend _ => []
  | .unassignedOpcode _ _ w2 => need (!assigned (w2.extractLsb' 22 10)) 0x001
  -- steps of the other agents have no encoding
  | .memoryResponse .. | .translationFault .. | .copyOperationComplete .. | .matrixOperationComplete ..
  | .groupPlacement .. | .preemption .. | .evictedWaveReturn .. | .joinResume .. | .launchCompletion ..
  | .regroupIntervalEnd .. | .regroupInstall | .quantumEnd .. | .quantumBoundary | .watchdogExpiry ..
  | .majAccessStart .. | .majTagReply .. | .majCopyStore .. | .majLoadAnswer .. | .lossOfQuorum .. | .scrubStep ..
  | .rebaseComplete | .stackUnreachable .. | .stackReturn .. | .rtoExpiry .. | .rectoExpiry .. | .ackTimer ..
  | .ackOnly .. | .remoteRead .. | .remoteWrite .. | .remoteAtomic .. | .readResponse .. | .writeResponse ..
  | .atomicResponse .. | .errorResponse .. | .streamReset .. | .resetAcknowledge .. | .peerpWrite ..
  | .portLinkChange .. | .cmdNop .. | .launch .. | .launchi .. | .waitv .. | .signal .. | .cmdFence .. | .cmdLoop ..
  | .ifv .. | .jump .. | .copyh .. | .setpow .. | .regroup .. | .cmdResume .. | .qtailWrite .. | .qrestart ..
  | .qcfgWrite .. | .qbaseWrite .. | .queueSwitch .. | .fqheadWrite .. | .fqbaseWrite .. | .resume .. | .tlbinv ..
  | .tlbinvDone | .repsetWrite .. | .rebaseGo .. | .aclkWrite .. | .pauseWrite .. | .registerWrite ..
  | .energyWindowStart | .powerOver .. | .powerUnder .. | .thermalStateChange .. | .packageReset ..
  | .moduleTrainingFailure .. | .hostMemoryAccess .. | .getVersion | .getCapabilities | .negotiateAlgorithms ..
  | .getDigests | .getCertificate .. | .challenge .. | .getMeasurements .. | .debuggerStop .. | .debuggerResume ..
  | .debuggerWrite .. | .majStoreAnswer .. | .epochCounterReset .. | .discardedFrame .. | .lossOfPower => []
where
  /-- A handle operand: a class 00 pair or SPANCUR (R307). -/
  hndFaults : Src → List Cause
    | .spec n => if n = 0x0A then [] else [0x00E]
    | s => srcFaults .handle .pair s

/-- Whether the constructor is a step of another agent, without an encoding, rather than an instruction of a split. -/
def Instr.isStep : Instr → Bool
  | .memoryResponse .. | .translationFault .. | .copyOperationComplete .. | .matrixOperationComplete ..
  | .groupPlacement .. | .preemption .. | .evictedWaveReturn .. | .joinResume .. | .launchCompletion ..
  | .regroupIntervalEnd .. | .regroupInstall | .quantumEnd .. | .quantumBoundary | .watchdogExpiry ..
  | .majAccessStart .. | .majTagReply .. | .majCopyStore .. | .majLoadAnswer .. | .lossOfQuorum .. | .scrubStep ..
  | .rebaseComplete | .stackUnreachable .. | .stackReturn .. | .rtoExpiry .. | .rectoExpiry .. | .ackTimer ..
  | .ackOnly .. | .remoteRead .. | .remoteWrite .. | .remoteAtomic .. | .readResponse .. | .writeResponse ..
  | .atomicResponse .. | .errorResponse .. | .streamReset .. | .resetAcknowledge .. | .peerpWrite ..
  | .portLinkChange .. | .cmdNop .. | .launch .. | .launchi .. | .waitv .. | .signal .. | .cmdFence .. | .cmdLoop ..
  | .ifv .. | .jump .. | .copyh .. | .setpow .. | .regroup .. | .cmdResume .. | .qtailWrite .. | .qrestart ..
  | .qcfgWrite .. | .qbaseWrite .. | .queueSwitch .. | .fqheadWrite .. | .fqbaseWrite .. | .resume .. | .tlbinv ..
  | .tlbinvDone | .repsetWrite .. | .rebaseGo .. | .aclkWrite .. | .pauseWrite .. | .registerWrite ..
  | .energyWindowStart | .powerOver .. | .powerUnder .. | .thermalStateChange .. | .packageReset ..
  | .moduleTrainingFailure .. | .hostMemoryAccess .. | .getVersion | .getCapabilities | .negotiateAlgorithms ..
  | .getDigests | .getCertificate .. | .challenge .. | .getMeasurements .. | .debuggerStop .. | .debuggerResume ..
  | .debuggerWrite .. | .majStoreAnswer .. | .epochCounterReset .. | .discardedFrame .. | .lossOfPower => true
  | _ => false

end Sys2Proof
end

