-- ==== Sys2Proof/Machine/Float.lean ====
section
/-! DEFINITION. Floating-point arithmetic on bit patterns: every result is formed exactly over the integers and rounded once
(R79 to R91, R124, R126, R128). A bit pattern is a Nat below 2^w of its format. -/

namespace Sys2Proof.Machine

/-! ## Formats (R79, R80) -/

/-- A binary format: width, exponent and fraction bits, bias, and whether it has infinities and NaNs. -/
structure Fmt where
  w : Nat
  e : Nat
  m : Nat
  bias : Int
  special : Bool
  deriving DecidableEq, Repr

/-- binary64. -/
def f64 : Fmt := ⟨64, 11, 52, 1023, true⟩
/-- binary32. -/
def f32 : Fmt := ⟨32, 8, 23, 127, true⟩
/-- binary16. -/
def f16 : Fmt := ⟨16, 5, 10, 15, true⟩
/-- bfloat16. -/
def bf16 : Fmt := ⟨16, 8, 7, 127, true⟩
/-- KF8E4. -/
def kf8e4 : Fmt := ⟨8, 4, 3, 7, true⟩
/-- KF8E5. -/
def kf8e5 : Fmt := ⟨8, 5, 2, 15, true⟩
/-- KF4. -/
def kf4 : Fmt := ⟨4, 2, 1, 1, false⟩

/-- The format of one element of an element type; integer element types have none and read as F32. -/
def fmtOf : EType → Fmt
  | .f32 => f32 | .f16 | .f16x2 => f16 | .bf16 | .bf16x2 => bf16 | .f64 => f64
  | .kf8e4 => kf8e4 | .kf8e5 => kf8e5 | .kf4 => kf4
  | .si8 | .ui8 | .si4 | .ui4 => f32

/-- The format code of R85: 0 F64, 1 F32, 2 F16, 3 BF16, 4 KF8E4, 5 KF8E5. -/
def fmtCode (f : Fmt) : Nat :=
  if f = f64 then 0 else if f = f32 then 1 else if f = f16 then 2 else if f = bf16 then 3 else if f = kf8e4 then 4 else 5

/-- The exponent of the smallest normal number. -/
def Fmt.emin (f : Fmt) : Int := 1 - f.bias
/-- The exponent of the largest finite number. -/
def Fmt.emax (f : Fmt) : Int := (if f.special then 2 ^ f.e - 2 else 2 ^ f.e - 1) - f.bias
/-- The encoding of +infinity, for a format that has one. -/
def Fmt.inf (f : Fmt) : Nat := (2 ^ f.e - 1) * 2 ^ f.m
/-- The encoding of the largest finite number. -/
def Fmt.largest (f : Fmt) : Nat := if f.special then f.inf - 1 else 2 ^ (f.w - 1) - 1
/-- The default NaN (R79, R80). -/
def Fmt.nan (f : Fmt) : Nat := f.inf + 2 ^ (f.m - 1)
/-- A magnitude's encoding with a sign. -/
def Fmt.signed (f : Fmt) (neg : Bool) (mag : Nat) : Nat := if neg then mag + 2 ^ (f.w - 1) else mag

/-- A decoded value: a finite one is (−1)^neg × mag × 2^exp. -/
inductive FVal
  | fin (neg : Bool) (mag : Nat) (exp : Int)
  | inf (neg : Bool)
  | nan (neg quiet : Bool) (frac : Nat)
  deriving DecidableEq, Repr

/-- Decoding (R79, R80); every KF8E4 NaN is quiet. -/
def Fmt.decode (f : Fmt) (x : Nat) : FVal :=
  let neg := x / 2 ^ (f.w - 1) % 2 == 1
  let ex := x / 2 ^ f.m % 2 ^ f.e
  let fr := x % 2 ^ f.m
  if f.special && ex == 2 ^ f.e - 1 then
    if fr = 0 then .inf neg else .nan neg (decide (f = kf8e4) || decide (fr ≥ 2 ^ (f.m - 1))) fr
  else if ex = 0 then .fin neg fr (f.emin - f.m)
  else .fin neg (fr + 2 ^ f.m) ((ex : Int) - f.bias - f.m)

/-- Whether the value is a NaN. -/
def FVal.isNan : FVal → Bool
  | .nan _ _ _ => true
  | .fin _ _ _ | .inf _ => false
/-- Whether the value is a signalling NaN. -/
def FVal.isSnan : FVal → Bool
  | .nan _ q _ => !q
  | .fin _ _ _ | .inf _ => false
/-- The sign. -/
def FVal.neg : FVal → Bool
  | .fin n _ _ | .inf n | .nan n _ _ => n
/-- Whether the value is a zero. -/
def FVal.isZero : FVal → Bool
  | .fin _ m _ => m == 0
  | .inf _ | .nan _ _ _ => false

/-! ## Flags (R84): bit e of FSTAT -/

/-- Invalid. -/
def flIV : BitVec 8 := 1
/-- Division by zero. -/
def flDZ : BitVec 8 := 2
/-- Overflow. -/
def flOF : BitVec 8 := 4
/-- Underflow. -/
def flUF : BitVec 8 := 8
/-- Inexact. -/
def flIX : BitVec 8 := 16

/-- A result's bits and the exceptions raised. -/
structure FRes where
  bits : Nat
  fl : BitVec 8 := 0
  deriving DecidableEq, Repr

/-- The flag when the condition holds. -/
def flag (b : Bool) (f : BitVec 8) : BitVec 8 := if b then f else 0

/-! ## Rounding (R81, R82) -/

/-- How many bits `n` has. -/
def bitLen (n : Nat) : Nat := if n = 0 then 0 else Nat.log2 n + 1

/-- (sig + ε) / 2^sh rounded to an integer, 0 < ε < 1 when `sticky`: the integer and whether it is inexact. -/
def roundShift (r : Rnd) (neg : Bool) (sig : Nat) (sh : Int) (sticky : Bool) : Nat × Bool :=
  if sh ≤ 0 then
    let q := sig * 2 ^ (-sh).toNat
    let up := sticky && (match r with
      | .rup => !neg | .rdn => neg | .rne | .rtz | .rna | .dyn => false)
    (if up then q + 1 else q, sticky)
  else
    let d := 2 ^ sh.toNat
    let q := sig / d
    let rem := sig % d
    let inexact := decide (rem ≠ 0) || sticky
    let above := decide (2 * rem > d) || (decide (2 * rem = d) && sticky)
    let tie := decide (2 * rem = d) && !sticky
    let up := match r with
      | .rne => above || (tie && q % 2 == 1)
      | .rna => above || tie
      | .rtz | .dyn => false
      | .rup => inexact && !neg
      | .rdn => inexact && neg
    (if up then q + 1 else q, inexact)

/-- The magnitude delivered on overflow (R82): infinity or the largest finite. -/
def Fmt.overflow (f : Fmt) (r : Rnd) (neg : Bool) : Nat :=
  if f.special = false then f.largest else
  match r with
  | .rne | .rna | .dyn => f.inf
  | .rtz => f.largest
  | .rup => if neg then f.largest else f.inf
  | .rdn => if neg then f.inf else f.largest

/-- The non-zero magnitude (sig + ε) × 2^exp rounded once to a format (R81, R82, R84), with its sign; `sat` delivers the
largest finite number on overflow. -/
def Fmt.round (f : Fmt) (r : Rnd) (sat neg : Bool) (sig : Nat) (exp : Int) (sticky : Bool := false) : FRes :=
  let E : Int := exp + (bitLen sig : Nat) - 1
  let q1 : Int := E - f.m
  let n1 := roundShift r neg sig (q1 - exp) sticky
  let carry := n1.1 == 2 ^ (f.m + 1)
  let E1 : Int := if carry then E + 1 else E
  if E1 > f.emax then
    ⟨f.signed neg (if sat then f.largest else f.overflow r neg), flOF ||| flIX⟩
  else if E1 < f.emin then
    let n := roundShift r neg sig (f.emin - f.m - exp) sticky
    ⟨f.signed neg n.1, if n.2 then flUF ||| flIX else 0⟩
  else
    let mant := if carry then 2 ^ f.m else n1.1
    ⟨f.signed neg (((E1 + f.bias).toNat) * 2 ^ f.m + (mant - 2 ^ f.m)), flag n1.2 flIX⟩

/-- An exact dyadic integer × 2^exp rounded; an exact zero takes sign `zneg` (R83). -/
def Fmt.roundInt (f : Fmt) (r : Rnd) (sat : Bool) (x : Int) (exp : Int) (zneg : Bool) : FRes :=
  if x = 0 then ⟨f.signed zneg 0, 0⟩ else f.round r sat (decide (x < 0)) x.natAbs exp

/-! ## NaN results (R86) -/

/-- A NaN of the format with its quiet bit set. -/
def Fmt.quiet (f : Fmt) (x : Nat) : Nat :=
  if x / 2 ^ (f.m - 1) % 2 = 1 then x else x + 2 ^ (f.m - 1)

/-- The first NaN among the operands, quieted; none without a NaN. -/
def Fmt.firstNan (f : Fmt) : List Nat → Option Nat
  | [] => none
  | x :: r => if (f.decode x).isNan then some (f.quiet x) else f.firstNan r

/-- IV when an operand is a signalling NaN (R84). -/
def Fmt.snanFlag (f : Fmt) (l : List Nat) : BitVec 8 := flag (l.any (fun x => (f.decode x).isSnan)) flIV

/-- `op` where no operand is a NaN; otherwise the first NaN, with IV for a signalling one (R84, R86). -/
def Fmt.nanFirst (f : Fmt) (l : List Nat) (op : FRes) : FRes :=
  match f.firstNan l with
  | some x => ⟨x, f.snanFlag l⟩
  | none => op

/-- The default NaN with IV (R86). -/
def Fmt.invalid (f : Fmt) : FRes := ⟨f.nan, flIV⟩

/-! ## Arithmetic -/

/-- A finite value as an integer at exponent `e` or below its own. -/
def scaled (neg : Bool) (mag : Nat) (exp e : Int) : Int :=
  let n : Int := (mag * 2 ^ (exp - e).toNat : Nat)
  if neg then -n else n

/-- The sign of an exact zero sum (R83). -/
def zeroSign (r : Rnd) (na nb : Bool) : Bool := if na = nb then na else decide (r = .rdn)

/-- Addition. -/
def Fmt.add (f : Fmt) (r : Rnd) (x y : Nat) : FRes :=
  f.nanFirst [x, y] <|
    match f.decode x, f.decode y with
    | .fin na ma ea, .fin nb mb eb =>
      let e := min ea eb
      let s := scaled na ma ea e + scaled nb mb eb e
      f.roundInt r false s e (zeroSign r na nb)
    | .inf na, .inf nb => if na = nb then ⟨f.signed na f.inf, 0⟩ else f.invalid
    | .inf na, _ => ⟨f.signed na f.inf, 0⟩
    | _, .inf nb => ⟨f.signed nb f.inf, 0⟩
    | _, _ => f.invalid

/-- Multiplication. -/
def Fmt.mul (f : Fmt) (r : Rnd) (x y : Nat) : FRes :=
  f.nanFirst [x, y] <|
    let neg := (f.decode x).neg != (f.decode y).neg
    match f.decode x, f.decode y with
    | .fin _ ma ea, .fin _ mb eb =>
      if ma * mb = 0 then ⟨f.signed neg 0, 0⟩ else f.round r false neg (ma * mb) (ea + eb)
    | .inf _, b => if b.isZero then f.invalid else ⟨f.signed neg f.inf, 0⟩
    | a, .inf _ => if a.isZero then f.invalid else ⟨f.signed neg f.inf, 0⟩
    | _, _ => f.invalid

/-- Whether a product is 0 × ∞. -/
def zeroTimesInf (a b : FVal) : Bool :=
  match a, b with
  | .inf _, b => b.isZero
  | a, .inf _ => a.isZero
  | _, _ => false

/-- Multiply-add with one rounding; 0 × ∞ raises IV whatever the addend (R84). -/
def Fmt.fma (f : Fmt) (r : Rnd) (x y z : Nat) : FRes :=
  let a := f.decode x
  let b := f.decode y
  let c := f.decode z
  match f.firstNan [x, y, z] with
  | some n => ⟨n, f.snanFlag [x, y, z] ||| flag (zeroTimesInf a b) flIV⟩
  | none =>
    if zeroTimesInf a b then f.invalid
    else
      let np := a.neg != b.neg
      match a, b, c with
      | .fin _ ma ea, .fin _ mb eb, .fin nc mc ec =>
        let e := min (ea + eb) ec
        let s := scaled np (ma * mb) (ea + eb) e + scaled nc mc ec e
        f.roundInt r false s e (zeroSign r np nc)
      | .fin _ _ _, .fin _ _ _, c => ⟨f.signed c.neg f.inf, 0⟩
      | _, _, .inf nc => if np = nc then ⟨f.signed np f.inf, 0⟩ else f.invalid
      | _, _, _ => ⟨f.signed np f.inf, 0⟩

/-- Division (R84: DZ for a finite non-zero dividend over zero). -/
def Fmt.div (f : Fmt) (r : Rnd) (x y : Nat) : FRes :=
  f.nanFirst [x, y] <|
    let neg := (f.decode x).neg != (f.decode y).neg
    match f.decode x, f.decode y with
    | .fin _ ma ea, .fin _ mb eb =>
      if mb = 0 then (if ma = 0 then f.invalid else ⟨f.signed neg f.inf, flDZ⟩)
      else if ma = 0 then ⟨f.signed neg 0, 0⟩
      else
        let k := f.m + 4 + bitLen mb
        let n := ma * 2 ^ k
        f.round r false neg (n / mb) (ea - eb - k) (decide (n % mb ≠ 0))
    | .inf _, .inf _ => f.invalid
    | .inf _, _ => ⟨f.signed neg f.inf, 0⟩
    | _, .inf _ => ⟨f.signed neg 0, 0⟩
    | _, _ => f.invalid

/-- The integer square root of `n`, from the bits below `i` and the root `r` found so far. -/
def isqrt (n : Nat) : Nat → Nat → Nat
  | 0, r => r
  | i + 1, r => let t := r + 2 ^ i; isqrt n i (if t * t ≤ n then t else r)

/-- Square root; √−0 = −0. -/
def Fmt.sqrt (f : Fmt) (r : Rnd) (x : Nat) : FRes :=
  f.nanFirst [x] <|
    match f.decode x with
    | .fin neg m e =>
      if m = 0 then ⟨x, 0⟩ else if neg then f.invalid
      else
        let k := 2 * (f.m + 4)
        let odd := e % 2 ≠ 0
        let n := (if odd then 2 * m else m) * 2 ^ k
        let e' : Int := (if odd then e - 1 else e) - k
        let q := isqrt n (bitLen n / 2 + 1) 0
        f.round r false false q (e' / 2) (decide (q * q ≠ n))
    | .inf neg => if neg then f.invalid else ⟨x, 0⟩
    | .nan _ _ _ => f.invalid

/-! ## Order (R87, R88) -/

/-- The unsigned key of the total order (R88). -/
def Fmt.key (f : Fmt) (x : Nat) : Nat :=
  if x / 2 ^ (f.w - 1) % 2 = 1 then 2 ^ f.w - 1 - x % 2 ^ f.w else x % 2 ^ f.w + 2 ^ (f.w - 1)

/-- Minimum or maximum, `num` for the forms that prefer numbers (R87). -/
def Fmt.minmax (f : Fmt) (max num : Bool) (x y : Nat) : FRes :=
  let a := f.decode x
  let b := f.decode y
  let fl := f.snanFlag [x, y]
  let pick := if (decide (f.key x ≤ f.key y)) = max then y else x
  if num && (a.isNan != b.isNan) then ⟨if a.isNan then y else x, fl⟩
  else match f.firstNan [x, y] with
    | some n => ⟨n, fl⟩
    | none => ⟨pick, 0⟩

/-- How two numbers compare: none when one is a NaN (R113). -/
def Fmt.cmp (f : Fmt) (x y : Nat) : Option Ordering :=
  if (f.decode x).isNan || (f.decode y).isNan then none
  else if (f.decode x).isZero && (f.decode y).isZero then some .eq
  else some (compare (f.key x) (f.key y))

/-! ## Special operations (R124) -/

/-- Round to an integral value in the format. -/
def Fmt.rint (f : Fmt) (r : Rnd) (exact : Bool) (x : Nat) : FRes :=
  f.nanFirst [x] <|
    match f.decode x with
    | .fin neg m e =>
      if m = 0 ∨ e ≥ 0 then ⟨x, 0⟩
      else
        let n := roundShift r neg m (-e) false
        let res := if n.1 = 0 then f.signed neg 0 else (f.round .rne false neg n.1 0).bits
        ⟨res, flag (exact && n.2) flIX⟩
    | .inf _ => ⟨x, 0⟩
    | .nan _ _ _ => f.invalid

/-- a × 2^n. A scale beyond every format's range is clamped: the result is the same. -/
def Fmt.scalb (f : Fmt) (r : Rnd) (x : Nat) (n : Int) : FRes :=
  f.nanFirst [x] <|
    match f.decode x with
    | .fin neg m e => if m = 0 then ⟨x, 0⟩ else f.round r false neg m (e + max (-8192) (min 8192 n))
    | .inf _ => ⟨x, 0⟩
    | .nan _ _ _ => f.invalid

/-- ⌊log₂|a|⌋. -/
def Fmt.getExp (f : Fmt) (x : Nat) : FRes :=
  f.nanFirst [x] <|
    match f.decode x with
    | .fin _ m e =>
      if m = 0 then ⟨f.signed true f.inf, flDZ⟩
      else f.roundInt .rne false (e + (bitLen m : Nat) - 1) 0 false
    | .inf _ => ⟨f.inf, 0⟩
    | .nan _ _ _ => f.invalid

/-- The significand in [1, 2) with the sign of a. -/
def Fmt.getMant (f : Fmt) (x : Nat) : FRes :=
  f.nanFirst [x] <|
    match f.decode x with
    | .fin neg m _ => if m = 0 then ⟨x, 0⟩ else f.round .rne false neg m (1 - (bitLen m : Nat))
    | .inf _ => f.invalid
    | .nan _ _ _ => f.invalid

/-- The class mask (R124). -/
def Fmt.classify (f : Fmt) (x : Nat) : Nat :=
  match f.decode x with
  | .nan _ q _ => if q then 2 else 1
  | .inf neg => if neg then 4 else 512
  | .fin neg m _ =>
    let sub := decide (m < 2 ^ f.m)
    if m = 0 then (if neg then 32 else 64)
    else if sub then (if neg then 16 else 128)
    else if neg then 8 else 256

/-! ## Conversions (R86, R89, R128) -/

/-- A NaN carried from one format to another (R86). -/
def convNan (src dst : Fmt) (neg : Bool) (frac : Nat) : Nat :=
  if dst = kf8e4 ∨ dst = kf8e5 then dst.nan
  else
    let fr := if src.m ≤ dst.m then frac * 2 ^ (dst.m - src.m) else frac / 2 ^ (src.m - dst.m)
    dst.signed neg (dst.quiet (dst.inf + fr))

/-- Float to float: exact when wider, rounded when narrower; `sat` as R89 and R128 have it for the destination. -/
def convFmt (src dst : Fmt) (r : Rnd) (sat : Bool) (x : Nat) : FRes :=
  match src.decode x with
  | .nan neg q frac =>
    if dst.special = false then ⟨0, flIV⟩ else ⟨convNan src dst neg frac, flag (!q) flIV⟩
  | .inf neg =>
    if dst.special = false then ⟨dst.signed neg dst.largest, flIV⟩
    else if sat && decide (dst = kf8e4 ∨ dst = kf8e5) then ⟨dst.signed neg dst.largest, 0⟩
    else ⟨dst.signed neg dst.inf, 0⟩
  | .fin neg m e => if m = 0 then ⟨dst.signed neg 0, 0⟩ else dst.round r sat neg m e

/-- An exact integer rounded to a format. -/
def intToFmt (dst : Fmt) (r : Rnd) (sat : Bool) (x : Int) : FRes := dst.roundInt r sat x 0 false

/-- A float rounded to an integer and clamped to [lo, hi]: the integer and IV or IX (R84, R128). -/
def fmtToInt (src : Fmt) (r : Rnd) (lo hi : Int) (x : Nat) : Int × BitVec 8 :=
  match src.decode x with
  | .nan _ _ _ => (0, flIV)
  | .inf neg => (if neg then lo else hi, flIV)
  | .fin neg m e =>
    let n := roundShift r neg m (-e) false
    let v : Int := if neg then -(n.1 : Int) else n.1
    if v < lo then (lo, flIV) else if v > hi then (hi, flIV) else (v, flag n.2 flIX)

/-! ## Exact sums (R91) -/

/-- A term of an exact sum. -/
inductive Term
  | fin (neg : Bool) (mag : Nat) (exp : Int)
  | inf (neg : Bool)
  | bad
  deriving DecidableEq, Repr

/-- The exact product of two elements. -/
def prodTerm (fa fb : Fmt) (x y : Nat) : Term :=
  let a := fa.decode x
  let b := fb.decode y
  let neg := a.neg != b.neg
  match a, b with
  | .nan _ _ _, _ => .bad
  | _, .nan _ _ _ => .bad
  | .fin _ ma ea, .fin _ mb eb => .fin neg (ma * mb) (ea + eb)
  | a, b => if a.isZero || b.isZero then .bad else .inf neg

/-- A value as a term. -/
def valTerm (f : Fmt) (x : Nat) : Term :=
  match f.decode x with
  | .nan _ _ _ => .bad
  | .inf n => .inf n
  | .fin n m e => .fin n m e

/-- Whether infinities of both signs, or a bad term, stand among the terms. -/
def termsBad (l : List Term) : Bool :=
  l.any (fun t => decide (t = .bad)) || (l.contains (.inf true) && l.contains (.inf false))

/-- The exact sum of the finite terms at exponent `e`. -/
def termSum (l : List Term) (e : Int) : Int :=
  l.foldl (fun s t => match t with
    | .fin n m x => s + scaled n m x e
    | .inf _ | .bad => s) 0

/-- The least exponent among the terms. -/
def termExp (l : List Term) : Int :=
  l.foldl (fun s t => match t with
    | .fin _ _ x => min s x
    | .inf _ | .bad => s) 0

/-- The sign of an exact zero sum, term by term in order (R83, R91). -/
def termZero (r : Rnd) : List Term → Option (Bool × Int × Int) → Bool
  | [], acc => match acc with | some (n, _, _) => n | none => false
  | t :: rest, acc =>
    match t with
    | .fin n m e =>
      match acc with
      | none => termZero r rest (some (n, scaled n m e e, e))
      | some (na, s, e0) =>
        let e1 := min e e0
        let s1 := s * 2 ^ (e0 - e1).toNat + scaled n m e e1
        termZero r rest (some (if s1 = 0 then zeroSign r na n else decide (s1 < 0), s1, e1))
    | .inf _ | .bad => termZero r rest acc

/-- The sum of the terms with one rounding (R91). -/
def Fmt.sumTerms (f : Fmt) (r : Rnd) (l : List Term) : FRes :=
  if termsBad l then f.invalid
  else if l.contains (.inf true) then ⟨f.signed true f.inf, 0⟩
  else if l.contains (.inf false) then ⟨f.inf, 0⟩
  else f.roundInt r false (termSum l (termExp l)) (termExp l) (termZero r l none)

/-! ## Approximations (R126): real functions to within 2^-64 of the value or better, in units of 2^-96 -/

/-- ⌊2π × 2^300⌋. -/
def twoPi300 : Nat :=
  0x6487ed5110b4611a62633145c06e0e68948127044533e63a0105df531d89cd9128a5043cc71a
/-- ⌊ln 2 × 2^160⌋. -/
def ln2_160 : Nat := 0xb17217f7d1cf79abc9e3b39803f2f6af40f34326

/-- Terms of exp(x) for x in units of 2^-160, from term `k` on. -/
def expTerms (x : Nat) : Nat → Nat → Nat → Nat
  | 0, _, _ => 0
  | n + 1, k, t => t + expTerms x n (k + 1) (t * x / 2 ^ 160 / k)

/-- 2^f for f in [0, 1) given in units of 2^-160, in the same units. -/
def exp2Frac (f : Nat) : Nat := expTerms (f * ln2_160 / 2 ^ 160) 40 1 (2 ^ 160)

/-- Bits of log₂ m for m in [1, 2) in units of 2^-240, most significant first. -/
def log2Bits : Nat → Nat → Nat → Nat
  | 0, _, acc => acc
  | n + 1, m, acc =>
    let q := m * m / 2 ^ 240
    if q ≥ 2 ^ 241 then log2Bits n (q / 2) (2 * acc + 1) else log2Bits n q (2 * acc)

/-- The alternating series of sin and cos for x in units of 2^-160: t − t x²/((k+1)(k+2)) + …. -/
def trigTerms (x2 : Nat) : Nat → Nat → Nat → Int
  | 0, _, _ => 0
  | n + 1, k, t => (t : Int) - trigTerms x2 n (k + 2) (t * x2 / 2 ^ 160 / ((k + 1) * (k + 2)))

/-- The reduced argument |a| mod 2π in units of 2^-160 (R126). -/
def reduceArg (m : Nat) (e : Int) : Nat := (m * 2 ^ (e + 300).toNat) % twoPi300 / 2 ^ 140

/-- The approximated functions of R126. -/
inductive Approx | rcp | rsq | ex2 | lg2 | sin | cos
  deriving DecidableEq, Repr

/-- The number of an approximated function. -/
def Approx.code : Approx → Nat
  | .rcp => 0 | .rsq => 1 | .ex2 => 2 | .lg2 => 3 | .sin => 4 | .cos => 5

/-- The real value of the function at a finite operand of its domain, as an integer × 2^exp: exact or within a relative
2^-60, and for lg2, sin and cos within an absolute 2^-60. -/
def Approx.real (fn : Approx) (neg : Bool) (m : Nat) (e : Int) : Int × Int :=
  match fn with
  | .rcp => let k := 100 + bitLen m; let q : Int := (2 ^ k / m : Nat); (if neg then -q else q, -e - k)
  | .rsq =>
    let odd := e % 2 ≠ 0
    let m' := if odd then 2 * m else m
    let e' : Int := if odd then e - 1 else e
    let k := 2 * (100 + bitLen m')
    let n := 2 ^ k / m'
    ((isqrt n (bitLen n / 2 + 1) 0 : Nat), -e' / 2 - k / 2)
  | .ex2 =>
    let e := max e (-160)
    let x : Int := scaled neg m e (-160)
    let i := x / 2 ^ 160
    let f := (x % 2 ^ 160).toNat
    let i' := max (-400) (min 400 i)
    ((exp2Frac f : Nat), i' - 160)
  | .lg2 =>
    let b := bitLen m
    let mant := m * 2 ^ (241 - b)
    let frac := log2Bits 80 mant 0
    ((e + b - 1) * 2 ^ 80 + (frac : Nat), -80)
  | .sin =>
    let x := reduceArg m e
    let v := trigTerms (x * x / 2 ^ 160) 40 1 x
    (if neg then -v else v, -160)
  | .cos =>
    let x := reduceArg m e
    (trigTerms (x * x / 2 ^ 160) 40 0 (2 ^ 160), -160)

/-- The bound of R126 for F32 at the real value x × 2^ex, as an integer × 2^exp. -/
def Approx.bound (fn : Approx) (x ex : Int) : Nat × Int :=
  let ulp : Int := max (-149) (ex + (bitLen x.natAbs : Nat) - 1 - 23)
  match fn with
  | .rcp => (1, ulp)
  | .rsq | .ex2 => (2, ulp)
  | .lg2 => if decide (ex + (bitLen x.natAbs : Nat) ≤ 0) || (x.natAbs = 2 ^ (-ex).toNat) then (1, -22) else (2, ulp)
  | .sin | .cos => (1, -21)

/-- Whether |p × 2^ep − x × 2^ex| is within the bound, less 2^-50 of it for the error of the real value's computation. -/
def within (p ep x ex : Int) (b : Nat × Int) : Bool :=
  let e := min (min ep ex) (b.2 - 50)
  let d := p * 2 ^ (ep - e).toNat - x * 2 ^ (ex - e).toNat
  decide ((d.natAbs + 2 ^ (b.2 - 50 - e).toNat) ≤ b.1 * 2 ^ (b.2 - e).toNat)

/-- A finite value as an integer × 2^exp. -/
def FVal.scaledInt : FVal → Option (Int × Int)
  | .fin neg mag e => some (if neg then -(mag : Int) else mag, e)
  | .inf _ | .nan _ _ _ => none

/-- Whether a formed F32 value keeps the bound of a narrower format (R126): rounded to it, it lies within 1 ulp of the real value
x × 2^ex. -/
def Fmt.near (f : Fmt) (v : Int × Int) (x ex : Int) : Bool :=
  decide (f = f32) || (match (f.decode (f.roundInt .rne false v.1 v.2 false).bits).scaledInt with
    | some d => within d.1 d.2 x ex (1, max (f.emin - f.m) (ex + (bitLen x.natAbs : Nat) - 1 - f.m))
    | none => false)

/-- The F32 value that the device forms (R126): the free value, rounded to F32, when it keeps the bounds, else the real value. -/
def Approx.formed (fn : Approx) (f : Fmt) (key : Nat) (bits : Word) (x ex : Int) : Int × Int :=
  let p := Config.approx key bits
  match (f32.decode (f32.roundInt .rne false p.1 p.2 false).bits).scaledInt with
  | some v => if within v.1 v.2 x ex (fn.bound x ex) && f.near v x ex then v else (x, ex)
  | none => (x, ex)

/-- Whether a finite operand is an exact input with its exact result (R126), as an integer × 2^exp. -/
def Approx.exact (fn : Approx) (neg : Bool) (m : Nat) (e : Int) : Option (Int × Int) :=
  let pow := decide (m = 2 ^ (bitLen m - 1))
  let k : Int := e + (bitLen m : Nat) - 1
  match fn with
  | .rcp => if pow then some (if neg then -1 else 1, -k) else none
  | .rsq => if pow && k % 2 == 0 then some (1, -k / 2) else none
  | .ex2 =>
    if e ≥ 0 ∨ m % 2 ^ (-e).toNat = 0 then
      let i : Int := if e ≥ 0 then scaled neg m (min e 20) 0 else scaled neg (m / 2 ^ (-e).toNat) 0 0
      some (1, max (-400) (min 400 i))
    else none
  | .lg2 => if pow then some (k, 0) else none
  | .sin | .cos => none

/-- The special values of R126; none for a finite operand of the function's domain. -/
def Approx.special (fn : Approx) (f : Fmt) (x : Nat) : Option FRes :=
  match f.firstNan [x] with
  | some n => some ⟨n, f.snanFlag [x]⟩
  | none =>
    match fn, f.decode x with
    | .rcp, .inf n => some ⟨f.signed n 0, 0⟩
    | .rcp, .fin n 0 _ => some ⟨f.signed n f.inf, flDZ⟩
    | .rsq, .inf n => some (if n then f.invalid else ⟨0, 0⟩)
    | .rsq, .fin n 0 _ => some ⟨f.signed n f.inf, flDZ⟩
    | .rsq, .fin true _ _ => some f.invalid
    | .ex2, .inf n => some ⟨if n then 0 else f.inf, 0⟩
    | .lg2, .inf n => some (if n then f.invalid else ⟨f.inf, 0⟩)
    | .lg2, .fin _ 0 _ => some ⟨f.signed true f.inf, flDZ⟩
    | .lg2, .fin true _ _ => some f.invalid
    | .sin, .inf _ => some f.invalid
    | .cos, .inf _ => some f.invalid
    | .sin, .fin _ 0 _ => some ⟨x, 0⟩
    | .cos, .fin _ 0 _ => some ⟨(f.round .rne false false 1 0).bits, 0⟩
    | .ex2, .fin _ 0 _ => some ⟨(f.round .rne false false 1 0).bits, 0⟩
    | _, _ => none

/-- One element of FRCP to FCOS (R126): an exact input raises IX only with a subnormal result or an overflow; every other
finite result raises IX. -/
def Approx.apply (fn : Approx) (f : Fmt) (x : Nat) : FRes :=
  match fn.special f x with
  | some r => r
  | none =>
    match f.decode x with
    | .fin neg m e =>
      let out (v real : Int × Int) (ix : BitVec 8) : FRes :=
        let r := f.roundInt .rne false v.1 v.2 false
        let below := decide (real.1 ≠ 0) && decide (real.2 + (bitLen real.1.natAbs : Nat) - 1 < f.emin)
        let tiny := match f.decode r.bits with
          | .fin _ mag _ => decide (mag < 2 ^ f.m) && (decide (v.1 ≠ 0) || below)
          | .inf _ | .nan _ _ _ => false
        ⟨r.bits, r.fl ||| ix ||| (if tiny then flUF ||| flIX else 0)⟩
      match fn.exact neg m e with
      | some v => out v v 0
      | none =>
        let v := fn.real neg m e
        let f32bits : Word := BitVec.ofNat 32 (convFmt f f32 .rne false x).bits
        out (fn.formed f (fn.code + 8 * fmtCode f) f32bits v.1 v.2) v flIX
    | .inf _ | .nan _ _ _ => f.invalid

end Sys2Proof.Machine
end

