-- ==== Sys2Proof/Machine/State.lean ====
section
/-! DEFINITION. Everything the manual gives the package, as plain data, the reasons a step can stop, and the state after
reset. Fields marked "model" are the model's own. -/

namespace Sys2Proof.Machine

/-! ## Registers of a wave (03) -/

/-- Shape tags (R59). -/
inductive Tag | uni | aff | gen
  deriving DecidableEq, Repr

/-- Poison codes (R64). -/
inductive Poison | clean | race | err
  deriving DecidableEq, Repr

/-- A V register: 32 lane values, tag, full/empty bit and poison codes (R57, R59, R62, R64), and the lanes whose word is
uncorrectable in the primary copy and in the mirror (R168). -/
structure VReg where
  val : Lanes Word
  tag : Tag
  full : Bool
  poison : Lanes Poison
  bad : Mask
  mirrorBad : Mask
  deriving DecidableEq, Repr

/-- An index register: its descriptor and one index a lane (R142). -/
structure XReg where
  desc : Word
  idx : Lanes Byte
  deriving DecidableEq, Repr

/-- Sparse bytes by address, addresses strictly rising. -/
abbrev Mem := List Host.Cell

/-! ## Splits (10) -/

/-- What a waiting split waits for (R169, R279). -/
inductive Wait
  /-- BAR, BAR.W, BARJOIN: until barrier `n` has a phase other than `p`, or has flipped since its count of flips was `f` -/
  | bar (n : BitVec 4) (p : Bool) (f : Nat)
  /-- BTAKE: until the baton is given to the wave -/
  | baton
  /-- BWAIT: until the batch is complete -/
  | batch (mtx : Bool) (n : Word)
  /-- JOIN: until the listed launches have completed; then their status goes to `d` in lanes `m` -/
  | join (js : List Nat) (d : Option Dst) (er : Lanes Byte) (m : Mask)
  deriving DecidableEq, Repr

/-- A live or parked split: the fields of R207, and what it waits for. -/
structure Split where
  mask : Mask
  pc : Word
  rpc : Word
  emask : Mask
  hash : BitVec 16
  fmt : BitVec 10
  link : BitVec 5
  /-- RTT.NOSIG: the next checking instruction skips R214's checks -/
  nosig : Bool
  /-- YIELD in the current round (R222) -/
  yielded : Bool
  wait : Option Wait
  deriving DecidableEq, Repr

/-- A divergence record (R207, R209). -/
structure Rec where
  mask : Mask
  pc : Word
  rpc : Word
  pend : Mask
  arr : Mask
  fmt : BitVec 10
  link : BitVec 5
  deriving DecidableEq, Repr

/-- An entry of the divergence stack: a parked split or a record (R207, R210). -/
inductive StackE
  | split (s : Split)
  | record (r : Rec)
  deriving DecidableEq, Repr

/-- The split table (slots 0-3, records 0-3) and the divergence stack (R207). -/
structure SplitTable where
  slots : Vector (Option Split) 4
  recs : Vector (Option Rec) 4
  stack : Vector (Option StackE) 16
  deriving DecidableEq, Repr

/-! ## Traps and the replay queue (15) -/

/-- The trap-frame registers 0x16 to 0x1B (R67). -/
structure Frame' where
  tcause : Word
  tpc : Word
  inst0 : Word
  inst1 : Word
  inst2 : Word
  taddr : Word
  deriving DecidableEq, Repr

/-- A per-lane word of a replay entry with the poison of each lane (R280). -/
structure LaneWord where
  v : Lanes Word
  p : Lanes Poison
  deriving DecidableEq, Repr

/-- Where a producer's values go: `n` registers from `er` in each lane, an element or the whole register (R36, R62). An
indirect destination holds its window, first register and length (R151). -/
structure RDst where
  n : Nat
  er : Lanes Byte
  win : Option (Nat × Nat)
  elt : Option (EltW × BitVec 3)
  deriving DecidableEq, Repr

/-- Whether the destination is indirect. -/
def RDst.ind (d : RDst) : Bool := d.win.isSome

/-- A replay entry (R280): words 8 to 19 in order in `lw`, word 20 in `er`. -/
structure RQEntry where
  kind : BitVec 3
  cause : Cause
  remain : Mask
  pc : Word
  w0 : Word
  w1 : Word
  w2 : Word
  detail : Word
  lw : Vector LaneWord 12
  er : Lanes Word
  /-- model: the EXEC mask at issue, whose operands `lw` holds (R232) -/
  exec : Mask
  /-- model: the FMT that the instruction read at issue (R132) -/
  fmt : BitVec 10
  /-- model: the slot of the waiting split of a kind 5 entry, and its wait (R279) -/
  slot : Nat
  wait : Option Wait
  /-- model: the destination, which RQDEL.CMP writes (R281) -/
  dst : RDst
  deriving DecidableEq, Repr

/-- A cause waiting in the pending queue (R285), with the instruction it names (R426). -/
structure PendCause where
  cause : Cause
  lane : Nat
  detail : Word
  pc : Option Word
  w0 : Word
  w1 : Word
  w2 : Word
  deriving DecidableEq, Repr

/-- What a trap names (R426): cause, lane, detail word, instruction, the slot of the trapping split, its resume PC (none
for delivery A), and the raising instruction's own replay entry. -/
structure TrapInfo where
  cause : Cause
  lane : Nat
  detail : Word
  pc : Word
  w0 : Word
  w1 : Word
  w2 : Word
  slot : Nat
  resume : Option Word
  entry : Option RQEntry
  /-- the flight of the raising instruction's other lanes, which complete first (R276) -/
  flight : Option Nat
  deriving DecidableEq, Repr

/-- What a trap entry saves (R276, R284): the table and stack, the frame and replay queue of the level below, which slot
trapped and where it resumes (R225). -/
structure Saved where
  table : SplitTable
  frame : Frame'
  rq : List RQEntry
  slot : Nat
  resume : Option Word
  /-- model: lanes killed at the level above whose CheckMerge is still due, and, by the place of a record, the words of the
  instruction at which its last awaited lane left (R287, R426) -/
  killed : Mask
  killer : List (Nat × Word × Word × Word)
  /-- model: the number of the trap that entered the level below -/
  since : Nat
  deriving DecidableEq, Repr

/-! ## Work in flight -/

/-- An issued, unfinished producer of register values (R62, R177, R278). `entry.remain` holds the lanes still to be
written; the values of the lanes in `known` stand in `val` and `poison`, the others are still to come from another agent. A
waiting split is a flight too, of kind 5 and without values (R279). -/
structure Flight where
  id : Nat
  /-- model: the flight, even, or the store, odd, whose refused lanes it holds (R421) -/
  of : Option Nat
  entry : RQEntry
  known : Mask
  dst : RDst
  val : Lanes (BitVec 128)
  poison : Lanes Poison
  /-- the allocation generation at issue (R177) -/
  gen : BitVec 16
  /-- the predicate a CAS writes, and its bits (R194) -/
  pred : Option (PNum × Mask)
  /-- the locked window of an indirect destination (R151): first register and length -/
  lock : Option (Nat × Nat)
  /-- LDU: one access, tagged UNI when every lane is covered (R188) -/
  uni : Bool
  /-- lanes that could return RACE (plain LD and LDU, R189), those that a plain store of another agent has met since, and
  those of host-coherent memory (R431) -/
  racy : Mask
  raced : Mask
  host : Mask
  /-- lanes whose data this package's memory, pool, tarn or engine supplied: they can meet an uncorrectable word -/
  ecc : Mask
  /-- the source of an ERR among the values (R65) -/
  errSrc : BitVec 3
  /-- the memory key and the bytes of each lane that could return RACE -/
  keys : List (Nat × Nat)
  width : Nat
  /-- the wave's own buffered bytes at issue, by key, for lanes still to be known (R395) -/
  own : List (Nat × Byte)
  /-- model: the keys of the bytes that the pier gave, which no store that reaches the home later can race (R189, R323) -/
  held : List Nat := []
  deriving DecidableEq, Repr

/-- A translation fault that a wave's instruction met and that has not parked it yet (R341): the lanes' addresses and
causes, the access code of R344 and the instruction's entry (none for a fetch, R348). -/
structure Faulting where
  lanes : List (Nat × DWord × Cause)
  access : BitVec 4
  entry : Option RQEntry
  /-- the flight of the lanes that translated, which complete before the wave parks (R349) -/
  flight : Option Nat
  /-- fetch: PC and the slot that fetched -/
  pc : Word
  slot : Nat
  deriving DecidableEq, Repr

/-- A parked wave: the fault entries it still waits for (die, index), those answered FAIL with lane, address and cause
(R346), and whether it waits for a free entry (R343). -/
structure Parked where
  waits : List (Nat × Nat × Nat × DWord × Cause)
  failed : List (Nat × DWord × Cause)
  tableFull : Bool
  fetch : Option (Word × Nat)
  faulting : Faulting
  deriving DecidableEq, Repr

/-! ## Launch records (21) -/

/-- A role word's fields (R354). -/
structure Role where
  waves : Nat
  prio : Nat
  vregs : Nat
  deriving DecidableEq, Repr

/-- The launch record as read (R353). -/
structure LRecord where
  codeBase : DWord
  codeSize : Word
  entry : Word
  handler : Word
  partition : Word
  prio : Nat
  energy : Nat
  spawnDepth : Nat
  det : Bool
  sig : Bool
  mirrorOff : Bool
  quantum : Nat
  gridX : Nat
  gridY : Nat
  gridZ : Nat
  stages : Nat
  groupW : Nat
  scratch : Nat
  tarn : Nat
  accum : Nat
  seed : DWord
  roles : List Role
  arg : DWord
  done : DWord
  deriving DecidableEq, Repr

/-! ## Waves (03) -/

/-- A buffered effect of a deterministic wave (R395), or a held engine operation's index. -/
inductive DetEff
  /-- bytes to a global key, in order, with the instruction that stored them -/
  | store (bytes : List (Nat × Byte)) (core : Nat) (entry : RQEntry)
  /-- a reduction or atomic: the flight it answers, if any, and lanes (lane, key, width in bytes, operation, operand) -/
  | atomic (flight : Option Nat) (lanes : List (Nat × Nat × Nat × AtomOp × DWord)) (core : Nat) (entry : RQEntry)
  /-- a compare and swap: lane, key, width, expected, new, with its instruction -/
  | cas (flight : Nat) (lanes : List (Nat × Nat × Nat × DWord × DWord)) (core : Nat) (entry : RQEntry)
  /-- a majority store -/
  | maj (setNo : BitVec 4) (pa : Nat) (data : List Byte) (core : Nat) (entry : RQEntry)
  /-- span storage: (core, pool address, byte) -/
  | spanStore (bytes : List (Nat × Nat × Byte))
  | spanAtomic (flight : Option Nat) (lanes : List (Nat × Nat × Nat × Nat × AtomOp × DWord))
  | spanCas (flight : Nat) (lanes : List (Nat × Nat × Nat × Nat × DWord × DWord))
  /-- a child that the boundary accepts (R396), and the split that issues nothing until then: its lanes and its level (R361) -/
  | spawn (rec : LRecord) (held : Mask) (level : Nat)
  deriving DecidableEq, Repr

/-- A wave's place: core number (die * 64 + COREID), quadrant and wave slot (R161). -/
structure PlaceW where
  core : Nat
  quad : Nat
  slot : Nat
  deriving DecidableEq, Repr

/-- Life of a wave. -/
inductive WaveLife
  | resident
  /-- swapped out under JOIN (R363) -/
  | joined
  /-- evicted alone (R292) -/
  | evicted
  /-- saved with its group (R293) -/
  | saved
  | retired
  deriving DecidableEq, Repr

/-- A wave (03, 07, 10, 15). -/
structure Wave where
  launch : Nat
  group : Nat
  waveid : BitVec 4
  lwave : Word
  role : Nat
  vregs : Nat
  life : WaveLife
  place : Option PlaceW
  /-- model: registers written so far; an unlisted one holds what it held at grant (R71) -/
  regs : List (Nat × VReg)
  /-- model: the number that names the free values of kept registers and tarn bytes, and which 2 KiB blocks of the grant, of
  registers and of the tarn in its order, were last held in the wave's domain: they are kept, the others zero (R71) -/
  kept : Nat
  keptRegs : List Nat
  keptTarn : List Nat
  preds : Vector Mask 7
  xregs : Vector XReg 8
  fctl : Word
  fstat : Lanes Word
  mflags : Word
  death : Word
  live : Mask
  dead : Mask
  ctr : Lanes DWord
  tarn : Mem
  /-- uncorrectable codes of tarn words (R168) -/
  tarnBad : List Nat
  table : SplitTable
  frame : Frame'
  level : Nat
  saved : List Saved
  rq : List RQEntry
  /-- entries still to be re-injected, in SEQ order (R283) -/
  reinj : List RQEntry
  pending : List PendCause
  flights : List Flight
  nextFlight : Nat
  /-- CLOSED of the copy and the matrix class (R203) -/
  closedC : Word
  closedM : Word
  faulting : Option Faulting
  parked : Option Parked
  /-- debugger stop, with the tag of a BKPT (R224, R289) -/
  stopped : Option (Option (BitVec 14))
  /-- model: the entries of `rq` that stood in it before the stop -/
  stopAt : Nat
  /-- traps, and a debugger stop, that await the results of lanes already sent (R276, R279, R289) -/
  entering : List TrapInfo
  stopping : Option (Option (BitVec 14))
  /-- model: the traps entered so far, and which of them entered the current level (R285) -/
  traps : Nat
  since : Nat
  /-- model: two splits of the wave issue in this cycle, and the first raises its cause after the second has issued (R277) -/
  pair : Bool
  qretired : Nat
  /-- the quantum has ended and the wave waits for the boundary (R393) -/
  qended : Bool
  /-- the place of the split whose wait ended the quantum, which the next one awaits (R393) -/
  qwait : Option Nat
  buf : List DetEff
  /-- last ERR source (R65) and last RACE space (R431) -/
  errSrc : BitVec 3
  raceSpace : BitVec 2
  /-- accepted children not forgotten (R361, R362) -/
  children : List Nat
  /-- the wave aborted (R288), for the launch's status (R358) -/
  aborted : Bool
  /-- model: the wave has retired and its accesses are not yet performed, before which its barriers and the baton do not see
  that (R254, R317) -/
  leaving : Bool
  /-- model: the length and the cells of the record that was written when the wave was saved (R294) -/
  area : Option (Nat × Mem)
  deriving DecidableEq, Repr

/-! ## The matrix engine (13) -/

/-- What a queued matrix operation does, with everything it captured at issue (R245, R250, R258, R260, R262, R265). Elements
of a tile are bit offsets in the tile file, elements of an accumulator byte offsets in it, paired with scratchpad places. -/
inductive MatKind
  | tld (w : Nat) (elts : List (Nat × Nat))
  | tst (w : Nat) (elts : List (Nat × Nat))
  | tzero (t : BitVec 4)
  | mma (ac : Nat) (ta tb : BitVec 4) (tca tcb : Word) (fmt : BitVec 10) (blocks : Bool)
  | acz (ac : Nat)
  | acld (ac : Nat) (ty : AccTy) (elts : List (Nat × Nat))
  | acst (ac : Nat) (ty : AccTy) (add : Bool) (elts : List (Nat × Nat))
  /-- `.G`: elements still to be performed, with their addresses -/
  | acstg (ac : Nat) (ty : AccTy) (add : Bool) (elts : List (Nat × DWord))
  /-- lanes and their elements -/
  | acrd (ac : Nat) (w64 : Bool) (flight : Nat) (idx : List (Lane × Nat))
  deriving DecidableEq, Repr

/-- A matrix-engine queue entry (R250). -/
structure MatE where
  wave : Nat
  group : Nat
  batch : Option Word
  kind : MatKind
  pc : Word
  w0 : Word
  w1 : Word
  w2 : Word
  wait : Option (Nat × Nat)
  /-- model: the number of the step that issued it (R395) -/
  order : Nat
  /-- the engine has begun it (R205, R411) -/
  started : Bool
  /-- the sticky flags that its elements have set so far, which go to MFLAGS when it completes (R263) -/
  flags : BitVec 8 := 0
  deriving DecidableEq, Repr

/-! ## Groups, launches, trees (13, 15, 21, 25) -/

/-- A barrier (R271). -/
structure Barrier where
  mem : BitVec 16
  arr : BitVec 16
  phase : Bool
  /-- model: how often it has flipped, by which a wave off its core knows that the awaited phase has come (R292) -/
  flips : Nat
  deriving DecidableEq, Repr

/-- The baton (R251, R397). -/
structure Baton where
  holder : Option (BitVec 4)
  waiting : BitVec 16
  /-- in transit to this wave until the boundary -/
  transit : Option (BitVec 4)
  deriving DecidableEq, Repr

/-- Life of a group instance. -/
inductive GroupLife | waiting | eligible | placed | saved | done
  deriving DecidableEq, Repr

/-- The contents that a group record saves (R293): scratchpad and accumulator bytes by granule index in the group, their
uncorrectable words, tile bytes; and the core that held the group (R326). -/
structure GroupRecord where
  core : Nat
  scr : Mem
  scrBad : List Nat
  acc : Mem
  accBad : List Nat
  tiles : Mem
  tilesBad : List Nat
  /-- the wake-up records of the group's evicted waves, as bytes (R292, R294) -/
  wake : Mem
  /-- model: the cells of the record as it was written to the save area (R294) -/
  area : Mem
  deriving DecidableEq, Repr

/-- A group instance (gl, s) (R356). -/
structure Group where
  launch : Nat
  gl : Nat
  stage : Nat
  life : GroupLife
  core : Option Nat
  /-- model: the step that placed it (R291) -/
  placed : Nat
  waves : List Nat
  /-- granule numbers granted, ascending (R165, R181) -/
  scr : List Nat
  acc : List Nat
  tileFile : Bool
  barriers : Vector Barrier 16
  baton : Baton
  tc : Vector Word 16
  sdone : BitVec 16
  record : Option GroupRecord
  /-- kind 4 entries of the matrix class saved with the group, in queue order (R293) -/
  engine : List MatE
  deriving DecidableEq, Repr

/-- A domain table entry as kept by a launch (R402). -/
structure Domain where
  id : BitVec 16
  root : DWord
  otBase : DWord
  otSize : Word
  valid : Bool
  save : DWord
  deriving DecidableEq, Repr

/-- A launch (R353 to R364). -/
structure Launch where
  record : LRecord
  domain : Domain
  /-- the host queue of the depth-0 ancestor, and its QWDOG at acceptance (R360, R434) -/
  queue : Nat
  qwdog : Word
  depth : Nat
  parent : Option Nat
  mirrored : Bool
  maxRes : Nat
  /-- deterministic: the tree and the ordinal (R390) -/
  tree : Option Nat
  ordinal : Nat
  /-- the kernel holds a group C instruction (R165) -/
  groupC : Bool
  /-- stage-0 instances made so far, in ascending gl (R360) -/
  nextGl : Nat
  completed : Bool
  /-- status bits of R358 and the deaths it reports -/
  abort : Bool
  death : Bool
  ndead : Nat
  firstLw : Word
  firstDeath : Word
  refused : Option Cause
  /-- breakpoints enabled by the debugger (R224) -/
  bkpt : Bool
  deriving DecidableEq, Repr

/-- A deterministic tree (R390, R394). -/
structure Tree where
  root : Nat
  boundary : Nat
  /-- the boundary under way (R395): 0 none, 1 effects are applied, 2 engine operations are performed -/
  phase : Nat
  /-- the majority store that step 1 waits for -/
  acc : Option Nat
  nextOrd : Nat
  /-- accesses committed in the last 16 quanta: boundary, core, core of the last committed writer (R303) -/
  weights : List (Nat × Nat × Nat)
  /-- sector to the core of its last committed writer -/
  writers : List (Nat × Nat)
  stopped : Bool
  deriving DecidableEq, Repr

/-! ## Copy operations (09) -/

/-- A copy operation (R201, R202): elements as (scratchpad pool address list, virtual address). -/
structure CopyE where
  wave : Nat
  batch : Word
  s2g : Bool
  es : Nat
  elts : List (Nat × DWord)
  pc : Word
  w0 : Word
  w1 : Word
  w2 : Word
  /-- the fault entry (die, index) the operation waits on (R348) -/
  wait : Option (Nat × Nat)
  /-- model: the number of the step that issued it, the issue order of a wave's operations (R395) -/
  order : Nat
  /-- the engine has begun it (R205, R411) -/
  started : Bool
  done : Bool
  deriving DecidableEq, Repr

/-! ## Cores and dies (08, 16, 19) -/

/-- Who holds a pool granule. -/
inductive Owner
  | wave (w : Nat)
  | group (g : Nat)
  deriving DecidableEq, Repr

/-- A pool granule: its owner and allocation generation (R177), and for each of its 2 KiB blocks the domain of the last holder,
a register or tarn block of that place among them, and whether that held pool bytes, of a scratchpad or an accumulator (R71,
R164). -/
structure Granule where
  owner : Option Owner
  doms : Vector (Option (BitVec 16)) 8
  bytes : Vector Bool 8
  gen : BitVec 16
  deriving DecidableEq, Repr

/-- A granule that nobody has held. -/
def Granule.new : Granule := ⟨none, Vector.replicate 8 none, Vector.replicate 8 false, 0⟩

/-- A quadrant's issue state (R170, R174, R175): splits that issued in the round (wave, slot); one past the wave slot of the
last pick, or one past the LWAVE of the last deterministic wave; the split last picked in each wave, by 4 times its number, with
its trap level added in a tree; the running deterministic wave. -/
structure Quad where
  round : List (Nat × Nat)
  ptr : Nat
  last : List (Nat × Nat)
  det : Option Nat
  deriving DecidableEq, Repr

/-- An object-table entry as cached (R199, R200). -/
structure ObjEntry where
  base : DWord
  fmt : BitVec 4
  dims : Nat
  r : Bool
  w : Bool
  atom : Bool
  copy : Bool
  valid : Bool
  ext : List Nat
  stride : List Nat
  deriving DecidableEq, Repr

/-- A core (08). -/
structure Core where
  partition : Word
  granules : List (Nat × Granule)
  /-- tarn blocks of 2 KiB in use: block, wave (R165) -/
  tarn : List (Nat × Nat)
  quads : Vector Quad 4
  /-- pool bytes of scratchpad and accumulator granules, by granule * 16384 + offset (R164) -/
  pool : Mem
  poolBad : List Nat
  tiles : Mem
  tilesBad : List Nat
  tileDom : Option (BitVec 16)
  thermal : Bool
  /-- sharing sketch: partner and count (R299) -/
  sketch : List (BitVec 6 × BitVec 16)
  mq : List MatE
  /-- object-table cache: domain, index, entry (R200) -/
  ot : List (BitVec 16 × BitVec 16 × ObjEntry)
  otDom : Option (BitVec 16)
  /-- model: reads of entries that ended with a cause: domain, index, cause -/
  otFail : List (BitVec 16 × BitVec 16 × Cause)
  /-- the lines of the L1, by key / 128, the one used last first (R329, R333, log entry 62) -/
  l1 : List Nat
  /-- round-robin of quadrants: the model's order of issue opportunities -/
  nextQuad : Nat
  deriving DecidableEq, Repr

/-- A span instance (R296), its freeze count (R305) and its pier's span-scope dirty bytes (R302). -/
structure Span where
  slot : Nat
  members : List Nat
  epoch : BitVec 48
  freeze : Nat
  /-- dirty bytes, of any value, by memory key -/
  dirty : List (Nat × Byte)
  /-- the launches that wrote them (R302) -/
  wrote : List Nat
  /-- model: the wave whose plain store left a dirty byte, by memory key (R189) -/
  plain : List (Nat × Nat)
  /-- the dirty bytes whose lines a CCTL has written back, which no agent outside the instance observes before a drain (R302,
  R334) -/
  back : List Nat
  /-- model: the waves whose last release fence was at this instance (R314, R316, log entry 67), and the dirty bytes of stores
  that such a fence or a release of their own precedes -/
  fenced : List Nat
  rel : List Nat
  deriving DecidableEq, Repr

/-- A new instance, whose pier holds nothing (R296). -/
def Span.fresh (slot : Nat) (members : List Nat) (epoch : BitVec 48) : Span := ⟨slot, members, epoch, 0, [], [], [], [], [], []⟩

/-- A cached translation (R339): a leaf's page and what it grants. -/
structure TlbE where
  dom : BitVec 16
  page : Nat
  size : Nat
  kind : BitVec 4
  setNo : BitVec 4
  pa : Nat
  x : Bool
  at' : Bool
  w : Bool
  r : Bool
  level : Nat
  deriving DecidableEq, Repr

/-- A cached non-leaf entry (R339): its level, the bits of the address that select it and those above, and the table that it
names. -/
structure TblE where
  dom : BitVec 16
  level : Nat
  index : Nat
  table : Nat
  deriving DecidableEq, Repr

/-- A fault-table entry (R343). -/
structure FaultE where
  dom : BitVec 16
  page : Nat
  cause : Cause
  gen : BitVec 16
  outstanding : Bool
  deriving DecidableEq, Repr

/-- A fault record before it is written (R344). -/
structure FaultRec where
  lwave : Word
  access : BitVec 4
  core : BitVec 8
  quad : BitVec 2
  token : Word
  dom : BitVec 16
  cause : Cause
  va : DWord
  deriving DecidableEq, Repr

/-- A regrouping between pause and install (R301): the members of the new instances. -/
structure RegroupP where
  plan : List (List Nat)
  affected : List Nat
  deriving DecidableEq, Repr

/-- A compute die (16, 19). -/
structure Die where
  spans : List Span
  /-- next epoch to issue (R296) -/
  epoch : Nat
  interval : Nat
  /-- REGROUP in force from the next interval end (R300) -/
  newInterval : Option Nat
  /-- cores that changed instance in this interval (R300) -/
  moved : List Nat
  regroup : Option RegroupP
  /-- freezes: wave, epoch of the instance, count (R305) -/
  freezes : List (Nat × BitVec 48 × Nat)
  tlb : List TlbE
  tables : List TblE
  faults : List (Nat × FaultE)
  /-- records waiting for queue space (R345) -/
  fqWaiting : List FaultRec
  fqbase : DWord
  fqsize : Word
  fqhead : Word
  fqtail : Word
  tlbBusy : Bool
  /-- the pages that TLBINVs in progress name: domain and page, or every page -/
  tlbReq : List (BitVec 16 × Option Nat)
  /-- the arithmetic clock in force (R391) -/
  clock : BitVec 16
  deriving DecidableEq, Repr

/-! ## Host queues (26) -/

/-- A JUMP in progress (R407): buffer address, length, the next word, and whether the JUMP raises the vector. -/
structure JumpS where
  addr : DWord
  len : Nat
  pos : Int
  irq : Bool
  deriving DecidableEq, Repr

/-- A host queue (R403). -/
structure HQueue where
  base : DWord
  cfg : Word
  tail : Word
  prog : Word
  halt : Bool
  err : Byte
  res : Bool
  wdog : Word
  rd : Word
  /-- the loop state (R409): whether the LOOP word stands in a JUMP buffer, its index, the counter -/
  loop : Option (Bool × Int × Word)
  jump : Option JumpS
  /-- EN has been set and the queue is not checked yet (R403) -/
  unchecked : Bool
  /-- the launches that FENCE waits for (R407) -/
  launches : List Nat
  /-- model: the command that waits for another package's answer: its words and IRQ -/
  pending : Option (Nat × Bool)
  /-- model: the bytes that the command under way has read from other packages, by key, once it has asked for them -/
  got : Option (List (Nat × Byte))
  deriving DecidableEq, Repr

/-! ## Keystones (23) -/

/-- A copy of a cell (R372). -/
structure MajCopy where
  tag : BitVec 64
  data : List Byte
  damaged : Bool
  deriving DecidableEq, Repr

/-- What a majority access is for. -/
inductive MajKind
  | load
  | store (data : List Byte) (core : Byte)
  /-- a load of an object-table entry for a core: domain and index (R199) -/
  | entry (core : Nat) (dom idx : BitVec 16)
  deriving DecidableEq, Repr

/-- Phase of a majority access (R375, R376, R377). -/
inductive MajPhase | held | query | write | done
  deriving DecidableEq, Repr

/-- A majority access at a keystone. -/
structure MajAcc where
  keystone : Nat
  wave : Nat
  /-- the flight that a load answers -/
  flight : Option Nat
  kind : MajKind
  setNo : BitVec 4
  pa : Nat
  lanes : Mask
  phase : MajPhase
  /-- undamaged replies so far: copy, tag, data -/
  replies : List (Nat × BitVec 64 × List Byte)
  /-- the tag and data written, or returned by a load -/
  tag : BitVec 64
  data : List Byte
  /-- copies known to hold a tag at or above `tag` -/
  holds : List Nat
  /-- answers of copies on their way to the keystone: copy, whether ACCEPT -/
  answers : List (Nat × Bool)
  entry : RQEntry
  /-- the copies that the access's first messages reached (R387) -/
  asked : BitVec 5
  /-- later accesses of the wave wait for this one: its order acquires (R314, R321) -/
  fence : Bool
  /-- the granule that the wave's registers stood in when it asked: core, granule, generation (R177) -/
  mark : Option (Nat × Nat × BitVec 16) := none
  deriving DecidableEq, Repr

/-- A store or write-back in flight to a copy: its access and copy number, if it still matters, and the place. -/
structure MajMsg where
  acc : Option Nat
  copy : Nat
  stack : Nat
  off : Nat
  tag : BitVec 64
  data : List Byte
  deriving DecidableEq, Repr

/-- The keystone block and the majority region (R372, R382). -/
structure Keystones where
  repset : Vector DWord 16
  qtimeout : Word
  scrub : Word
  kstamp : Vector (BitVec 56) 4
  rebaseFail : Bool
  rebaseBusy : Bool
  copies : List (Nat × Nat × MajCopy)
  /-- stacks whose majority region Prawin marked damaged (R378) -/
  lost : BitVec 12
  /-- what Prawin or a rebase has rewritten of such a region since: stack, first and end offset (R373, R378, R381) -/
  rewritten : List (Nat × Nat × Nat)
  /-- the stamp that copies which no entry of `copies` lists hold, by stack, first and end offset, latest first: 1 after a
  rebase, 0 where Prawin wrote zero since (R373, R381) -/
  stamps : List (Nat × Nat × Nat × Bool)
  /-- the scrubber's next cell in each set (R379) -/
  scrubAt : Vector Nat 16
  accs : List MajAcc
  msgs : List MajMsg
  deriving DecidableEq, Repr

/-! ## Viaduct (27) -/

/-- Stream states (R422). -/
inductive StreamSt | up | recovery | lost | reset
  deriving DecidableEq, Repr

/-- Whose answer an outstanding remote request brings (R421): a lane of a flight, a lane's store (with its instruction as
a replay entry, and a number that its lanes share), an element of a copy operation, the head of a core's matrix queue. -/
inductive ReqFor
  | flight (w f : Nat) (lane : Lane)
  | store (w : Nat) (lane : Lane) (entry : RQEntry) (id : Nat)
  | copyRead (k : Nat) (places : List Nat)
  | copyWrite (k : Nat)
  /-- with the type and the operand of an add-on-store's element, whose flags its answer gives (R263) -/
  | matrix (core : Nat) (add : Option (AccTy × Nat))
  /-- a read of an object-table entry for a core: domain and index (R199) -/
  | entry (core : Nat) (dom idx : BitVec 16)
  /-- an access of the Wellhead, or of the command processor for a queue (R407) -/
  | agent (queue : Option Nat)
  deriving DecidableEq, Repr

/-- An outstanding remote request (R421). -/
structure RemReq where
  tag : BitVec 16
  op : BitVec 8
  who : ReqFor
  bytes : Nat
  /-- remote physical address, and the virtual address that asked for it -/
  pa : Nat
  va : DWord
  /-- later accesses of the wave wait for this one: its order acquires (R314, R321) -/
  fence : Bool
  /-- model: the traps that the wave had entered when it asked (R285) -/
  stamp : Nat
  /-- the core that asked (R345), and the granule of the destination with its generation then (R177) -/
  core : Nat := 0
  mark : Option (Nat × Nat × BitVec 16) := none
  /-- a compare and swap, whose answer says whether it has stored (R194) -/
  cas : Bool := false
  deriving DecidableEq, Repr

/-- The stream to one peer (R417, R422, R423). -/
structure Stream where
  st : StreamSt
  gen : BitVec 16
  seq : Word
  expect : Word
  acked : Word
  unacked : List Frame
  retries : Nat
  nextTag : BitVec 16
  /-- requests that wait for the stream (R420, R423) -/
  held : List Frame
  reqs : List RemReq
  deriving DecidableEq, Repr

/-- The port block and the streams (R420). -/
structure Viaduct where
  vpid : Word
  vctl : Word
  vtype : Word
  rto : Word
  retry : Word
  recto : Word
  exbase : DWord
  exsize : DWord
  exrights : Word
  links : BitVec 8
  routes : List (Nat × BitVec 4)
  streams : List (Nat × Stream)
  /-- frames sent, oldest first, each with the port that ROUTE named (R417) -/
  out : List (Nat × Frame)
  deriving DecidableEq, Repr

/-! ## Power, management, attestation (26) -/

/-- The power block (R411). -/
structure Power where
  aclk : Word
  plimit : Word
  ewin : Word
  ebudget : Word
  ecost : Vector Word 8
  tthresh : Word
  pause : Word
  above : Bool
  watts : BitVec 16
  /-- the window in force: its length and the remaining budget -/
  winLen : Word
  budget : Word
  deriving DecidableEq, Repr

/-- The last SPDM response in the DOE mailbox (R414). -/
inductive Spdm
  | version (v : BitVec 16)
  | capabilities (cert chal meas keyEx mutAuth setCert : Bool)
  | algorithms (asym hash : Word)
  | digests (slots : BitVec 8) (digest : BitVec 384)
  | certificate (slot : BitVec 8) (ofs remainder : BitVec 16) (portion : List Byte)
  | challengeAuth (slot : BitVec 8) (signature : BitVec 768)
  | measurements (blocks : List (BitVec 8 × BitVec 384)) (signature : Option (BitVec 768))
  | error
  deriving DecidableEq, Repr

/-- The configuration record (R3, R370, R382): enabled cores, G, S and its security version. -/
structure CfgRecord where
  enabled : Vector (BitVec 68) 4
  g : Nat
  sites : Nat
  version : Word
  deriving DecidableEq, Repr

/-- Package flash and the management processor (R413, R415). -/
structure Mgmt where
  recovery : Bool
  /-- the security-version minimums of the record and of Prawin for the command and the management processor (R413) -/
  minVersion : Vector Word 3
  /-- the record and the images that a reset checks (R413) -/
  images : ResetImages
  counters : List (Nat × DWord)
  /-- model: the events counted in the last 60 s, which a power loss may undo: the time of each, its counter and by how much it
  rose (R415) -/
  recent : List (Int × Nat × Nat)
  lcidx : BitVec 16
  spdm : Option Spdm
  modules : BitVec 16
  msix : BitVec 66
  deriving DecidableEq, Repr

/-! ## The package -/

/-- The instruction being issued: wave, split slot, words, and the entry when it is a re-injection (R283). Model. -/
structure Issuer where
  wave : Nat
  slot : Nat
  w0 : Word
  w1 : Word
  w2 : Word
  replay : Option RQEntry
  deriving DecidableEq, Repr

/-- The whole package. -/
structure State where
  /-- model: events that have arrived from outside, oldest first -/
  inbox : List Instr
  /-- model: the next step may be one of the device's own events -/
  devTurn : Bool
  /-- model: the order of the coming steps, an input: 0 for the issue of an instruction or one more than the number of the
  event that happens among those due, and the core whose turn it is, with 256 more where its quadrant makes a second pick in the
  same cycle and 512 more where that is the next instruction of the same split (R171); where none is listed, events and issues alternate and
  the cores take turns -/
  order : List (Nat × Nat)
  /-- model: the instruction being issued -/
  cur : Option Issuer
  /-- model: counts the free values drawn -/
  fresh : Nat
  /-- model: the residue stage failing in the next instruction (lanes, datapath, stage, twice), an input (R73, R430) -/
  residue : Option (Mask × BitVec 2 × BitVec 3 × Bool)
  /-- model: the data of the last host read (R328) -/
  hostData : List Byte
  /-- the last debugger write was refused with PENDING (R290) -/
  dbgPending : Bool
  /-- the package time base (R68) -/
  clock : DWord
  /-- model: the ticks that pass at the coming steps, an input; one where none is listed (R68) -/
  ticks : List Nat
  /-- model: the single-bit errors that the reads of the coming steps correct, by the index of their count, an input (R168,
  R371, R415) -/
  corrected : List (List Nat)
  /-- model: the instruction last issued found that it must wait (R169) -/
  waited : Bool
  /-- memory by kind * 2^52 + physical address (R337, R370) -/
  mem : Mem
  /-- uncorrectable 32-bit words of memory, by key / 4 (R371) -/
  memBad : List Nat
  /-- reachable stacks and second-tier sites (R371) -/
  stackUp : BitVec 12
  siteUp : BitVec 8
  cfg : CfgRecord
  mgmt : Mgmt
  domBase : DWord
  domCount : Word
  dies : Vector Die 4
  cores : List (Nat × Core)
  launches : List Launch
  groups : List Group
  waves : List Wave
  trees : List Tree
  copies : List CopyE
  queues : List (Nat × HQueue)
  /-- the Wellhead's round-robin among queues (R360) -/
  nextQueue : Nat
  keys : Keystones
  via : Viaduct
  power : Power
  /-- last writing core of a 128-byte line, for the sharing sketches (R299) -/
  writers : List (Nat × Nat)
  /-- model: the core whose turn it is to issue -/
  nextCore : Nat
  deriving DecidableEq, Repr

/-! ## Reasons to stop -/

/-- Why a step can stop with a fault. -/
inductive Fault
  /-- an instruction of a split is executed while no split is issuing one: raised by every meaning of a split's instruction
  in a state that no step reaches; safe, the hardware has no such case -/
  | noIssuer
  deriving DecidableEq, Repr

/-- Why a step can be refused. -/
inductive Refusal
  /-- an instruction without a meaning: raised by Dispatch alone; safe -/
  | notModelled (mnemonic : String)
  deriving DecidableEq, Repr

/-! ## The state after reset -/

/-- The same value in every lane. -/
def splat {α : Type} (x : α) : Lanes α := Vector.replicate 32 x

/-- No split and no record. -/
def SplitTable.empty : SplitTable := ⟨Vector.replicate 4 none, Vector.replicate 4 none, Vector.replicate 16 none⟩

/-- A quadrant with no wave. -/
def Quad.idle : Quad := ⟨[], 0, [], none⟩

/-- A core that holds nothing. -/
def Core.idle : Core :=
  { partition := 0, granules := [], tarn := [], quads := Vector.replicate 4 Quad.idle, pool := [], poolBad := [],
    tiles := [], tilesBad := [], tileDom := none, thermal := false, sketch := List.replicate 8 (0, 0), mq := [], ot := [],
    otDom := none, otFail := [], l1 := [], nextQuad := 0 }

/-- At reset each enabled core forms an instance of one, epochs 1 to 64 (R296). -/
def Die.reset : Die :=
  { spans := (List.range 64).map (fun c => Span.fresh c [c] (BitVec.ofNat 48 (c + 1))), epoch := 65, interval := 1000,
    newInterval := none, moved := [], regroup := none, freezes := [], tlb := [], tables := [], faults := [], fqWaiting := [],
    fqbase := 0, fqsize := 0, fqhead := 0, fqtail := 0, tlbBusy := false, tlbReq := [], clock := 2000 }

/-- A queue at reset (R403, R434). -/
def HQueue.reset : HQueue :=
  { base := 0, cfg := 0, tail := 0, prog := 0, halt := false, err := 0, res := false, wdog := 0x00989680, rd := 0,
    loop := none, jump := none, unchecked := false, launches := [], pending := none, got := none }

/-- The keystone block at reset (R382). -/
def Keystones.reset : Keystones :=
  { repset := Vector.replicate 16 0, qtimeout := 1000, scrub := 0x80001000, kstamp := Vector.replicate 4 0,
    rebaseFail := false, rebaseBusy := false, copies := [], lost := 0, rewritten := [], stamps := [],
    scrubAt := Vector.replicate 16 0, accs := [], msgs := [] }

/-- A stream at reset (R422, R423). -/
def Stream.reset : Stream :=
  { st := .up, gen := 0, seq := 1, expect := 1, acked := 0, unacked := [], retries := 0, nextTag := 0, held := [], reqs := [] }

/-- The port block at reset (R420). -/
def Viaduct.reset : Viaduct :=
  { vpid := 0, vctl := 1, vtype := 0, rto := 20, retry := 8, recto := 1000000, exbase := 0, exsize := 0, exrights := 0,
    links := 0, routes := [], streams := [], out := [] }

/-- The power block at reset (R411). -/
def Power.reset : Power :=
  { aclk := 2000, plimit := 2400, ewin := 1000, ebudget := 0xFFFFFFFF, ecost := Vector.replicate 8 0, tthresh := 95,
    pause := 0, above := false, watts := 0, winLen := 1000, budget := 0xFFFFFFFF }

/-- The configuration record that the model takes (log entry 3). -/
def CfgRecord.chosen : CfgRecord := { enabled := Vector.replicate 4 0x0FFFFFFFFFFFFFFFF, g := 1, sites := 8, version := 0 }

/-- Flash and management at the first reset (log entry 3). -/
def Mgmt.reset : Mgmt :=
  { recovery := false, minVersion := Vector.replicate 3 0, images := ⟨⟨true, 0⟩, ⟨true, 0⟩, ⟨true, 0⟩⟩, counters := [], recent := [], lcidx := 0, spdm := none, modules := 0xFFFF, msix := 0 }

/-- The package right after reset: the values the manual states, and those of log entries 1 to 7. -/
def State.reset : State :=
  { inbox := [], devTurn := false, order := [], cur := none, fresh := 0, residue := none, hostData := [],
    dbgPending := false, clock := 0, ticks := [], corrected := [], waited := false, mem := [], memBad := [], stackUp := 0xFFF, siteUp := 0xFF, cfg := CfgRecord.chosen, mgmt := Mgmt.reset, domBase := 0,
    domCount := 0, dies := Vector.replicate 4 Die.reset, cores := [], launches := [], groups := [], waves := [],
    trees := [], copies := [], queues := [], nextQueue := 0, keys := Keystones.reset, via := Viaduct.reset,
    power := Power.reset, writers := [], nextCore := 0 }

end Sys2Proof.Machine
end

