-- ==== Sys2Proof/Machine/Memory.lean ====
section
/-! DEFINITION. Sorted lists keyed by a number, and bytes of memory in canonical form (R10): the one place that decides
byte order. -/

namespace Sys2Proof.Machine

/-! ## Lists keyed by a number -/

/-- The entry at key `k`. -/
def lookupN {α : Type} (k : Nat) : List (Nat × α) → Option α
  | [] => none
  | (j, v) :: r => if j = k then some v else lookupN k r

/-- The list with `v` at key `k`, keys rising. -/
def insertN {α : Type} (k : Nat) (v : α) : List (Nat × α) → List (Nat × α)
  | [] => [(k, v)]
  | (j, w) :: r => if k < j then (k, v) :: (j, w) :: r else if k = j then (k, v) :: r else (j, w) :: insertN k v r

/-- The list without key `k`. -/
def eraseN {α : Type} (k : Nat) : List (Nat × α) → List (Nat × α)
  | [] => []
  | (j, w) :: r => if j = k then eraseN k r else (j, w) :: eraseN k r

/-- A sorted set of numbers with `k` in it. -/
def insertSet (k : Nat) : List Nat → List Nat
  | [] => [k]
  | j :: r => if k < j then k :: j :: r else if k = j then j :: r else j :: insertSet k r

/-! ## Bytes -/

/-- What a byte that nothing has written reads as (log entry 1). -/
def unlistedByte : Byte := 0

/-- The canonical form: addresses strictly rising, no entry equal to what an unlisted address reads as. -/
abbrev Mem.wf (m : Mem) : Prop := m.Pairwise (fun a b => a.1 < b.1) ∧ ∀ c ∈ m, c.2 ≠ unlistedByte

/-- The byte at `a`. -/
def Mem.read (m : Mem) (a : Nat) : Byte := (lookupN a m).getD unlistedByte

/-- The memory with byte `v` at `a`. -/
def Mem.write (m : Mem) (a : Nat) (v : Byte) : Mem := if v = unlistedByte then eraseN a m else insertN a v m

/-- `n` bytes from `a`. -/
def Mem.bytes (m : Mem) (a : Nat) : Nat → List Byte
  | 0 => []
  | n + 1 => m.read a :: Mem.bytes m (a + 1) n

/-- The memory with the bytes stored from `a` up. -/
def Mem.store (m : Mem) (a : Nat) : List Byte → Mem
  | [] => m
  | b :: r => Mem.store (m.write a b) (a + 1) r

/-- Bytes as a little-endian number (R10). -/
def ofBytes : List Byte → Nat
  | [] => 0
  | b :: r => b.toNat + 256 * ofBytes r

/-- A number as `n` little-endian bytes (R10). -/
def toBytes : Nat → Nat → List Byte
  | 0, _ => []
  | n + 1, x => BitVec.ofNat 8 x :: toBytes n (x / 256)

/-- `n` bytes from `a` as a number. -/
def Mem.readN (m : Mem) (a n : Nat) : Nat := ofBytes (m.bytes a n)

/-- The memory with `x` in the `n` bytes from `a`. -/
def Mem.writeN (m : Mem) (a n x : Nat) : Mem := m.store a (toBytes n x)

/-! ## Overlays: dirty bytes, of any value -/

/-- Dirty bytes over a memory (R302, R395). -/
abbrev Overlay := List (Nat × Byte)

/-- The overlay with a byte put in. -/
def Overlay.put (o : Overlay) (a : Nat) (v : Byte) : Overlay := insertN a v o

/-- The overlay with the bytes from `a` up put in. -/
def Overlay.store (o : Overlay) (a : Nat) : List Byte → Overlay
  | [] => o
  | b :: r => Overlay.store (o.put a b) (a + 1) r

/-- The overlay without the `n` bytes from `a`. -/
def Overlay.drop (o : Overlay) (a : Nat) : Nat → Overlay
  | 0 => o
  | n + 1 => Overlay.drop (eraseN a o) (a + 1) n

/-- A byte as an observer of the overlay reads it. -/
def Overlay.read (o : Overlay) (m : Mem) (a : Nat) : Byte := (lookupN a o).getD (m.read a)

/-- `n` bytes from `a` as an observer of the overlay reads them. -/
def Overlay.bytes (o : Overlay) (m : Mem) (a : Nat) : Nat → List Byte
  | 0 => []
  | n + 1 => o.read m a :: Overlay.bytes o m (a + 1) n

/-- The memory with every dirty byte written to it. -/
def Overlay.flush (o : Overlay) (m : Mem) : Mem := o.foldl (fun m c => m.write c.1 c.2) m

end Sys2Proof.Machine
end

