-- ==== Sys2Proof/Machine/Translate.lean ====
section
/-! DEFINITION. The spaces of package memory (R370), the die translation service (R336 to R342) and instruction fetch
(R29). -/

namespace Sys2Proof.Machine

/-! ## Physical memory -/

/-- The key of a byte in `State.mem`: its KIND and physical address (R337, R370). -/
def memKey (kind : BitVec 4) (pa : Nat) : Nat := kind.toNat * 2 ^ 52 + pa

/-- Bytes of one second-tier site: the greatest size that R4 allows (log entry 3). -/
def siteBytes : Nat := 2 ^ 38

/-- The end of the installed space of a KIND (R370), or none where the frame's bits alone bound it. -/
def kindEnd (cfg : CfgRecord) (kind : BitVec 4) : Option Nat :=
  if kind = 0 then some (12 * (2 ^ 36 - 9 * cfg.g * 2 ^ 27))
  else if kind = 1 then some (cfg.sites * siteBytes)
  else none

/-- The stack of a KIND 0 address, the site of a KIND 1 address (R370). -/
def stackOf (cfg : CfgRecord) (kind : BitVec 4) (pa : Nat) : Nat :=
  if kind = 0 then pa / 4096 % 12 else pa / 4096 % cfg.sites

/-- Whether the device that holds a physical address answers (R371). -/
def State.reachable (s : State) (kind : BitVec 4) (pa : Nat) : Bool :=
  if kind = 0 then s.stackUp.getLsbD (stackOf s.cfg kind pa)
  else if kind = 1 then s.siteUp.getLsbD (stackOf s.cfg kind pa)
  else true

/-- Whether the device answers and no 32-bit word of `n` bytes from an aligned address is uncorrectable (R371). -/
def State.sound (s : State) (kind : BitVec 4) (pa n : Nat) : Bool :=
  s.reachable kind pa && (List.range ((n + 3) / 4)).all (fun i => !s.memBad.contains (memKey kind pa / 4 + i))

/-- An 8-byte word of KIND 0 memory: a page-table or domain-table word. What a device that does not answer, or an uncorrectable
word, supplies to a walk is a free value (log entry 9). -/
def State.qword (s : State) (pa : Nat) : DWord :=
  BitVec.ofNat 64 (if s.sound 0 pa 8 then s.mem.readN (memKey 0 pa) 8 else Config.choice s.fresh (memKey 0 pa))

/-! ## Rights and walks -/

/-- What an access needs of its leaf (R338). -/
inductive Need | read | write | atomic | fetch | none
  deriving DecidableEq, Repr

/-- The fault kind of a leaf that lacks a right (R342), none when it grants what is needed. -/
def TlbE.denies (e : TlbE) (n : Need) : Option Nat :=
  match n with
  | .read => if e.r then Option.none else some 2
  | .write => if e.w then Option.none else some 3
  | .atomic => if e.r && e.w && e.at' then Option.none else some 4
  | .fetch => if e.x then Option.none else some 5
  | .none => Option.none

/-- A class 6 cause (R342). -/
def xlatCause (kind level : Nat) : Cause := BitVec.ofNat 9 (0x0C0 + kind * 4 + level)

/-- The page bytes of a leaf at a level (R336). -/
def pageBytes (level : Nat) : Nat := 2 ^ (12 + 9 * level)

/-- Whether an entry with V = 1 is malformed at its level (R337, R418). -/
def pteMalformed (cfg : CfgRecord) (via : Viaduct) (level : Nat) (e : DWord) : Bool :=
  let leaf := e.getLsbD 7
  let isLeaf := level == 0 || leaf
  let kind := e.extractLsb' 60 4
  let pa := e.toNat % 2 ^ 52 / 4096 * 4096
  decide (e.extractLsb' 52 4 ≠ 0#4) || decide (e.extractLsb' 8 4 ≠ 0#4) || decide (e.extractLsb' 1 2 ≠ 0#2)
    || (leaf && (level == 3 || level == 0))
    || decide (kind.toNat > 4)
    || (decide (kind ≠ 4) && decide (e.extractLsb' 56 4 ≠ 0#4))
    || (if isLeaf then
          decide (pa % pageBytes level ≠ 0)
            || (match kindEnd cfg kind with
                | some n => decide (pa + pageBytes level > n)
                | none => false)
            || (decide (kind = 3) &&
                (decide (pa / 2 ^ 42 = via.vpid.toNat) || decide (pa / 2 ^ 42 ≥ (via.vctl &&& 0x7FF).toNat)))
        else decide (kind ≠ 0))

/-- A walk's answer: the leaf, or the class 6 cause (R342). -/
inductive Walk
  | leaf (e : TlbE)
  | fault (c : Cause)
  deriving DecidableEq, Repr

/-- What a translation has read: the leaf that granted it, the non-leaf entries that it went through, which the die may cache (R339),
and the uncorrectable words, by key / 4. -/
structure Walked where
  leaf : Option TlbE
  tables : List TblE
  bad : List Nat
  deriving DecidableEq, Repr

/-- A translation that has read nothing. -/
def Walked.none : Walked := ⟨.none, [], []⟩

/-- What two translations have read: the leaf of the first that has one. -/
def Walked.join (x y : Walked) : Walked := ⟨x.leaf.or y.leaf, x.tables ++ y.tables, x.bad ++ y.bad⟩

/-- The uncorrectable words of a table entry in HBM. -/
def State.badQword (s : State) (pa : Nat) : List Nat :=
  if s.reachable 0 pa then ([memKey 0 pa / 4, memKey 0 pa / 4 + 1]).filter s.memBad.contains else []

/-- The table that a present and well-formed non-leaf entry names. -/
def State.nextTable (s : State) (level : Nat) (e : DWord) : Option Nat :=
  if e.getLsbD 0 && !pteMalformed s.cfg s.via level e && !(level == 0 || e.getLsbD 7) then some (e.toNat % 2 ^ 52 / 4096 * 4096)
  else none

/-- The table that a cached non-leaf entry names for an address at a level (R339). -/
def cachedTable (l : List TblE) (dom : BitVec 16) (va : DWord) (level : Nat) : Option Nat :=
  (l.find? (fun t => t.dom == dom && t.level == level && va.toNat / 2 ^ (12 + 9 * level) == t.index)).map (·.table)

/-- The walk from the table at `tbl` down the listed levels (R336, R342), and what it has read. Where `cached` holds another entry
than the tables do, the walk goes on with either (R339): a free choice. -/
def walkFrom (s : State) (cached : List TblE) (dom : BitVec 16) (va : DWord) : List Nat → Nat → Walk × Walked
  | [], _ => (.fault (xlatCause 0 0), Walked.none)
  | level :: rest, tbl =>
    let at' := tbl + 8 * (va.toNat / 2 ^ (12 + 9 * level) % 512)
    let e := s.qword at'
    let old := (cachedTable cached dom va level).filter (fun _ => Config.stale s.fresh (2 ^ 52 * (level + 1) + va.toNat / 4096))
    let bad := if old.isSome then [] else s.badQword at'
    match old.or (s.nextTable level e) with
    | some t =>
      let r := walkFrom s cached dom va rest t
      (r.1, { r.2 with tables := ⟨dom, level, va.toNat / 2 ^ (12 + 9 * level), t⟩ :: r.2.tables, bad := bad ++ r.2.bad })
    | none =>
      (if !e.getLsbD 0 then .fault (xlatCause 0 level)
        else if pteMalformed s.cfg s.via level e then .fault (xlatCause 1 level)
        else .leaf { dom := dom, page := va.toNat / pageBytes level, size := pageBytes level, kind := e.extractLsb' 60 4,
                     setNo := e.extractLsb' 56 4, pa := e.toNat % 2 ^ 52 / 4096 * 4096, x := e.getLsbD 6,
                     at' := e.getLsbD 5, w := e.getLsbD 4, r := e.getLsbD 3, level := level },
        ⟨.none, [], bad⟩)

/-- A cached leaf of the die that maps the address (R339). -/
def Die.cached (d : Die) (dom : BitVec 16) (va : DWord) : Option TlbE :=
  d.tlb.find? (fun e => e.dom == dom && va.toNat / e.size == e.page)

/-- Where an address lies: KIND, replica set, physical address. -/
structure Phys where
  kind : BitVec 4
  setNo : BitVec 4
  pa : Nat
  deriving DecidableEq, Repr

/-- The physical address that a leaf gives (R337). -/
def TlbE.phys (e : TlbE) (va : DWord) : Phys := ⟨e.kind, e.setNo, e.pa + va.toNat % e.size⟩

/-- A walk's answer with the rights check (R338, R342). -/
def Walk.check (w : Walk) (need : Need) : Walk :=
  match w with
  | .fault c => .fault c
  | .leaf e => match e.denies need with
    | some k => .fault (xlatCause k e.level)
    | none => .leaf e

/-- What a walk of the tables themselves and the rights check give (R338, R342). -/
def State.walk (s : State) (dom : Domain) (va : DWord) (need : Need) : Walk :=
  (walkFrom s [] dom.id va [3, 2, 1, 0] dom.root.toNat).1.check need

/-- A fresh walk's answer as a translation. -/
def Walk.answer (w : Walk) (x : Walked) (va : DWord) : Except Cause Phys × Walked :=
  match w with
  | .fault c => (.error c, x)
  | .leaf e => (.ok (e.phys va), { x with leaf := some e })

/-- Translation of one address on a die (R336 to R342): the place or the class 6 cause, and what it has read. An access for which
a cached leaf and the tables differ uses either (R339): a free choice. -/
def State.translate (s : State) (die : Nat) (dom : Domain) (va : DWord) (need : Need) :
    Except Cause Phys × Walked :=
  if va.extractLsb' 48 16 ≠ 0#16 then (.error 0x0DB, Walked.none)
  else
    let d := (s.dies[die]?).getD Die.reset
    let r := walkFrom s d.tables dom.id va [3, 2, 1, 0] dom.root.toNat
    let w := r.1.check need
    match (d.cached dom.id va).filter (fun e => (e.denies need).isNone) with
    | none => w.answer r.2 va
    | some e =>
      if w = .leaf e ∨ Config.stale s.fresh (va.toNat / 4096) = true then (.ok (e.phys va), Walked.none) else w.answer r.2 va

/-- The state with die `d` changed. -/
def State.withDie (s : State) (d : Nat) (f : Die → Die) : State :=
  match s.dies[d]? with
  | some x => { s with dies := s.dies.setIfInBounds d (f x) }
  | none => s

/-- The die with an entry cached, in the place of an older one of the same part of the address space (R339). -/
def Die.cacheTable (d : Die) (t : TblE) : Die :=
  if d.tables.contains t then d
  else { d with tables := t :: d.tables.filter (fun x => !(x.dom == t.dom && x.level == t.level && x.index == t.index)) }

/-- The die caches what a translation has read (R339). -/
def State.cacheWalk (s : State) (die : Nat) (w : Walked) : State :=
  if w.leaf = none ∧ w.tables = [] then s
  else s.withDie die (fun d =>
    let d := w.tables.foldl Die.cacheTable d
    match w.leaf with
    | some e => if d.tlb.contains e then d else { d with tlb := e :: d.tlb }
    | none => d)

/-- A fault discards every cached copy of the entry that faulted (R339), whose level is that of the cause (R342). -/
def State.dropLeaf (s : State) (die : Nat) (dom : BitVec 16) (va : DWord) (c : Cause) : State :=
  s.withDie die (fun d => { d with
    tlb := d.tlb.filter (fun e => !(e.dom == dom && va.toNat / e.size == e.page))
    tables := d.tables.filter (fun t =>
      !(t.dom == dom && t.level == c.toNat % 4 && va.toNat / 2 ^ (12 + 9 * t.level) == t.index)) })

/-! ## Fetch -/

/-- What a fetch finds: the three words and what it has read, a class 5 cause, or a translation fault at an address (R29, R348). -/
inductive Fetched
  | words (w0 w1 w2 : Word) (read : Walked)
  | offCode
  | fault (va : DWord) (c : Cause)
  deriving DecidableEq, Repr

/-- The 32-bit word at a physical place, as a fetch reads it: the one that stands at the home at this step, never an older one
(R30 lets it be either, log entry 57). What a remote or majority page, a device that does not answer or an
uncorrectable word supplies to a fetch is not stated, a free value (log entry 9). -/
def State.fetchWord (s : State) (p : Phys) : Word :=
  BitVec.ofNat 32 (if p.kind.toNat ≤ 2 ∧ s.sound p.kind p.pa 4 = true then s.mem.readN (memKey p.kind p.pa) 4
    else Config.choice s.fresh (memKey p.kind p.pa))

/-- The uncorrectable word of a place that a fetch reads. -/
def State.badWord (s : State) (p : Phys) : List Nat :=
  if p.kind.toNat ≤ 2 ∧ s.reachable p.kind p.pa = true then [memKey p.kind p.pa / 4].filter s.memBad.contains else []

/-- The fetch of the instruction at byte offset `pc` of a launch's code, on a die (R29, R338). -/
def State.fetch (s : State) (die : Nat) (l : Launch) (pc : Word) : Fetched :=
  if pc.toNat % 12 ≠ 0 ∨ pc.toNat ≥ l.record.codeSize.toNat then .offCode
  else
    let va (i : Nat) : DWord := l.record.codeBase + BitVec.ofNat 64 (pc.toNat + 4 * i)
    match s.translate die l.domain (va 0) .fetch, s.translate die l.domain (va 1) .fetch,
        s.translate die l.domain (va 2) .fetch with
    | (.ok p0, e0), (.ok p1, e1), (.ok p2, e2) =>
      .words (s.fetchWord p0) (s.fetchWord p1) (s.fetchWord p2)
        ((e0.join (e1.join e2)).join ⟨none, [], s.badWord p0 ++ s.badWord p1 ++ s.badWord p2⟩)
    | (.error c, _), _, _ => .fault (va 0) c
    | _, (.error c, _), _ => .fault (va 1) c
    | _, _, (.error c, _) => .fault (va 2) c

end Sys2Proof.Machine
end

