-- ==== Sys2Proof/Machine/Splits.lean ====
section
/-! DEFINITION. The split table and the divergence stack: division, arrival, merge, removal of lanes (R207 to R212). A
place is a number: 0 to 3 a slot or record slot, 4 to 19 a divergence-stack entry. -/

namespace Sys2Proof.Machine

/-- The lowest empty entry. -/
def lowestFree {α : Type} {n : Nat} (v : Vector (Option α) n) : Option Nat :=
  ((List.finRange n).find? (fun i => v[i].isNone)).map (·.val)

/-- Record number `k` (R207). -/
def SplitTable.rec? (t : SplitTable) (k : Nat) : Option Rec :=
  if k < 4 then (t.recs[k]?).join
  else match (t.stack[k - 4]?).join with
    | some (.record r) => some r
    | some (.split _) | none => none

/-- The table with record number `k` replaced. -/
def SplitTable.setRec (t : SplitTable) (k : Nat) (r : Option Rec) : SplitTable :=
  if k < 4 then { t with recs := t.recs.setIfInBounds k r }
  else { t with stack := t.stack.setIfInBounds (k - 4) (r.map StackE.record) }

/-- The split at place `k`. -/
def SplitTable.split? (t : SplitTable) (k : Nat) : Option Split :=
  if k < 4 then (t.slots[k]?).join
  else match (t.stack[k - 4]?).join with
    | some (.split s) => some s
    | some (.record _) | none => none

/-- The table with the split at place `k` replaced. -/
def SplitTable.setSplit (t : SplitTable) (k : Nat) (s : Option Split) : SplitTable :=
  if k < 4 then { t with slots := t.slots.setIfInBounds k s }
  else { t with stack := t.stack.setIfInBounds (k - 4) (s.map StackE.split) }

/-- Where a new record goes (R209): the lowest free record slot, else the lowest free stack entry. -/
def SplitTable.freeRec (t : SplitTable) : Option Nat :=
  match lowestFree t.recs with
  | some k => some k
  | none => (lowestFree t.stack).map (· + 4)

/-- Where a new split goes (R209, R210): the lowest free slot, else the lowest free stack entry. -/
def SplitTable.freeSlot (t : SplitTable) : Option Nat :=
  match lowestFree t.slots with
  | some k => some k
  | none => (lowestFree t.stack).map (· + 4)

/-- A new block (R209). -/
def Split.newBlock (x : Split) : Split := { x with hash := 0xFFFF, emask := x.mask }

/-- A merge whose mask check failed (R211, R215): the merged mask, the reconvergence PC, and the place of the record whose last
awaited lane has left, where lanes that left made the merge due (R212, R287). -/
structure Mismatch where
  mask : Mask
  pc : Word
  due : Option Nat
  deriving DecidableEq, Repr

/-- CheckMerge of record `k` (R211); `gone` holds the dead and exited lanes, `chk` says whether checking is enabled. -/
def SplitTable.checkMerge : Nat → SplitTable → Nat → Mask → Bool → SplitTable × List Mismatch
  | 0, t, _, _, _ => (t, [])
  | fuel + 1, t, k, gone, chk =>
    match t.rec? k with
    | none => (t, [])
    | some r =>
      if r.pend &&& ~~~gone ≠ 0 then (t, [])
      else
        let m := r.mask &&& ~~~gone
        let t := t.setRec k none
        if m = 0 then (t, [])
        else
          let s : Split := Split.newBlock ⟨m, r.pc, r.rpc, 0, 0, r.fmt, r.link, false, false, none⟩
          let arriving := s.pc = s.rpc
          if chk && decide (m ≠ r.arr &&& ~~~gone) then
            (match t.freeSlot with
              | some j => (t.setSplit j (some s), [⟨m, r.pc, none⟩])
              | none => (t, []))
          else if arriving then
            match t.rec? s.link.toNat with
            | none => (t, [])
            | some r' =>
              SplitTable.checkMerge fuel
                (t.setRec s.link.toNat (some { r' with pend := r'.pend &&& ~~~m, arr := r'.arr ||| m }))
                s.link.toNat gone chk
          else
            match t.freeSlot with
            | some j => (t.setSplit j (some s), [])
            | none => (t, [])

/-- Arrive (R211): the split at place `k` has reached its reconvergence PC. -/
def SplitTable.arrive (t : SplitTable) (k : Nat) (gone : Mask) (chk : Bool) : SplitTable × List Mismatch :=
  match t.split? k with
  | none => (t, [])
  | some s =>
    match t.rec? s.link.toNat with
    | none => (t, [])
    | some r =>
      SplitTable.checkMerge 21
        ((t.setSplit k none).setRec s.link.toNat
          (some { r with pend := r.pend &&& ~~~s.mask, arr := r.arr ||| s.mask }))
        s.link.toNat gone chk

/-- Whether the split at a place stands at its reconvergence PC. -/
def SplitTable.standsAt (t : SplitTable) (k : Nat) : Bool :=
  ((t.split? k).map (fun s => decide (s.pc = s.rpc ∧ s.rpc ≠ 0xFFFFFFFF))).getD false

/-- The arrival check at place `k` (R211). -/
def SplitTable.maybeArrive (t : SplitTable) (k : Nat) (gone : Mask) (chk : Bool) : SplitTable × List Mismatch :=
  match t.split? k with
  | none => (t, [])
  | some s => if s.pc = s.rpc ∧ s.rpc ≠ 0xFFFFFFFF then t.arrive k gone chk else (t, [])

/-- Parked splits move into free slots, the lowest-numbered entry first (R210). -/
def SplitTable.unpark : Nat → SplitTable → SplitTable
  | 0, t => t
  | fuel + 1, t =>
    match lowestFree t.slots, (List.range 16).find? (fun j => (t.split? (j + 4)).isSome) with
    | some i, some j =>
      SplitTable.unpark fuel ((t.setSplit i (t.split? (j + 4))).setSplit (j + 4) none)
    | _, _ => t

/-- The split at place `k` goes on at `pc`, its arrival checked (R211). -/
def SplitTable.moveTo (t : SplitTable) (k : Nat) (pc : Word) (gone : Mask) (chk : Bool) :
    SplitTable × List Mismatch :=
  match t.split? k with
  | none => (t, [])
  | some s =>
    let r := (t.setSplit k (some { s with pc := pc })).maybeArrive k gone chk
    (r.1.unpark 4, r.2)

/-- Splits of slots `ks` that stand at their reconvergence PC arrive: those whose wait has ended without going on (R211, R281). -/
def SplitTable.arriveAt (t : SplitTable) (ks : List Nat) (gone : Mask) (chk : Bool) : SplitTable × List Mismatch :=
  let r := ks.foldl (fun (a : SplitTable × List Mismatch) k =>
    let b := a.1.maybeArrive k gone chk
    (b.1, a.2 ++ b.2)) (t, [])
  if ks.isEmpty then r else (r.1.unpark 4, r.2)

/-- Divergence-stack entries that Divide would take, and those that are free (R210). -/
def SplitTable.divideFits (t : SplitTable) (s : Split) (tm : Mask) (r : Word) : Bool :=
  let n := s.mask &&& ~~~tm
  if tm = 0 ∨ n = 0 then true
  else
    let needRec := if r = s.rpc then 0 else if (lowestFree t.recs).isSome then 0 else 1
    let needSplit := if (lowestFree t.slots).isSome then 0 else 1
    let free := ((List.range 16).filter (fun j => ((t.stack[j]?).join).isNone)).length
    decide (needRec + needSplit ≤ free)

/-- Divide (R209) for the split at place `k`: lanes `tm` go to `tpc`, the rest to `npc`, reconvergence at `r`. -/
def SplitTable.divide (t : SplitTable) (k : Nat) (tm : Mask) (tpc npc r : Word) (gone : Mask) (chk : Bool) :
    SplitTable × List Mismatch :=
  match t.split? k with
  | none => (t, [])
  | some s =>
    let n := s.mask &&& ~~~tm
    if tm = 0 ∨ n = 0 then
      let r' := (t.setSplit k (some (Split.newBlock { s with pc := if tm = 0 then npc else tpc }))).maybeArrive k gone chk
      (r'.1.unpark 4, r'.2)
    else
      let made : SplitTable × BitVec 5 :=
        if r = s.rpc then (t, s.link)
        else match t.freeRec with
          | none => (t, s.link)
          | some j => (t.setRec j (some ⟨s.mask, r, s.rpc, s.mask, 0, s.fmt, s.link⟩), BitVec.ofNat 5 j)
      let s1 := Split.newBlock { s with mask := n, pc := npc, rpc := r, link := made.2 }
      let s2 := Split.newBlock { s with mask := tm, pc := tpc, rpc := r, link := made.2, yielded := false }
      let t1 := made.1.setSplit k (some s1)
      match t1.freeSlot with
      | none => (t, [])
      | some j =>
        let a := (t1.setSplit j (some s2)).maybeArrive k gone chk
        let b := a.1.maybeArrive j gone chk
        (b.1.unpark 4, a.2 ++ b.2)

/-- The innermost record whose awaited lanes are all gone: one to which no other record links (R212). -/
def SplitTable.dueMerge (t : SplitTable) (gone : Mask) : Option Nat :=
  let due (k : Nat) : Bool := match t.rec? k with | some r => r.pend &&& ~~~gone == 0 | none => false
  let links (k : Nat) : Bool := (List.range 20).any (fun j => match t.rec? j with
    | some r => r.link.toNat == k | none => false)
  (List.range 20).find? (fun k => due k && !links k)

/-- CheckMerge of every record whose awaited lanes are all gone, innermost first (R212). -/
def SplitTable.recheck : Nat → SplitTable → Mask → Bool → SplitTable × List Mismatch
  | 0, t, _, _ => (t, [])
  | fuel + 1, t, gone, chk =>
    match t.dueMerge gone with
    | none => (t.unpark 4, [])
    | some k =>
      let a := t.checkMerge 21 k gone chk
      let b := SplitTable.recheck fuel a.1 gone chk
      (b.1, a.2.map (fun m => { m with due := some k }) ++ b.2)

/-- The table without lanes `m` in its splits; a split left empty frees its place (R212). -/
def SplitTable.dropLanes (t : SplitTable) (m : Mask) : SplitTable :=
  let cut (s : Split) : Option Split :=
    if s.mask &&& m = 0 then some s else if s.mask &&& ~~~m = 0 then none else some { s with mask := s.mask &&& ~~~m }
  { t with
    slots := t.slots.map (fun o => o.bind cut)
    stack := t.stack.map (fun o => o.bind (fun e => match e with
      | .split s => (cut s).map StackE.split
      | .record r => some (.record r))) }

/-- Lanes that exit or die leave their splits, and merges they were awaited for take place (R212). -/
def SplitTable.removeLanes (t : SplitTable) (m gone : Mask) (chk : Bool) : SplitTable × List Mismatch :=
  (t.dropLanes m).recheck 21 gone chk

/-- Lanes killed while the table is saved leave its splits and the PEND of its records (R287). -/
def SplitTable.dropSaved (t : SplitTable) (m : Mask) : SplitTable :=
  let t := t.dropLanes m
  { t with
    recs := t.recs.map (fun o => o.map (fun r => { r with pend := r.pend &&& ~~~m }))
    stack := t.stack.map (fun o => o.map (fun e => match e with
      | .split s => .split s
      | .record r => .record { r with pend := r.pend &&& ~~~m })) }

/-- The place of the split that holds lane `L`. -/
def SplitTable.placeOf (t : SplitTable) (m : Mask) : Option Nat :=
  (List.range 20).find? (fun k => match t.split? k with | some s => s.mask == m | none => false)

/-- SigUpdate (R213): CRC-16, polynomial 0x1021, most significant bit first. -/
def sigUpdate (h : BitVec 16) (opc : BitVec 10) : BitVec 16 :=
  (List.range 16).foldl (fun h i =>
    let f := h.getLsbD 15 ^^ (opc.setWidth 16).getLsbD (15 - i)
    let h := h <<< 1
    if f then h ^^^ 0x1021 else h) h

end Sys2Proof.Machine
end

