-- ==== Sys2Proof/Machine/Waves.lean ====
section
/-! DEFINITION. A wave's own state: its registers and their marks, flags, lane death, and the capture of unfinished work
(R57 to R74, R279). -/

namespace Sys2Proof.Machine

/-! ## Lanes -/

/-- The lanes that have exited or died (R211). -/
def Wave.gone (wv : Wave) : Mask := ~~~wv.live

/-- The higher of two poison codes (R64). -/
def Poison.max (a b : Poison) : Poison :=
  match a, b with
  | .err, _ => .err
  | _, .err => .err
  | .race, _ => .race
  | _, .race => .race
  | .clean, .clean => .clean

/-- The 2-bit code (R64). -/
def Poison.code : Poison → BitVec 2
  | .clean => 0 | .race => 1 | .err => 2

/-- One value per lane. -/
def perLane {α : Type} (f : Lane → α) : Lanes α := Vector.ofFn f

/-- Lane `L`'s value in `m`, `x`'s elsewhere. -/
def choose {α : Type} (m : Mask) (a b : Lanes α) : Lanes α := perLane fun L => if m.has L then a[L] else b[L]

/-- The union of poison codes, lane by lane. -/
def poisonUnion (a b : Lanes Poison) : Lanes Poison := perLane fun L => a[L].max b[L]

/-- All lanes clean. -/
def allClean : Lanes Poison := splat .clean

/-! ## Registers -/

/-- What a register holds at grant (R71): zero, or a free value when its 2 KiB block's last holder was of the same domain. -/
def Wave.grantReg (wv : Wave) (r : Nat) : VReg :=
  { val := if wv.keptRegs.contains (r / 16) then perLane fun L => Config.keptWord wv.kept r L.val else splat 0
    tag := .gen, full := true, poison := allClean, bad := 0, mirrorBad := 0 }

/-- Register `r` (R57). -/
def Wave.reg (wv : Wave) (r : Nat) : VReg := (lookupN r wv.regs).getD (wv.grantReg r)

/-- The wave with register `r` replaced. -/
def Wave.setReg (wv : Wave) (r : Nat) (v : VReg) : Wave := { wv with regs := insertN r v wv.regs }

/-- `n` registers from `r` in lane `L` as one value, the first lowest (R39). -/
def Wave.readN (wv : Wave) (r : Nat) (L : Lane) : Nat → BitVec 128
  | 0 => 0
  | n + 1 => (wv.reg r).val[L].setWidth 128 ||| (Wave.readN wv (r + 1) L n <<< 32)

/-- The highest poison of `n` registers from `r` in lane `L`. -/
def Wave.poisonN (wv : Wave) (r : Nat) (L : Lane) : Nat → Poison
  | 0 => .clean
  | n + 1 => (wv.reg r).poison[L].max (Wave.poisonN wv (r + 1) L n)

/-- Word `i` of a value. -/
def wordOf (v : BitVec 128) (i : Nat) : Word := v.extractLsb' (32 * i) 32

/-- The tag a write leaves (R60): `tag` when every lane is covered, counting dead and exited lanes, else GEN. -/
def Wave.coverTag (wv : Wave) (m : Mask) (tag : Tag) : Tag := if m ||| wv.gone = fullMask then tag else .gen

/-- Lanes `m` of the `n` registers from `r` written whole, with word `i` of each value in register `r + i` (R62, R64). -/
def Wave.writeWhole (wv : Wave) (r : Nat) (m : Mask) (val : Lanes (BitVec 128)) (p : Lanes Poison) (tag : Tag) :
    Nat → Wave
  | 0 => wv
  | n + 1 =>
    let o := wv.reg (r + n)
    (Wave.writeWhole wv r m val p tag n).setReg (r + n)
      { o with val := perLane fun L => if m.has L then wordOf val[L] n else o.val[L]
               poison := choose m p o.poison
               tag := wv.coverTag m tag, bad := o.bad &&& ~~~m, mirrorBad := o.mirrorBad &&& ~~~m }

/-- Width in bits of a packed control. -/
def eltBits : EltW → Nat
  | .w32 => 32 | .w16 => 16 | .w8 => 8 | .w4 => 4

/-- `old` with element `i` of width `e` replaced by the low bits of `v` (R36). -/
def insertElt (e : EltW) (i : BitVec 3) (old v : Word) : Word :=
  let m : Word := (BitVec.ofNat 32 (2 ^ eltBits e - 1)) <<< (eltBits e * i.toNat)
  (old &&& ~~~m) ||| ((v <<< (eltBits e * i.toNat)) &&& m)

/-- Lanes `m` of element `(e, i)` of register `r` written; the register is GEN (R36, R60). -/
def Wave.writeElt (wv : Wave) (r : Nat) (e : EltW) (i : BitVec 3) (m : Mask) (val : Lanes (BitVec 128))
    (p : Lanes Poison) : Wave :=
  let o := wv.reg r
  wv.setReg r
    { o with val := perLane fun L => if m.has L then insertElt e i o.val[L] (wordOf val[L] 0) else o.val[L]
             poison := choose m p o.poison
             tag := .gen }

/-- One lane of `n` registers from `r` written through an index register; each is GEN (R60). -/
def Wave.writeLane (wv : Wave) (r : Nat) (L : Lane) (v : BitVec 128) (p : Poison) : Nat → Wave
  | 0 => wv
  | n + 1 =>
    let w := Wave.writeLane wv r L v p n
    let o := w.reg (r + n)
    w.setReg (r + n)
      { o with val := o.val.set L (wordOf v n), poison := o.poison.set L p, tag := .gen,
               bad := o.bad &&& ~~~Mask.one L, mirrorBad := o.mirrorBad &&& ~~~Mask.one L }

/-- A destination written in lanes `m`; through an index register in ascending lane order (R149). With no lane to write,
nothing is written and the tag stays (R60). -/
def Wave.writeD (wv : Wave) (d : RDst) (m : Mask) (val : Lanes (BitVec 128)) (p : Lanes Poison) (tag : Tag) : Wave :=
  if m = 0 then wv
  else if d.ind then
    (Mask.lanes m).foldl (fun w L => w.writeLane d.er[L].toNat L val[L] p[L] d.n) wv
  else match d.elt with
    | some (e, i) => wv.writeElt d.er[(0 : Lane)].toNat e i m val p
    | none => wv.writeWhole d.er[(0 : Lane)].toNat m val p tag d.n

/-- The registers of a direct destination, in every one of which `f` is done. -/
def Wave.onRegs (wv : Wave) (r : Nat) (f : VReg → VReg) : Nat → Wave
  | 0 => wv
  | n + 1 => let w := Wave.onRegs wv r f n; w.setReg (r + n) (f (w.reg (r + n)))

/-- The destination marked empty or full; an indirect one changes no mark (R62, R151). -/
def Wave.markD (wv : Wave) (d : RDst) (full : Bool) : Wave :=
  if d.ind ∨ d.n = 0 then wv else wv.onRegs d.er[(0 : Lane)].toNat (fun v => { v with full := full }) d.n

/-! ## Predicates, flags -/

/-- Predicate `p`; PT is one in every lane (R66). -/
def Wave.pred (wv : Wave) (p : PNum) : Mask := if p = 7 then fullMask else (wv.preds[p.toNat]?).getD 0

/-- Lanes `m` of predicate `p` written; a write to PT is discarded (R66). -/
def Wave.setPred (wv : Wave) (p : PNum) (m v : Mask) : Wave :=
  { wv with preds := wv.preds.setIfInBounds p.toNat ((wv.pred p &&& ~~~m) ||| (v &&& m)) }

/-- Sticky flags set, lane by lane (R69). -/
def Wave.raiseFlags (wv : Wave) (f : Lanes (BitVec 8)) : Wave :=
  { wv with fstat := perLane fun L => wv.fstat[L] ||| f[L].setWidth 32 }

/-- XDEAD of lane 0 set (R231). -/
def Wave.setXdead (wv : Wave) (b : Bool) : Wave :=
  if b then { wv with fstat := wv.fstat.set 0 (wv.fstat[(0 : Lane)] ||| 0x80) } else wv

/-! ## Index registers (R142 to R148) -/

/-- Mode RING (R142). -/
def XReg.ring (x : XReg) : Bool := x.desc.extractLsb' 21 2 == 1
/-- The window's length (R142). -/
def XReg.bound (x : XReg) : Nat := (x.desc.extractLsb' 8 9).toNat
/-- The window's first register (R142). -/
def XReg.base (x : XReg) : Nat := (x.desc.extractLsb' 0 8).toNat
/-- The signed step (R142). -/
def XReg.step (x : XReg) : Int := (x.desc.extractLsb' 17 4).toInt

/-- Reduce (R145). -/
def XReg.reduce (x : XReg) (v : Int) : Nat := (v % (if x.ring then (x.bound : Int) else 256)).toNat

/-- Index register `n`. -/
def Wave.xreg (wv : Wave) (n : XNum) : XReg := wv.xregs[n.toNat]'(by have := n.isLt; omega)

/-- EffReg (R145): the effective register of an operand of `n` registers in lane `L`, and whether it is a bound fault. -/
def Wave.effReg (wv : Wave) (xn : XNum) (ofs : BitVec 5) (st : StepMode) (n : Nat) (L : Lane) : Int × Bool :=
  let x := wv.xreg xn
  let i0 : Nat := x.idx[L].toNat
  let i : Int := match st with
    | .pre => x.reduce ((i0 : Int) - x.step)
    | .none | .post => i0
  let u : Int := if x.ring then (i + ofs.toInt) % (x.bound : Int) else i + ofs.toInt
  let e : Int := x.base + u
  (e, decide (u < 0 ∨ u + n > x.bound ∨ e % n ≠ 0))

/-- The step that one class 01 field asks of its index register (R148). -/
def stepDelta (st : StepMode) (step : Int) : Int :=
  match st with
  | .none => 0 | .post => step | .pre => -step

/-- The indexes of `xn` in lanes `m` moved by `d` from their present values (R148). -/
def Wave.stepIndex (wv : Wave) (xn : XNum) (d : Int) (m : Mask) : Wave :=
  let x := wv.xreg xn
  let idx := perLane fun L =>
    if m.has L then BitVec.ofNat 8 (x.reduce ((x.idx[L].toNat : Int) + d)) else x.idx[L]
  { wv with xregs := wv.xregs.setIfInBounds xn.toNat { x with idx := idx } }

/-! ## Death (R74) -/

/-- One lane's death recorded in DEATH, LIVE and DEAD (R69, R74). -/
def Wave.die (wv : Wave) (L : Lane) (c : Cause) : Wave :=
  if wv.live.has L then
    let count := wv.death.extractLsb' 16 6 + 1
    let rest : Word := if wv.death.getLsbD 15 then (wv.death &&& 0x3FF) ||| (wv.death &&& 0x3E00) ||| 0xC000
      else 0x8000 ||| (BitVec.ofNat 32 L.val <<< 9) ||| c.setWidth 32
    { wv with live := wv.live &&& ~~~Mask.one L, dead := wv.dead ||| Mask.one L,
              death := (count.setWidth 32 <<< 16) ||| rest }
  else wv

/-- Lanes die in ascending order (R74). -/
def Wave.dieAll (wv : Wave) (m : Mask) (c : Nat → Cause) : Wave :=
  (Mask.lanes m).foldl (fun w L => w.die L (c L.val)) wv

/-- Dead or killed lanes leave replay entries; an entry left empty goes (R280, R287). -/
def pruneEntries (m : Mask) (l : List RQEntry) : List RQEntry :=
  (l.map (fun e => { e with remain := e.remain &&& ~~~m })).filter (fun e => e.remain != 0)

/-- Lanes that have just died or exited leave every split, saved split and replay entry (R212, R287). -/
def Wave.clearLanes (wv : Wave) (m : Mask) (chk : Bool) : Wave × List Mismatch :=
  let t := wv.table.removeLanes m wv.gone chk
  ({ wv with table := t.1, rq := pruneEntries m wv.rq, reinj := pruneEntries m wv.reinj,
             saved := wv.saved.map (fun f => { f with table := f.table.dropSaved m, rq := pruneEntries m f.rq,
                                                      killed := f.killed ||| m }) },
   t.2)

/-! ## Capture (R279, R282) -/

/-- Whether lanes of flight `id`'s instruction have met a translation fault: its destination stays empty (R349). -/
def Wave.faultsOf (wv : Wave) (id : Nat) : Bool := decide ((wv.faulting.bind (·.flight)) = some id)

/-- Values of a flight written to lanes `m` of its destination, which is full again when no lane is left; a CAS writes
only the low half of its registers (R62, R194). -/
def Wave.deliver (wv : Wave) (f : Flight) (m : Mask) : Wave :=
  let m := m &&& f.entry.remain
  let live := m &&& wv.live
  let w := wv.writeD (if f.pred.isSome then { f.dst with n := f.dst.n / 2 } else f.dst) live f.val f.poison (if f.uni then .uni else .gen)
  let w := if f.entry.remain &&& ~~~m = 0 ∧ w.faultsOf f.id = false then w.markD f.dst true else w
  let w := if (Mask.lanes live).any (fun L => decide (f.poison[L] = .err)) then { w with errSrc := f.errSrc } else w
  match f.pred with
  | none => w
  | some (p, v) => w.setPred p live v

/-- The flight without lanes `m`, or nothing when none is left. -/
def Flight.without (f : Flight) (m : Mask) : Option Flight :=
  if f.entry.remain &&& ~~~m = 0 then none
  else some { f with entry := { f.entry with remain := f.entry.remain &&& ~~~m } }

/-- Whether a trap entry, a stop or a park must wait: another split of the wave issues in the same cycle (R277), an atomic's lanes
that have been sent have no result yet (R279, R393), or the flight `own` of the raising instruction still has lanes to complete
(R276, R349). A cause that has ended a flight's wait ends this one (R380, R424). -/
def Wave.awaits (wv : Wave) (own : Option Nat) : Bool :=
  wv.pair || wv.flights.any (fun f => decide (f.entry.cause = 0)
    && (decide (f.entry.kind = 3 ∧ f.entry.remain &&& ~~~f.known ≠ 0) || own == some f.id))

/-- Every value that has come written to its lanes (R395, R398). -/
def Wave.landKnown (wv : Wave) : Wave :=
  let fs := wv.flights.filter (fun f => f.entry.kind != 5)
  { fs.foldl (fun w f => w.deliver f f.known) wv with
    flights := wv.flights.flatMap (fun f => if f.entry.kind = 5 then [f] else (f.without f.known).toList) }

/-- The destinations of entries marked full: while the trap level is 1 or 2 they read so (R282), and re-injection finds them
free. -/
def Wave.fillAll (wv : Wave) (es : List RQEntry) : Wave := es.foldl (fun w e => w.markD e.dst true) wv

/-- The wave's unfinished work captured, in issue order (R276, R279): flights, the entry of an instruction whose lanes have
met a translation fault, the instruction's own entry, and entries still to be re-injected. The results of atomic lanes already
sent, which have come, are written; those that a boundary will bring (R395) are awaited on. -/
def Wave.capture (wv : Wave) (own : Option RQEntry) : Wave × List RQEntry :=
  let step (a : Wave × List RQEntry × List Flight) (f : Flight) : Wave × List RQEntry × List Flight :=
    if f.entry.kind = 3 ∧ f.entry.cause = 0 then (a.1.deliver f f.known, a.2.1, a.2.2 ++ (f.without f.known).toList)
    else (a.1, a.2.1 ++ [f.entry], a.2.2)
  let r := wv.flights.foldl step (wv, [], [])
  ({ r.1 with flights := r.2.2, reinj := [], faulting := none },
    pruneEntries wv.gone (r.2.1 ++ (wv.faulting.bind (·.entry)).toList ++ own.toList ++ wv.reinj))

end Sys2Proof.Machine
end

