-- ==== Sys2Proof/Machine/Ops.lean ====
section
/-! DEFINITION. Shared operations over the whole state: access to waves, groups, launches and cores; homes, piers with their
span-scope writes, drains (R301, R302, R323, R332, R371); retirement, lane death, abort (R74, R176, R287, R288); taking a trap and
returning from one (R225, R276 to R285). -/

namespace Sys2Proof.Machine

/-! ## Access -/

/-- Wave `w` changed. -/
def State.withWave (s : State) (w : Nat) (f : Wave → Wave) : State := { s with waves := s.waves.modify w f }
/-- Group `g` changed. -/
def State.withGroup (s : State) (g : Nat) (f : Group → Group) : State := { s with groups := s.groups.modify g f }
/-- Launch `l` changed. -/
def State.withLaunch (s : State) (l : Nat) (f : Launch → Launch) : State := { s with launches := s.launches.modify l f }
/-- Core `k`, numbered die * 64 + COREID. -/
def State.coreAt (s : State) (k : Nat) : Core := (lookupN k s.cores).getD Core.idle
/-- Core `k` changed. -/
def State.withCore (s : State) (k : Nat) (f : Core → Core) : State :=
  { s with cores := insertN k (f (s.coreAt k)) s.cores }
/-- The wave's launch. -/
def State.launchOf (s : State) (wv : Wave) : Option Launch := s.launches[wv.launch]?
/-- The wave's group instance. -/
def State.groupOf (s : State) (wv : Wave) : Option Group := s.groups[wv.group]?
/-- Whether the wave belongs to a deterministic tree (R390). -/
def State.det (s : State) (wv : Wave) : Bool := ((s.launchOf wv).bind (·.tree)).isSome
/-- Whether block-signature checking is enabled for the wave (R214). -/
def State.checking (s : State) (wv : Wave) : Bool := ((s.launchOf wv).map (·.record.sig)).getD false
/-- The core of a resident wave; core 0 for a wave that is not resident. -/
def Wave.coreNo (wv : Wave) : Nat := (wv.place.map (·.core)).getD 0
/-- The die of a wave. -/
def Wave.die' (wv : Wave) : Nat := wv.coreNo / 64
/-- Split at slot `k` changed. -/
def Wave.withSplit (wv : Wave) (k : Nat) (f : Split → Split) : Wave :=
  { wv with table := wv.table.setSplit k ((wv.table.split? k).map f) }
/-- The ticks of the 60 seconds whose events a loss of power may undo (R68, R415). -/
def recentTicks : Int := 120000000000

/-- A count of the lifetime counters raised; the counters saturate (R415). -/
def State.count (s : State) (i : Nat) (n : Nat := 1) : State :=
  let old := ((lookupN i s.mgmt.counters).getD 0).toNat
  let new := min (old + n) (2 ^ 64 - 1)
  let now : Int := s.clock.toNat
  { s with mgmt := { s.mgmt with
      counters := insertN i (BitVec.ofNat 64 new) s.mgmt.counters
      recent := (now, i, new - old) :: s.mgmt.recent.filter (fun x => decide (now - x.1 ≤ recentTicks)) } }

/-! ## Piers -/

/-- The span instance that holds a core (R296). -/
def State.instanceOf (s : State) (core : Nat) : Option Span :=
  ((s.dies[core / 64]?).getD Die.reset).spans.find? (fun sp => sp.members.contains (core % 64))

/-- The span instance that holds a core changed. -/
def State.withInstance (s : State) (core : Nat) (f : Span → Span) : State :=
  s.withDie (core / 64) (fun d => { d with spans := d.spans.map (fun sp =>
    if sp.members.contains (core % 64) then f sp else sp) })

/-- The span-scope writes that an agent observes: those held at the pier of its core's instance, none for an agent outside
the dies (R302, R323). -/
def State.pier (s : State) : Option Nat → Overlay
  | none => []
  | some core => ((s.instanceOf core).map (·.dirty)).getD []

/-- `n` bytes of memory from a key, as an agent observes them. -/
def State.seen (s : State) (who : Option Nat) (key n : Nat) : List Byte := (s.pier who).bytes s.mem key n

/-- The 32-bit words, as key / 4, that `n` bytes from a key touch. -/
def wordsOf (key n : Nat) : List Nat := (List.range ((key + n + 3) / 4 - key / 4)).map (· + key / 4)

/-- Whether a byte range holds an uncorrectable word that no span-scope write hides (R190). -/
def State.seenBad (s : State) (who : Option Nat) (key n : Nat) : Bool :=
  let o := s.pier who
  (wordsOf key n).any (fun w => s.memBad.contains w && !(List.range 4).all (fun i => (lookupN (4 * w + i) o).isSome))

/-- The KIND and physical address of a key. -/
def keyKind (key : Nat) : BitVec 4 := BitVec.ofNat 4 (key / 2 ^ 52)

/-- Whether the device behind a key answers (R371). -/
def State.keyUp (s : State) (key : Nat) : Bool := s.reachable (keyKind key) (key % 2 ^ 52)

/-! ## Plain stores that reach the home (R189) -/

/-- The bytes of a lane of a flight's global access, by memory key, or none where the lane reached another space. -/
def Flight.keyOf (f : Flight) (L : Lane) : Option Nat := lookupN L.val f.keys

/-- A flight whose plain loads overlap bytes that plain stores bring to the home: `by'` names the store of each, by key, as one
more than its wave, and 0 for a copy operation, which races with the loads of every wave. A byte that the load took from a pier is
older than what reaches the home later (R323). -/
def Flight.meet (f : Flight) (w : Nat) (by' : List (Nat × Nat)) : Flight :=
  if f.racy = 0 ∨ by' = [] then f
  else { f with raced := f.raced ||| (f.racy &&& maskOf fun L => match f.keyOf L with
    | some k => by'.any (fun b => b.2 != w + 1 && decide (k ≤ b.1 ∧ b.1 < k + f.width) && !f.held.contains b.1)
    | none => false) }

/-- Plain stores reach the home while loads of other waves are under way: a load whose bytes they overlap may return RACE. -/
def State.raceLoads (s : State) (by' : List (Nat × Nat)) : State :=
  if by' = [] then s
  else { s with waves := s.waves.mapIdx (fun w wv => { wv with flights := wv.flights.map (Flight.meet · w by') }) }

/-- Whether a key lies outside `n` bytes from another. -/
def outside (key n k : Nat) : Bool := !decide (key ≤ k ∧ k < key + n)

/-- A store that a pier takes ends what loads in flight have taken there of its bytes: they can race with it from now on. -/
def State.unhold (s : State) (key n : Nat) : State :=
  { s with waves := s.waves.map (fun wv => { wv with flights := wv.flights.map (fun f =>
      { f with held := f.held.filter (outside key n) }) }) }

/-! ## Writes at the home -/

/-- What CCTL has written back of bytes that are written anew is overwritten in memory (R334). -/
def State.overwrite (s : State) (key n : Nat) : State :=
  { s with dies := s.dies.map (fun d => { d with spans := d.spans.map (fun sp =>
      if sp.back.isEmpty then sp else { sp with back := sp.back.filter (outside key n) }) }) }

/-- The byte that CCTL has written back of a pier at a key, if any (R334). -/
def State.backByte (s : State) (key : Nat) : Option Byte :=
  (s.dies.toList.flatMap (·.spans)).findSome? (fun sp => if sp.back.contains key then lookupN key sp.dirty else none)

/-- The memory itself: what CCTL has written back stands in it (R334). -/
def State.settledMem (s : State) : Mem :=
  ((s.dies.toList.flatMap (·.spans)).flatMap (·.back)).foldl (fun m k => match s.backByte k with
    | some b => m.write k b
    | none => m) s.mem

/-- Bytes written at the home in one 4 KiB page; words written whole are no longer uncorrectable. A store to an unreachable device
is dropped (R371). -/
def State.writePage (s : State) (key : Nat) (bs : List Byte) : State :=
  if s.keyUp key then
    { s.overwrite key bs.length with
             mem := s.mem.store key bs
             memBad := s.memBad.filter (fun w => !decide (key ≤ 4 * w ∧ 4 * w + 4 ≤ key + bs.length)) }
  else s

/-- The parts of bytes from a key in each 4 KiB page, which is of one stack or site (R370). -/
def pagesOf (key : Nat) (bs : List Byte) : List (Nat × List Byte) :=
  (List.range ((key + bs.length - 1) / 4096 + 1 - key / 4096)).map (fun i =>
    let lo := max key ((key / 4096 + i) * 4096)
    let hi := min (key + bs.length) ((key / 4096 + i + 1) * 4096)
    (lo, (bs.drop (lo - key)).take (hi - lo)))

/-- Bytes written at the home; what falls to an unreachable device is dropped and the store is counted (R371). -/
def State.writeHome (s : State) (key : Nat) (bs : List Byte) : State :=
  let ps := pagesOf key bs
  let s' := ps.foldl (fun s p => s.writePage p.1 p.2) s
  if ps.all (fun p => s.keyUp p.1) then s' else s'.count 0x0224

/-- The words of `n` bytes at the home take an uncorrectable code (R190, R247). -/
def State.spoilHome (s : State) (key n : Nat) : State :=
  if s.keyUp key then { s with memBad := (wordsOf key n).foldl (fun l w => insertSet w l) s.memBad } else s

/-- Bytes written to listed addresses of a memory with a check code per word (R190, R247): a word that takes a byte marked
uncorrectable takes that code, and a word written whole without one is correct. -/
def markedWrite (m : Mem) (bad : List Nat) (at' : List Nat) (bs : List (Byte × Bool)) : Mem × List Nat :=
  let x := at'.zip bs
  ((x.foldl (fun m y => m.write y.1 y.2.1) m),
   (x.filter (fun y => y.2.2)).foldl (fun l y => insertSet (y.1 / 4) l)
     (bad.filter (fun w => !(List.range 4).all (fun i => at'.contains (4 * w + i)))))

/-- Bytes with one mark. -/
def marked (bad : Bool) (bs : List Byte) : List (Byte × Bool) := bs.map (fun b => (b, bad))

/-- Dirty bytes written back to their homes (R301). -/
def State.flush (s : State) (o : Overlay) : State :=
  let up := o.filter (fun c => s.keyUp c.1)
  let s' := { s with mem := Overlay.flush up s.mem
                     memBad := s.memBad.filter (fun w => !(List.range 4).all (fun i => (lookupN (4 * w + i) up).isSome)) }
  if up.length = o.length then s' else s'.count 0x0224

/-- A drain of the pier of a core's instance (R302). -/
def State.drainAt (s : State) (core : Nat) : State :=
  let by' := ((s.instanceOf core).map (·.plain)).getD []
  ((s.flush (s.pier (some core))).raceLoads by').withInstance core (fun sp =>
    { sp with dirty := [], wrote := [], plain := [], back := [], fenced := [], rel := [] })

/-- The end of a launch drains every pier that holds lines it wrote (R302). -/
def State.drainLaunch (s : State) (l : Nat) : State :=
  (List.range 4).foldl (fun s d =>
    (((s.dies[d]?).getD Die.reset).spans).foldl (fun s sp =>
      if sp.wrote.contains l then
        match sp.members with
        | c :: _ => s.drainAt (d * 64 + c)
        | [] => s
      else s) s) s

/-! ## Barriers and the baton (R256, R271) -/

/-- The flip check (R271). -/
def Barrier.settle (b : Barrier) : Barrier :=
  if b.mem ≠ 0 ∧ b.mem &&& ~~~b.arr = 0 then { b with arr := 0, phase := !b.phase, flips := b.flips + 1 } else b

/-- Wave `w` of a group leaves a barrier, as BARDROP makes it (R273, R274); inside a tree the flip waits for the boundary
(R397). -/
def Barrier.drop (b : Barrier) (w : BitVec 4) (det : Bool) : Barrier :=
  let m : BitVec 16 := ~~~(1#16 <<< w.toNat)
  let b := { b with mem := b.mem &&& m, arr := b.arr &&& m }
  if det then b else b.settle

/-- The waiter of lowest LWAVE, which is the lowest WAVEID (R252, R356). -/
def Baton.next (b : Baton) : Option (BitVec 4) :=
  ((List.range 16).find? (fun i => b.waiting.getLsbD i)).map (BitVec.ofNat 4)

/-- The baton given to wave `n`, or in transit to it inside a tree (R253, R397). -/
def Baton.give (b : Baton) (n : BitVec 4) (det : Bool) : Baton :=
  if det then { b with holder := none, transit := some n }
  else { b with holder := some n, waiting := b.waiting &&& ~~~(1#16 <<< n.toNat) }

/-- The baton given to the next waiter, or left free (R253). -/
def Baton.giveNext (b : Baton) (det : Bool) : Baton :=
  match b.next with
  | some n => b.give n det
  | none => { b with holder := none, transit := none }

/-- Wave `w` stops waiting for the baton (R256). -/
def Baton.unwait (b : Baton) (w : BitVec 4) : Baton := { b with waiting := b.waiting &&& ~~~(1#16 <<< w.toNat) }

/-- Wave `w` holds the baton no more: it retires or joins (R256). -/
def Baton.leave (b : Baton) (w : BitVec 4) (det : Bool) : Baton :=
  let b := b.unwait w
  if b.holder = some w ∨ b.transit = some w then Baton.giveNext { b with transit := none } det else b

/-! ## Accesses not performed yet (R314, R380, R421) -/

/-- The wave that an answer is for. -/
def ReqFor.wave : ReqFor → Option Nat
  | .flight w _ _ | .store w _ _ _ => some w
  | .copyRead _ _ | .copyWrite _ | .matrix _ _ | .entry _ _ _ | .agent _ => none

/-- Whether the wave has an access outstanding at another package or at a keystone (R380, R421). -/
def State.remoteBusy (s : State) (w : Nat) : Bool :=
  s.via.streams.any (fun st => st.2.reqs.any (fun r => decide (r.who.wave = some w)))
    || s.keys.accs.any (fun a => decide (a.wave = w) && decide (a.phase ≠ .done))

/-- Whether an earlier access of the wave to global memory is not performed yet: one that another package or a keystone has to
answer, or a plain load whose value is not written (R314, R421). -/
def State.accessOpen (s : State) (w : Nat) : Bool :=
  s.remoteBusy w || ((s.waves[w]?).map (fun wv => wv.flights.any (fun f =>
    decide (f.entry.cause = 0 ∧ f.racy &&& f.entry.remain ≠ 0)))).getD false

/-- The same where the order of the wave's accesses holds at once; inside a tree every edge falls at a boundary (R395). -/
def State.edgeOpen (s : State) (w : Nat) : Bool := s.accessOpen w && !((s.waves[w]?).map s.det).getD false

/-! ## Allocation generations (R177) -/

/-- The granule that holds a register of the wave, and its generation. -/
def State.markOf (s : State) (w core r : Nat) : Option (Nat × Nat × BitVec 16) :=
  (((s.coreAt core).granules.filter (fun g => decide (g.2.owner = some (.wave w))))[r / 128]?).map (fun g => (core, g.1, g.2.gen))

/-- The allocation generation of the granule that holds a register of the wave (R177). -/
def State.genOf (s : State) (w : Nat) (core r : Nat) : BitVec 16 := ((s.markOf w core r).map (·.2.2)).getD 0

/-- Whether an answer that is still to come carries a generation of a granule. -/
def State.carried (s : State) (m : Nat × Nat × BitVec 16) : Bool :=
  s.via.streams.any (fun st => st.2.reqs.any (fun r => r.mark == some m))
    || s.keys.accs.any (fun a => a.phase != .done && a.mark == some m)

/-- The granule and the generation of the destination of a wave's flight. -/
def State.flightMark (s : State) (w id : Nat) : Option (Nat × Nat × BitVec 16) :=
  (s.waves[w]?).bind (fun wv => (wv.flights.find? (fun f => f.id == id)).bind (fun f =>
    s.markOf w wv.coreNo f.dst.er[(0 : Lane)].toNat))

/-- The core of a wave, or that its group holds or was saved from. -/
def State.homeCore (s : State) (w : Nat) : Nat :=
  match s.waves[w]? with
  | none => 0
  | some wv => match wv.place with
    | some p => p.core
    | none => ((s.groups[wv.group]?).map (fun g => (g.core.or (g.record.map (·.core))).getD 0)).getD 0

/-! ## Stages and group resources (R176, R360, R365) -/

/-- A new group instance. -/
def Group.fresh (launch gl stage : Nat) : Group :=
  { launch := launch, gl := gl, stage := stage, life := .eligible, core := none, placed := 0, waves := [], scr := [], acc := [],
    tileFile := false,
    barriers := Vector.ofFn fun _ => ⟨0, 0, false, 0⟩, baton := ⟨none, 0, none⟩, tc := Vector.replicate 16 0, sdone := 0,
    record := none, engine := [] }

/-- Whether every wave of the group has executed SDONE or retired (R360). -/
def State.stageDone (s : State) (g : Group) : Bool :=
  !g.waves.isEmpty && g.waves.all (fun w => match s.waves[w]? with
    | some wv => decide (wv.life = .retired) || g.sdone.getLsbD wv.waveid.toNat
    | none => false)

/-- The core that holds a group, or that it was saved from. -/
def Group.lastCore (g : Group) : Nat := (g.core.or (g.record.map (·.core))).getD 0

/-- The next stage's instance becomes eligible when this one's waves are done (R360); their accesses happen before its own
(R317), so it waits until they are performed, and the pier drains. -/
def State.settleStage (s : State) (gi : Nat) : State :=
  match s.groups[gi]? with
  | none => s
  | some g =>
    match s.launches[g.launch]? with
    | none => s
    | some l =>
      if s.stageDone g && !g.waves.any s.accessOpen && decide (g.stage + 1 < l.record.stages)
          && !s.groups.any (fun h => h.launch == g.launch && h.gl == g.gl && h.stage == g.stage + 1) then
        let s := s.drainAt g.lastCore
        { s with groups := s.groups ++ [Group.fresh g.launch g.gl (g.stage + 1)] }
      else s

/-- Whether an engine operation of the group is unfinished (R176). -/
def State.engineBusy (s : State) (gi : Nat) : Bool :=
  match s.groups[gi]? with
  | none => false
  | some g =>
    (match g.core with | some k => (s.coreAt k).mq.any (fun e => e.group == gi) | none => false)
      || s.copies.any (fun c => !c.done && g.waves.contains c.wave)

/-- The granules of an owner return to the core. -/
def Core.release (c : Core) (o : Owner) : Core :=
  { c with granules := c.granules.map (fun x => if x.2.owner = some o then (x.1, { x.2 with owner := none }) else x) }

/-- The group's resources return when its last wave has retired and every engine operation has completed (R176). -/
def State.settleGroup (s : State) (gi : Nat) : State :=
  match s.groups[gi]? with
  | none => s
  | some g =>
    if g.life = .placed ∧ g.waves.all (fun w => match s.waves[w]? with
          | some wv => decide (wv.life = .retired) | none => true) ∧ s.engineBusy gi = false then
      let s := s.withGroup gi (fun g => { g with life := .done, scr := [], acc := [], tileFile := false, core := none })
      match g.core with
      | some k => s.withCore k (fun c => c.release (.group gi))
      | none => s
    else s

/-! ## Retirement (R176) -/

/-- A launch and its ancestors, nearest first. -/
def State.ancestors (s : State) : Nat → Nat → List Nat
  | 0, _ => []
  | fuel + 1, l => l :: (match (s.launches[l]?).bind (·.parent) with
    | some w => match s.waves[w]? with
      | some wv => State.ancestors s fuel wv.launch
      | none => []
    | none => [])

/-- What a retired wave's deaths add to its launch and to the ancestors (R358). -/
def State.noteDeaths (s : State) (wv : Wave) : State :=
  let valid := wv.death.getLsbD 15
  let s := s.withLaunch wv.launch (fun l =>
    if valid then
      let lower := l.ndead == 0 || decide (wv.lwave.toNat < l.firstLw.toNat)
      { l with ndead := l.ndead + 1, firstLw := if lower then wv.lwave else l.firstLw,
               firstDeath := if lower then wv.death else l.firstDeath }
    else l)
  (s.ancestors 6 wv.launch).foldl (fun s l => s.withLaunch l (fun l =>
    { l with death := l.death || valid, abort := l.abort || wv.aborted })) s

/-- Every freeze that the wave holds is released (R305). -/
def State.releaseFreezes (s : State) (w : Nat) : State :=
  { s with dies := s.dies.map (fun d =>
      let mine := d.freezes.filter (fun f => f.1 == w)
      { d with freezes := d.freezes.filter (fun f => f.1 != w),
               spans := d.spans.map (fun sp =>
                 { sp with freeze := sp.freeze - ((mine.filter (fun f => f.2.1 == sp.epoch)).map (·.2.2)).sum }) }) }

/-- A wave as its unfinished work is captured: in a tree the values that the last boundary fixed are written first, so that no
response's timing shows (R395, R398). -/
def State.landed (s : State) (wv : Wave) : Wave := if s.det wv then wv.landKnown else wv

/-- The wave leaves its core: register granules, tarn blocks and slot return (R176, R292, R363). -/
def State.vacate (s : State) (w : Nat) : State :=
  match (s.waves[w]?).bind (·.place) with
  | none => s
  | some p =>
    let s := s.withCore p.core (fun c =>
      { c.release (.wave w) with
        tarn := c.tarn.filter (fun t => t.2 != w)
        quads := c.quads.map (fun q => if q.det = some w then { q with det := none } else q) })
    s.withWave w (fun wv => { wv with place := none })

/-- A wave that has retired leaves its group's barriers and the baton (R256, R274): outside a tree once its accesses are performed,
since both are releases (R254, R317). -/
def State.depart (s : State) (w : Nat) : State :=
  match s.waves[w]? with
  | none => s
  | some wv =>
    if !wv.leaving || s.edgeOpen w then s
    else
      let det := s.det wv
      let s := (s.withWave w (fun wv => { wv with leaving := false })).withGroup wv.group (fun g => { g with
        barriers := g.barriers.map (fun b => b.drop wv.waveid det)
        baton := g.baton.leave wv.waveid det })
      if det then s else s.settleStage wv.group

/-- The wave retires (R176, R256, R274, R305, R360). -/
def State.retire (s : State) (w : Nat) : State :=
  match s.waves[w]? with
  | none => s
  | some wv =>
    if wv.life = .retired then s else
    let s := (s.noteDeaths wv).vacate w
    let s := s.withWave w (fun wv => { wv with
      life := .retired, flights := [], rq := [], reinj := [], saved := [], pending := [], parked := none,
      faulting := none, level := 0, table := SplitTable.empty, stopped := none, entering := [], stopping := none
      qended := true, leaving := true })
    ((s.releaseFreezes w).depart w).settleGroup wv.group

/-! ## Lane death (R74, R212, R287) -/

/-- Whether some split or entry of the wave waits for the baton. -/
def Wave.waitsBaton (wv : Wave) : Bool :=
  let es := wv.rq ++ wv.reinj ++ wv.flights.map (·.entry) ++ (wv.saved.map (·.rq)).flatten
  es.any (fun e => decide (e.wait = some .baton))
    || (List.range 20).any (fun k => match wv.table.split? k with
        | some sp => decide (sp.wait = some .baton) | none => false)

/-- The table without the waits that kind 5 entries hold (R279). -/
def SplitTable.clearWaits (t : SplitTable) (es : List RQEntry) : SplitTable :=
  { t with slots := t.slots.mapIdx (fun i o => o.map (fun sp =>
      if es.any (fun e => e.kind == 5 && e.slot == i) then { sp with wait := none } else sp)) }

/-- Lanes that have just left LIVE are taken out of splits, records and entries; the wave retires when none is live. -/
def State.clearLanes (s : State) (w : Nat) (m : Mask) : State × List Mismatch :=
  match s.waves[w]? with
  | none => (s, [])
  | some wv =>
    let r := wv.clearLanes m (s.checking wv)
    let waits := r.1.flights.filter (fun f => f.entry.kind == 5)
    let above := waits.filter (fun f => f.entry.remain &&& ~~~m == 0)
    let fl := r.1.flights.filterMap (fun f => if f.entry.kind = 5 then f.without m else some f)
    -- a split whose wait has ended without going on arrives if it stands at its reconvergence PC
    let a := (r.1.table.clearWaits (above.map (·.entry))).arriveAt (above.map (·.entry.slot)) r.1.gone (s.checking wv)
    let wv' := { r.1 with flights := fl, table := a.1 }
    let s := s.withWave w (fun _ => wv')
    let s := if wv'.waitsBaton then s else s.withGroup wv.group (fun g => { g with baton := g.baton.unwait wv.waveid })
    if wv'.live = 0 then (s.retire w, []) else (s, r.2 ++ a.2)

/-- The records of a saved table whose last awaited lane has left since the last of them was noted. -/
def Saved.emptied (f : Saved) : List Nat :=
  (List.range 20).filter (fun k => (lookupN k f.killer).isNone && (match f.table.rec? k with
    | some r => r.pend == 0
    | none => false))

/-- The words of the instruction at which lanes `m` have left, kept with the records of saved tables that awaited no other lane
(R287, R426). -/
def State.noteKiller (s : State) (w : Nat) (m : Mask) (w0 w1 w2 : Word) : State :=
  if m = 0 then s
  else s.withWave w (fun wv => { wv with saved := wv.saved.map (fun f =>
    { f with killer := f.killer ++ f.emptied.map (fun k => (k, w0, w1, w2)) }) })

/-- Live lanes `m` of a wave die as `f` records it; they are counted (R415), and leave the wave's splits and entries. -/
def State.strike (s : State) (w : Nat) (m : Mask) (f : Wave → Wave) : State × List Mismatch :=
  ((s.withWave w f).count 0x0220 m.count).clearLanes w m

/-- Lanes of a wave die, in ascending order, each with its cause (R74). -/
def State.killLanes (s : State) (w : Nat) (m : Mask) (c : Nat → Cause) : State × List Mismatch :=
  match s.waves[w]? with
  | none => (s, [])
  | some wv =>
    let m := m &&& wv.live
    if m = 0 then (s, []) else s.strike w m (fun wv => wv.dieAll m c)

/-- TCAUSE (R69). -/
def tcauseWord (level lane : Nat) (c : Cause) : Word :=
  (BitVec.ofNat 32 level <<< 14) ||| (BitVec.ofNat 32 (lane % 32) <<< 9) ||| c.setWidth 32

/-- The wave aborts (R288): every live lane dies with the cause and the wave retires. `frame` is the detail word of a cause of
delivery X, 0x1E4 to 0x1E7, which sets TCAUSE and TADDR first (R426, R433). -/
def State.abort (s : State) (w : Nat) (c : Cause) (frame : Option Word) : State :=
  match s.waves[w]? with
  | none => s
  | some wv =>
    let s := match frame with
      | none => s
      | some d => s.withWave w (fun wv => { wv with frame := { wv.frame with
          tcause := tcauseWord wv.level (Mask.lowest wv.live).val c, taddr := d } })
    -- the deaths of one abort are one record: MORE stands only for deaths before it (R352, log entry 60)
    let only : Word := if wv.death.getLsbD 15 then 0 else 0x4000
    let s := s.withWave w (fun wv => { wv with aborted := true })
    if wv.live = 0 then s
    else (s.strike w wv.live (fun wv =>
      let d := wv.dieAll wv.live (fun _ => c)
      { d with death := d.death &&& ~~~only })).1

/-! ## Taking a trap (R276, R279, R284) -/

/-- The handler split of a wave (R276). -/
def handlerTable (live : Mask) (pc : Word) : SplitTable :=
  { SplitTable.empty with
    slots := SplitTable.empty.slots.set 0 (some ⟨live, pc, 0xFFFFFFFF, live, 0xFFFF, 0, 31, false, false, none⟩) }

/-- The frame registers that a trap sets (R276). -/
def TrapInfo.frame (t : TrapInfo) (level : Nat) : Frame' :=
  { tcause := tcauseWord level t.lane t.cause, tpc := t.pc, inst0 := t.w0, inst1 := t.w1, inst2 := t.w2, taddr := t.detail }

/-- The trap itself: capture, frame, handler split (R276); the level's replay queue takes the captured entries. -/
def Wave.trap (wv : Wave) (handler : Word) (t : TrapInfo) : Wave :=
  let c := wv.capture t.entry
  let saved : Saved := { table := wv.table.clearWaits c.2, frame := wv.frame, rq := wv.rq, slot := t.slot,
                         resume := t.resume, killed := 0, killer := [], since := wv.since }
  { c.1.fillAll c.2 with
    saved := saved :: wv.saved
    level := wv.level + 1
    rq := c.2
    frame := t.frame (wv.level + 1)
    table := handlerTable wv.live handler
    traps := wv.traps + 1
    since := wv.traps + 1 }

/-- A cause is taken (R276): a trap to the handler, once the results that the entry waits for have come (R279); 0x1E6 at
level 2 (R284); an abort when the record names no handler, whose frame the trap has set (R288, R352). -/
def State.enterTrap (s : State) (w : Nat) (t : TrapInfo) : State :=
  match s.waves[w]? with
  | none => s
  | some wv =>
    if wv.life = .retired then s
    else if wv.level = 2 then s.abort w 0x1E6 (some (t.cause.setWidth 32))
    else match s.launchOf wv with
      | none => s
      | some l =>
        if l.record.handler = 0xFFFFFFFF then
          (s.withWave w (fun wv => { wv with frame := t.frame (wv.level + 1) })).abort w t.cause none
        else if wv.awaits t.flight then s.withWave w (fun wv => { wv with entering := wv.entering ++ [t] })
        else s.withWave w (fun wv => (s.landed wv).trap l.record.handler t)

/-- The live split that stands for "the current instruction" (R426): the lowest slot. -/
def Wave.current (wv : Wave) : Option (Nat × Split) :=
  (List.range 4).findSome? (fun k => (wv.table.split? k).map (fun sp => (k, sp)))

/-- The words of an instruction that cannot be fetched: the manual states none, free values (log entry 9). -/
def State.noWords (s : State) : Word × Word × Word :=
  let w (i : Nat) : Word := BitVec.ofNat 32 (Config.choice s.fresh i)
  (w 0, w 1, w 2)

/-- The words of the instruction at a PC of a wave. -/
def State.instAt (s : State) (wv : Wave) (pc : Word) : Word × Word × Word :=
  match s.launchOf wv with
  | none => s.noWords
  | some l => match s.fetch wv.die' l pc with
    | .words a b c _ => (a, b, c)
    | .offCode | .fault _ _ => s.noWords

/-- The trap that a waiting cause makes (R285, R426). -/
def State.asyncInfo (s : State) (wv : Wave) (p : PendCause) : TrapInfo :=
  let cur := (wv.current).getD (0, ⟨0, 0, 0, 0, 0, 0, 31, false, false, none⟩)
  match p.pc with
  | some pc => ⟨p.cause, p.lane, p.detail, pc, p.w0, p.w1, p.w2, cur.1, none, none, none⟩
  | none =>
    let i := s.instAt wv cur.2.pc
    ⟨p.cause, p.lane, p.detail, cur.2.pc, i.1, i.2.1, i.2.2, cur.1, none, none, none⟩

/-- Whether the wave can take an asynchronous cause now: at level 0 (R285), while it neither parks, enters another trap, stops
nor is off its core; a parked wave enters no handler (R341), and a stop changes no frame (R289). -/
def Wave.takesAsync (wv : Wave) : Bool :=
  decide (wv.level = 0) && wv.faulting.isNone && wv.parked.isNone && wv.entering.isEmpty && wv.stopping.isNone
    && wv.stopped.isNone && decide (wv.life = .resident)

/-- An asynchronous cause (R285): taken at level 0, else pending; a fifth pending cause aborts the wave. -/
def State.raiseAsync (s : State) (w : Nat) (p : PendCause) : State :=
  match s.waves[w]? with
  | none => s
  | some wv =>
    if wv.life = .retired then s
    else if wv.takesAsync then s.enterTrap w (s.asyncInfo wv p)
    else if wv.pending.length ≥ 4 then s.abort w 0x1E7 (some (p.cause.setWidth 32))
    else s.withWave w (fun wv => { wv with pending := wv.pending ++ [p] })

/-- A cause that has waited for a wave at level 0 is taken once the wave can take it. -/
def State.takePending (s : State) (w : Nat) : State :=
  match s.waves[w]? with
  | none => s
  | some wv => match wv.pending with
    | [] => s
    | p :: ps =>
      if wv.takesAsync then (s.withWave w (fun wv => { wv with pending := ps })).enterTrap w (s.asyncInfo wv p) else s

/-- What a trap of another split of the wave leaves of a cause raised in the same cycle (R277): the lanes that it names, as an
entry with the cause, and its split at the instruction that it goes on with. -/
def Wave.yieldTrap (wv : Wave) (t : TrapInfo) : Wave :=
  { wv.withSplit t.slot (fun sp => { sp with pc := t.resume.getD sp.pc }) with reinj := wv.reinj ++ t.entry.toList }

/-- A trap whose entry has awaited results is entered when they have come (R276, R279); causes raised in the same cycle after it
stay as entries (R277). -/
def State.settleTrap (s : State) (w : Nat) : State :=
  match s.waves[w]? with
  | none => s
  | some wv => match wv.entering with
    | [] => s
    | t :: ts =>
      if wv.awaits t.flight then s
      else (s.withWave w (fun wv => ts.foldl Wave.yieldTrap { wv with entering := [] })).enterTrap w t

/-- The wave is to stop for the debugger at its next issue slot (R224, R289). -/
def State.stopWave (s : State) (w : Nat) (tag : Option (BitVec 14)) : State :=
  s.withWave w (fun wv =>
    if wv.life ≠ .resident ∨ wv.stopped.isSome ∨ wv.stopping.isSome then wv else { wv with stopping := some tag })

/-- The work that a stop would capture: what is in flight, and what a park has captured. -/
def Wave.captures (wv : Wave) : Nat := (wv.capture none).2.length

/-- A stop is made when no trap is being entered, no atomic already sent is unanswered and the queue of the level can take the
unfinished work (R278, R279, R289): its unfinished work, or what a park has captured, joins that queue. -/
def State.settleStop (s : State) (w : Nat) : State :=
  match s.waves[w]? with
  | none => s
  | some wv => match wv.stopping with
    | none => s
    | some tag =>
      if !wv.entering.isEmpty || wv.awaits (wv.faulting.bind (·.flight)) || decide (wv.rq.length + wv.captures > 8) then s
      else
        let c := (s.landed wv).capture none
        s.withWave w (fun _ => { c.1.fillAll c.2 with
          rq := wv.rq ++ c.2, table := c.1.table.clearWaits c.2, stopping := none, stopped := some tag
          stopAt := wv.rq.length })

/-- A merge's mask mismatch is a trap of delivery P at the reconvergence PC (R215), with the words of the instruction that
completed the merge. -/
def State.raiseMismatch (s : State) (w : Nat) (mm : List Mismatch) (w0 w1 w2 : Word) : State :=
  match mm, s.waves[w]? with
  | m :: _, some wv =>
    s.enterTrap w ⟨0x1E2, (Mask.lowest m.mask).val, m.mask, m.pc, w0, w1, w2, (wv.table.placeOf m.mask).getD 0,
      some m.pc, none, none⟩
  | _, _ => s

/-! ## Returning from a trap (R225, R283, R285, R287) -/

/-- Class 8 entries without RETRY: their lanes die with the entry's cause, and the entries go (R225, R286). -/
def State.killClass8 (s : State) (w : Nat) (w0 w1 w2 : Word) : State :=
  match s.waves[w]? with
  | none => s
  | some wv =>
    let es := wv.rq.filter (fun e => e.cause.extractLsb' 5 4 == 8)
    let s := es.foldl (fun s e => (s.killLanes w e.remain (fun _ => e.cause)).1.noteKiller w e.remain w0 w1 w2) s
    s.withWave w (fun wv => { wv with rq := wv.rq.filter (fun e => !(e.cause.extractLsb' 5 4 == 8)) })

/-- Whether a replay entry keeps the split of a slot where it stands until it is re-injected: a wait to be resumed, or a LOOP of
which lanes are to be executed again, whose split arrives with their branch (log entry 66). -/
def RQEntry.holds (e : RQEntry) (k : Nat) : Bool :=
  e.slot == k && (e.kind == 5 || (e.kind == 0 && e.w2.extractLsb' 22 10 == (0x006 : BitVec 10)))

/-- The slots of live splits that wait for nothing: no wait stands in them and no entry is to resume them. -/
def SplitTable.idleSlots (t : SplitTable) (es : List RQEntry) : List Nat :=
  (List.range 4).filter (fun k => match t.split? k with
    | some sp => sp.wait.isNone && !es.any (·.holds k)
    | none => false)

/-- The split table that RTT restores (R225), and the mismatches that it finds: the merges that killed lanes held up come
first and take a freed slot before a parked split (R210, R287); then the trapping split goes on, and splits whose wait was
deleted arrive (R211, R281). NOSIG exempts the trapping split. -/
def Saved.restore (f : Saved) (es : List RQEntry) (resume : Option Word) (nosig : Bool) (gone : Mask) (chk : Bool) :
    SplitTable × List Mismatch × List Mismatch :=
  let there := (f.table.split? f.slot).isSome
  let mark (sp : Split) : Split := { sp with nosig := sp.nosig || nosig }
  let t := f.table.setSplit f.slot ((f.table.split? f.slot).map mark)
  let a := if f.killed = 0 then (t, []) else t.recheck 21 gone chk
  let b := match resume with
    | some pc =>
      if !there then (a.1, [])
      else if es.any (·.holds f.slot) then (a.1.setSplit f.slot ((a.1.split? f.slot).map (fun (sp : Split) => { sp with pc := pc })), [])
      else a.1.moveTo f.slot pc gone chk
    | none => (a.1, [])
  let c := b.1.arriveAt (b.1.idleSlots es) gone chk
  (c.1, a.2, b.2 ++ c.2)

/-- RTT (R225): the level below is restored; the entries that remain are to be re-injected unless a mismatch or a pending
cause enters a trap at the restored level first. -/
def State.returnFromTrap (s : State) (w : Nat) (retry skip nosig : Bool) (i0 i1 i2 : Word) : State :=
  let s := if retry then s else s.killClass8 w i0 i1 i2
  match s.waves[w]? with
  | none => s
  | some wv =>
    match wv.saved with
    | [] => s
    | f :: rest =>
      let resume := match f.resume with
        | none => none
        | some pc => some (if skip && pc == wv.frame.tpc then pc + 12 else pc)
      let t := f.restore wv.rq resume nosig wv.gone (s.checking wv)
      -- the splits of the handler are gone, and their waits with them
      let s := s.withWave w (fun wv => { wv with
        table := t.1, saved := rest, level := wv.level - 1, reinj := wv.rq, rq := f.rq, since := f.since,
        flights := wv.flights.filter (fun x => x.entry.kind != 5),
        frame := if wv.level = 2 then f.frame else wv.frame })
      let s := if ((s.waves[w]?).map (·.waitsBaton)).getD true then s
        else s.withGroup wv.group (fun g => { g with baton := g.baton.unwait wv.waveid })
      match t.2.1, t.2.2, wv.pending with
      | m :: ms, _, _ =>
        let i := (m.due.bind (fun k => lookupN k f.killer)).getD (i0, i1, i2)
        s.raiseMismatch w (m :: ms) i.1 i.2.1 i.2.2
      | [], m :: ms, _ => s.raiseMismatch w (m :: ms) i0 i1 i2
      | [], [], p :: ps =>
        let s := s.withWave w (fun wv => { wv with pending := ps })
        match s.waves[w]? with
        | some wv => s.enterTrap w (s.asyncInfo wv p)
        | none => s
      | [], [], [] => s

end Sys2Proof.Machine
end

