-- ==== Sys2Proof/Machine/Operands.lean ====
section
/-! DEFINITION. Operands: special registers, reading a source field, the waits and checks of issue (stages 2 to 4 of
R427), and the shared course of an issue and of a re-injection. -/

namespace Sys2Proof.Machine

/-! ## Special registers (R67) -/

/-- A span handle (R297). -/
def handleOf (die : Nat) (sp : Span) : DWord :=
  BitVec.ofNat 64 (die * 2 ^ 62 + sp.slot * 2 ^ 56) ||| sp.epoch.setWidth 64

/-- The handle of the instance that holds a core; zero for a core in none. -/
def State.handleAt (s : State) (core : Nat) : DWord :=
  match s.instanceOf core with | some sp => handleOf (core / 64) sp | none => 0

/-- The group coordinate (R356). -/
def groupXYZ (l : LRecord) (gl : Nat) : Nat × Nat × Nat :=
  (gl % l.gridX, gl / l.gridX % l.gridY, gl / l.gridX / l.gridY)

/-- The value of a special register, or of predicate number 0x40 to 0x47, in each lane, for a split and an EXEC mask (R37,
R66, R67). -/
def State.special (s : State) (wv : Wave) (sp : Split) (exec : Mask) (n : BitVec 8) : Lanes Word :=
  let g := s.groupOf wv
  let xyz := match g, s.launchOf wv with
    | some g, some l => groupXYZ l.record g.gl
    | _, _ => (0, 0, 0)
  let nat (x : Nat) : Lanes Word := splat (BitVec.ofNat 32 x)
  if 0x40 ≤ n.toNat then perLane fun L => if (wv.pred (n.setWidth 3)).has L then 1 else 0
  else match n.toNat with
  | 0x00 => perLane fun L => BitVec.ofNat 32 L.val
  | 0x01 => splat (wv.waveid.setWidth 32)
  | 0x02 => nat xyz.1
  | 0x03 => nat xyz.2.1
  | 0x04 => nat xyz.2.2
  | 0x05 => nat ((g.map (·.stage)).getD 0)
  | 0x06 => splat wv.lwave
  | 0x07 => nat (wv.coreNo % 64)
  | 0x08 => nat wv.die'
  | 0x09 => splat s.via.vpid
  | 0x0A => splat (lo32 (s.handleAt wv.coreNo))
  | 0x0B => splat (hi32 (s.handleAt wv.coreNo))
  | 0x0C => splat exec
  | 0x0D => splat wv.live
  | 0x0E => splat wv.dead
  | 0x0F => wv.fstat
  | 0x10 => splat wv.fctl
  | 0x11 => splat (sp.fmt.setWidth 32)
  | 0x12 => splat wv.mflags
  | 0x13 => splat (lo32 s.clock)
  | 0x14 => splat (hi32 s.clock)
  | 0x15 => nat (if s.det wv then wv.qretired else 0)
  | 0x16 => splat wv.frame.tcause
  | 0x17 => splat wv.frame.tpc
  | 0x18 => splat wv.frame.inst0
  | 0x19 => splat wv.frame.inst1
  | 0x1A => splat wv.frame.inst2
  | 0x1B => splat wv.frame.taddr
  | 0x1C => splat wv.death
  | 0x1D => splat (sp.hash.setWidth 32)
  | _ => splat 0

/-- The shape of a special register or predicate number (R37, R67, R226). -/
def specialTag (n : BitVec 8) : Tag :=
  if n = 0x00 ∨ n = 0x0F then .gen
  else if n = 0x47 then .uni
  else if 0x40 ≤ n.toNat then .gen else .uni

/-! ## Source fields -/

/-- How an immediate becomes a value (R38). -/
inductive ImmKind | int | f32 | f16 | bf16 | f16x2 | bf16x2 | f64
  deriving DecidableEq, Repr

/-- How a whole register or an element becomes the operand (R35, R95, R120): narrowed to `w` bits, an element extended by
its sign or by zeros; or a packed register under a swizzle. -/
inductive EltKind
  | value (signed : Bool) (w : Nat)
  | packed
  deriving DecidableEq, Repr

/-- One source of an instruction: field number (0 D, 1 A, 2 B, 3 C; R61), the field, registers, and how it is used. -/
structure OpUse where
  fld : Nat
  src : Src
  n : Nat := 1
  imm : ImmKind := .int
  elt : EltKind := .value false 32
  uniform : Bool := false
  consume : Option (BitVec 2) := none
  deriving DecidableEq, Repr

/-- A field that holds a register number alone, or is read plainly (R32, R40, R435). -/
def plainSrc (r : VNum) (fe : Bool := false) : Src := .reg r .ident fe

/-- A source of an integer type (R95). -/
def intUse (fld : Nat) (t : IType) (s : Src) : OpUse :=
  { fld := fld, src := s, n := if t.width = 64 then 2 else 1, elt := .value t.signed (if t.width = 64 then 128 else t.width) }

/-- A source of an element type (R120). -/
def fltUse (fld : Nat) (t : EType) (s : Src) : OpUse :=
  { fld := fld, src := s, n := if t = .f64 then 2 else 1
    imm := match t with
      | .f32 => .f32 | .f16 => .f16 | .bf16 => .bf16 | .f16x2 => .f16x2 | .bf16x2 => .bf16x2 | .f64 => .f64
      | .kf8e4 | .kf8e5 | .kf4 | .si8 | .ui8 | .si4 | .ui4 => .int
    elt := match t with
      | .f16 | .bf16 => .value false 16
      | .f16x2 | .bf16x2 => .packed
      | .f64 => .value false 128
      | .f32 | .kf8e4 | .kf8e5 | .kf4 | .si8 | .ui8 | .si4 | .ui4 => .value false 32 }

/-- A binary32 immediate rounded to a 16-bit format under RNE, no flag raised (R38). -/
def immTo16 (f : Fmt) (v : BitVec 18) : Nat := (convFmt f32 f .rne false (v.toNat * 2 ^ 14)).bits

/-- The value of an 18-bit immediate (R38). -/
def immValue (k : ImmKind) (n w : Nat) (v : BitVec 18) : BitVec 128 :=
  match k with
  | .int => ((v.signExtend (if n = 2 then 64 else if n = 1 then min w 32 else 128)).setWidth 128)
  | .f32 => v.setWidth 128 <<< 14
  | .f16 => BitVec.ofNat 128 (immTo16 Machine.f16 v)
  | .bf16 => BitVec.ofNat 128 (immTo16 Machine.bf16 v)
  | .f16x2 => BitVec.ofNat 128 (immTo16 Machine.f16 v * 65537)
  | .bf16x2 => BitVec.ofNat 128 (immTo16 Machine.bf16 v * 65537)
  | .f64 => v.setWidth 128 <<< 46

/-- The lane that a crossbar pattern reads for lane `L` (R233); none for the identity. -/
def patLane (p : Pat) (L : Lane) : Option Int :=
  match p with
  | .elt _ _ => none
  | .rot k => some ((L.val + k.toNat) % 32 : Nat)
  | .bc k => some (k.toNat : Int)
  | .bfly k => some ((L.val ^^^ k.toNat : Nat) : Int)
  | .mir k => some ((L.val ^^^ (2 ^ k.toNat - 1) : Nat) : Int)
  | .dn k => some ((L.val + k.toNat : Nat) : Int)
  | .up k => some ((L.val : Int) - k.toNat)

/-- What an exchange read supplies (R231). -/
inductive Supply
  /-- the fill value: out of range, exited, or in another split -/
  | fill
  /-- a dead lane: zero, clean, XDEAD -/
  | dead
  | lane (j : Lane)
  deriving DecidableEq, Repr

/-- Supply (R231) for source lane `j` and a split's lanes. -/
def Wave.supply (wv : Wave) (mask : Mask) (j : Int) : Supply :=
  if h : 0 ≤ j ∧ j.toNat < 32 then
    let L : Lane := ⟨j.toNat, h.2⟩
    if wv.dead.has L then .dead
    else if wv.live.has L && mask.has L then .lane L else .fill
  else .fill

/-- A swizzle of the elements of a packed word (R35). -/
def swizzle (e : EltW) (i : BitVec 3) (v : Word) : Word :=
  let b := eltBits e
  let k := 32 / b
  let at' (j : Nat) : Nat := v.toNat / 2 ^ (b * j) % 2 ^ b
  let pick (j : Nat) : Nat :=
    if i = 1 then at' (k - 1 - j) else if i = 2 then at' 0 else if i = 3 then at' (k - 1)
    else if i = 4 then at' (j ^^^ 1) else at' j
  BitVec.ofNat 32 ((List.range k).foldl (fun a j => a + pick j * 2 ^ (b * j)) 0)

/-- The operand that a register value supplies under PAT 000 (R35, R95, R120). -/
def eltValue (k : EltKind) (e : EltW) (i : BitVec 3) (v : BitVec 128) : BitVec 128 :=
  match k with
  | .packed => if e = .w32 then v else (swizzle e i (v.setWidth 32)).setWidth 128
  | .value sg w =>
    if e = .w32 then v &&& BitVec.ofNat 128 (2 ^ w - 1)
    else
      let x : Nat := v.toNat / 2 ^ (eltBits e * i.toNat) % 2 ^ eltBits e
      let y : BitVec 128 := if sg then BitVec.ofInt 128 (sextInt (eltBits e) x) else BitVec.ofNat 128 x
      y &&& BitVec.ofNat 128 (2 ^ min w 32 - 1)

/-- A source as read: values, poison, effective registers, shape, and whether a dead lane supplied a value. -/
structure OpVal where
  val : Lanes (BitVec 128)
  poison : Lanes Poison
  er : Lanes Byte
  tag : Tag
  xdead : Bool
  deriving DecidableEq, Repr

/-- The shape with which a source counts (R60, R61, R147, R234). -/
def Wave.srcTag (wv : Wave) (u : OpUse) : Tag :=
  match u.src with
  | .imm _ => .uni
  | .spec n => specialTag n
  | .ind _ _ _ _ => .gen
  | .reg r p _ =>
    match p with
    | .bc _ => .uni
    | .rot _ | .bfly _ | .mir _ | .dn _ | .up _ => .gen
    | .elt e _ =>
      if u.n = 1 then
        let t := (wv.reg r.toNat).tag
        if t = .aff ∧ e ≠ .w32 then .gen else t
      else if (List.range u.n).all (fun i => decide ((wv.reg (r.toNat + i)).tag = .uni)) then .uni else .gen

/-- The narrowing that a source's kind applies to a value of no element (R95). -/
def EltKind.width : EltKind → Nat
  | .value _ w => w
  | .packed => 128

/-- Reading a source in the lanes of `exec` (R33 to R38, R145, R231 to R234). -/
def State.readSrc (s : State) (wv : Wave) (sp : Split) (exec : Mask) (u : OpUse) : OpVal :=
  match u.src with
  | .imm v =>
    ⟨splat (immValue u.imm u.n u.elt.width v), allClean, splat 0, .uni, false⟩
  | .spec n =>
    let lo := s.special wv sp exec n
    let hi := s.special wv sp exec (n + 1)
    ⟨perLane (fun L =>
      (if u.n = 2 then (hi[L] ++ lo[L]).setWidth 128 else lo[L].setWidth 128) &&& BitVec.ofNat 128 (2 ^ u.elt.width - 1)),
      allClean, splat 0, specialTag n, false⟩
  | .ind x o st _ =>
    let er : Lanes Byte := perLane (fun L => BitVec.ofInt 8 (wv.effReg x o st u.n L).1)
    ⟨perLane (fun L => eltValue u.elt .w32 0 (wv.readN er[L].toNat L u.n)),
      perLane (fun L => wv.poisonN er[L].toNat L u.n), er, .gen, false⟩
  | .reg r p _ =>
    let from' (L : Lane) : Supply := match patLane p L with
      | none => .lane L
      | some j => wv.supply sp.mask j
    let value (L : Lane) : BitVec 128 := match from' L with
      | .lane j => wv.readN r.toNat j u.n
      | .fill | .dead => 0
    ⟨perLane (fun L => match p with
        | .elt e i => eltValue u.elt e i (value L)
        | .rot _ | .bc _ | .bfly _ | .mir _ | .dn _ | .up _ => eltValue u.elt .w32 0 (value L)),
      perLane (fun L => match from' L with
        | .lane j => wv.poisonN r.toNat j u.n
        | .fill | .dead => .clean),
      splat r, wv.srcTag u, lanes.any (fun L => exec.has L && decide (from' L = .dead))⟩

/-- The outcome of a step. -/
abbrev Result := Host.Outcome State Fault Refusal

/-! ## What an instruction uses -/

/-- A cause found at issue: code, lane, detail word. -/
structure IssueCause where
  cause : Cause
  lane : Nat
  detail : Word
  deriving DecidableEq, Repr

/-- The operands of an instruction: sources in the order D, A, B, C, the destination with its number of registers, the
predicates it reads or writes, the format checks of R56, whether RACE is delivered P (R431), whether it is a checking
instruction (R214), and what else makes it wait while a lane would act. -/
structure Uses where
  srcs : List OpUse := []
  dst : Option (Dst × Nat) := none
  preds : List PNum := []
  fmt : List Cause := []
  precise : Bool := false
  checking : Bool := false
  hold : State → Nat → Bool := fun _ _ => false
  /-- the cause of stage 3 that the operands' values themselves raise (R69, R75) -/
  illegal : Mask → List OpVal → Option IssueCause := fun _ _ => none
  /-- the index steps have been made at issue already (R148) -/
  stepped : Bool := false
  /-- the lanes that consume (R383) -/
  part : Mask := fullMask

/-- The effective registers of a destination (R36, R145). -/
def Wave.readDst (wv : Wave) : Option (Dst × Nat) → RDst
  | none => ⟨0, splat 0, none, none⟩
  | some (.reg r e i, n) => ⟨n, splat r, none, if e = .w32 then none else some (e, i)⟩
  | some (.ind x o st, n) =>
    ⟨n, perLane fun L => BitVec.ofInt 8 (wv.effReg x o st n L).1, some ((wv.xreg x).base, (wv.xreg x).bound), none⟩

/-- The locked windows of the wave (R151): first register and length. -/
def Wave.locks (wv : Wave) : List (Nat × Nat) := wv.flights.filterMap (·.lock)

/-- Whether register `r` lies in a locked window. -/
def Wave.locked (wv : Wave) (r : Nat) : Bool := wv.locks.any (fun l => decide (l.1 ≤ r ∧ r < l.1 + l.2))

/-- Whether the window of index register `x` overlaps a locked one (R151). -/
def Wave.windowLocked (wv : Wave) (x : XNum) : Bool :=
  let a := (wv.xreg x).base
  let b := a + (wv.xreg x).bound
  wv.locks.any (fun l => decide (l.1 < b ∧ a < l.1 + l.2))

/-- Whether one of `n` registers from `r` is empty. -/
def Wave.anyEmpty (wv : Wave) (r n : Nat) : Bool := (List.range n).any (fun i => !(wv.reg (r + i)).full)

/-- Whether a direct reference waits (R63, R151). -/
def Wave.regWaits (wv : Wave) (r n : Nat) (fe : Bool) : Bool :=
  (List.range n).any (fun i => wv.locked (r + i)) || (!fe && wv.anyEmpty r n)

/-- Whether an indirect reference waits (R63, R151). -/
def Wave.indWaits (wv : Wave) (exec : Mask) (x : XNum) (o : BitVec 5) (st : StepMode) (n : Nat) (fe : Bool) : Bool :=
  wv.windowLocked x
    || (!fe && (Mask.lanes exec).any (fun L =>
      let e := wv.effReg x o st n L
      !e.2 && wv.anyEmpty e.1.toNat n))

/-- Whether a source makes the instruction wait at issue. -/
def Wave.srcWaits (wv : Wave) (exec : Mask) (u : OpUse) : Bool :=
  match u.src with
  | .imm _ | .spec _ => false
  | .reg r _ fe => wv.regWaits r.toNat u.n fe
  | .ind x o st fe => wv.indWaits exec x o st u.n fe

/-- Whether a destination makes the instruction wait at issue. -/
def Wave.dstWaits (wv : Wave) (exec : Mask) : Option (Dst × Nat) → Bool
  | none => false
  | some (.reg r _ _, n) => wv.regWaits r.toNat n false
  | some (.ind x o st, n) => wv.indWaits exec x o st n false

/-- Whether a predicate is still to be written by a CAS (R194). -/
def Wave.predWaits (wv : Wave) (p : PNum) : Bool :=
  decide (p ≠ 7) && wv.flights.any (fun f => match f.pred with | some (q, _) => q == p | none => false)

/-- Whether the destination of a captured instruction makes its write wait (R63, R151): a locked or empty register, or a window
that overlaps a locked one. -/
def Wave.outWaits (wv : Wave) (d : RDst) : Bool :=
  match d.win with
  | some (b, n) => wv.locks.any (fun l => decide (l.1 < b + n ∧ b < l.1 + l.2))
  | none => wv.regWaits d.er[(0 : Lane)].toNat d.n false

/-- Whether the instruction waits at issue (R63, R151, R194); with eight unfinished every instruction waits (R278). -/
def Wave.blocked (wv : Wave) (exec : Mask) (h : Hdr) (u : Uses) : Bool :=
  u.srcs.any (wv.srcWaits exec) || wv.dstWaits exec u.dst || (h.pred :: u.preds).any wv.predWaits
    || decide (wv.flights.length ≥ 8)

/-- Bound faults of one indirect field (R146). -/
def Wave.boundFaults (wv : Wave) (exec : Mask) (f : Nat) (x : XNum) (o : BitVec 5) (st : StepMode) (n : Nat) :
    List IssueCause :=
  (Mask.lanes exec).filterMap (fun L =>
    let e := wv.effReg x o st n L
    if e.2 then some ⟨BitVec.ofNat 9 (0x040 + f * 8 + x.toNat), L.val, BitVec.ofInt 32 e.1⟩ else none)

/-- The least cause, then the least lane. -/
def leastCause (l : List IssueCause) : Option IssueCause :=
  l.foldl (fun b c => match b with
    | none => some c
    | some b => if c.cause.toNat < b.cause.toNat ∨ (c.cause = b.cause ∧ c.lane < b.lane) then some c else some b) none

/-- Allotment faults of one reference (R58): the lane and the offending register. -/
def Wave.allotFaults (wv : Wave) (exec : Mask) (u : Nat × Option (XNum × BitVec 5 × StepMode) × Nat) :
    List (Nat × Nat) :=
  match u.2.1 with
  | none => if u.1 + u.2.2 > wv.vregs then [((Mask.lowest exec).val, max u.1 wv.vregs)] else []
  | some (x, o, st) =>
    (Mask.lanes exec).filterMap (fun L =>
      let e := (wv.effReg x o st u.2.2 L).1.toNat
      if e + u.2.2 > wv.vregs then some (L.val, max e wv.vregs) else none)

/-- The register references of an instruction in the order D, A, B, C: number, indirection, registers. -/
def Uses.refs (u : Uses) : List (Nat × Option (XNum × BitVec 5 × StepMode) × Nat) :=
  (match u.dst with
    | none => []
    | some (.reg r _ _, n) => [(r.toNat, none, n)]
    | some (.ind x o st, n) => [(0, some (x, o, st), n)])
  ++ u.srcs.filterMap (fun p => match p.src with
    | .imm _ | .spec _ => none
    | .reg r _ _ => some (r.toNat, none, p.n)
    | .ind x o st _ => some (0, some (x, o, st), p.n))

/-- Bound faults of every indirect field (R146). -/
def Wave.bounds (wv : Wave) (exec : Mask) (u : Uses) : List IssueCause :=
  (match u.dst with
    | some (.ind x o st, n) => wv.boundFaults exec 0 x o st n
    | some (.reg _ _ _, _) | none => [])
  ++ (u.srcs.map (fun p => match p.src with
    | .ind x o st _ => wv.boundFaults exec p.fld x o st p.n
    | .imm _ | .spec _ | .reg _ _ _ => [])).flatten

/-- The allotment cause (R58): the lowest lane, and the register of the first field in the order D, A, B, C. -/
def Wave.allotment (wv : Wave) (exec : Mask) (u : Uses) : Option IssueCause :=
  let all := (u.refs.map (wv.allotFaults exec)).flatten
  match all with
  | [] => none
  | (_, r) :: _ => some ⟨0x020, all.foldl (fun m x => min m x.1) 31, BitVec.ofNat 32 r⟩

/-- The shape cause (R61): the first field that must be uniform and is not (log entry 58). -/
def Wave.shapeFault (wv : Wave) (u : Uses) : Option IssueCause :=
  (u.srcs.find? (fun p => p.uniform && decide (wv.srcTag p ≠ .uni))).map (fun p => ⟨0x021, 0, BitVec.ofNat 32 p.fld⟩)

/-- The empty register that a source with FE = 1 reads (R63); of several, the first of its lowest lane (log entry 58). -/
def Wave.feReg (wv : Wave) (exec : Mask) (p : OpUse) : Option Nat :=
  let first (r : Nat) : Option Nat := ((List.range p.n).map (r + ·)).find? (fun r => !(wv.reg r).full)
  match p.src with
  | .reg r _ true => first r.toNat
  | .ind x o st true => (Mask.lanes exec).findSome? (fun L => first (wv.effReg x o st p.n L).1.toNat)
  | .reg _ _ false | .ind _ _ _ false | .imm _ | .spec _ => none

/-- The FE cause (R63, R75). -/
def Wave.feFault (wv : Wave) (exec : Mask) (u : Uses) : Option IssueCause :=
  (u.srcs.findSome? (wv.feReg exec)).map (fun r => ⟨0x022, (Mask.lowest exec).val, BitVec.ofNat 32 r⟩)

/-- Stages 2 and 3 of R427; which of several class 1 causes comes first is the model's choice (log entry 58). -/
def Wave.issueFault (wv : Wave) (exec : Mask) (u : Uses) : Option IssueCause :=
  match leastCause (wv.bounds exec u) with
  | some c => some c
  | none =>
    match wv.allotment exec u with
    | some c => some c
    | none =>
      match wv.shapeFault u with
      | some c => some c
      | none => wv.feFault exec u

/-! ## Issue -/

/-- A cause that names one lane: its stage (R427), code and detail. -/
structure LaneCause where
  lane : Lane
  stage : Nat
  cause : Cause
  detail : Word
  deriving DecidableEq, Repr

/-- The instruction being executed: its issue, the lanes that act, and its operands. -/
structure Ctx where
  w : Nat
  slot : Nat
  pc : Word
  w0 : Word
  w1 : Word
  w2 : Word
  replay : Option RQEntry
  /-- EXEC at issue -/
  exec0 : Mask
  /-- the lanes of EXEC that no earlier stage has named -/
  exec : Mask
  fmt : BitVec 10
  vals : List OpVal
  dst : RDst
  /-- lanes already named: RACE (stage 4) -/
  causes : List LaneCause
  uses : Uses

/-- The opcode. -/
def Ctx.opc (c : Ctx) : BitVec 10 := c.w2.extractLsb' 22 10

/-- Source `i` of the instruction. -/
def Ctx.src (c : Ctx) (i : Nat) : OpVal := (c.vals[i]?).getD ⟨splat 0, allClean, splat 0, .uni, false⟩

/-- Value of source `i` in lane `L`. -/
def Ctx.v (c : Ctx) (i : Nat) (L : Lane) : BitVec 128 := (c.src i).val[L]

/-- Value of source `i` in the lowest lane that acts: a uniform operand. -/
def Ctx.u (c : Ctx) (i : Nat) : BitVec 128 := c.v i (Mask.lowest c.exec)

/-- The highest poison of the sources in lane `L` (R64). -/
def Ctx.poison (c : Ctx) (L : Lane) : Poison := c.vals.foldl (fun p o => p.max o.poison[L]) .clean

/-- Whether every source is UNI (R60). -/
def Ctx.allUni (c : Ctx) : Bool := c.vals.all (fun o => decide (o.tag = .uni))

/-- A precise cause of delivery P (R426): no effect, resume at the instruction. A re-injected instruction keeps its lanes in
its entry, and every split continues where it stood (R283). -/
def State.raiseP (s : State) (w slot : Nat) (pc w0 w1 w2 : Word) (replay : Option RQEntry) (c : IssueCause) : State :=
  match replay with
  | none => s.enterTrap w ⟨c.cause, c.lane, c.detail, pc, w0, w1, w2, slot, some pc, none, none⟩
  | some e => s.enterTrap w ⟨c.cause, c.lane, c.detail, pc, w0, w1, w2, slot, none,
      some { e with cause := c.cause, detail := c.detail }, none⟩

/-- A precise cause of the instruction being executed. -/
def State.raise (s : State) (c : Ctx) (i : IssueCause) : State := s.raiseP c.w c.slot c.pc c.w0 c.w1 c.w2 c.replay i

/-- The cause named at the lowest lane that acts. -/
def Ctx.issueCause (c : Ctx) (code : Cause) (detail : Word) : IssueCause := ⟨code, (Mask.lowest c.exec).val, detail⟩

/-- Stage 4 of R427, deaths: the lanes that consume ERR, each with its class 9 cause (R65). -/
def errDeaths (errSrc : BitVec 3) (exec : Mask) (us : List (OpUse × OpVal)) : List (Lane × Cause) :=
  (Mask.lanes exec).filterMap (fun L =>
    (us.find? (fun p => p.1.consume.isSome && decide (p.2.poison[L] = .err))).map (fun p =>
      (L, BitVec.ofNat 9 (0x120 + errSrc.toNat * 4 + (p.1.consume.getD 0).toNat))))

/-- Stage 4 of R427, class 10: the lanes that consume RACE (R65, R431). -/
def raceCauses (space : BitVec 2) (exec : Mask) (us : List (OpUse × OpVal)) : List LaneCause :=
  (Mask.lanes exec).filterMap (fun L =>
    (us.find? (fun p => p.1.consume.isSome && decide (p.2.poison[L] = .race))).map (fun p =>
      ⟨L, 4, BitVec.ofNat 9 (0x140 + space.toNat * 4 + (p.1.consume.getD 0).toNat), p.2.er[L].setWidth 32⟩))

/-- The mask of the lanes named. -/
def causeMask (cs : List LaneCause) : Mask := cs.foldl (fun m c => m ||| Mask.one c.lane) 0

/-- The cause that the trap raises: of the first stage, its lowest lane (R427). -/
def mainCause (cs : List LaneCause) : Option LaneCause :=
  cs.foldl (fun b c => match b with
    | none => some c
    | some b => if c.stage < b.stage ∨ (c.stage = b.stage ∧ c.lane.val < b.lane.val) then some c else some b) none

/-- Operands in the order in which their poison is consumed: by kind, address first (R65). -/
def byKind (us : List (OpUse × OpVal)) : List (OpUse × OpVal) :=
  [0, 1, 2, 3].flatMap (fun k => us.filter (fun p => p.1.consume == some (BitVec.ofNat 2 k)))

/-! ## Retirement of an instruction (R148, R174, R393) -/

/-- The index steps of the instruction's class 01 fields (R148). -/
def Uses.steps (u : Uses) : List (XNum × StepMode) :=
  if u.stepped then [] else
  (match u.dst with
    | some (.ind x _ st, _) => [(x, st)]
    | some (.reg _ _ _, _) | none => [])
  ++ u.srcs.filterMap (fun p => match p.src with
    | .ind x _ st _ => if p.fld = 0 ∧ u.dst.isSome then none else some (x, st)
    | .imm _ | .spec _ | .reg _ _ _ => none)

/-- One step per index register that a field names, the sum over the fields, 0 also (R148). -/
def Wave.stepAll (wv : Wave) (m : Mask) (l : List (XNum × StepMode)) : Wave :=
  (List.range 8).foldl (fun w i =>
    let x : XNum := BitVec.ofNat 3 i
    let mine := l.filter (fun p => p.1 == x)
    let d : Int := mine.foldl (fun a p => a + stepDelta p.2 (wv.xreg x).step) 0
    if mine.isEmpty then w else w.stepIndex x d (m &&& w.live)) wv

/-- The wave's quantum has ended: it waits for the boundary, and its quadrant passes on (R174, R393). -/
def State.endQuantum (s : State) (w : Nat) : State :=
  match s.waves[w]? with
  | none => s
  | some wv =>
    if s.det wv then
      let s := s.withWave w (fun wv => { wv with qended := true })
      match wv.place with
      | some p => s.withCore p.core (fun c => { c with quads := c.quads.map (fun q =>
          if q.det = some w then { q with det := none } else q) })
      | none => s
    else s

/-- A switch point of deterministic mode (R174). -/
def State.switchPoint (s : State) (w : Nat) : State :=
  match (s.waves[w]?).bind (·.place) with
  | some p => s.withCore p.core (fun c => { c with quads := c.quads.map (fun q =>
      if q.det = some w then { q with det := none } else q) })
  | none => s

/-- Retirement of one instruction (R393): index steps, the hash (R213), QRETIRED and the quantum's end. -/
def State.retired (s : State) (c : Ctx) : State :=
  match c.replay with
  | some _ => s
  | none =>
    let s := s.withWave c.w (fun wv =>
      let wv := wv.stepAll c.exec0 c.uses.steps
      let wv := if c.uses.checking then wv
        else wv.withSplit c.slot (fun sp => { sp with hash := sigUpdate sp.hash c.opc })
      { wv with qretired := wv.qretired + 1 })
    match s.waves[c.w]? with
    | none => s
    | some wv =>
      let q := ((s.launchOf wv).map (·.record.quantum)).getD 0
      if s.det wv && decide (wv.qretired ≥ q) then s.endQuantum c.w else s

/-- Stage 4 and what follows: deaths, then class 10, then the instruction's own course `k`; an instruction whose split dies whole
has retired (R393). -/
def State.consumeThen (s : State) (c : Ctx) (k : State → Ctx → State) : State :=
  match s.waves[c.w]? with
  | none => s
  | some wv =>
    let us := byKind (c.uses.srcs.zip c.vals)
    let dead := errDeaths wv.errSrc (c.exec &&& c.uses.part) us
    let m : Mask := dead.foldl (fun m d => m ||| Mask.one d.1) 0
    let r := s.killLanes c.w m (fun L => ((dead.find? (fun d => d.1.val == L)).map (·.2)).getD 0)
    let s := r.1.noteKiller c.w m c.w0 c.w1 c.w2
    let exec := c.exec &&& ~~~m
    let left : Mask := match c.replay, wv.table.split? c.slot with
      | none, some sp => sp.mask &&& ~~~m
      | _, _ => fullMask
    let after (s : State) : State := s.raiseMismatch c.w r.2 c.w0 c.w1 c.w2
    if (s.waves[c.w]?).map (·.life) = some .retired then after s
    else if left = 0 then after (s.retired c)
    else
      let races := raceCauses wv.raceSpace (exec &&& c.uses.part) us
      after (if c.uses.precise then
          match races with
          | [] => k s { c with exec := exec }
          | x :: _ => s.raise c ⟨x.cause, x.lane.val, x.detail⟩
        else k s { c with exec := exec &&& ~~~causeMask races, causes := races })

/-- Word `i` (8 to 19) of an entry's per-lane words, as an operand of `n` registers. -/
def RQEntry.operand (e : RQEntry) (i n : Nat) : OpVal :=
  let w (j : Nat) : LaneWord := if j < 12 then (e.lw[j]?).getD ⟨splat 0, allClean⟩ else ⟨splat 0, allClean⟩
  ⟨perLane (fun L => (List.range n).foldl (fun a j =>
      a ||| ((w (i - 8 + j)).v[L].setWidth 128 <<< (32 * j))) 0),
    perLane (fun L => (List.range n).foldl (fun p j => p.max (w (i - 8 + j)).p[L]) .clean), splat 0, .gen, false⟩

/-- Where an entry keeps the operand of a field (R280): DAT0, OPA0, OPB0, OPC0; the upper half of a quad in field A stands
in OPC. -/
def fieldWord : Nat → Nat
  | 0 => 16 | 1 => 10 | 2 => 12 | _ => 14

/-- A captured operand. -/
def RQEntry.captured (e : RQEntry) (u : OpUse) : OpVal :=
  let er : Lanes Byte := perLane fun L => e.er[L].extractLsb' (if u.fld = 0 then 16 else if u.fld = 1 then 8 else 0) 8
  let base := if u.fld = 1 ∧ u.n = 4 then
      let lo := e.operand 10 2
      let hi := e.operand 14 2
      ⟨perLane (fun L => lo.val[L] ||| (hi.val[L] <<< 64)), poisonUnion lo.poison hi.poison, splat 0, Tag.gen, false⟩
    else e.operand (fieldWord u.fld) u.n
  let er := match u.src with
    | .reg r _ _ => splat r
    | .ind _ _ _ _ => er
    | .imm _ | .spec _ => splat 0
  { base with er := er }

/-- EXEC (R26): the split's live lanes in which the guard holds. -/
def execMask (wv : Wave) (sp : Split) (h : Hdr) : Mask :=
  sp.mask &&& wv.live &&& (if h.neg then ~~~wv.pred h.pred else wv.pred h.pred)

/-- The instruction has been taken up: no other is being issued. -/
def State.taken (s : State) : State := { s with cur := none }

/-- The registers that the sources of an instruction read in some lane of `exec`. -/
def Wave.sourceRegs (wv : Wave) (exec : Mask) (u : Uses) : List Nat :=
  u.srcs.flatMap (fun p => match p.src with
    | .reg r _ _ => (List.range p.n).map (r.toNat + ·)
    | .ind x o st _ => (Mask.lanes exec).flatMap (fun L => (List.range p.n).map ((wv.effReg x o st p.n L).1.toNat + ·))
    | .imm _ | .spec _ => [])

/-- A register read whose words may be uncorrectable (R168): a correct mirror repairs the primary, and the lanes without one
hold ERR, a free value, from the pool registers (source 3). -/
def Wave.mend (wv : Wave) (mirrored : Bool) (draw r : Nat) : Wave :=
  let v := wv.reg r
  if v.bad = 0 then wv
  else
    let lost := if mirrored then v.bad &&& v.mirrorBad else v.bad
    let wv := wv.setReg r { v with
      bad := lost
      val := perLane fun L => if lost.has L then Config.errWord draw r L.val else v.val[L]
      poison := perLane fun L => if lost.has L then .err else v.poison[L] }
    if lost = 0 then wv else { wv with errSrc := 3 }

/-- The lanes of a register that a mirror repairs (R168). -/
def Wave.mended (wv : Wave) (mirrored : Bool) (r : Nat) : Nat :=
  if mirrored then Mask.count ((wv.reg r).bad &&& ~~~(wv.reg r).mirrorBad) else 0

/-- The source registers of an instruction read (R168): each repair is counted (R415). -/
def State.readRegs (s : State) (w : Nat) (rs : List Nat) : State :=
  rs.foldl (fun s r => match s.waves[w]? with
    | none => s
    | some wv =>
      if (wv.reg r).bad = 0 then s
      else
        let mir := ((s.launchOf wv).map (·.mirrored)).getD false
        let n := wv.mended mir r
        let s := s.withWave w (fun wv => wv.mend mir s.fresh r)
        if n = 0 then s else s.count 0x0222 n) s

/-- The instruction waits (R169): nothing has been done, and the split is not ready. -/
def State.stay (s : State) : State := { s with waited := true }

/-- An instruction that is to be executed again, with nothing done: a re-injected one stays to be re-injected. -/
def State.putBack (s : State) (c : Ctx) : State :=
  match c.replay with
  | none => s
  | some e => s.withWave c.w (fun wv => { wv with reinj := e :: wv.reinj })

/-- The instruction waits in the course of its effect, before it has done anything. -/
def State.again (s : State) (c : Ctx) : State := (s.putBack c).stay

/-- A first issue: format causes, waits, stages 2 to 4, then the instruction's own course. -/
def State.issueFresh (s : State) (iss : Issuer) (wv : Wave) (sp : Split) (h : Hdr) (u : Uses)
    (k : State → Ctx → State) : State :=
  let exec := execMask wv sp h
  let low := (Mask.lowest sp.mask).val
  let up (s : State) (c : IssueCause) : State := s.raiseP iss.wave iss.slot sp.pc iss.w0 iss.w1 iss.w2 none c
  match leastCause (u.fmt.map (fun c => ⟨c, low, sp.fmt.setWidth 32⟩)) with
  | some c => up s c
  | none =>
    if wv.blocked exec h u || (decide (exec ≠ 0) && u.hold s iss.wave) then s.stay
    else match wv.issueFault exec u with
      | some c => up s c
      | none =>
        let s := s.readRegs iss.wave (wv.sourceRegs exec u)
        let wv := (s.waves[iss.wave]?).getD wv
        let vals := u.srcs.map (s.readSrc wv sp exec)
        match u.illegal exec vals with
        | some c => up s c
        | none =>
          -- a dead lane read by a pattern is noted as soon as the operands are read (log entry 36)
          let s := s.withWave iss.wave (fun wv => wv.setXdead (vals.any (·.xdead)))
          s.consumeThen
            { w := iss.wave, slot := iss.slot, pc := sp.pc, w0 := iss.w0, w1 := iss.w1, w2 := iss.w2, replay := none,
              exec0 := exec, exec := exec, fmt := sp.fmt, vals := vals, dst := wv.readDst u.dst, causes := [], uses := u } k

/-- A re-injection (R280, R283): the captured operands stand for the registers, EXEC is REMAIN. -/
def State.issueReplay (s : State) (iss : Issuer) (wv : Wave) (e : RQEntry) (u : Uses) (k : State → Ctx → State) :
    State :=
  let exec := e.remain &&& wv.live
  if (u.dst.isSome && wv.outWaits e.dst) || u.hold s iss.wave || decide (wv.flights.length ≥ 8) then s.stay
  else
    let s := s.withWave iss.wave (fun wv => { wv with reinj := wv.reinj.drop 1 })
    let vals := u.srcs.map e.captured
    match u.illegal exec vals with
    | some c => s.raiseP iss.wave iss.slot e.pc e.w0 e.w1 e.w2 (some e) c
    | none =>
      s.consumeThen
        { w := iss.wave, slot := iss.slot, pc := e.pc, w0 := e.w0, w1 := e.w1, w2 := e.w2, replay := some e,
          exec0 := exec, exec := exec, fmt := e.fmt, vals := vals, dst := e.dst, causes := [], uses := u } k

/-- The course of every instruction of a split: it is issued, or re-injected, by the issuer that the step has set. -/
def issue (h : Hdr) (u : Uses) (k : State → Ctx → State) (s : State) : Result :=
  match s.cur with
  | none => .fault .noIssuer
  | some iss =>
    match s.waves[iss.wave]? with
    | none => .fault .noIssuer
    | some wv =>
      let s := s.taken
      match iss.replay with
      | some e => .next (s.issueReplay iss wv e u k)
      | none =>
        match wv.table.split? iss.slot with
        | none => .fault .noIssuer
        | some sp => .next (s.issueFresh iss wv sp h u k)

/-! ## After the effect -/

/-- The issuing split goes on at `pc`, its arrival checked (R211). -/
def State.goTo (s : State) (c : Ctx) (pc : Word) : State :=
  match c.replay, s.waves[c.w]? with
  | none, some wv =>
    let t := wv.table.moveTo c.slot pc wv.gone (s.checking wv)
    (s.withWave c.w (fun wv => { wv with table := t.1 })).raiseMismatch c.w t.2 c.w0 c.w1 c.w2
  | _, _ => s

/-- The replay entry of the instruction being executed (R280), of a kind, with a cause and the lanes to finish. -/
def Ctx.entry (c : Ctx) (kind : BitVec 3) (cause : Cause) (remain : Mask) (detail : Word) : RQEntry :=
  match c.replay with
  | some e => { e with kind := kind, cause := cause, remain := remain, detail := detail }
  | none =>
    let us := c.uses.srcs.zip c.vals
    let word (i : Nat) : LaneWord :=
      let hit := us.find? (fun p =>
        let b := fieldWord p.1.fld
        decide (b ≤ i ∧ i < b + (if p.1.fld = 1 then min p.1.n 2 else p.1.n)) || (decide (p.1.fld = 1 ∧ p.1.n = 4) && decide (14 ≤ i ∧ i < 16)))
      match hit with
      | none => ⟨splat 0, allClean⟩
      | some (p, o) =>
        let j := if p.fld = 1 ∧ p.n = 4 ∧ 14 ≤ i then i - 12 else i - fieldWord p.fld
        ⟨perLane (fun L => wordOf o.val[L] j), o.poison⟩
    let er (f : Nat) : Lanes Byte := match us.find? (fun p => p.1.fld == f) with
      | some (p, o) => (match p.src with
        | .ind _ _ _ _ => o.er
        | .reg _ _ _ | .imm _ | .spec _ => splat 0)
      | none => splat 0
    { kind := kind, cause := cause, remain := remain, pc := c.pc, w0 := c.w0, w1 := c.w1, w2 := c.w2, detail := detail,
      lw := Vector.ofFn fun i => word (i.val + 8)
      er := perLane fun L => ((if c.dst.ind then c.dst.er[L] else 0).setWidth 32 <<< 16)
        ||| ((er 1)[L].setWidth 32 <<< 8) ||| (er 2)[L].setWidth 32
      exec := c.exec0, fmt := c.fmt, slot := c.slot, wait := none, dst := c.dst }

/-- The end of an instruction whose effect is done in the lanes that no cause names: it retires, and either its split goes
on, or the lanes named stay in an entry of kind `kind` and the wave traps (R426, delivery L); `own` is the flight of the lanes
that are to complete first (R276). -/
def State.finish (s : State) (c : Ctx) (kind : BitVec 3) (causes : List LaneCause)
    (edit : RQEntry → RQEntry := id) (own : Option Nat := none) : State :=
  let s := s.retired c
  match mainCause causes with
  | none => s.goTo c (c.pc + 12)
  | some m =>
    let e := edit (c.entry kind m.cause (causeMask causes) m.detail)
    let resume := match c.replay with | none => some (c.pc + 12) | some _ => none
    s.enterTrap c.w ⟨m.cause, m.lane.val, m.detail, c.pc, c.w0, c.w1, c.w2, c.slot, resume,
      if e.remain = 0 then none else some e, own⟩

/-- A cause of delivery P found at stage 5 (R427). When a class 10 cause has already taken the trap, the lanes that `bad`
names stay in its entry and the others complete by `rest`. -/
def State.raiseLate (s : State) (c : Ctx) (kind : BitVec 3) (i : IssueCause) (bad : Mask) (rest : State → Ctx → State) :
    State :=
  if c.causes.isEmpty then s.raise c i
  else if c.exec &&& ~~~bad = 0 then
    s.finish c kind (c.causes ++ (Mask.lanes bad).map (fun L => ⟨L, 5, i.cause, i.detail⟩))
  else rest s { c with exec := c.exec &&& ~~~bad
                       causes := c.causes ++ (Mask.lanes (c.exec &&& bad)).map (fun L => ⟨L, 5, i.cause, i.detail⟩) }

/-! ## Operations computed lane by lane -/

/-- What one lane's computation gives: a value, flags to set, a predicate bit (and a second), and a cause (stage 6). -/
structure LaneOut where
  val : BitVec 128 := 0
  flags : BitVec 8 := 0
  p : Bool := false
  trap : Option Cause := none
  deriving DecidableEq, Repr

/-- The tag of an ordinary result (R60): UNI when every source is UNI, else GEN. -/
def Ctx.uniTag (c : Ctx) : Tag := if c.allUni then .uni else .gen

/-- Lanes that fail a residue check twice (R73): the input that the model takes for the next instruction. A first failure
is retried without trace but for the count. -/
def State.residueFails (s : State) (c : Ctx) : State × List LaneCause :=
  match s.residue with
  | none => (s, [])
  | some (m, dp, st, twice) =>
    let core := ((s.waves[c.w]?).map (·.coreNo)).getD 0
    let s := ({ s with residue := none }).count core
    let m := m &&& c.exec
    if twice then
      (s.count (0x0100 + core), (Mask.lanes m).map (fun L => ⟨L, 6, 0x100 + (dp.setWidth 9 <<< 3) + st.setWidth 9, m⟩))
    else (s, [])

/-- A lane-by-lane operation: the lanes that no cause names write D, their flags and the predicate `pd`; the others stay in
a kind 0 entry. -/
def State.runLanes (s : State) (c : Ctx) (f : Lane → LaneOut) (tag : Tag) (pd : Option PNum := none)
    (poison : Option (Lane → Poison) := none) : State :=
  let r := s.residueFails c
  let bad := r.2 ++ (Mask.lanes (c.exec &&& ~~~causeMask r.2)).filterMap (fun L =>
    (f L).trap.map (fun t => ⟨L, 6, t, 0⟩))
  let m := c.exec &&& ~~~causeMask bad
  let out : Lanes LaneOut := perLane fun L => if m.has L then f L else {}
  let po := poison.getD c.poison
  let s := r.1.withWave c.w (fun wv =>
    let wv := if c.dst.n = 0 then wv
      else wv.writeD c.dst m (perLane fun L => out[L].val) (perLane fun L => po L) tag
    let wv := wv.raiseFlags (perLane fun L => out[L].flags)
    match pd with
    | none => wv
    | some p => wv.setPred p m (maskOf fun L => out[L].p))
  s.finish c 0 (c.causes ++ bad)

/-- An instruction computed lane by lane: its operands, the tag of D, one lane's result, the predicate it writes, and the
poison of D where it is not the union of the sources'. -/
def laneOp (h : Hdr) (u : Uses) (tag : Ctx → Tag) (f : State → Ctx → Lane → LaneOut) (pd : Option PNum := none)
    (poison : Option (Ctx → Lane → Poison) := none) (s : State) : Result :=
  issue h u (fun s c => s.runLanes c (f s c) (tag c) pd (poison.map (fun p => p c))) s

/-- FCTL of the wave (R69) as it stands, also when the instruction is a re-injected one (log entry 59). -/
def State.fctl (s : State) (c : Ctx) : Word := ((s.waves[c.w]?).map (·.fctl)).getD 0

/-- Predicate `p` of the wave. -/
def State.predOf (s : State) (c : Ctx) (p : PNum) : Mask := ((s.waves[c.w]?).map (·.pred p)).getD 0

end Sys2Proof.Machine
end

