-- ==== Sys2Proof/Machine/Flags.lean ====
section
/-! DEFINITION. Exact results narrowed to a type, the flags they raise and the traps those enable (R76 to R78, R84, R85,
R95 to R97). -/

namespace Sys2Proof

/-- The value of a type's low bits (R95). -/
def IType.read (t : IType) (x : BitVec 128) : Int :=
  if t.signed then sextInt t.width x.toNat else ((x.toNat % 2 ^ t.width : Nat) : Int)

/-- The least value of a type. -/
def IType.least (t : IType) : Int := if t.signed then -(2 ^ (t.width - 1) : Int) else 0
/-- The greatest value of a type. -/
def IType.greatest (t : IType) : Int := if t.signed then (2 ^ (t.width - 1) : Int) - 1 else (2 ^ t.width : Int) - 1

/-- The result of a type as it is written (R96): wrapped modulo 2^w and extended by the type's signedness. -/
def IType.write (t : IType) (x : Int) : BitVec 128 := BitVec.ofInt 128 (t.read (BitVec.ofInt 128 x))

/-- Registers of a result of a type (R96). -/
def IType.regs (t : IType) : Nat := if t.width = 64 then 2 else 1

/-- The rounding attribute in force (R49): FCTL.RND under DYN. -/
def Rnd.resolve (r : Rnd) (fctl : Word) : Rnd :=
  match r with
  | .dyn =>
    match (fctl.extractLsb' 0 3).toNat with
    | 2 => .rtz | 3 => .rup | 4 => .rdn | 5 => .rna | _ => .rne
  | .rne => .rne | .rtz => .rtz | .rup => .rup | .rdn => .rdn | .rna => .rna

/-- A destination read as a source (R105). -/
def Dst.asSrc : Dst → Src
  | .reg r w i => .reg r (.elt w i) false
  | .ind x o st => .ind x o st false

end Sys2Proof

namespace Sys2Proof.Machine

/-! ## Integers -/

/-- Flag IDZ (R69). -/
def flIDZ : BitVec 8 := 32
/-- Flag IOV (R69). -/
def flIOV : BitVec 8 := 64

/-- The class 4 cause of a type (R118): kind 0 IDZ, 1 IOV. -/
def intCause (kind : Nat) (t : IType) : Cause := BitVec.ofNat 9 (0x080 + kind * 10 + t.code.toNat)

/-- Whether FCTL enables the trap of exception number `e`: IV 0 to IX 4, IDZ 5, IOV 6 (R69, R78). -/
def trapOn (fctl : Word) (e : Nat) : Bool := fctl.getLsbD (3 + e)

/-- A result with exception IDZ (kind 0) or IOV (kind 1): the trap if it is enabled, else the value and the flag (R78). -/
def intFlagged (fctl : Word) (kind : Nat) (t : IType) (v : BitVec 128) : LaneOut :=
  if trapOn fctl (5 + kind) then { trap := some (intCause kind t) }
  else { val := v, flags := if kind = 0 then flIDZ else flIOV }

/-- An exact result narrowed to a type, wrapped or clamped (R97, R100). -/
def intResult (fctl : Word) (t : IType) (sat : Bool) (x : Int) : LaneOut :=
  if sat = true ∧ x < t.least then intFlagged fctl 1 t (t.write t.least)
  else if sat = true ∧ t.greatest < x then intFlagged fctl 1 t (t.write t.greatest)
  else { val := t.write x }

/-- IDIV and IREM (R101); `rem` gives the remainder. -/
def divResult (fctl : Word) (t : IType) (rem : Bool) (a b : Int) : LaneOut :=
  if b = 0 then intFlagged fctl 0 t 0
  else if t.signed = true ∧ a = t.least ∧ b = -1 then intFlagged fctl 1 t (if rem then 0 else t.write a)
  else { val := t.write (if rem then a.tmod b else a.tdiv b) }

/-! ## Floating point -/

/-- The lowest enabled exception among raised flags (R85). -/
def firstEnabled (fctl : Word) (fl : BitVec 8) : Option Nat :=
  (List.range 5).find? (fun e => fl.getLsbD e && trapOn fctl e)

/-- The class 3 cause of exception `e` on a result of a format (R85). -/
def floatCause (f : Fmt) (e : Nat) : Cause := BitVec.ofNat 9 (0x060 + fmtCode f * 5 + e)

/-- A value with raised flags: the trap of the lowest enabled one, by `cause`, else the value and its flags (R84, R85). -/
def floatOut (fctl : Word) (cause : Nat → Cause) (v : BitVec 128) (fl : BitVec 8) (p : Bool := false) : LaneOut :=
  match firstEnabled fctl fl with
  | some e => { trap := some (cause e) }
  | none => { val := v, flags := fl, p := p }

end Sys2Proof.Machine
end

