-- ==== Sys2Proof/Machine/Control.lean ====
section
/-! DEFINITION. Group 0: control flow, block signatures, traps and special registers (R207 to R227). -/

namespace Sys2Proof.Machine

/-! ## Checking instructions -/

/-- The checks of R214: hash and mask of the issuing split. -/
def State.sigFault (s : State) (c : Ctx) (sig : BitVec 16) : Option IssueCause :=
  match s.waves[c.w]? with
  | none => none
  | some wv =>
    match wv.table.split? c.slot with
    | none => none
    | some sp =>
      if !s.checking wv || sp.nosig then none
      else if sp.hash ≠ sig then some ⟨0x1E0, (Mask.lowest sp.mask).val, sig ++ sp.hash⟩
      else if sp.mask ≠ sp.emask &&& ~~~wv.gone then some ⟨0x1E1, (Mask.lowest sp.mask).val, sp.mask⟩
      else none

/-- A PC-relative target: the next PC plus 12 times a signed offset (R43). -/
def target (pc : Word) {n : Nat} (ofs : BitVec n) : Word := pc + 12 + 12 * ofs.signExtend 32

/-- The split that issues a checking instruction takes the exemption of RTT.NOSIG no further (R225). -/
def State.useNosig (s : State) (c : Ctx) : State :=
  s.withWave c.w (fun wv => wv.withSplit c.slot (fun sp => { sp with nosig := false }))

/-- Divide for the issuing split, whose other lanes go to `npc` (R209), then the mismatch of a merge (R215). -/
def State.divide (s : State) (c : Ctx) (tm : Mask) (tpc npc r : Word) : State :=
  match s.waves[c.w]? with
  | none => s
  | some wv =>
    let t := wv.table.divide c.slot tm tpc npc r wv.gone (s.checking wv)
    (s.withWave c.w (fun wv => { wv with table := t.1 })).raiseMismatch c.w t.2 c.w0 c.w1 c.w2

/-- Whether the division fits the split table and the divergence stack (R210). -/
def State.divideFits (s : State) (c : Ctx) (tm : Mask) (r : Word) : Bool :=
  match s.waves[c.w]? with
  | none => true
  | some wv =>
    match wv.table.split? c.slot with
    | none => true
    | some sp => wv.table.divideFits sp tm r

/-- The end of a branch: the lanes that no cause names divide their split (R209). Lanes that fail a residue check twice stay in an
entry, and their split at the branch, so that it arrives nowhere before they are executed again or die (R73, R428, log entry 66). -/
def State.endBranch (s : State) (c : Ctx) (tm : Mask) (tpc r : Word) (bad : List LaneCause) : State :=
  match mainCause bad with
  | none => s.divide c tm tpc (c.pc + 12) r
  | some m =>
    let resume := match c.replay with | none => some (c.pc + 12) | some _ => none
    let stand := match c.replay with | none => c.pc | some _ => c.pc + 12
    (s.divide c tm tpc stand r).enterTrap c.w ⟨m.cause, m.lane.val, m.detail, c.pc, c.w0, c.w1, c.w2, c.slot, resume,
      some (c.entry 0 m.cause (causeMask bad) m.detail), none⟩

/-- The signature checks of a checking instruction; one that is executed again for lanes of an entry has made them. -/
def State.branchFault (s : State) (c : Ctx) (sig : BitVec 16) : Option IssueCause :=
  match c.replay with
  | none => s.sigFault c sig
  | some _ => none

/-- A branch (R214, R217, R218): signature checks, the divergence check, the effect on registers, then Divide. One that computes
(LOOP) has residue checks (R73). -/
def branch (h : Hdr) (sig : BitVec 16) (u : Uses) (taken : Ctx → Mask) (tgt r : Ctx → Word)
    (pre : Ctx → Wave → Wave := fun _ wv => wv) (arith : Bool := false) : State → Result :=
  issue h { u with precise := true, checking := true } (fun s c =>
    match s.branchFault c sig with
    | some x => s.raise c x
    | none =>
      let a := if arith then s.residueFails c else (s, [])
      let d := { c with exec := c.exec &&& ~~~causeMask a.2 }
      if s.divideFits d (taken d) (r d) then
        let s := a.1.withWave c.w (pre d)
        let s := if c.replay.isNone then s.useNosig c else s
        (s.retired c).endBranch c (taken d) (tgt d) (r d) a.2
      else s.raise c ⟨0x023, 0, 0⟩)

/-- A condition, counter or target register: consumed as a branch condition (R217). -/
def condUse (fld : Nat) (a : Src) : OpUse := { fld := fld, src := a, consume := some 2 }

/-- A target register: uniform as well (R217). -/
def targetUse (b : Src) : OpUse := { fld := 2, src := b, uniform := true, consume := some 2 }

/-- BRA (R218). -/
def execBra (h : Hdr) (f : BraF) : State → Result :=
  branch h f.sig {} (fun c => c.exec) (fun c => target c.pc f.tofs) (fun c => target c.pc f.rofs)

/-- BRC (R218). -/
def execBrc (h : Hdr) (z : Bool) (r : VNum) (f : BraF) : State → Result :=
  branch h f.sig { srcs := [condUse 3 (plainSrc r)] }
    (fun c => c.exec &&& maskOf fun L => (c.v 0 L == 0) == z)
    (fun c => target c.pc f.tofs) (fun c => target c.pc f.rofs)

/-- BRX (R219). -/
def execBrx (h : Hdr) (sig : BitVec 16) (rofs : BitVec 24) (b : Src) : State → Result :=
  branch h sig { srcs := [targetUse b] } (fun c => c.exec) (fun c => wordOf (c.u 0) 0) (fun c => target c.pc rofs)

/-- CALL (R220): the link register takes the next PC. -/
def execCall (h : Hdr) (sig : BitVec 16) (link : VNum) (t : CallTgt) : State → Result :=
  let pre (c : Ctx) (wv : Wave) : Wave :=
    wv.writeD c.dst c.exec (splat ((c.pc + 12).setWidth 128)) allClean .uni
  let d : Option (Dst × Nat) := some (.reg link .w32 0, 1)
  match t with
  | .direct tofs => branch h sig { dst := d } (fun c => c.exec) (fun c => target c.pc tofs) (fun c => c.pc + 12) pre
  | .reg b =>
    branch h sig { srcs := [targetUse b], dst := d } (fun c => c.exec) (fun c => wordOf (c.u 0) 0) (fun c => c.pc + 12) pre

/-- RET (R219). -/
def execRet (h : Hdr) (sig : BitVec 16) (rofs : BitVec 24) (b : Src) : State → Result :=
  branch h sig { srcs := [targetUse b] } (fun c => c.exec) (fun c => wordOf (c.u 0) 0) (fun c => target c.pc rofs)

/-- LOOP (R218): the counter is written first; a lane is taken when it is not zero. -/
def execLoop (h : Hdr) (r : VNum) (f : BraF) : State → Result :=
  let dec (c : Ctx) (L : Lane) : Word := wordOf (c.v 0 L) 0 - 1
  branch h f.sig { srcs := [condUse 3 (plainSrc r)], dst := some (.reg r .w32 0, 1) }
    (fun c => c.exec &&& maskOf fun L => dec c L != 0)
    (fun c => target c.pc f.tofs) (fun c => target c.pc f.rofs)
    (fun c wv => wv.writeD c.dst c.exec (perLane fun L => (dec c L).setWidth 128) (perLane fun L => c.poison L) c.uniTag)
    true

/-- The issuing split starts a new block at the next PC (R214). -/
def State.newBlockNext (s : State) (c : Ctx) : State × List Mismatch :=
  match s.waves[c.w]? with
  | none => (s, [])
  | some wv =>
    let wv := wv.withSplit c.slot Split.newBlock
    let t := wv.table.moveTo c.slot (c.pc + 12) wv.gone (s.checking wv)
    (s.withWave c.w (fun _ => { wv with table := t.1 }), t.2)

/-- SEAL (R221). -/
def execSeal (h : Hdr) (sig : BitVec 16) : State → Result :=
  issue h { checking := true } (fun s c =>
    match s.sigFault c sig with
    | some x => s.raise c x
    | none =>
      let r := ((s.useNosig c).retired c).newBlockNext c
      r.1.raiseMismatch c.w r.2 c.w0 c.w1 c.w2)

/-- EXIT (R212, R221): the EXEC lanes leave the wave; the rest goes on in a new block. -/
def execExit (h : Hdr) (sig : BitVec 16) : State → Result :=
  issue h { checking := true } (fun s c =>
    match s.sigFault c sig with
    | some x => s.raise c x
    | none =>
      let s := (s.useNosig c).retired c
      let a := if c.exec = 0 then (s, [])
        else
          let x := (s.withWave c.w (fun wv => { wv with live := wv.live &&& ~~~c.exec })).clearLanes c.w c.exec
          (x.1.noteKiller c.w c.exec c.w0 c.w1 c.w2, x.2)
      let goes := (((s.waves[c.w]?).bind (fun wv => wv.table.split? c.slot)).map (fun sp => sp.mask &&& ~~~c.exec)).getD 0
      let b := if goes = 0 then (a.1, []) else a.1.newBlockNext c
      (b.1.switchPoint c.w).raiseMismatch c.w (a.2 ++ b.2) c.w0 c.w1 c.w2)

/-! ## Form A of group 0 -/

/-- NOP (R51). -/
def execNop (h : Hdr) : State → Result := issue h {} (fun s c => s.finish c 0 c.causes)

/-- Whether SYNC may end: every register full, no lock, no CAS predicate to be written (R222). -/
def Wave.synced (wv : Wave) : Bool :=
  wv.regs.all (fun r => r.2.full) && wv.locks.isEmpty && wv.flights.all (fun f => f.pred.isNone)

/-- SYNC (R222). -/
def execSync (h : Hdr) : State → Result :=
  issue h {} (fun s c =>
    match s.waves[c.w]? with
    | none => s
    | some wv => if wv.synced then s.finish c 0 c.causes else s.stay)

/-- YIELD (R170, R174, R222). -/
def execYield (h : Hdr) : State → Result :=
  issue h {} (fun s c =>
    let s := s.withWave c.w (fun wv => { wv with
      table := { wv.table with slots := wv.table.slots.map (fun o => o.map (fun sp => { sp with yielded := true })) } })
    (s.switchPoint c.w).finish c 0 c.causes)

/-- TRAP (R223). -/
def execTrap (h : Hdr) (n : BitVec 5) : State → Result :=
  issue h {} (fun s c =>
    if c.exec = 0 then s.finish c 0 c.causes
    else (s.retired c).enterTrap c.w
      ⟨BitVec.ofNat 9 (0x1A0 + n.toNat), (Mask.lowest c.exec).val, c.exec, c.pc, c.w0, c.w1, c.w2, c.slot,
        some (c.pc + 12), none, none⟩)

/-- The lanes of the issuing split. -/
def State.ownMask (s : State) (c : Ctx) : Mask :=
  (((s.waves[c.w]?).bind (fun wv => wv.table.split? c.slot)).map (·.mask)).getD 0

/-- Whether an RTT would leave the wave with more than eight unfinished instructions: those of the handler in flight, and the
entries to be re-injected (R278, log entry 66). -/
def Wave.returnWaits (wv : Wave) : Bool :=
  decide (0 < wv.level ∧ 8 < (wv.flights.filter (fun f => f.entry.kind != 5 && f.entry.cause == 0)).length + wv.rq.length)

/-- RTT (R225); outside a handler it raises 0x1E3 for the lowest lane of its split (R215). -/
def execRtt (h : Hdr) (retry skip nosig : Bool) : State → Result :=
  issue h { hold := fun s w => ((s.waves[w]?).map (·.returnWaits)).getD false } (fun s c =>
    if c.exec = 0 then s.finish c 0 c.causes
    else if ((s.waves[c.w]?).map (·.level)).getD 0 = 0 then s.raise c ⟨0x1E3, (Mask.lowest (s.ownMask c)).val, 0⟩
    else (s.retired c).returnFromTrap c.w retry skip nosig c.w0 c.w1 c.w2)

/-- BKPT (R224): a debugger stop with the tag when breakpoints are enabled for the launch. -/
def execBkpt (h : Hdr) (tag : BitVec 14) : State → Result :=
  issue h {} (fun s c =>
    let on := (((s.waves[c.w]?).bind s.launchOf).map (·.bkpt)).getD false
    let s := s.finish c 0 c.causes
    if on ∧ c.exec ≠ 0 then s.stopWave c.w (some tag) else s)

/-- The operand of SRD. -/
def srdUses (w64 : Bool) (d : Dst) (n : BitVec 8) : Uses :=
  let k := if w64 then 2 else 1
  { srcs := [{ fld := 1, src := .spec n, n := k, elt := .value false (32 * k) }], dst := some (d, k)
    preds := if 0x40 ≤ n.toNat then [n.setWidth 3] else [] }

/-- SRD (R226). -/
def execSrd (h : Hdr) (w64 : Bool) (d : Dst) (n : BitVec 8) : State → Result :=
  laneOp h (srdUses w64 d n) Ctx.uniTag (fun _ c L => { val := c.v 0 L })

/-- The number of a register that SWR writes (R67). -/
def swrNum : SwrReg → Word
  | .fstat => 0x0F | .fctl => 0x10 | .fmt => 0x11 | .mflags => 0x12

/-- A value that SWR refuses (R69). -/
def swrBad (r : SwrReg) (m : Mask) (v : Lane → Word) : Bool :=
  let x := v (Mask.lowest m)
  match r with
  | .fctl => decide (x.extractLsb' 10 22 ≠ 0#22) || decide ((x.extractLsb' 0 3).toNat = 0 ∨ (x.extractLsb' 0 3).toNat > 5)
  | .fmt => decide (x.extractLsb' 10 22 ≠ 0#22) || decide ((x.extractLsb' 0 4).toNat > 12)
      || decide ((x.extractLsb' 4 4).toNat > 12)
  | .mflags => decide (x &&& ~~~0x1D ≠ 0)
  | .fstat => (Mask.lanes m).any (fun L =>
      decide ((v L).extractLsb' 8 24 ≠ 0#24) || (decide (L.val ≠ 0) && (v L).getLsbD 7))

/-- The write of SWR (R69, R227). -/
def swrWrite (r : SwrReg) (slot : Nat) (m : Mask) (v : Lane → Word) (wv : Wave) : Wave :=
  let x := v (Mask.lowest m)
  match r with
  | .fctl => { wv with fctl := x }
  | .fmt => wv.withSplit slot (fun sp => { sp with fmt := x.setWidth 10 })
  | .mflags => { wv with mflags := x }
  | .fstat => { wv with fstat := choose m (perLane v) wv.fstat }

/-- The operand of SWR, consumed as store data; uniform but for FSTAT. A refused value of any EXEC lane is a cause of stage 3,
before any poison is consumed (R69, R75, R427). -/
def swrUses (r : SwrReg) (a : Src) : Uses :=
  { srcs := [{ fld := 1, src := a, uniform := r != .fstat, consume := some 1 }]
    illegal := fun exec vals => match vals with
      | o :: _ => if exec ≠ 0 ∧ swrBad r exec (fun L => wordOf o.val[L] 0) = true then some ⟨0x024, 0, swrNum r⟩ else none
      | [] => none }

/-- SWR (R227): the source is consumed as store data; a refused value leaves the register unchanged (R69, R75). -/
def execSwr (h : Hdr) (r : SwrReg) (a : Src) : State → Result :=
  issue h (swrUses r a) (fun s c =>
    let v (L : Lane) : Word := wordOf (c.v 0 L) 0
    if c.exec = 0 then s.finish c 0 c.causes
    else (s.withWave c.w (swrWrite r c.slot c.exec v)).finish c 0 c.causes)

end Sys2Proof.Machine
end

