-- ==== Sys2Proof/Machine/Integer.lean ====
section
/-! DEFINITION. Groups 1 and 2: integer arithmetic, logic and bits (R94 to R108). -/

namespace Sys2Proof.Machine

/-! ## Shared shapes -/

/-- The tag of IADD, ISUB and IMUL (R60): AFF when one source is AFF and the other UNI, under a 32-bit type without SAT. -/
def affTag (t : IType) (sat : Bool) (c : Ctx) : Tag :=
  match (c.src 0).tag, (c.src 1).tag with
  | .aff, .uni | .uni, .aff => if t.is32 && !sat then .aff else .gen
  | .uni, .uni => .uni
  | .aff, .aff | .gen, _ | _, .gen => .gen

/-- Two sources and a result of one type (R99). -/
def int2Uses (o : IntOp) : Uses := { srcs := [intUse 1 o.ty o.a, intUse 2 o.ty o.b], dst := some (o.d, o.ty.regs) }

/-- A two-source operation of one type (R100). -/
def int2 (h : Hdr) (o : IntOp) (tag : Ctx → Tag) (f : Word → Int → Int → LaneOut) : State → Result :=
  laneOp h (int2Uses o) tag
    (fun s c L => f (s.fctl c) (o.ty.read (c.v 0 L)) (o.ty.read (c.v 1 L)))

/-- One source and a result of one type (R99). -/
def int1Uses (o : IntUn) : Uses := { srcs := [intUse 1 o.ty o.a], dst := some (o.d, o.ty.regs) }

/-- A one-source operation of one type (R100). -/
def int1 (h : Hdr) (o : IntUn) (f : Int → Int) : State → Result :=
  laneOp h (int1Uses o) Ctx.uniTag
    (fun s c L => intResult (s.fctl c) o.ty o.sat (f (o.ty.read (c.v 0 L))))

/-- Three sources and a result of one type (R99). -/
def int3Uses (o : IntTri) : Uses :=
  { srcs := [intUse 1 o.ty o.a, intUse 2 o.ty o.b, intUse 3 o.ty (plainSrc o.c)], dst := some (o.d, o.ty.regs) }

/-- A three-source operation of one type (R100). -/
def int3 (h : Hdr) (o : IntTri) (f : Int → Int → Int → Int) : State → Result :=
  laneOp h (int3Uses o) Ctx.uniTag
    (fun s c L => intResult (s.fctl c) o.ty o.sat (f (o.ty.read (c.v 0 L)) (o.ty.read (c.v 1 L)) (o.ty.read (c.v 2 L))))

/-! ## Group 1 -/

/-- IADD (R100). -/
def execIadd (h : Hdr) (o : IntOp) : State → Result :=
  int2 h o (affTag o.ty o.sat) (fun fctl a b => intResult fctl o.ty o.sat (a + b))

/-- The operands of IADD.I. -/
def iaddIUses (o : IntImm) : Uses := { srcs := [intUse 1 o.ty (plainSrc o.src)], dst := some (o.d, 1) }

/-- IADD.I (R104). -/
def execIaddI (h : Hdr) (o : IntImm) : State → Result :=
  laneOp h (iaddIUses o)
    (fun c => if (c.src 0).tag = .aff ∧ o.sat = true then .gen else (c.src 0).tag)
    (fun s c L => intResult (s.fctl c) o.ty o.sat (o.ty.read (c.v 0 L) + o.ty.read (o.imm.setWidth 128)))

/-- ISUB (R100). -/
def execIsub (h : Hdr) (o : IntOp) : State → Result :=
  int2 h o (affTag o.ty o.sat) (fun fctl a b => intResult fctl o.ty o.sat (a - b))

/-- The operands of IADDC and ISUBB: A and B decide a predicate, so each is consumed as a branch condition (R98).
An element is zero-extended, of a signed type too (log entry 27). -/
def carryUses (o : CarryOp) : Uses :=
  { srcs := [{ fld := 1, src := o.a, consume := some 2 }, { fld := 2, src := o.b, consume := some 2 }]
    dst := some (o.d, 1), preds := (if o.ci0 then [] else [o.cip]) ++ [o.cop] }

/-- The carry-in of a lane (R102). -/
def carryIn (s : State) (c : Ctx) (o : CarryOp) (L : Lane) : Int :=
  if o.ci0 then 0 else if (s.predOf c o.cip).has L then 1 else 0

/-- IADDC and ISUBB (R102); `f` gives the exact sum. -/
def carryOp (h : Hdr) (o : CarryOp) (f : Int → Int → Int → Int) : State → Result :=
  laneOp h (carryUses o) (fun c => if o.ci0 then c.uniTag else .gen)
    (fun s c L =>
      let x := f (IType.ui32.read (c.v 0 L)) (IType.ui32.read (c.v 1 L)) (carryIn s c o L)
      { val := BitVec.ofInt 32 x |>.setWidth 128, p := decide (x < 0 ∨ 2 ^ 32 ≤ x) })
    (some o.cop)

/-- IADDC (R102). -/
def execIaddc (h : Hdr) (o : CarryOp) : State → Result := carryOp h o (fun a b i => a + b + i)

/-- ISUBB (R102). -/
def execIsubb (h : Hdr) (o : CarryOp) : State → Result := carryOp h o (fun a b i => a - b - i)

/-- IMUL (R100). -/
def execImul (h : Hdr) (o : IntOp) : State → Result :=
  int2 h o (affTag o.ty o.sat) (fun fctl a b => intResult fctl o.ty o.sat (a * b))

/-- IMULH (R100): the floor of the product over 2^w. -/
def execImulh (h : Hdr) (o : IntOp) : State → Result :=
  int2 h o Ctx.uniTag (fun fctl a b => intResult fctl o.ty o.sat ((a * b).fdiv (2 ^ o.ty.width)))

/-- IMAD (R100). -/
def execImad (h : Hdr) (o : IntTri) : State → Result := int3 h o (fun a b c => a * b + c)

/-- The operands of IMADW: C and D are pairs (R103). -/
def imadwUses (o : IntTri) : Uses :=
  { srcs := [intUse 1 o.ty o.a, intUse 2 o.ty o.b, { fld := 3, src := plainSrc o.c, n := 2, elt := .value false 128 }]
    dst := some (o.d, 2) }

/-- IMADW (R103): the product of two words and a pair. -/
def execImadw (h : Hdr) (o : IntTri) : State → Result :=
  laneOp h (imadwUses o) Ctx.uniTag
    (fun _ c L => { val := BitVec.ofInt 64 (o.ty.read (c.v 0 L) * o.ty.read (c.v 1 L) + (c.v 2 L).toNat) |>.setWidth 128 })

/-- IDIV (R101). -/
def execIdiv (h : Hdr) (o : IntOp) : State → Result := int2 h o Ctx.uniTag (fun fctl => divResult fctl o.ty false)

/-- IREM (R101). -/
def execIrem (h : Hdr) (o : IntOp) : State → Result := int2 h o Ctx.uniTag (fun fctl => divResult fctl o.ty true)

/-- IABS (R100). -/
def execIabs (h : Hdr) (o : IntUn) : State → Result := int1 h o (fun a => a.natAbs)

/-- INEG (R100). -/
def execIneg (h : Hdr) (o : IntUn) : State → Result := int1 h o (fun a => -a)

/-- IMIN (R100). -/
def execImin (h : Hdr) (o : IntOp) : State → Result :=
  int2 h o Ctx.uniTag (fun fctl a b => intResult fctl o.ty o.sat (if a ≤ b then a else b))

/-- IMAX (R100). -/
def execImax (h : Hdr) (o : IntOp) : State → Result :=
  int2 h o Ctx.uniTag (fun fctl a b => intResult fctl o.ty o.sat (if a ≤ b then b else a))

/-- IADD3 (R100). -/
def execIadd3 (h : Hdr) (o : IntTri) : State → Result := int3 h o (fun a b c => a + b + c)

/-- The operands of ISAD: C and D are single (R99). -/
def isadUses (o : IntTri) : Uses :=
  { srcs := [intUse 1 o.ty o.a, intUse 2 o.ty o.b, { fld := 3, src := plainSrc o.c }], dst := some (o.d, 1) }

/-- ISAD (R99, R100): a 32-bit result whatever T; C is read as UI32. -/
def execIsad (h : Hdr) (o : IntTri) : State → Result :=
  laneOp h (isadUses o) Ctx.uniTag
    (fun _ c L => { val := BitVec.ofNat 32 ((o.ty.read (c.v 0 L) - o.ty.read (c.v 1 L)).natAbs + (c.v 2 L).toNat)
                            |>.setWidth 128 })

/-- The operands of LEA: A and D are pairs (R103). -/
def leaUses (o : LeaOp) : Uses :=
  { srcs := [{ fld := 1, src := o.a, n := 2, elt := .value false 128 }, intUse 2 o.ty o.b, { fld := 3, src := plainSrc o.c }]
    dst := some (o.d, 2) }

/-- LEA (R103): base plus scaled index plus a sign-extended offset. -/
def execLea (h : Hdr) (o : LeaOp) : State → Result :=
  laneOp h (leaUses o) Ctx.uniTag
    (fun _ c L =>
      let sh : Nat := if o.sc = 0 then 0 else o.sc.toNat + 1
      { val := BitVec.ofInt 64 ((c.v 0 L).toNat + o.ty.read (c.v 1 L) * 2 ^ sh + IType.si32.read (c.v 2 L))
                |>.setWidth 128 })

/-! ## Group 2 -/

/-- Whether a truth table depends on its third input (R105). -/
def readsOld (tt : BitVec 8) : Bool := tt.extractLsb' 0 4 != tt.extractLsb' 4 4

/-- The bitwise look-up of BLUT (R105). -/
def blut (tt : BitVec 8) (a b c : BitVec 128) : BitVec 128 :=
  (List.range 8).foldl (fun r j =>
    if tt.getLsbD j then
      r ||| ((if j % 2 = 1 then a else ~~~a) &&& (if j / 2 % 2 = 1 then b else ~~~b) &&& (if j / 4 = 1 then c else ~~~c))
    else r) 0

/-- The operands of BLUT: the old destination only where the table depends on it (R105). -/
def blutUses (o : BlutOp) : Uses :=
  { srcs := [intUse 1 o.ty o.a, intUse 2 o.ty o.b] ++ (if readsOld o.tt then [intUse 0 o.ty o.d.asSrc] else [])
    dst := some (o.d, o.ty.regs) }

/-- BLUT (R105). -/
def execBlut (h : Hdr) (o : BlutOp) : State → Result :=
  laneOp h (blutUses o) Ctx.uniTag
    (fun _ c L => { val := o.ty.write (blut o.tt (c.v 0 L) (c.v 1 L) (c.v 2 L)).toInt })

/-- The operands of BLUT.I. -/
def blutIUses (o : BlutImm) : Uses :=
  { srcs := [intUse 1 o.ty (plainSrc o.src)] ++ (if readsOld o.tt then [intUse 0 o.ty o.d.asSrc] else [])
    dst := some (o.d, 1) }

/-- BLUT.I (R105). -/
def execBlutI (h : Hdr) (o : BlutImm) : State → Result :=
  laneOp h (blutIUses o) Ctx.uniTag
    (fun _ c L => { val := o.ty.write (blut o.tt (c.v 0 L) (o.imm.setWidth 128) (c.v 1 L)).toInt })

/-- A source of the type and a single B (R106). -/
def log2Uses (o : LogOp) : Uses := { srcs := [intUse 1 o.ty o.a, { fld := 2, src := o.b }], dst := some (o.d, o.ty.regs) }

/-- One source, and a result of `n` registers (R106, R109). -/
def log1Uses (o : LogUn) (n : Nat) : Uses := { srcs := [intUse 1 o.ty o.a], dst := some (o.d, n) }

/-- `a` and `c` of the type and a single B (R106). -/
def log3Uses (ty : IType) (d : Dst) (a b : Src) (c : VNum) : Uses :=
  { srcs := [intUse 1 ty a, { fld := 2, src := b }, intUse 3 ty (plainSrc c)], dst := some (d, ty.regs) }

/-- A two-source operation of group 2: `a` as `w` bits and the single B as an unsigned number (R106). -/
def log2op (h : Hdr) (o : LogOp) (f : Nat → Nat → Nat → Int) : State → Result :=
  laneOp h (log2Uses o) Ctx.uniTag
    (fun _ c L => { val := o.ty.write (f o.ty.width ((c.v 0 L).toNat % 2 ^ o.ty.width) (c.v 1 L).toNat) })

/-- A one-source operation of group 2 whose result has `n` registers (R106). -/
def log1op (h : Hdr) (o : LogUn) (n : Nat) (f : Nat → Nat → Nat) : State → Result :=
  laneOp h (log1Uses o n) Ctx.uniTag
    (fun _ c L => { val := BitVec.ofNat 128 (f o.ty.width ((c.v 0 L).toNat % 2 ^ o.ty.width)) })

/-- A three-source operation of group 2: `a` and `c` of the type, B single (R106). -/
def log3op (h : Hdr) (ty : IType) (d : Dst) (a b : Src) (c : VNum) (f : Nat → Nat → Nat → Nat → Nat) : State → Result :=
  laneOp h (log3Uses ty d a b c) Ctx.uniTag
    (fun _ x L => { val := ty.write (f ty.width ((x.v 0 L).toNat % 2 ^ ty.width) (x.v 1 L).toNat
                                       ((x.v 2 L).toNat % 2 ^ ty.width)) })

/-- SHL (R106). -/
def execShl (h : Hdr) (o : LogOp) : State → Result :=
  log2op h o (fun w a n => if n ≥ w then 0 else (a : Int) * 2 ^ n)

/-- SHR (R106). -/
def execShr (h : Hdr) (o : LogOp) : State → Result :=
  log2op h o (fun w a n => if n ≥ w then 0 else ((a / 2 ^ n : Nat) : Int))

/-- SAR (R106). -/
def execSar (h : Hdr) (o : LogOp) : State → Result :=
  log2op h o (fun w a n => (sextInt w a).fdiv (2 ^ (if n ≥ w then w else n)))

/-- ROT (R106). -/
def execRot (h : Hdr) (o : LogOp) : State → Result :=
  log2op h o (fun w a n => ((a * 2 ^ (n % w) + a / 2 ^ (w - n % w) : Nat) : Int))

/-- FUNL (R106): a word of the pair C:A, shifted up or down. -/
def execFunl (h : Hdr) (o : FunlOp) : State → Result :=
  log3op h o.ty o.d o.a o.b o.c (fun _ a n c =>
    let y := c * 2 ^ 32 + a
    if o.dn then y / 2 ^ (n % 32) else y * 2 ^ (n % 32) / 2 ^ 32 % 2 ^ 32)

/-- The position and length in a BFE or BFI control word (R107). -/
def bitField (w ctl : Nat) : Nat × Nat := (ctl % 256, min (ctl / 256 % 256) w)

/-- BFE (R107). -/
def execBfe (h : Hdr) (o : LogOp) : State → Result :=
  log2op h o (fun w a ctl =>
    let p := bitField w ctl
    if p.2 = 0 then 0
    else
      let src : Int := if o.ty.signed then sextInt w a else (a : Int)
      let field : Int := src.fdiv (2 ^ p.1) % 2 ^ p.2
      if o.ty.signed then sextInt p.2 field.toNat else field)

/-- BFI (R107). -/
def execBfi (h : Hdr) (o : LogTri) : State → Result :=
  log3op h o.ty o.d o.a o.b o.c (fun w a ctl c =>
    let p := bitField w ctl
    let m := (2 ^ p.2 - 1) * 2 ^ p.1 % 2 ^ w
    if p.2 = 0 ∨ p.1 ≥ w then c else (c ^^^ (c &&& m)) ||| (a * 2 ^ p.1 &&& m))

/-- POPC (R106): D is single. -/
def execPopc (h : Hdr) (o : LogUn) : State → Result :=
  log1op h o 1 (fun w a => ((List.range w).filter (fun i => a.testBit i)).length)

/-- CLZ (R106): D is single. -/
def execClz (h : Hdr) (o : LogUn) : State → Result :=
  log1op h o 1 (fun w a => w - bitLen a)

/-- CTZ (R106): D is single. -/
def execCtz (h : Hdr) (o : LogUn) : State → Result :=
  log1op h o 1 (fun w a => ((List.range w).find? (fun i => a.testBit i)).getD w)

/-- BREV (R106). -/
def execBrev (h : Hdr) (o : LogUn) : State → Result :=
  log1op h o o.ty.regs (fun w a => (List.range w).foldl (fun r i => 2 * r + (if a.testBit i then 1 else 0)) 0)

/-- One result byte of BSEL: the selector byte and the eight bytes of C:A (R108). -/
def bselByte (sel y : Nat) : Nat :=
  let b := y / 2 ^ (8 * (sel % 8)) % 256
  match sel / 8 % 4 with
  | 0 => b
  | 1 => 0
  | 2 => if b ≥ 128 then 255 else 0
  | _ => 255

/-- BSEL (R108). -/
def execBsel (h : Hdr) (o : LogTri) : State → Result :=
  log3op h o.ty o.d o.a o.b o.c (fun _ a sel c =>
    (List.range 4).foldl (fun r i => r + bselByte (sel / 2 ^ (8 * i) % 256) (c * 2 ^ 32 + a) * 2 ^ (8 * i)) 0)

end Sys2Proof.Machine
end

