-- ==== Sys2Proof/Machine/Select.lean ====
section
/-! DEFINITION. Group 3: compare, select, move and shape (R109 to R117). -/

namespace Sys2Proof.Machine

/-- MOV (R109): a whole register keeps its tag. -/
def execMov (h : Hdr) (o : LogUn) : State → Result :=
  laneOp h (log1Uses o o.ty.regs) (fun c => (c.src 0).tag)
    (fun _ c L => { val := o.ty.write (o.ty.read (c.v 0 L)) })

/-- An instruction without sources and with a result of `n` registers. -/
def dstUses (d : Dst) (n : Nat) : Uses := { dst := some (d, n) }

/-- MOVI (R109). -/
def execMovi (h : Hdr) (o : MoviOp) : State → Result :=
  laneOp h (dstUses o.d 1) (fun _ => .uni) (fun _ _ _ => { val := o.imm.setWidth 128 })

/-- The operands of SEL: C is single (R110). -/
def selUses (o : LogTri) : Uses :=
  { srcs := [intUse 1 o.ty o.a, intUse 2 o.ty o.b, { fld := 3, src := plainSrc o.c }], dst := some (o.d, o.ty.regs) }

/-- SEL (R110). -/
def execSel (h : Hdr) (o : LogTri) : State → Result :=
  laneOp h (selUses o) Ctx.uniTag
    (fun _ c L => { val := o.ty.write (o.ty.read (if c.v 2 L ≠ 0 then c.v 0 L else c.v 1 L)) })

/-! ## Compares -/

/-- The join of a relation's result with the combining predicate (R112). -/
def cmpJoin (j : JoinOp) (r p : Bool) : Bool :=
  match j with
  | .and => r && p
  | .or => r || p
  | .xor => r ^^ p
  | .andNot => r && !p

/-- Whether a relation set holds for an outcome (R112). -/
def relHolds (rel : BitVec 3) (o : Ordering) : Bool :=
  match o with
  | .lt => rel.getLsbD 0
  | .eq => rel.getLsbD 1
  | .gt => rel.getLsbD 2

/-- The operands of ICMP, consumed as branch conditions (R98). -/
def icmpUses (o : IcmpOp) : Uses :=
  { srcs := [{ intUse 1 o.ty o.a with consume := some 2 }, { intUse 2 o.ty o.b with consume := some 2 }]
    preds := [o.d, o.f.pc] }

/-- The operands of ICMP.I. -/
def icmpIUses (o : IcmpImm) : Uses :=
  { srcs := [{ intUse 1 o.ty (plainSrc o.src) with consume := some 2 }], preds := [o.d, o.f.pc] }

/-- The operands of FCMP. -/
def fcmpUses (o : FcmpOp) : Uses :=
  { srcs := [{ fltUse 1 o.ty o.a with consume := some 2 }, { fltUse 2 o.ty o.b with consume := some 2 }]
    preds := [o.d, o.f.pc] }

/-- ICMP (R112). -/
def execIcmp (h : Hdr) (o : IcmpOp) : State → Result :=
  laneOp h (icmpUses o) Ctx.uniTag
    (fun s c L =>
      { p := cmpJoin o.f.comb (relHolds o.f.rel (compare (o.ty.read (c.v 0 L)) (o.ty.read (c.v 1 L))))
               ((s.predOf c o.f.pc).has L) })
    (some o.d)

/-- ICMP.I (R112). -/
def execIcmpI (h : Hdr) (o : IcmpImm) : State → Result :=
  laneOp h (icmpIUses o) Ctx.uniTag
    (fun s c L =>
      { p := cmpJoin o.f.comb (relHolds o.f.rel (compare (o.ty.read (c.v 0 L)) (o.ty.read (o.imm.setWidth 128))))
               ((s.predOf c o.f.pc).has L) })
    (some o.d)

/-- Whether a compare signals on quiet NaNs: LT, LE, GT, GE with U = 0 (R113). -/
def signalling (rel : BitVec 3) (u : Bool) : Bool := !u && (rel == 1 || rel == 3 || rel == 4 || rel == 6)

/-- One lane of FCMP (R113). -/
def fcmpLane (fctl : Word) (f : Fmt) (o : FcmpOp) (p : Bool) (x y : Nat) : LaneOut :=
  if o.tot then { p := cmpJoin o.f.comb (relHolds o.f.rel (compare (f.key x) (f.key y))) p }
  else
    let r := match f.cmp x y with | some q => relHolds o.f.rel q | none => o.u
    let sig := signalling o.f.rel o.u
    let fl := if sig then flag (f.cmp x y).isNone flIV else f.snanFlag [x, y]
    floatOut fctl (fun e => if sig then 0x07F else floatCause f e) 0 fl (cmpJoin o.f.comb r p)

/-- FCMP (R113). -/
def execFcmp (h : Hdr) (o : FcmpOp) : State → Result :=
  laneOp h (fcmpUses o) Ctx.uniTag
    (fun s c L => fcmpLane (s.fctl c) (fmtOf o.ty) o ((s.predOf c o.f.pc).has L) (c.v 0 L).toNat (c.v 1 L).toNat)
    (some o.d)

/-! ## Predicates -/

/-- A predicate named by a class 10 source field (R37). -/
def predSrc (p : PNum) : Src := .spec (0x40 + p.setWidth 8)

/-- The operands of PLUT. -/
def plutUses (o : PlutOp) : Uses :=
  { srcs := [{ fld := 1, src := predSrc o.pa }, { fld := 2, src := predSrc o.pb }], preds := [o.pc, o.d, o.pa, o.pb] }

/-- PLUT (R114). -/
def execPlut (h : Hdr) (o : PlutOp) : State → Result :=
  laneOp h (plutUses o) Ctx.uniTag
    (fun s c L =>
      { p := o.tt.getLsbD ((if (s.predOf c o.pc).has L then 4 else 0) + (c.v 1 L).toNat * 2 + (c.v 0 L).toNat) })
    (some o.d)

/-- The bits of PSAVE in a lane (R115): P0 to P6, and PT in bit 7. -/
def predWord (wv : Wave) (L : Lane) : Word :=
  (List.range 7).foldl (fun v i => if (wv.pred (BitVec.ofNat 3 i)).has L then v ||| (1#32 <<< i) else v) 0x80

/-- The operands of PSAVE. -/
def psaveUses (d : Dst) : Uses := { dst := some (d, 1), preds := [0, 1, 2, 3, 4, 5, 6] }

/-- PSAVE (R115). -/
def execPsave (h : Hdr) (d : Dst) : State → Result :=
  laneOp h (psaveUses d) (fun _ => .gen)
    (fun s c L => { val := (((s.waves[c.w]?).map (fun wv => predWord wv L)).getD 0).setWidth 128 })

/-- The predicates whose mask bit is set, written in lanes `m` from the bits of `v` (R115). -/
def Wave.loadPreds (wv : Wave) (mask : BitVec 7) (m : Mask) (v : Lanes Word) : Wave :=
  (List.range 7).foldl (fun w i =>
    if mask.getLsbD i then w.setPred (BitVec.ofNat 3 i) m (maskOf fun L => v[L].getLsbD i) else w) wv

/-- The operands of PLOAD. -/
def ploadUses (mask : BitVec 7) (a : Src) : Uses :=
  { srcs := [{ fld := 1, src := a, consume := some 2 }]
    preds := ((List.range 7).filter (fun i => mask.getLsbD i)).map (BitVec.ofNat 3) }

/-- PLOAD (R115). -/
def execPload (h : Hdr) (mask : BitVec 7) (a : Src) : State → Result :=
  issue h (ploadUses mask a)
    (fun s c => (s.withWave c.w (fun wv => wv.loadPreds mask c.exec (perLane fun L => wordOf (c.v 0 L) 0))).finish c 0
      c.causes)

/-! ## Shape -/

/-- The code of a shape tag (R116). -/
def Tag.code : Tag → Nat
  | .uni => 0 | .aff => 1 | .gen => 2

/-- The operands of SHAPE. -/
def shapeUses (d : Dst) (a : Src) : Uses := { srcs := [{ fld := 1, src := a }], dst := some (d, 1) }

/-- The source of SHAPE.Q: a register whose PAT and AMT have no effect. -/
def shapeSrc : Src → Src
  | .reg r _ fe => plainSrc r fe
  | .ind x o st fe => .ind x o st fe
  | .spec n => .spec n
  | .imm v => .imm v

/-- SHAPE.Q (R116): the tag of a register. -/
def shapeQ (h : Hdr) (d : Dst) (a : Src) : State → Result :=
  let r : Nat := match a with
    | .reg r _ _ => r.toNat
    | .ind _ _ _ _ | .spec _ | .imm _ => 0
  laneOp h (shapeUses d (shapeSrc a)) (fun _ => .uni)
    (fun s c _ => { val := BitVec.ofNat 128 (Tag.code (((s.waves[c.w]?).map (fun wv => (wv.reg r).tag)).getD .gen)) })
    none (some (fun _ _ => .clean))

/-- SHAPE.U (R116): the lowest lane's value and poison in every lane. -/
def shapeU (h : Hdr) (d : Dst) (a : Src) : State → Result :=
  laneOp h (shapeUses d a) (fun _ => .uni)
    (fun _ c _ => { val := c.u 0 }) none (some (fun c _ => (c.src 0).poison[Mask.lowest c.exec]))

/-- SHAPE (R116). -/
def execShape (h : Hdr) (u : Bool) (d : Dst) (a : Src) : State → Result := if u then shapeU h d a else shapeQ h d a

/-- The operands of AFFINE: both uniform (R117). -/
def affineUses (d : Dst) (a b : Src) : Uses :=
  { srcs := [{ fld := 1, src := a, uniform := true }, { fld := 2, src := b, uniform := true }], dst := some (d, 1) }

/-- AFFINE (R117). -/
def execAffine (h : Hdr) (d : Dst) (a b : Src) : State → Result :=
  laneOp h (affineUses d a b) (fun _ => .aff)
    (fun _ c L => { val := (wordOf (c.v 0 L) 0 + BitVec.ofNat 32 L.val * wordOf (c.v 1 L) 0).setWidth 128 })

end Sys2Proof.Machine
end

