-- ==== Sys2Proof/Machine/Index.lean ====
section
/-! DEFINITION. Group 7: index registers (R142 to R158). -/

namespace Sys2Proof.Machine

/-- Index register `x` changed. -/
def Wave.withX (wv : Wave) (x : XNum) (f : XReg → XReg) : Wave :=
  { wv with xregs := wv.xregs.setIfInBounds x.toNat (f (wv.xreg x)) }

/-- A descriptor that XSET refuses (R142, R154). -/
def descBad (v : Word) : Bool :=
  let bound := (v.extractLsb' 8 9).toNat
  decide (v.extractLsb' 23 9 ≠ 0#9) || decide ((v.extractLsb' 21 2).toNat > 1) || bound == 0 || decide (bound > 256)
    || decide ((v.extractLsb' 0 8).toNat + bound > 256)

/-- The operand of XSET: uniform, consumed as an address (R154). -/
def xsetUses (a : Src) : Uses := { srcs := [{ fld := 1, src := a, uniform := true, consume := some 0 }] }

/-- The operand of XIDX and XADD, consumed as an address (R155). -/
def xidxUses (a : Src) : Uses := { srcs := [{ fld := 1, src := a, consume := some 0 }] }

/-- The index steps of the instruction's own operand made at issue, before its effect (R148, log entry 32). -/
def State.stepFirst (s : State) (c : Ctx) (k : State → Ctx → State) : State :=
  match c.replay with
  | some _ => k s c
  | none => k (s.withWave c.w (fun wv => wv.stepAll c.exec0 c.uses.steps)) { c with uses := { c.uses with stepped := true } }

/-- XSET (R154): under RACE in any lane it stops and writes nothing, and the lanes of RACE stay in its entry (R428). -/
def execXset (h : Hdr) (x : XNum) (z : Bool) (a : Src) : State → Result :=
  issue h (xsetUses a) (fun s c =>
    let v := wordOf (c.u 0) 0
    if c.exec = 0 ∨ c.causes ≠ [] then s.finish c 0 c.causes
    else if descBad v then s.raise c (c.issueCause (BitVec.ofNat 9 (0x058 + x.toNat)) v)
    else s.stepFirst c (fun s c =>
      (s.withWave c.w (fun wv => wv.withX x (fun r =>
        { desc := v, idx := if z then choose c.exec (splat 0) r.idx else r.idx }))).finish c 0 c.causes))

/-- XIDX and XADD (R155): `f` gives the new index from the old one and the operand. -/
def indexOp (h : Hdr) (x : XNum) (a : Src) (f : Int → Int → Int) : State → Result :=
  issue h (xidxUses a) (fun s c => s.stepFirst c (fun s c =>
    let r := s.residueFails c
    let m := c.exec &&& ~~~causeMask r.2
    (r.1.withWave c.w (fun wv => wv.withX x (fun r =>
      { r with idx := perLane fun L =>
          if m.has L then BitVec.ofNat 8 (r.reduce (f r.idx[L].toNat (wordOf (c.v 0 L) 0).toInt)) else r.idx[L] }))).finish
      c 0 (c.causes ++ r.2)))

/-- XIDX (R155). -/
def execXidx (h : Hdr) (x : XNum) (a : Src) : State → Result := indexOp h x a (fun _ v => v)

/-- XADD (R155). -/
def execXadd (h : Hdr) (x : XNum) (a : Src) : State → Result := indexOp h x a (fun i v => i + v)

/-- XRD (R156): the descriptor, or each lane's index. -/
def execXrd (h : Hdr) (x : XNum) (i : Bool) (d : Dst) : State → Result :=
  laneOp h (dstUses d 1) (fun _ => if i then .gen else .uni)
    (fun s c L =>
      match s.waves[c.w]? with
      | none => {}
      | some wv => { val := if i then (wv.xreg x).idx[L].setWidth 128 else (wv.xreg x).desc.setWidth 128 })

/-- The index registers of a mask cleared in lanes `m` (R157). -/
def Wave.clearX (wv : Wave) (mask : BitVec 8) (m : Mask) : Wave :=
  (List.range 8).foldl (fun w i =>
    if mask.getLsbD i then w.withX (BitVec.ofNat 3 i) (fun r => ⟨0x100, choose m (splat 0) r.idx⟩) else w) wv

/-- XCLR (R157). -/
def execXclr (h : Hdr) (mask : BitVec 8) : State → Result :=
  issue h {} (fun s c =>
    (if c.exec = 0 then s else s.withWave c.w (fun wv => wv.clearX mask c.exec)).finish c 0 c.causes)

end Sys2Proof.Machine
end

