-- ==== Sys2Proof/WellFormed.lean ====
section
/-! DEFINITION. An instruction is well formed when its field values raise no class 0 cause of their own. -/

namespace Sys2Proof

/-- Every field holds a value that the instruction's entry accepts (R36 to R49, R53). -/
abbrev WellFormed (i : Instr) : Prop := i.faults = []

/-- The same as a check that runs. -/
def wellFormed (i : Instr) : Bool := i.faults.isEmpty

end Sys2Proof
end

