-- ==== Sys2Proof/Decode.lean ====
section
/-! DEFINITION. From a 96-bit word to an instruction or the lowest-numbered encoding cause (R26 to R56), and back. -/

namespace Sys2Proof

/-- A 96-bit instruction word, word 0 in [31:0] (R10, R31). -/
abbrev IWord := BitVec 96

/-! ## Reading a field: a value and the faults of its bits -/

/-- What a field's bits say, and the encoding faults that its bits alone show; a reserved code reads as a default value. -/
structure Parsed (α : Type) where
  val : α
  faults : List Cause := []

/-- `c` when the bits are not zero. -/
def mbz {n : Nat} (x : BitVec n) (c : Cause) : List Cause := if x = 0 then [] else [c]

/-- Integer type codes (R48). -/
def iTypeOf (c : BitVec 4) : Parsed IType :=
  if c = 0 then ⟨.si32, []⟩ else if c = 1 then ⟨.ui32, []⟩ else if c = 2 then ⟨.si16, []⟩
  else if c = 3 then ⟨.ui16, []⟩ else if c = 4 then ⟨.si8, []⟩ else if c = 5 then ⟨.ui8, []⟩
  else if c = 6 then ⟨.si64, []⟩ else if c = 7 then ⟨.ui64, []⟩ else if c = 8 then ⟨.si4, []⟩
  else if c = 9 then ⟨.ui4, []⟩ else ⟨.si32, [0x00D]⟩

/-- Element type codes (R48). -/
def eTypeOf (c : BitVec 4) : Parsed EType :=
  if c = 0 then ⟨.f32, []⟩ else if c = 1 then ⟨.f16, []⟩ else if c = 2 then ⟨.bf16, []⟩
  else if c = 3 then ⟨.f16x2, []⟩ else if c = 4 then ⟨.bf16x2, []⟩ else if c = 5 then ⟨.f64, []⟩
  else if c = 6 then ⟨.kf8e4, []⟩ else if c = 7 then ⟨.kf8e5, []⟩ else if c = 8 then ⟨.kf4, []⟩
  else if c = 9 then ⟨.si8, []⟩ else if c = 10 then ⟨.ui8, []⟩ else if c = 11 then ⟨.si4, []⟩
  else if c = 12 then ⟨.ui4, []⟩ else ⟨.f32, [0x00D]⟩

/-- Group 5's short type (R125). -/
def shortOf (c : BitVec 3) : Parsed EType :=
  if c = 0 then ⟨.f32, []⟩ else if c = 1 then ⟨.f16, []⟩ else if c = 2 then ⟨.bf16, []⟩
  else if c = 3 then ⟨.f16x2, []⟩ else if c = 4 then ⟨.bf16x2, []⟩ else ⟨.f32, [0x00D]⟩

/-- Rounding codes (R49). -/
def rndOf (c : BitVec 3) : Parsed Rnd :=
  if c = 0 then ⟨.dyn, []⟩ else if c = 1 then ⟨.rne, []⟩ else if c = 2 then ⟨.rtz, []⟩
  else if c = 3 then ⟨.rup, []⟩ else if c = 4 then ⟨.rdn, []⟩ else if c = 5 then ⟨.rna, []⟩
  else ⟨.dyn, [0x00A]⟩

/-- Scope codes (R45). -/
def scopeOf (c : BitVec 4) : Parsed Scope :=
  if c = 0 then ⟨.ln, []⟩ else if c = 1 then ⟨.wv, []⟩ else if c = 2 then ⟨.gp, []⟩ else if c = 3 then ⟨.co, []⟩
  else if c = 4 then ⟨.sp, []⟩ else if c = 5 then ⟨.di, []⟩ else if c = 6 then ⟨.pk, []⟩ else if c = 7 then ⟨.hs, []⟩
  else if c = 8 then ⟨.vd, []⟩ else if c = 9 then ⟨.sy, []⟩ else ⟨.ln, [0x007]⟩

/-- Order codes (R44). -/
def orderOf (c : BitVec 3) : Parsed Order :=
  if c = 0 then ⟨.plain, []⟩ else if c = 1 then ⟨.rlx, []⟩ else if c = 2 then ⟨.acq, []⟩ else if c = 3 then ⟨.rel, []⟩
  else if c = 4 then ⟨.ar, []⟩ else if c = 5 then ⟨.sc, []⟩ else ⟨.rlx, [0x008]⟩

/-- The order code beside a scope: a reserved ORDER refuses no scope, so it stands for an order that goes with this one. -/
def orderFor (s : Scope) (c : BitVec 3) : Parsed Order :=
  let o := orderOf c
  ⟨if o.faults ≠ [] ∧ s = .ln then .plain else o.val, o.faults⟩

/-- Width codes (R44). -/
def widthOf (c : BitVec 3) : Parsed MWidth :=
  if c = 0 then ⟨.w8, []⟩ else if c = 1 then ⟨.w16, []⟩ else if c = 2 then ⟨.w32, []⟩ else if c = 3 then ⟨.w64, []⟩
  else if c = 4 then ⟨.w128, []⟩ else if c = 5 then ⟨.w512, []⟩ else ⟨.w32, [0x009]⟩

/-- Cache policies (R44). -/
def cacheOf (c : BitVec 2) : Cache :=
  if c = 0 then .dflt else if c = 1 then .strm else if c = 2 then .keep else .nol1

/-- Spaces (R44, R46). The reserved code is judged like the ordinary space in what else it raises (log entry 28). -/
def spaceOf (c : BitVec 2) : Parsed Space :=
  if c = 0 then ⟨.ordinary, []⟩ else if c = 1 then ⟨.handle, []⟩ else if c = 2 then ⟨.sps, []⟩ else ⟨.ordinary, [0x012]⟩

/-- Packed control widths (R35). -/
def eltWOfCode (c : BitVec 2) : EltW :=
  if c = 0 then .w32 else if c = 1 then .w16 else if c = 2 then .w8 else .w4

/-- Step modes (R33). -/
def stepOf (c : BitVec 2) : Parsed StepMode :=
  if c = 0 then ⟨.none, []⟩ else if c = 1 then ⟨.post, []⟩ else if c = 2 then ⟨.pre, []⟩ else ⟨.none, [0x006]⟩

/-- Pattern and amount of a class 00 field (R34). -/
def patOf (p : BitVec 3) (amt : BitVec 5) : Parsed Pat :=
  if p = 0 then ⟨.elt (eltWOfCode (amt.extractLsb' 3 2)) (amt.extractLsb' 0 3), []⟩
  else if p = 1 then ⟨.rot amt, []⟩ else if p = 2 then ⟨.bc amt, []⟩ else if p = 3 then ⟨.bfly amt, []⟩
  else if p = 4 then ⟨.mir amt, []⟩ else if p = 5 then ⟨.dn amt, []⟩ else if p = 6 then ⟨.up amt, []⟩
  else ⟨.ident, [0x004]⟩

/-- A source field (R33); `plain` reads a class 00 field plainly (R435). -/
def srcOfBits (plain : Bool) (f : BitVec 20) : Parsed Src :=
  let c := f.extractLsb' 18 2
  if c = 0 then
    let p := patOf (f.extractLsb' 7 3) (f.extractLsb' 2 5)
    let low := mbz (f.extractLsb' 0 1) 0x00F
    if plain then ⟨.reg (f.extractLsb' 10 8) .ident (f.getLsbD 1), low ++ mbz (f.extractLsb' 2 8) 0x00F⟩
    else ⟨.reg (f.extractLsb' 10 8) p.val (f.getLsbD 1), low ++ p.faults⟩
  else if c = 1 then
    let st := stepOf (f.extractLsb' 8 2)
    ⟨.ind (f.extractLsb' 15 3) (f.extractLsb' 10 5) st.val (f.getLsbD 1),
      st.faults ++ mbz (f.extractLsb' 2 6) 0x00F ++ mbz (f.extractLsb' 0 1) 0x00F⟩
  else if c = 2 then ⟨.spec (f.extractLsb' 10 8), mbz (f.extractLsb' 0 10) 0x00F⟩
  else ⟨.imm (f.extractLsb' 0 18), []⟩

/-- A source field with its pattern. -/
def srcOf (f : BitVec 20) : Parsed Src := srcOfBits false f

/-- A destination field (R36). -/
def dstOf (f : BitVec 20) : Parsed Dst :=
  let c := f.extractLsb' 18 2
  if c = 0 then
    if f.extractLsb' 7 3 = 0 then
      ⟨.reg (f.extractLsb' 10 8) (eltWOfCode (f.extractLsb' 5 2)) (f.extractLsb' 2 3), mbz (f.extractLsb' 0 2) 0x00F⟩
    else
      let p := patOf (f.extractLsb' 7 3) (f.extractLsb' 2 5)
      ⟨.reg (f.extractLsb' 10 8) .w32 0,
        0x00B :: p.faults ++ patFaults .whole p.val ++ mbz (f.extractLsb' 0 2) 0x00F⟩
  else if c = 1 then
    let st := stepOf (f.extractLsb' 8 2)
    ⟨.ind (f.extractLsb' 15 3) (f.extractLsb' 10 5) st.val, st.faults ++ mbz (f.extractLsb' 0 8) 0x00F⟩
  else ⟨.reg 0 .w32 0, [0x003]⟩

/-- A field read plainly that must be class 00 (R235, R248, R435). -/
def plainOf (f : BitVec 20) : Parsed Plain :=
  if f.extractLsb' 18 2 = 0 then
    ⟨⟨f.extractLsb' 10 8, f.getLsbD 1⟩, mbz (f.extractLsb' 2 8) 0x00F ++ mbz (f.extractLsb' 0 1) 0x00F⟩
  else ⟨⟨0, false⟩, [0x003]⟩

/-- A predicate field: class 10, numbers 0x40 to 0x47 (R37, R235). -/
def predOf (f : BitVec 20) : Parsed PNum :=
  if f.extractLsb' 18 2 = 2 then
    ⟨f.extractLsb' 10 3, (if f.extractLsb' 13 5 = 8 then [] else [0x00E]) ++ mbz (f.extractLsb' 0 10) 0x00F⟩
  else ⟨0, [0x003]⟩

/-- A special-register field, predicates included (R226). -/
def numOf (f : BitVec 20) : Parsed (BitVec 8) :=
  if f.extractLsb' 18 2 = 2 then ⟨f.extractLsb' 10 8, mbz (f.extractLsb' 0 10) 0x00F⟩ else ⟨0, [0x003]⟩

/-- The destination of SWR (R227). -/
def swrOf (f : BitVec 20) : Parsed SwrReg :=
  let n := numOf f
  if n.val = 0x0F then ⟨.fstat, n.faults⟩ else if n.val = 0x10 then ⟨.fctl, n.faults⟩
  else if n.val = 0x11 then ⟨.fmt, n.faults⟩ else if n.val = 0x12 then ⟨.mflags, n.faults⟩
  else ⟨.fstat, 0x00E :: n.faults⟩

/-- Fold operations of REDUX and SCAN (R235). -/
def redOpOf (c : BitVec 4) : Parsed RedOp :=
  if c = 0 then ⟨.add, []⟩ else if c = 1 then ⟨.min, []⟩ else if c = 2 then ⟨.max, []⟩ else if c = 3 then ⟨.and, []⟩
  else if c = 4 then ⟨.or, []⟩ else if c = 5 then ⟨.xor, []⟩ else ⟨.add, [0x002]⟩

/-- Accumulator types (R248). -/
def accTyOf (c : BitVec 2) : Parsed AccTy :=
  if c = 0 then ⟨.f32, []⟩ else if c = 1 then ⟨.si32, []⟩ else if c = 2 then ⟨.f64, []⟩ else ⟨.f32, [0x00D]⟩

/-- How a compare joins (R111). -/
def joinOf (c : BitVec 2) : JoinOp :=
  if c = 0 then .and else if c = 1 then .or else if c = 2 then .xor else .andNot

/-- OP and TYPE of an atomic of a width (R192). A reserved code stands for an operation of that width, since no type of its
own can differ from WIDTH. -/
def atomOpOf (wd : MWidth) (op ty : BitVec 4) : Parsed AtomOp :=
  let t := iTypeOf ty
  let e := eTypeOf ty
  let it : IType := if wd = .w64 then .ui64 else .ui32
  let et : EType := if wd = .w64 then .f64 else .f32
  let i (o : AtomI) : Parsed AtomOp := ⟨.int o (if t.faults = [] then t.val else it), t.faults⟩
  let g (o : AtomF) : Parsed AtomOp := ⟨.fp o (if e.faults = [] then e.val else et), e.faults⟩
  if op = 0 then i .add else if op = 1 then i .min else if op = 2 then i .max else if op = 3 then i .and
  else if op = 4 then i .or else if op = 5 then i .xor else if op = 6 then i .exch else if op = 7 then i .inc
  else if op = 8 then i .dec else if op = 9 then g .fadd else if op = 10 then g .fmin else if op = 11 then g .fmax
  else ⟨.int .add it, [0x00F]⟩

/-- The offset or handle register of an atomic (R191). -/
def atomOffOf (sp : Space) (o : BitVec 10) : Parsed AtomOff :=
  match sp with
  | .ordinary => ⟨.ofs o, []⟩
  | .handle | .sps => ⟨.handle (o.extractLsb' 0 8), mbz (o.extractLsb' 8 2) 0x00F⟩

/-- The 18-bit layout of an atomic's B, which must be class 11 (R191). -/
def immB (f : BitVec 20) : Parsed (BitVec 18) :=
  if f.extractLsb' 18 2 = 3 then ⟨f.extractLsb' 0 18, []⟩ else ⟨0, [0x003]⟩

/-! ## The forms -/

/-- OPC (R26). -/
def opcOf (w : IWord) : BitVec 10 := w.extractLsb' 86 10
/-- MOD, bits [73:60]. -/
def modOf (w : IWord) : BitVec 14 := w.extractLsb' 60 14
/-- The D field. -/
def fD (w : IWord) : BitVec 20 := w.extractLsb' 40 20
/-- The A field. -/
def fA (w : IWord) : BitVec 20 := w.extractLsb' 20 20
/-- The B field. -/
def fB (w : IWord) : BitVec 20 := w.extractLsb' 0 20
/-- Form J's immediate (R40). -/
def fImm32 (w : IWord) : Word := w.extractLsb' 8 32
/-- Form J's SRC. -/
def fSrc (w : IWord) : VNum := w.extractLsb' 0 8
/-- Form C's signature (R42). -/
def fSig (w : IWord) : BitVec 16 := w.extractLsb' 44 16
/-- Form C's [43:20]. -/
def fTofs (w : IWord) : BitVec 24 := w.extractLsb' 20 24

/-- Guard and hints (R26). -/
def hdrOf (w : IWord) : Hdr :=
  { neg := w.getLsbD 85, pred := w.extractLsb' 82 3, yld := w.getLsbD 81, last := w.getLsbD 80,
    stall := w.extractLsb' 77 3, dual := w.getLsbD 76 }

/-- Bits of MOD that must be zero. -/
def modZ (w : IWord) (mask : BitVec 14) : List Cause := mbz (modOf w &&& mask) 0x002

/-- A bit of MOD, numbered as the manual numbers it. -/
def mBit (w : IWord) (n : Nat) : Bool := w.getLsbD n

/-- C of MOD[73:66] (R32). -/
def fC (w : IWord) : VNum := w.extractLsb' 66 8

/-- An unused operand field (R32, R53). -/
def unused (f : BitVec 20) : List Cause := mbz f 0x00F

/-- The integer type field MOD[65:62] (R95). -/
def fTy (w : IWord) : Parsed IType := iTypeOf (w.extractLsb' 62 4)

/-- The rounding field MOD[65:63] (R49). -/
def fRnd (w : IWord) : Parsed Rnd := rndOf (w.extractLsb' 63 3)

/-- A rounding field in an entry marked "no rounding" (R121). -/
def noRnd (w : IWord) : List Cause := mbz (w.extractLsb' 63 3) 0x00A

/-- Two-source integer operation. -/
def pInt (mk : IntOp → Instr) (w : IWord) (mask : BitVec 14) : Parsed Instr :=
  let t := fTy w; let d := dstOf (fD w); let a := srcOf (fA w); let b := srcOf (fB w)
  ⟨mk ⟨t.val, mBit w 61, d.val, a.val, b.val⟩, modZ w mask ++ t.faults ++ d.faults ++ a.faults ++ b.faults⟩

/-- One-source integer operation. -/
def pIntUn (mk : IntUn → Instr) (w : IWord) : Parsed Instr :=
  let t := fTy w; let d := dstOf (fD w); let a := srcOf (fA w)
  ⟨mk ⟨t.val, mBit w 61, d.val, a.val⟩, modZ w 0x3FC1 ++ t.faults ++ d.faults ++ a.faults ++ unused (fB w)⟩

/-- Three-source integer operation. -/
def pIntTri (mk : IntTri → Instr) (w : IWord) : Parsed Instr :=
  let t := fTy w; let d := dstOf (fD w); let a := srcOf (fA w); let b := srcOf (fB w)
  ⟨mk ⟨t.val, mBit w 61, d.val, a.val, b.val, fC w⟩,
    modZ w 0x0001 ++ t.faults ++ d.faults ++ a.faults ++ b.faults⟩

/-- IADDC and ISUBB (R102). -/
def pCarry (mk : CarryOp → Instr) (w : IWord) : Parsed Instr :=
  let t := fTy w; let d := dstOf (fD w); let a := srcOf (fA w); let b := srcOf (fB w)
  ⟨mk ⟨t.val, mBit w 73, w.extractLsb' 70 3, w.extractLsb' 67 3, d.val, a.val, b.val⟩,
    modZ w 0x0043 ++ t.faults ++ d.faults ++ a.faults ++ b.faults⟩

/-- Two-source operation of group 2. -/
def pLog (mk : LogOp → Instr) (w : IWord) : Parsed Instr :=
  let t := fTy w; let d := dstOf (fD w); let a := srcOf (fA w); let b := srcOf (fB w)
  ⟨mk ⟨t.val, d.val, a.val, b.val⟩, modZ w 0x3FC3 ++ t.faults ++ d.faults ++ a.faults ++ b.faults⟩

/-- One-source operation of groups 2 and 3. -/
def pLogUn (mk : LogUn → Instr) (w : IWord) : Parsed Instr :=
  let t := fTy w; let d := dstOf (fD w); let a := srcOf (fA w)
  ⟨mk ⟨t.val, d.val, a.val⟩, modZ w 0x3FC3 ++ t.faults ++ d.faults ++ a.faults ++ unused (fB w)⟩

/-- Three-source operation of groups 2 and 3. -/
def pLogTri (mk : LogTri → Instr) (w : IWord) : Parsed Instr :=
  let t := fTy w; let d := dstOf (fD w); let a := srcOf (fA w); let b := srcOf (fB w)
  ⟨mk ⟨t.val, d.val, a.val, b.val, fC w⟩, modZ w 0x0003 ++ t.faults ++ d.faults ++ a.faults ++ b.faults⟩

/-- Relation, join and combining predicate (R111). -/
def cmpOf (w : IWord) : CmpF := ⟨w.extractLsb' 71 3, joinOf (w.extractLsb' 69 2), w.extractLsb' 66 3⟩

/-- A floating operation's type: F64 in group 4 (no bits), the short type in group 5 (R123, R125). -/
def fShort (dbl : Bool) (w : IWord) : Parsed EType := if dbl then ⟨.f64, []⟩ else shortOf (w.extractLsb' 60 3)

/-- MOD bits that no floating entry of the group uses outside C, rounding and type. -/
def fZ (dbl : Bool) (w : IWord) (mask : BitVec 14) : List Cause := modZ w (if dbl then mask ||| 0x0007 else mask)

/-- Two-source floating operation. -/
def pFBin (dbl : Bool) (mk : FBin → Instr) (w : IWord) : Parsed Instr :=
  let t := fShort dbl w; let r := fRnd w; let d := dstOf (fD w); let a := srcOf (fA w); let b := srcOf (fB w)
  ⟨mk ⟨t.val, r.val, d.val, a.val, b.val⟩,
    fZ dbl w 0x3FC0 ++ t.faults ++ r.faults ++ d.faults ++ a.faults ++ b.faults⟩

/-- One-source floating operation. -/
def pFUn (dbl : Bool) (mk : FUn → Instr) (w : IWord) : Parsed Instr :=
  let t := fShort dbl w; let r := fRnd w; let d := dstOf (fD w); let a := srcOf (fA w)
  ⟨mk ⟨t.val, r.val, d.val, a.val⟩,
    fZ dbl w 0x3FC0 ++ t.faults ++ r.faults ++ d.faults ++ a.faults ++ unused (fB w)⟩

/-- Multiply-add. -/
def pFTri (dbl : Bool) (mk : FTri → Instr) (w : IWord) : Parsed Instr :=
  let t := fShort dbl w; let r := fRnd w; let d := dstOf (fD w); let a := srcOf (fA w); let b := srcOf (fB w)
  ⟨mk ⟨t.val, r.val, d.val, a.val, b.val, fC w⟩,
    fZ dbl w 0 ++ t.faults ++ r.faults ++ d.faults ++ a.faults ++ b.faults⟩

/-- The option bit of DMIN, DRINT ([62]) and FMIN, FRINT ([66]) (R123, R125). -/
def optBit (dbl : Bool) (w : IWord) : Bool := if dbl then mBit w 62 else mBit w 66

/-- Must-be-zero bits beside the option bit. -/
def optZ (dbl : Bool) (w : IWord) : List Cause := if dbl then modZ w 0x3FC3 else modZ w 0x3F80

/-- Minimum and maximum. -/
def pFMin (dbl : Bool) (mk : FMinOp → Instr) (w : IWord) : Parsed Instr :=
  let t := fShort dbl w; let d := dstOf (fD w); let a := srcOf (fA w); let b := srcOf (fB w)
  ⟨mk ⟨t.val, optBit dbl w, d.val, a.val, b.val⟩,
    optZ dbl w ++ noRnd w ++ t.faults ++ d.faults ++ a.faults ++ b.faults⟩

/-- Round to integral. -/
def pFRint (dbl : Bool) (mk : FRintOp → Instr) (w : IWord) : Parsed Instr :=
  let t := fShort dbl w; let r := fRnd w; let d := dstOf (fD w); let a := srcOf (fA w)
  ⟨mk ⟨t.val, r.val, optBit dbl w, d.val, a.val⟩,
    optZ dbl w ++ t.faults ++ r.faults ++ d.faults ++ a.faults ++ unused (fB w)⟩

/-- One source without rounding. -/
def pFPlain (dbl : Bool) (mk : FPlain → Instr) (w : IWord) : Parsed Instr :=
  let t := fShort dbl w; let d := dstOf (fD w); let a := srcOf (fA w)
  ⟨mk ⟨t.val, d.val, a.val⟩, fZ dbl w 0x3FC0 ++ noRnd w ++ t.faults ++ d.faults ++ a.faults ++ unused (fB w)⟩

/-- A side of CVT (R127); `dflt` stands for a reserved code, and is one that makes no conversion to an integer of the pair. -/
def cvtTyOf (dflt : CvtTy) (tab : Bool) (c : BitVec 4) : Parsed CvtTy :=
  if tab then let e := eTypeOf c; ⟨if e.faults = [] then .elt e.val else dflt, e.faults⟩
  else let i := iTypeOf c; ⟨if i.faults = [] then .int i.val else dflt, i.faults⟩

/-- Group 6's rounding at [63:61]. -/
def fRnd6 (w : IWord) : Parsed Rnd := rndOf (w.extractLsb' 61 3)

/-- Destination code of group 6. -/
def fTo (w : IWord) : BitVec 4 := w.extractLsb' 70 4
/-- Source code of group 6. -/
def fFrom (w : IWord) : BitVec 4 := w.extractLsb' 66 4

/-- DPn (R132). -/
def pDp (mk : DpOp → Instr) (w : IWord) : Parsed Instr :=
  let r := fRnd w; let d := dstOf (fD w); let a := srcOf (fA w); let b := srcOf (fB w)
  ⟨mk ⟨r.val, d.val, a.val, b.val, fC w⟩, modZ w 0x0007 ++ r.faults ++ d.faults ++ a.faults ++ b.faults⟩

/-- Form M's fields (R44). -/
def memOf (w : IWord) : Parsed MemF :=
  let s := scopeOf (w.extractLsb' 70 4); let o := orderFor s.val (w.extractLsb' 67 3); let wd := widthOf (w.extractLsb' 64 3)
  let sp := spaceOf (w.extractLsb' 60 2)
  ⟨⟨s.val, o.val, wd.val, cacheOf (w.extractLsb' 62 2), sp.val⟩, s.faults ++ o.faults ++ wd.faults ++ sp.faults⟩

/-- Loads (R186). -/
def pLd (mk : LdOp → Instr) (w : IWord) : Parsed Instr :=
  let m := memOf w; let d := dstOf (fD w); let a := srcOf (fA w); let b := srcOf (fB w)
  ⟨mk ⟨m.val, d.val, a.val, b.val⟩, m.faults ++ d.faults ++ a.faults ++ b.faults⟩

/-- Stores (R186). -/
def pSt (mk : StOp → Instr) (w : IWord) : Parsed Instr :=
  let m := memOf w; let d := srcOf (fD w); let a := srcOf (fA w); let b := srcOf (fB w)
  ⟨mk ⟨m.val, d.val, a.val, b.val⟩, m.faults ++ d.faults ++ a.faults ++ b.faults⟩

/-- ATOM and ATOMS (R191). -/
def pAtom (mk : AtomF' → Instr) (w : IWord) : Parsed Instr :=
  let m := memOf w; let d := dstOf (fD w); let a := srcOf (fA w); let i := immB (fB w)
  let op := atomOpOf m.val.width (i.val.extractLsb' 14 4) (i.val.extractLsb' 10 4)
  let off := atomOffOf m.val.space (i.val.extractLsb' 0 10)
  ⟨mk ⟨m.val, op.val, d.val, a.val, off.val⟩, m.faults ++ d.faults ++ a.faults ++ i.faults ++ op.faults ++ off.faults⟩

/-- CAS and CASS (R191, R194). -/
def pCas (mk : CasF → Instr) (w : IWord) : Parsed Instr :=
  let m := memOf w; let d := dstOf (fD w); let a := srcOf (fA w); let i := immB (fB w)
  let off := atomOffOf m.val.space (i.val.extractLsb' 0 10)
  ⟨mk ⟨m.val, d.val, i.val.extractLsb' 15 3, a.val, off.val⟩,
    m.faults ++ d.faults ++ a.faults ++ i.faults ++ mbz (i.val.extractLsb' 10 5) 0x00F ++ off.faults⟩

/-- MLD and MST fields outside their data operand (R383). -/
def majOf (w : IWord) : Parsed (Scope × Order × Bool × BitVec 10) :=
  let s := scopeOf (w.extractLsb' 70 4); let o := orderFor s.val (w.extractLsb' 67 3); let i := immB (fB w)
  ⟨(s.val, o.val, i.val.getLsbD 17, i.val.extractLsb' 0 10),
    s.faults ++ o.faults ++ (if w.extractLsb' 64 3 = 5 then [] else [0x009])
      ++ mbz (w.extractLsb' 60 4) 0x012 ++ i.faults ++ mbz (i.val.extractLsb' 10 7) 0x00F⟩

/-- A tile operation with a layout word in D. -/
def pTile (mk : BitVec 4 → Plain → Instr) (w : IWord) : Parsed Instr :=
  let d := plainOf (fD w)
  ⟨mk (w.extractLsb' 70 4) d.val, modZ w 0x03FF ++ d.faults ++ unused (fA w) ++ unused (fB w)⟩

/-- Form C with target and reconvergence (R216). -/
def braOf (w : IWord) : BraF := ⟨fSig w, fTofs w, fB w⟩

/-- KIND 0 only (R42, R216). -/
def kind0 (w : IWord) : List Cause := mbz (w.extractLsb' 70 4) 0x011

/-- Group 0 (R216, R222). -/
def decode0 (w : IWord) : Nat → Parsed Instr
  | 0x00 => ⟨.nop (hdrOf w), modZ w 0x3FFF ++ unused (fD w) ++ unused (fA w) ++ unused (fB w)⟩
  | 0x01 => ⟨.bra (hdrOf w) (braOf w), kind0 w ++ modZ w 0x03FF⟩
  | 0x02 =>
    ⟨.brc (hdrOf w) (mBit w 70) (w.extractLsb' 62 8) (braOf w), mbz (w.extractLsb' 71 3) 0x011 ++ modZ w 0x0003⟩
  | 0x03 =>
    let b := srcOfBits true (fB w)
    ⟨.brx (hdrOf w) (fSig w) (fTofs w) b.val, kind0 w ++ modZ w 0x03FF ++ b.faults⟩
  | 0x04 =>
    let b := srcOfBits true (fB w)
    if w.extractLsb' 70 4 = 1 then
      ⟨.call (hdrOf w) (fSig w) (w.extractLsb' 62 8) (.reg b.val), modZ w 0x0003 ++ mbz (fTofs w) 0x002 ++ b.faults⟩
    else
      ⟨.call (hdrOf w) (fSig w) (w.extractLsb' 62 8) (.direct (fTofs w)),
        modZ w 0x0003 ++ (if w.extractLsb' 70 4 = 0 then mbz (fB w) 0x002 else [0x011])⟩
  | 0x05 =>
    let b := srcOfBits true (fB w)
    ⟨.ret (hdrOf w) (fSig w) (fTofs w) b.val, kind0 w ++ modZ w 0x03FF ++ b.faults⟩
  | 0x06 => ⟨.loop (hdrOf w) (w.extractLsb' 62 8) (braOf w), kind0 w ++ modZ w 0x0003⟩
  | 0x07 => ⟨.sync (hdrOf w), modZ w 0x3FFF ++ unused (fD w) ++ unused (fA w) ++ unused (fB w)⟩
  | 0x08 => ⟨.sealB (hdrOf w) (fSig w), kind0 w ++ modZ w 0x03FF ++ mbz (fTofs w) 0x002 ++ mbz (fB w) 0x002⟩
  | 0x09 => ⟨.exit (hdrOf w) (fSig w), kind0 w ++ modZ w 0x03FF ++ mbz (fTofs w) 0x002 ++ mbz (fB w) 0x002⟩
  | 0x0A => ⟨.yield (hdrOf w), modZ w 0x3FFF ++ unused (fD w) ++ unused (fA w) ++ unused (fB w)⟩
  | 0x0B => ⟨.trap (hdrOf w) (w.extractLsb' 60 5), modZ w 0x3FE0 ++ unused (fD w) ++ unused (fA w) ++ unused (fB w)⟩
  | 0x0C =>
    ⟨.rtt (hdrOf w) (mBit w 73) (mBit w 72) (mBit w 71),
      modZ w 0x07FF ++ unused (fD w) ++ unused (fA w) ++ unused (fB w)⟩
  | 0x0D => ⟨.bkpt (hdrOf w) (modOf w), unused (fD w) ++ unused (fA w) ++ unused (fB w)⟩
  | 0x0E =>
    let d := dstOf (fD w); let a := numOf (fA w)
    ⟨.srd (hdrOf w) (mBit w 60) d.val a.val, modZ w 0x3FFE ++ d.faults ++ a.faults ++ unused (fB w)⟩
  | 0x0F =>
    let d := swrOf (fD w); let a := srcOf (fA w)
    ⟨.swr (hdrOf w) d.val a.val, modZ w 0x3FFF ++ d.faults ++ a.faults ++ unused (fB w)⟩
  | _ => ⟨.unassignedOpcode (w.extractLsb' 0 32) (w.extractLsb' 32 32) (w.extractLsb' 64 32), []⟩

/-- An unassigned opcode, with the words as fetched (R50, R53). -/
def unassignedWord (w : IWord) : Parsed Instr :=
  ⟨.unassignedOpcode (w.extractLsb' 0 32) (w.extractLsb' 32 32) (w.extractLsb' 64 32), []⟩

/-- Group 1 (R99 to R104). -/
def decode1 (w : IWord) : Nat → Parsed Instr
  | 0x00 =>
    if mBit w 60 then
      let t := fTy w; let d := dstOf (fD w)
      ⟨.iaddI (hdrOf w) ⟨t.val, mBit w 61, d.val, fImm32 w, fSrc w⟩, modZ w 0x3FC0 ++ t.faults ++ d.faults⟩
    else pInt (.iadd (hdrOf w)) w 0x3FC0
  | 0x01 => pInt (.isub (hdrOf w)) w 0x3FC1
  | 0x02 => pCarry (.iaddc (hdrOf w)) w
  | 0x03 => pCarry (.isubb (hdrOf w)) w
  | 0x04 => pInt (.imul (hdrOf w)) w 0x3FC1
  | 0x05 => pInt (.imulh (hdrOf w)) w 0x3FC1
  | 0x06 => pIntTri (.imad (hdrOf w)) w
  | 0x07 => pIntTri (.imadw (hdrOf w)) w
  | 0x08 => pInt (.idiv (hdrOf w)) w 0x3FC1
  | 0x09 => pInt (.irem (hdrOf w)) w 0x3FC1
  | 0x0A => pIntUn (.iabs (hdrOf w)) w
  | 0x0B => pIntUn (.ineg (hdrOf w)) w
  | 0x0C => pInt (.imin (hdrOf w)) w 0x3FC1
  | 0x0D => pInt (.imax (hdrOf w)) w 0x3FC1
  | 0x0E => pIntTri (.iadd3 (hdrOf w)) w
  | 0x0F => pIntTri (.isad (hdrOf w)) w
  | 0x10 =>
    let t := fTy w; let d := dstOf (fD w); let a := srcOf (fA w); let b := srcOf (fB w)
    ⟨.lea (hdrOf w) ⟨t.val, w.extractLsb' 60 2, d.val, a.val, b.val, fC w⟩, t.faults ++ d.faults ++ a.faults ++ b.faults⟩
  | _ => unassignedWord w

/-- Group 2 (R105 to R108). -/
def decode2 (w : IWord) : Nat → Parsed Instr
  | 0x00 =>
    let t := fTy w; let d := dstOf (fD w)
    if mBit w 60 then ⟨.blutI (hdrOf w) ⟨t.val, fC w, d.val, fImm32 w, fSrc w⟩, modZ w 0x0002 ++ t.faults ++ d.faults⟩
    else
      let a := srcOf (fA w); let b := srcOf (fB w)
      ⟨.blut (hdrOf w) ⟨t.val, fC w, d.val, a.val, b.val⟩, modZ w 0x0002 ++ t.faults ++ d.faults ++ a.faults ++ b.faults⟩
  | 0x01 => pLog (.shl (hdrOf w)) w
  | 0x02 => pLog (.shr (hdrOf w)) w
  | 0x03 => pLog (.sar (hdrOf w)) w
  | 0x04 => pLog (.rot (hdrOf w)) w
  | 0x05 =>
    let t := fTy w; let d := dstOf (fD w); let a := srcOf (fA w); let b := srcOf (fB w)
    ⟨.funl (hdrOf w) ⟨mBit w 61, t.val, d.val, a.val, b.val, fC w⟩,
      modZ w 0x0001 ++ t.faults ++ d.faults ++ a.faults ++ b.faults⟩
  | 0x06 => pLog (.bfe (hdrOf w)) w
  | 0x07 => pLogTri (.bfi (hdrOf w)) w
  | 0x08 => pLogUn (.popc (hdrOf w)) w
  | 0x09 => pLogUn (.clz (hdrOf w)) w
  | 0x0A => pLogUn (.ctz (hdrOf w)) w
  | 0x0B => pLogUn (.brev (hdrOf w)) w
  | 0x0C => pLogTri (.bsel (hdrOf w)) w
  | _ => unassignedWord w

/-- Group 3 (R109 to R117). -/
def decode3 (w : IWord) : Nat → Parsed Instr
  | 0x00 => pLogUn (.mov (hdrOf w)) w
  | 0x01 =>
    let t := fTy w; let d := dstOf (fD w)
    ⟨.movi (hdrOf w) ⟨t.val, d.val, fImm32 w⟩,
      (if mBit w 60 then [] else [0x002]) ++ modZ w 0x3FC2 ++ t.faults ++ d.faults ++ mbz (fSrc w) 0x00F⟩
  | 0x02 => pLogTri (.sel (hdrOf w)) w
  | 0x03 =>
    let t := fTy w; let d := predOf (fD w)
    if mBit w 60 then
      ⟨.icmpI (hdrOf w) ⟨cmpOf w, t.val, d.val, fImm32 w, fSrc w⟩, modZ w 0x0002 ++ t.faults ++ d.faults⟩
    else
      let a := srcOf (fA w); let b := srcOf (fB w)
      ⟨.icmp (hdrOf w) ⟨cmpOf w, t.val, d.val, a.val, b.val⟩,
        modZ w 0x0002 ++ t.faults ++ d.faults ++ a.faults ++ b.faults⟩
  | 0x04 =>
    let t := eTypeOf (w.extractLsb' 62 4); let d := predOf (fD w); let a := srcOf (fA w); let b := srcOf (fB w)
    ⟨.fcmp (hdrOf w) ⟨cmpOf w, t.val, mBit w 61, mBit w 60, d.val, a.val, b.val⟩,
      t.faults ++ d.faults ++ a.faults ++ b.faults⟩
  | 0x05 =>
    let d := predOf (fD w); let a := predOf (fA w); let b := predOf (fB w)
    ⟨.plut (hdrOf w) ⟨fC w, w.extractLsb' 62 3, d.val, a.val, b.val⟩,
      modZ w 0x0023 ++ d.faults ++ a.faults ++ b.faults⟩
  | 0x06 =>
    let d := dstOf (fD w)
    ⟨.psave (hdrOf w) d.val, modZ w 0x3FFF ++ d.faults ++ unused (fA w) ++ unused (fB w)⟩
  | 0x07 =>
    let a := srcOf (fA w); let i := immB (fB w)
    ⟨.pload (hdrOf w) (i.val.extractLsb' 0 7) a.val,
      modZ w 0x3FFF ++ unused (fD w) ++ a.faults ++ i.faults ++ mbz (i.val.extractLsb' 7 11) 0x00F⟩
  | 0x08 =>
    let d := dstOf (fD w); let a := srcOf (fA w)
    ⟨.shape (hdrOf w) (mBit w 66) d.val a.val, modZ w 0x3FBF ++ d.faults ++ a.faults ++ unused (fB w)⟩
  | 0x09 =>
    let d := dstOf (fD w); let a := srcOf (fA w); let b := srcOf (fB w)
    ⟨.affine (hdrOf w) d.val a.val b.val, modZ w 0x3FFF ++ d.faults ++ a.faults ++ b.faults⟩
  | _ => unassignedWord w

/-- Group 4 (R123). -/
def decode4 (w : IWord) : Nat → Parsed Instr
  | 0x00 => pFBin true (.dadd (hdrOf w)) w
  | 0x01 => pFBin true (.dmul (hdrOf w)) w
  | 0x02 => pFTri true (.dfma (hdrOf w)) w
  | 0x03 => pFBin true (.ddiv (hdrOf w)) w
  | 0x04 => pFUn true (.dsqrt (hdrOf w)) w
  | 0x05 => pFMin true (.dmin (hdrOf w)) w
  | 0x06 => pFMin true (.dmax (hdrOf w)) w
  | 0x07 => pFRint true (.drint (hdrOf w)) w
  | 0x08 => pFBin true (.dscalb (hdrOf w)) w
  | 0x09 => pFPlain true (.dgetexp (hdrOf w)) w
  | 0x0A => pFPlain true (.dgetmant (hdrOf w)) w
  | 0x0B => pFPlain true (.dclass (hdrOf w)) w
  | _ => unassignedWord w

/-- Group 5 (R125). -/
def decode5 (w : IWord) : Nat → Parsed Instr
  | 0x00 => pFBin false (.fadd (hdrOf w)) w
  | 0x01 => pFBin false (.fmul (hdrOf w)) w
  | 0x02 => pFTri false (.ffma (hdrOf w)) w
  | 0x03 => pFBin false (.fdiv (hdrOf w)) w
  | 0x04 => pFUn false (.fsqrt (hdrOf w)) w
  | 0x05 => pFMin false (.fmin (hdrOf w)) w
  | 0x06 => pFMin false (.fmax (hdrOf w)) w
  | 0x07 => pFRint false (.frint (hdrOf w)) w
  | 0x08 => pFBin false (.fscalb (hdrOf w)) w
  | 0x09 => pFPlain false (.fclass (hdrOf w)) w
  | 0x0A => pFPlain false (.frcp (hdrOf w)) w
  | 0x0B => pFPlain false (.frsq (hdrOf w)) w
  | 0x0C => pFPlain false (.fex2 (hdrOf w)) w
  | 0x0D => pFPlain false (.flg2 (hdrOf w)) w
  | 0x0E => pFPlain false (.fsin (hdrOf w)) w
  | 0x0F => pFPlain false (.fcos (hdrOf w)) w
  | _ => unassignedWord w

/-- Group 6 (R127 to R139). -/
def decode6 (w : IWord) : Nat → Parsed Instr
  | 0x00 =>
    let t := cvtTyOf (.elt .f32) (mBit w 65) (fTo w); let s := cvtTyOf (.int .si32) (mBit w 64) (fFrom w); let r := fRnd6 w
    let d := dstOf (fD w); let a := srcOf (fA w)
    ⟨.cvt (hdrOf w) ⟨t.val, s.val, r.val, mBit w 60, d.val, a.val⟩,
      t.faults ++ s.faults ++ r.faults ++ d.faults ++ a.faults ++ unused (fB w)⟩
  | 0x01 =>
    let t := eTypeOf (fTo w); let s := eTypeOf (fFrom w); let r := fRnd6 w
    let d := dstOf (fD w); let a := srcOf (fA w); let b := srcOf (fB w)
    ⟨.cvtp (hdrOf w) ⟨t.val, s.val, r.val, mBit w 60, d.val, a.val, b.val⟩,
      modZ w 0x0030 ++ t.faults ++ s.faults ++ r.faults ++ d.faults ++ a.faults ++ b.faults⟩
  | 0x02 =>
    let t := eTypeOf (fTo w); let s := eTypeOf (fFrom w); let r := fRnd6 w
    let d := dstOf (fD w); let a := srcOf (fA w)
    let rest := modZ w 0x0010 ++ s.faults ++ r.faults ++ d.faults ++ a.faults ++ unused (fB w)
    if mBit w 65 then
      ⟨.cvtn (hdrOf w) ⟨none, s.val, r.val, mBit w 60, d.val, a.val⟩, mbz (fTo w) 0x002 ++ rest⟩
    else ⟨.cvtn (hdrOf w) ⟨some t.val, s.val, r.val, mBit w 60, d.val, a.val⟩, t.faults ++ rest⟩
  | 0x03 =>
    let s := eTypeOf (fFrom w); let d := dstOf (fD w); let a := srcOf (fA w)
    let rest := modZ w 0x3C0F ++ d.faults ++ a.faults ++ unused (fB w)
    if mBit w 65 then ⟨.unpk (hdrOf w) ⟨.fmtA, d.val, a.val⟩, mbz (fFrom w) 0x002 ++ modZ w 0x0010 ++ rest⟩
    else if mBit w 64 then ⟨.unpk (hdrOf w) ⟨.fmtB, d.val, a.val⟩, mbz (fFrom w) 0x002 ++ rest⟩
    else ⟨.unpk (hdrOf w) ⟨.elt s.val, d.val, a.val⟩, s.faults ++ rest⟩
  | 0x04 => pDp (.dp2 (hdrOf w)) w
  | 0x05 => pDp (.dp4 (hdrOf w)) w
  | 0x06 => pDp (.dp8 (hdrOf w)) w
  | 0x07 =>
    let a := eTypeOf (fTo w); let b := eTypeOf (fFrom w)
    ⟨.fmtset (hdrOf w) ⟨a.val, b.val, mBit w 65, mBit w 64⟩,
      modZ w 0x000F ++ a.faults ++ b.faults ++ unused (fD w) ++ unused (fA w) ++ unused (fB w)⟩
  | 0x08 =>
    let d := dstOf (fD w)
    ⟨.fmtget (hdrOf w) d.val, modZ w 0x3FFF ++ d.faults ++ unused (fA w) ++ unused (fB w)⟩
  | 0x09 =>
    let a := srcOf (fA w)
    ⟨.rngset (hdrOf w) a.val, modZ w 0x3FFF ++ unused (fD w) ++ a.faults ++ unused (fB w)⟩
  | 0x0A =>
    let d := dstOf (fD w)
    ⟨.rng (hdrOf w) d.val, modZ w 0x3FFF ++ d.faults ++ unused (fA w) ++ unused (fB w)⟩
  | _ => unassignedWord w

/-- Group 7 (R153). -/
def decode7 (w : IWord) : Nat → Parsed Instr
  | 0x00 =>
    let a := srcOf (fA w)
    ⟨.xset (hdrOf w) (w.extractLsb' 71 3) (mBit w 70) a.val, modZ w 0x03FF ++ unused (fD w) ++ a.faults ++ unused (fB w)⟩
  | 0x01 =>
    let a := srcOf (fA w)
    ⟨.xidx (hdrOf w) (w.extractLsb' 71 3) a.val, modZ w 0x07FF ++ unused (fD w) ++ a.faults ++ unused (fB w)⟩
  | 0x02 =>
    let d := dstOf (fD w)
    ⟨.xrd (hdrOf w) (w.extractLsb' 71 3) (mBit w 70) d.val, modZ w 0x03FF ++ d.faults ++ unused (fA w) ++ unused (fB w)⟩
  | 0x03 =>
    let a := srcOf (fA w)
    ⟨.xadd (hdrOf w) (w.extractLsb' 71 3) a.val, modZ w 0x07FF ++ unused (fD w) ++ a.faults ++ unused (fB w)⟩
  | 0x04 =>
    ⟨.xclr (hdrOf w) (w.extractLsb' 66 8), modZ w 0x003F ++ unused (fD w) ++ unused (fA w) ++ unused (fB w)⟩
  | _ => unassignedWord w

/-- Group 8 (R235). -/
def decode8 (w : IWord) : Nat → Parsed Instr
  | 0x00 =>
    let d := dstOf (fD w); let a := plainOf (fA w); let b := srcOf (fB w)
    if mBit w 65 then
      ⟨.lpick (hdrOf w) ⟨some (fC w), mBit w 60, d.val, a.val, b.val⟩, modZ w 0x001E ++ d.faults ++ a.faults ++ b.faults⟩
    else
      ⟨.lpick (hdrOf w) ⟨none, mBit w 60, d.val, a.val, b.val⟩, modZ w 0x3FDE ++ d.faults ++ a.faults ++ b.faults⟩
  | 0x01 =>
    let a := predOf (fA w); let d := dstOf (fD w); let p := predOf (fD w)
    let rest := modZ w 0x3FFC ++ a.faults ++ unused (fB w)
    let m := w.extractLsb' 60 2
    if m = 3 then ⟨.poll (hdrOf w) (.mask d.val) a.val, d.faults ++ rest⟩
    else
      ⟨.poll (hdrOf w) (.pred (if m = 0 then .any else if m = 1 then .all else .same) p.val) a.val, p.faults ++ rest⟩
  | 0x02 =>
    let d := dstOf (fD w); let a := plainOf (fA w); let b := srcOf (fB w)
    ⟨.rdlane (hdrOf w) ⟨mBit w 60, d.val, a.val, b.val⟩, modZ w 0x3FFE ++ d.faults ++ a.faults ++ b.faults⟩
  | 0x03 =>
    let d := dstOf (fD w); let a := srcOfBits true (fA w); let b := srcOf (fB w)
    ⟨.wrlane (hdrOf w) ⟨mBit w 60, d.val, a.val, b.val⟩, modZ w 0x3FFE ++ d.faults ++ a.faults ++ b.faults⟩
  | 0x04 =>
    let d := dstOf (fD w); let a := srcOf (fA w)
    ⟨.matchI (hdrOf w) ⟨mBit w 61, mBit w 60, d.val, a.val⟩, modZ w 0x3FFC ++ d.faults ++ a.faults ++ unused (fB w)⟩
  | 0x05 =>
    let op := redOpOf (w.extractLsb' 70 4); let t := fTy w; let d := dstOf (fD w); let a := srcOf (fA w)
    ⟨.redux (hdrOf w) ⟨op.val, mBit w 69, t.val, d.val, a.val⟩,
      modZ w 0x01C3 ++ op.faults ++ t.faults ++ d.faults ++ a.faults ++ unused (fB w)⟩
  | 0x06 =>
    let op := redOpOf (w.extractLsb' 70 4); let t := fTy w; let d := dstOf (fD w); let a := srcOf (fA w)
    ⟨.scan (hdrOf w) ⟨op.val, mBit w 69, t.val, d.val, a.val⟩,
      modZ w 0x01C3 ++ op.faults ++ t.faults ++ d.faults ++ a.faults ++ unused (fB w)⟩
  | 0x07 =>
    let t := eTypeOf (w.extractLsb' 62 4); let d := dstOf (fD w); let a := srcOf (fA w)
    ⟨.maxidx (hdrOf w) ⟨t.val, d.val, a.val⟩, modZ w 0x3FC3 ++ t.faults ++ d.faults ++ a.faults ++ unused (fB w)⟩
  | 0x08 =>
    let d := predOf (fD w)
    ⟨.elect (hdrOf w) d.val, modZ w 0x3FFF ++ d.faults ++ unused (fA w) ++ unused (fB w)⟩
  | _ => unassignedWord w

/-- Group 9 (R186). -/
def decode9 (w : IWord) : Nat → Parsed Instr
  | 0x00 => pLd (.ld (hdrOf w)) w
  | 0x01 => pSt (.st (hdrOf w)) w
  | 0x02 => pLd (.lds (hdrOf w)) w
  | 0x03 => pSt (.sts (hdrOf w)) w
  | 0x04 => pLd (.ldt (hdrOf w)) w
  | 0x05 => pSt (.stt (hdrOf w)) w
  | 0x06 => pLd (.ldu (hdrOf w)) w
  | 0x07 =>
    let m := memOf w; let a := srcOf (fA w); let b := srcOf (fB w)
    ⟨.pref (hdrOf w) ⟨m.val, a.val, b.val⟩, m.faults ++ unused (fD w) ++ a.faults ++ b.faults⟩
  | _ => unassignedWord w

/-- Group A (R191 to R198). -/
def decodeA (w : IWord) : Nat → Parsed Instr
  | 0x00 => pAtom (.atom (hdrOf w)) w
  | 0x01 => pAtom (.atoms (hdrOf w)) w
  | 0x02 => pCas (.cas (hdrOf w)) w
  | 0x03 => pCas (.cass (hdrOf w)) w
  | 0x04 =>
    let m := memOf w; let d := srcOf (fD w); let a := srcOf (fA w); let i := immB (fB w)
    let op := atomOpOf m.val.width (i.val.extractLsb' 14 4) (i.val.extractLsb' 10 4)
    let off := atomOffOf m.val.space (i.val.extractLsb' 0 10)
    ⟨.red (hdrOf w) ⟨m.val, op.val, d.val, a.val, off.val⟩,
      m.faults ++ d.faults ++ a.faults ++ i.faults ++ op.faults ++ off.faults⟩
  | 0x05 =>
    let s := scopeOf (w.extractLsb' 70 4); let o := orderOf (w.extractLsb' 67 3)
    let b := srcOf (fB w); let sp := w.extractLsb' 60 2
    let rest := s.faults ++ o.faults ++ modZ w 0x007C ++ unused (fD w) ++ unused (fA w)
    if sp = 1 then ⟨.fence (hdrOf w) ⟨s.val, o.val, some b.val⟩, b.faults ++ rest⟩
    else ⟨.fence (hdrOf w) ⟨s.val, o.val, none⟩, unused (fB w) ++ mbz sp 0x012 ++ rest⟩
  | 0x06 =>
    let s := scopeOf (w.extractLsb' 70 4); let op := w.extractLsb' 65 2; let a := srcOf (fA w)
    let k : CctlKind := if op = 1 then .inv else if op = 2 then .wbinv else .wb
    let rest := s.faults ++ mbz (w.extractLsb' 67 3) 0x008 ++ (if op = 3 then [0x002] else []) ++ modZ w 0x000F
      ++ unused (fD w) ++ unused (fB w)
    if mBit w 64 then ⟨.cctl (hdrOf w) ⟨s.val, k, none⟩, unused (fA w) ++ rest⟩
    else ⟨.cctl (hdrOf w) ⟨s.val, k, some a.val⟩, a.faults ++ rest⟩
  | 0x07 =>
    let s := scopeOf (w.extractLsb' 70 4)
    ⟨.otsync (hdrOf w) s.val, s.faults ++ modZ w 0x03FF ++ unused (fD w) ++ unused (fA w) ++ unused (fB w)⟩
  | _ => unassignedWord w

/-- Group B (R201, R204, R383). -/
def decodeB (w : IWord) : Nat → Parsed Instr
  | 0x00 =>
    let d := plainOf (fD w); let a := srcOf (fA w); let b := srcOf (fB w)
    ⟨.copy (hdrOf w) ⟨mBit w 73, d.val, a.val, b.val⟩, modZ w 0x1FFF ++ d.faults ++ a.faults ++ b.faults⟩
  | 0x01 =>
    let d := plainOf (fD w); let a := srcOf (fA w); let b := srcOf (fB w)
    ⟨.copyo (hdrOf w) ⟨mBit w 73, d.val, a.val, b.val⟩, modZ w 0x1FFF ++ d.faults ++ a.faults ++ b.faults⟩
  | 0x02 =>
    let d := dstOf (fD w)
    ⟨.bclose (hdrOf w) (mBit w 60) d.val, modZ w 0x3FFE ++ d.faults ++ unused (fA w) ++ unused (fB w)⟩
  | 0x03 =>
    let a := srcOf (fA w)
    ⟨.bwait (hdrOf w) (mBit w 60) a.val, modZ w 0x3FFE ++ unused (fD w) ++ a.faults ++ unused (fB w)⟩
  | 0x04 =>
    let d := predOf (fD w); let a := srcOf (fA w)
    ⟨.btest (hdrOf w) (mBit w 60) d.val a.val, modZ w 0x3FFE ++ d.faults ++ a.faults ++ unused (fB w)⟩
  | 0x05 =>
    let m := majOf w; let d := dstOf (fD w); let a := srcOf (fA w)
    ⟨.mld (hdrOf w) ⟨m.val.1, m.val.2.1, m.val.2.2.1, m.val.2.2.2, d.val, a.val⟩, m.faults ++ d.faults ++ a.faults⟩
  | 0x06 =>
    let m := majOf w; let d := srcOf (fD w); let a := srcOf (fA w)
    ⟨.mst (hdrOf w) ⟨m.val.1, m.val.2.1, m.val.2.2.1, m.val.2.2.2, d.val, a.val⟩, m.faults ++ d.faults ++ a.faults⟩
  | _ => unassignedWord w

/-- Group C (R248). -/
def decodeC (w : IWord) : Nat → Parsed Instr
  | 0x00 =>
    let a := srcOf (fA w)
    ⟨.tcfg (hdrOf w) (w.extractLsb' 70 4) a.val, modZ w 0x03FF ++ unused (fD w) ++ a.faults ++ unused (fB w)⟩
  | 0x01 => pTile (.tld (hdrOf w)) w
  | 0x02 => pTile (.tst (hdrOf w)) w
  | 0x03 =>
    ⟨.tzero (hdrOf w) (w.extractLsb' 70 4), modZ w 0x03FF ++ unused (fD w) ++ unused (fA w) ++ unused (fB w)⟩
  | 0x04 =>
    ⟨.mma (hdrOf w) ⟨w.extractLsb' 69 5, w.extractLsb' 65 4, w.extractLsb' 61 4⟩,
      modZ w 0x0001 ++ unused (fD w) ++ unused (fA w) ++ unused (fB w)⟩
  | 0x05 =>
    ⟨.mmab (hdrOf w) ⟨w.extractLsb' 69 5, w.extractLsb' 65 4, w.extractLsb' 61 4⟩,
      modZ w 0x0001 ++ unused (fD w) ++ unused (fA w) ++ unused (fB w)⟩
  | 0x06 =>
    ⟨.acz (hdrOf w) (w.extractLsb' 69 5), modZ w 0x01FF ++ unused (fD w) ++ unused (fA w) ++ unused (fB w)⟩
  | 0x07 =>
    let t := accTyOf (w.extractLsb' 67 2); let d := plainOf (fD w); let b := srcOf (fB w)
    ⟨.acld (hdrOf w) ⟨w.extractLsb' 69 5, t.val, d.val, b.val⟩,
      modZ w 0x007F ++ t.faults ++ d.faults ++ unused (fA w) ++ b.faults⟩
  | 0x08 =>
    let t := accTyOf (w.extractLsb' 67 2); let d := plainOf (fD w); let a := srcOf (fA w); let b := srcOf (fB w)
    let rest := modZ w 0x001F ++ t.faults ++ b.faults
    if mBit w 65 then
      ⟨.acst (hdrOf w) ⟨w.extractLsb' 69 5, t.val, mBit w 66, .object a.val, b.val⟩, unused (fD w) ++ a.faults ++ rest⟩
    else
      ⟨.acst (hdrOf w) ⟨w.extractLsb' 69 5, t.val, mBit w 66, .scratch d.val, b.val⟩, d.faults ++ unused (fA w) ++ rest⟩
  | 0x09 =>
    let d := dstOf (fD w); let b := srcOf (fB w)
    ⟨.acrd (hdrOf w) ⟨w.extractLsb' 69 5, mBit w 68, d.val, b.val⟩, modZ w 0x00FF ++ d.faults ++ unused (fA w) ++ b.faults⟩
  | 0x0A => ⟨.btake (hdrOf w), modZ w 0x3FFF ++ unused (fD w) ++ unused (fA w) ++ unused (fB w)⟩
  | 0x0B =>
    let b := srcOf (fB w)
    let rest := modZ w 0x3FFE ++ unused (fD w) ++ unused (fA w)
    if mBit w 60 then ⟨.bpass (hdrOf w) (some b.val), b.faults ++ rest⟩
    else ⟨.bpass (hdrOf w) none, unused (fB w) ++ rest⟩
  | 0x0C =>
    let d := dstOf (fD w)
    ⟨.bqry (hdrOf w) d.val, modZ w 0x3FFF ++ d.faults ++ unused (fA w) ++ unused (fB w)⟩
  | _ => unassignedWord w

/-- Group D (R273, R281, R287, R307, R361, R362, R365). -/
def decodeD (w : IWord) : Nat → Parsed Instr
  | 0x00 =>
    let a := srcOf (fA w)
    ⟨.barinit (hdrOf w) (w.extractLsb' 70 4) a.val, modZ w 0x03FF ++ unused (fD w) ++ a.faults ++ unused (fB w)⟩
  | 0x01 =>
    let a := srcOf (fA w)
    let rest := modZ w 0x03FE ++ unused (fD w) ++ unused (fB w)
    if mBit w 60 then ⟨.bar (hdrOf w) (w.extractLsb' 70 4) (some a.val), a.faults ++ rest⟩
    else ⟨.bar (hdrOf w) (w.extractLsb' 70 4) none, unused (fA w) ++ rest⟩
  | 0x02 =>
    let d := dstOf (fD w)
    ⟨.bara (hdrOf w) (w.extractLsb' 70 4) d.val, modZ w 0x03FF ++ d.faults ++ unused (fA w) ++ unused (fB w)⟩
  | 0x03 =>
    ⟨.bardrop (hdrOf w) (w.extractLsb' 70 4), modZ w 0x03FF ++ unused (fD w) ++ unused (fA w) ++ unused (fB w)⟩
  | 0x04 =>
    ⟨.barjoin (hdrOf w) (w.extractLsb' 70 4), modZ w 0x03FF ++ unused (fD w) ++ unused (fA w) ++ unused (fB w)⟩
  | 0x05 =>
    let d := dstOf (fD w)
    ⟨.spanh (hdrOf w) (mBit w 60) d.val, modZ w 0x3FFE ++ d.faults ++ unused (fA w) ++ unused (fB w)⟩
  | 0x06 =>
    let d := dstOf (fD w); let a := srcOf (fA w)
    ⟨.spanq (hdrOf w) d.val a.val, modZ w 0x3FFF ++ d.faults ++ a.faults ++ unused (fB w)⟩
  | 0x07 =>
    let d := predOf (fD w); let a := srcOf (fA w)
    ⟨.spanfrz (hdrOf w) d.val a.val, modZ w 0x3FFF ++ d.faults ++ a.faults ++ unused (fB w)⟩
  | 0x08 =>
    let a := srcOf (fA w)
    ⟨.spanthaw (hdrOf w) a.val, modZ w 0x3FFF ++ unused (fD w) ++ a.faults ++ unused (fB w)⟩
  | 0x09 =>
    let a := srcOf (fA w); let b := srcOf (fB w)
    ⟨.spawn (hdrOf w) ⟨a.val, b.val, fC w⟩, modZ w 0x003F ++ unused (fD w) ++ a.faults ++ b.faults⟩
  | 0x0A =>
    let d := dstOf (fD w)
    let rest := modZ w 0x3FFE ++ unused (fA w) ++ unused (fB w)
    if mBit w 60 then ⟨.join (hdrOf w) (some d.val), d.faults ++ rest⟩
    else ⟨.join (hdrOf w) none, unused (fD w) ++ rest⟩
  | 0x0B => ⟨.sdone (hdrOf w), modZ w 0x3FFF ++ unused (fD w) ++ unused (fA w) ++ unused (fB w)⟩
  | 0x0C =>
    let d := dstOf (fD w)
    ⟨.rqrd (hdrOf w) (w.extractLsb' 71 3) (w.extractLsb' 66 5) d.val,
      modZ w 0x003F ++ d.faults ++ unused (fA w) ++ unused (fB w)⟩
  | 0x0D =>
    let a := srcOf (fA w)
    ⟨.rqwr (hdrOf w) (w.extractLsb' 71 3) (w.extractLsb' 66 5) a.val,
      modZ w 0x003F ++ unused (fD w) ++ a.faults ++ unused (fB w)⟩
  | 0x0E =>
    ⟨.rqdel (hdrOf w) (w.extractLsb' 71 3) (mBit w 60),
      modZ w 0x07FE ++ unused (fD w) ++ unused (fA w) ++ unused (fB w)⟩
  | 0x0F =>
    let a := srcOf (fA w)
    ⟨.kill (hdrOf w) a.val, modZ w 0x3FFF ++ unused (fD w) ++ a.faults ++ unused (fB w)⟩
  | 0x10 => ⟨.qend (hdrOf w), modZ w 0x3FFF ++ unused (fD w) ++ unused (fA w) ++ unused (fB w)⟩
  | _ => unassignedWord w

/-- What the word says, by group (R50). -/
def parse (w : IWord) : Parsed Instr :=
  let i := (w.extractLsb' 86 6).toNat
  match (w.extractLsb' 92 4).toNat with
  | 0 => decode0 w i
  | 1 => decode1 w i
  | 2 => decode2 w i
  | 3 => decode3 w i
  | 4 => decode4 w i
  | 5 => decode5 w i
  | 6 => decode6 w i
  | 7 => decode7 w i
  | 8 => decode8 w i
  | 9 => decode9 w i
  | 10 => decodeA w i
  | 11 => decodeB w i
  | 12 => decodeC w i
  | 13 => decodeD w i
  | _ => unassignedWord w

/-- The lowest-numbered cause (R54). -/
def lowestCause (fs : List Cause) (h : Cause) : Cause := fs.foldl (fun m c => if c.toNat < m.toNat then c else m) h

/-- Decoding (R52 to R55): the instruction, or the lowest-numbered encoding cause. -/
def decode (w : IWord) : Except Cause Instr :=
  let p := parse w
  if assigned (opcOf w) then
    match p.faults ++ mbz (w.extractLsb' 74 2) 0x00C ++ p.val.faults with
    | [] => .ok p.val
    | c :: cs => .error (lowestCause cs c)
  else .ok p.val

/-- The instruction that the decoder reads from an opcode-table word of `nbits` bits. -/
def decodeTableWord (nbits w : Nat) : Option Instr :=
  match decode (BitVec.ofNat 96 (w % 2 ^ nbits)) with
  | .ok i => some i
  | .error _ => none

/-! ## Encoding -/

/-- Integer type field. -/
def encITy (t : IType) : BitVec 4 := t.code
/-- Short type. -/
def encShort (t : EType) : BitVec 3 := t.code.setWidth 3
/-- Rounding codes. -/
def encRnd : Rnd → BitVec 3
  | .dyn => 0 | .rne => 1 | .rtz => 2 | .rup => 3 | .rdn => 4 | .rna => 5
/-- Scope codes. -/
def encScope : Scope → BitVec 4
  | .ln => 0 | .wv => 1 | .gp => 2 | .co => 3 | .sp => 4 | .di => 5 | .pk => 6 | .hs => 7 | .vd => 8 | .sy => 9
/-- Order codes. -/
def encOrder : Order → BitVec 3
  | .plain => 0 | .rlx => 1 | .acq => 2 | .rel => 3 | .ar => 4 | .sc => 5
/-- Width codes. -/
def encWidth : MWidth → BitVec 3
  | .w8 => 0 | .w16 => 1 | .w32 => 2 | .w64 => 3 | .w128 => 4 | .w512 => 5
/-- Cache policies. -/
def encCache : Cache → BitVec 2
  | .dflt => 0 | .strm => 1 | .keep => 2 | .nol1 => 3
/-- Spaces. -/
def encSpace : Space → BitVec 2
  | .ordinary => 0 | .handle => 1 | .sps => 2
/-- Packed control widths. -/
def encEltW : EltW → BitVec 2
  | .w32 => 0 | .w16 => 1 | .w8 => 2 | .w4 => 3
/-- Step modes. -/
def encStep : StepMode → BitVec 2
  | .none => 0 | .post => 1 | .pre => 2
/-- PAT and AMT, field bits [9:2]. -/
def encPat : Pat → BitVec 8
  | .elt w i => (0 : BitVec 3) ++ encEltW w ++ i
  | .rot k => (1 : BitVec 3) ++ k
  | .bc k => (2 : BitVec 3) ++ k
  | .bfly k => (3 : BitVec 3) ++ k
  | .mir k => (4 : BitVec 3) ++ k
  | .dn k => (5 : BitVec 3) ++ k
  | .up k => (6 : BitVec 3) ++ k
/-- One bit. -/
def bit (b : Bool) : BitVec 1 := BitVec.ofBool b
/-- A source field. -/
def encSrc : Src → BitVec 20
  | .reg r p fe => (0 : BitVec 2) ++ r ++ encPat p ++ bit fe ++ (0 : BitVec 1)
  | .ind x o s fe => (1 : BitVec 2) ++ x ++ o ++ encStep s ++ (0 : BitVec 6) ++ bit fe ++ (0 : BitVec 1)
  | .spec n => (2 : BitVec 2) ++ n ++ (0 : BitVec 10)
  | .imm v => (3 : BitVec 2) ++ v
/-- A destination field. -/
def encDst : Dst → BitVec 20
  | .reg r w i => (0 : BitVec 2) ++ r ++ (0 : BitVec 3) ++ encEltW w ++ i ++ (0 : BitVec 2)
  | .ind x o s => (1 : BitVec 2) ++ x ++ o ++ encStep s ++ (0 : BitVec 8)
/-- A field read plainly. -/
def encPlain (p : Plain) : BitVec 20 := (0 : BitVec 2) ++ p.r ++ (0 : BitVec 8) ++ bit p.fe ++ (0 : BitVec 1)
/-- A predicate field. -/
def encPred (p : PNum) : BitVec 20 := (2 : BitVec 2) ++ (8 : BitVec 5) ++ p ++ (0 : BitVec 10)
/-- A special-register field. -/
def encNum (n : BitVec 8) : BitVec 20 := (2 : BitVec 2) ++ n ++ (0 : BitVec 10)
/-- The destination of SWR. -/
def encSwr : SwrReg → BitVec 20
  | .fstat => encNum 0x0F | .fctl => encNum 0x10 | .fmt => encNum 0x11 | .mflags => encNum 0x12
/-- Fold operations. -/
def encRedOp : RedOp → BitVec 4
  | .add => 0 | .min => 1 | .max => 2 | .and => 3 | .or => 4 | .xor => 5
/-- Accumulator types. -/
def encAccTy : AccTy → BitVec 2
  | .f32 => 0 | .si32 => 1 | .f64 => 2
/-- Joins. -/
def encJoin : JoinOp → BitVec 2
  | .and => 0 | .or => 1 | .xor => 2 | .andNot => 3
/-- OP and TYPE of an atomic. -/
def encAtomOp : AtomOp → BitVec 8
  | .int op t =>
    (match op with
      | .add => (0 : BitVec 4) | .min => 1 | .max => 2 | .and => 3 | .or => 4 | .xor => 5 | .exch => 6 | .inc => 7
      | .dec => 8) ++ t.code
  | .fp op t => (match op with | .fadd => (9 : BitVec 4) | .fmin => 10 | .fmax => 11) ++ t.code
/-- The low bits of an atomic's B. -/
def encAtomOff : AtomOff → BitVec 10
  | .ofs o => o
  | .handle r => (0 : BitVec 2) ++ r
/-- An immediate field. -/
def encImm (v : BitVec 18) : BitVec 20 := (3 : BitVec 2) ++ v

/-- Form A: opcode, shared bits, MOD and three fields (R31). -/
def formA (opc : BitVec 10) (h : Hdr) (mod : BitVec 14) (d a b : BitVec 20) : IWord :=
  opc ++ bit h.neg ++ h.pred ++ bit h.yld ++ bit h.last ++ h.stall ++ bit h.dual ++ (0 : BitVec 2) ++ mod ++ d ++ a ++ b
/-- Form J (R40). -/
def formJ (opc : BitVec 10) (h : Hdr) (mod : BitVec 14) (d : BitVec 20) (imm : Word) (src : VNum) : IWord :=
  opc ++ bit h.neg ++ h.pred ++ bit h.yld ++ bit h.last ++ h.stall ++ bit h.dual ++ (0 : BitVec 2) ++ mod ++ d ++ imm ++ src
/-- Form C (R42). -/
def formC (opc : BitVec 10) (h : Hdr) (mod : BitVec 14) (sig : BitVec 16) (t : BitVec 24) (b : BitVec 20) : IWord :=
  opc ++ bit h.neg ++ h.pred ++ bit h.yld ++ bit h.last ++ h.stall ++ bit h.dual ++ (0 : BitVec 2) ++ mod ++ sig ++ t ++ b

/-- MOD of group 1: C or options, type, SAT, [60]. -/
def modI (c : BitVec 8) (t : IType) (sat fj : Bool) : BitVec 14 := c ++ t.code ++ bit sat ++ bit fj
/-- IADD and its like. -/
def eInt (opc : BitVec 10) (h : Hdr) (o : IntOp) : IWord :=
  formA opc h (modI 0 o.ty o.sat false) (encDst o.d) (encSrc o.a) (encSrc o.b)
/-- One source. -/
def eIntUn (opc : BitVec 10) (h : Hdr) (o : IntUn) : IWord :=
  formA opc h (modI 0 o.ty o.sat false) (encDst o.d) (encSrc o.a) 0
/-- Three sources. -/
def eIntTri (opc : BitVec 10) (h : Hdr) (o : IntTri) : IWord :=
  formA opc h (modI o.c o.ty o.sat false) (encDst o.d) (encSrc o.a) (encSrc o.b)
/-- IADDC and ISUBB. -/
def eCarry (opc : BitVec 10) (h : Hdr) (o : CarryOp) : IWord :=
  formA opc h (bit o.ci0 ++ o.cip ++ o.cop ++ (0 : BitVec 1) ++ o.ty.code ++ (0 : BitVec 2))
    (encDst o.d) (encSrc o.a) (encSrc o.b)
/-- Group 2, two sources. -/
def eLog (opc : BitVec 10) (h : Hdr) (o : LogOp) : IWord :=
  formA opc h (modI 0 o.ty false false) (encDst o.d) (encSrc o.a) (encSrc o.b)
/-- Groups 2 and 3, one source. -/
def eLogUn (opc : BitVec 10) (h : Hdr) (o : LogUn) : IWord :=
  formA opc h (modI 0 o.ty false false) (encDst o.d) (encSrc o.a) 0
/-- Groups 2 and 3, three sources. -/
def eLogTri (opc : BitVec 10) (h : Hdr) (o : LogTri) : IWord :=
  formA opc h (modI o.c o.ty false false) (encDst o.d) (encSrc o.a) (encSrc o.b)
/-- The high eight bits of a compare's MOD. -/
def encCmp (f : CmpF) : BitVec 8 := f.rel ++ encJoin f.comb ++ f.pc
/-- MOD of groups 4 and 5. -/
def modF (dbl : Bool) (c : BitVec 8) (r : Rnd) (opt : Bool) (t : EType) : BitVec 14 :=
  if dbl then c ++ encRnd r ++ bit opt ++ (0 : BitVec 2)
  else (if opt then c ||| 1 else c) ++ encRnd r ++ encShort t
/-- Two-source floating. -/
def eFBin (dbl : Bool) (opc : BitVec 10) (h : Hdr) (o : FBin) : IWord :=
  formA opc h (modF dbl 0 o.rnd false o.ty) (encDst o.d) (encSrc o.a) (encSrc o.b)
/-- One-source floating. -/
def eFUn (dbl : Bool) (opc : BitVec 10) (h : Hdr) (o : FUn) : IWord :=
  formA opc h (modF dbl 0 o.rnd false o.ty) (encDst o.d) (encSrc o.a) 0
/-- Multiply-add. -/
def eFTri (dbl : Bool) (opc : BitVec 10) (h : Hdr) (o : FTri) : IWord :=
  formA opc h (modF dbl o.c o.rnd false o.ty) (encDst o.d) (encSrc o.a) (encSrc o.b)
/-- Minimum and maximum. -/
def eFMin (dbl : Bool) (opc : BitVec 10) (h : Hdr) (o : FMinOp) : IWord :=
  formA opc h (modF dbl 0 .dyn o.num o.ty) (encDst o.d) (encSrc o.a) (encSrc o.b)
/-- Round to integral. -/
def eFRint (dbl : Bool) (opc : BitVec 10) (h : Hdr) (o : FRintOp) : IWord :=
  formA opc h (modF dbl 0 o.rnd o.exact o.ty) (encDst o.d) (encSrc o.a) 0
/-- No rounding. -/
def eFPlain (dbl : Bool) (opc : BitVec 10) (h : Hdr) (o : FPlain) : IWord :=
  formA opc h (modF dbl 0 .dyn false o.ty) (encDst o.d) (encSrc o.a) 0
/-- Table bit and code of a side of CVT. -/
def encCvtTy : CvtTy → BitVec 1 × BitVec 4
  | .int t => (0, t.code)
  | .elt t => (1, t.code)
/-- MOD of group 6 conversions. -/
def mod6 (tgt frm : BitVec 4) (b65 b64 : BitVec 1) (r : Rnd) (sat : Bool) : BitVec 14 :=
  tgt ++ frm ++ b65 ++ b64 ++ encRnd r ++ bit sat
/-- DPn. -/
def eDp (opc : BitVec 10) (h : Hdr) (o : DpOp) : IWord :=
  formA opc h (o.c ++ encRnd o.rnd ++ (0 : BitVec 3)) (encDst o.d) (encSrc o.a) (encSrc o.b)
/-- Form M's MOD. -/
def encMem (m : MemF) : BitVec 14 :=
  encScope m.scope ++ encOrder m.order ++ encWidth m.width ++ encCache m.cache ++ encSpace m.space
/-- Loads. -/
def eLd (opc : BitVec 10) (h : Hdr) (o : LdOp) : IWord := formA opc h (encMem o.m) (encDst o.d) (encSrc o.a) (encSrc o.b)
/-- Stores. -/
def eSt (opc : BitVec 10) (h : Hdr) (o : StOp) : IWord := formA opc h (encMem o.m) (encSrc o.d) (encSrc o.a) (encSrc o.b)
/-- ATOM and ATOMS. -/
def eAtom (opc : BitVec 10) (h : Hdr) (o : AtomF') : IWord :=
  formA opc h (encMem o.m) (encDst o.d) (encSrc o.a) (encImm (encAtomOp o.op ++ encAtomOff o.off))
/-- CAS and CASS. -/
def eCas (opc : BitVec 10) (h : Hdr) (o : CasF) : IWord :=
  formA opc h (encMem o.m) (encDst o.d) (encSrc o.a) (encImm (o.p ++ (0 : BitVec 5) ++ encAtomOff o.off))
/-- MOD of MLD and MST. -/
def modMaj (s : Scope) (o : Order) : BitVec 14 := encScope s ++ encOrder o ++ (5 : BitVec 3) ++ (0 : BitVec 4)
/-- B of MLD and MST. -/
def bMaj (hi : Bool) (ofs : BitVec 10) : BitVec 20 := encImm (bit hi ++ (0 : BitVec 7) ++ ofs)
/-- A 4-bit field at the top of MOD. -/
def mod4 (t : BitVec 4) (low : BitVec 10) : BitVec 14 := t ++ low
/-- CCTL operations. -/
def encCctl : CctlKind → BitVec 2
  | .wb => 0 | .inv => 1 | .wbinv => 2
/-- POLL modes. -/
def encPoll : PollMode → BitVec 2
  | .any => 0 | .all => 1 | .same => 2

/-- The word of an instruction of a split (R26 to R46 and the entries); a step of another agent has none. -/
def encode : Instr → Option IWord
  | .nop h => some (formA 0x000 h 0 0 0 0)
  | .bra h f => some (formC 0x001 h 0 f.sig f.tofs f.rofs)
  | .brc h z c f => some (formC 0x002 h ((0 : BitVec 3) ++ bit z ++ c ++ (0 : BitVec 2)) f.sig f.tofs f.rofs)
  | .brx h s r b => some (formC 0x003 h 0 s r (encSrc b))
  | .call h s l t =>
    match t with
    | .direct o => some (formC 0x004 h ((0 : BitVec 4) ++ l ++ (0 : BitVec 2)) s o 0)
    | .reg b => some (formC 0x004 h ((1 : BitVec 4) ++ l ++ (0 : BitVec 2)) s 0 (encSrc b))
  | .ret h s r b => some (formC 0x005 h 0 s r (encSrc b))
  | .loop h c f => some (formC 0x006 h ((0 : BitVec 4) ++ c ++ (0 : BitVec 2)) f.sig f.tofs f.rofs)
  | .sync h => some (formA 0x007 h 0 0 0 0)
  | .sealB h s => some (formC 0x008 h 0 s 0 0)
  | .exit h s => some (formC 0x009 h 0 s 0 0)
  | .yield h => some (formA 0x00A h 0 0 0 0)
  | .trap h n => some (formA 0x00B h ((0 : BitVec 9) ++ n) 0 0 0)
  | .rtt h a b c => some (formA 0x00C h (bit a ++ bit b ++ bit c ++ (0 : BitVec 11)) 0 0 0)
  | .bkpt h t => some (formA 0x00D h t 0 0 0)
  | .srd h w d n => some (formA 0x00E h ((0 : BitVec 13) ++ bit w) (encDst d) (encNum n) 0)
  | .swr h r a => some (formA 0x00F h 0 (encSwr r) (encSrc a) 0)
  | .iadd h o => some (eInt 0x040 h o)
  | .iaddI h o => some (formJ 0x040 h (modI 0 o.ty o.sat true) (encDst o.d) o.imm o.src)
  | .isub h o => some (eInt 0x041 h o)
  | .iaddc h o => some (eCarry 0x042 h o)
  | .isubb h o => some (eCarry 0x043 h o)
  | .imul h o => some (eInt 0x044 h o)
  | .imulh h o => some (eInt 0x045 h o)
  | .imad h o => some (eIntTri 0x046 h o)
  | .imadw h o => some (eIntTri 0x047 h o)
  | .idiv h o => some (eInt 0x048 h o)
  | .irem h o => some (eInt 0x049 h o)
  | .iabs h o => some (eIntUn 0x04A h o)
  | .ineg h o => some (eIntUn 0x04B h o)
  | .imin h o => some (eInt 0x04C h o)
  | .imax h o => some (eInt 0x04D h o)
  | .iadd3 h o => some (eIntTri 0x04E h o)
  | .isad h o => some (eIntTri 0x04F h o)
  | .lea h o => some (formA 0x050 h (o.c ++ o.ty.code ++ o.sc) (encDst o.d) (encSrc o.a) (encSrc o.b))
  | .blut h o => some (formA 0x080 h (modI o.tt o.ty false false) (encDst o.d) (encSrc o.a) (encSrc o.b))
  | .blutI h o => some (formJ 0x080 h (modI o.tt o.ty false true) (encDst o.d) o.imm o.src)
  | .shl h o => some (eLog 0x081 h o)
  | .shr h o => some (eLog 0x082 h o)
  | .sar h o => some (eLog 0x083 h o)
  | .rot h o => some (eLog 0x084 h o)
  | .funl h o => some (formA 0x085 h (modI o.c o.ty o.dn false) (encDst o.d) (encSrc o.a) (encSrc o.b))
  | .bfe h o => some (eLog 0x086 h o)
  | .bfi h o => some (eLogTri 0x087 h o)
  | .popc h o => some (eLogUn 0x088 h o)
  | .clz h o => some (eLogUn 0x089 h o)
  | .ctz h o => some (eLogUn 0x08A h o)
  | .brev h o => some (eLogUn 0x08B h o)
  | .bsel h o => some (eLogTri 0x08C h o)
  | .mov h o => some (eLogUn 0x0C0 h o)
  | .movi h o => some (formJ 0x0C1 h (modI 0 o.ty false true) (encDst o.d) o.imm 0)
  | .sel h o => some (eLogTri 0x0C2 h o)
  | .icmp h o => some (formA 0x0C3 h (modI (encCmp o.f) o.ty false false) (encPred o.d) (encSrc o.a) (encSrc o.b))
  | .icmpI h o => some (formJ 0x0C3 h (modI (encCmp o.f) o.ty false true) (encPred o.d) o.imm o.src)
  | .fcmp h o =>
    some (formA 0x0C4 h (encCmp o.f ++ o.ty.code ++ bit o.u ++ bit o.tot) (encPred o.d) (encSrc o.a) (encSrc o.b))
  | .plut h o =>
    some (formA 0x0C5 h (o.tt ++ (0 : BitVec 1) ++ o.pc ++ (0 : BitVec 2)) (encPred o.d) (encPred o.pa) (encPred o.pb))
  | .psave h d => some (formA 0x0C6 h 0 (encDst d) 0 0)
  | .pload h m a => some (formA 0x0C7 h 0 0 (encSrc a) (encImm ((0 : BitVec 11) ++ m)))
  | .shape h u d a => some (formA 0x0C8 h ((0 : BitVec 7) ++ bit u ++ (0 : BitVec 6)) (encDst d) (encSrc a) 0)
  | .affine h d a b => some (formA 0x0C9 h 0 (encDst d) (encSrc a) (encSrc b))
  | .dadd h o => some (eFBin true 0x100 h o)
  | .dmul h o => some (eFBin true 0x101 h o)
  | .dfma h o => some (eFTri true 0x102 h o)
  | .ddiv h o => some (eFBin true 0x103 h o)
  | .dsqrt h o => some (eFUn true 0x104 h o)
  | .dmin h o => some (eFMin true 0x105 h o)
  | .dmax h o => some (eFMin true 0x106 h o)
  | .drint h o => some (eFRint true 0x107 h o)
  | .dscalb h o => some (eFBin true 0x108 h o)
  | .dgetexp h o => some (eFPlain true 0x109 h o)
  | .dgetmant h o => some (eFPlain true 0x10A h o)
  | .dclass h o => some (eFPlain true 0x10B h o)
  | .fadd h o => some (eFBin false 0x140 h o)
  | .fmul h o => some (eFBin false 0x141 h o)
  | .ffma h o => some (eFTri false 0x142 h o)
  | .fdiv h o => some (eFBin false 0x143 h o)
  | .fsqrt h o => some (eFUn false 0x144 h o)
  | .fmin h o => some (eFMin false 0x145 h o)
  | .fmax h o => some (eFMin false 0x146 h o)
  | .frint h o => some (eFRint false 0x147 h o)
  | .fscalb h o => some (eFBin false 0x148 h o)
  | .fclass h o => some (eFPlain false 0x149 h o)
  | .frcp h o => some (eFPlain false 0x14A h o)
  | .frsq h o => some (eFPlain false 0x14B h o)
  | .fex2 h o => some (eFPlain false 0x14C h o)
  | .flg2 h o => some (eFPlain false 0x14D h o)
  | .fsin h o => some (eFPlain false 0x14E h o)
  | .fcos h o => some (eFPlain false 0x14F h o)
  | .cvt h o =>
    some (formA 0x180 h (mod6 (encCvtTy o.dst).2 (encCvtTy o.src).2 (encCvtTy o.dst).1 (encCvtTy o.src).1 o.rnd o.sat)
      (encDst o.d) (encSrc o.a) 0)
  | .cvtp h o =>
    some (formA 0x181 h (mod6 o.dst.code o.src.code 0 0 o.rnd o.sat) (encDst o.d) (encSrc o.a) (encSrc o.b))
  | .cvtn h o =>
    match o.dst with
    | some t => some (formA 0x182 h (mod6 t.code o.src.code 0 0 o.rnd o.sat) (encDst o.d) (encSrc o.a) 0)
    | none => some (formA 0x182 h (mod6 0 o.src.code 1 0 o.rnd o.sat) (encDst o.d) (encSrc o.a) 0)
  | .unpk h o =>
    match o.src with
    | .elt t => some (formA 0x183 h (mod6 0 t.code 0 0 .dyn false) (encDst o.d) (encSrc o.a) 0)
    | .fmtA => some (formA 0x183 h (mod6 0 0 1 0 .dyn false) (encDst o.d) (encSrc o.a) 0)
    | .fmtB => some (formA 0x183 h (mod6 0 0 0 1 .dyn false) (encDst o.d) (encSrc o.a) 0)
  | .dp2 h o => some (eDp 0x184 h o)
  | .dp4 h o => some (eDp 0x185 h o)
  | .dp8 h o => some (eDp 0x186 h o)
  | .fmtset h o => some (formA 0x187 h (o.afmt.code ++ o.bfmt.code ++ bit o.acc ++ bit o.sat ++ (0 : BitVec 4)) 0 0 0)
  | .fmtget h d => some (formA 0x188 h 0 (encDst d) 0 0)
  | .rngset h a => some (formA 0x189 h 0 0 (encSrc a) 0)
  | .rng h d => some (formA 0x18A h 0 (encDst d) 0 0)
  | .xset h x z a => some (formA 0x1C0 h (x ++ bit z ++ (0 : BitVec 10)) 0 (encSrc a) 0)
  | .xidx h x a => some (formA 0x1C1 h (x ++ (0 : BitVec 11)) 0 (encSrc a) 0)
  | .xrd h x i d => some (formA 0x1C2 h (x ++ bit i ++ (0 : BitVec 10)) (encDst d) 0 0)
  | .xadd h x a => some (formA 0x1C3 h (x ++ (0 : BitVec 11)) 0 (encSrc a) 0)
  | .xclr h m => some (formA 0x1C4 h (m ++ (0 : BitVec 6)) 0 0 0)
  | .lpick h o =>
    match o.c with
    | some c => some (formA 0x200 h (c ++ (1 : BitVec 1) ++ (0 : BitVec 4) ++ bit o.w64) (encDst o.d) (encPlain o.a) (encSrc o.b))
    | none => some (formA 0x200 h ((0 : BitVec 13) ++ bit o.w64) (encDst o.d) (encPlain o.a) (encSrc o.b))
  | .poll h d p =>
    match d with
    | .pred m q => some (formA 0x201 h ((0 : BitVec 12) ++ encPoll m) (encPred q) (encPred p) 0)
    | .mask d => some (formA 0x201 h 3 (encDst d) (encPred p) 0)
  | .rdlane h o => some (formA 0x202 h ((0 : BitVec 13) ++ bit o.w64) (encDst o.d) (encPlain o.a) (encSrc o.b))
  | .wrlane h o => some (formA 0x203 h ((0 : BitVec 13) ++ bit o.w64) (encDst o.d) (encSrc o.a) (encSrc o.b))
  | .matchI h o => some (formA 0x204 h ((0 : BitVec 12) ++ bit o.all ++ bit o.w64) (encDst o.d) (encSrc o.a) 0)
  | .redux h o =>
    some (formA 0x205 h (encRedOp o.op ++ bit o.excl ++ (0 : BitVec 3) ++ o.ty.code ++ (0 : BitVec 2)) (encDst o.d) (encSrc o.a) 0)
  | .scan h o =>
    some (formA 0x206 h (encRedOp o.op ++ bit o.excl ++ (0 : BitVec 3) ++ o.ty.code ++ (0 : BitVec 2)) (encDst o.d) (encSrc o.a) 0)
  | .maxidx h o => some (formA 0x207 h ((0 : BitVec 8) ++ o.ty.code ++ (0 : BitVec 2)) (encDst o.d) (encSrc o.a) 0)
  | .elect h p => some (formA 0x208 h 0 (encPred p) 0 0)
  | .ld h o => some (eLd 0x240 h o)
  | .st h o => some (eSt 0x241 h o)
  | .lds h o => some (eLd 0x242 h o)
  | .sts h o => some (eSt 0x243 h o)
  | .ldt h o => some (eLd 0x244 h o)
  | .stt h o => some (eSt 0x245 h o)
  | .ldu h o => some (eLd 0x246 h o)
  | .pref h o => some (formA 0x247 h (encMem o.m) 0 (encSrc o.a) (encSrc o.b))
  | .atom h o => some (eAtom 0x280 h o)
  | .atoms h o => some (eAtom 0x281 h o)
  | .cas h o => some (eCas 0x282 h o)
  | .cass h o => some (eCas 0x283 h o)
  | .red h o => some (formA 0x284 h (encMem o.m) (encSrc o.d) (encSrc o.a) (encImm (encAtomOp o.op ++ encAtomOff o.off)))
  | .fence h o =>
    match o.hnd with
    | some b => some (formA 0x285 h (encScope o.scope ++ encOrder o.order ++ (1 : BitVec 7)) 0 0 (encSrc b))
    | none => some (formA 0x285 h (encScope o.scope ++ encOrder o.order ++ (0 : BitVec 7)) 0 0 0)
  | .cctl h o =>
    match o.a with
    | some a => some (formA 0x286 h (encScope o.scope ++ (0 : BitVec 3) ++ encCctl o.op ++ (0 : BitVec 5)) 0 (encSrc a) 0)
    | none => some (formA 0x286 h (encScope o.scope ++ (0 : BitVec 3) ++ encCctl o.op ++ (16 : BitVec 5)) 0 0 0)
  | .otsync h s => some (formA 0x287 h (encScope s ++ (0 : BitVec 10)) 0 0 0)
  | .copy h o => some (formA 0x2C0 h (bit o.s2g ++ (0 : BitVec 13)) (encPlain o.lw) (encSrc o.a) (encSrc o.b))
  | .copyo h o => some (formA 0x2C1 h (bit o.s2g ++ (0 : BitVec 13)) (encPlain o.lw) (encSrc o.a) (encSrc o.b))
  | .bclose h c d => some (formA 0x2C2 h ((0 : BitVec 13) ++ bit c) (encDst d) 0 0)
  | .bwait h c a => some (formA 0x2C3 h ((0 : BitVec 13) ++ bit c) 0 (encSrc a) 0)
  | .btest h c p a => some (formA 0x2C4 h ((0 : BitVec 13) ++ bit c) (encPred p) (encSrc a) 0)
  | .mld h o => some (formA 0x2C5 h (modMaj o.scope o.order) (encDst o.d) (encSrc o.a) (bMaj o.hi o.ofs))
  | .mst h o => some (formA 0x2C6 h (modMaj o.scope o.order) (encSrc o.d) (encSrc o.a) (bMaj o.hi o.ofs))
  | .tcfg h t a => some (formA 0x300 h (mod4 t 0) 0 (encSrc a) 0)
  | .tld h t l => some (formA 0x301 h (mod4 t 0) (encPlain l) 0 0)
  | .tst h t l => some (formA 0x302 h (mod4 t 0) (encPlain l) 0 0)
  | .tzero h t => some (formA 0x303 h (mod4 t 0) 0 0 0)
  | .mma h o => some (formA 0x304 h (o.ac ++ o.ta ++ o.tb ++ (0 : BitVec 1)) 0 0 0)
  | .mmab h o => some (formA 0x305 h (o.ac ++ o.ta ++ o.tb ++ (0 : BitVec 1)) 0 0 0)
  | .acz h n => some (formA 0x306 h (n ++ (0 : BitVec 9)) 0 0 0)
  | .acld h o => some (formA 0x307 h (o.ac ++ encAccTy o.ty ++ (0 : BitVec 7)) (encPlain o.lw) 0 (encSrc o.b))
  | .acst h o =>
    match o.tgt with
    | .scratch l =>
      some (formA 0x308 h (o.ac ++ encAccTy o.ty ++ bit o.add ++ (0 : BitVec 6)) (encPlain l) 0 (encSrc o.b))
    | .object q =>
      some (formA 0x308 h (o.ac ++ encAccTy o.ty ++ bit o.add ++ (32 : BitVec 6)) 0 (encSrc q) (encSrc o.b))
  | .acrd h o => some (formA 0x309 h (o.ac ++ bit o.w64 ++ (0 : BitVec 8)) (encDst o.d) 0 (encSrc o.b))
  | .btake h => some (formA 0x30A h 0 0 0 0)
  | .bpass h b => match b with | some b => some (formA 0x30B h 1 0 0 (encSrc b)) | none => some (formA 0x30B h 0 0 0 0)
  | .bqry h d => some (formA 0x30C h 0 (encDst d) 0 0)
  | .barinit h n a => some (formA 0x340 h (mod4 n 0) 0 (encSrc a) 0)
  | .bar h n t => match t with | some a => some (formA 0x341 h (mod4 n 1) 0 (encSrc a) 0) | none => some (formA 0x341 h (mod4 n 0) 0 0 0)
  | .bara h n d => some (formA 0x342 h (mod4 n 0) (encDst d) 0 0)
  | .bardrop h n => some (formA 0x343 h (mod4 n 0) 0 0 0)
  | .barjoin h n => some (formA 0x344 h (mod4 n 0) 0 0 0)
  | .spanh h f d => some (formA 0x345 h ((0 : BitVec 13) ++ bit f) (encDst d) 0 0)
  | .spanq h d a => some (formA 0x346 h 0 (encDst d) (encSrc a) 0)
  | .spanfrz h p a => some (formA 0x347 h 0 (encPred p) (encSrc a) 0)
  | .spanthaw h a => some (formA 0x348 h 0 0 (encSrc a) 0)
  | .spawn h o => some (formA 0x349 h (o.c ++ (0 : BitVec 6)) 0 (encSrc o.a) (encSrc o.b))
  | .join h d => match d with | some d => some (formA 0x34A h 1 (encDst d) 0 0) | none => some (formA 0x34A h 0 0 0 0)
  | .sdone h => some (formA 0x34B h 0 0 0 0)
  | .rqrd h e w d => some (formA 0x34C h (e ++ w ++ (0 : BitVec 6)) (encDst d) 0 0)
  | .rqwr h e w a => some (formA 0x34D h (e ++ w ++ (0 : BitVec 6)) 0 (encSrc a) 0)
  | .rqdel h e c => some (formA 0x34E h (e ++ (0 : BitVec 10) ++ bit c) 0 0 0)
  | .kill h a => some (formA 0x34F h 0 0 (encSrc a) 0)
  | .qend h => some (formA 0x350 h 0 0 0 0)
  | .unassignedOpcode w0 w1 w2 => some (w2 ++ w1 ++ w0)
  | _ => none

end Sys2Proof
end

