-- ==== Sys2Proof/Machine/Home.lean ====
section
/-! DEFINITION. Global memory as agents observe it: the accesses of a core, and sharing sketches (R190, R193, R299, R302, R323,
R335, R371). -/

namespace Sys2Proof.Machine

/-! ## Sharing sketches (R299) -/

/-- One event between a core and partner `p`. -/
def bumpSketch (l : List (BitVec 6 × BitVec 16)) (p : BitVec 6) : List (BitVec 6 × BitVec 16) :=
  let at' := l.findIdx (fun e => e.1 == p)
  match l[at']? with
  | some e => l.set at' (p, if e.2 = 0xFFFF then e.2 else e.2 + 1)
  | none =>
    let low := l.foldl (fun m e => min m e.2.toNat) 0xFFFF
    let i := l.findIdx (fun e => e.2.toNat == low)
    l.set i (p, 1)

/-- An event between two cores, when they are two cores of one die. -/
def State.bump (s : State) (core p : Nat) : State :=
  if core / 64 = p / 64 ∧ core ≠ p then
    s.withCore core (fun c => { c with sketch := bumpSketch c.sketch (BitVec.ofNat 6 p) })
  else s

/-- A core reads, or works atomically on, a line that another core last wrote. -/
def State.noteRead (s : State) (core key : Nat) : State :=
  match lookupN (key / 128) s.writers with
  | some p => s.bump core p
  | none => s

/-- A core writes a line, which no other core's L1 keeps (log entry 62). -/
def State.noteWrite (s : State) (core key : Nat) : State :=
  { s with
    writers := insertN (key / 128) core s.writers
    cores := s.cores.map (fun k =>
      if k.1 ≠ core ∧ k.2.l1.contains (key / 128) = true then (k.1, { k.2 with l1 := k.2.l1.erase (key / 128) }) else k) }

/-- Lines of an L1: 256 KiB of 128 bytes (R332). -/
def l1Lines : Nat := 2048

/-- A load reaches a line: one that the core's L1 does not hold is brought in from the core that last wrote it, for the sketch
(R299); the CACHE field decides whether, and how long, the L1 keeps it (R333). Any line of it may take any place (log entry 62). -/
def State.loadLine (s : State) (core line : Nat) (c : Cache) : State :=
  let l := (s.coreAt core).l1
  let keep (s : State) (l : List Nat) : State := s.withCore core (fun k => { k with l1 := l })
  if l.contains line then keep s (line :: l.erase line)
  else match c with
    | .nol1 => s
    | .strm => keep (s.noteRead core (line * 128)) (l.take (l1Lines - 1) ++ [line])
    | .dflt | .keep => keep (s.noteRead core (line * 128)) ((line :: l).take l1Lines)

/-! ## Accesses of a core -/

/-- A value read by a lane: bits, poison, and the source of an ERR (R65). -/
structure ReadOut where
  val : BitVec 128
  poison : Poison
  src : BitVec 3
  deriving DecidableEq, Repr

/-- The source that an uncorrectable word of a KIND reports (R190): HBM, second tier, else L2. -/
def errSource (key : Nat) : BitVec 3 := if keyKind key = 0 then 0 else if keyKind key = 1 then 1 else 2

/-- A load of `n` bytes by an agent; `lane` names the free value of an ERR (R190, R371). -/
def State.readAs (s : State) (who : Option Nat) (key n lane : Nat) : ReadOut :=
  if s.keyUp key = false ∨ s.seenBad who key n = true then ⟨Config.errValue s.fresh lane, .err, errSource key⟩
  else ⟨BitVec.ofNat 128 (ofBytes (s.seen who key n)), .clean, 0⟩

/-- `n` keys from `key`, each with a plain store: one more than its wave, or 0 for a copy operation. -/
def plainKeys (w key n : Nat) : List (Nat × Nat) := (List.range n).map (fun i => (key + i, w))

/-- A pier's plain bytes after a store of `n` bytes from `key`: those of the plain store `by'`, or none. -/
def Span.mark (sp : Span) (by' : Option Nat) (key n : Nat) : List (Nat × Nat) :=
  sp.plain.filter (fun x => !decide (key ≤ x.1 ∧ x.1 < key + n)) ++ (by'.map (fun w => plainKeys w key n)).getD []

/-- The instance whose pier takes a store of launch `l` (R302); `rel` says that a release precedes or is the store (R314). -/
def Span.hold (sp : Span) (l : Nat) (by' : Option Nat) (key : Nat) (bs : List Byte) (rel : Bool) : Span :=
  let n := bs.length
  { sp with
    dirty := Overlay.store sp.dirty key bs, wrote := insertSet l sp.wrote, plain := sp.mark by' key n
    back := sp.back.filter (outside key n)
    rel := sp.rel.filter (outside key n) ++ (if rel then (List.range n).map (· + key) else []) }

/-- The instance whose pier holds `n` bytes from a key no more, since its member has written them at the home. -/
def Span.forget (sp : Span) (key n : Nat) : Span :=
  { sp with
    dirty := Overlay.drop sp.dirty key n, plain := sp.mark none key n
    back := sp.back.filter (outside key n), rel := sp.rel.filter (outside key n) }

/-- A store by core `core` of launch `l`: held at the pier when it is plain or of scope SP, else performed at the home (R302,
R323). `by'` names a plain store, which can race where it reaches the home (R189). -/
def State.storeAs (s : State) (core l : Nat) (pier : Bool) (by' : Option Nat) (key : Nat) (bs : List Byte) (rel : Bool := false) :
    State :=
  let s := s.noteWrite core key
  if pier ∧ s.keyUp key = true then
    (s.unhold key bs.length).withInstance core (fun sp => sp.hold l by' key bs rel)
  else
    ((s.writeHome key bs).raceLoads ((by'.map (fun w => plainKeys w key bs.length)).getD [])).withInstance core (fun sp =>
      sp.forget key bs.length)

/-! ## Uncorrectable words that are read (R415) -/

/-- A read of an uncorrectable word of a stack is counted (R415). -/
def State.noteEcc (s : State) (key : Nat) : State :=
  if keyKind key = 0 ∧ s.keyUp key = true then s.count (0x0210 + stackOf s.cfg 0 (key % 2 ^ 52)) else s

/-- Words, by key / 4, that one access has met uncorrectable: each is counted once. -/
def State.noteWords (s : State) (l : List Nat) : State := l.eraseDups.foldl (fun s w => s.noteEcc (4 * w)) s

/-- The uncorrectable words that an agent meets in `n` bytes from a key. -/
def State.badWords (s : State) (who : Option Nat) (key n : Nat) : List Nat :=
  (wordsOf key n).filter (fun w => s.seenBad who (4 * w) 4)

/-- The uncorrectable words that an agent of the base die meets at places. -/
def State.badAt (s : State) (l : List Phys) : List Nat :=
  (l.filter (fun p => decide (p.kind.toNat ≤ 2))).flatMap (fun p => s.badWords none (memKey p.kind p.pa) 1)

/-- The die keeps what a translation has read, and uncorrectable table words are counted (R339, R415). -/
def State.learn (s : State) (die : Nat) (w : Walked) : State := (s.cacheWalk die w).noteWords w.bad

/-- A read-modify-write by core `core` at the home atomic unit (R193, R335): the state after it and the old value. `f` gives
the new value, or none where nothing is stored. -/
def State.atomicAs (s : State) (core key n lane : Nat) (f : Nat → Option Nat) : State × ReadOut :=
  let r := s.readAs (some core) key n lane
  let s := (s.noteRead core key).noteWords (s.badWords (some core) key n)
  match f (r.val.toNat % 2 ^ (8 * n)) with
  | none => (s, r)
  | some v =>
    (((s.noteWrite core key).writeHome key (toBytes n v)).withInstance core (fun sp => sp.forget key n), r)

end Sys2Proof.Machine
end

