-- ==== Sys2Proof/Machine/Remote.lean ====
section
/-! DEFINITION. The requester's side of the Viaduct fabric: streams, frames, requests to other packages (R416 to R424). -/

namespace Sys2Proof.Machine

/-! ## Streams -/

/-- The stream to package `p`. -/
def State.stream (s : State) (p : Nat) : Stream := (lookupN p s.via.streams).getD Stream.reset

/-- The stream to package `p` changed. -/
def State.withStream (s : State) (p : Nat) (f : Stream → Stream) : State :=
  { s with via := { s.via with streams := insertN p (f (s.stream p)) s.via.streams } }

/-- The fabric is enabled (R420). -/
def Viaduct.ven (v : Viaduct) : Bool := v.vctl.getLsbD 31

/-- The number of packages of the domain (R420). -/
def Viaduct.size (v : Viaduct) : Nat := (v.vctl &&& 0x7FF).toNat

/-- The port that the route to package `p` names; 8 and above name none (R420). -/
def Viaduct.portOf (v : Viaduct) (p : Nat) : Nat := ((lookupN p v.routes).getD 0xF).toNat

/-- Whether the route to package `p` names a port that is up (R420). -/
def Viaduct.linked (v : Viaduct) (p : Nat) : Bool := decide (v.portOf p < 8) && v.links.getLsbD (v.portOf p)

/-- Frames leave on the port that carries the stream to package `p` (R417). -/
def State.emit (s : State) (p : Nat) (fs : List Frame) : State :=
  { s with via := { s.via with out := s.via.out ++ fs.map (fun f => (s.via.portOf p, f)) } }

/-- Whether requests to package `p` can leave: the fabric is enabled and a port is up (R420). -/
def Viaduct.port (v : Viaduct) (p : Nat) : Bool := v.ven && v.linked p

/-- The sequence number after one (R417): modulo 2^32 with 0 skipped. -/
def nextSeq (n : Word) : Word := if n = 0xFFFFFFFF then 1 else n + 1

/-- Whether the stream takes a new frame now: up or in recovery, a port, at most 4,096 unacknowledged (R417, R424); while the
fabric is not enabled only responses leave (R421). -/
def State.sends (s : State) (p : Nat) (op : BitVec 8) : Bool :=
  let st := s.stream p
  s.via.linked p && (s.via.ven || decide (4 ≤ op.toNat)) && (st.st == .up || st.st == .recovery)
    && decide (st.unacked.length < 4096)

/-- A frame with the EtherType and the number of this package, as VTYPE and VPID hold them when it is sent (R416). -/
def State.stamped (s : State) (f : Frame) : Frame :=
  { f with etype := s.via.vtype.setWidth 16, src := s.via.vpid.setWidth 16 }

/-- Waiting frames are numbered and sent while the stream takes them (R417). -/
def State.pumpN (s : State) (p : Nat) : Nat → State
  | 0 => s
  | n + 1 =>
    let st := s.stream p
    let i := st.held.findIdx (fun f => s.sends p f.op)
    match st.held[i]? with
    | none => s
    | some f =>
      let f := { s.stamped f with seq := st.seq, ack := st.acked, gen := st.gen }
      let s := s.withStream p (fun st => { st with
        held := st.held.eraseIdx i, seq := nextSeq st.seq, unacked := st.unacked ++ [f] })
      State.pumpN (s.emit p [f]) p n

/-- Every waiting frame of a stream that can be sent is sent. -/
def State.pump (s : State) (p : Nat) : State := s.pumpN p (s.stream p).held.length

/-- A frame to package `p`, unnumbered. -/
def State.frame (s : State) (p : Nat) (op : BitVec 8) (tag : BitVec 16) (pa : Nat) (attr : Word) (len : Nat)
    (payload : List Byte) : Frame :=
  s.stamped
    { etype := 0, src := 0, dst := BitVec.ofNat 16 p, seq := 0, ack := 0, op := op, len := BitVec.ofNat 8 len, tag := tag
      addr := BitVec.ofNat 64 pa, attr := attr, gen := (s.stream p).gen, zero := 0, fcsOk := true, bad := false, race := false
      payload := payload }

/-- A frame handed to the stream to package `p`. -/
def State.post (s : State) (p : Nat) (f : Frame) : State :=
  (s.withStream p (fun st => { st with held := st.held ++ [f] })).pump p

/-- The core whose access a request carries. -/
def State.askCore (s : State) : ReqFor → Nat
  | .flight w _ _ | .store w _ _ _ => s.homeCore w
  | .copyRead k _ | .copyWrite k => ((s.copies[k]?).map (fun c => s.homeCore c.wave)).getD 0
  | .matrix core _ | .entry core _ _ => core
  | .agent _ => 0

/-- The granule and generation that the answer of a request carries (R177). -/
def State.askMark (s : State) : ReqFor → Option (Nat × Nat × BitVec 16)
  | .flight w f _ => s.flightMark w f
  | .store _ _ _ _ | .copyRead _ _ | .copyWrite _ | .matrix _ _ | .entry _ _ _ | .agent _ => none

/-- A request to package `p`, whose answer `who` awaits (R421); with `fence` the wave's later accesses wait for it. `core` names
the core of an access that its wave made before. -/
def State.request (s : State) (p : Nat) (op : BitVec 8) (who : ReqFor) (bytes pa : Nat) (va : DWord) (attr : Word)
    (len : Nat) (payload : List Byte) (fence bad : Bool) (core : Option Nat := none) (cas : Bool := false) : State :=
  let tag := (s.stream p).nextTag
  let stamp := ((who.wave.bind (fun w => s.waves[w]?)).map (·.traps)).getD 0
  let s := s.withStream p (fun st => { st with
    nextTag := tag + 1
    reqs := st.reqs ++ [{ tag := tag, op := op, who := who, bytes := bytes, pa := pa, va := va, fence := fence, stamp := stamp,
                           core := core.getD (s.askCore who), mark := s.askMark who, cas := cas }] })
  s.post p { s.frame p op tag pa attr len payload with bad := bad }

/-! ## Requests -/

/-- The package and the remote physical address of a KIND 3 place (R337, R418). -/
def remoteOf (p : Phys) : Nat × Nat := (p.pa / 2 ^ 42, p.pa % 2 ^ 42)

/-- A read of `n` bytes; LEN holds the words asked for (log entry 10). -/
def State.askRead (s : State) (p : Phys) (n : Nat) (who : ReqFor) (va : DWord) (fence : Bool := false) : State :=
  let r := remoteOf p
  s.request r.1 1 who n r.2 va 0 ((r.2 % 4 + n + 3) / 4) [] fence false

/-- The byte mask of a write of fewer than 4 bytes (R416). -/
def byteMask (pa n : Nat) : Word := if n < 4 then BitVec.ofNat 32 ((2 ^ n - 1) * 2 ^ (pa % 4) * 256) else 0

/-- A write of fewer than 4 bytes carries its whole word, its bytes in place (R416). -/
def wordPayload (pa : Nat) (bs : List Byte) : List Byte :=
  if bs.length < 4 then
    (List.replicate (pa % 4) 0 ++ bs ++ List.replicate (4 - pa % 4 - bs.length) 0)
  else bs

/-- A write of bytes. -/
def State.askWrite (s : State) (p : Phys) (bs : List Byte) (who : ReqFor) (va : DWord) (fence : Bool := false) (bad : Bool := false)
    (core : Option Nat := none) : State :=
  let r := remoteOf p
  let pl := wordPayload r.2 bs
  s.request r.1 2 who bs.length r.2 va (byteMask r.2 bs.length) (pl.length / 4) pl fence bad core

/-- What a remote read-modify-write does: an operation of R192 with its operand, or a compare and swap, which ATTR codes as
OP 15 with the TYPE of its width (log entry 10). -/
inductive RemAtom
  | op (o : AtomOp) (v : Nat)
  | cas (e n : Nat)
  deriving DecidableEq, Repr

/-- Whether it is a compare and swap. -/
def RemAtom.isCas : RemAtom → Bool
  | .op _ _ => false
  | .cas _ _ => true

/-- ATTR of an atomic request (R416). -/
def RemAtom.attr (a : RemAtom) (n : Nat) : Word :=
  match a with
  | .op o _ => (encAtomOp o).setWidth 32
  | .cas _ _ => if n = 4 then 0xF1 else 0xF7

/-- The payload of an atomic request. -/
def RemAtom.payload (a : RemAtom) (n : Nat) : List Byte :=
  match a with
  | .op _ v => toBytes n v
  | .cas e v => toBytes n e ++ toBytes n v

/-- An atomic on `n` bytes. -/
def State.askAtomic (s : State) (p : Phys) (n : Nat) (a : RemAtom) (who : ReqFor) (va : DWord) (fence : Bool := false)
    (bad : Bool := false) (core : Option Nat := none) : State :=
  let r := remoteOf p
  let pl := a.payload n
  s.request r.1 3 who n r.2 va (a.attr n) (pl.length / 4) pl fence bad core a.isCas

/-! ## Waits on requests -/

/-- Whether an access of the wave that orders its later accesses is outstanding (R314, R321). -/
def State.fenceWaits (s : State) (w : Nat) : Bool :=
  s.via.streams.any (fun st => st.2.reqs.any (fun r => r.fence && decide (r.who.wave = some w)))
    || s.keys.accs.any (fun a => a.fence && decide (a.wave = w) && decide (a.phase ≠ .done))

/-- A fence of the wave that lets it go on: every later access waits for those outstanding (R317, R326). -/
def State.fenceWave (s : State) (w : Nat) : State :=
  { s with
    via := { s.via with streams := s.via.streams.map (fun st => (st.1, { st.2 with
      reqs := st.2.reqs.map (fun r => if r.who.wave = some w then { r with fence := true } else r) })) }
    keys := { s.keys with accs := s.keys.accs.map (fun a => if a.wave = w then { a with fence := true } else a) } }

/-- Whether a stream carries nothing now: it recovers, is being reset, or has no port (R424). -/
def State.stalled (s : State) (st : Nat × Stream) : Bool :=
  st.2.st == .recovery || st.2.st == .reset || !s.via.port st.1

/-- Whether a split of the wave waits for what only its own accesses can give: for no barrier, baton, batch or launch. -/
def Wave.waitsSelf (wv : Wave) : Bool :=
  wv.parked.isNone && (List.range 4).any (fun k => match wv.table.slots[k]? with
    | some (some sp) => sp.wait.isNone
    | some none | none => false)

/-- Whether a split of the wave waits for a batch of a class (R204). -/
def Wave.waitsBatch (wv : Wave) (mtx : Bool) : Bool :=
  (List.range 4).any (fun k => match wv.table.slots[k]? with
    | some (some sp) => (match sp.wait with
        | some (.batch m _) => m == mtx
        | some (.bar _ _ _) | some .baton | some (.join _ _ _ _) | none => false)
    | some none | none => false)

/-- Whether an instruction reads an entry of the object table (R199). -/
def Instr.readsObject : Instr → Bool
  | .copyo _ _ => true
  | .acst _ o => (match o.tgt with | .object _ => true | .scratch _ => false)
  | _ => false

/-- Whether a split of the wave stands, without a wait, at an instruction that reads an object entry. -/
def State.atObject (s : State) (wv : Wave) : Bool :=
  wv.waitsSelf && (List.range 4).any (fun k => match wv.table.split? k with
    | some sp => sp.wait.isNone && (let i := s.instAt wv sp.pc; ((decode (i.2.2 ++ i.2.1 ++ i.1)).toOption.map Instr.readsObject).getD false)
    | none => false)

/-- Whether the wave waits on a remote request that its stream cannot carry now (R424): on one of its lanes, on one of an engine
operation in whose batch it waits, or on the read of an object entry, which is its core's for its domain (log entry 44). -/
def State.excused (s : State) (w : Nat) : Bool :=
  match s.waves[w]? with
  | none => false
  | some wv =>
    let mine (r : RemReq) : Bool := match r.who with
      | .flight v _ _ | .store v _ _ _ => decide (v = w) && wv.waitsSelf
      | .copyRead k _ | .copyWrite k => decide ((s.copies[k]?).map (·.wave) = some w) && wv.waitsBatch false
      | .matrix core _ => decide ((((lookupN core s.cores).bind (·.mq.head?)).map (·.wave)) = some w) && wv.waitsBatch true
      | .entry core dom _ => decide (wv.coreNo = core ∧ (s.launchOf wv).map (·.domain.id) = some dom) && s.atObject wv
      | .agent _ => false
    s.via.streams.any (fun st => s.stalled st && st.2.reqs.any mine)

end Sys2Proof.Machine
end

