-- ==== Sys2Proof/Machine/Access.lean ====
section
/-! DEFINITION. The shared course of a memory instruction: effective addresses, checks at issue, translation lane by lane,
what stays unfinished, and the flight of a producer (R178 to R190, R304, R341, R385, R421). -/

namespace Sys2Proof

/-- Registers of data of a width (R39, R186). -/
def MWidth.regs : MWidth → Nat
  | .w8 | .w16 | .w32 | .w512 => 1
  | .w64 => 2
  | .w128 => 4

/-- The number of a scope (R45). -/
def Scope.num : Scope → Nat
  | .ln => 0 | .wv => 1 | .gp => 2 | .co => 3 | .sp => 4 | .di => 5 | .pk => 6 | .hs => 7 | .vd => 8 | .sy => 9

/-- Whether an order releases (R312, R321). -/
def Order.releases : Order → Bool
  | .rel | .ar | .sc => true
  | .plain | .rlx | .acq => false

/-- Whether an order acquires (R312, R321). -/
def Order.acquires : Order → Bool
  | .acq | .ar | .sc => true
  | .plain | .rlx | .rel => false

end Sys2Proof

namespace Sys2Proof.Machine

/-! ## Widths, handles, scopes -/

/-- A malformed handle (R297). -/
def handleBad (h : DWord) : Bool := decide (h.extractLsb' 48 8 ≠ 0#8) || decide (h.extractLsb' 0 48 = 0#48)

/-- The die that a handle names (R297). -/
def handleDie (h : DWord) : Nat := (h.extractLsb' 62 2).toNat

/-- The instance that a current handle names; none when it is stale (R297). -/
def State.handleSpan (s : State) (h : DWord) : Option Span :=
  (((s.dies[handleDie h]?).getD Die.reset).spans).find? (fun sp =>
    decide (sp.slot = (h.extractLsb' 56 6).toNat ∧ sp.epoch = h.extractLsb' 0 48))

/-- The scope at which a handle-form operation is performed (R304). -/
def State.handleScope (s : State) (core : Nat) (h : DWord) : Scope :=
  if handleDie h ≠ core / 64 then .pk
  else match s.handleSpan h with
    | some sp => if sp.members.contains (core % 64) then .sp else .di
    | none => .di

/-- Whether an access of an order waits: for an earlier access that acquires, and a release for every earlier access of the
wave (R313, R314, R316, R321, R421). -/
def State.orderWaits (s : State) (w : Nat) (o : Order) : Bool :=
  s.fenceWaits w || (o.releases && s.accessOpen w)

/-- Whether the release that an operation implies waits for the wave's earlier accesses (R275, R254, R317); inside a deterministic
tree every edge falls at a boundary (R395). -/
def State.edgeWaits (s : State) (w : Nat) : Bool := s.edgeOpen w

/-- A release at DI or wider drains the pier of the releasing core (R302); inside a deterministic tree every edge falls at a
boundary (R395). -/
def State.releaseAt (s : State) (det : Bool) (core : Nat) (sc : Scope) (o : Order) : State :=
  if o.releases && decide (5 ≤ sc.num) && !det then s.drainAt core else s

/-- Whether the wave's last release fence was at the instance of a core, whose pier has not drained since (R316). -/
def State.fencedAt (s : State) (core w : Nat) : Bool := ((s.instanceOf core).map (fun sp => sp.fenced.contains w)).getD false

/-- An ordered store or read-modify-write of a wave that is not held at the pier, after a release fence at the instance: what the
pier holds is readable at the homes before it (R316, log entry 67). -/
def State.passFence (s : State) (det : Bool) (core w : Nat) (held : Bool) (o : Order) : State :=
  if !det && !held && o != .plain && s.fencedAt core w then s.drainAt core else s

/-! ## Effective addresses and operands (R178) -/

/-- The address pair of Form M. -/
def pairUse (a : Src) (u : Bool := false) : OpUse :=
  { fld := 1, src := a, n := 2, elt := .value false 128, uniform := u, consume := some 0 }

/-- B of a load or store: an offset, or the handle pair under SPACE 01 and 10 (R46). -/
def offUse (sp : Space) (b : Src) (u : Bool := false) : OpUse :=
  if sp = .ordinary then { fld := 2, src := b, uniform := u, consume := some 0 }
  else { fld := 2, src := b, n := 2, elt := .value false 128, uniform := true, consume := some 0 }

/-- The handle pair of an atomic (R191). -/
def atomOffUse : AtomOff → List OpUse
  | .ofs _ => []
  | .handle r => [{ fld := 2, src := plainSrc r, n := 2, elt := .value false 128, uniform := true, consume := some 0 }]

/-- Effective addresses from A and an offset per lane (R178); a re-injected access of kinds 1 to 3 uses EAL and EAH
(R280). -/
def Ctx.addrs (c : Ctx) (off : Lane → DWord) : Lanes DWord :=
  match c.replay with
  | some e =>
    if 1 ≤ e.kind.toNat ∧ e.kind.toNat ≤ 3 then
      perLane fun L => pair (e.lw[1]).v[L] (e.lw[0]).v[L]
    else perLane fun L => (c.v 0 L).setWidth 64 + off L
  | none => perLane fun L => (c.v 0 L).setWidth 64 + off L

/-- The entry with the effective addresses in words 8 and 9 (R280). -/
def withEa (ea : Lanes DWord) (e : RQEntry) : RQEntry :=
  { e with lw := (e.lw.set 0 ⟨ea.map lo32, allClean⟩).set 1 ⟨ea.map hi32, allClean⟩ }

/-! ## Checks at issue (R180) -/

/-- One check: its cause, the lanes that fail it, and the detail word of a failing lane. -/
structure Check where
  cause : Cause
  bad : Lane → Bool
  detail : Lane → Word

/-- The address datapath's residue check (R73): the lanes that fail it twice stay in the instruction's entry. -/
def State.addressResidue (s : State) (c : Ctx) (k : State → Ctx → State) : State :=
  match s.residue with
  | none => k s c
  | some (_, dp, _, _) =>
    if dp = 1 ∧ c.uses.precise = false then
      let r := s.residueFails c
      k r.1 { c with exec := c.exec &&& ~~~causeMask r.2, causes := c.causes ++ r.2 }
    else k s c

/-- Checks made in order; the first that a lane fails raises its cause for the lowest such lane and nothing is done. -/
def State.checked (s : State) (c : Ctx) : List Check → (State → Ctx → State) → State
  | [], k => s.addressResidue c k
  | x :: r, k =>
    let m := c.exec &&& maskOf x.bad
    if m = 0 then s.checked c r k
    else
      let low := Mask.lowest m
      s.raiseLate c 0 ⟨x.cause, low.val, x.detail low⟩ m (fun s c => s.checked c r k)

/-- Alignment to `n` bytes (R180). -/
def alignCheck (ea : Lanes DWord) (n : Nat) : Check :=
  ⟨0x0A0, fun L => decide (ea[L].toNat % n ≠ 0), fun L => lo32 ea[L]⟩

/-- A malformed handle (R297, R309). -/
def malformedCheck (h : DWord) : Check := ⟨0x168, fun _ => handleBad h, fun _ => hi32 h⟩

/-! ## Translation lane by lane -/

/-- Kinds of global access. -/
inductive GAcc | load | store | atomic | red | majLoad | majStore
  deriving DecidableEq, Repr

/-- The rights needed (R338). -/
def GAcc.need : GAcc → Need
  | .load | .majLoad => .read
  | .store | .majStore => .write
  | .atomic | .red => .atomic

/-- ACCESS of a fault record (R344). -/
def GAcc.access : GAcc → BitVec 4
  | .load | .majLoad => 0
  | .store | .majStore => 1
  | .atomic | .red => 2

/-- The kind of the replay entry (R279). -/
def GAcc.kind : GAcc → BitVec 3
  | .load | .majLoad => 1
  | .store | .majStore | .red => 2
  | .atomic => 3

/-- The REMOTE_LOST cause (R424). -/
def GAcc.lost : GAcc → Cause
  | .load | .majLoad => 0x1C0
  | .store | .majStore | .red => 0x1C1
  | .atomic => 0x1C2

/-- What a lane of a global access meets: its place; a class 6 fault (stage 7); a cause at translation (stage 8). -/
inductive Met
  | place (p : Phys)
  | fault (c : Cause)
  | cause (c : Cause) (detail : Word)
  deriving DecidableEq, Repr

/-- Whether a replica set holds a cell (R372, R384). -/
def State.cellOk (s : State) (setNo : BitVec 4) (pa : Nat) : Bool :=
  let r := (s.keys.repset[setNo.toNat]?).getD 0
  r.getLsbD 31 && decide (pa / 2 ^ 20 < (r.extractLsb' 32 16).toNat)

/-- What an access meets at a translated place (R384, R385, R424). -/
def State.placed (s : State) (g : GAcc) (va : DWord) (p : Phys) : Met :=
  if p.kind = 4 then
    match g with
    | .store => .cause 0x0E1 (lo32 va)
    | .atomic | .red => .cause 0x0E0 (lo32 va)
    | .load | .majLoad | .majStore =>
      if s.cellOk p.setNo p.pa then .place p else .cause 0x0E5 (BitVec.ofNat 32 p.pa)
  else match g with
    | .majLoad | .majStore => .cause 0x0E2 (lo32 va)
    | .load | .store | .atomic | .red =>
      if p.kind = 3 ∧ (s.stream (remoteOf p).1).st = .lost then .cause g.lost (lo32 va) else .place p

/-- Translation of one lane's address, and what it has read. -/
def State.meet (s : State) (die : Nat) (dom : Domain) (g : GAcc) (va : DWord) : Met × Walked :=
  match s.translate die dom va g.need with
  | (.error c, e) => (.fault c, e)
  | (.ok p, e) => (s.placed g va p, e)

/-- What the lanes of an instruction meet: the places of those that perform, the faulting ones, and those with a cause. -/
structure Plan where
  at' : Lanes (Option Phys)
  ok : Mask
  faults : List (Lane × Cause)
  causes : List LaneCause
  deriving DecidableEq, Repr

/-- The place that a lane's answer gives. -/
def Met.phys : Met → Option Phys
  | .place p => some p
  | .fault _ | .cause _ _ => none

/-- A plan from what each lane of a mask meets. -/
def planOf (m : Mask) (met : Lanes Met) : Plan :=
  { at' := perLane fun L => if m.has L then met[L].phys else none
    ok := m &&& maskOf fun L => met[L].phys.isSome
    faults := (Mask.lanes m).filterMap (fun L => match met[L] with
      | .fault x => some (L, x)
      | .place _ | .cause _ _ => none)
    causes := (Mask.lanes m).filterMap (fun L => match met[L] with
      | .cause x d => some ⟨L, 8, x, d⟩
      | .place _ | .fault _ => none) }

/-- The lanes `m` of a global access translated in lane order; the die caches the entries that granted an access and drops those
that did not (R339, R341). -/
def State.plan (s : State) (c : Ctx) (g : GAcc) (m : Mask) (ea : Lanes DWord) : State × Plan :=
  match s.waves[c.w]? with
  | none => (s, planOf 0 (splat (.fault 0)))
  | some wv => match s.launchOf wv with
    | none => (s, planOf 0 (splat (.fault 0)))
    | some l =>
      let x : Lanes (Met × Walked) := perLane fun L =>
        if m.has L then s.meet wv.die' l.domain g ea[L] else (.fault 0, Walked.none)
      let s := (Mask.lanes m).foldl (fun s L => match x[L].1 with
        | .fault c => s.dropLeaf wv.die' l.domain.id ea[L] c
        | .place _ | .cause _ _ => s.cacheWalk wv.die' x[L].2) s
      (s.noteWords ((Mask.lanes m).flatMap (fun L => x[L].2.bad)), planOf m (x.map (·.1)))

/-- Whether the instruction traps or parks once its lanes have been translated. -/
def Ctx.stops (c : Ctx) (p : Plan) : Bool := !c.causes.isEmpty || !p.faults.isEmpty || !p.causes.isEmpty

/-- The lanes of a list of faults. -/
def faultMask (l : List (Lane × Cause)) : Mask := l.foldl (fun m x => m ||| Mask.one x.1) 0

/-- Lanes of a store that met a lost stream leave no entry (R424). -/
def trimLost (l : List LaneCause) (e : RQEntry) : RQEntry :=
  if e.cause = 0x1C1 then
    { e with remain := e.remain &&& ~~~causeMask (l.filter (fun x => x.cause == 0x1C1)) }
  else e

/-- A flight that waits for nobody's answer: lanes of an instruction that a cause has ended or that wait. The window of an indirect
destination is locked (R151). -/
def Flight.idle (id : Nat) (e : RQEntry) (dst : RDst) : Flight :=
  { id := id, of := none, entry := e, known := 0, dst := dst, val := splat 0, poison := allClean, gen := 0, pred := none, lock := dst.win
    uni := false, racy := 0, raced := 0, host := 0, ecc := 0, errSrc := 0, keys := [], width := 0, own := [] }

/-- A flight added to a wave. -/
def Wave.addFlight (wv : Wave) (f : Nat → Flight) : Wave :=
  { wv with nextFlight := wv.nextFlight + 1, flights := wv.flights ++ [f wv.nextFlight] }

/-- Trap level of the instruction's wave. -/
def State.levelOf (s : State) (c : Ctx) : Nat := ((s.waves[c.w]?).map (·.level)).getD 0

/-- At trap level 1 or 2 a REMOTE_LOST waits by R285 (R424): its lanes stay unfinished, in a load or an atomic, and the cause is
pending. -/
def State.deferLost (s : State) (c : Ctx) (g : GAcc) (m : Mask) (ea : Lanes DWord) : State :=
  if m = 0 then s
  else
    let low := Mask.lowest m
    let e := withEa ea (c.entry g.kind g.lost m (lo32 ea[low]))
    let s := if g.kind = 2 then s else s.withWave c.w (fun wv => (wv.markD c.dst false).addFlight (fun id => .idle id e c.dst))
    s.raiseAsync c.w ⟨g.lost, low.val, lo32 ea[low], some c.pc, c.w0, c.w1, c.w2⟩

/-- The split of an instruction whose lanes fault stands at the next one, without an arrival: a merge there waits until the wave has
unparked (R211, R341). -/
def State.passOn (s : State) (c : Ctx) : State :=
  match c.replay with
  | some _ => s
  | none => s.withWave c.w (fun wv => wv.withSplit c.slot (fun sp => { sp with pc := c.pc + 12 }))

/-- The end of a global access whose translated lanes have performed: the wave parks (R341), traps (R385, R424, R426), or
goes on; `own` is the flight of the lanes that performed. -/
def State.closeAccess (s : State) (c : Ctx) (g : GAcc) (ea : Lanes DWord) (p : Plan) (own : Option Nat) : State :=
  let lost := p.causes.filter (fun x => x.cause == g.lost)
  match c.causes, p.faults with
  | [], f :: fs =>
    let m := faultMask (f :: fs) ||| causeMask p.causes
    let e := withEa ea (c.entry g.kind f.2 m (lo32 ea[f.1]))
    let s := (s.retired c).withWave c.w (fun wv =>
      { wv.markD c.dst false with
        faulting := some { lanes := (f :: fs).map (fun x => (x.1.val, ea[x.1], x.2)), access := g.access, entry := some e,
                           flight := own, pc := c.pc, slot := c.slot } })
    s.passOn c
  | [], [] =>
    if 0 < s.levelOf c ∧ lost.length = p.causes.length then (s.deferLost c g (causeMask lost) ea).finish c g.kind []
    else s.finish c g.kind p.causes (fun e => trimLost p.causes (withEa ea e)) own
  | _ :: _, fs =>
    s.finish c 0 (c.causes ++ fs.map (fun x => ⟨x.1, 7, x.2, lo32 ea[x.1]⟩) ++ p.causes)
      (fun e => trimLost p.causes (withEa ea e)) own

/-! ## Flights -/

/-- What a producer knows at issue: lanes, values, poison, and how it answers. -/
structure Produced where
  known : Mask
  val : Lanes (BitVec 128)
  poison : Lanes Poison
  errSrc : BitVec 3 := 0
  racy : Mask := 0
  host : Mask := 0
  ecc : Mask := 0
  keys : List (Nat × Nat) := []
  width : Nat := 0
  uni : Bool := false
  pred : Option (PNum × Mask) := none
  own : List (Nat × Byte) := []
  held : List Nat := []

/-- A producer of lanes `m` is in flight: its destination is empty and its window locked (R62, R151). When the instruction
stops, the lanes whose values are known complete at once (R276). -/
def State.fly (s : State) (c : Ctx) (kind : BitVec 3) (m : Mask) (ea : Lanes DWord) (x : Produced) (stops : Bool) : State :=
  match s.waves[c.w]? with
  | none => s
  | some wv =>
    if m = 0 then s else
    let f : Flight :=
      { id := wv.nextFlight, of := none, entry := withEa ea (c.entry kind 0 m 0), known := x.known &&& m, dst := c.dst, val := x.val,
        poison := x.poison, gen := s.genOf c.w wv.coreNo c.dst.er[(0 : Lane)].toNat, pred := x.pred,
        lock := c.dst.win, uni := x.uni, racy := x.racy, raced := 0, host := x.host, ecc := x.ecc, errSrc := x.errSrc
        keys := x.keys, width := x.width, own := x.own, held := x.held }
    let wv := { wv.markD c.dst false with nextFlight := wv.nextFlight + 1 }
    s.withWave c.w (fun _ =>
      if stops then { wv.deliver f f.known with flights := wv.flights ++ (f.without f.known).toList }
      else { wv with flights := wv.flights ++ [f] })

/-- The number that the next flight of the instruction's wave takes. -/
def State.nextFlight (s : State) (c : Ctx) : Nat := ((s.waves[c.w]?).map (·.nextFlight)).getD 0

/-- Whether the instruction's wave is deterministic. -/
def State.detOf (s : State) (c : Ctx) : Bool := ((s.waves[c.w]?).map s.det).getD false

/-- The core of the instruction's wave. -/
def State.coreOf (s : State) (c : Ctx) : Nat := ((s.waves[c.w]?).map (·.coreNo)).getD 0

/-- The launch of the instruction's wave. -/
def State.launchNo (s : State) (c : Ctx) : Nat := ((s.waves[c.w]?).map (·.launch)).getD 0

/-! ## Buffered effects of a deterministic wave (R395) -/

/-- The byte that the wave's latest buffered store left at a key. -/
def bufByte (buf : List DetEff) (key : Nat) : Option Byte :=
  buf.reverse.findSome? (fun e => match e with
    | .store bytes _ _ => (bytes.reverse.find? (fun b => b.1 == key)).map (·.2)
    | .atomic _ _ _ _ | .cas _ _ _ _ | .maj _ _ _ _ _ | .spanStore _ | .spanAtomic _ _ | .spanCas _ _ | .spawn _ _ _ => none)

/-- The byte that the wave's latest buffered span-storage store left in a core's pool. -/
def bufPool (buf : List DetEff) (core a : Nat) : Option Byte :=
  buf.reverse.findSome? (fun e => match e with
    | .spanStore bytes => (bytes.reverse.find? (fun b => b.1 == core && b.2.1 == a)).map (·.2.2)
    | .store _ _ _ | .atomic _ _ _ _ | .cas _ _ _ _ | .maj _ _ _ _ _ | .spanAtomic _ _ | .spanCas _ _ | .spawn _ _ _ => none)

/-- The data of the wave's latest buffered majority store to a cell. -/
def bufCell (buf : List DetEff) (setNo : BitVec 4) (cell : Nat) : Option (List Byte) :=
  buf.reverse.findSome? (fun e => match e with
    | .maj n pa data _ _ => if n = setNo ∧ pa / 64 = cell then some data else none
    | .store _ _ _ | .atomic _ _ _ _ | .cas _ _ _ _ | .spanStore _ | .spanAtomic _ _ | .spanCas _ _ | .spawn _ _ _ => none)

/-- An effect buffered by the instruction's wave. -/
def State.buffer (s : State) (c : Ctx) (e : DetEff) : State := s.withWave c.w (fun wv => { wv with buf := wv.buf ++ [e] })

/-- The buffer of the instruction's wave. -/
def State.bufOf (s : State) (c : Ctx) : List DetEff := ((s.waves[c.w]?).map (·.buf)).getD []

/-- Bytes from a key with the wave's own buffered bytes over them. -/
def overlayBuf (buf : List DetEff) (key : Nat) (bs : List Byte) : List Byte :=
  bs.mapIdx (fun i b => (bufByte buf (key + i)).getD b)

end Sys2Proof.Machine
end

