-- ==== Sys2Proof/Machine/Storage.lean ====
section
/-! DEFINITION. The group's scratchpad, span storage and the lane's tarn slice (R70, R168, R181, R184, R306). -/

namespace Sys2Proof.Machine

/-! ## Pool bytes -/

/-- The pool address of byte `o` of the scratchpad of a group (R181). -/
def scrAddr (scr : List Nat) (o : Nat) : Option Nat := (scr[o / 16384]?).map (fun g => g * 16384 + o % 16384)

/-- Bytes of a group's scratchpad. -/
def Group.scrSize (g : Group) : Nat := g.scr.length * 16384

/-- `n` bytes of a core's pool (R168, R190): a value, or ERR of source 4. -/
def State.poolRead (s : State) (core a n lane : Nat) : ReadOut :=
  let c := s.coreAt core
  if (wordsOf a n).any c.poolBad.contains then ⟨Config.errValue s.fresh lane, .err, 4⟩
  else ⟨BitVec.ofNat 128 (c.pool.readN a n), .clean, 0⟩

/-- Bytes stored in a core's pool; words written whole are correct again. -/
def State.poolWrite (s : State) (core a : Nat) (bs : List Byte) : State :=
  s.withCore core (fun c => { c with
    pool := c.pool.store a bs
    poolBad := c.poolBad.filter (fun w => !decide (a ≤ 4 * w ∧ 4 * w + 4 ≤ a + bs.length)) })

/-! ## Span storage (R306) -/

/-- The pool address that span storage names: rank and offset in the member's SCR granules, if a group of the launch holds
the granule there. -/
def State.spanAddr (s : State) (h : DWord) (launch : Nat) (a : Word) (n : Nat) : Option (Nat × Nat) :=
  match s.handleSpan h with
  | none => none
  | some sp =>
    let o := (a.extractLsb' 0 27).toNat
    match sp.members[(a.extractLsb' 27 5).toNat]? with
    | none => none
    | some m =>
      let core := handleDie h * 64 + m
      let c := s.coreAt core
      let reg := (c.partition.extractLsb' 0 7).toNat
      let scr := (c.partition.extractLsb' 7 7).toNat
      let gr := reg + o / 16384
      let held := match (lookupN gr c.granules).bind (·.owner) with
        | some (.group g) => decide ((s.groups[g]?).map (·.launch) = some launch)
        | some (.wave _) | none => false
      if o / 16384 < scr ∧ o % 16384 + n ≤ 16384 ∧ held = true then some (core, gr * 16384 + o % 16384) else none

/-- The checks of a span-storage access before those of class 5 (R306). -/
def State.spanChecks (s : State) (core : Nat) (h : DWord) : List Check :=
  [malformedCheck h,
   ⟨0x169, fun _ => (s.handleSpan h).isNone, fun _ => lo32 h⟩,
   ⟨0x16C, fun _ => !(decide (handleDie h = core / 64)
      && ((s.handleSpan h).map (fun sp => sp.members.contains (core % 64))).getD false),
    fun _ => BitVec.ofNat 32 (core % 64)⟩]

/-- A span-storage access between two cores is an event of both sketches (R299). -/
def State.noteSpan (s : State) (core p : Nat) : State := (s.bump core p).bump p core

/-! ## Where a scratchpad access lies -/

/-- The place of a scratchpad or span-storage access: core and pool address. -/
def State.poolPlace (s : State) (wv : Wave) (sp : Space) (h ea : DWord) (n : Nat) : Option (Nat × Nat) :=
  if sp = .sps then s.spanAddr h wv.launch (lo32 ea) n
  else match s.groupOf wv with
    | none => none
    | some g => if ea.toNat + n ≤ g.scrSize then (scrAddr g.scr ea.toNat).map (fun a => (wv.coreNo, a)) else none

/-- The checks at issue of LDS, STS, ATOMS and CASS (R180, R181, R306). -/
def State.poolChecks (s : State) (c : Ctx) (sp : Space) (h : DWord) (ea : Lanes DWord) (n : Nat) : List Check :=
  match s.waves[c.w]? with
  | none => []
  | some wv =>
    (if sp = .sps then s.spanChecks wv.coreNo h else [])
    ++ [alignCheck ea n,
        ⟨if sp = .sps then 0x0A8 else 0x0A1, fun L => (s.poolPlace wv sp h ea[L] n).isNone, fun L => lo32 ea[L]⟩]

/-- The place of a lane's access that has passed the checks. -/
def State.poolAt (s : State) (c : Ctx) (sp : Space) (h ea : DWord) (n : Nat) : Nat × Nat :=
  ((s.waves[c.w]?).bind (fun wv => s.poolPlace wv sp h ea n)).getD (0, 0)

/-- The handle that an instruction of SPACE 01 or 10 names: source `i`. -/
def Ctx.handle (c : Ctx) (i : Nat) : DWord := (c.u i).setWidth 64

/-- Span-storage accesses of the lanes noted in the sketches. -/
def State.notePool (s : State) (c : Ctx) (sp : Space) (h : DWord) (ea : Lanes DWord) (n : Nat) : State :=
  if sp = .sps then
    (Mask.lanes c.exec).foldl (fun s L => s.noteSpan (s.coreOf c) (s.poolAt c sp h ea[L] n).1) s
  else s

/-! ## The tarn slice (R70, R184) -/

/-- What a tarn byte holds that nothing has written (R71). -/
def Wave.tarnFresh (wv : Wave) (a : Nat) : Byte := if wv.keptTarn.contains (a / 2048) then Config.keptByte wv.kept a else 0

/-- A byte of the tarn: lane * slice + offset. -/
def Wave.tarnByte (wv : Wave) (a : Nat) : Byte := (lookupN a wv.tarn).getD (wv.tarnFresh a)

/-- `n` tarn bytes (R168): a value, or ERR of source 7. -/
def Wave.tarnRead (wv : Wave) (draw a n lane : Nat) : ReadOut :=
  if (wordsOf a n).any wv.tarnBad.contains then ⟨Config.errValue draw lane, .err, 7⟩
  else ⟨BitVec.ofNat 128 (ofBytes ((List.range n).map (fun i => wv.tarnByte (a + i)))), .clean, 0⟩

/-- Tarn bytes stored. -/
def Wave.tarnWrite (wv : Wave) (a : Nat) (bs : List Byte) : Wave :=
  { wv with tarn := Overlay.store wv.tarn a bs
            tarnBad := wv.tarnBad.filter (fun w => !decide (a ≤ 4 * w ∧ 4 * w + 4 ≤ a + bs.length)) }

/-- Bytes of a lane's slice (R70, R354). -/
def State.slice (s : State) (c : Ctx) : Nat := ((((s.waves[c.w]?).bind s.launchOf)).map (·.record.tarn)).getD 0

/-- The checks of LDT and STT (R180, R184). -/
def State.tarnChecks (s : State) (c : Ctx) (ea : Lanes DWord) (n : Nat) : List Check :=
  [alignCheck ea n, ⟨0x0A2, fun L => decide (ea[L].toNat + n > s.slice c), fun L => lo32 ea[L]⟩]

end Sys2Proof.Machine
end

