-- ==== Sys2Proof/Machine/LoadStore.lean ====
section
/-! DEFINITION. Group 9: loads and stores (R186 to R190, R322, R385, R395, R421). -/

namespace Sys2Proof.Machine

/-! ## Loads -/

/-- The low `8 n` bits of a free value or of bytes read. -/
def narrow (n : Nat) (v : BitVec 128) : BitVec 128 := v &&& BitVec.ofNat 128 (2 ^ (8 * n) - 1)

/-- What a lane's load of a translated place knows at issue: the value, or none when another agent must answer. A
deterministic wave sees its own buffered bytes over memory (R395). -/
def State.loadLane (s : State) (det : Bool) (buf : List DetEff) (core n lane : Nat) (p : Phys) : Option ReadOut :=
  let key := memKey p.kind p.pa
  let own := (List.range n).map (fun i => if det then bufByte buf (key + i) else none)
  if own.all (·.isSome) then some ⟨BitVec.ofNat 128 (ofBytes (own.map (·.getD 0))), .clean, 0⟩
  else if p.kind.toNat ≤ 2 then
    let r := s.readAs (some core) key n lane
    if r.poison = .clean ∧ det = true then
      some { r with val := BitVec.ofNat 128 (ofBytes (overlayBuf buf key (toBytes n r.val.toNat))) }
    else some { r with val := narrow n r.val }
  else if p.kind = 4 ∧ det = true then
    (bufCell buf p.setNo (p.pa / 64)).map (fun d =>
      ⟨BitVec.ofNat 128 (ofBytes ((d.drop (p.pa % 64)).take n)), .clean, 0⟩)
  else none

/-- Values of the lanes as a producer knows them. -/
def produced (m : Mask) (x : Lanes (Option ReadOut)) : Produced :=
  { known := m &&& maskOf fun L => x[L].isSome
    val := perLane fun L => (x[L].map (·.val)).getD 0
    poison := perLane fun L => (x[L].map (·.poison)).getD .clean
    errSrc := (Mask.lanes m).foldl (fun a L => match x[L] with
      | some r => if r.poison = .err then r.src else a
      | none => a) 0 }

/-- Requests for the lanes that another agent must answer: one per lane, or one for an LDU, to a remote package (R188, R421),
one per cell to a keystone (R385); under an order that acquires, later accesses wait for them (R314). -/
def State.askLanes (s : State) (c : Ctx) (id n : Nat) (uni : Bool) (o : Order) (m : Mask) (at' : Lanes (Option Phys))
    (ea : Lanes DWord) : State :=
  let e := withEa ea (c.entry 1 0 m 0)
  let cells : List (BitVec 4 × Nat) := ((Mask.lanes m).filterMap (fun L => match at'[L] with
    | some p => if p.kind = 4 then some (p.setNo, p.pa / 64) else none
    | none => none)).eraseDups
  let inCell (x : BitVec 4 × Nat) : Mask := m &&& maskOf fun L => match at'[L] with
    | some p => decide (p.kind = 4 ∧ p.setNo = x.1 ∧ p.pa / 64 = x.2)
    | none => false
  let s := ((Mask.lanes m).take (if uni then 1 else 32)).foldl (fun s L => match at'[L] with
    | some p => if p.kind = 3 then s.askRead p n (.flight c.w id L) ea[L] o.acquires else s
    | none => s) s
  { s with keys := { s.keys with accs := s.keys.accs ++ cells.map (fun x =>
      { keystone := s.coreOf c / 64, wave := c.w, flight := some id, kind := .load, setNo := x.1, pa := x.2 * 64,
        lanes := inCell x, phase := .held, replies := [], tag := 0, data := [], holds := [], answers := [],
        entry := { e with remain := inCell x }, asked := 0, fence := o.acquires, mark := s.flightMark c.w id }) } }

/-- Notes of the loads performed: each line that the instruction brings in (R299, R333), and each uncorrectable word of a stack that
it meets (R415). -/
def State.noteLoads (s : State) (core n : Nat) (h : Cache) (m : Mask) (at' : Lanes (Option Phys)) : State :=
  let keys : List Nat := (Mask.lanes m).filterMap (fun L => (at'[L]).bind (fun p =>
    if p.kind.toNat ≤ 2 then some (memKey p.kind p.pa) else none))
  (((keys.map (· / 128)).eraseDups).foldl (fun s l => s.loadLine core l h) s).noteWords
    (keys.flatMap (fun k => s.badWords (some core) k n))

/-- The keys of the bytes that lanes take from the core's pier. -/
def State.heldKeys (s : State) (core n : Nat) (keys : List (Nat × Nat)) : List Nat :=
  let o := s.pier (some core)
  keys.flatMap (fun k => ((List.range n).map (· + k.2)).filter (fun a => (lookupN a o).isSome))

/-- The wave's own buffered bytes that lie under lanes still to be known (R395). -/
def ownBytes (buf : List DetEff) (m : Mask) (n : Nat) (at' : Lanes (Option Phys)) : List (Nat × Byte) :=
  (Mask.lanes m).flatMap (fun L => match at'[L] with
    | some p => (List.range n).filterMap (fun i =>
        (bufByte buf (memKey p.kind p.pa + i)).map (fun b => (memKey p.kind p.pa + i, b)))
    | none => [])

/-- A load of global memory (R187 to R190). -/
def loadGlobal (uni : Bool) (o : LdOp) (s : State) (c : Ctx) : State :=
  let n := o.m.width.bytes
  let h := c.handle 1
  let ea := c.addrs (fun L => if o.m.space = .ordinary then (wordOf (c.v 1 L) 0).signExtend 64 else 0)
  s.checked c ((if o.m.space = .handle then [malformedCheck h] else []) ++ [alignCheck ea n]) (fun s c =>
    let core := s.coreOf c
    let det := s.detOf c
    let scope := if o.m.space = .handle then s.handleScope core h else o.m.scope
    let s := if c.exec = 0 then s else s.releaseAt det core scope o.m.order
    let r := s.plan c .load c.exec ea
    let s := r.1
    let p := r.2
    let x : Lanes (Option ReadOut) := perLane fun L =>
      (p.at'[L]).bind (s.loadLane det (s.bufOf c) core n (if uni then 0 else L.val))
    let y := produced p.ok x
    let on (f : BitVec 4 → Bool) : Mask := maskOf fun L => match p.at'[L] with | some q => f q.kind | none => false
    let here := p.ok &&& on (fun k => decide (k.toNat ≤ 2))
    let keys := (Mask.lanes here).filterMap (fun L => (p.at'[L]).map (fun q => (L.val, memKey q.kind q.pa)))
    let y := { y with
      racy := if o.m.order = .plain ∧ det = false then p.ok &&& on (fun k => decide (k ≠ 4)) else 0
      host := on (fun k => decide (k = 2)), ecc := here, uni := uni, width := n
      keys := keys, held := s.heldKeys core n keys
      own := ownBytes (s.bufOf c) (p.ok &&& ~~~y.known) n p.at' }
    let id := s.nextFlight c
    let s := (s.noteLoads core n o.m.cache y.known p.at').fly c 1 p.ok ea y (c.stops p)
    let ask := p.ok &&& ~~~y.known
    (s.askLanes c id n uni o.m.order ask p.at' ea).closeAccess c .load ea p (some id))

/-- A load from storage that answers at once: scratchpad, span storage or tarn. -/
def State.loadLocal (s : State) (c : Ctx) (ea : Lanes DWord) (x : Lane → ReadOut) : State :=
  let y := { produced c.exec (perLane fun L => if c.exec.has L then some (x L) else none) with ecc := c.exec }
  let s := s.fly c 1 c.exec ea y (!c.causes.isEmpty)
  s.finish c (if c.causes.isEmpty then 1 else 0) c.causes (withEa ea)

/-- The operands of a load. -/
def ldUses (uni : Bool) (o : LdOp) : Uses :=
  { srcs := [pairUse o.a uni, offUse o.m.space o.b uni], dst := some (o.d, o.m.width.regs)
    hold := fun s w => s.orderWaits w o.m.order }

/-- LD (R187). -/
def execLd (h : Hdr) (o : LdOp) : State → Result := issue h (ldUses false o) (loadGlobal false o)

/-- LDU (R188). -/
def execLdu (h : Hdr) (o : LdOp) : State → Result := issue h (ldUses true o) (loadGlobal true o)

/-- LDS (R181, R187, R306, R395). -/
def execLds (h : Hdr) (o : LdOp) : State → Result :=
  issue h (ldUses false o) (fun s c =>
    let n := o.m.width.bytes
    let hd := c.handle 1
    let ea := c.addrs (fun L => if o.m.space = .ordinary then (wordOf (c.v 1 L) 0).signExtend 64 else 0)
    s.checked c (s.poolChecks c o.m.space hd ea n) (fun s c =>
      let s := s.notePool c o.m.space hd ea n
      let buf := if s.detOf c ∧ o.m.space = .sps then s.bufOf c else []
      s.loadLocal c ea (fun L =>
        let q := s.poolAt c o.m.space hd ea[L] n
        let r := s.poolRead q.1 q.2 n L.val
        if r.poison = .clean then
          { r with val := BitVec.ofNat 128 (ofBytes ((toBytes n r.val.toNat).mapIdx (fun i b =>
              (bufPool buf q.1 (q.2 + i)).getD b))) }
        else { r with val := narrow n r.val })))

/-- LDT (R184, R187). -/
def execLdt (h : Hdr) (o : LdOp) : State → Result :=
  issue h (ldUses false o) (fun s c =>
    let n := o.m.width.bytes
    let ea := c.addrs (fun L => (wordOf (c.v 1 L) 0).signExtend 64)
    s.checked c (s.tarnChecks c ea n) (fun s c =>
      s.loadLocal c ea (fun L => match s.waves[c.w]? with
        | none => ⟨0, .clean, 0⟩
        | some wv =>
          let r := wv.tarnRead s.fresh (L.val * s.slice c + ea[L].toNat) n L.val
          { r with val := narrow n r.val })))

/-- The operands of PREF, which consumes nothing. -/
def prefUses (o : PrefOp) : Uses :=
  { srcs := [{ pairUse o.a with consume := none }, { offUse .ordinary o.b with consume := none }] }

/-- PREF (R188): no visible effect. -/
def execPref (h : Hdr) (o : PrefOp) : State → Result := issue h (prefUses o) (fun s c => s.finish c 0 c.causes)

/-! ## Stores -/

/-- Store data: `regs` registers or the selected element, consumed as store data (R187). -/
def dataUse (w : MWidth) (d : Src) : OpUse :=
  { fld := 0, src := d, n := w.regs, elt := .value false (8 * w.bytes), consume := some 1 }

/-- The bytes that a lane stores. -/
def Ctx.bytes (c : Ctx) (i n : Nat) (L : Lane) : List Byte := toBytes n (c.v i L).toNat

/-- Whether the pier takes a store: a plain one of a scope up to SP, or an ordered one of scope SP; every other is performed at the
home (R302, R323). -/
def pierTakes (sc : Scope) (o : Order) : Bool := if o = .plain then decide (sc.num ≤ 4) else decide (sc = .sp)

/-- One lane's store of a scope and order performed at its place (R185, R302, R421). -/
def State.storeLane (s : State) (c : Ctx) (core : Nat) (sc : Scope) (o : Order) (e : RQEntry) (p : Phys) (va : DWord)
    (L : Lane) (bs : List Byte) : State :=
  if p.kind = 3 then s.askWrite p bs (.store c.w L { e with remain := Mask.one L } (s.fresh * 2 ^ 20)) va o.acquires
  else s.storeAs core (s.launchNo c) (pierTakes sc o) (if o = .plain then some (c.w + 1) else none) (memKey p.kind p.pa) bs
    (o.releases || (o != .plain && s.fencedAt core c.w))

/-- The stores of the lanes that translated, in ascending lane order; a deterministic wave buffers them (R395). -/
def State.storeLanes (s : State) (c : Ctx) (core : Nat) (sc : Scope) (o : Order) (p : Plan) (ea : Lanes DWord)
    (data : Lane → List Byte) : State :=
  let e := withEa ea (c.entry 2 0 p.ok 0)
  if s.detOf c then
    if p.ok = 0 then s else
    s.buffer c (.store ((Mask.lanes p.ok).flatMap (fun L => match p.at'[L] with
      | some q => (data L).mapIdx (fun i b => (memKey q.kind q.pa + i, b))
      | none => [])) core e)
  else (Mask.lanes p.ok).foldl (fun s L => match p.at'[L] with
    | some q => s.storeLane c core sc o e q ea[L] L (data L)
    | none => s) s

/-- The operands of a store: data, address, offset. -/
def stUses (o : StOp) : Uses :=
  { srcs := [dataUse o.m.width o.d, pairUse o.a, offUse o.m.space o.b]
    hold := fun s w => s.orderWaits w o.m.order }

/-- Effective addresses of a store, whose address pair is source 1 and offset source 2. -/
def Ctx.stAddrs (c : Ctx) (sp : Space) : Lanes DWord :=
  let d : Ctx := { c with vals := c.vals.drop 1 }
  d.addrs (fun L => if sp = Space.ordinary then (wordOf (c.v 2 L) 0).signExtend 64 else 0)

/-- ST (R187). -/
def execSt (h : Hdr) (o : StOp) : State → Result :=
  issue h (stUses o) (fun s c =>
    let n := o.m.width.bytes
    let hd := c.handle 2
    let ea := c.stAddrs o.m.space
    s.checked c ((if o.m.space = .handle then [malformedCheck hd] else []) ++ [alignCheck ea n]) (fun s c =>
      let core := s.coreOf c
      let scope := if o.m.space = .handle then s.handleScope core hd else o.m.scope
      let s := if c.exec = 0 then s
        else (s.releaseAt (s.detOf c) core scope o.m.order).passFence (s.detOf c) core c.w (pierTakes scope o.m.order) o.m.order
      let r := s.plan c .store c.exec ea
      (r.1.storeLanes c core scope o.m.order r.2 ea (c.bytes 0 n)).closeAccess c .store ea r.2 none))

/-- STS (R181, R187, R306, R395). -/
def execSts (h : Hdr) (o : StOp) : State → Result :=
  issue h (stUses o) (fun s c =>
    let n := o.m.width.bytes
    let hd := c.handle 2
    let ea := c.stAddrs o.m.space
    s.checked c (s.poolChecks c o.m.space hd ea n) (fun s c =>
      let s := s.notePool c o.m.space hd ea n
      let s := if s.detOf c ∧ o.m.space = .sps ∧ c.exec ≠ 0 then
          s.buffer c (.spanStore ((Mask.lanes c.exec).flatMap (fun L =>
            let q := s.poolAt c o.m.space hd ea[L] n
            (c.bytes 0 n L).mapIdx (fun i b => (q.1, q.2 + i, b)))))
        else (Mask.lanes c.exec).foldl (fun s L =>
          let q := s.poolAt c o.m.space hd ea[L] n
          s.poolWrite q.1 q.2 (c.bytes 0 n L)) s
      s.finish c (if c.causes.isEmpty then 2 else 0) c.causes (withEa ea)))

/-- STT (R184, R187). -/
def execStt (h : Hdr) (o : StOp) : State → Result :=
  issue h (stUses o) (fun s c =>
    let n := o.m.width.bytes
    let ea := c.stAddrs .ordinary
    s.checked c (s.tarnChecks c ea n) (fun s c =>
      let sl := s.slice c
      let s := s.withWave c.w (fun wv => (Mask.lanes c.exec).foldl (fun wv L =>
        wv.tarnWrite (L.val * sl + ea[L].toNat) (c.bytes 0 n L)) wv)
      s.finish c (if c.causes.isEmpty then 2 else 0) c.causes (withEa ea)))

end Sys2Proof.Machine
end

