-- ==== Sys2Proof/Machine/Responses.lean ====
section
/-! DEFINITION. Answers that reach a wave's registers (R62, R177, R187 to R190). -/

namespace Sys2Proof.Machine

/-- Flight `id` of a wave. -/
def Wave.flight (wv : Wave) (id : Nat) : Option Flight := wv.flights.find? (fun f => f.id == id)

/-- The wave with flight `id` replaced, or gone. -/
def Wave.setFlight (wv : Wave) (id : Nat) (f : Option Flight) : Wave :=
  { wv with flights := wv.flights.flatMap (fun g => if g.id = id then f.toList else [g]) }

/-- Lanes `m` of flight `id` take a cause: they become a flight of their own, next to it, that nothing answers any more
(R380, R424). -/
def Wave.blameLanes (wv : Wave) (id : Nat) (m : Mask) (c : Cause) (d : Word) : Wave :=
  match wv.flight id with
  | none => wv
  | some f =>
    let x := f.entry.remain &&& m
    if x = 0 then wv else
    let e : RQEntry := { f.entry with remain := x, cause := c, detail := d }
    let g : Flight := { f with id := wv.nextFlight, entry := e, known := 0, racy := 0 }
    { wv with nextFlight := wv.nextFlight + 1
              flights := wv.flights.flatMap (fun h => if h.id = id then g :: (f.without m).toList else [h]) }

/-! ## Lanes that a peer has refused (R421, R426) -/

/-- An entry whose lanes grow by `m`; its detail is the address of its lowest lane. -/
def RQEntry.add (e : RQEntry) (m : Mask) (c : Cause) : RQEntry :=
  let r := e.remain ||| m
  { e with remain := r, cause := c, detail := ((e.lw[0]).v[Mask.lowest r]) }

/-- Lanes `m` of an access, whose entry is `e`, join those that the peer has refused. -/
def Wave.refuseLanes (wv : Wave) (of : Nat) (e : RQEntry) (dst : RDst) (m : Mask) : Wave :=
  if wv.flights.any (fun f => f.of == some of) then
    { wv with flights := wv.flights.map (fun f => if f.of = some of then { f with entry := f.entry.add m 0x1C4 } else f) }
  else wv.addFlight (fun id => { Flight.idle id ({ e with remain := 0 }.add m 0x1C4) dst with of := some of })

/-- Whether a cause that the completion of an access raises is one of the current level's own (R284, R285); `stamp` counts the
traps that the wave had entered when it made the access. -/
def Wave.ownLevel (wv : Wave) (stamp : Nat) : Bool := decide (wv.level = 0) || decide (wv.since ≤ stamp)

/-- Whether the wave can take a trap now. -/
def Wave.trapsNow (wv : Wave) : Bool :=
  wv.faulting.isNone && wv.parked.isNone && wv.entering.isEmpty && wv.stopping.isNone && wv.stopped.isNone
    && decide (wv.life = .resident)

/-- A trap of delivery L that the completion of an access makes (R421, R426): it names every refused lane, and its resume PC is
the next instruction where the split has issued nothing since (log entry 61). A cause of an earlier level waits (R285). -/
def State.raiseRefused (s : State) (w of stamp : Nat) : State :=
  match s.waves[w]? with
  | none => s
  | some wv => match wv.flights.find? (fun f => f.of == some of) with
    | none => s
    | some f =>
      let e := f.entry
      let low := (Mask.lowest e.remain).val
      if wv.ownLevel stamp && wv.trapsNow then
        let there := ((wv.table.split? e.slot).map (fun sp => decide (sp.pc = e.pc + 12))).getD false
        s.enterTrap w ⟨0x1C4, low, e.detail, e.pc, e.w0, e.w1, e.w2, e.slot, if there then some (e.pc + 12) else none, none, none⟩
      else s.raiseAsync w ⟨0x1C4, low, e.detail, some e.pc, e.w0, e.w1, e.w2⟩

/-- The trap of a load or atomic some of whose lanes were refused, once its other lanes have completed. -/
def State.settleRefused (s : State) (w id stamp : Nat) : State :=
  if ((s.waves[w]?).bind (·.flight id)).isSome then s else s.raiseRefused w (2 * id) stamp

/-- Lanes `m` of a flight, with their values in it, written to the registers; dropped when the granule has been granted again
(R177). A wave that is off its core takes what a boundary answers into its record (R394). -/
def State.landFlight (s : State) (w : Nat) (f : Flight) (m : Mask) : State :=
  (s.withWave w (fun wv =>
    let same := wv.place.isNone || f.gen == s.genOf w wv.coreNo f.dst.er[(0 : Lane)].toNat
    let wv' := if same then wv.deliver f m else wv
    wv'.setFlight f.id (f.without m))).settleRefused w f.id (((s.waves[w]?).map (·.traps)).getD 0)

/-- The answer to lanes `m` of a flight: values, poison, the source of an ERR, and for a CAS the lanes that stored. -/
structure Answer where
  lanes : Mask
  val : Lane → BitVec 128
  poison : Lane → Poison
  errSrc : BitVec 3
  ok : Mask

/-- An answer from another agent lands; the one answer of an LDU is every lane's (R188). -/
def State.answer (s : State) (w id : Nat) (a : Answer) : State :=
  match (s.waves[w]?).bind (·.flight id) with
  | none => s
  | some f =>
    let m := a.lanes &&& f.entry.remain
    let one (L : Lane) : Lane := if f.uni then Mask.lowest m else L
    let val := perLane fun L => a.val (one L)
    let poison := perLane fun L => a.poison (one L)
    let m := if f.uni ∧ m ≠ 0 then f.entry.remain else m
    s.landFlight w { f with
      val := perLane fun L => if m.has L then val[L] else f.val[L]
      poison := perLane fun L => if m.has L then poison[L] else f.poison[L]
      errSrc := a.errSrc, known := f.known ||| m
      pred := f.pred.map (fun p => (p.1, (p.2 &&& ~~~m) ||| (a.ok &&& m))) } m

/-- MEMORY RESPONSE (R62, R189, R190): the lanes of flight `k` whose values are known are written. Of the lanes that a plain load
could return RACE in, those of `race` that a plain store of another wave or of a copy has met do (R189); the lanes of `err` whose
data a memory supplied meet an uncorrectable word, whose source is `src`, counted when it is a stack's (R415). The one access of an
LDU marks every lane (R188). -/
def State.memoryResponse (s : State) (w k : Nat) (race err : Mask) (src : BitVec 3) : State :=
  match (s.waves[w]?).bind (·.flight k) with
  | none => s
  | some f =>
    if f.entry.kind = 5 ∨ f.known &&& f.entry.remain = 0 then s else
    let m := f.known &&& f.entry.remain
    let all (x : Mask) : Mask := if f.uni ∧ x ≠ 0 then m else x
    let bad := all (m &&& f.ecc &&& err)
    let raced := all (m &&& f.racy &&& f.raced &&& race) &&& ~~~bad
    let lane (L : Lane) : Nat := if f.uni then 0 else L.val
    let n : Nat := 32 * f.dst.n
    let cut (v : BitVec 128) : BitVec 128 := v &&& BitVec.ofNat 128 (2 ^ n - 1)
    let f := { f with
      val := perLane fun L => if bad.has L then cut (Config.errValue s.fresh (lane L))
        else if raced.has L then cut (Config.raceValue s.fresh (lane L)) else f.val[L]
      poison := perLane fun L => if bad.has L then .err else if raced.has L then .race else f.poison[L]
      errSrc := if bad = 0 then f.errSrc else src }
    let top := ((Mask.lanes raced).getLast?).getD 0
    let s := if src = 0 then s.noteWords ((Mask.lanes bad).flatMap (fun L => ((f.keyOf L).map (fun k => wordsOf k f.width)).getD []))
      else s
    let s := if raced = 0 then s else s.withWave w (fun wv => { wv with raceSpace := if f.host.has top then 1 else 0 })
    s.landFlight w f m

/-- MEMORY RESPONSE. -/
def execMemoryResponse (w k : Nat) (race err : Mask) (src : BitVec 3) (s : State) : Result :=
  .next (s.memoryResponse w k race err src)

/-! ## Entries of the object table (R199, R200) -/

/-- An entry from its 64 bytes (R199). -/
def objOf (bs : List Byte) : ObjEntry :=
  let num (o n : Nat) : Nat := ofBytes ((bs.drop o).take n)
  let w := BitVec.ofNat 32 (num 8 4)
  let dims := (w.extractLsb' 4 4).toNat
  let ext := (List.range 5).map (fun d => num (16 + 4 * d) 4)
  { base := BitVec.ofNat 64 (num 0 8), fmt := w.extractLsb' 0 4, dims := dims, r := w.getLsbD 8, w := w.getLsbD 9,
    atom := w.getLsbD 10, copy := w.getLsbD 11
    valid := w.getLsbD 15 && decide (w.extractLsb' 12 3 = 0#3) && decide (w.extractLsb' 16 16 = 0#16)
      && decide (num 12 4 = 0) && decide (num 56 8 = 0) && decide (1 ≤ dims ∧ dims ≤ 5)
      && decide ((w.extractLsb' 0 4).toNat ≤ 12)
    ext := ext, stride := (List.range 5).map (fun d => num (36 + 4 * d) 4) }

/-- The core caches an entry that it has read (R200). -/
def State.cacheEntry (s : State) (core : Nat) (dom i : BitVec 16) (bs : List Byte) : State :=
  s.withCore core (fun c => { c with ot := c.ot ++ [(dom, i, objOf bs)] })

/-- A read of an entry that ended with a cause: the instruction that waits for it raises it. -/
def State.failEntry (s : State) (core : Nat) (dom i : BitVec 16) (c : Cause) : State :=
  s.withCore core (fun k => { k with otFail := k.otFail ++ [(dom, i, c)] })

end Sys2Proof.Machine
end

