-- ==== Sys2Proof/Machine/Majority.lean ====
section
/-! DEFINITION. MLD and MST, and the steps of the keystones: majority accesses, loss of quorum, the scrubber, rebasing, and
stacks that stop answering or return (R371 to R386). -/

namespace Sys2Proof.Machine

/-! ## MLD and MST (R383, R384) -/

/-- The lanes of the half. -/
def halfMask (hi : Bool) : Mask := if hi then 0xFFFF0000 else 0x0000FFFF

/-- The cell of the lowest participant. -/
def cellOf (ea : Lanes DWord) (m : Mask) : Nat := ea[Mask.lowest m].toNat / 64

/-- The checks that MLD and MST share (R383). -/
def cellChecks (ea : Lanes DWord) (m : Mask) : List Check :=
  [alignCheck ea 4, ⟨0x0E3, fun L => decide (ea[L].toNat / 64 ≠ cellOf ea m), fun L => lo32 ea[L]⟩]

/-- The operands of MLD. -/
def mldUses (o : MldOp) : Uses :=
  { srcs := [pairUse o.a], dst := some (o.d, 1), part := halfMask o.hi
    hold := fun s w => s.orderWaits w o.order }

/-- MLD (R383, R384). -/
def execMld (h : Hdr) (o : MldOp) : State → Result :=
  let half := halfMask o.hi
  issue h (mldUses o) (fun s c =>
    let c := { c with exec := c.exec &&& half }
    let ea := c.addrs (fun _ => o.ofs.signExtend 64)
    s.checked c (cellChecks ea c.exec) (fun s c =>
      let s := if c.exec = 0 then s else s.releaseAt (s.detOf c) (s.coreOf c) o.scope o.order
      let r := s.plan c .majLoad c.exec ea
      let s := r.1
      let p := r.2
      let x : Lanes (Option ReadOut) := perLane fun L =>
        (p.at'[L]).bind (s.loadLane (s.detOf c) (s.bufOf c) (s.coreOf c) 4 L.val)
      let y := produced p.ok x
      let id := s.nextFlight c
      let s := s.fly c 1 p.ok ea y (c.stops p)
      (s.askLanes c id 4 false o.order (p.ok &&& ~~~y.known) p.at' ea).closeAccess c .majLoad ea p (some id)))

/-- The 64 bytes that MST stores: word (ea mod 64) / 4 from each participant (R384). -/
def cellData (ea : Lanes DWord) (m : Mask) (v : Lane → Word) : List Byte :=
  (List.range 16).flatMap (fun i =>
    toBytes 4 (match (Mask.lanes m).find? (fun L => ea[L].toNat % 64 / 4 == i) with
      | some L => (v L).toNat
      | none => 0))

/-- Whether the half is complete and names 16 words (R383). -/
def halfBad (ea : Lanes DWord) (half m : Mask) : Bool :=
  decide (m ≠ half) || !(List.range 16).all (fun i => (Mask.lanes m).any (fun L => ea[L].toNat % 64 / 4 == i))

/-- A majority access opened at the keystone of a die. -/
def State.openMaj (s : State) (a : MajAcc) : State := { s with keys := { s.keys with accs := s.keys.accs ++ [a] } }

/-- A majority store opened (R375). -/
def State.askStore (s : State) (w core : Nat) (p : Phys) (data : List Byte) (e : RQEntry) (fence : Bool) : State :=
  s.openMaj { keystone := core / 64, wave := w, flight := none, kind := .store data (BitVec.ofNat 8 core), setNo := p.setNo,
              pa := p.pa / 64 * 64, lanes := e.remain, phase := .held, replies := [], tag := 0, data := [], holds := [],
              answers := [], entry := e, asked := 0, fence := fence }

/-- The operands of MST. -/
def mstUses (o : MstOp) : Uses :=
  { srcs := [{ fld := 0, src := o.d, consume := some 1 }, pairUse o.a], part := halfMask o.hi
    hold := fun s w => s.orderWaits w o.order }

/-- MST (R383, R384); buffered inside a deterministic tree (R395). -/
def execMst (h : Hdr) (o : MstOp) : State → Result :=
  let half := halfMask o.hi
  issue h (mstUses o) (fun s c =>
    let c := { c with exec := c.exec &&& half }
    if c.exec = 0 then s.finish c 0 c.causes else
    let d : Ctx := { c with vals := c.vals.drop 1 }
    let ea := d.addrs (fun _ => o.ofs.signExtend 64)
    s.checked c (cellChecks ea c.exec ++
        [⟨0x0E4, fun _ => halfBad ea half c.exec, fun _ => c.exec⟩]) (fun s c =>
      let core := s.coreOf c
      let s := (s.releaseAt (s.detOf c) core o.scope o.order).passFence (s.detOf c) core c.w false o.order
      let r := s.plan c .majStore c.exec ea
      let data := cellData ea c.exec (fun L => wordOf (c.v 0 L) 0)
      let e := withEa ea (c.entry 2 0 r.2.ok 0)
      let put (p : Phys) : State :=
        if s.detOf c then r.1.buffer c (.maj p.setNo (p.pa / 64 * 64) data core e)
        else r.1.askStore c.w core p data e o.order.acquires
      let s := ((r.2.at'[Mask.lowest r.2.ok]).map put).getD r.1
      s.closeAccess c .majStore ea r.2 none))

/-! ## Copies (R372, R378) -/

/-- The fields of a replica set. -/
def State.repset (s : State) (n : BitVec 4) : DWord := (s.keys.repset[n.toNat]?).getD 0

/-- Copies of a set: 3 or 5. -/
def repN (r : DWord) : Nat := if r.getLsbD 30 then 5 else 3

/-- The quorum (R372). -/
def repQ (r : DWord) : Nat := (repN r + 2) / 2

/-- The stack of copy `i`. -/
def repStack (r : DWord) (i : Nat) : Nat := (r.extractLsb' (4 * i) 4).toNat

/-- The region offset of a cell (R372). -/
def repOff (r : DWord) (pa : Nat) : Nat := (r.extractLsb' 48 16).toNat * 2 ^ 20 + pa / 64 * 64

/-- Whether an offset of a stack's majority region has lost its contents and has not been rewritten as a whole since (R378). -/
def Keystones.lostAt (k : Keystones) (stack off : Nat) : Bool :=
  k.lost.getLsbD stack && !k.rewritten.any (fun x => x.1 == stack && decide (x.2.1 ≤ off ∧ off < x.2.2))

/-- The spaces of a set's copies: stack, first and end offset (R372). -/
def setSpaces (r : DWord) : List (Nat × Nat × Nat) :=
  (List.range (repN r)).map (fun i => (repStack r i, repOff r 0, repOff r 0 + (r.extractLsb' 32 16).toNat * 2 ^ 20))

/-- Every copy of a set has been written: those that `copies` does not list hold stamp 1 after a rebase, 0 after Prawin's
writes (R373, R381). -/
def Keystones.rewrite (k : Keystones) (r : DWord) (one : Bool) : Keystones :=
  let new := (setSpaces r).map (fun x => (x.1, x.2.1, x.2.2, one))
  { k with
    rewritten := k.rewritten ++ (setSpaces r).filter (fun x => k.lost.getLsbD x.1 && !k.rewritten.contains x)
    stamps := new ++ k.stamps.filter (fun x => !(setSpaces r).contains (x.1, x.2.1, x.2.2.1)) }

/-- The tag of a copy that nothing lists (R373, R381): of core 0, with stamp 1 after a rebase, else 0. -/
def Keystones.plainTag (k : Keystones) (stack off : Nat) : BitVec 64 :=
  match k.stamps.find? (fun x => x.1 == stack && decide (x.2.1 ≤ off ∧ off < x.2.2.1)) with
  | some x => if x.2.2.2 then 0x100 else 0
  | none => 0

/-- The copy of a cell on a stack at a region offset; one that nothing has written holds zero (R373), damaged where the stack
has lost its contents (R378). -/
def State.copyAt (s : State) (stack off : Nat) : MajCopy :=
  match s.keys.copies.find? (fun c => c.1 == stack && c.2.1 == off) with
  | some c => c.2.2
  | none => ⟨s.keys.plainTag stack off, List.replicate 64 0, s.keys.lostAt stack off⟩

/-- A copy replaced. -/
def State.setCopyAt (s : State) (stack off : Nat) (c : MajCopy) : State :=
  { s with keys := { s.keys with
      copies := (stack, off, c) :: s.keys.copies.filter (fun x => !(x.1 == stack && x.2.1 == off)) } }

/-- The stamp of a tag (R374). -/
def stampOf (t : BitVec 64) : BitVec 56 := t.extractLsb' 8 56

/-- A keystone's counter is at least a stamp (R374). -/
def State.raiseStamp (s : State) (k : Nat) (st : BitVec 56) : State :=
  { s with keys := { s.keys with kstamp := s.keys.kstamp.mapIdx (fun i x => if i = k ∧ x.toNat < st.toNat then st else x) } }

/-- Majority access `k` changed. -/
def State.setAcc (s : State) (k : Nat) (f : MajAcc → MajAcc) : State :=
  { s with keys := { s.keys with accs := s.keys.accs.modify k f } }

/-- A store or write-back sent to a copy (R375, R376); to an unreachable stack it is discarded (R387). -/
def State.sendCopy (s : State) (k : Nat) (r : DWord) (pa copy : Nat) (t : BitVec 64) (data : List Byte) : State :=
  if s.stackUp.getLsbD (repStack r copy) then
    { s with keys := { s.keys with msgs := s.keys.msgs ++
        [{ acc := some k, copy := copy, stack := repStack r copy, off := repOff r pa, tag := t, data := data }] } }
  else s

/-- The copies that a query reaches: those of reachable stacks (R387). -/
def State.upCopies (s : State) (r : DWord) : BitVec 5 :=
  (List.range (repN r)).foldl (fun m i => if s.stackUp.getLsbD (repStack r i) then m ||| (1#5 <<< i) else m) 0

/-- Whether a copy answers an access's query now: it was asked, has not answered, and its stack is reachable. -/
def State.answers (s : State) (a : MajAcc) (r : DWord) (copy : Nat) : Bool :=
  a.asked.getLsbD copy && decide (copy < repN r) && a.replies.all (fun x => x.1 != copy) && s.stackUp.getLsbD (repStack r copy)
    && !(s.copyAt (repStack r copy) (repOff r a.pa)).damaged

/-- The rule by which a copy takes a store or write-back (R375): the state, and whether it answers ACCEPT. -/
def State.takeCopy (s : State) (stack off : Nat) (t : BitVec 64) (data : List Byte) : State × Bool :=
  let c := s.copyAt stack off
  if c.damaged ∨ c.tag.toNat < t.toNat then (s.setCopyAt stack off ⟨t, data, false⟩, true) else (s, false)

/-! ## The course of an access (R375 to R377, R380) -/

/-- The access ends with a class 7 cause, delivered as asynchronous (R380, R381): a load leaves its lanes unfinished, under the
cause; a store leaves nothing. A read of an object-table entry gives the cause to the instruction that waits for it. -/
def State.failMaj (s : State) (k : Nat) (c : Cause) : State :=
  match s.keys.accs[k]? with
  | none => s
  | some a =>
    let d := BitVec.ofNat 32 a.pa
    let s := s.setAcc k (fun a => { a with phase := .done })
    match a.kind with
    | .entry core dom i => s.failEntry core dom i c
    | .load | .store _ _ =>
      let s := match a.flight with
        | none => s
        | some id => s.withWave a.wave (fun wv => wv.blameLanes id a.lanes c d)
      s.raiseAsync a.wave ⟨c, (Mask.lowest a.lanes).val, d, some a.entry.pc, a.entry.w0, a.entry.w1, a.entry.w2⟩

/-- A store with its quorum of tags takes its stamp and is sent to every copy (R375). -/
def State.stampStore (s : State) (k : Nat) (a : MajAcc) (data : List Byte) (core : Byte) : State :=
  let r := s.repset a.setNo
  let top := a.replies.foldl (fun m x => max m (stampOf x.2.1).toNat) (((s.keys.kstamp[a.keystone]?).getD 0).toNat)
  if top + 1 > 2 ^ 56 - 1 then s.failMaj k 0x0E8
  else
    let st : BitVec 56 := BitVec.ofNat 56 (top + 1)
    let t : BitVec 64 := st ++ core
    let s := (s.raiseStamp a.keystone st).setAcc k (fun a => { a with phase := .write, tag := t, data := data })
    (List.range (repN r)).foldl (fun s i => s.sendCopy k r a.pa i t data) s

/-- Values of a load's lanes from the data of its cell. -/
def cellAnswer (f : Flight) (m : Mask) (data : List Byte) (n : Nat) : Answer :=
  { lanes := m, poison := fun _ => .clean, errSrc := f.errSrc, ok := 0
    val := fun L => BitVec.ofNat 128 (ofBytes ((data.drop (((f.entry.lw[0]).v[L]).toNat % 64)).take n)) }

/-- Bytes that each lane of a majority load takes: its access width (R385), a word for MLD (R384). -/
def majWidth (e : RQEntry) : Nat :=
  if e.w2.extractLsb' 22 10 = 0x2C5#10 then 4 else 2 ^ (e.w2.extractLsb' 0 3).toNat

/-- A load that Q copies are known to hold completes (R376). -/
def State.settleMaj (s : State) (k : Nat) : State :=
  match s.keys.accs[k]? with
  | none => s
  | some a =>
    if a.phase = .write ∧ a.holds.length ≥ repQ (s.repset a.setNo) then
      let s := s.setAcc k (fun a => { a with phase := .done })
      match a.kind, a.flight with
      | .load, some id => (match (s.waves[a.wave]?).bind (·.flight id) with
          | some f => s.answer a.wave id (cellAnswer f a.lanes a.data (majWidth a.entry))
          | none => s)
      | .entry core dom i, _ => s.cacheEntry core dom i a.data
      | .load, none | .store _ _, _ => s
    else s

/-- MAJ_ACCESS_START (R377, R381): held accesses start in the wave's issue order to one cell, not during a rebase. -/
def State.majStart (s : State) (k : Nat) : State :=
  match s.keys.accs[k]? with
  | none => s
  | some a =>
    let before := (s.keys.accs.take k).any (fun b =>
      decide (b.wave = a.wave ∧ b.setNo = a.setNo ∧ b.pa = a.pa ∧ b.phase ≠ .done))
    if a.phase = .held ∧ before = false ∧ s.keys.rebaseBusy = false then
      s.setAcc k (fun a => { a with phase := .query, asked := s.upCopies (s.repset a.setNo) })
    else s

/-- MAJ_TAG_REPLY (R374, R375, R378): every reply raises the counter; the store takes its stamp at the `Q`th. -/
def State.majTag (s : State) (k copy : Nat) : State :=
  match s.keys.accs[k]? with
  | none => s
  | some a =>
    let r := s.repset a.setNo
    let c := s.copyAt (repStack r copy) (repOff r a.pa)
    match a.kind with
    | .load | .entry _ _ _ => s
    | .store data core =>
      if s.answers a r copy then
        let s := (s.raiseStamp a.keystone (stampOf c.tag)).setAcc k (fun a => { a with replies := a.replies ++ [(copy, c.tag, [])] })
        if a.phase = .query ∧ a.replies.length + 1 = repQ r then
          s.stampStore k { a with replies := a.replies ++ [(copy, c.tag, [])] } data core
        else s
      else s

/-- The reply of greatest tag. -/
def bestReply (l : List (Nat × BitVec 64 × List Byte)) : BitVec 64 × List Byte :=
  l.foldl (fun b x => if b.1.toNat ≤ x.2.1.toNat then x.2 else b) (0, List.replicate 64 0)

/-- MAJ_LOAD_ANSWER (R374, R376, R378): the first Q undamaged answers are the first majority, whose laggards get write-backs; a
later answer of a tag at or above counts as a copy known to hold it. Every answer raises the counter. -/
def State.majLoad (s : State) (k copy : Nat) : State :=
  match s.keys.accs[k]? with
  | none => s
  | some a =>
    let r := s.repset a.setNo
    let c := s.copyAt (repStack r copy) (repOff r a.pa)
    match a.kind with
    | .store _ _ => s
    | .load | .entry _ _ _ =>
      if s.answers a r copy then
        let replies := a.replies ++ [(copy, c.tag, c.data)]
        let s := (s.raiseStamp a.keystone (stampOf c.tag)).setAcc k (fun a => { a with replies := replies })
        if a.phase = .write then
          let s := if c.tag.toNat ≥ a.tag.toNat ∧ a.holds.contains copy = false then
              s.setAcc k (fun a => { a with holds := a.holds ++ [copy] }) else s
          s.settleMaj k
        else if a.phase = .query ∧ replies.length = repQ r then
          let best := bestReply replies
          let s := s.setAcc k (fun a => { a with
            phase := .write, tag := best.1, data := best.2,
            holds := (replies.filter (fun x => decide (x.2.1 = best.1))).map (·.1) })
          let late := replies.filter (fun x => decide (x.2.1.toNat < best.1.toNat))
          let s := (late.foldl (fun s x => s.sendCopy k r a.pa x.1 best.1 best.2) s).count 0x0221 late.length
          s.settleMaj k
        else s
      else s

/-- MAJ_COPY_STORE (R375, R378): message `m` reaches its copy, and the answer goes back; at an unreachable stack it is lost. -/
def State.majCopy (s : State) (m : Nat) : State :=
  match s.keys.msgs[m]? with
  | none => s
  | some x =>
    let s := { s with keys := { s.keys with msgs := s.keys.msgs.eraseIdx m } }
    if s.stackUp.getLsbD x.stack then
      let r := s.takeCopy x.stack x.off x.tag x.data
      match x.acc with
      | none => r.1
      | some k => r.1.setAcc k (fun a => { a with answers := a.answers ++ [(x.copy, r.2)] })
    else s

/-- MAJ_STORE_ANSWER (R375, R376): an ACCEPT or PRESENT answer reaches the keystone. -/
def State.majAnswer (s : State) (k copy : Nat) (accept : Bool) : State :=
  match s.keys.accs[k]? with
  | none => s
  | some a =>
    if a.answers.contains (copy, accept) then
      (s.setAcc k (fun a => { a with
        answers := a.answers.filter (fun x => x != (copy, accept))
        holds := if a.holds.contains copy then a.holds else a.holds ++ [copy] })).settleMaj k
    else s

/-- LOSS_OF_QUORUM (R380): a started access whose condition does not hold. -/
def State.majLost (s : State) (k : Nat) : State :=
  match s.keys.accs[k]? with
  | none => s
  | some a =>
    if a.phase = .query ∨ a.phase = .write then
      s.failMaj k (match a.kind with | .load | .entry _ _ _ => 0x0E6 | .store _ _ => 0x0E7)
    else s

/-! ## The scrubber and rebasing (R379, R381) -/

/-- The reachable copies of a cell, with their numbers. -/
def State.cellCopies (s : State) (r : DWord) (pa : Nat) : List (Nat × MajCopy) :=
  ((List.range (repN r)).filter (fun i => s.stackUp.getLsbD (repStack r i))).map (fun i =>
    (i, s.copyAt (repStack r i) (repOff r pa)))

/-- One cell scrubbed (R379). -/
def State.scrubCell (s : State) (r : DWord) (pa : Nat) : State :=
  let cs := s.cellCopies r pa
  let good := cs.filter (fun c => !c.2.damaged)
  if good.length < repQ r then s
  else
    let best := bestReply (good.map (fun c => (c.1, c.2.tag, c.2.data)))
    cs.foldl (fun (s : State) (c : Nat × MajCopy) =>
      if c.2.damaged ∨ c.2.tag.toNat < best.1.toNat then
        (s.takeCopy (repStack r c.1) (repOff r pa) best.1 best.2).1.count 0x0221
      else s) s

/-- The cells of a replica set. -/
def setCells (r : DWord) : Nat := (r.extractLsb' 32 16).toNat * 2 ^ 14

/-- SCRUB_STEP (R379): the next cell of a valid set, in ascending order, while the scrubber is enabled and its rate is not 0. -/
def State.scrub (s : State) (set cell : Nat) : State :=
  let r := s.repset (BitVec.ofNat 4 set)
  let at' := (s.keys.scrubAt[set]?).getD 0
  if s.keys.scrub.getLsbD 31 ∧ s.keys.scrub.extractLsb' 0 20 ≠ 0#20 ∧ r.getLsbD 31 ∧ cell < setCells r
      ∧ cell = (if at' < setCells r then at' else 0) then
    let s := s.scrubCell r (cell * 64)
    { s with keys := { s.keys with scrubAt := s.keys.scrubAt.setIfInBounds set (cell + 1) } }
  else s

/-- The valid sets. -/
def State.validSets (s : State) : List DWord := s.keys.repset.toList.filter (fun r => r.getLsbD 31)

/-- The region offsets of the cells of a set that some member stack lists: every other cell holds tag 0 on every copy. -/
def State.listedCells (s : State) (r : DWord) : List Nat :=
  ((s.keys.copies.filter (fun c => (List.range (repN r)).any (fun i => repStack r i == c.1)
      && decide (repOff r 0 ≤ c.2.1 ∧ c.2.1 < repOff r 0 + (r.extractLsb' 32 16).toNat * 2 ^ 20))).map
    (fun c => c.2.1 - repOff r 0)).eraseDups

/-- The parts of a set's space, as offsets in it, in each of which every unlisted cell has the same undamaged copies. -/
def State.parts (s : State) (r : DWord) : List (Nat × Nat) :=
  let size := (r.extractLsb' 32 16).toNat * 2 ^ 20
  let cuts := s.keys.rewritten.flatMap (fun x => [x.2.1 - repOff r 0, x.2.2 - repOff r 0])
  let points := ((0 :: size :: cuts).filter (· ≤ size)).foldl (fun l x => insertSet x l) []
  points.zip (points.drop 1)

/-- Whether every unlisted cell of a part has Q undamaged copies, or the part has none. -/
def State.partOk (s : State) (r : DWord) (x : Nat × Nat) : Bool :=
  decide (x.2 - x.1 ≤ 64 * ((s.listedCells r).filter (fun c => decide (x.1 ≤ c ∧ c < x.2))).length)
    || decide (((List.range (repN r)).filter (fun i => !s.keys.lostAt (repStack r i) (repOff r 0 + x.1))).length ≥ repQ r)

/-- The unlisted damaged copies of a set, which a rebase's scrub repairs (R379, R381). -/
def State.plainRepairs (s : State) (r : DWord) : Nat :=
  ((s.parts r).map (fun x =>
    let cells := (x.2 - x.1) / 64 - ((s.listedCells r).filter (fun c => decide (x.1 ≤ c ∧ c < x.2))).length
    cells * ((List.range (repN r)).filter (fun i => s.keys.lostAt (repStack r i) (repOff r 0 + x.1))).length)).sum

/-- Whether a rebase of a set can succeed (R381): every stack reachable, every cell with Q undamaged copies. -/
def State.rebaseOk (s : State) (r : DWord) : Bool :=
  (List.range (repN r)).all (fun i => s.stackUp.getLsbD (repStack r i))
    && (s.listedCells r).all (fun pa =>
      decide (((s.cellCopies r pa).filter (fun c => !c.2.damaged)).length ≥ repQ r))
    && (s.parts r).all (s.partOk r)

/-- Every access in flight has completed: none stands between its start and its end. -/
def Keystones.quiet (k : Keystones) : Bool := k.accs.all (fun a => decide (a.phase = .held ∨ a.phase = .done))

/-- A tag with stamp 1 and the same core number (R381). -/
def rebased (t : BitVec 64) : BitVec 64 := (1#56) ++ t.extractLsb' 0 8

/-- REBASE_COMPLETE (R381): every cell scrubbed, every stamp and counter 1; or nothing changed and FAIL set. Held accesses
are released. Messages on their way to copies have arrived first. -/
def State.rebase (s : State) : State :=
  if s.keys.rebaseBusy = false ∨ s.keys.quiet = false ∨ s.keys.msgs.isEmpty = false then s
  else
    let sets := s.validSets
    if sets.all s.rebaseOk then
      let s := sets.foldl (fun s r =>
        ((s.listedCells r).foldl (fun s pa => s.scrubCell r pa) s).count 0x0221 (s.plainRepairs r)) s
      { s with keys := { sets.foldl (fun k r => k.rewrite r true) s.keys with
          rebaseBusy := false, rebaseFail := false, kstamp := Vector.replicate 4 1
          copies := s.keys.copies.map (fun c =>
            if sets.any (fun r => (List.range (repN r)).any (fun i => repStack r i == c.1)
                && decide (repOff r 0 ≤ c.2.1 ∧ c.2.1 < repOff r 0 + (r.extractLsb' 32 16).toNat * 2 ^ 20)) then
              (c.1, c.2.1, { c.2.2 with tag := rebased c.2.2.tag }) else c) } }
    else { s with keys := { s.keys with rebaseBusy := false, rebaseFail := true } }

/-! ## Stacks and sites (R371, R378) -/

/-- STACK_UNREACHABLE (R371): stack `n`, or second-tier site `n`. -/
def State.stackDown (s : State) (tier : Bool) (n : Nat) : State :=
  if tier then { s with siteUp := s.siteUp &&& ~~~((1 : BitVec 8) <<< n) } else { s with stackUp := s.stackUp &&& ~~~((1 : BitVec 12) <<< n) }

/-- STACK_RETURN (R378): Prawin brings it back with its contents kept or lost; a stack whose contents are lost has its
majority region marked damaged, and what its other bytes hold is a free value (log entry 11). -/
def State.stackBack (s : State) (tier : Bool) (n : Nat) (lost : Bool) : State :=
  let s := if tier then { s with siteUp := s.siteUp ||| ((1 : BitVec 8) <<< n) } else { s with stackUp := s.stackUp ||| ((1 : BitVec 12) <<< n) }
  if lost then
    let kind : BitVec 4 := if tier then 1 else 0
    let here (key : Nat) : Bool := keyKind key == kind && stackOf s.cfg kind (key % 2 ^ 52) == n
    let s := { s with mem := s.mem.filterMap (fun c =>
      if here c.1 then
        let b := Config.lostByte s.fresh c.1
        if b = unlistedByte then none else some (c.1, b)
      else some c) }
    if tier then s
    else { s with keys := { s.keys with
        lost := s.keys.lost ||| ((1 : BitVec 12) <<< n)
        rewritten := s.keys.rewritten.filter (fun x => x.1 != n)
        copies := s.keys.copies.map (fun c => if c.1 = n then (c.1, c.2.1, { c.2.2 with damaged := true }) else c) } }
  else s

/-! ## The steps -/

/-- MAJ_ACCESS_START. -/
def execMajAccessStart (k : Nat) (s : State) : Result := .next (s.majStart k)
/-- MAJ_TAG_REPLY. -/
def execMajTagReply (k copy : Nat) (s : State) : Result := .next (s.majTag k copy)
/-- MAJ_COPY_STORE. -/
def execMajCopyStore (m : Nat) (s : State) : Result := .next (s.majCopy m)
/-- MAJ_LOAD_ANSWER. -/
def execMajLoadAnswer (k copy : Nat) (s : State) : Result := .next (s.majLoad k copy)
/-- MAJ_STORE_ANSWER. -/
def execMajStoreAnswer (k copy : Nat) (accept : Bool) (s : State) : Result := .next (s.majAnswer k copy accept)
/-- LOSS_OF_QUORUM. -/
def execLossOfQuorum (k : Nat) (s : State) : Result := .next (s.majLost k)
/-- SCRUB_STEP. -/
def execScrubStep (set cell : Nat) (s : State) : Result := .next (s.scrub set cell)
/-- REBASE_COMPLETE. -/
def execRebaseComplete (s : State) : Result := .next s.rebase
/-- STACK_UNREACHABLE. -/
def execStackUnreachable (tier : Bool) (n : Nat) (s : State) : Result := .next (s.stackDown tier n)
/-- STACK_RETURN. -/
def execStackReturn (tier : Bool) (n : Nat) (lost : Bool) (s : State) : Result := .next (s.stackBack tier n lost)

end Sys2Proof.Machine
end

