-- ==== Sys2Proof/Machine/Atomic.lean ====
section
/-! DEFINITION. Group A: atomics, reductions, fences, cache control and object-table synchronisation (R191 to R198). -/

namespace Sys2Proof.Machine

/-! ## Operations (R192) -/

/-- An integer atomic's new value from the old one and the operand. -/
def atomInt (op : AtomI) (t : IType) (m v : Nat) : Nat :=
  let rd (x : Nat) : Int := t.read (BitVec.ofNat 128 x)
  match op with
  | .add => (m + v) % 2 ^ t.width
  | .min => if rd m ≤ rd v then m else v
  | .max => if rd m ≤ rd v then v else m
  | .and => m &&& v
  | .or => m ||| v
  | .xor => m ^^^ v
  | .exch => v
  | .inc => if m ≥ v then 0 else m + 1
  | .dec => if m = 0 ∨ m > v then v else m - 1

/-- A floating atomic's new value; flags are not recorded. -/
def atomFloat (op : AtomF) (t : EType) (m v : Nat) : Nat :=
  let f := fmtOf t
  match op with
  | .fadd => (f.add .rne m v).bits
  | .fmin => (f.minmax false true m v).bits
  | .fmax => (f.minmax true true m v).bits

/-- An atomic's new value (R192). -/
def atomNew (op : AtomOp) (m v : Nat) : Nat :=
  match op with
  | .int o t => atomInt o t m v
  | .fp o t => atomFloat o t m v

/-! ## The shared course of the global read-modify-writes -/

/-- What a read-modify-write does in a lane: an operation of R192, or a compare and swap (R194). -/
def rmwNew (a : RemAtom) (m : Nat) : Option Nat :=
  match a with
  | .op o v => some (atomNew o m v)
  | .cas e n => if m = e then some n else none

/-- Operand 0 of an atomic, `n` bytes. -/
def Ctx.atomV (c : Ctx) (n : Nat) (L : Lane) : Nat := (c.v 0 L).toNat % 2 ^ (8 * n)

/-- The expected and the new value of a CAS (R194). -/
def Ctx.casV (c : Ctx) (n : Nat) (L : Lane) : RemAtom :=
  .cas ((c.v 0 L).toNat % 2 ^ (8 * n)) ((c.v 0 L).toNat / 2 ^ (8 * n) % 2 ^ (8 * n))

/-- Effective addresses of an atomic, whose address pair is source 1 (R191). -/
def Ctx.atomAddrs (c : Ctx) (off : AtomOff) : Lanes DWord :=
  let d : Ctx := { c with vals := c.vals.drop 1 }
  d.addrs (fun _ => match off with
    | .ofs o => o.signExtend 64
    | .handle _ => 0)

/-- The lanes whose places this package holds, in ascending order, each on the value that the lanes below it left (R185,
R195): the state, the old values, and where something was stored. -/
def State.rmwLanes (s : State) (core n : Nat) (m : Mask) (at' : Lanes (Option Phys)) (a : Lane → RemAtom) :
    State × Lanes (Option ReadOut) × Mask :=
  (Mask.lanes m).foldl (fun (r : State × Lanes (Option ReadOut) × Mask) L => match at'[L] with
    | none => r
    | some p =>
      if p.kind.toNat ≤ 2 then
        let x := r.1.atomicAs core (memKey p.kind p.pa) n L.val (rmwNew (a L))
        let old := x.2.val.toNat % 2 ^ (8 * n)
        (x.1, r.2.1.set L (some { x.2 with val := BitVec.ofNat 128 old }),
          if (rmwNew (a L) old).isSome then r.2.2 ||| Mask.one L else r.2.2)
      else r) (s, splat none, 0)

/-- A read-modify-write that the home performs leaves the earlier writes that the pier holds readable there: one that releases under a
handle at its instance, and one that goes on from a store that the pier holds and a release precedes (R314, R315, R324, log entry
67). -/
def State.rmwRelease (s : State) (core n : Nat) (named : Bool) (sc : Scope) (o : Order) (m : Mask) (at' : Lanes (Option Phys)) :
    State :=
  let rel := ((s.instanceOf core).map (·.rel)).getD []
  let goesOn (L : Lane) : Bool := match at'[L] with
    | some p => decide (p.kind.toNat ≤ 2) && rel.any (fun k => !outside (memKey p.kind p.pa) n k)
    | none => false
  if m ≠ 0 ∧ ((named = true ∧ sc = .sp ∧ o.releases = true) ∨ (Mask.lanes m).any goesOn = true) then s.drainAt core else s

/-- Requests for the lanes of remote packages (R421). -/
def State.askAtomics (s : State) (n : Nat) (m : Mask) (at' : Lanes (Option Phys)) (ea : Lanes DWord)
    (a : Lane → RemAtom) (who : Lane → ReqFor) (o : Order) : State :=
  (Mask.lanes m).foldl (fun s L => match at'[L] with
    | some p => if p.kind = 3 then s.askAtomic p n (a L) (who L) ea[L] o.acquires else s
    | none => s) s

/-- The buffered form of a read-modify-write (R395). -/
def detRmw (flight : Option Nat) (n core : Nat) (m : Mask) (at' : Lanes (Option Phys)) (a : Lane → RemAtom) (e : RQEntry) : List DetEff :=
  let key (L : Lane) : Nat := match at'[L] with | some p => memKey p.kind p.pa | none => 0
  let ops := (Mask.lanes m).filterMap (fun L => match a L with
    | .op o v => some (L.val, key L, n, o, BitVec.ofNat 64 v)
    | .cas _ _ => none)
  let cas := (Mask.lanes m).filterMap (fun L => match a L with
    | .op _ _ => none
    | .cas e v => some (L.val, key L, n, BitVec.ofNat 64 e, BitVec.ofNat 64 v))
  (if ops.isEmpty then [] else [.atomic flight ops core e])
    ++ (match flight with | some f => if cas.isEmpty then [] else [.cas f cas core e] | none => [])

/-- The quantum of a deterministic wave ends after an atomic's issue, unless the wave is to park (R393). -/
def State.endAtomic (s : State) (c : Ctx) : State :=
  if c.exec0 ≠ 0 ∧ ((s.waves[c.w]?).map (fun wv => wv.faulting.isNone)).getD false = true then s.endQuantum c.w else s

/-- ATOM, CAS and RED (R193, R194, R195, R335). `pred` is the predicate of a CAS. -/
def rmwGlobal (g : GAcc) (m : MemF) (off : AtomOff) (a : Ctx → Lane → RemAtom) (pred : Option PNum) (s : State) (c : Ctx) :
    State :=
  let n := m.width.bytes
  let ea := c.atomAddrs off
  let h := c.handle 2
  s.checked c ((if m.space = .handle then [malformedCheck h] else []) ++ [alignCheck ea n]) (fun s c =>
    let core := s.coreOf c
    let det := s.detOf c
    let scope := if m.space = .handle then s.handleScope core h else m.scope
    let s := if c.exec = 0 then s else (s.releaseAt det core scope m.order).passFence det core c.w false m.order
    let r := s.plan c g c.exec ea
    let p := r.2
    let id := r.1.nextFlight c
    let x := if det then (r.1, splat none, 0)
      else (r.1.rmwRelease core n (m.space = .handle) scope m.order p.ok p.at').rmwLanes core n p.ok p.at' (a c)
    let s := x.1
    let e := withEa ea (c.entry 2 0 p.ok 0)
    let s := if det ∧ p.ok ≠ 0 then
        (detRmw (if g = .red then none else some id) n core p.ok p.at' (a c) e).foldl (fun s e => s.buffer c e) s
      else s
    if g = .red then
      let s := if det then s else s.askAtomics n p.ok p.at' ea (a c)
        (fun L => .store c.w L { e with remain := Mask.one L } (s.fresh * 2 ^ 20)) m.order
      s.closeAccess c g ea p none
    else
      let y := { produced p.ok x.2.1 with pred := pred.map (fun q => (q, x.2.2)) }
      let y := { y with ecc := y.known }
      let s := s.fly c 3 p.ok ea y (c.stops p)
      let s := if det then s else s.askAtomics n p.ok p.at' ea (a c) (fun L => .flight c.w id L) m.order
      (s.closeAccess c g ea p (some id)).endAtomic c)

/-- ATOMS and CASS (R193, R194, R306, R395). -/
def rmwPool (m : MemF) (off : AtomOff) (a : Ctx → Lane → RemAtom) (pred : Option PNum) (s : State) (c : Ctx) : State :=
  let n := m.width.bytes
  let ea := c.atomAddrs off
  let h := c.handle 2
  s.checked c (s.poolChecks c m.space h ea n) (fun s c =>
    let s := s.notePool c m.space h ea n
    let id := s.nextFlight c
    let kind : BitVec 3 := if c.causes.isEmpty then 3 else 0
    if s.detOf c ∧ m.space = .sps then
      let at' (L : Lane) : Nat × Nat := s.poolAt c m.space h ea[L] n
      let ops := (Mask.lanes c.exec).filterMap (fun L => match a c L with
        | .op o v => some (L.val, (at' L).1, (at' L).2, n, o, BitVec.ofNat 64 v)
        | .cas _ _ => none)
      let cas := (Mask.lanes c.exec).filterMap (fun L => match a c L with
        | .op _ _ => none
        | .cas e v => some (L.val, (at' L).1, (at' L).2, n, BitVec.ofNat 64 e, BitVec.ofNat 64 v))
      let s := if ops.isEmpty then s else s.buffer c (.spanAtomic (some id) ops)
      let s := if cas.isEmpty then s else s.buffer c (.spanCas id cas)
      let y := { produced c.exec (splat none) with pred := pred.map (fun q => (q, 0)) }
      (((s.fly c 3 c.exec ea y (!c.causes.isEmpty)).finish c kind c.causes (withEa ea) (some id))).endAtomic c
    else
      let x := (Mask.lanes c.exec).foldl (fun (r : State × Lanes (Option ReadOut) × Mask) L =>
        let q := r.1.poolAt c m.space h ea[L] n
        let o := r.1.poolRead q.1 q.2 n L.val
        let old := o.val.toNat % 2 ^ (8 * n)
        let o := { o with val := BitVec.ofNat 128 old }
        match rmwNew (a c L) old with
        | some v => (r.1.poolWrite q.1 q.2 (toBytes n v), r.2.1.set L (some o), r.2.2 ||| Mask.one L)
        | none => (r.1, r.2.1.set L (some o), r.2.2)) (s, splat none, 0)
      let y := { produced c.exec x.2.1 with ecc := c.exec, pred := pred.map (fun q => (q, x.2.2)) }
      (x.1.fly c 3 c.exec ea y (!c.causes.isEmpty)).finish c kind c.causes (withEa ea))

/-- The operands of an atomic: data, address, handle. -/
def atomUses (m : MemF) (d : Src) (n : Nat) (a : Src) (off : AtomOff) : Uses :=
  { srcs := [{ fld := 0, src := d, n := n, elt := .value false 128, consume := some 1 }, pairUse a] ++ atomOffUse off
    hold := fun s w => s.orderWaits w m.order }

/-- The operands of ATOM and ATOMS: D is data and destination. -/
def atUses (o : AtomF') : Uses :=
  { atomUses o.m o.d.asSrc o.m.width.regs o.a o.off with dst := some (o.d, o.m.width.regs) }

/-- The operands of RED. -/
def redUses (o : RedF) : Uses := atomUses o.m o.d o.m.width.regs o.a o.off

/-- The operands of CAS and CASS: D is a pair or a quad (R194). -/
def casUses (o : CasF) : Uses :=
  { atomUses o.m o.d.asSrc (2 * o.m.width.regs) o.a o.off with
    dst := some (o.d, 2 * o.m.width.regs), preds := [o.p] }

/-- ATOM (R193). -/
def execAtom (h : Hdr) (o : AtomF') : State → Result :=
  issue h (atUses o) (rmwGlobal .atomic o.m o.off (fun c L => .op o.op (c.atomV o.m.width.bytes L)) none)

/-- ATOMS (R193). -/
def execAtoms (h : Hdr) (o : AtomF') : State → Result :=
  issue h (atUses o) (rmwPool o.m o.off (fun c L => .op o.op (c.atomV o.m.width.bytes L)) none)

/-- RED (R193). -/
def execRed (h : Hdr) (o : RedF) : State → Result :=
  issue h (redUses o) (rmwGlobal .red o.m o.off (fun c L => .op o.op (c.atomV o.m.width.bytes L)) none)

/-- CAS (R194). -/
def execCas (h : Hdr) (o : CasF) : State → Result :=
  issue h (casUses o) (rmwGlobal .atomic o.m o.off (fun c L => c.casV o.m.width.bytes L) (some o.p))

/-- CASS (R194). -/
def execCass (h : Hdr) (o : CasF) : State → Result :=
  issue h (casUses o) (rmwPool o.m o.off (fun c L => c.casV o.m.width.bytes L) (some o.p))

/-! ## Ordering and cache control -/

/-- The operand of FENCE: a handle. It waits until the wave's earlier accesses are performed: a release orders them before
what follows, an acquire the loads among them (R316, R421). -/
def fenceUses (o : FenceOp) : Uses :=
  { srcs := match o.hnd with | some b => [offUse .handle b] | none => []
    hold := fun s w => s.accessOpen w }

/-- FENCE (R196, R302, R304, R421). A release at the instance of a handle marks the wave, whose next ordered store outside it drains the
pier (R316). -/
def execFence (h : Hdr) (o : FenceOp) : State → Result :=
  issue h (fenceUses o) (fun s c =>
    let hd := c.handle 0
    s.checked c (if o.hnd.isSome then [malformedCheck hd] else []) (fun s c =>
      let core := s.coreOf c
      let scope := if o.hnd.isSome then s.handleScope core hd else o.scope
      let s := if c.exec = 0 then s else s.releaseAt (s.detOf c) core scope o.order
      let s := if c.exec ≠ 0 ∧ o.hnd.isSome = true ∧ scope = .sp ∧ o.order.releases = true ∧ s.detOf c = false then
          s.withInstance core (fun sp => { sp with fenced := insertSet c.w sp.fenced })
        else s
      s.finish c 0 c.causes))

/-- The operand of CCTL: an address pair. -/
def cctlUses (o : CctlOp) : Uses := { srcs := match o.a with | some a => [pairUse a] | none => [] }

/-- Whether a scope of CCTL covers every cache of the package, dirty data going to the memory itself (R334). -/
def cctlAll : Scope → Bool
  | .pk | .hs | .sy => true
  | .co | .di | .ln | .wv | .gp | .sp | .vd => false

/-- The line that an address names, if the domain translates it in this package (R334): no right is needed (R338). -/
def State.lineOf (s : State) (die : Nat) (dom : Domain) (va : DWord) : Option Nat :=
  match (s.translate die dom va .none).1 with
  | .ok p => if p.kind.toNat ≤ 2 then some (memKey p.kind p.pa / 128) else none
  | .error _ => none

/-- Whether a CCTL names a line: every one under ALL, else those that its lanes name. -/
def State.cctlLine (s : State) (c : Ctx) (all : Bool) (line : Nat) : Bool :=
  all || match (s.waves[c.w]?).bind s.launchOf with
    | some l => (Mask.lanes c.exec).any (fun L => s.lineOf (s.coreOf c / 64) l.domain ((c.v 0 L).setWidth 64) == some line)
    | none => false

/-- The dirty bytes of the piers in named lines stand in the memory that holds them too (R334); what the agents of the package observe
stays (R302, R333). -/
def State.writeBack (s : State) (named : Nat → Bool) : State :=
  { s with dies := s.dies.map (fun d => { d with spans := d.spans.map (fun sp => { sp with
      back := ((sp.dirty.map (·.1)).filter (fun k => named (k / 128))).foldl (fun l k => insertSet k l) sp.back }) }) }

/-- Named lines leave the L1s that a scope of CCTL covers (R197, R334). -/
def State.dropLines (s : State) (core : Nat) (sc : Scope) (named : Nat → Bool) : State :=
  { s with cores := s.cores.map (fun k =>
      if k.1 = core ∨ cctlAll sc = true then (k.1, { k.2 with l1 := k.2.l1.filter (fun l => !named l) }) else k) }

/-- CCTL (R197, R333, R334): its operations write dirty data back, and `.INV` drops the lines; it orders nothing, changes no value
that an access returns and raises no cause of its own. What reaches the memory itself only an agent outside the ordering rules
observes (log entry 64). -/
def execCctl (h : Hdr) (o : CctlOp) : State → Result :=
  issue h (cctlUses o) (fun s c =>
    let named := s.cctlLine c o.a.isNone
    let t := if c.exec = 0 then s
      else
        let t := if cctlAll o.scope then s.writeBack named else s
        if o.op ≠ .wb then t.dropLines (s.coreOf c) o.scope named else t
    t.finish c 0 c.causes)

/-- The cores within a scope of OTSYNC. -/
def otCores (core : Nat) (sc : Scope) (k : Nat) : Bool :=
  match sc with
  | .co => decide (k = core)
  | .di => decide (k / 64 = core / 64)
  | .ln | .wv | .gp | .sp | .pk | .hs | .vd | .sy => true

/-- Whether a read of an entry of the wave's domain is under way for a core within the scope: OTSYNC completes after it (R198). -/
def State.entriesRead (s : State) (w : Nat) (sc : Scope) : Bool :=
  match s.waves[w]? with
  | none => false
  | some wv =>
    let mine (who : Nat × BitVec 16) : Bool := otCores wv.coreNo sc who.1 && decide ((s.launchOf wv).map (·.domain.id) = some who.2)
    s.via.streams.any (fun st => st.2.reqs.any (fun r => match r.who with
      | .entry core dom _ => mine (core, dom)
      | .flight _ _ _ | .store _ _ _ _ | .copyRead _ _ | .copyWrite _ | .matrix _ _ | .agent _ => false))
    || s.keys.accs.any (fun a => a.phase != .done && (match a.kind with
      | .entry core dom _ => mine (core, dom)
      | .load | .store _ _ => false))

/-- OTSYNC (R198). -/
def execOtsync (h : Hdr) (scope : Scope) : State → Result :=
  issue h { hold := fun s w => s.entriesRead w scope } (fun s c =>
    let dom := (((s.waves[c.w]?).bind s.launchOf).map (·.domain.id)).getD 0
    let core := s.coreOf c
    let s := if c.exec = 0 then s else { s with cores := s.cores.map (fun k =>
      if otCores core scope k.1 then (k.1, { k.2 with ot := k.2.ot.filter (fun e => e.1 != dom), otFail := k.2.otFail.filter (fun e => e.1 != dom) })
      else k) }
    s.finish c 0 c.causes)

end Sys2Proof.Machine
end

