-- ==== Sys2Proof/Machine/Faults.lean ====
section
/-! DEFINITION. The fault table and the fault record queue of a die (R343 to R345). -/

namespace Sys2Proof.Machine

/-- An MSI-X vector raised (R400). -/
def State.vector (s : State) (v : Nat) : State :=
  { s with mgmt := { s.mgmt with msix := s.mgmt.msix ||| (1#66 <<< v) } }

/-! ## The record queue (R344, R345) -/

/-- The words of a record with its queue index (R344). -/
def FaultRec.bytes (r : FaultRec) (seq : Word) : List Byte :=
  toBytes 8 (r.va.toNat / 4096 * 4096)
    ++ toBytes 4 (r.dom.toNat * 2 ^ 16 + r.cause.toNat)
    ++ toBytes 4 r.token.toNat
    ++ toBytes 4 (r.access.toNat * 2 ^ 28 + r.core.toNat * 2 ^ 16 + r.quad.toNat * 2 ^ 14)
    ++ toBytes 4 r.lwave.toNat ++ toBytes 4 0 ++ toBytes 4 seq.toNat

/-- Waiting records written while the queue has room; none before software has set FQSIZE (R345). -/
def State.writeRecords (s : State) (die : Nat) : Nat → State
  | 0 => s
  | n + 1 =>
    let d := (s.dies[die]?).getD Die.reset
    match d.fqWaiting with
    | [] => s
    | r :: rest =>
      if d.fqsize = 0 ∨ (d.fqtail - d.fqhead).toNat = 2 ^ d.fqsize.toNat then s
      else
        let a := d.fqbase.toNat + d.fqtail.toNat % 2 ^ d.fqsize.toNat * 32
        let s := (s.writeHome (memKey 0 a) (r.bytes d.fqtail)).withDie die (fun d =>
          { d with fqWaiting := rest, fqtail := d.fqtail + 1 })
        State.writeRecords (s.vector 64) die n

/-- A record posted (R343, R345). -/
def State.postRecord (s : State) (die : Nat) (r : FaultRec) : State :=
  let s := s.withDie die (fun d => { d with fqWaiting := d.fqWaiting ++ [r] })
  s.writeRecords die ((s.dies[die]?).getD Die.reset).fqWaiting.length

/-! ## The fault table (R343) -/

/-- What a record says of the agent that posts it (R344). -/
structure Poster where
  lwave : Word
  access : BitVec 4
  core : Nat
  quad : Nat
  deriving DecidableEq, Repr

/-- A wave as the poster of a record. -/
def Wave.poster (wv : Wave) (access : BitVec 4) : Poster :=
  ⟨wv.lwave, access, wv.coreNo, (wv.place.map (·.quad)).getD 0⟩

/-- The outstanding entry of a key. -/
def Die.outstanding (d : Die) (dom : BitVec 16) (page : Nat) (c : Cause) : Option Nat :=
  (d.faults.find? (fun f => f.2.outstanding && decide (f.2.dom = dom ∧ f.2.page = page ∧ f.2.cause = c))).map (·.1)

/-- The lowest entry that is not outstanding. -/
def Die.freeFault (d : Die) : Option Nat :=
  (List.range 1024).find? (fun i => match lookupN i d.faults with | some f => !f.outstanding | none => true)

/-- TOKEN of an entry (R344). -/
def faultToken (i : Nat) (gen : BitVec 16) : Word := BitVec.ofNat 32 (gen.toNat * 2 ^ 16 + i)

/-- An agent attaches to the entry of a key: to the outstanding one, else to a free one with a record posted, else to none
(R343). The fault discards the cached copy of the entry that faulted (R339). -/
def State.attach (s : State) (die : Nat) (dom : BitVec 16) (va : DWord) (c : Cause) (p : Poster) : State × Option Nat :=
  let s := s.dropLeaf die dom va c
  let d := (s.dies[die]?).getD Die.reset
  let page := va.toNat / 4096 % 2 ^ 36
  match d.outstanding dom page c with
  | some i => (s, some i)
  | none => match d.freeFault with
    | none => (s, none)
    | some i =>
      let gen := match lookupN i d.faults with | some f => f.gen + 1 | none => 0
      let s := s.withDie die (fun d => { d with faults := insertN i ⟨dom, page, c, gen, true⟩ d.faults })
      (s.postRecord die { lwave := p.lwave, access := p.access, core := BitVec.ofNat 8 (p.core % 64),
                          quad := BitVec.ofNat 2 p.quad, token := faultToken i gen, dom := dom, cause := c, va := va },
        some i)

end Sys2Proof.Machine
end

