-- ==== Sys2Proof/Machine/Engine.lean ====
section
/-! DEFINITION. What the copy and matrix engines share: layouts, places, the object table, global accesses of an element,
batches (R182, R183, R199 to R205, R348, R385, R421). -/

namespace Sys2Proof.Machine

/-! ## The layout word (R182, R183) -/

/-- A layout: permutation, element size, base, strides. -/
structure Layout where
  perm : Nat
  es : Nat
  base : Nat
  s0 : Nat
  s1 : Nat
  s2 : Nat
  deriving DecidableEq, Repr

/-- The layout that three registers hold; none when it is refused (R182). -/
def layoutOf (v : BitVec 128) : Option Layout :=
  let w0 := wordOf v 0
  let w1 := wordOf v 1
  let w2 := wordOf v 2
  let es := 2 ^ (w0.extractLsb' 20 2).toNat
  let l : Layout :=
    { perm := (w0.extractLsb' 22 4).toNat, es := es, base := (w0.extractLsb' 0 20).toNat
      s0 := (w1.extractLsb' 0 16).toNat, s1 := (w1.extractLsb' 16 16).toNat, s2 := (w2.extractLsb' 0 16).toNat }
  if w0.extractLsb' 26 6 ≠ 0#6 ∨ l.perm > 7 ∨ w2.extractLsb' 16 16 ≠ 0#16 ∨ l.base % es ≠ 0 ∨ l.s0 % es ≠ 0
      ∨ l.s1 % es ≠ 0 ∨ l.s2 % es ≠ 0 then none
  else some l

/-- Place (R183). -/
def Layout.place (l : Layout) (i0 i1 i2 : Nat) : Nat :=
  let s := l.base + i0 * l.s0 + i1 * l.s1 + i2 * l.s2
  if l.perm = 0 then s
  else
    let w := s / 4
    let row := w / 64
    let bank := Nat.xor (w % 64) (row * 2 ^ (l.perm - 1) % 64)
    (row * 64 + bank) * 4 + s % 4

/-- The first place of a list whose element reaches beyond the scratchpad (R183). -/
def placeBeyond (size es : Nat) (l : List Nat) : Option Nat := l.find? (fun p => decide (p + es > size))

/-! ## A group's scratchpad as engines reach it -/

/-- The pool bytes of `n` bytes from a scratchpad offset of a group. -/
def scrBytes (scr : List Nat) (o n : Nat) : List Nat := (List.range n).map (fun i => (scrAddr scr (o + i)).getD 0)

/-- Bytes of listed pool addresses, each with whether it lies in an uncorrectable word (R190). -/
def State.poolTake (s : State) (core : Nat) (at' : List Nat) : List (Byte × Bool) :=
  let c := s.coreAt core
  at'.map (fun a => (c.pool.read a, c.poolBad.contains (a / 4)))

/-- The number that bytes hold, and whether one is uncorrectable. -/
def markedNum (l : List (Byte × Bool)) : Nat × Bool := (ofBytes (l.map (·.1)), l.any (·.2))

/-- Bytes of an element, all uncorrectable where its residue check failed twice (R430). -/
def spoiled (bad : Bool) (l : List (Byte × Bool)) : List (Byte × Bool) := l.map (fun b => (b.1, b.2 || bad))

/-- Bytes written to listed pool addresses (R190). -/
def State.poolScatter (s : State) (core : Nat) (at' : List Nat) (bs : List (Byte × Bool)) : State :=
  s.withCore core (fun c =>
    let x := markedWrite c.pool c.poolBad at' bs
    { c with pool := x.1, poolBad := x.2 })

/-! ## Events that no index of the lifetime counters names -/

/-- The model's index of engine operations that meet an uncorrectable word or fail a residue check twice: R247 and R430 count
them, and R415 lists no index, so that LCIDX cannot name it. -/
def engineIndex : Nat := 0x10001

/-- An operation that reads an uncorrectable word is counted (R247). -/
def State.noteBad (s : State) (bad : Bool) : State := if bad then s.count engineIndex else s

/-- The residue check of an engine operation at a core (R430): a mismatch is retried, and the elements that fail it twice, by
their order modulo 32, get an uncorrectable code. -/
def State.engineResidue (s : State) (core : Nat) : State × (Nat → Bool) :=
  match s.residue with
  | none => (s, fun _ => false)
  | some (m, _, _, twice) =>
    let s := ({ s with residue := none }).count core
    if twice ∧ m ≠ 0 then (s.count engineIndex, fun i => m.getLsbD (i % 32)) else (s, fun _ => false)

/-! ## Global accesses of an element (R202, R385, R421) -/

/-- The places of the `n` bytes from an address, or the first fault. -/
def State.bytePlaces (s : State) (die : Nat) (dom : Domain) (need : Need) (va : DWord) : Nat → Except (DWord × Cause) (List Phys)
  | 0 => .ok []
  | n + 1 =>
    match State.bytePlaces s die dom need va n with
    | .error e => .error e
    | .ok l => match (s.translate die dom (va + BitVec.ofNat 64 n) need).1 with
      | .ok p => .ok (l ++ [p])
      | .error c => .error (va + BitVec.ofNat 64 n, c)

/-- Runs of neighbouring bytes in one 4 KiB page, which is of one stack or site (R370): first place, offset in the element, length. -/
def runsOf (l : List Phys) : List (Phys × Nat × Nat) :=
  (l.foldl (fun (a : List (Phys × Nat × Nat) × Nat) p =>
    (match a.1.reverse with
      | (q, o, n) :: rest =>
        if q.kind = p.kind ∧ q.setNo = p.setNo ∧ q.pa + n = p.pa ∧ p.pa % 4096 ≠ 0 then rest.reverse ++ [(q, o, n + 1)]
        else a.1 ++ [(p, a.2, 1)]
      | [] => [(p, a.2, 1)], a.2 + 1)) ([], 0)).1

/-- What an element's global access meets: places, a translation fault, or a cause that abandons the operation. -/
inductive ElMet
  | runs (l : List (Phys × Nat × Nat))
  | fault (va : DWord) (c : Cause)
  | drop (c : Cause)
  deriving DecidableEq, Repr

/-- An element's `n` bytes as an engine on a die meets them; `maj` is the cause of a majority page. -/
def State.elMeet (s : State) (die : Nat) (dom : Domain) (need : Need) (maj : Cause) (va : DWord) (n : Nat) : ElMet :=
  match s.bytePlaces die dom need va n with
  | .error e => .fault e.1 e.2
  | .ok l =>
    if l.any (fun p => p.kind == 4) then .drop maj
    else if l.any (fun p => decide (p.kind = 3 ∧ (s.stream (remoteOf p).1).st = .lost)) then .drop 0x1C3
    else .runs (runsOf l)

/-- Bytes of a run of this package read by an engine at a core; those of uncorrectable words are free (R190). -/
def State.runRead (s : State) (core : Nat) (r : Phys × Nat × Nat) : List (Byte × Bool) :=
  let key := memKey r.1.kind r.1.pa
  (s.seen (some core) key r.2.2).mapIdx (fun i b =>
    if s.keyUp key = false ∨ s.seenBad (some core) (key + i) 1 = true then (BitVec.ofNat 8 (Config.choice s.fresh (key + i)), true)
    else (b, false))

/-- The uncorrectable words that a run meets are counted (R415). -/
def State.noteRun (s : State) (r : Phys × Nat × Nat) (bs : List (Byte × Bool)) : State :=
  let key := memKey r.1.kind r.1.pa
  s.noteWords (((bs.zipIdx).filter (fun b => b.1.2)).map (fun b => (key + b.2) / 4))

/-- Bytes of a run of this package written by an engine at a core as the plain store `by'`; the words of those that are
uncorrectable take that code (R190). -/
def State.runWrite (s : State) (core launch : Nat) (pier : Bool) (by' : Nat) (r : Phys × Nat × Nat) (bs : List (Byte × Bool)) :
    State :=
  let key := memKey r.1.kind r.1.pa
  let bad := (bs.zipIdx).filter (fun b => b.1.2)
  bad.foldl (fun s b => s.spoilHome (key + b.2) 1)
    (s.storeAs core launch (pier && bad.isEmpty) (some by') key (bs.map (·.1)))

/-! ## The object table (R199, R200) -/

/-- Element bytes of a format code (R199). -/
def objBytes (fmt : BitVec 4) : Nat :=
  if fmt = 5 then 8 else if fmt = 0 ∨ fmt = 3 ∨ fmt = 4 then 4 else if fmt = 1 ∨ fmt = 2 then 2 else 1

/-- What the read of an entry gives: the entry, an invalid one, a translation fault, a cause of the read (class 7 or 14) at once or of
one sent before, or that another agent has now been asked, or has still to answer. Each but the fault carries the state after it. -/
inductive ObjRead
  | entry (e : ObjEntry) (s : State)
  | bad (s : State)
  | fault (va : DWord) (c : Cause)
  | cause (c : Cause) (d : Word) (s : State)
  | late (c : Cause) (d : Word) (s : State)
  | ask (s : State)
  | wait (s : State)

/-- Whether a read of the entry is under way for the core. -/
def State.entryAsked (s : State) (core : Nat) (dom i : BitVec 16) : Bool :=
  s.via.streams.any (fun st => st.2.reqs.any (fun r => decide (r.who = .entry core dom i)))
    || s.keys.accs.any (fun a => decide (a.kind = .entry core dom i ∧ a.phase ≠ .done))

/-- The read of an entry sent to another package or to the keystones (R385, R421). -/
def State.askEntry (s : State) (core w : Nat) (dom i : BitVec 16) (p : Phys) (va : DWord) (e : RQEntry) : State :=
  if p.kind = 3 then s.askRead p 64 (.entry core dom i) va
  else { s with keys := { s.keys with accs := s.keys.accs ++ [
    { keystone := core / 64, wave := w, flight := none, kind := .entry core dom i, setNo := p.setNo, pa := p.pa / 64 * 64
      lanes := e.remain, phase := .held, replies := [], tag := 0, data := [], holds := [], answers := [], entry := e
      asked := 0, fence := false }] } }

/-- Entry `i` of the domain's table, from the core's cache or read as a load in the domain for wave `w` (R199, R200); the core
keeps what it has read. -/
def State.object (s : State) (core w : Nat) (dom : Domain) (i : Nat) (e : RQEntry) : ObjRead :=
  if i ≥ dom.otSize.toNat then .bad s
  else
    let c := s.coreAt core
    let ib := BitVec.ofNat 16 i
    let va := dom.otBase + BitVec.ofNat 64 (64 * i)
    match c.ot.find? (fun e => decide (e.1 = dom.id ∧ e.2.1 = ib)), c.otFail.find? (fun f => decide (f.1 = dom.id ∧ f.2.1 = ib)) with
    | some e, _ => if e.2.2.valid then .entry e.2.2 s else .bad s
    | none, some f =>
      .late f.2.2 (lo32 va) (s.withCore core (fun c => { c with otFail := c.otFail.filter (· != f) }))
    | none, none =>
      match s.translate (core / 64) dom va .read with
      | (.error x, _) => .fault va x
      | (.ok p, leaf) =>
        let s := s.learn (core / 64) leaf
        match s.placed .load va p with
        | .cause x d => .cause x d s
        | .fault x => .fault va x
        | .place p =>
          if p.kind.toNat ≤ 2 then
            let bs := (List.range 4).flatMap (fun j => toBytes 16 (s.readAs (some core) (memKey p.kind (p.pa + 16 * j)) 16 j).val.toNat)
            let s := s.noteWords (s.badWords (some core) (memKey p.kind p.pa) 64)
            let s := s.cacheEntry core dom.id ib bs
            if (objOf bs).valid then .entry (objOf bs) s else .bad s
          else if s.entryAsked core dom.id ib then .wait s
          else .ask (s.askEntry core w dom.id ib p va e)

/-- The address of the element at coordinates of an object (R202). -/
def ObjEntry.addr (e : ObjEntry) (c : List Nat) : DWord :=
  e.base + BitVec.ofNat 64 ((c.zip e.stride).foldl (fun a x => a + x.1 * x.2) 0)

/-- Whether coordinates lie in an object (R202): below EXT in its dimensions, zero in the others. -/
def ObjEntry.inside (e : ObjEntry) (c : List Nat) : Bool :=
  (List.range 5).all (fun d => decide (if d < e.dims then c.getD d 0 < e.ext.getD d 0 else c.getD d 0 = 0))

/-! ## Batches (R203) -/

/-- Batch `m` is at or before `n` (R203). -/
def batchBy (m n : Word) : Bool := decide ((n - m).toNat < 2 ^ 31)

/-- The number after a batch number, 0 skipped (R204). -/
def nextBatch (n : Word) : Word := if n = 0xFFFFFFFF then 1 else n + 1

/-- CLOSED of a class. -/
def Wave.closed (wv : Wave) (mtx : Bool) : Word := if mtx then wv.closedM else wv.closedC

/-- The batches of the wave's unfinished operations of a class. -/
def State.openBatches (s : State) (w : Nat) (mtx : Bool) : List Word :=
  if mtx then
    s.cores.flatMap (fun k => k.2.mq.filterMap (fun e => if e.wave = w then e.batch else none))
  else s.copies.filterMap (fun e => if e.wave = w ∧ e.done = false then some e.batch else none)

/-- Batch `n` is complete: no unfinished operation of a batch at or before it (R203). -/
def State.batchDone (s : State) (w : Nat) (mtx : Bool) (n : Word) : Bool :=
  (s.openBatches w mtx).all (fun m => !batchBy m n)

/-- Closed batches that are incomplete: from the oldest unfinished one to CLOSED. -/
def State.openClosed (s : State) (w : Nat) (mtx : Bool) : Nat :=
  let c := ((s.waves[w]?).map (·.closed mtx)).getD 0
  ((s.openBatches w mtx).filter (fun m => batchBy m c)).foldl (fun a m =>
    max a ((c - m).toNat + (if c.toNat < m.toNat then 0 else 1))) 0

end Sys2Proof.Machine
end

