-- ==== Sys2Proof/Machine/Copy.lean ====
section
/-! DEFINITION. Copy operations and batches of group B (R201 to R205), waits of a split (R169, R279), and the step in which
the copy engine performs an operation. -/

namespace Sys2Proof.Machine

/-! ## Waits of a split -/

/-- The wait of the split at a place ends its wave's quantum, which the next one awaits, unless the count has ended it already
(R393). -/
def State.endByWait (s : State) (w slot : Nat) : State :=
  match s.waves[w]? with
  | none => s
  | some wv =>
    if s.det wv = false ∨ wv.qended = true then s
    else (s.withWave w (fun wv => { wv with qwait := some slot })).endQuantum w

/-- The issuing split waits (R169, R279): the instruction retires, the split stands at the next instruction, and a flight
of kind 5 keeps its place in the issue order. A wait is a switch point and ends a deterministic quantum (R174, R393). -/
def State.beginWait (s : State) (c : Ctx) (wt : Wait) : State :=
  match s.waves[c.w]? with
  | none => s
  | some _ =>
    let lanes := match c.replay with | some e => e.remain | none => c.exec0
    let slot := match c.replay with | some e => e.slot | none => c.slot
    let e : RQEntry := { c.entry 5 0 lanes 0 with slot := slot, wait := some wt, lw := Vector.replicate 12 ⟨splat 0, allClean⟩,
                                                  er := splat 0 }
    let s := s.retired c
    let s := s.withWave c.w (fun wv =>
      let wv := wv.withSplit slot (fun sp => { sp with wait := some wt, pc := if c.replay.isSome then sp.pc else c.pc + 12 })
      wv.addFlight (fun id => .idle id e ⟨0, splat 0, none, none⟩))
    match c.replay with
    | some _ => s
    | none => (s.switchPoint c.w).endByWait c.w slot

/-! ## COPY and COPYO (R201, R202) -/

/-- A uniform operand sent into an engine. -/
def engUse (fld : Nat) (src : Src) (n : Nat) (kind : BitVec 2) : OpUse :=
  { fld := fld, src := src, n := n, elt := .value false 128, uniform := true, consume := some kind }

/-- The index triples of a box, coordinate 0 fastest. -/
def boxOf (n0 n1 n2 : Nat) : List (Nat × Nat × Nat) :=
  (List.range n2).flatMap (fun i2 => (List.range n1).flatMap (fun i1 => (List.range n0).map (fun i0 => (i0, i1, i2))))

/-- The instruction reads an object entry whose page faults: the wave parks with the instruction unfinished (R199, R341). -/
def State.parkObject (s : State) (c : Ctx) (dom : Domain) (va : DWord) (x : Cause) : State :=
  let e := c.entry 0 x c.exec (lo32 va)
  let s := ((s.dropLeaf (s.coreOf c / 64) dom.id va x).retired c).withWave c.w (fun wv => { wv with
    faulting := some { lanes := [((Mask.lowest c.exec).val, va, x)], access := 0, entry := some e, flight := none,
                       pc := c.pc, slot := c.slot } })
  s.passOn c

/-- The cause of an entry's read in all the lanes of the instruction. At trap level 1 or 2 one that waits by R285 (R380, R424) leaves
them unfinished, and is pending. -/
def State.objectCause (s : State) (c : Ctx) (waits : Bool) (x : Cause) (d : Word) : State :=
  if waits && decide (0 < s.levelOf c) then
    let s := s.withWave c.w (fun wv => wv.addFlight (fun id => .idle id (c.entry 0 x c.exec d) c.dst))
    (s.raiseAsync c.w ⟨x, (Mask.lowest c.exec).val, d, some c.pc, c.w0, c.w1, c.w2⟩).finish c 0 []
  else s.finish c 0 (c.causes ++ (Mask.lanes c.exec).map (fun L => ⟨L, 8, x, d⟩))

/-- What an instruction does with the object entry that it names (R199, R200): it goes on with the entry, raises 0x0A3 for an
invalid one, parks, takes the cause of the read, or waits for it. -/
def State.withObject (s : State) (c : Ctx) (idx : Nat) (k : State → ObjEntry → State) : State :=
  match (s.waves[c.w]?).bind s.launchOf with
  | none => s
  | some la =>
    match s.object (s.coreOf c) c.w la.domain idx (c.entry 0 0 c.exec 0) with
    | .bad s => s.raise c (c.issueCause 0x0A3 (BitVec.ofNat 32 idx))
    | .fault va x => s.parkObject c la.domain va x
    | .cause x d s => s.objectCause c (decide (x = 0x1C0)) x d
    | .late x d s => s.objectCause c true x d
    | .ask s => s.putBack c
    | .wait s => s.again c
    | .entry e s => k s e

/-- A copy operation enters the engine, in its wave's open batch (R203); one without elements is complete (R201), but is
held in a deterministic tree like every other (R395). -/
def State.startCopy (s : State) (c : Ctx) (s2g : Bool) (es : Nat) (elts : List (Nat × DWord)) : State :=
  match s.waves[c.w]? with
  | none => s
  | some wv =>
    { s with copies := s.copies ++ [
        { wave := c.w, batch := nextBatch wv.closedC, s2g := s2g, es := es, elts := elts, pc := c.pc, w0 := c.w0,
          w1 := c.w1, w2 := c.w2, wait := none, order := s.fresh, started := false, done := elts.isEmpty && !s.det wv }] }

/-- The group of the instruction's wave. -/
def State.groupAt (s : State) (c : Ctx) : Option Group := (s.waves[c.w]?).bind s.groupOf

/-- Size of the scratchpad of the instruction's group. -/
def State.scrSize (s : State) (c : Ctx) : Nat := ((s.groupAt c).map (·.scrSize)).getD 0

/-- The counts N0, N1, N2 (R201). -/
def countsOf (b : BitVec 128) : Nat × Nat × Nat :=
  ((b.extractLsb' 0 16).toNat, (b.extractLsb' 16 16).toNat, (b.extractLsb' 32 16).toNat)

/-- The checks that COPY and COPYO share, in the order of R180; `g0` is COPY's global address. -/
def State.copyFault (s : State) (c : Ctx) (g0 : Option DWord) : Option (Cause × Word) :=
  let w0 := wordOf (c.u 0) 0
  let n := countsOf (c.u 2)
  match layoutOf (c.u 0) with
  | none => some (0x0A6, w0)
  | some l =>
    if (c.u 2).extractLsb' 48 16 ≠ 0#16 then some (0x0A6, w0)
    else if (g0.map (fun g => decide (g.toNat % l.es ≠ 0))).getD false then some (0x0A0, lo32 (g0.getD 0))
    else (placeBeyond (s.scrSize c) l.es ((boxOf n.1 n.2.1 n.2.2).map (fun i => l.place i.1 i.2.1 i.2.2))).map
      (fun p => (0x0A1, BitVec.ofNat 32 p))

/-- COPY (R201, R202). The wave's earlier accesses are performed before the engine's (R205, R317). -/
def execCopy (h : Hdr) (o : CopyOp) : State → Result :=
  issue h { srcs := [engUse 0 (plainSrc o.lw.r o.lw.fe) 3 3, engUse 1 o.a 2 0, engUse 2 o.b 2 3], precise := true
            hold := State.edgeWaits } (fun s c =>
    if c.exec = 0 then s.finish c 0 c.causes
    else
      let g0 : DWord := (c.u 1).setWidth 64
      match s.copyFault c (some g0), layoutOf (c.u 0) with
      | some x, _ => s.raise c (c.issueCause x.1 x.2)
      | none, none => s
      | none, some l =>
        let n := countsOf (c.u 2)
        let elts := (boxOf n.1 n.2.1 n.2.2).map (fun i =>
          (l.place i.1 i.2.1 i.2.2, g0 + BitVec.ofNat 64 (((i.2.2 * n.2.1 + i.2.1) * n.1 + i.1) * l.es)))
        (s.startCopy c o.s2g l.es elts).finish c 0 c.causes)

/-- The coordinates of an element of COPYO from the quad of A (R201). -/
def objCoords (a : BitVec 128) (i : Nat × Nat × Nat) : List Nat :=
  [(wordOf a 1).toNat + i.1, (wordOf a 2).toNat + i.2.1, (wordOf a 3).toNat + i.2.2,
   (a.extractLsb' 16 8).toNat, (a.extractLsb' 24 8).toNat]

/-- COPYO (R201, R202); its accesses too come after the wave's earlier ones (R205, R317). -/
def execCopyo (h : Hdr) (o : CopyOp) : State → Result :=
  issue h { srcs := [engUse 0 (plainSrc o.lw.r o.lw.fe) 3 3, engUse 1 o.a 4 0, engUse 2 o.b 2 3], precise := true
            hold := State.edgeWaits } (fun s c =>
    if c.exec = 0 then s.finish c 0 c.causes
    else
      let a := c.u 1
      let idx := (a.extractLsb' 0 16).toNat
      match s.copyFault c none, layoutOf (c.u 0) with
      | some x, _ => s.raise c (c.issueCause x.1 x.2)
      | none, none => s
      | none, some l =>
        s.withObject c idx (fun s e =>
          let up (x : Cause) (d : Word) : State := s.raise c (c.issueCause x d)
          let n := countsOf (c.u 2)
          let box := boxOf n.1 n.2.1 n.2.2
          if objBytes e.fmt ≠ l.es then up 0x0A6 (wordOf (c.u 0) 0)
          else if e.copy = false ∨ (if o.s2g then e.w else e.r) = false then up 0x0A4 (BitVec.ofNat 32 idx)
          else if box.any (fun i => !e.inside (objCoords a i)) then up 0x0A5 (BitVec.ofNat 32 idx)
          else
            (s.startCopy c o.s2g l.es (box.map (fun i =>
              (l.place i.1 i.2.1 i.2.2, e.addr (objCoords a i))))).finish c 0 c.causes))

/-! ## Batches (R203, R204) -/

/-- BCLOSE (R204): a BCLOSE that would leave more than 16 closed batches incomplete waits (R203). -/
def execBclose (h : Hdr) (mtx : Bool) (d : Dst) : State → Result :=
  issue h { dst := some (d, 1), hold := fun s w => decide (s.openClosed w mtx ≥ 16) } (fun s c =>
    if c.exec = 0 then s.finish c 0 c.causes
    else match s.waves[c.w]? with
      | none => s
      | some wv =>
        let n := nextBatch (wv.closed mtx)
        let s := s.withWave c.w (fun wv =>
          let wv := if mtx then { wv with closedM := n } else { wv with closedC := n }
          wv.writeD c.dst c.exec (splat (n.setWidth 128)) allClean .uni)
        s.finish c 0 c.causes)

/-- The batch number of BWAIT and BTEST, and whether it is at or before CLOSED; 0 always is (R204). -/
def State.batchOk (s : State) (c : Ctx) (mtx : Bool) : Bool :=
  let n := wordOf (c.u 0) 0
  decide (n = 0) || batchBy n (((s.waves[c.w]?).map (·.closed mtx)).getD 0)

/-- BWAIT (R204, R205): inside a deterministic tree it completes only at a boundary (R397). -/
def execBwait (h : Hdr) (mtx : Bool) (a : Src) : State → Result :=
  issue h { srcs := [{ fld := 1, src := a, uniform := true }] } (fun s c =>
    let n := wordOf (c.u 0) 0
    if c.exec = 0 then s.finish c 0 c.causes
    else if s.batchOk c mtx = false then s.raise c (c.issueCause 0x17E n)
    else if (n = 0 ∨ s.batchDone c.w mtx n = true) ∧ s.detOf c = false then (s.switchPoint c.w).finish c 0 c.causes
    else s.beginWait c (.batch mtx n))

/-- BTEST (R204). -/
def execBtest (h : Hdr) (mtx : Bool) (d : PNum) (a : Src) : State → Result :=
  issue h { srcs := [{ fld := 1, src := a, uniform := true }], preds := [d] } (fun s c =>
    let n := wordOf (c.u 0) 0
    if c.exec = 0 then s.finish c 0 c.causes
    else if s.batchOk c mtx = false then s.raise c (c.issueCause 0x17E n)
    else
      let b := decide (n = 0) || s.batchDone c.w mtx n
      (s.withWave c.w (fun wv => wv.setPred d c.exec (if b then fullMask else 0))).finish c 0 c.causes)

/-! ## The copy engine at work -/

/-- A copy operation replaced. -/
def State.setCopy (s : State) (k : Nat) (f : CopyE → CopyE) : State := { s with copies := s.copies.modify k f }

/-- Whether a remote request of copy operation `k` is outstanding. -/
def State.copyBusy (s : State) (k : Nat) : Bool :=
  s.via.streams.any (fun st => st.2.reqs.any (fun r => match r.who with
    | .copyRead j _ | .copyWrite j => decide (j = k)
    | .flight _ _ _ | .store _ _ _ _ | .matrix _ _ | .entry _ _ _ | .agent _ => false))

/-- The cause of an engine operation reaches its wave as an asynchronous one, with lane 0 (R348, R385, R424). -/
def State.engineCause (s : State) (w : Nat) (c : Cause) (detail pc w0 w1 w2 : Word) : State :=
  s.raiseAsync w ⟨c, 0, detail, some pc, w0, w1, w2⟩

/-- One element moved between a group's scratchpad and its runs of global bytes (R202); `bad` where its residue check failed
twice (R430). -/
def State.moveElement (s : State) (k core : Nat) (wv : Wave) (g : Group) (op : CopyE) (el : Nat × DWord) (bad : Bool)
    (runs : List (Phys × Nat × Nat)) : State :=
  runs.foldl (fun s r =>
    let va := el.2 + BitVec.ofNat 64 r.2.1
    let at' := scrBytes g.scr (el.1 + r.2.1) r.2.2
    if op.s2g then
      let x := spoiled bad (s.poolTake core at')
      if r.1.kind = 3 then s.askWrite r.1 (x.map (·.1)) (.copyWrite k) va (bad := x.any (·.2))
      else s.runWrite core wv.launch (!s.det wv) 0 r x
    else if r.1.kind = 3 then
      s.askRead r.1 r.2.2 (.copyRead k ((List.range r.2.2).map (· + el.1 + r.2.1))) va
    else
      let x := s.runRead core r
      (s.noteRun r x).poolScatter core at' (spoiled bad x)) s

/-- The elements of an operation performed in order, until one faults or the operation is abandoned; `later` are those that it
keeps for another step, and `bad` names the elements, counted from `i`, whose residue check failed twice. -/
def State.copyElements (s : State) (k core : Nat) (wv : Wave) (l : Launch) (g : Group) (op : CopyE) (bad : Nat → Bool)
    (later : List (Nat × DWord)) (i : Nat) : List (Nat × DWord) → State
  | [] => s.setCopy k (fun o => { o with elts := later })
  | el :: rest =>
    match s.elMeet (core / 64) l.domain (if op.s2g then .write else .read) 0x0E9 el.2 op.es with
    | .fault va x =>
      let p := { wv.poster (if op.s2g then 5 else 4) with core := core }
      let a := s.attach (core / 64) l.domain.id va x p
      a.1.setCopy k (fun o => { o with elts := el :: rest ++ later, wait := a.2.map (fun i => (core / 64, i)) })
    | .drop x =>
      (s.setCopy k (fun o => { o with elts := [] })).engineCause op.wave x (lo32 el.2) op.pc op.w0 op.w1 op.w2
    | .runs r => State.copyElements (s.moveElement k core wv g op el (bad i) r) k core wv l g op bad later (i + 1) rest

/-- A copy operation is complete when it has no element left and no request outstanding (R203). -/
def State.settleCopy (s : State) (k : Nat) : State :=
  match s.copies[k]? with
  | none => s
  | some op =>
    if op.elts.isEmpty && !s.copyBusy k then
      let s := s.setCopy k (fun o => { o with done := true, wait := none })
      match s.waves[op.wave]? with
      | some wv => s.settleGroup wv.group
      | none => s
    else s

/-- The elements that a step takes of those left: the first `n`, or all where `n` is 0. -/
def share {α : Type} (n : Nat) (l : List α) : List α × List α := if n = 0 then (l, []) else l.splitAt n

/-- The engine performs the next `n` elements of operation `k`, or what is left of it where `n` is 0 (R202, R205): elements that
another step performs later may read what others have written in between (R268). Under PAUSE no operation is begun (R411). -/
def State.runCopy (s : State) (k n : Nat) : State :=
  match s.copies[k]? with
  | none => s
  | some op =>
    if op.done ∨ op.wait.isSome ∨ op.elts = [] then s.settleCopy k
    else if s.power.pause ≠ 0 ∧ op.started = false then s
    else match s.waves[op.wave]? with
      | none => s
      | some wv => match s.groupOf wv, s.launchOf wv with
        | some g, some l => match g.core with
          | some core =>
            let r := (s.setCopy k (fun o => { o with started := true })).engineResidue core
            let x := share n op.elts
            (r.1.copyElements k core wv l g op r.2 x.2 0 x.1).settleCopy k
          | none => s
        | _, _ => s

/-- COPY OPERATION COMPLETES: a step in which the copy engine performs the next `n` elements of an operation, or completes it
where `n` is 0, outside a deterministic tree, whose operations wait for the boundary (R395). -/
def execCopyOperationComplete (x : EngineStep) (s : State) : Result :=
  .next (match (s.copies[x.which]?).bind (fun op => s.waves[op.wave]?) with
    | some wv => if s.det wv then s else s.runCopy x.which x.n
    | none => s)

end Sys2Proof.Machine
end

