-- ==== Sys2Proof/Machine/Formats.lean ====
section
/-! DEFINITION. The format register FMT (R69, R90) and the checks of R56, which compare it with an instruction. -/

namespace Sys2Proof

/-- FMT.AFMT. -/
def fmtA (fmt : BitVec 10) : BitVec 4 := fmt.extractLsb' 0 4
/-- FMT.BFMT. -/
def fmtB (fmt : BitVec 10) : BitVec 4 := fmt.extractLsb' 4 4
/-- FMT.ACC. -/
def fmtAcc (fmt : BitVec 10) : Bool := fmt.getLsbD 8
/-- FMT.SAT. -/
def fmtSat (fmt : BitVec 10) : Bool := fmt.getLsbD 9

/-- The element type of a code (R48); codes 13 to 15 stand for none. -/
def eTypeOfCode (c : BitVec 4) : Option EType :=
  match c.toNat with
  | 0 => some .f32 | 1 => some .f16 | 2 => some .bf16 | 3 => some .f16x2 | 4 => some .bf16x2 | 5 => some .f64
  | 6 => some .kf8e4 | 7 => some .kf8e5 | 8 => some .kf4 | 9 => some .si8 | 10 => some .ui8 | 11 => some .si4
  | 12 => some .ui4 | _ => none

/-- An element type from a code that has one. -/
def fmtType (c : BitVec 4) : EType := (eTypeOfCode c).getD .f32

/-- Whether AFMT and BFMT lie in one set and ACC matches it. -/
def fmtRow (fmt : BitVec 10) (set : List Nat) (acc : Bool) : Bool :=
  set.contains (fmtA fmt).toNat && set.contains (fmtB fmt).toNat && fmtAcc fmt == acc

/-- The table of R132, by element width. -/
def dpFormats (e : EltW) (fmt : BitVec 10) : Bool :=
  match e with
  | .w16 => fmtRow fmt [1, 2] false
  | .w8 => fmtRow fmt [6, 7] false || fmtRow fmt [9, 10] true
  | .w4 => fmtRow fmt [8] false || fmtRow fmt [11, 12] true
  | .w32 => false

/-- The table of R259. -/
def mmaFormats (fmt : BitVec 10) : Bool :=
  fmtRow fmt [5] false || fmtRow fmt [0] false || fmtRow fmt [1, 2] false || fmtRow fmt [6, 7] false
    || fmtRow fmt [9, 10] true || fmtRow fmt [8] false || fmtRow fmt [11, 12] true

/-- The selector check of CVTN.FMT and UNPK.FMTA, FMTB: an element of another width than the format's (R130, R131). A
reserved code has no width for the selector to differ from. -/
def selectorFault (t : Option EType) (e : EltW) : List Cause :=
  match t with
  | none => []
  | some t => if e = .w32 ∨ eltWOf t.width = e then [] else [0x005]

/-- The causes of R56: those that depend on the FMT of the issuing split. -/
def Instr.fmtFaults (i : Instr) (fmt : BitVec 10) : List Cause :=
  match i with
  | .cvtn _ ⟨none, _, _, _, d, _⟩ =>
    let ok := ((eTypeOfCode (fmtA fmt)).map EType.narrow).getD false
    need ok 0x00D ++ (match d with
      | .reg _ e _ => selectorFault (eTypeOfCode (fmtA fmt)) e
      | .ind _ _ _ => [])
  | .unpk _ ⟨.fmtA, _, a⟩ => unpkCheck (fmtA fmt) a
  | .unpk _ ⟨.fmtB, _, a⟩ => unpkCheck (fmtB fmt) a
  | .dp2 _ _ => need (dpFormats .w16 fmt) 0x00D
  | .dp4 _ _ => need (dpFormats .w8 fmt) 0x00D
  | .dp8 _ _ => need (dpFormats .w4 fmt) 0x00D
  | .mma _ _ | .mmab _ _ => need (mmaFormats fmt) 0x00D
  | _ => []
where
  /-- UNPK under FMTA or FMTB (R131). -/
  unpkCheck (c : BitVec 4) (a : Src) : List Cause :=
    let ok := ((eTypeOfCode c).map EType.unpackable).getD false
    need ok 0x00D ++ (match a with
      | .reg _ (.elt e _) _ => selectorFault (eTypeOfCode c) e
      | .reg _ (.rot _) _ | .reg _ (.bc _) _ | .reg _ (.bfly _) _ | .reg _ (.mir _) _ | .reg _ (.dn _) _
      | .reg _ (.up _) _ | .ind _ _ _ _ | .spec _ | .imm _ => [])

end Sys2Proof
end

