-- ==== Sys2Proof/Machine/FloatOps.lean ====
section
/-! DEFINITION. Groups 4, 5 and 6: floating point, conversion, dot products, the format register (R119 to R135, R141). -/

namespace Sys2Proof.Machine

/-! ## The course of groups 4 and 5 (R122) -/

/-- Registers of an element type's operand. -/
def eRegs (t : EType) : Nat := if t = .f64 then 2 else 1

/-- Whether a type packs two elements in a register. -/
def isPacked (t : EType) : Bool := t == .f16x2 || t == .bf16x2

/-- One lane: the operation on each element of the type, its flags joined (R122). `cause` names the trap of an exception. -/
def fLaneOf (fctl : Word) (t : EType) (cause : Nat → Cause) (op : List Nat → FRes) (xs : List (BitVec 128)) : LaneOut :=
  if isPacked t then
    let a := op (xs.map (fun x => x.toNat % 2 ^ 16))
    let b := op (xs.map (fun x => x.toNat / 2 ^ 16 % 2 ^ 16))
    floatOut fctl cause (BitVec.ofNat 128 (a.bits + b.bits * 2 ^ 16)) (a.fl ||| b.fl)
  else
    let a := op (xs.map (·.toNat))
    floatOut fctl cause (BitVec.ofNat 128 a.bits) a.fl

/-- One lane whose exceptions are those of the type's own format. -/
def fLane (fctl : Word) (t : EType) (op : List Nat → FRes) (xs : List (BitVec 128)) : LaneOut :=
  fLaneOf fctl t (floatCause (fmtOf t)) op xs

/-- Two sources and a result of one element type. -/
def fltUses2 (ty : EType) (d : Dst) (a b : Src) : Uses := { srcs := [fltUse 1 ty a, fltUse 2 ty b], dst := some (d, eRegs ty) }

/-- One source of an element type and a result of `n` registers. -/
def fltUses1 (ty : EType) (d : Dst) (a : Src) (n : Nat) : Uses := { srcs := [fltUse 1 ty a], dst := some (d, n) }

/-- Three sources and a result of one element type. -/
def fltUses3 (o : FTri) : Uses :=
  { srcs := [fltUse 1 o.ty o.a, fltUse 2 o.ty o.b, fltUse 3 o.ty (plainSrc o.c)], dst := some (o.d, eRegs o.ty) }

/-- A source and a result of one element type, and a single B read as SI32 (R124). -/
def scaleUses (o : FBin) : Uses :=
  { srcs := [fltUse 1 o.ty o.a, { fld := 2, src := o.b, elt := .value true 32 }], dst := some (o.d, eRegs o.ty) }

/-- A two-source operation with a rounding field. -/
def fbin (h : Hdr) (o : FBin) (op : Fmt → Rnd → Nat → Nat → FRes) : State → Result :=
  laneOp h (fltUses2 o.ty o.d o.a o.b) Ctx.uniTag
    (fun s c L => fLane (s.fctl c) o.ty (fun l => op (fmtOf o.ty) (o.rnd.resolve (s.fctl c)) (l.getD 0 0) (l.getD 1 0))
      [c.v 0 L, c.v 1 L])

/-- A one-source operation with a rounding field. -/
def fun1 (h : Hdr) (ty : EType) (rnd : Rnd) (d : Dst) (a : Src) (op : Fmt → Rnd → Nat → FRes) : State → Result :=
  laneOp h (fltUses1 ty d a (eRegs ty)) Ctx.uniTag
    (fun s c L => fLane (s.fctl c) ty (fun l => op (fmtOf ty) (rnd.resolve (s.fctl c)) (l.getD 0 0)) [c.v 0 L])

/-- A multiply-add (R123, R125). -/
def ftri (h : Hdr) (o : FTri) : State → Result :=
  laneOp h (fltUses3 o) Ctx.uniTag
    (fun s c L => fLane (s.fctl c) o.ty
      (fun l => (fmtOf o.ty).fma (o.rnd.resolve (s.fctl c)) (l.getD 0 0) (l.getD 1 0) (l.getD 2 0))
      [c.v 0 L, c.v 1 L, c.v 2 L])

/-- Minimum and maximum (R87). -/
def fminmax (h : Hdr) (o : FMinOp) (max : Bool) : State → Result :=
  laneOp h (fltUses2 o.ty o.d o.a o.b) Ctx.uniTag
    (fun s c L => fLane (s.fctl c) o.ty (fun l => (fmtOf o.ty).minmax max o.num (l.getD 0 0) (l.getD 1 0))
      [c.v 0 L, c.v 1 L])

/-- DSCALB and FSCALB (R124): the one single B scales every element. -/
def fscale (h : Hdr) (o : FBin) : State → Result :=
  laneOp h (scaleUses o) Ctx.uniTag
    (fun s c L => fLane (s.fctl c) o.ty
      (fun l => (fmtOf o.ty).scalb (o.rnd.resolve (s.fctl c)) (l.getD 0 0) (IType.si32.read (c.v 1 L))) [c.v 0 L])

/-- An operation without a rounding field whose result has `n` registers. -/
def fplain (h : Hdr) (o : FPlain) (n : Nat) (op : Fmt → Nat → FRes) : State → Result :=
  laneOp h (fltUses1 o.ty o.d o.a n) Ctx.uniTag
    (fun s c L => fLane (s.fctl c) o.ty (fun l => op (fmtOf o.ty) (l.getD 0 0)) [c.v 0 L])

/-- An approximation (R126). -/
def fapprox (h : Hdr) (o : FPlain) (fn : Approx) : State → Result := fplain h o 1 (fun f x => fn.apply f x)

/-! ## Group 4 -/

/-- DADD (R123). -/
def execDadd (h : Hdr) (o : FBin) : State → Result := fbin h o Fmt.add
/-- DMUL (R123). -/
def execDmul (h : Hdr) (o : FBin) : State → Result := fbin h o Fmt.mul
/-- DFMA (R123). -/
def execDfma (h : Hdr) (o : FTri) : State → Result := ftri h o
/-- DDIV (R123). -/
def execDdiv (h : Hdr) (o : FBin) : State → Result := fbin h o Fmt.div
/-- DSQRT (R123). -/
def execDsqrt (h : Hdr) (o : FUn) : State → Result := fun1 h o.ty o.rnd o.d o.a Fmt.sqrt
/-- DMIN (R87). -/
def execDmin (h : Hdr) (o : FMinOp) : State → Result := fminmax h o false
/-- DMAX (R87). -/
def execDmax (h : Hdr) (o : FMinOp) : State → Result := fminmax h o true
/-- DRINT (R124). -/
def execDrint (h : Hdr) (o : FRintOp) : State → Result :=
  fun1 h o.ty o.rnd o.d o.a (fun f r x => f.rint r o.exact x)
/-- DSCALB (R124). -/
def execDscalb (h : Hdr) (o : FBin) : State → Result := fscale h o
/-- DGETEXP (R124). -/
def execDgetexp (h : Hdr) (o : FPlain) : State → Result := fplain h o 2 Fmt.getExp
/-- DGETMANT (R124). -/
def execDgetmant (h : Hdr) (o : FPlain) : State → Result := fplain h o 2 Fmt.getMant
/-- DCLASS (R124): D is single. -/
def execDclass (h : Hdr) (o : FPlain) : State → Result := fplain h o 1 (fun f x => ⟨f.classify x, 0⟩)

/-! ## Group 5 -/

/-- FADD (R125). -/
def execFadd (h : Hdr) (o : FBin) : State → Result := fbin h o Fmt.add
/-- FMUL (R125). -/
def execFmul (h : Hdr) (o : FBin) : State → Result := fbin h o Fmt.mul
/-- FFMA (R125). -/
def execFfma (h : Hdr) (o : FTri) : State → Result := ftri h o
/-- FDIV (R125). -/
def execFdiv (h : Hdr) (o : FBin) : State → Result := fbin h o Fmt.div
/-- FSQRT (R125). -/
def execFsqrt (h : Hdr) (o : FUn) : State → Result := fun1 h o.ty o.rnd o.d o.a Fmt.sqrt
/-- FMIN (R87). -/
def execFmin (h : Hdr) (o : FMinOp) : State → Result := fminmax h o false
/-- FMAX (R87). -/
def execFmax (h : Hdr) (o : FMinOp) : State → Result := fminmax h o true
/-- FRINT (R124). -/
def execFrint (h : Hdr) (o : FRintOp) : State → Result :=
  fun1 h o.ty o.rnd o.d o.a (fun f r x => f.rint r o.exact x)
/-- FSCALB (R124). -/
def execFscalb (h : Hdr) (o : FBin) : State → Result := fscale h o
/-- FCLASS (R124). -/
def execFclass (h : Hdr) (o : FPlain) : State → Result := fplain h o 1 (fun f x => ⟨f.classify x, 0⟩)
/-- FRCP (R126). -/
def execFrcp (h : Hdr) (o : FPlain) : State → Result := fapprox h o .rcp
/-- FRSQ (R126). -/
def execFrsq (h : Hdr) (o : FPlain) : State → Result := fapprox h o .rsq
/-- FEX2 (R126). -/
def execFex2 (h : Hdr) (o : FPlain) : State → Result := fapprox h o .ex2
/-- FLG2 (R126). -/
def execFlg2 (h : Hdr) (o : FPlain) : State → Result := fapprox h o .lg2
/-- FSIN (R126). -/
def execFsin (h : Hdr) (o : FPlain) : State → Result := fapprox h o .sin
/-- FCOS (R126). -/
def execFcos (h : Hdr) (o : FPlain) : State → Result := fapprox h o .cos

/-! ## Conversions (R127 to R131) -/

/-- The trap of a conversion from a float to an integer (R85): 0x07E for IV, the source's format for IX. -/
def toIntCause (src : EType) (e : Nat) : Cause := if e = 0 then 0x07E else floatCause (fmtOf src) e

/-- The integer type of an integer element code. -/
def eltInt : EType → IType
  | .si8 => .si8 | .ui8 => .ui8 | .si4 => .si4
  | .ui4 | .f32 | .f16 | .bf16 | .f16x2 | .bf16x2 | .f64 | .kf8e4 | .kf8e5 | .kf4 => .ui4

/-- Whether an element code is an integer. -/
def isIntElt : EType → Bool
  | .si8 | .ui8 | .si4 | .ui4 => true
  | .f32 | .f16 | .bf16 | .f16x2 | .bf16x2 | .f64 | .kf8e4 | .kf8e5 | .kf4 => false

/-- A source of CVT. -/
def cvtUse (t : CvtTy) (a : Src) : OpUse :=
  match t with
  | .int t => intUse 1 t a
  | .elt t => fltUse 1 t a

/-- Registers of a result of CVT. -/
def cvtRegs : CvtTy → Nat
  | .int t => t.regs
  | .elt t => eRegs t

/-- One lane of CVT (R128). -/
def cvtLane (fctl : Word) (o : CvtOp) (x : BitVec 128) : LaneOut :=
  match o.dst, o.src with
  | .int d, .int t => intResult fctl d o.sat (t.read x)
  | .elt d, .int t =>
    let r := intToFmt (fmtOf d) (o.rnd.resolve fctl) o.sat (t.read x)
    floatOut fctl (floatCause (fmtOf d)) (BitVec.ofNat 128 r.bits) r.fl
  | .elt d, .elt t =>
    let r := if d = t then (⟨((fmtOf t).firstNan [x.toNat]).getD x.toNat, (fmtOf t).snanFlag [x.toNat]⟩ : FRes)
      else convFmt (fmtOf t) (fmtOf d) (o.rnd.resolve fctl) o.sat x.toNat
    floatOut fctl (floatCause (fmtOf d)) (BitVec.ofNat 128 r.bits) r.fl
  | .int d, .elt t =>
    let r := fmtToInt (fmtOf t) (o.rnd.resolve fctl) d.least d.greatest x.toNat
    floatOut fctl (toIntCause t) (d.write r.1) r.2

/-- The operands of CVT. -/
def cvtUses (o : CvtOp) : Uses := { srcs := [cvtUse o.src o.a], dst := some (o.d, cvtRegs o.dst) }

/-- CVT (R128). -/
def execCvt (h : Hdr) (o : CvtOp) : State → Result :=
  laneOp h (cvtUses o) Ctx.uniTag
    (fun s c L => cvtLane (s.fctl c) o (c.v 0 L))

/-- The operands of CVTP. -/
def cvtpUses (o : CvtpOp) : Uses := { srcs := [fltUse 1 o.src o.a, fltUse 2 o.src o.b], dst := some (o.d, 1) }

/-- CVTP (R129). -/
def execCvtp (h : Hdr) (o : CvtpOp) : State → Result :=
  laneOp h (cvtpUses o) Ctx.uniTag
    (fun s c L =>
      let cv (x : BitVec 128) : FRes := convFmt (fmtOf o.src) (fmtOf o.dst) (o.rnd.resolve (s.fctl c)) o.sat x.toNat
      let a := cv (c.v 0 L)
      let b := cv (c.v 1 L)
      floatOut (s.fctl c) (floatCause (fmtOf o.dst)) (BitVec.ofNat 128 (a.bits + b.bits * 2 ^ 16)) (a.fl ||| b.fl))

/-- One lane of a narrowing conversion (R89, R130). -/
def cvtnLane (fctl : Word) (dst src : EType) (rnd : Rnd) (sat : Bool) (x : Nat) : LaneOut :=
  if isIntElt dst then
    let t := eltInt dst
    let r := fmtToInt (fmtOf src) (rnd.resolve fctl) t.least t.greatest x
    floatOut fctl (toIntCause src) (BitVec.ofInt 128 (r.1 % 2 ^ t.width)) r.2
  else
    let r := convFmt (fmtOf src) (fmtOf dst) (rnd.resolve fctl) sat x
    if dst = .kf4 then { val := BitVec.ofNat 128 r.bits, flags := r.fl }
    else floatOut fctl (floatCause (fmtOf dst)) (BitVec.ofNat 128 r.bits) r.fl

/-- FMT as the instruction now issued or re-injected reads it. -/
def State.curFmt (s : State) : BitVec 10 :=
  match s.cur with
  | none => 0
  | some i =>
    match i.replay with
    | some e => e.fmt
    | none => (((s.waves[i.wave]?).bind (fun wv => wv.table.split? i.slot)).map (·.fmt)).getD 0

/-- The operands of CVTN under an FMT. -/
def cvtnUses (h : Hdr) (o : CvtnOp) (fmt : BitVec 10) : Uses :=
  { srcs := [fltUse 1 o.src o.a], dst := some (o.d, 1), fmt := (Instr.cvtn h o).fmtFaults fmt }

/-- CVTN (R130). -/
def execCvtn (h : Hdr) (o : CvtnOp) (s : State) : Result :=
  laneOp h (cvtnUses h o s.curFmt) Ctx.uniTag
    (fun s c L =>
      let dst := o.dst.getD (fmtType (fmtA c.fmt))
      cvtnLane (s.fctl c) dst o.src o.rnd (o.sat || (o.dst.isNone && fmtSat c.fmt)) (c.v 0 L).toNat)
    none none s

/-- One lane of UNPK (R131). -/
def unpkLane (fctl : Word) (t : EType) (x : Nat) : LaneOut :=
  let x := x % 2 ^ t.width
  let r := if isIntElt t then intToFmt f32 .rne false ((eltInt t).read (BitVec.ofNat 128 x))
    else convFmt (fmtOf t) f32 .rne false x
  floatOut fctl (floatCause f32) (BitVec.ofNat 128 r.bits) r.fl

/-- The element type that UNPK reads (R131). -/
def unpkType (o : UnpkOp) (fmt : BitVec 10) : EType :=
  match o.src with
  | .elt t => t
  | .fmtA => fmtType (fmtA fmt)
  | .fmtB => fmtType (fmtB fmt)

/-- The operands of UNPK under an FMT. An immediate is converted for a 16-bit format (R120); the other formats read the low
bits of the sign-extended one (log entry 34). -/
def unpkUses (h : Hdr) (o : UnpkOp) (fmt : BitVec 10) : Uses :=
  { srcs := [{ fld := 1, src := o.a, imm := if unpkType o fmt = .f16 then .f16 else if unpkType o fmt = .bf16 then .bf16 else .int }]
    dst := some (o.d, 1), fmt := (Instr.unpk h o).fmtFaults fmt }

/-- UNPK (R131). -/
def execUnpk (h : Hdr) (o : UnpkOp) (s : State) : Result :=
  laneOp h (unpkUses h o s.curFmt) Ctx.uniTag
    (fun s c L => unpkLane (s.fctl c) (unpkType o c.fmt) (c.v 0 L).toNat)
    none none s

/-! ## Dot products (R91, R132, R133) -/

/-- Element `i` of width `w` of a packed value. -/
def eltAt (w i x : Nat) : Nat := x / 2 ^ (w * i) % 2 ^ w

/-- The exact sum of integer products and an addend. -/
def intDot (ta tb : IType) (w k a b : Nat) (c : Int) : Int :=
  (List.range k).foldl (fun s i =>
    s + ta.read (BitVec.ofNat 128 (eltAt w i a)) * tb.read (BitVec.ofNat 128 (eltAt w i b))) c

/-- One lane of a dot product (R133). -/
def dpLane (fctl : Word) (fmt : BitVec 10) (rnd : Rnd) (w a b c : Nat) : LaneOut :=
  let ta := fmtType (fmtA fmt)
  let tb := fmtType (fmtB fmt)
  let k := 32 / w
  if fmtAcc fmt then
    intResult fctl .si32 (fmtSat fmt) (intDot (eltInt ta) (eltInt tb) w k a b (sextInt 32 c))
  else
    let terms := (List.range k).map (fun i => prodTerm (fmtOf ta) (fmtOf tb) (eltAt w i a) (eltAt w i b))
      ++ [valTerm f32 c]
    let r := f32.sumTerms (rnd.resolve fctl) terms
    floatOut fctl (floatCause f32) (BitVec.ofNat 128 r.bits) r.fl

/-- The operands of a dot product (R132). -/
def dpUses (o : DpOp) (fmt : List Cause) : Uses :=
  { srcs := [{ fld := 1, src := o.a, elt := .packed }, { fld := 2, src := o.b, elt := .packed }, { fld := 3, src := plainSrc o.c }]
    dst := some (o.d, 1), fmt := fmt }

/-- A dot product of elements of `w` bits. -/
def dpOp (h : Hdr) (o : DpOp) (w : Nat) (fmt : List Cause) : State → Result :=
  laneOp h (dpUses o fmt) Ctx.uniTag
    (fun s c L => dpLane (s.fctl c) c.fmt o.rnd w (wordOf (c.v 0 L) 0).toNat (wordOf (c.v 1 L) 0).toNat
      (wordOf (c.v 2 L) 0).toNat)

/-- DP2 (R132). -/
def execDp2 (h : Hdr) (o : DpOp) (s : State) : Result := dpOp h o 16 ((Instr.dp2 h o).fmtFaults s.curFmt) s
/-- DP4 (R132). -/
def execDp4 (h : Hdr) (o : DpOp) (s : State) : Result := dpOp h o 8 ((Instr.dp4 h o).fmtFaults s.curFmt) s
/-- DP8 (R132). -/
def execDp8 (h : Hdr) (o : DpOp) (s : State) : Result := dpOp h o 4 ((Instr.dp8 h o).fmtFaults s.curFmt) s

/-! ## The format register (R134, R135) -/

/-- The FMT that FMTSET writes (R69, R134). -/
def fmtsetWord (o : FmtsetOp) : BitVec 10 :=
  (if o.sat then 1#1 else 0#1) ++ (if o.acc then 1#1 else 0#1) ++ o.bfmt.code ++ o.afmt.code

/-- FMTSET (R134). -/
def execFmtset (h : Hdr) (o : FmtsetOp) : State → Result :=
  issue h {} (fun s c =>
    let s := if c.exec = 0 then s
      else s.withWave c.w (fun wv => wv.withSplit c.slot (fun sp => { sp with fmt := (fmtsetWord o) }))
    s.finish c 0 c.causes)

/-- FMTGET (R135). -/
def execFmtget (h : Hdr) (d : Dst) : State → Result :=
  laneOp h (dstUses d 1) (fun _ => .uni) (fun _ c _ => { val := c.fmt.setWidth 128 })

end Sys2Proof.Machine
end

