-- ==== Sys2Proof/Machine/Matrix.lean ====
section
/-! DEFINITION. Group C: tiles, accumulators, the matrix engine's queue and the baton (R243 to R266). -/

namespace Sys2Proof.Machine

/-! ## Tile control (R244) -/

/-- ROWS of a TC. -/
def tcRows (tc : Word) : Nat := (tc.extractLsb' 4 7).toNat
/-- COLS of a TC. -/
def tcCols (tc : Word) : Nat := (tc.extractLsb' 11 9).toNat
/-- EFMT of a TC. -/
def tcFmt (tc : Word) : BitVec 4 := tc.extractLsb' 0 4
/-- Bits of an element. -/
def tcWidth (tc : Word) : Nat := (fmtType (tcFmt tc)).width

/-- Whether TCFG accepts a value (R244, R245). -/
def tcOk (v : Word) : Bool :=
  decide (v.extractLsb' 20 12 = 0#12) && decide (1 ≤ tcRows v ∧ tcRows v ≤ 64)
    && [0, 1, 2, 5, 6, 7, 8, 9, 10, 11, 12].contains (tcFmt v).toNat
    && decide (1 ≤ tcCols v ∧ tcCols v * tcWidth v ≤ 1024)

/-- The bit of the tile file at which element (r, c) of tile `t` begins (R243, R244). -/
def tileBit (t : BitVec 4) (w r c : Nat) : Nat := t.toNat * 65536 + r * 1024 + c * w

/-! ## The course of a group C instruction (R249) -/

/-- The first check that fails raises its cause, precisely, for the lowest lane; else the effect. -/
def State.guarded (s : State) (c : Ctx) (checks : List (Option (Cause × Word))) (k : State → State) : State :=
  match checks.findSome? id with
  | some x => s.raise c (c.issueCause x.1 x.2)
  | none => k s

/-- A group C instruction other than ACRD: its sources, its format checks, and its effect on the wave and its group. -/
def groupC (h : Hdr) (u : Uses) (k : State → Ctx → Group → State) : State → Result :=
  issue h { u with precise := true } (fun s c =>
    if c.exec = 0 then s.finish c 0 c.causes
    else match s.groupAt c with
      | some g => k s c g
      | none => s)

/-- A failed check. -/
def failIf (bad : Bool) (c : Cause) (d : Word) : Option (Cause × Word) := if bad then some (c, d) else none

/-! ## The baton (R251 to R256) -/

/-- The value of BQRY for a wave (R255, R397). -/
def Baton.word (b : Baton) (me : BitVec 4) : Word :=
  let tgt : Option (BitVec 4) := if b.transit.isSome then b.transit else b.holder
  (if b.transit = none ∧ b.holder = some me then 0x200000 else 0) ||| (if tgt.isSome then 0x100000 else 0)
    ||| ((tgt.getD 0).setWidth 32 <<< 16) ||| b.waiting.setWidth 32

/-- WAVEID of the instruction's wave. -/
def State.waveidOf (s : State) (c : Ctx) : BitVec 4 := ((s.waves[c.w]?).map (·.waveid)).getD 0

/-- Whether the wave holds the baton. -/
def Baton.held (b : Baton) (me : BitVec 4) : Bool := decide (b.transit = none ∧ b.holder = some me)

/-- The check of the baton. -/
def State.batonCheck (s : State) (c : Ctx) (g : Group) (code : Cause) : Option (Cause × Word) :=
  let me := s.waveidOf c
  failIf (!g.baton.held me) code (g.baton.word me)

/-- The group of the instruction's wave changed. -/
def State.ownGroup (s : State) (c : Ctx) (f : Group → Group) : State :=
  match s.waves[c.w]? with
  | some wv => s.withGroup wv.group f
  | none => s

/-- BTAKE (R252): inside a deterministic tree it completes at a boundary (R397). -/
def execBtake (h : Hdr) : State → Result :=
  groupC h {} (fun s c g =>
    let me := s.waveidOf c
    let held := g.baton.held me
    let free := decide (g.baton.holder = none ∧ g.baton.transit = none)
    let wait (g : Group) : Group := { g with baton := { g.baton with waiting := g.baton.waiting ||| (1#16 <<< me.toNat) } }
    let take (g : Group) : Group := { g with baton := { g.baton with holder := some me } }
    if s.detOf c then (if held then s else s.ownGroup c wait).beginWait c .baton
    else if held then (s.switchPoint c.w).finish c 0 c.causes
    else if free then ((s.ownGroup c take).switchPoint c.w).finish c 0 c.causes
    else (s.ownGroup c wait).beginWait c .baton)

/-- A wave of the group that is resident and live (R253). -/
def State.memberLive (s : State) (g : Group) (id : Word) : Bool :=
  g.waves.any (fun w => match s.waves[w]? with
    | some wv => decide (wv.waveid.setWidth 32 = id) && decide (wv.life = .resident) && decide (wv.live ≠ 0)
    | none => false)

/-- BPASS (R253, R397): the transfer is a release by the giver (R254). -/
def execBpass (h : Hdr) (b : Option Src) : State → Result :=
  groupC h { srcs := match b with | some b => [engUse 2 b 1 3] | none => [], hold := State.edgeWaits } (fun s c g =>
    let me := s.waveidOf c
    let w := wordOf (c.u 0) 0
    let det := s.detOf c
    s.guarded c
      [s.batonCheck c g 0x171,
       failIf (b.isSome && (decide (w.toNat > 15) || !s.memberLive g w)) 0x172 w] (fun s =>
        let s :=
          if b.isNone then s.ownGroup c (fun g => { g with baton := g.baton.giveNext det })
          else if w.setWidth 4 = me then s
          else s.ownGroup c (fun g => { g with baton := g.baton.give (w.setWidth 4) det })
        s.finish c 0 c.causes))

/-- BQRY (R255). -/
def execBqry (h : Hdr) (d : Dst) : State → Result :=
  groupC h { dst := some (d, 1) } (fun s c g =>
    let v := (g.baton.word (s.waveidOf c)).setWidth 128
    (s.withWave c.w (fun wv => wv.writeD c.dst c.exec (splat v) allClean .uni)).finish c 0 c.causes)

/-! ## The engine queue (R250) -/

/-- An operation enters the queue of the wave's core. -/
def State.enqueue (s : State) (c : Ctx) (batch : Bool) (k : MatKind) : State :=
  match s.waves[c.w]? with
  | none => s
  | some wv =>
    let b := if batch then some (nextBatch wv.closedM) else none
    s.withCore wv.coreNo (fun co => { co with mq := co.mq ++ [
      { wave := c.w, group := wv.group, batch := b, kind := k, pc := c.pc, w0 := c.w0, w1 := c.w1, w2 := c.w2,
        wait := none, order := s.fresh, started := false }] })

/-- A matrix-class operation is issued: the wave's earlier accesses have been performed (R205, R317). -/
def State.matrixOp (s : State) (c : Ctx) (k : MatKind) : State := (s.enqueue c true k).finish c 0 c.causes

/-! ## Tiles (R245, R257, R258) -/

/-- The control word of a tile. -/
def Group.tcOf (g : Group) (t : BitVec 4) : Word := (g.tc[t.toNat]?).getD 0

/-- The check that a tile is configured (R243). -/
def tileCheck (tc : Word) : Option (Cause × Word) := failIf (decide (tcRows tc = 0)) 0x174 tc

/-- The checks of a layout whose elements lie at coordinates `ij`, for elements of `es` bytes (R180, R183, R257, R261). -/
def State.layoutChecks (s : State) (c : Ctx) (v : BitVec 128) (es : Nat) (ij : List (Nat × Nat)) : List (Option (Cause × Word)) :=
  match layoutOf v with
  | none => [some (0x0A6, wordOf v 0)]
  | some l =>
    [(placeBeyond (s.scrSize c) l.es (ij.map (fun x => l.place x.1 x.2 0))).map (fun p => (0x0A1, BitVec.ofNat 32 p)),
     failIf (l.es != es) 0x0A6 (wordOf v 0)]

/-- The place of coordinates under a layout value that the checks have accepted. -/
def placeOf (v : BitVec 128) (i0 i1 : Nat) : Nat := ((layoutOf v).map (fun l => l.place i0 i1 0)).getD 0

/-- The elements of a rectangle: rows ascending, and columns within a row. -/
def rect (rows cols : Nat) : List (Nat × Nat) :=
  (List.range rows).flatMap (fun r => (List.range cols).map (fun c => (r, c)))

/-- Coordinate 0 of a tile's column (R257). -/
def tileCol (w c : Nat) : Nat := if w = 4 then c / 2 else c

/-- TLD and TST (R257, R258). -/
def tileMove (h : Hdr) (t : BitVec 4) (lw : Plain) (mk : Nat → List (Nat × Nat) → MatKind) : State → Result :=
  groupC h { srcs := [engUse 0 (plainSrc lw.r lw.fe) 3 3], hold := State.edgeWaits } (fun s c g =>
    let tc := g.tcOf t
    let w := tcWidth tc
    let es := if w = 4 then 1 else w / 8
    let el := rect (tcRows tc) (tcCols tc)
    s.guarded c (tileCheck tc :: s.layoutChecks c (c.u 0) es (el.map (fun x => (tileCol w x.2, x.1)))) (fun s =>
      s.matrixOp c (mk w (el.map (fun x => (tileBit t w x.1 x.2, placeOf (c.u 0) (tileCol w x.2) x.1))))))

/-- TCFG (R245). -/
def execTcfg (h : Hdr) (t : BitVec 4) (a : Src) : State → Result :=
  groupC h { srcs := [engUse 1 a 1 3] } (fun s c _ =>
    let v := wordOf (c.u 0) 0
    s.guarded c [failIf (!tcOk v) 0x177 v] (fun s =>
      (s.ownGroup c (fun g => { g with tc := g.tc.setIfInBounds t.toNat v })).finish c 0 c.causes))

/-- TLD (R258). -/
def execTld (h : Hdr) (t : BitVec 4) (lw : Plain) : State → Result := tileMove h t lw .tld

/-- TST (R258). -/
def execTst (h : Hdr) (t : BitVec 4) (lw : Plain) : State → Result := tileMove h t lw .tst

/-- TZERO (R258). -/
def execTzero (h : Hdr) (t : BitVec 4) : State → Result :=
  groupC h { hold := State.edgeWaits } (fun s c g => s.guarded c [tileCheck (g.tcOf t)] (fun s => s.matrixOp c (.tzero t)))

/-! ## MMA and MMAB (R259) -/

/-- The check of an accumulator: `n` is named and `last` is the highest one used (R246, R259). -/
def accCheck (g : Group) (n last : Nat) : Option (Cause × Word) :=
  failIf (decide (last ≥ g.acc.length)) 0x175 (BitVec.ofNat 32 n)

/-- The checks of the tiles of an MMA (R259). -/
def mmaChecks (fmt : BitVec 10) (ta tb : Word) (blocks : Bool) : List (Option (Cause × Word)) :=
  [tileCheck ta, tileCheck tb,
   failIf (tcFmt ta != fmtA fmt) 0x174 ta,
   failIf (tcFmt tb != fmtB fmt || tcCols tb != tcCols ta) 0x174 tb,
   failIf (fmtA fmt == 5 && decide (tcRows ta > 32)) 0x174 ta,
   failIf (blocks && decide (tcRows ta % 16 ≠ 0)) 0x174 ta,
   failIf (blocks && decide (tcRows tb % 16 ≠ 0)) 0x174 tb]

/-- MMA and MMAB. -/
def mmaOp (h : Hdr) (o : MmaOp) (blocks : Bool) (fmt : List Cause) : State → Result :=
  groupC h { fmt := fmt, hold := State.edgeWaits } (fun s c g =>
    let ta := g.tcOf o.ta
    let tb := g.tcOf o.tb
    s.guarded c
      ([s.batonCheck c g 0x170, accCheck g o.ac.toNat (if blocks then o.ac.toNat + 15 else o.ac.toNat)]
        ++ mmaChecks c.fmt ta tb blocks)
      (fun s => s.matrixOp c (.mma o.ac.toNat o.ta o.tb ta tb c.fmt blocks)))

/-- MMA (R259, R260). -/
def execMma (h : Hdr) (o : MmaOp) (s : State) : Result := mmaOp h o false ((Instr.mma h o).fmtFaults s.curFmt) s

/-- MMAB (R259, R260). -/
def execMmab (h : Hdr) (o : MmaOp) (s : State) : Result := mmaOp h o true ((Instr.mmab h o).fmtFaults s.curFmt) s

/-! ## Accumulator transfers (R261 to R265) -/

/-- Element bytes of an accumulator type (R246). -/
def accBytes : AccTy → Nat
  | .f32 | .si32 => 4
  | .f64 => 8

/-- The byte of an accumulator at which element (i, j) begins (R246). -/
def accOfs (ty : AccTy) (i j : Nat) : Nat := (i * 64 + j) * accBytes ty

/-- NR of a shape word (R261). -/
def shapeRows (v : Word) : Nat := (v.extractLsb' 0 7).toNat
/-- NC of a shape word. -/
def shapeCols (v : Word) : Nat := (v.extractLsb' 8 7).toNat

/-- The check of a shape word (R261). -/
def shapeCheck (ty : AccTy) (v : Word) : Option (Cause × Word) :=
  let ok := decide (v.extractLsb' 15 17 = 0#17) && !v.getLsbD 7 && decide (1 ≤ shapeCols v ∧ shapeCols v ≤ 64)
    && decide (1 ≤ shapeRows v ∧ shapeRows v ≤ (if ty = .f64 then 32 else 64))
  failIf (!ok) 0x174 v

/-- ACLD, and ACST to the scratchpad: element (i, j) at Place(j, i, 0). -/
def accMove (h : Hdr) (ac : BitVec 5) (ty : AccTy) (lw : Plain) (b : Src) (mk : List (Nat × Nat) → MatKind) : State → Result :=
  groupC h { srcs := [engUse 0 (plainSrc lw.r lw.fe) 3 3, engUse 2 b 1 3], hold := State.edgeWaits } (fun s c g =>
    let v := wordOf (c.u 1) 0
    let el := rect (shapeRows v) (shapeCols v)
    s.guarded c
      ([s.batonCheck c g 0x170, accCheck g ac.toNat ac.toNat, shapeCheck ty v]
        ++ s.layoutChecks c (c.u 0) (accBytes ty) (el.map (fun x => (x.2, x.1))))
      (fun s => s.matrixOp c (mk (el.map (fun x => (accOfs ty x.1 x.2, placeOf (c.u 0) x.2 x.1))))))

/-- ACZ (R262). -/
def execAcz (h : Hdr) (ac : BitVec 5) : State → Result :=
  groupC h { hold := State.edgeWaits } (fun s c g =>
    s.guarded c [s.batonCheck c g 0x170, accCheck g ac.toNat ac.toNat] (fun s => s.matrixOp c (.acz ac.toNat)))

/-- ACLD (R262). -/
def execAcld (h : Hdr) (o : AcldOp) : State → Result := accMove h o.ac o.ty o.lw o.b (.acld o.ac.toNat o.ty)

/-- The coordinates of element (i, j) of the global form from the object quad (R201, R261). -/
def accCoords (q : BitVec 128) (x : Nat × Nat) : List Nat := objCoords q (x.2, x.1, 0)

/-- ACST to an object (R261, R263). -/
def accObject (h : Hdr) (o : AcstOp) (q : Src) : State → Result :=
  groupC h { srcs := [engUse 1 q 4 3, engUse 2 o.b 1 3], hold := State.edgeWaits } (fun s c g =>
    let v := wordOf (c.u 1) 0
    let a := c.u 0
    let i := (a.extractLsb' 0 16).toNat
    let idx := BitVec.ofNat 32 i
    let el := rect (shapeRows v) (shapeCols v)
    s.guarded c [s.batonCheck c g 0x170, accCheck g o.ac.toNat o.ac.toNat, shapeCheck o.ty v] (fun s =>
      s.withObject c i (fun s e =>
        let at' := el.map (fun x => (accOfs o.ty x.1 x.2, e.addr (accCoords a x)))
        s.guarded c
          [(at'.find? (fun x => decide (x.2.toNat % accBytes o.ty ≠ 0))).map (fun x => (0x0A0, lo32 x.2)),
           failIf (!(if o.add then e.atom else e.w)) 0x0A4 idx,
           failIf (el.any (fun x => !e.inside (accCoords a x))) 0x0A5 idx,
           failIf (e.fmt != (if o.ty = .f64 then 5 else 0)) 0x0A6 idx]
          (fun s => s.matrixOp c (.acstg o.ac.toNat o.ty o.add at')))))

/-- ACST (R262, R263). -/
def execAcst (h : Hdr) (o : AcstOp) : State → Result :=
  match o.tgt with
  | .scratch lw => accMove h o.ac o.ty lw o.b (.acst o.ac.toNat o.ty o.add)
  | .object q => accObject h o q

/-- ACRD (R265, R395). -/
def execAcrd (h : Hdr) (o : AcrdOp) : State → Result :=
  let n := if o.w64 then 2 else 1
  issue h { srcs := [{ fld := 2, src := o.b, consume := some 3 }], dst := some (o.d, n), precise := true }
    (fun s c =>
      if c.exec = 0 then s.finish c 0 c.causes
      else match s.groupAt c with
        | none => s
        | some g =>
          let e (L : Lane) : Nat := (wordOf (c.v 0 L) 0).toNat
          s.guarded c [accCheck g o.ac.toNat o.ac.toNat] (fun s =>
            s.checked c [⟨0x176, fun L => decide (e L ≥ (if o.w64 then 2048 else 4096)), fun L => wordOf (c.v 0 L) 0⟩] (fun s c =>
              let id := s.nextFlight c
              let s := s.fly c 1 c.exec (splat 0) { known := 0, val := splat 0, poison := allClean } false
              let s := s.enqueue c false (.acrd o.ac.toNat o.w64 id ((Mask.lanes c.exec).map (fun L => (L, e L))))
              (s.finish c 1 c.causes).endAtomic c)))

/-! ## Tile and accumulator storage -/

/-- The pool bytes of `n` bytes from offset `o` of accumulator `ac` of a group. -/
def accAt (g : Group) (ac o n : Nat) : List Nat := (List.range n).map (fun i => (g.acc[ac]?).getD 0 * 16384 + o + i)

/-- Element `w` bits wide at bit `b` of the tile file. -/
def tileRead (m : Mem) (w b : Nat) : Nat := m.readN (b / 8) ((w + 7) / 8) / 2 ^ (b % 8) % 2 ^ w

/-- Whether the tile word of an element is uncorrectable (R247). -/
def tileBad (l : List Nat) (w b : Nat) : Bool := (wordsOf (b / 8) ((w + 7) / 8)).any l.contains

/-- The bytes of an element `w` bits wide, at bit `b` of a row of bytes that now hold `old`. -/
def eltOver (w b old x : Nat) : Nat := if w = 4 then (if b % 8 = 0 then old / 16 * 16 + x else old % 16 + x * 16) else x

/-- The bytes of an element of the tile file, each with whether it lies in an uncorrectable word (R247). -/
def Core.tileTake (c : Core) (w b : Nat) : List (Byte × Bool) :=
  (List.range ((w + 7) / 8)).map (fun i => (c.tiles.read (b / 8 + i), c.tilesBad.contains ((b / 8 + i) / 4)))

/-- Bytes written to the tile file from the byte of bit `b` (R247). -/
def Core.tileWrite (c : Core) (b : Nat) (bs : List (Byte × Bool)) : Core :=
  let x := markedWrite c.tiles c.tilesBad ((List.range bs.length).map (· + b / 8)) bs
  { c with tiles := x.1, tilesBad := x.2 }

/-! ## Products (R91 to R93, R260) -/

/-- A list in pieces of `n`. -/
def pieces {α : Type} (n : Nat) (l : List α) : List (List α) :=
  (List.range ((l.length + n - 1) / n)).map (fun i => (l.drop (i * n)).take n)

/-- The exact sum of a chunk's products, zero being +0 (R92). -/
def chunkTerm (l : List Term) : Term :=
  if termsBad l then .bad
  else if l.contains (.inf true) then .inf true
  else if l.contains (.inf false) then .inf false
  else
    let e := termExp l
    let s := termSum l e
    .fin (decide (s < 0)) s.natAbs e

/-- One accumulator element after its products, k ascending: bits and flags (R92, R93, R260). -/
def mmaElement (fmt : BitVec 10) (c : Nat) (ab : List (Nat × Nat)) : FRes :=
  let ta := fmtType (fmtA fmt)
  let tb := fmtType (fmtB fmt)
  if fmtAcc fmt then
    let t (e : EType) (x : Nat) : Int := (eltInt e).read (BitVec.ofNat 128 x)
    ⟨wrapNat 32 (ab.foldl (fun s x => s + t ta x.1 * t tb x.2) (c : Int)), 0⟩
  else match ta with
    | .f64 | .f32 =>
      ab.foldl (fun (r : FRes) x =>
        let y := (fmtOf ta).fma .rne x.1 x.2 r.bits
        ⟨y.bits, r.fl ||| y.fl⟩) ⟨c, 0⟩
    | .f16 | .bf16 | .f16x2 | .bf16x2 | .kf8e4 | .kf8e5 | .kf4 | .si8 | .ui8 | .si4 | .ui4 =>
      (pieces (if ta = .kf4 then 64 else 32) ab).foldl (fun (r : FRes) ch =>
        let y := f32.sumTerms .rne [chunkTerm (ch.map (fun x => prodTerm (fmtOf ta) (fmtOf tb) x.1 x.2)), valTerm f32 r.bits]
        ⟨y.bits, r.fl ||| y.fl⟩) ⟨c, 0⟩

/-- The accumulator type of an MMA (R259). -/
def mmaType (fmt : BitVec 10) : AccTy := if fmtA fmt = 5 then .f64 else if fmtAcc fmt then .si32 else .f32

/-- The element products of a rectangle: accumulator, row and column in it, row of Ta, row of Tb (R260). -/
def mmaPlaces (ac m n : Nat) (blocks : Bool) : List (Nat × Nat × Nat × Nat × Nat) :=
  if blocks then
    (List.range 16).flatMap (fun q => (rect (m / 16) (n / 16)).map (fun x =>
      (ac + q, x.1, x.2, q * (m / 16) + x.1, q * (n / 16) + x.2)))
  else (rect m n).map (fun x => (ac, x.1, x.2, x.1, x.2))

/-- One element of an MMA performed at a core: the state, the flags, and whether a word read was uncorrectable; `bad` where its
residue check failed twice. -/
def State.mmaStep (s : State) (core : Nat) (g : Group) (ta tb : BitVec 4) (tca tcb : Word) (fmt : BitVec 10) (bad : Bool)
    (p : Nat × Nat × Nat × Nat × Nat) : State × BitVec 8 × Bool :=
  let ty := mmaType fmt
  let at' := accAt g p.1 (accOfs ty p.2.1 p.2.2.1) (accBytes ty)
  let c := markedNum (s.poolTake core at')
  let co := s.coreAt core
  let bitA (k : Nat) : Nat := tileBit ta (tcWidth tca) p.2.2.2.1 k
  let bitB (k : Nat) : Nat := tileBit tb (tcWidth tcb) p.2.2.2.2 k
  let ks := List.range (tcCols tca)
  let err := c.2 || ks.any (fun k => tileBad co.tilesBad (tcWidth tca) (bitA k) || tileBad co.tilesBad (tcWidth tcb) (bitB k))
  let r := mmaElement fmt c.1 (ks.map (fun k => (tileRead co.tiles (tcWidth tca) (bitA k), tileRead co.tiles (tcWidth tcb) (bitB k))))
  (s.poolScatter core at' (marked (err || bad) (toBytes (accBytes ty) r.bits)), r.fl, err)

/-- The head of a core's queue changed. -/
def State.withHead (s : State) (core : Nat) (f : MatE → MatE) : State :=
  s.withCore core (fun c => { c with mq := c.mq.modify 0 f })

/-- Floating flags of an element, kept with the operation at the head of a core's queue until it completes (R260, R263). -/
def State.keepFlags (s : State) (core : Nat) (fl : BitVec 8) : State :=
  s.withHead core (fun e => { e with flags := e.flags ||| fl })

/-- The floating flags of a completed operation, ORed into the MFLAGS of its wave (R260, R263). -/
def State.raiseMflags (s : State) (w : Nat) (fl : BitVec 8) : State :=
  s.withWave w (fun wv => { wv with mflags := wv.mflags ||| fl.setWidth 32 })

/-- An MMA or MMAB performed, with its flags (R260). -/
def State.performMma (s : State) (core : Nat) (g : Group) (ac : Nat) (ta tb : BitVec 4) (tca tcb : Word)
    (fmt : BitVec 10) (blocks : Bool) (bad : Nat → Bool) : State :=
  let r := (mmaPlaces ac (tcRows tca) (tcRows tcb) blocks).zipIdx.foldl (fun (a : State × BitVec 8 × Bool) p =>
    let x := a.1.mmaStep core g ta tb tca tcb fmt (bad p.2) p.1
    (x.1, a.2.1 ||| x.2.1, a.2.2 || x.2.2)) (s, 0, false)
  (r.1.keepFlags core r.2.1).noteBad r.2.2

/-! ## The other operations performed -/

/-- Elements moved one after the other: `f` moves one and says whether it read an uncorrectable word, which is counted (R247). -/
def State.moveAll {α : Type} (s : State) (bad : Nat → Bool) (f : State → α → Bool → State × Bool) (l : List α) : State :=
  let r := l.zipIdx.foldl (fun (a : State × Bool) x =>
    let y := f a.1 x.1 (bad x.2)
    (y.1, a.2 || y.2)) (s, false)
  r.1.noteBad r.2

/-- A tile's elements from the scratchpad (R258). -/
def State.performTld (s : State) (core : Nat) (g : Group) (w : Nat) (bad : Nat → Bool) (l : List (Nat × Nat)) : State :=
  s.moveAll bad (fun s x bad =>
    let v := s.poolTake core (scrBytes g.scr x.2 ((w + 7) / 8))
    let n := markedNum v
    let e := n.1 / 2 ^ (x.1 % 8) % 2 ^ w
    let bs := if w = 4 then marked n.2 [BitVec.ofNat 8 (eltOver w x.1 ((s.coreAt core).tiles.read (x.1 / 8)).toNat e)] else v
    (s.withCore core (fun c => c.tileWrite x.1 (spoiled bad bs)), n.2)) l

/-- A tile's elements to the scratchpad (R258). -/
def State.performTst (s : State) (core : Nat) (g : Group) (w : Nat) (bad : Nat → Bool) (l : List (Nat × Nat)) : State :=
  s.moveAll bad (fun s x bad =>
    let at' := scrBytes g.scr x.2 ((w + 7) / 8)
    let c := s.coreAt core
    let v := c.tileTake w x.1
    let n := markedNum v
    let bs := if w = 4 then
        marked n.2 [BitVec.ofNat 8 (eltOver w x.1 (markedNum (s.poolTake core at')).1 (tileRead c.tiles w x.1))] else v
    (s.poolScatter core at' (spoiled bad bs), n.2)) l

/-- A byte range set to zero, its words correct. -/
def zeroRange (m : Mem) (bad : List Nat) (a n : Nat) : Mem × List Nat :=
  (m.filter (fun c => !decide (a ≤ c.1 ∧ c.1 < a + n)), bad.filter (fun i => !decide (a ≤ 4 * i ∧ 4 * i < a + n)))

/-- Elements copied bit for bit between places of the pool (R262). -/
def State.performPool (s : State) (core : Nat) (bad : Nat → Bool) (l : List (List Nat × List Nat)) : State :=
  s.moveAll bad (fun s x bad =>
    let v := s.poolTake core x.1
    (s.poolScatter core x.2 (spoiled bad v), (markedNum v).2)) l

/-- The new value of an element under add-on-store (R263). -/
def addElement (ty : AccTy) (m a : Nat) : FRes :=
  match ty with
  | .f32 => f32.add .rne m a
  | .f64 => f64.add .rne m a
  | .si32 => ⟨(m + a) % 2 ^ 32, 0⟩

/-- Add-on-store to the scratchpad (R263). -/
def State.performAdd (s : State) (core : Nat) (ty : AccTy) (bad : Nat → Bool) (l : List (List Nat × List Nat)) : State :=
  s.moveAll bad (fun s p bad =>
    let v := markedNum (s.poolTake core p.1)
    let m := markedNum (s.poolTake core p.2)
    let y := addElement ty m.1 v.1
    ((s.poolScatter core p.2 (marked (v.2 || m.2 || bad) (toBytes (accBytes ty) y.bits))).keepFlags core y.fl, v.2 || m.2)) l

/-- One element of an add-on-store to memory (R263): a package element in the home's memory-side unit, with which plain loads of
its bytes race as with a plain store (R264); an element of host-coherent or remote memory as RED.FADD. Each gives its flags, a
remote one with its answer. -/
def State.addGlobal (s : State) (core w : Nat) (ty : AccTy) (r : Phys × Nat × Nat) (v : Nat) (bad : Bool) (va : DWord) :
    State :=
  let n := accBytes ty
  if r.1.kind = 3 then
    s.askAtomic r.1 n (.op (.fp .fadd (if ty = .f64 then .f64 else .f32)) v) (.matrix core (some (ty, v))) va (bad := bad)
  else
    let key := memKey r.1.kind r.1.pa
    let x := s.atomicAs core key n 0 (fun m => some (addElement ty m v).bits)
    let err := decide (x.2.poison = .err)
    let s := (x.1.keepFlags core (addElement ty (x.2.val.toNat % 2 ^ (8 * n)) v).fl).noteBad err
    let s := if r.1.kind = 2 then s else s.raceLoads (plainKeys (w + 1) key n)
    if bad || err then s.spoilHome key n else s

/-- An operation that is given up: it has no element left (R385, R424). -/
def MatE.abandon (e : MatE) : MatE :=
  { e with wait := none
           kind := match e.kind with
             | .acstg ac ty add _ => .acstg ac ty add []
             | .tld _ _ | .tst _ _ | .tzero _ | .mma _ _ _ _ _ _ _ | .acz _ | .acld _ _ _ | .acst _ _ _ _ | .acrd _ _ _ _ => e.kind }

/-- The elements of a store to memory performed in order until one must be abandoned (R262, R263, R348, R385), which leaves none;
`bad` names those, counted from `i`, whose residue check failed twice. -/
def State.storeElements (s : State) (core : Nat) (wv : Wave) (l : Launch) (g : Group) (e : MatE) (ac : Nat) (ty : AccTy)
    (add : Bool) (bad : Nat → Bool) (i : Nat) : List (Nat × DWord) → State
  | [] => s
  | x :: rest =>
    match s.elMeet (core / 64) l.domain (if add then .atomic else .write) (if add then 0x0E0 else 0x0E9) x.2 (accBytes ty) with
    | .drop c => (s.withHead core MatE.abandon).engineCause e.wave c (lo32 x.2) e.pc e.w0 e.w1 e.w2
    | .fault _ _ => s
    | .runs rs =>
      let v := s.poolTake core (accAt g ac x.1 (accBytes ty))
      let n := markedNum v
      let v := spoiled (bad i) v
      let s := rs.foldl (fun s r =>
        let piece := (v.drop r.2.1).take r.2.2
        if add then s.addGlobal core e.wave ty r n.1 (n.2 || bad i) x.2
        else if r.1.kind = 3 then
          s.askWrite r.1 (piece.map (·.1)) (.matrix core none) x.2 (bad := piece.any (·.2))
        else s.runWrite core wv.launch (!s.det wv) (e.wave + 1) r piece) (s.noteBad n.2)
      State.storeElements s core wv l g e ac ty add bad (i + 1) rest

/-- The first element that faults before one is abandoned. -/
def State.firstFault (s : State) (die : Nat) (dom : Domain) (ty : AccTy) (add : Bool) : List (Nat × DWord) → Option (DWord × Cause)
  | [] => none
  | x :: rest =>
    match s.elMeet die dom (if add then .atomic else .write) 0x0E0 x.2 (accBytes ty) with
    | .fault va c => some (va, c)
    | .drop _ => none
    | .runs _ => State.firstFault s die dom ty add rest

/-- ACST to memory: an add-on-store waits with nothing performed while an element's page faults (R264, R348), then performs the
whole; a plain store performs its elements up to the first that faults, `later` being those of another step. -/
def State.performStore (s : State) (core : Nat) (g : Group) (wv : Wave) (e : MatE) (ac : Nat) (ty : AccTy) (add : Bool)
    (bad : Nat → Bool) (elts later : List (Nat × DWord)) : State :=
  match s.launchOf wv with
  | none => s
  | some l =>
    let left (k : List (Nat × DWord)) (s : State) : State := s.withHead core (fun e => { e with kind := .acstg ac ty add k })
    match s.firstFault (core / 64) l.domain ty add elts with
    | some f =>
      let p := { wv.poster 7 with core := core }
      let pre := if add then [] else elts.takeWhile (fun x =>
        match s.elMeet (core / 64) l.domain .write 0x0E9 x.2 (accBytes ty) with
        | .runs _ => true
        | .fault _ _ | .drop _ => false)
      let s := (left (elts.drop pre.length ++ later) s).storeElements core wv l g e ac ty add bad 0 pre
      let a := s.attach (core / 64) l.domain.id f.1 f.2 p
      a.1.withHead core (fun e => { e with wait := a.2.map (fun i => (core / 64, i)) })
    | none => (left later s).storeElements core wv l g e ac ty add bad 0 elts

/-- The answer of an ACRD (R247, R265). -/
def State.performAcrd (s : State) (core : Nat) (g : Group) (w ac : Nat) (w64 : Bool) (flight : Nat) (idx : List (Lane × Nat)) :
    State :=
  let n := if w64 then 8 else 4
  let at' (L : Lane) : List Nat := match idx.find? (fun x => x.1 == L) with
    | some x => accAt g ac (x.2 * n) n
    | none => []
  s.answer w flight
    { lanes := idx.foldl (fun m x => m ||| Mask.one x.1) 0
      val := fun L =>
        let v := markedNum (s.poolTake core (at' L))
        if v.2 then BitVec.ofNat 128 ((Config.errValue s.fresh L.val).toNat % 2 ^ (8 * n)) else BitVec.ofNat 128 v.1
      poison := fun L => if (markedNum (s.poolTake core (at' L))).2 then .err else .clean
      errSrc := 5, ok := 0 }

/-! ## The queue at work (R250) -/

/-- Whether a remote request of the queue's head is outstanding. -/
def State.matrixBusy (s : State) (core : Nat) : Bool :=
  s.via.streams.any (fun st => st.2.reqs.any (fun r => match r.who with
    | .matrix c _ => decide (c = core)
    | .flight _ _ _ | .store _ _ _ _ | .copyRead _ _ | .copyWrite _ | .entry _ _ _ | .agent _ => false))

/-- The head operation's kind replaced. -/
def State.setHead (s : State) (core : Nat) (k : MatKind) : State := s.withHead core (fun e => { e with kind := k })

/-- The next `n` elements of the head operation performed, or all that are left where `n` is 0; products, an add-on-store and
what clears are performed whole (R264). -/
def State.performHead (s : State) (core : Nat) (g : Group) (wv : Wave) (e : MatE) (n : Nat) (bad : Nat → Bool) : State :=
  match e.kind with
  | .tld w l => let x := share n l
    (s.performTld core g w bad x.1).setHead core (.tld w x.2)
  | .tst w l => let x := share n l
    (s.performTst core g w bad x.1).setHead core (.tst w x.2)
  | .tzero t => s.withCore core (fun c =>
      let z := zeroRange c.tiles c.tilesBad (t.toNat * 8192) 8192
      { c with tiles := z.1, tilesBad := z.2 })
  | .mma ac ta tb tca tcb fmt b => s.performMma core g ac ta tb tca tcb fmt b bad
  | .acz ac => s.withCore core (fun c =>
      let z := zeroRange c.pool c.poolBad ((g.acc[ac]?).getD 0 * 16384) 16384
      { c with pool := z.1, poolBad := z.2 })
  | .acld ac ty l => let x := share n l
    (s.performPool core bad (x.1.map (fun x => (scrBytes g.scr x.2 (accBytes ty), accAt g ac x.1 (accBytes ty))))).setHead core
      (.acld ac ty x.2)
  | .acst ac ty add l =>
    let x := share (if add then 0 else n) l
    let at' := x.1.map (fun x => (accAt g ac x.1 (accBytes ty), scrBytes g.scr x.2 (accBytes ty)))
    (if add then s.performAdd core ty bad at' else s.performPool core bad at').setHead core (.acst ac ty add x.2)
  | .acstg ac ty add l => let x := share (if add then 0 else n) l
    s.performStore core g wv e ac ty add bad x.1 x.2
  | .acrd ac w64 f idx => s.performAcrd core g e.wave ac w64 f idx

/-- Whether an operation has elements left. -/
def MatE.open' (e : MatE) : Bool := match e.kind with
  | .acstg _ _ _ l => !l.isEmpty
  | .tld _ l | .tst _ l | .acld _ _ l | .acst _ _ _ l => !l.isEmpty
  | .tzero _ | .mma _ _ _ _ _ _ _ | .acz _ | .acrd _ _ _ _ => false

/-- A head that is finished leaves the queue, and its flags go to MFLAGS (R203, R250, R260, R263). -/
def State.popMatrix (s : State) (core : Nat) : State :=
  match (s.coreAt core).mq with
  | [] => s
  | e :: rest =>
    if e.open' || s.matrixBusy core then s
    else ((s.withCore core (fun c => { c with mq := rest })).raiseMflags e.wave e.flags).settleGroup e.group

/-- Whether the residue check of an operation has results to spoil (R430). -/
def MatKind.checks : MatKind → Bool
  | .tzero _ | .acz _ | .acrd _ _ _ _ => false
  | .tld _ _ | .tst _ _ | .mma _ _ _ _ _ _ _ | .acld _ _ _ | .acst _ _ _ _ | .acstg _ _ _ _ => true

/-- The engine of a core performs the next `n` elements of the operation at the head of its queue, or what is left of it where
`n` is 0, unless it waits (R250); under PAUSE it begins none (R411). -/
def State.runMatrix (s : State) (core n : Nat) : State :=
  match (s.coreAt core).mq with
  | [] => s
  | e :: _ =>
    if e.wait.isSome || s.matrixBusy core || (decide (s.power.pause ≠ 0) && !e.started) then s
    else match s.groups[e.group]?, s.waves[e.wave]? with
      | some g, some wv =>
        let r := if e.kind.checks then s.engineResidue core else (s, fun _ => false)
        ((r.1.withHead core (fun e => { e with started := true })).performHead core g wv e n r.2).popMatrix core
      | _, _ => s

/-- MATRIX OPERATION COMPLETES: a step in which the engine performs the next `n` elements of the head operation, or completes it
where `n` is 0, outside a deterministic tree, whose operations wait for the boundary (R395). -/
def execMatrixOperationComplete (x : EngineStep) (s : State) : Result :=
  .next (match (s.coreAt x.which).mq with
    | [] => s
    | e :: _ => match s.waves[e.wave]? with
      | some wv => if s.det wv then s else s.runMatrix x.which x.n
      | none => s)

end Sys2Proof.Machine
end

