-- ==== Sys2Proof/Machine/Barriers.lean ====
section
/-! DEFINITION. Barriers (R271 to R275, R397) and spans (R296, R297, R305 to R308) of group D. -/

namespace Sys2Proof.Machine

/-! ## Barriers -/

/-- Word 0 of a barrier (R271). -/
def Barrier.word0 (b : Barrier) : Word := (b.arr.setWidth 32 <<< 16) ||| b.mem.setWidth 32

/-- Barrier `n` of a group. -/
def Group.bar (g : Group) (n : BitVec 4) : Barrier := g.barriers[n.toNat]

/-- The mask of a WAVEID. -/
def waveBit (w : BitVec 4) : BitVec 16 := 1#16 <<< w.toNat

/-- The wave arrives, as a member from then on; inside a tree the flip waits for the boundary (R273, R397). -/
def Barrier.arrive (b : Barrier) (w : BitVec 4) (det : Bool) : Barrier :=
  let b := { b with mem := b.mem ||| waveBit w, arr := b.arr ||| waveBit w }
  if det then b else b.settle

/-- A barrier of the instruction's group replaced. -/
def State.setBar (s : State) (c : Ctx) (n : BitVec 4) (b : Barrier) : State :=
  s.ownGroup c (fun g => { g with barriers := g.barriers.setIfInBounds n.toNat b })

/-- Membership check of BAR, BARA and BARDROP. -/
def memberCheck (b : Barrier) (w : BitVec 4) : Option (Cause × Word) := failIf (b.mem &&& waveBit w == 0) 0x160 b.word0

/-- The wait of BAR and BARJOIN after the barrier has become `b`, for a phase other than `p`. -/
def State.barWait (s : State) (c : Ctx) (n : BitVec 4) (b : Barrier) (p : Bool) : State :=
  if b.phase ≠ p ∧ s.detOf c = false then (s.switchPoint c.w).finish c 0 c.causes else s.beginWait c (.bar n p b.flips)

/-- BARINIT (R273). -/
def execBarinit (h : Hdr) (n : BitVec 4) (a : Src) : State → Result :=
  groupC h { srcs := [engUse 1 a 1 2] } (fun s c g =>
    let v := wordOf (c.u 0) 0
    let b := g.bar n
    let named := (List.range 16).all (fun i => !v.getLsbD i || s.memberLive g (BitVec.ofNat 32 i))
    s.guarded c [failIf (v.extractLsb' 16 16 != 0 || !named) 0x162 v, failIf (b.arr != 0) 0x161 b.word0] (fun s =>
      (s.setBar c n { b with mem := v.setWidth 16 }).finish c 0 c.causes))

/-- BAR, and BAR.W of a token (R272, R273); an arrival is a release (R275). -/
def execBar (h : Hdr) (n : BitVec 4) (token : Option Src) : State → Result :=
  groupC h { srcs := match token with | some t => [engUse 1 t 1 2] | none => []
             hold := fun s w => token.isNone && s.edgeWaits w } (fun s c g =>
    let me := s.waveidOf c
    let b := g.bar n
    match token with
    | some _ => s.barWait c n b ((wordOf (c.u 0) 0).getLsbD 16)
    | none =>
      s.guarded c [memberCheck b me] (fun s =>
        let b' := b.arrive me (s.detOf c)
        (s.setBar c n b').barWait c n b' b.phase))

/-- BARA (R273, R275). -/
def execBara (h : Hdr) (n : BitVec 4) (d : Dst) : State → Result :=
  groupC h { dst := some (d, 1), hold := State.edgeWaits } (fun s c g =>
    let me := s.waveidOf c
    let b := g.bar n
    s.guarded c [memberCheck b me] (fun s =>
      let v : Word := (if b.phase then 0x10000 else 0) ||| b.mem.setWidth 32
      let s := (s.setBar c n (b.arrive me (s.detOf c))).withWave c.w (fun wv =>
        wv.writeD c.dst c.exec (splat (v.setWidth 128)) allClean .uni)
      (s.switchPoint c.w).finish c 0 c.causes))

/-- BARDROP (R273, R275). -/
def execBardrop (h : Hdr) (n : BitVec 4) : State → Result :=
  groupC h { hold := State.edgeWaits } (fun s c g =>
    let me := s.waveidOf c
    let b := g.bar n
    s.guarded c [memberCheck b me] (fun s =>
      ((s.setBar c n (b.drop me (s.detOf c))).switchPoint c.w).finish c 0 c.causes))

/-- BARJOIN (R272, R273, R275). -/
def execBarjoin (h : Hdr) (n : BitVec 4) : State → Result :=
  groupC h { hold := State.edgeWaits } (fun s c g =>
    let me := s.waveidOf c
    let b := g.bar n
    s.guarded c [failIf (b.mem &&& waveBit me != 0 && b.arr &&& waveBit me == 0) 0x163 b.word0] (fun s =>
      let b' := b.arrive me (s.detOf c)
      (s.setBar c n b').barWait c n b' b.phase))

/-! ## Spans -/

/-- A handle operand (R307). -/
def handleUse (a : Src) : OpUse := engUse 1 a 2 0

/-- The instance that a handle names on its die, changed. -/
def State.withSpan (s : State) (h : DWord) (f : Span → Span) : State :=
  s.withDie (handleDie h) (fun d => { d with spans := d.spans.map (fun sp =>
    if sp.slot = (h.extractLsb' 56 6).toNat ∧ sp.epoch = h.extractLsb' 0 48 then f sp else sp) })

/-- The freezes that a wave holds, over all dies (R305): die, epoch, count. -/
def State.freezesOf (s : State) (w : Nat) : List (Nat × BitVec 48 × Nat) :=
  (List.range 4).flatMap (fun i =>
    (((s.dies[i]?).getD Die.reset).freezes.filter (fun f => f.1 == w)).map (fun f => (i, f.2)))

/-- How many freezes a wave holds on the instance of a handle: none under a handle that names no instance. -/
def State.freezeOn (s : State) (w : Nat) (h : DWord) : Nat :=
  if (s.handleSpan h).isNone then 0
  else (((s.freezesOf w).find? (fun f => decide (f.1 = handleDie h ∧ f.2.1 = h.extractLsb' 0 48))).map (·.2.2)).getD 0

/-- The checks of Freeze (R308). -/
def State.freezeChecks (s : State) (w : Nat) (h : DWord) : List (Option (Cause × Word)) :=
  [failIf (((s.handleSpan h).map (fun sp => decide (sp.freeze = 255))).getD false) 0x16A (lo32 h),
   failIf (decide (s.freezeOn w h = 0 ∧ (s.freezesOf w).length ≥ 4)) 0x16D (lo32 h)]

/-- The record of a wave's freezes on the instance of a handle set to `n`. -/
def State.setFreeze (s : State) (w : Nat) (h : DWord) (n : Nat) : State :=
  s.withDie (handleDie h) (fun d =>
    let rest := d.freezes.filter (fun f => !decide (f.1 = w ∧ f.2.1 = h.extractLsb' 0 48))
    { d with freezes := if n = 0 then rest else rest ++ [(w, h.extractLsb' 0 48, n)] })

/-- Freeze (R308). -/
def State.freeze (s : State) (w : Nat) (h : DWord) : State :=
  (s.setFreeze w h (s.freezeOn w h + 1)).withSpan h (fun sp => { sp with freeze := sp.freeze + 1 })

/-- Thaw (R308). -/
def State.thaw (s : State) (w : Nat) (h : DWord) : State :=
  (s.setFreeze w h (s.freezeOn w h - 1)).withSpan h (fun sp => { sp with freeze := sp.freeze - 1 })

/-- The malformed-handle check (R297, R309). -/
def handleCheck (h : DWord) : Option (Cause × Word) := failIf (handleBad h) 0x168 (hi32 h)

/-- Whether a planner is regrouping: the planner performs one thing at a time, and an instruction waits for its answer
(R305, R307). -/
def State.planning (s : State) : Bool := s.dies.toList.any (fun d => d.regroup.isSome)

/-- SPANH (R308). -/
def execSpanh (h : Hdr) (frz : Bool) (d : Dst) : State → Result :=
  groupC h { dst := some (d, 2), hold := fun s _ => s.planning } (fun s c _ =>
    let hd := s.handleAt (s.coreOf c)
    s.guarded c (if frz then s.freezeChecks c.w hd else []) (fun s =>
      let s := if frz then s.freeze c.w hd else s
      (s.withWave c.w (fun wv => wv.writeD c.dst c.exec (splat (hd.setWidth 128)) allClean .uni)).finish c 0 c.causes))

/-- The rank of a core in an instance; 31 when it is no member (R296, R308). -/
def Span.rank (sp : Span) (c : Nat) : Nat := if sp.members.contains c then sp.members.findIdx (· == c) else 31

/-- The quad of SPANQ (R308). -/
def State.spanInfo (s : State) (core : Nat) (h : DWord) : BitVec 128 :=
  match s.handleSpan h with
  | none => BitVec.ofNat 128 (31 * 2 ^ 96)
  | some sp =>
    let here := decide (core / 64 = handleDie h)
    let mask := sp.members.foldl (fun a c => a + 2 ^ c) 0
    let memb := here && sp.members.contains (core % 64)
    let w2 := 2 ^ 31 + (if memb then 2 ^ 30 else 0) + sp.freeze * 256 + sp.members.length
    BitVec.ofNat 128 (mask + w2 * 2 ^ 64 + (if here then sp.rank (core % 64) else 31) * 2 ^ 96)

/-- SPANQ (R308). -/
def execSpanq (h : Hdr) (d : Dst) (a : Src) : State → Result :=
  groupC h { srcs := [handleUse a], dst := some (d, 4), hold := fun s _ => s.planning } (fun s c _ =>
    let hd := c.handle 0
    s.guarded c [handleCheck hd] (fun s =>
      let v := s.spanInfo (s.coreOf c) hd
      (s.withWave c.w (fun wv => wv.writeD c.dst c.exec (splat v) allClean .uni)).finish c 0 c.causes))

/-- SPANFRZ (R308). -/
def execSpanfrz (h : Hdr) (d : PNum) (a : Src) : State → Result :=
  groupC h { srcs := [handleUse a], preds := [d], hold := fun s _ => s.planning } (fun s c _ =>
    let hd := c.handle 0
    s.guarded c [handleCheck hd] (fun s =>
      if (s.handleSpan hd).isNone then (s.withWave c.w (fun wv => wv.setPred d c.exec 0)).finish c 0 c.causes
      else s.guarded c (s.freezeChecks c.w hd) (fun s =>
        ((s.freeze c.w hd).withWave c.w (fun wv => wv.setPred d c.exec fullMask)).finish c 0 c.causes)))

/-- SPANTHAW (R308). -/
def execSpanthaw (h : Hdr) (a : Src) : State → Result :=
  groupC h { srcs := [handleUse a], hold := fun s _ => s.planning } (fun s c _ =>
    let hd := c.handle 0
    s.guarded c [handleCheck hd, failIf (s.freezeOn c.w hd == 0) 0x16B (lo32 hd)] (fun s =>
      (s.thaw c.w hd).finish c 0 c.causes))

end Sys2Proof.Machine
end

