-- ==== Sys2Proof/Machine/Replay.lean ====
section
/-! DEFINITION. The replay queue as a handler reaches it, and KILL (R280, R281, R287). -/

namespace Sys2Proof.Machine

/-- What a predicate-writing instruction of an entry writes under RQDEL.CMP (R281). -/
inductive PredOut
  | none
  | one (p : PNum)
  | many (m : BitVec 7)
  deriving DecidableEq, Repr

/-- The predicates that an instruction of kind 0, 1 or 3 writes. -/
def predOut : Instr → PredOut
  | .iaddc _ o | .isubb _ o => .one o.cop
  | .icmp _ o => .one o.d
  | .icmpI _ o => .one o.d
  | .fcmp _ o => .one o.d
  | .plut _ o => .one o.d
  | .poll _ (.pred _ p) _ => .one p
  | .elect _ p => .one p
  | .pload _ m _ => .many m
  | .cas _ o | .cass _ o => .one o.p
  | _ => .none

/-- Whether an instruction is a compare and swap. -/
def isCas : Instr → Bool
  | .cas _ _ | .cass _ _ => true
  | _ => false

/-- The instruction of an entry. -/
def RQEntry.instr (e : RQEntry) : Option Instr := (decode (e.w2 ++ e.w1 ++ e.w0)).toOption

/-- Word `w` of entry number `seq` in each lane, with its poison (R280). -/
def RQEntry.word (e : RQEntry) (seq w : Nat) : LaneWord :=
  let one (v : Word) : LaneWord := ⟨splat v, allClean⟩
  match w with
  | 0 => one (0x80000000 ||| (e.kind.setWidth 32 <<< 28) ||| (e.cause.setWidth 32 <<< 16) ||| BitVec.ofNat 32 seq)
  | 1 => one e.remain
  | 2 => one e.pc
  | 3 => one e.w0
  | 4 => one e.w1
  | 5 => one e.w2
  | 6 => one e.detail
  | 7 => one 0
  | _ =>
    if e.kind = 5 then one 0
    else
      let x : LaneWord := if w = 20 then ⟨e.er, allClean⟩ else (e.lw[w - 8]?).getD ⟨splat 0, allClean⟩
      ⟨perLane fun L => if e.remain.has L then x.v[L] else 0, perLane fun L => if e.remain.has L then x.p[L] else .clean⟩

/-- An entry of the wave's replay queue. -/
def Wave.entryAt (wv : Wave) (e : Nat) : Option RQEntry := wv.rq[e]?

/-- An entry is deleted: the wait of a kind 5 entry ends, and a wave that waits for the baton no more leaves the waiters
(R256, R281). -/
def State.dropEntry (s : State) (w e : Nat) : State :=
  let s := s.withWave w (fun wv => { wv with
    rq := wv.rq.eraseIdx e, stopAt := if e < wv.stopAt then wv.stopAt - 1 else wv.stopAt })
  match s.waves[w]? with
  | none => s
  | some wv =>
    if wv.waitsBaton then s else s.withGroup wv.group (fun g => { g with baton := g.baton.unwait wv.waveid })

/-- Entries left empty are deleted (R281). -/
def State.dropEmpty (s : State) (w : Nat) : State :=
  match (s.waves[w]?).bind (fun wv => (List.range wv.rq.length).find? (fun i => decide ((wv.rq[i]?).map (·.remain) = some 0))) with
  | some i => s.dropEntry w i
  | none => s

/-- Words of an entry that RQWR writes (R280, R281). -/
def rqWritable (kind : BitVec 3) (w : Nat) : Bool :=
  decide (w = 1) || (decide (8 ≤ w ∧ w ≤ 19) && kind != 5)

/-- A word of an entry written: REMAIN is ANDed with the value of the lowest lane of `m`; a per-lane word takes the values of
the lanes of `m` in REMAIN, clean (R281). -/
def RQEntry.setWord (e : RQEntry) (w : Nat) (m : Mask) (v : Lane → Word) : RQEntry :=
  if w = 1 then { e with remain := e.remain &&& v (Mask.lowest m) }
  else
    let old := (e.lw[w - 8]?).getD ⟨splat 0, allClean⟩
    let new : LaneWord :=
      ⟨perLane fun L => if (m &&& e.remain).has L then v L else old.v[L],
       perLane fun L => if (m &&& e.remain).has L then .clean else old.p[L]⟩
    { e with lw := e.lw.setIfInBounds (w - 8) new }

/-- An entry's word written, and the entry deleted when no lane is left. -/
def State.writeEntry (s : State) (w e word : Nat) (m : Mask) (v : Lane → Word) : State :=
  (s.withWave w (fun wv => { wv with rq := wv.rq.modify e (fun x => x.setWord word m v) })).dropEmpty w

/-- The results of RQDEL.CMP: DAT0 up to the registers of the destination, then the predicate word (R281). -/
def Wave.complete (wv : Wave) (e : RQEntry) : Wave :=
  let i := e.instr
  let cas := (i.map isCas).getD false
  let d := if cas then { e.dst with n := e.dst.n / 2 } else e.dst
  let m := e.remain &&& wv.live
  let dat (k : Nat) (L : Lane) : Word := ((e.lw[8 + k]?).getD ⟨splat 0, allClean⟩).v[L]
  let val : Lanes (BitVec 128) := perLane fun L => (List.range 4).foldl (fun a k => a ||| ((dat k L).setWidth 128 <<< (32 * k))) 0
  let wv := if d.n = 0 then wv else wv.writeD d m val allClean .gen
  match (i.map predOut).getD .none with
  | .none => wv
  | .one p => wv.setPred p m (if cas then 0 else maskOf fun L => (dat d.n L).getLsbD 0)
  | .many sel => (List.range 7).foldl (fun w k =>
      if sel.getLsbD k then w.setPred (BitVec.ofNat 3 k) m (maskOf fun L => (dat 0 L).getLsbD k) else w) wv

/-- RQDEL of an entry, with or without CMP (R281). -/
def State.deleteEntry (s : State) (w e : Nat) (cmp : Bool) : State :=
  let s := s.withWave w (fun wv => match wv.entryAt e with
    | some x => if cmp && (x.kind == 0 || x.kind == 1 || x.kind == 3) then wv.complete x else wv
    | none => wv)
  s.dropEntry w e

/-- The check that a handler runs (R281). -/
def State.levelCheck (s : State) (c : Ctx) : Option (Cause × Word) := failIf (s.levelOf c == 0) 0x164 0

/-- Entry `e` of the instruction's wave. -/
def State.entryOf (s : State) (c : Ctx) (e : BitVec 3) : Option RQEntry := (s.waves[c.w]?).bind (·.entryAt e.toNat)

/-- RQRD (R281). -/
def execRqrd (h : Hdr) (e : BitVec 3) (w : BitVec 5) (d : Dst) : State → Result :=
  groupC h { dst := some (d, 1) } (fun s c _ =>
    s.guarded c [s.levelCheck c] (fun s =>
      let x := ((s.entryOf c e).map (fun x => x.word e.toNat w.toNat)).getD ⟨splat 0, allClean⟩
      (s.withWave c.w (fun wv => wv.writeD c.dst c.exec (x.v.map (·.setWidth 128)) x.p
        (if w.toNat < 8 then .uni else .gen))).finish c 0 c.causes))

/-- RQWR (R281): its source is consumed as store data. -/
def execRqwr (h : Hdr) (e : BitVec 3) (w : BitVec 5) (a : Src) : State → Result :=
  issue h { srcs := [{ fld := 1, src := a, consume := some 1 }] } (fun s c =>
    if c.exec = 0 then s.finish c 0 c.causes
    else
      let x := s.entryOf c e
      let bad := [s.levelCheck c, failIf x.isNone 0x165 (e.setWidth 32),
        failIf (!rqWritable ((x.map (·.kind)).getD 0) w.toNat) 0x166 (BitVec.ofNat 32 (e.toNat * 32 + w.toNat))].findSome? id
      match bad with
      | some b => s.raiseLate c 0 (c.issueCause b.1 b.2) c.exec (fun s _ => s)
      | none => (s.writeEntry c.w e.toNat w.toNat c.exec (fun L => wordOf (c.v 0 L) 0)).finish c 0 c.causes)

/-- RQDEL (R281): results written into a window that is still locked wait for it (R151). -/
def execRqdel (h : Hdr) (e : BitVec 3) (cmp : Bool) : State → Result :=
  let waits (wv : Wave) : Bool := cmp && ((wv.entryAt e.toNat).map (fun x => wv.outWaits x.dst)).getD false
  groupC h { hold := fun s w => ((s.waves[w]?).map waits).getD false } (fun s c _ =>
    s.guarded c [s.levelCheck c, failIf (s.entryOf c e).isNone 0x165 (e.setWidth 32)] (fun s =>
      (s.deleteEntry c.w e.toNat cmp).finish c 0 c.causes))

/-- KILL (R287). -/
def execKill (h : Hdr) (a : Src) : State → Result :=
  issue h { srcs := [{ fld := 1, src := a, uniform := true, consume := some 2 }] } (fun s c =>
    if c.exec = 0 then s.finish c 0 c.causes
    else
      let cause : Cause := match s.waves[c.w]? with
        | some wv => if wv.level = 0 then 0 else wv.frame.tcause.setWidth 9
        | none => 0
      let s := s.retired c
      let mine := (((s.waves[c.w]?).bind (fun wv => wv.table.split? c.slot)).map (·.mask)).getD 0
      let k := s.killLanes c.w (wordOf (c.u 0) 0) (fun _ => cause)
      let r := (k.1.noteKiller c.w (wordOf (c.u 0) 0) c.w0 c.w1 c.w2, k.2)
      let goes := match c.replay, r.1.waves[c.w]? with
        | none, some wv =>
          if mine &&& wv.live = 0 then (r.1, [])
          else
            let t := wv.table.moveTo c.slot (c.pc + 12) wv.gone (r.1.checking wv)
            (r.1.withWave c.w (fun wv => { wv with table := t.1 }), t.2)
        | _, _ => (r.1, [])
      match mainCause c.causes with
      | none => goes.1.raiseMismatch c.w (r.2 ++ goes.2) c.w0 c.w1 c.w2
      | some m =>
        let e := c.entry 0 m.cause (causeMask c.causes) m.detail
        goes.1.enterTrap c.w ⟨m.cause, m.lane.val, m.detail, c.pc, c.w0, c.w1, c.w2, c.slot,
          (match c.replay with | none => some (c.pc + 12) | some _ => none), if e.remain = 0 then none else some e, none⟩)

end Sys2Proof.Machine
end

