-- ==== Sys2Proof/Machine/Launches.lean ====
section
/-! DEFINITION. Launch records, acceptance and completion records (R353 to R359), accesses of the agents on the base die. -/

namespace Sys2Proof.Machine

/-! ## Accesses of the base die's agents -/

/-- The place of an address for the Wellhead or the command processor: a walk of the domain's tables, nothing cached. -/
def State.sysPlace (s : State) (dom : Domain) (va : DWord) (need : Need) : Except Cause Phys :=
  if va.extractLsb' 48 16 ≠ 0#16 then .error 0x0DB
  else match s.walk dom va need with
    | .leaf e => .ok (e.phys va)
    | .fault c => .error c

/-- One byte as the base die reads it; what a remote or majority page, an uncorrectable word or an unreachable device supplies
is a free value (log entry 9). -/
def State.sysByte (s : State) (p : Phys) : Byte :=
  let key := memKey p.kind p.pa
  if p.kind.toNat ≤ 2 ∧ s.keyUp key = true ∧ s.seenBad none key 1 = false then s.mem.read key
  else BitVec.ofNat 8 (Config.choice s.fresh key)

/-- The uncorrectable words that a walk of the base die's agents meets. -/
def State.walkBad (s : State) (dom : Domain) (va : DWord) : List Nat :=
  (walkFrom s [] dom.id va [3, 2, 1, 0] dom.root.toNat).2.bad

/-- Bytes written at a place by the base die. -/
def State.sysWrite (s : State) (p : Phys) (bs : List Byte) (va : DWord) : State :=
  if p.kind = 3 then s.askWrite p bs (.agent none) va
  else s.writeHome (memKey p.kind p.pa) bs

/-! ## Records (R353, R354) -/

/-- The number in `n` bytes at offset `o`. -/
def numAt (bs : List Byte) (o n : Nat) : Nat := ofBytes ((bs.drop o).take n)

/-- A word at offset `o`. -/
def wordAt (bs : List Byte) (o : Nat) : Word := BitVec.ofNat 32 (numAt bs o 4)

/-- A role word's fields (R354). -/
def roleOf (v : Word) : Role :=
  { waves := (v.extractLsb' 8 5).toNat, prio := (v.extractLsb' 6 2).toNat, vregs := 8 * (v.extractLsb' 0 6).toNat }

/-- A launch record from its 128 bytes (R353). -/
def recordOf (bs : List Byte) : LRecord :=
  let f := wordAt bs 24
  let dw (o : Nat) : DWord := BitVec.ofNat 64 (numAt bs o 8)
  { codeBase := dw 0, codeSize := wordAt bs 8, entry := wordAt bs 12, handler := wordAt bs 16, partition := wordAt bs 20
    prio := (f.extractLsb' 21 3).toNat, energy := (f.extractLsb' 18 3).toNat, spawnDepth := (f.extractLsb' 15 3).toNat
    det := f.getLsbD 7, sig := f.getLsbD 6, mirrorOff := f.getLsbD 5, quantum := numAt bs 28 4
    gridX := numAt bs 32 4, gridY := numAt bs 36 2, gridZ := numAt bs 38 2, stages := numAt bs 40 2
    groupW := numAt bs 42 1, scratch := numAt bs 44 4, tarn := numAt bs 48 2, accum := numAt bs 50 2, seed := dw 56
    roles := (List.range ((f.extractLsb' 3 2).toNat + 1)).map (fun i => roleOf (wordAt bs (64 + 4 * i)))
    arg := dw 80, done := dw 88 }

/-- REG, SCR, ACC and TARN of a partition word (R162). -/
def partReg (p : Word) : Nat := (p.extractLsb' 0 7).toNat
/-- SCR. -/
def partScr (p : Word) : Nat := (p.extractLsb' 7 7).toNat
/-- ACC. -/
def partAcc (p : Word) : Nat := (p.extractLsb' 14 7).toNat
/-- TARN. -/
def partTarn (p : Word) : Nat := (p.extractLsb' 21 6).toNat

/-- Whether a byte offset names an instruction of a code region (R353). -/
def offsetOk (v size : Word) : Bool := decide (v.toNat % 12 = 0) && decide (v.toNat < size.toNat)

/-- Whether the role words keep R354. -/
def rolesOk (bs : List Byte) (r : LRecord) : Bool :=
  (List.range 4).all (fun i =>
    let v := wordAt bs (64 + 4 * i)
    if i < r.roles.length then
      decide (v.extractLsb' 13 19 = 0#19) && decide (1 ≤ (v.extractLsb' 8 5).toNat ∧ (v.extractLsb' 8 5).toNat ≤ 16)
        && decide (2 ≤ (v.extractLsb' 0 6).toNat ∧ (v.extractLsb' 0 6).toNat ≤ 32)
    else decide (v = 0))
  && decide ((r.roles.map (·.waves)).sum = r.groupW)

/-- The groups of a launch. -/
def LRecord.groups (r : LRecord) : Nat := r.gridX * r.gridY * r.gridZ

/-- Whether a record is malformed (R355); the must-be-zero bits of the partition word are R163's. -/
def malformedRecord (bs : List Byte) (r : LRecord) : Bool :=
  let f := wordAt bs 24
  let ok :=
    decide (r.codeBase.extractLsb' 0 6 = 0#6) && decide (r.codeSize.toNat % 12 = 0) && decide (12 ≤ r.codeSize.toNat)
    && offsetOk r.entry r.codeSize && (r.handler == 0xFFFFFFFF || offsetOk r.handler r.codeSize)
    && decide (f.extractLsb' 24 8 = 0#8) && decide (f.extractLsb' 8 7 = 0#7) && decide (f.extractLsb' 0 3 = 0#3)
    && decide (r.spawnDepth ≤ 4)
    && (if r.det then decide (256 ≤ r.quantum ∧ r.quantum ≤ 65536) else decide (r.quantum = 0))
    && decide (1 ≤ r.gridX ∧ 1 ≤ r.gridY ∧ 1 ≤ r.gridZ ∧ r.gridX < 2 ^ 32 ∧ r.gridY < 2 ^ 16 ∧ r.gridZ < 2 ^ 16)
    && decide (1 ≤ r.stages ∧ r.stages ≤ 256) && decide (1 ≤ r.groupW ∧ r.groupW ≤ 16)
    && decide (numAt bs 43 1 = 0) && decide (numAt bs 52 4 = 0) && (bs.drop 96).all (fun b => b == 0)
    && decide (r.tarn ≤ 1024 ∧ r.tarn % 64 = 0) && decide (r.accum ≤ 32) && decide (r.accum ≤ partAcc r.partition)
    && decide (r.done.toNat % 32 = 0) && decide (r.groups * r.stages * r.groupW ≤ 2 ^ 32)
    && rolesOk bs r
  !ok

/-! ## Footprints (R163, R165 to R167) -/

/-- Register granules of one wave. -/
def regNeed (vregs : Nat) (mirrored : Bool) : Nat := (if vregs ≤ 128 then 1 else 2) * (if mirrored then 2 else 1)

/-- Register granules of a group. -/
def LRecord.groupRegs (r : LRecord) (mirrored : Bool) : Nat := (r.roles.map (fun o => o.waves * regNeed o.vregs mirrored)).sum

/-- Tarn blocks of one wave. -/
def LRecord.tarnNeed (r : LRecord) : Nat := (r.tarn * 32 + 2047) / 2048

/-- Scratchpad granules of a group. -/
def LRecord.scrNeed (r : LRecord) : Nat := (r.scratch + 16383) / 16384

/-- How many groups an empty core holds, mirroring not counted (R166); the waves of a group of a tree share a quadrant of 16 slots
(R394). -/
def LRecord.groupsFit (r : LRecord) (tile : Bool) : Nat :=
  let p := r.partition
  let room (cap need : Nat) : Nat := if need = 0 then 64 else cap / need
  let n := min (min (room (partReg p) (r.groupRegs false)) (room (8 * partTarn p) (r.groupW * r.tarnNeed)))
    (min (min (room (partScr p) r.scrNeed) (room (partAcc p) r.accum))
    (if r.det then 4 * (16 / r.groupW) else room 64 r.groupW))
  if tile then min n 1 else n

/-- Whether a launch fails R163. -/
def LRecord.unplaceable (r : LRecord) : Bool :=
  let p := r.partition
  decide (p.extractLsb' 27 5 ≠ 0#5) || decide (partReg p + partScr p + partAcc p + partTarn p > 96)
    || decide (r.groupsFit false = 0)

/-- The cause that refuses a record (R355, R361), if any. -/
def refusal (bs : List Byte) (r : LRecord) (det : Option Bool) : Option Cause :=
  if malformedRecord bs r || (det.map (fun d => d != r.det)).getD false then some 0x184
  else if r.unplaceable then some 0x181
  else none

/-- Whether the kernel holds a group C instruction (R165): one of the first `n` words of its code region is one. -/
def State.holdsGroupC (s : State) (dom : Domain) (r : LRecord) : Nat → Bool
  | 0 => false
  | n + 1 =>
    (match s.sysPlace dom (r.codeBase + BitVec.ofNat 64 (12 * n + 8)) .fetch with
      | .ok p => decide ((s.fetchWord p).extractLsb' 28 4 = 0xC#4)
      | .error _ => false)
    || State.holdsGroupC s dom r n

/-! ## Acceptance -/

/-- A launch that has just been accepted. Its greatest residency is that of an empty core, also where it has fewer waves (log
entry 41). -/
def Launch.fresh (r : LRecord) (dom : Domain) (queue : Nat) (qwdog : Word) (depth : Nat) (parent tree : Option Nat)
    (ordinal : Nat) (tile : Bool) : Launch :=
  let n := r.groupsFit tile
  { record := r, domain := dom, queue := queue, qwdog := qwdog, depth := depth, parent := parent
    mirrored := !r.mirrorOff && decide (n * r.groupRegs false ≤ partReg r.partition / 2)
    maxRes := n * r.groupW, tree := tree, ordinal := ordinal, groupC := tile, nextGl := 0, completed := false
    abort := false, death := false, ndead := 0, firstLw := 0, firstDeath := 0, refused := none, bkpt := false }

/-- A launch accepted by the Wellhead. -/
def State.accept (s : State) (r : LRecord) (dom : Domain) (queue : Nat) (qwdog : Word) (depth : Nat)
    (parent tree : Option Nat) (ordinal : Nat) : State :=
  let tile := s.holdsGroupC dom r (r.codeSize.toNat / 12)
  { s with launches := s.launches ++ [Launch.fresh r dom queue qwdog depth parent tree ordinal tile] }

/-- A child accepted: it takes its parent's domain and queue, the QWDOG of that queue as it stands (R434), and in a tree the next
ordinal (R361, R390, R396). -/
def State.acceptChild (s : State) (w : Nat) (r : LRecord) : State :=
  match s.waves[w]? with
  | none => s
  | some wv => match s.launchOf wv with
    | none => s
    | some l =>
      let ord := ((l.tree.bind (fun t => s.trees[t]?)).map (·.nextOrd)).getD 0
      let n := s.launches.length
      let s := s.accept r l.domain l.queue ((lookupN l.queue s.queues).getD HQueue.reset).wdog (l.depth + 1) (some w) l.tree ord
      let s := match l.tree with
        | some t => { s with trees := s.trees.modify t (fun x => { x with nextOrd := x.nextOrd + 1 }) }
        | none => s
      s.withWave w (fun wv => { wv with children := wv.children ++ [n] })

/-! ## Completion (R357 to R359) -/

/-- The status of a launch (R358). -/
def Launch.status (l : Launch) : Word :=
  (if l.death then 1 else 0) ||| (if l.abort then 2 else 0) ||| (if l.refused.isSome then 4 else 0)

/-- Bytes 0 to 27 of a completion record (R358). -/
def Launch.doneBytes (l : Launch) (clock : DWord) : List Byte :=
  toBytes 4 l.status.toNat ++ toBytes 4 l.firstDeath.toNat ++ toBytes 4 l.firstLw.toNat ++ toBytes 4 l.ndead
    ++ toBytes 8 clock.toNat ++ toBytes 4 ((l.refused.map (·.toNat)).getD 0)

/-- The places of the `n` bytes from an address, if each may be written and none lies in a majority page. -/
def State.donePlaces (s : State) (dom : Domain) (va : DWord) : Nat → Option (List Phys)
  | 0 => some []
  | n + 1 => match State.donePlaces s dom va n, s.sysPlace dom (va + BitVec.ofNat 64 n) .write with
    | some l, .ok p => if p.kind = 4 then none else some (l ++ [p])
    | _, .ok _ | _, .error _ => none

/-- Bytes written at listed places. -/
def State.writeAt (s : State) (ps : List Phys) (bs : List Byte) (va : DWord) : State :=
  (runsOf ps).foldl (fun s r => s.sysWrite r.1 ((bs.drop r.2.1).take r.2.2) (va + BitVec.ofNat 64 r.2.1)) s

/-- The completion record is written, FIN last, or the event is counted and signalled (R358, R359); each byte is translated, since
a refused record's DONE may be misaligned and cross a page. -/
def State.writeDone (s : State) (l : Launch) : State :=
  let va := l.record.done
  if va = 0 then s
  else match s.donePlaces l.domain va 32 with
    | some ps => (s.writeAt (ps.take 28) (l.doneBytes s.clock) va).writeAt (ps.drop 28) (toBytes 4 1) (va + 28)
    | none => (s.count 0x0226).vector 65

/-- A host launch accepted or refused (R355, R358, R407); `grid` replaces the record's (LAUNCHI). -/
def State.hostLaunch (s : State) (bs : List Byte) (grid : Option (Nat × Nat × Nat)) (dom : Domain) (queue : Nat)
    (qwdog : Word) : State :=
  let r := recordOf bs
  let r := match grid with
    | some g => { r with gridX := g.1, gridY := g.2.1, gridZ := g.2.2 }
    | none => r
  match refusal bs r none with
  | some c =>
    let l := { Launch.fresh r dom queue qwdog 0 none none 0 false with completed := true, refused := some c }
    { s with launches := s.launches ++ [l] }.writeDone l
  | none =>
    if r.det then
      let t := s.trees.length
      let s' := s.accept r dom queue qwdog 0 none (some t) 0
      { s' with trees := s.trees ++ [{ root := s.launches.length, boundary := 0, phase := 0, acc := none, nextOrd := 1, weights := [], writers := [],
                                       stopped := false }] }
    else s.accept r dom queue qwdog 0 none none 0

/-- Group instances of a launch. -/
def LRecord.total (r : LRecord) : Nat := r.groups * r.stages

/-- Whether a store, an atomic or a majority store of the wave is not performed yet. -/
def State.storeBusy (s : State) (w : Nat) : Bool :=
  s.via.streams.any (fun st => st.2.reqs.any (fun r => decide (r.who.wave = some w ∧ r.op ≠ 1)))
    || s.keys.accs.any (fun a => decide (a.wave = w) && a.phase != .done && (match a.kind with
        | .store _ _ => true
        | .load | .entry _ _ _ => false))

/-- Whether a launch completes now (R357): every instance done, every child complete, every effect performed. -/
def State.launchReady (s : State) (i : Nat) (l : Launch) : Bool :=
  !l.completed
    && decide ((s.groups.filter (fun g => decide (g.launch = i ∧ g.life = .done))).length = l.record.total)
    && s.launches.all (fun c => match c.parent.bind (fun w => s.waves[w]?) with
        | some wv => wv.launch != i || c.completed
        | none => true)
    && (List.range s.waves.length).all (fun w => match s.waves[w]? with
        | some wv => wv.launch != i || (wv.buf.isEmpty && !s.storeBusy w)
        | none => true)

/-- A launch completes: its piers drain, its record is written, and JOIN and FENCE may observe it (R357). -/
def State.complete (s : State) (i : Nat) : State :=
  match s.launches[i]? with
  | none => s
  | some l =>
    if s.launchReady i l then
      let s := s.drainLaunch i
      (s.writeDone l).withLaunch i (fun l => { l with completed := true })
    else s

/-- Whether a launch completes between boundaries: it is of no tree, or its tree has stopped (R392, R396). -/
def State.offBoundary (s : State) (l : Launch) : Bool :=
  match l.tree.bind (fun t => s.trees[t]?) with
  | some t => t.stopped
  | none => true

/-- LAUNCH COMPLETION: a launch of a running tree completes at a boundary alone (R396). -/
def execLaunchCompletion (l : Nat) (s : State) : Result :=
  .next (if ((s.launches[l]?).map s.offBoundary).getD false then s.complete l else s)

end Sys2Proof.Machine
end

