-- ==== Sys2Proof/Machine/Tasks.lean ====
section
/-! DEFINITION. SPAWN, JOIN, SDONE and QEND (R361 to R366, R396). -/

namespace Sys2Proof.Machine

/-! ## SPAWN (R361) -/

/-- 64 bytes as the Wellhead reads them for a wave's SPAWN, with the rights of a load of the wave, and what the read has met: the
tables' entries and the uncorrectable words. -/
def State.recordHalf (s : State) (core : Nat) (dom : Domain) (buf : List DetEff) (va : DWord) : Except Cause (List Byte) × Walked :=
  match s.translate (core / 64) dom va .read with
  | (.error c, x) => (.error c, x)
  | (.ok p, x) =>
    if p.kind.toNat ≤ 2 then
      let key := memKey p.kind p.pa
      (.ok (overlayBuf buf key ((List.range 4).flatMap (fun j =>
        toBytes 16 (s.readAs (some core) (key + 16 * j) 16 j).val.toNat))), { x with bad := x.bad ++ s.badWords (some core) key 64 })
    else (.ok (toBytes 64 (Config.choice s.fresh va.toNat)), x)

/-- The record that a SPAWN names, or the address and cause of its translation fault, and what its read has met. -/
def State.spawnRecord (s : State) (core : Nat) (dom : Domain) (buf : List DetEff) (a : DWord) :
    Except (DWord × Cause) (List Byte) × Walked :=
  match s.recordHalf core dom buf a, s.recordHalf core dom buf (a + 64) with
  | (.ok x, u), (.ok y, v) => (.ok (x ++ y), u.join v)
  | (.error c, u), _ => (.error (a, c), u)
  | (.ok _, u), (.error c, v) => (.error (a + 64, c), u.join v)

/-- Whether an effect that a boundary is to apply is a SPAWN. -/
def DetEff.spawns : DetEff → Bool
  | .spawn _ _ _ => true
  | .store _ _ _ | .atomic _ _ _ _ | .cas _ _ _ _ | .maj _ _ _ _ _ | .spanStore _ | .spanAtomic _ _ | .spanCas _ _ => false

/-- The children of a wave that are outstanding, those that a boundary is to accept included (R361, R396). -/
def State.childCount (s : State) (wv : Wave) : Nat :=
  wv.children.length + (if s.det wv then (wv.buf.filter DetEff.spawns).length else 0)

/-- The lanes that a child which an effect brings holds up at a trap level, until the boundary accepts it (R361, R396). -/
def DetEff.holds (level : Nat) : DetEff → Mask
  | .spawn _ m l => if l = level then m else 0
  | .store _ _ _ | .atomic _ _ _ _ | .cas _ _ _ _ | .maj _ _ _ _ _ | .spanStore _ | .spanAtomic _ _ | .spanCas _ _ => 0

/-- The lanes of a wave whose splits wait for a child to be accepted (R361). -/
def Wave.heldLanes (wv : Wave) : Mask := wv.buf.foldl (fun m e => m ||| e.holds wv.level) 0

/-- The lanes of the issuing split. -/
def State.splitMask (s : State) (c : Ctx) : Mask :=
  (((s.waves[c.w]?).bind (fun wv => wv.table.split? c.slot)).map (·.mask)).getD 0

/-- SPAWN: every access before it happens before the child's (R317), so that it waits for those and the pier drains. In a tree the
record is checked at issue, the child is accepted at the boundary (R396), and until then the split issues nothing (R361, log
entry 38). -/
def execSpawn (h : Hdr) (o : SpawnOp) : State → Result :=
  issue h { srcs := [engUse 1 o.a 2 0, engUse 2 o.b 1 1, engUse 3 (plainSrc o.c) 2 1], precise := true
            hold := State.edgeWaits } (fun s c =>
    if c.exec = 0 then s.finish c 0 c.causes
    else match s.waves[c.w]?, (s.waves[c.w]?).bind s.launchOf with
      | some wv, some l =>
        let a : DWord := (c.u 0).setWidth 64
        let n := (wordOf (c.u 1) 0).toNat
        let up (x : Cause) (d : Word) : State := s.raise c (c.issueCause x d)
        if a.toNat % 64 ≠ 0 then up 0x0A0 (lo32 a)
        else if l.depth + 1 > l.record.spawnDepth then up 0x180 (BitVec.ofNat 32 (l.depth + 1))
        else if s.childCount wv ≥ 255 then s.again c
        else match s.spawnRecord wv.coreNo l.domain (if s.det wv then wv.buf else []) a with
          | (.error f, x) => (s.learn (wv.coreNo / 64) x).parkObject c l.domain f.1 f.2
          | (.ok bs, x) =>
            let s := s.learn (wv.coreNo / 64) x
            let up (x : Cause) (d : Word) : State := s.raise c (c.issueCause x d)
            let r := { recordOf bs with arg := (c.u 2).setWidth 64 }
            let r := if n = 0 then r else { r with gridX := n }
            match refusal bs r (some l.record.det) with
            | some x => up x (lo32 a)
            | none =>
              if s.det wv then (s.buffer c (.spawn r (s.splitMask c) (s.levelOf c))).finish c 0 c.causes
              else ((s.drainAt wv.coreNo).acceptChild c.w r).finish c 0 c.causes
      | _, _ => s)

/-! ## JOIN (R362, R363) -/

/-- Whether every listed launch has completed. -/
def State.allComplete (s : State) (js : List Nat) : Bool :=
  js.all (fun j => ((s.launches[j]?).map (·.completed)).getD true)

/-- The status word of JOIN: the OR of the listed launches' statuses. -/
def State.joinStatus (s : State) (js : List Nat) : Word :=
  js.foldl (fun a j => a ||| ((s.launches[j]?).map (·.status)).getD 0) 0

/-- The end of a JOIN: its children are forgotten and the status is written. -/
def State.joinEnd (s : State) (w : Nat) (js : List Nat) (d : Option Dst) (er : Lanes Byte) (m : Mask) : State :=
  let st := s.joinStatus js
  s.withWave w (fun wv =>
    let wv := { wv with children := wv.children.filter (fun j => !js.contains j) }
    match d with
    | none => wv
    | some d =>
      let rd : RDst := match d with
        | .reg _ e i => { n := 1, er := er, win := none, elt := if e = .w32 then none else some (e, i) }
        | .ind _ _ _ => { n := 1, er := er, win := some (0, 256), elt := none }
      wv.writeD rd (m &&& wv.live) (splat (st.setWidth 128)) allClean .uni)

/-- In a tree the transfer of the baton falls in the quantum that issues the JOIN, or takes its wait up again, while its children
are not complete (R256, R397). -/
def State.joinLeaves (s : State) (w : Nat) (js : List Nat) : State :=
  match s.waves[w]? with
  | some wv => if s.det wv && !s.allComplete js then
      s.withGroup wv.group (fun g => { g with baton := g.baton.leave wv.waveid true }) else s
  | none => s

/-- JOIN. -/
def execJoin (h : Hdr) (d : Option Dst) : State → Result :=
  groupC h { dst := d.map (fun d => (d, 1)) } (fun s c _ =>
    s.guarded c [failIf (s.levelOf c != 0) 0x182 0] (fun s =>
      let js := ((s.waves[c.w]?).map (·.children)).getD []
      if s.allComplete js ∧ s.detOf c = false then
        ((s.joinEnd c.w js d c.dst.er c.exec).switchPoint c.w).finish c 0 c.causes
      else
        (s.joinLeaves c.w js).beginWait c (.join js d c.dst.er c.exec)))

/-! ## SDONE and QEND (R365) -/

/-- SDONE: inside a tree it counts at the boundary (R396). -/
def execSdone (h : Hdr) : State → Result :=
  groupC h {} (fun s c g =>
    let last := decide (g.stage + 1 = ((s.launches[g.launch]?).map (·.record.stages)).getD 1)
    let s' := if last then s else s.ownGroup c (fun g => { g with sdone := g.sdone ||| waveBit (s.waveidOf c) })
    let s' := match s.waves[c.w]? with
      | some wv => if s.det wv then s' else s'.settleStage wv.group
      | none => s'
    s'.finish c 0 c.causes)

/-- QEND. -/
def execQend (h : Hdr) : State → Result :=
  groupC h {} (fun s c _ =>
    let s := s.finish c 0 c.causes
    if s.detOf c then (s.switchPoint c.w).endQuantum c.w else s)

end Sys2Proof.Machine
end

