-- ==== Sys2Proof/Machine/SaveArea.lean ====
section
/-! DEFINITION. Save areas: the bytes of wave records and group records, and what a restore takes from them (R59, R64, R143,
R207, R271, R280, R292 to R294). -/

namespace Sys2Proof.Machine

/-! ## Bytes -/

/-- Words as bytes. -/
def wordsBytes (l : List Word) : List Byte := l.flatMap (fun v => toBytes 4 v.toNat)

/-- A section of a record, which the next one follows at a 64-byte boundary (R294). -/
def padded (l : List Byte) : List Byte := l ++ List.replicate ((64 - l.length % 64) % 64) 0

/-- A section of `n` bytes and what follows it. -/
def cutSection (n : Nat) (l : List Byte) : List Byte × List Byte := (l.take n, l.drop ((n + 63) / 64 * 64))

/-- One word a lane. -/
def lanesAt (l : List Byte) (o : Nat) : Lanes Word := perLane fun L => wordAt l (o + 4 * L.val)

/-! ## Registers (R59, R64) -/

/-- The map byte of a register: tag and full/empty bit. -/
def VReg.mapByte (v : VReg) : Byte := BitVec.ofNat 8 v.tag.code ||| (if v.full then 4 else 0)

/-- The saved value of a register by its tag: one word, base and stride, or every lane. -/
def VReg.savedValue (v : VReg) : List Word :=
  match v.tag with
  | .uni => [v.val[(0 : Lane)]]
  | .aff => [v.val[(0 : Lane)], v.val[(1 : Lane)] - v.val[(0 : Lane)]]
  | .gen => v.val.toList

/-- The saved poison of a register, two bits a lane. -/
def VReg.savedPoison (v : VReg) : List Byte := toBytes 8 (v.poison.toList.foldr (fun p n => p.code.toNat + 4 * n) 0)

/-- The tag that a map byte names; the code 3, which no save writes, reads as GEN. -/
def tagOf (b : Byte) : Tag := if b.extractLsb' 0 2 = 0 then .uni else if b.extractLsb' 0 2 = 1 then .aff else .gen

/-- The bytes of the saved value under a map byte. -/
def valueSize (b : Byte) : Nat := match tagOf b with
  | .uni => 4 | .aff => 8 | .gen => 128

/-- The poison that a code names; the code 3 reads as ERR. -/
def poisonOf (c : Nat) : Poison := if c = 0 then .clean else if c = 1 then .race else .err

/-- A register as a record holds it. -/
def VReg.loaded (old : VReg) (b : Byte) (v p : List Byte) : VReg :=
  { old with
    tag := tagOf b, full := b.getLsbD 2
    val := match tagOf b with
      | .uni => splat (wordAt v 0)
      | .aff => perLane fun L => wordAt v 0 + BitVec.ofNat 32 L.val * wordAt v 4
      | .gen => lanesAt v 0
    poison := perLane fun L => poisonOf (ofBytes p / 4 ^ L.val % 4) }

/-- The registers from `r` up as the three register sections hold them. -/
def loadRegs (old : Nat → VReg) : Nat → List Byte → List Byte → List Byte → List (Nat × VReg)
  | _, [], _, _ => []
  | r, b :: map, v, p =>
    (r, (old r).loaded b (v.take (valueSize b)) (p.take 8)) :: loadRegs old (r + 1) map (v.drop (valueSize b)) (p.drop 8)

/-! ## Splits and records (R207) -/

/-- An entry of the split table or the divergence stack as eight words, the lowest first. -/
def entryWords (mask pc rpc em ha : Word) (fmt : BitVec 10) (link : BitVec 5) (type : BitVec 2) : List Word :=
  [0, 0, (fmt.setWidth 32 <<< 22) ||| (link.setWidth 32 <<< 17) ||| (type.setWidth 32 <<< 15), ha, em, rpc, pc, mask]

/-- A split as its entry. -/
def Split.words (s : Split) : List Word := entryWords s.mask s.pc s.rpc s.emask (s.hash.setWidth 32) s.fmt s.link 1

/-- A divergence record as its entry. -/
def Rec.words (r : Rec) : List Word := entryWords r.mask r.pc r.rpc r.pend r.arr r.fmt r.link 2

/-- An empty entry. -/
def noEntry : List Word := List.replicate 8 0

/-- The 24 entries of a table and its stack. -/
def SplitTable.words (t : SplitTable) : List Word :=
  t.slots.toList.flatMap (fun s => (s.map Split.words).getD noEntry)
    ++ t.recs.toList.flatMap (fun r => (r.map Rec.words).getD noEntry)
    ++ t.stack.toList.flatMap (fun e => match e with
      | some (.split s) => s.words
      | some (.record r) => r.words
      | none => noEntry)

/-- The fields of the third word of an entry: FMT, LINK, TYPE. -/
def entryTail (w : Word) : BitVec 10 × BitVec 5 × BitVec 2 := (w.extractLsb' 22 10, w.extractLsb' 17 5, w.extractLsb' 15 2)

/-- The split that entry `k` of a section holds; what the entry has no bits for stays as in the split saved there. -/
def splitAt (l : List Byte) (k : Nat) (old : Option Split) : Option Split :=
  let w (i : Nat) : Word := wordAt l (32 * k + 4 * i)
  let x := entryTail (w 2)
  if x.2.2 = 1 then
    some { mask := w 7, pc := w 6, rpc := w 5, emask := w 4, hash := (w 3).setWidth 16, fmt := x.1, link := x.2.1
           nosig := (old.map (·.nosig)).getD false, yielded := (old.map (·.yielded)).getD false, wait := old.bind (·.wait) }
  else none

/-- The divergence record that entry `k` of a section holds. -/
def recAt (l : List Byte) (k : Nat) : Option Rec :=
  let w (i : Nat) : Word := wordAt l (32 * k + 4 * i)
  let x := entryTail (w 2)
  if x.2.2 = 2 then some { mask := w 7, pc := w 6, rpc := w 5, pend := w 4, arr := w 3, fmt := x.1, link := x.2.1 } else none

/-- The table that a section of 24 entries holds. -/
def SplitTable.loaded (t : SplitTable) (l : List Byte) : SplitTable :=
  { slots := Vector.ofFn fun i => splitAt l i.val t.slots[i]
    recs := Vector.ofFn fun i => recAt l (4 + i.val)
    stack := Vector.ofFn fun i =>
      let old := match t.stack[i] with
        | some (.split s) => some s
        | some (.record _) | none => none
      match splitAt l (8 + i.val) old, recAt l (8 + i.val) with
      | some s, _ => some (.split s)
      | none, r => r.map .record }

/-! ## Frames, causes, replay queues -/

/-- A trap frame as words. -/
def Frame'.words (f : Frame') : List Word := [f.tcause, f.tpc, f.inst0, f.inst1, f.inst2, f.taddr]

/-- The trap frame in a section. -/
def frameAt (l : List Byte) (o : Nat) : Frame' :=
  ⟨wordAt l o, wordAt l (o + 4), wordAt l (o + 8), wordAt l (o + 12), wordAt l (o + 16), wordAt l (o + 20)⟩

/-- The frames of trap levels 1 and 2 (R276, R284). -/
def Wave.frames (wv : Wave) : Frame' × Frame' :=
  if wv.level = 2 then (((wv.saved.head?).map (·.frame)).getD ⟨0, 0, 0, 0, 0, 0⟩, wv.frame) else (wv.frame, ⟨0, 0, 0, 0, 0, 0⟩)

/-- A pending cause as words. -/
def PendCause.words (p : PendCause) : List Word := [p.cause.setWidth 32, BitVec.ofNat 32 p.lane, p.detail]

/-- An entry of a replay queue: words 0 to 7, then words 8 to 20 of every lane (R280). -/
def RQEntry.bytes (e : RQEntry) (seq : Nat) : List Byte :=
  wordsBytes ((List.range 8).map (fun i => (e.word seq i).v[(0 : Lane)]))
    ++ wordsBytes ((List.range 13).flatMap (fun i => (e.word seq (8 + i)).v.toList))

/-- The size of an entry of a replay queue (R294). -/
def entrySize : Nat := 1696

/-- A replay queue of eight entries. -/
def queueBytes (q : List RQEntry) : List Byte :=
  (List.range 8).flatMap (fun i => ((q[i]?).map (fun e => e.bytes i)).getD (List.replicate entrySize 0))

/-- An entry as its bytes hold it, none where they are not VALID; what they have no bits for stays as in the entry saved there. -/
def RQEntry.loaded (e : RQEntry) (l : List Byte) : Option RQEntry :=
  let w0 := wordAt l 0
  if w0.getLsbD 31 = false then none
  else some { e with
    kind := w0.extractLsb' 28 3, cause := w0.extractLsb' 16 9, remain := wordAt l 4, pc := wordAt l 8, w0 := wordAt l 12
    w1 := wordAt l 16, w2 := wordAt l 20, detail := wordAt l 24
    lw := Vector.ofFn fun i => ⟨lanesAt l (32 + 128 * i.val), (e.lw[i]).p⟩, er := lanesAt l (32 + 128 * 12) }

/-- A queue as its bytes hold it, from its entry number `k` on. -/
def loadQueue (q : List RQEntry) (l : List Byte) (k : Nat := 0) : List RQEntry :=
  (q.zipIdx).filterMap (fun x => x.1.loaded (l.drop (entrySize * (k + x.2))))

/-- The replay queues of the levels, the lowest first: the one of a level holds the unfinished work captured there, at level 0 what a
debugger stop has captured before what is still to be re-injected. -/
def Wave.queues (wv : Wave) : List (List RQEntry) :=
  if wv.saved.isEmpty then [wv.rq ++ wv.reinj] else ((wv.saved.map (·.rq)).reverse ++ [wv.rq, wv.reinj]).drop 1

/-- The queues of the levels as their bytes hold them. -/
def Wave.loadQueues (wv : Wave) (l : List Byte) : Wave :=
  let n := wv.saved.length
  let at' (k : Nat) (q : List RQEntry) : List RQEntry := loadQueue q (l.drop (8 * entrySize * k))
  { wv with
    reinj := if n = 0 then loadQueue wv.reinj l wv.rq.length else at' n wv.reinj
    rq := if n = 0 then loadQueue wv.rq l else at' (n - 1) wv.rq
    saved := (wv.saved.zipIdx).map (fun x => if x.2 + 2 ≤ n then { x.1 with rq := at' (n - 2 - x.2) x.1.rq } else x.1) }

/-! ## Wave records (R294) -/

/-- The wave's engine operations that have not started (R293). -/
def State.unstarted (s : State) (w : Nat) (wv : Wave) : Nat :=
  let mq := match (s.groupOf wv).bind (·.core) with | some k => (s.coreAt k).mq | none => []
  (mq.filter (fun e => decide (e.wave = w) && !e.started)).length
    + (s.copies.filter (fun c => decide (c.wave = w) && !c.started && !c.done)).length

/-- The engine entries of a record: their count, and 64 bytes each, which only the core reads (R294): free bytes. -/
def State.engineBytes (s : State) (w : Nat) (wv : Wave) : List Byte :=
  let n := s.unstarted w wv
  toBytes 4 n ++ (List.range (64 * n)).map (fun i => BitVec.ofNat 8 (Config.choice s.fresh (w * 2 ^ 20 + i)))

/-- The bytes of a wave's record (R294). -/
def State.waveRecord (s : State) (w : Nat) (wv : Wave) : List Byte :=
  let regs := (List.range wv.vregs).map wv.reg
  let f := wv.frames
  let qs := wv.queues
  let slice := ((s.launchOf wv).map (·.record.tarn)).getD 0
  padded (wordsBytes [wv.lwave,
      (wv.waveid.setWidth 32 <<< 12) ||| BitVec.ofNat 32 (wv.role * 2 ^ 10 + wv.level * 2 ^ 8 + wv.vregs / 8),
      wv.live, wv.dead, wv.death, wv.fctl, wv.mflags, BitVec.ofNat 32 wv.pending.length, wv.closedC, wv.closedM])
    ++ padded (regs.map VReg.mapByte)
    ++ padded (wordsBytes (regs.flatMap VReg.savedValue))
    ++ padded (regs.flatMap VReg.savedPoison)
    ++ padded (wordsBytes (wv.preds.toList ++ wv.fstat.toList))
    ++ padded (wv.xregs.toList.flatMap (fun x => toBytes 4 x.desc.toNat ++ x.idx.toList))
    ++ padded (wordsBytes wv.table.words)
    ++ padded (wordsBytes (f.1.words ++ f.2.words))
    ++ padded (wordsBytes ((List.range 4).flatMap (fun i => ((wv.pending[i]?).map (·.words)).getD [0, 0, 0])))
    ++ padded (wv.ctr.toList.flatMap (fun c => toBytes 8 c.toNat))
    ++ padded ((List.range 3).flatMap (fun i => queueBytes ((qs[i]?).getD [])))
    ++ padded (s.engineBytes w wv)
    ++ padded ((List.range (32 * slice)).map wv.tarnByte)

/-- What a wave takes from its record's bytes: all but its identity, its trap level and its allotment, which the Wellhead keeps
(log entry 26). -/
def Wave.loaded (wv : Wave) (l : List Byte) (slice : Nat) : Wave :=
  let hd := cutSection 64 l
  let map := cutSection wv.vregs hd.2
  let val := cutSection ((map.1.map valueSize).sum) map.2
  let poi := cutSection (8 * wv.vregs) val.2
  let prd := cutSection 156 poi.2
  let idx := cutSection 288 prd.2
  let spl := cutSection 768 idx.2
  let frm := cutSection 48 spl.2
  let pen := cutSection 48 frm.2
  let str := cutSection 256 pen.2
  let rqs := cutSection (24 * entrySize) str.2
  let eng := cutSection (4 + 64 * numAt rqs.2 0 4) rqs.2
  let wv := (wv.loadQueues rqs.1)
  let f1 := frameAt frm.1 0
  { wv with
    lwave := wordAt hd.1 0, live := wordAt hd.1 8, dead := wordAt hd.1 12, death := wordAt hd.1 16, fctl := wordAt hd.1 20
    mflags := wordAt hd.1 24, closedC := wordAt hd.1 32, closedM := wordAt hd.1 36
    regs := loadRegs wv.reg 0 map.1 val.1 poi.1
    preds := Vector.ofFn fun i => wordAt prd.1 (4 * i.val), fstat := lanesAt prd.1 28
    xregs := Vector.ofFn fun i => ⟨wordAt idx.1 (36 * i.val), perLane fun L => (idx.1[36 * i.val + 4 + L.val]?).getD 0⟩
    table := wv.table.loaded spl.1
    frame := if wv.level = 2 then frameAt frm.1 24 else f1
    saved := if wv.level = 2 then wv.saved.modifyHead (fun x => { x with frame := f1 }) else wv.saved
    pending := ((wv.pending.take (wordAt hd.1 28).toNat).zipIdx).map (fun x => { x.1 with
      cause := (wordAt pen.1 (12 * x.2)).setWidth 9, lane := (wordAt pen.1 (12 * x.2 + 4)).toNat % 32
      detail := wordAt pen.1 (12 * x.2 + 8) })
    ctr := perLane fun L => BitVec.ofNat 64 (numAt str.1 (8 * L.val) 8)
    tarn := (eng.2.take (32 * slice)).zipIdx.map (fun x => (x.2, x.1)) }

/-! ## Group records (R294) -/

/-- The cells of consecutive parts, each with the bytes it takes. -/
def joinParts : Nat → List (Nat × Mem) → Mem
  | _, [] => []
  | o, (n, m) :: r => m.map (fun c => (o + c.1, c.2)) ++ joinParts (o + n) r

/-- Bytes as cells. -/
def cellsOf (l : List Byte) : Mem := ((l.zipIdx).map (fun x => (x.2, x.1))).filter (fun c => c.2 != unlistedByte)

/-- The two words of a barrier (R271). -/
def Barrier.words (b : Barrier) : List Word :=
  [(b.arr.setWidth 32 <<< 16) ||| b.mem.setWidth 32, if b.phase then 1 else 0]

/-- A word of a wake-up record (R292, log entry 26): VALID, whether of the baton, the core, the barrier and the awaited phase. -/
def Wait.wakeWord (core : Nat) : Wait → Word
  | .bar n p _ => 0x80000000 ||| BitVec.ofNat 32 (core * 256 + n.toNat * 16) ||| (if p then 0 else 1)
  | .baton => 0xC0000000 ||| BitVec.ofNat 32 (core * 256)
  | .batch _ _ | .join _ _ _ _ => 0

/-- The wait that a word of a wake-up record names for a wave of a group, in place of `old`. -/
def Group.wakeOf (g : Group) (v : Word) (old : Wait) : Option Wait :=
  let n := v.extractLsb' 4 4
  if !v.getLsbD 31 then none
  else if v.getLsbD 30 then some .baton
  else some (.bar n (!v.getLsbD 0) (match old with
    | .bar m _ f => if m = n then f else g.barriers[n.toNat].flips
    | .baton | .batch _ _ | .join _ _ _ _ => g.barriers[n.toNat].flips))

/-- The place in a group's wake-up records of a split of the wave of a WAVEID. -/
def wakePlace (id : BitVec 4) (slot : Nat) : Nat := 16 * id.toNat + 4 * slot

/-- The wake-up records of a group's evicted waves (R292, R294). -/
def State.wakeRecords (s : State) (g : Group) : Mem :=
  g.waves.foldl (fun m w => match s.waves[w]? with
    | some wv =>
      if wv.life = .evicted then
        wv.reinj.foldl (fun m e => match e.wait with
          | some wt => m.writeN (wakePlace wv.waveid e.slot) 4 (wt.wakeWord (g.core.getD 0)).toNat
          | none => m) m
      else m
    | none => m) []

/-- A wave whose waits stand in wake-up records takes what these hold now: `old` are those of the save (R294). -/
def Wave.rewake (wv : Wave) (g : Group) (old now : Mem) : Wave :=
  { wv with reinj := wv.reinj.filterMap (fun e => match e.wait with
      | some wt =>
        let k := wakePlace wv.waveid e.slot
        if e.kind = 5 ∧ old.readN k 4 ≠ 0 then
          (g.wakeOf (BitVec.ofNat 32 (now.readN k 4)) wt).map (fun x => { e with wait := some x })
        else some e
      | none => some e) }

/-- The parts of a group's record: scratchpad, tile file, TC0 to TC15, accumulators, barriers, baton, wake-up records. -/
def Group.parts (g : Group) (r : GroupRecord) (n a : Nat) : List (Nat × Mem) :=
  [(16384 * n, r.scr), (131072, r.tiles), (64, cellsOf (wordsBytes g.tc.toList)), (16384 * a, r.acc),
    (128, cellsOf (wordsBytes (g.barriers.toList.flatMap Barrier.words))),
    (64, cellsOf (wordsBytes [g.baton.word 0 &&& ~~~0x200000#32])), (256, r.wake)]

/-- The size of a group's record. -/
def recordSize (p : List (Nat × Mem)) : Nat := (p.map (·.1)).sum

/-- The cells of `n` bytes from `o`, by their offset. -/
def cut (m : Mem) (o n : Nat) : Mem := (m.filter (fun c => decide (o ≤ c.1 ∧ c.1 < o + n))).map (fun c => (c.1 - o, c.2))

/-- What a group takes from its record's cells. -/
def Group.loaded (g : Group) (r : GroupRecord) (n a : Nat) (m : Mem) : Group × GroupRecord :=
  let o1 := 16384 * n
  let o2 := o1 + 131072
  let o3 := o2 + 64
  let o4 := o3 + 16384 * a
  let tail := (cut m o4 192).bytes 0 192
  let tcs := (cut m o2 64).bytes 0 64
  let b := wordAt tail 128
  ({ g with
      tc := Vector.ofFn fun i => wordAt tcs (4 * i.val)
      barriers := Vector.ofFn fun i =>
        { g.barriers[i] with
          mem := (wordAt tail (8 * i.val)).setWidth 16, arr := (wordAt tail (8 * i.val)).extractLsb' 16 16
          phase := (wordAt tail (8 * i.val + 4)).getLsbD 0 }
      baton := { g.baton with
        holder := if g.baton.transit.isNone && b.getLsbD 20 then some (b.extractLsb' 16 4) else if g.baton.transit.isNone then none else g.baton.holder
        waiting := b.setWidth 16 } },
    { r with scr := cut m 0 o1, tiles := cut m o1 131072, acc := cut m o3 (16384 * a), wake := cut m (o4 + 192) 256 })

/-! ## Save areas in memory -/

/-- Where record `n` of a domain lies in its save areas, in HBM; the place is not stated, a free value (log entry 26). -/
def Domain.recordAt (d : Domain) (n : Nat) : Nat := memKey 0 (d.save.toNat + 2 ^ 21 * n + 64 * Config.saveOffset n)

/-- `n` bytes from a key replaced by cells, which are listed by offset. -/
def State.putCells (s : State) (key n : Nat) (m : Mem) : State :=
  let z := zeroRange s.mem s.memBad key n
  { s with mem := m.foldr (fun c x => x.write (key + c.1) c.2) z.1, memBad := z.2 }

/-- The cells of `n` bytes from a key, by their offset. -/
def State.cells (s : State) (key n : Nat) : Mem := cut s.mem key n

/-- The wave's record is written to its save area. -/
def State.saveWave (s : State) (w : Nat) : State :=
  match s.waves[w]? with
  | none => s
  | some wv => match s.launchOf wv with
    | none => s
    | some l =>
      let bytes := s.waveRecord w wv
      let m := cellsOf bytes
      (s.putCells (l.domain.recordAt (2 * w)) bytes.length m).withWave w (fun wv => { wv with area := some (bytes.length, m) })

/-- A wave that comes back takes what its record holds (R294): what was saved, unless a program has written there since. -/
def State.loadWave (s : State) (w : Nat) : State :=
  match s.waves[w]? with
  | none => s
  | some wv => match s.launchOf wv, wv.area with
    | some l, some (n, m) =>
      let now := s.cells (l.domain.recordAt (2 * w)) n
      s.withWave w (fun wv => if now = m then { wv with area := none }
        else { wv.loaded (now.bytes 0 n) l.record.tarn with area := none })
    | _, _ => s

/-- The record of a saved group written to its save area; `n` and `a` are its granules. -/
def State.saveRecord (s : State) (gi n a : Nat) (r : GroupRecord) : State :=
  match s.groups[gi]? with
  | none => s
  | some g => match s.launches[g.launch]? with
    | none => s
    | some l =>
      let parts := g.parts r n a
      let m := joinParts 0 parts
      (s.putCells (l.domain.recordAt (2 * gi + 1)) (recordSize parts) m).withGroup gi (fun g => { g with
        record := some { r with area := m } })

/-- A saved group takes what its record holds. -/
def State.loadRecord (s : State) (gi : Nat) (l : Launch) : State :=
  match s.groups[gi]? with
  | none => s
  | some g => match g.record with
    | none => s
    | some r =>
      let now := s.cells (l.domain.recordAt (2 * gi + 1)) (recordSize (g.parts r l.record.scrNeed l.record.accum))
      if now = r.area then s
      else
        let x := g.loaded r l.record.scrNeed l.record.accum now
        let s := s.withGroup gi (fun _ => { x.1 with record := some x.2 })
        if x.2.wake = r.wake then s
        else g.waves.foldl (fun s w => s.withWave w (fun wv => wv.rewake x.1 r.wake x.2.wake)) s

end Sys2Proof.Machine
end

