-- ==== Sys2Proof/Machine/Schedule.lean ====
section
/-! DEFINITION. The Wellhead at work: placement of group instances, waves put on cores and taken off them, the ends of waits
(R161, R164, R165, R291 to R293, R356, R360, R363). -/

namespace Sys2Proof.Machine

/-! ## What a core holds -/

/-- Waves resident at a core, by number. -/
def State.residents (s : State) (k : Nat) : List (Nat × Wave) :=
  (List.range s.waves.length).filterMap (fun w => (s.waves[w]?).bind (fun wv =>
    if wv.life = .resident ∧ (wv.place.map (·.core)) = some k then some (w, wv) else none))

/-- Whether a core may take another partition word (R164): no wave, no group that holds it, no engine operation. -/
def State.coreFree (s : State) (k : Nat) : Bool :=
  (s.residents k).isEmpty && s.groups.all (fun g => g.core != some k) && (s.coreAt k).mq.isEmpty

/-- Granules of a region that nobody holds, ascending. -/
def Core.freeIn (c : Core) (lo n : Nat) : List Nat :=
  ((List.range n).map (· + lo)).filter (fun g => match lookupN g c.granules with
    | some x => x.owner.isNone
    | none => true)

/-- Free register granules. -/
def Core.freeReg (c : Core) : List Nat := c.freeIn 0 (partReg c.partition)
/-- Free scratchpad granules. -/
def Core.freeScr (c : Core) : List Nat := c.freeIn (partReg c.partition) (partScr c.partition)
/-- Free accumulator granules. -/
def Core.freeAcc (c : Core) : List Nat := c.freeIn (partReg c.partition + partScr c.partition) (partAcc c.partition)
/-- Free tarn blocks. -/
def Core.freeTarn (c : Core) : List Nat :=
  (List.range (8 * partTarn c.partition)).filter (fun b => !c.tarn.any (fun t => t.1 == b))

/-- Waves resident in a quadrant. -/
def State.quadLoad (s : State) (k q : Nat) : List Wave :=
  ((s.residents k).filter (fun x => decide ((x.2.place.map (·.quad)) = some q))).map (·.2)

/-- Whether a quadrant may hold waves of a launch (R394): trees and normal launches do not mix. -/
def State.quadOk (s : State) (k q : Nat) (l : Launch) : Bool :=
  (s.quadLoad k q).all (fun wv => s.det wv == l.tree.isSome)

/-- The quadrant that holds the fewest waves among those with room for `n`, the lowest of them (R161, R394). -/
def State.quadFor (s : State) (k : Nat) (l : Launch) (n : Nat) : Option Nat :=
  (List.range 4).foldl (fun b q =>
    let load := (s.quadLoad k q).length
    if s.quadOk k q l && decide (load + n ≤ 16) then
      match b with
      | some p => if load < (s.quadLoad k p).length then some q else b
      | none => some q
    else b) none

/-- Whether `n` waves of a launch find slots on a core; the waves of a tree's group share a quadrant (R161, R394). -/
def State.slotsFit (s : State) (k : Nat) (l : Launch) (g : Option Nat) (n : Nat) : Bool :=
  if l.tree.isSome then
    match (s.residents k).find? (fun x => some x.2.group == g) with
    | some x =>
      let q := (x.2.place.map (·.quad)).getD 0
      decide ((s.quadLoad k q).length + n ≤ 16)
    | none => (s.quadFor k l n).isSome
  else decide (n ≤ (((List.range 4).filter (fun q => s.quadOk k q l)).map (fun q => 16 - (s.quadLoad k q).length)).sum)

/-- Whether waves with the given allotments, and with them a whole group's footprint when `whole`, fit a core under the
launch's word (R164, R165), and no granule that they take comes back to a generation that an answer still carries (R177). -/
def State.fits (s : State) (k : Nat) (l : Launch) (g : Option Nat) (vs : List Nat) (whole : Bool) : Bool :=
  let c := s.coreAt k
  let r := l.record
  let own := decide (c.partition = r.partition)
  let c := if own then c
    else { c with partition := r.partition, granules := c.granules.map (fun x => (x.1, { x.2 with owner := none })), tarn := [] }
  (own || s.coreFree k)
    && decide ((vs.map (fun v => regNeed v l.mirrored)).sum ≤ c.freeReg.length)
    && decide (vs.length * r.tarnNeed ≤ c.freeTarn.length)
    && s.slotsFit k l g vs.length
    && (c.freeReg.take ((vs.map (fun v => regNeed v l.mirrored)).sum)
        ++ (if whole then c.freeScr.take r.scrNeed ++ c.freeAcc.take r.accum else [])).all (fun g =>
          !s.carried (k, g, ((lookupN g c.granules).map (·.gen)).getD 0 + 1))
    && (!whole || (decide (r.scrNeed ≤ c.freeScr.length) && decide (r.accum ≤ c.freeAcc.length)
          && (!l.groupC || s.groups.all (fun h => !(h.tileFile && h.core == some k)))))

/-! ## Grants (R71, R164, R177) -/

/-- Granules granted: owner, domain, and the next generation. -/
def Core.grant (c : Core) (gs : List Nat) (o : Owner) (dom : BitVec 16) (bytes : Bool) : Core :=
  { c with granules := gs.foldl (fun l g =>
      let gen := ((lookupN g l).map (·.gen)).getD 0 + 1
      insertN g { owner := some o, doms := Vector.replicate 8 (some dom), bytes := Vector.replicate 8 bytes, gen := gen } l) c.granules }

/-- Tarn blocks, numbered from the pool's start, granted in a domain (R165). -/
def Core.grantBlocks (c : Core) (bs : List Nat) (dom : BitVec 16) : Core :=
  let put (l : List (Nat × Granule)) (b : Nat) : List (Nat × Granule) :=
    let x := (lookupN (b / 8) l).getD Granule.new
    insertN (b / 8) { x with doms := x.doms.setIfInBounds (b % 8) (some dom), bytes := x.bytes.setIfInBounds (b % 8) false } l
  { c with granules := bs.foldl put c.granules }

/-- Whether the last holder of a 2 KiB block of the pool, numbered from its start, was of a domain (R71). -/
def Core.keeps (c : Core) (dom : BitVec 16) (b : Nat) : Bool :=
  ((lookupN (b / 8) c.granules).bind (fun x => (x.doms[b % 8]?).getD none)) == some dom

/-- Whether a block last held pool bytes. -/
def Core.held (c : Core) (b : Nat) : Bool := ((lookupN (b / 8) c.granules).bind (fun x => x.bytes[b % 8]?)).getD false

/-- The bytes of a block of a scratchpad or accumulator granule about to be granted (R164): kept within a domain, where a block
that last held registers or a tarn keeps free values; zero in another domain. -/
def Core.openBlock (c : Core) (dom : BitVec 16) (fresh b : Nat) : Core :=
  if c.keeps dom b then
    if c.held b then c
    else { c with pool := c.pool.store (b * 2048) ((List.range 2048).map (fun i => Config.keptByte fresh (b * 2048 + i))) }
  else
    let z := zeroRange c.pool c.poolBad (b * 2048) 2048
    { c with pool := z.1, poolBad := z.2 }

/-- The blocks of a granule. -/
def blocksOf (g : Nat) : List Nat := (List.range 8).map (· + 8 * g)

/-- The bytes of a granule about to be granted to a group (R164). -/
def Core.openGranule (c : Core) (dom : BitVec 16) (fresh g : Nat) : Core :=
  (blocksOf g).foldl (fun c b => c.openBlock dom fresh b) c

/-- The first tarn block of the pool. -/
def Core.tarnBase (c : Core) : Nat := 8 * (partReg c.partition + partScr c.partition + partAcc c.partition)

/-- The core takes a launch's partition word (R164); a core of another domain drops its object-table cache (R200). -/
def Core.adopt (c : Core) (l : Launch) : Core :=
  let c := if c.partition = l.record.partition then c
    else { c with partition := l.record.partition, granules := c.granules.map (fun x => (x.1, { x.2 with owner := none })), tarn := [] }
  if c.otDom = some l.domain.id then c else { c with ot := [], otDom := some l.domain.id }

/-- A wave takes its register granules, tarn blocks and slot on a core (R161, R165); the sources of R65 and R431 start anew. -/
def State.seat (s : State) (w k : Nat) (l : Launch) : State :=
  match s.waves[w]? with
  | none => s
  | some wv =>
    let c := s.coreAt k
    let gs := c.freeReg.take (regNeed wv.vregs l.mirrored)
    let bs := c.freeTarn.take l.record.tarnNeed
    let q := match (if l.tree.isSome then (s.residents k).find? (fun x => x.2.group == wv.group) else none) with
      | some x => (x.2.place.map (·.quad)).getD 0
      | none => (s.quadFor k l (if l.tree.isSome then l.record.groupW else 1)).getD ((s.quadFor k l 1).getD 0)
    let used := (s.quadLoad k q).map (fun x => (x.place.map (·.slot)).getD 0)
    let slot := ((List.range 16).find? (fun i => !used.contains i)).getD 0
    let s := s.withCore k (fun c =>
      let c := (c.grant gs (.wave w) l.domain.id false).grantBlocks (bs.map (· + c.tarnBase)) l.domain.id
      { c with tarn := c.tarn ++ bs.map (fun b => (b, w)) })
    let s := s.withWave w (fun wv => { wv with life := .resident, place := some ⟨k, q, slot⟩, errSrc := 0, raceSpace := 0 })
    -- what a boundary is still to answer (R395) is answered in the generations of the new grant (R177)
    s.withWave w (fun wv => { wv with flights := wv.flights.map (fun f => { f with gen := s.genOf w k f.dst.er[(0 : Lane)].toNat }) })

/-- The places in the order of a grant that keep what they held (R71). -/
def keptOf (keeps : Nat → Bool) (gs : List Nat) : List Nat := (List.range gs.length).filter (fun i => (gs[i]?).any keeps)

/-- The 2 KiB blocks of registers, of which one holds 16, and of the tarn of a wave about to be seated that its domain held last
(R71, R164). -/
def State.keptAt (s : State) (k : Nat) (l : Launch) (vregs : Nat) : List Nat × List Nat :=
  let c := s.coreAt k
  (keptOf (c.keeps l.domain.id) ((c.freeReg.take (regNeed vregs l.mirrored)).flatMap blocksOf),
    keptOf (c.keeps l.domain.id) ((c.freeTarn.take l.record.tarnNeed).map (· + c.tarnBase)))

/-! ## New groups (R72, R143, R356) -/

/-- The role of a WAVEID (R354). -/
def roleAt : List Role → Nat → Nat → Nat × Role
  | [], i, _ => (i, ⟨1, 0, 16⟩)
  | r :: rest, i, w => if w < r.waves then (i, r) else roleAt rest (i + 1) (w - r.waves)

/-- A newly started wave (R72, R143, R356). -/
def Wave.start (li gi id : Nat) (lwave : Word) (role : Nat × Role) (r : LRecord) (kept : Nat)
    (keptIn : List Nat × List Nat) : Wave :=
  let arg (v : Word) : VReg := { val := splat v, tag := .uni, full := true, poison := allClean, bad := 0, mirrorBad := 0 }
  let first : Split := { mask := fullMask, pc := r.entry, rpc := 0xFFFFFFFF, emask := fullMask, hash := 0xFFFF, fmt := 0,
                         link := 31, nosig := false, yielded := false, wait := none }
  { launch := li, group := gi, waveid := BitVec.ofNat 4 id, lwave := lwave, role := role.1, vregs := role.2.vregs
    life := .saved, place := none, regs := [(0, arg (lo32 r.arg)), (1, arg (hi32 r.arg))], kept := kept
    keptRegs := keptIn.1, keptTarn := keptIn.2
    preds := Vector.replicate 7 0, xregs := Vector.replicate 8 ⟨0x100, splat 0⟩, fctl := 1, fstat := splat 0, mflags := 0
    death := 0, live := fullMask, dead := 0, ctr := splat 0, tarn := [], tarnBad := []
    table := { SplitTable.empty with slots := SplitTable.empty.slots.set 0 (some first) }
    frame := ⟨0, 0, 0, 0, 0, 0⟩, level := 0, saved := [], rq := [], reinj := [], pending := [], flights := []
    nextFlight := 0, closedC := 0, closedM := 0, faulting := none, parked := none, stopped := none, stopAt := 0, qretired := 0
    qended := false, qwait := none, buf := [], errSrc := 0, raceSpace := 0, children := [], aborted := false, leaving := false
    entering := [], stopping := none, traps := 0, since := 0, pair := false, area := none }

/-- The group's granules and tile file on a core (R165, R181, R243, R246). -/
def State.seatGroup (s : State) (gi k : Nat) (l : Launch) : State :=
  let c := (s.coreAt k).adopt l
  let scr := c.freeScr.take l.record.scrNeed
  let acc := c.freeAcc.take l.record.accum
  let c := (scr ++ acc).foldl (fun c g => c.openGranule l.domain.id s.fresh g) c
  let c := c.grant (scr ++ acc) (.group gi) l.domain.id true
  let c := if l.groupC then
      (if c.tileDom = some l.domain.id then c else { c with tiles := [], tilesBad := [], tileDom := some l.domain.id })
    else c
  (s.withCore k (fun _ => c)).withGroup gi (fun g => { g with
    life := .placed, core := some k, placed := s.fresh, scr := scr, acc := acc, tileFile := l.groupC })

/-- A new instance starts on a core: its waves in ascending WAVEID, B0 with every wave a member (R271, R356). -/
def State.startGroup (s : State) (li gi k : Nat) : State :=
  match s.launches[li]?, s.groups[gi]? with
  | some l, some g =>
    let r := l.record
    let s := s.seatGroup gi k l
    let s := s.withGroup gi (fun g => { g with
      barriers := g.barriers.set 0 { mem := BitVec.ofNat 16 (2 ^ r.groupW - 1), arr := 0, phase := false, flips := 0 } })
    (List.range r.groupW).foldl (fun s i =>
      let role := roleAt r.roles 0 i
      let w := s.waves.length
      let lw := BitVec.ofNat 32 ((g.gl * r.stages + g.stage) * r.groupW + i)
      let s := { s with waves := s.waves ++ [Wave.start li gi i lw role r (s.fresh * 16 + i) (s.keptAt k l role.2.vregs)] }
      (s.withGroup gi (fun g => { g with waves := g.waves ++ [w] })).seat w k l) s
  | _, _ => s

/-! ## Saving and restoring (R292, R293, R363) -/

/-- Bytes of listed granules by offset in the group (R293). -/
def gather (pool : Mem) (bad gs : List Nat) : Mem × List Nat :=
  ((gs.zipIdx).flatMap (fun x => (pool.filter (fun c => c.1 / 16384 == x.1)).map (fun c => (x.2 * 16384 + c.1 % 16384, c.2))),
   (gs.zipIdx).flatMap (fun x => (bad.filter (fun w => w / 4096 == x.1)).map (fun w => x.2 * 4096 + w % 4096)))

/-- The same bytes put into granules granted anew. -/
def scatter (pool : Mem) (bad gs : List Nat) (m : Mem) (mb : List Nat) : Mem × List Nat :=
  let z := gs.foldl (fun (a : Mem × List Nat) g => zeroRange a.1 a.2 (g * 16384) 16384) (pool, bad)
  (m.foldl (fun p c => p.write ((gs[c.1 / 16384]?).getD 0 * 16384 + c.1 % 16384) c.2) z.1,
   mb.foldl (fun l w => insertSet ((gs[w / 4096]?).getD 0 * 4096 + w % 4096) l) z.2)

/-- The wave's record is saved, and written to its save area: its unfinished work is captured, to be re-injected when it returns;
its registers, tarn and slot go back to the core (R292, R293, R363). A parked wave detaches from its fault entries (R348). In a tree
the loads whose values the last boundary fixed are written first, and what the next boundary answers stays in flight (R395, R398).
-/
def State.suspend (s : State) (w : Nat) (life : WaveLife) : State :=
  match s.waves[w]? with
  | none => s
  | some wv =>
    let x := s.landed wv
    let held (f : Flight) : Bool := s.det wv && f.entry.kind != 5 && f.entry.cause == 0
    let c := { x with flights := x.flights.filter (fun f => !held f) }.capture none
    let s := s.withWave w (fun _ => { c.1.fillAll c.2 with
      reinj := c.2, table := c.1.table.clearWaits c.2, parked := none, life := life
      flights := c.1.flights ++ x.flights.filter held })
    (s.saveWave w).vacate w

/-- A group with no resident wave is saved: contents, engine entries, granules, and the wake-up records of waves that had been
evicted (R292, R293). -/
def State.saveGroup (s : State) (gi : Nat) (wake : Mem) : State :=
  match s.groups[gi]? with
  | none => s
  | some g => match g.core with
    | none => s
    | some k =>
      let c := s.coreAt k
      let scr := gather c.pool c.poolBad g.scr
      let acc := gather c.pool c.poolBad g.acc
      let rec' : GroupRecord :=
        { core := k, scr := scr.1, scrBad := scr.2, acc := acc.1, accBad := acc.2, tiles := if g.tileFile then c.tiles else []
          tilesBad := if g.tileFile then c.tilesBad else [], wake := wake, area := [] }
      let s := s.withCore k (fun c => { c.release (.group gi) with mq := c.mq.filter (fun e => e.group != gi) })
      (s.withGroup gi (fun g => { g with
        life := .saved, core := none, scr := [], acc := [], tileFile := false
        engine := c.mq.filter (fun e => e.group == gi) })).saveRecord gi g.scr.length g.acc.length rec'

/-- A saved group returns to a core with what its record holds and its engine entries (R293, R294). On a core of another instance its earlier
accesses count as released at DI (R317, R326): the pier of the core it left drains. -/
def State.restoreGroup (s : State) (gi k : Nat) (l : Launch) : State :=
  let s := s.loadRecord gi l
  match s.groups[gi]? with
  | none => s
  | some g => match g.record with
    | none => s
    | some r =>
      let same := ((s.instanceOf k).map (·.members.contains (r.core % 64))).getD false && decide (k / 64 = r.core / 64)
      let s := (if same then s else s.drainAt r.core).seatGroup gi k l
      match s.groups[gi]? with
      | none => s
      | some h =>
        let s := s.withCore k (fun c =>
          let a := scatter c.pool c.poolBad h.scr r.scr r.scrBad
          let b := scatter a.1 a.2 h.acc r.acc r.accBad
          { c with pool := b.1, poolBad := b.2, mq := c.mq ++ h.engine
                   tiles := if h.tileFile then r.tiles else c.tiles
                   tilesBad := if h.tileFile then r.tilesBad else c.tilesBad })
        s.withGroup gi (fun h => { h with record := none, engine := [] })

/-- A saved wave takes what its record holds and a place on a core; its later accesses wait for its earlier ones (R294, R317,
R326). -/
def State.reseat (s : State) (w k : Nat) (l : Launch) : State := ((s.loadWave w).seat w k l).fenceWave w

/-! ## The ends of waits -/

/-- Whether the condition of a wait holds (R252, R273, R204, R362). -/
def State.waitOver (s : State) (w : Nat) (wv : Wave) (wt : Wait) : Bool :=
  match wt with
  | .bar n p f => match s.groupOf wv with | some g => (g.bar n).phase != p || (g.bar n).flips != f | none => true
  | .baton => match s.groupOf wv with | some g => g.baton.held wv.waveid | none => true
  | .batch mtx n => decide (n = 0) || s.batchDone w mtx n
  | .join js _ _ _ => s.allComplete js

/-- A wait that holds no more: its flight goes, a JOIN writes its status, and the split goes on, its arrival checked (R211). -/
def State.endWait (s : State) (w slot : Nat) : State :=
  match s.waves[w]? with
  | none => s
  | some wv => match wv.table.split? slot with
    | none => s
    | some sp =>
      let e := (wv.flights.find? (fun f => decide (f.entry.kind = 5 ∧ f.entry.slot = slot))).map (·.entry)
      let s := match sp.wait with
        | some (.join js d er m) => s.joinEnd w js d er m
        | some (.bar _ _ _) | some .baton | some (.batch _ _) | none => s
      let s := s.withWave w (fun wv =>
        { wv.withSplit slot (fun sp => { sp with wait := none }) with
            flights := wv.flights.filter (fun f => !decide (f.entry.kind = 5 ∧ f.entry.slot = slot)) })
      match s.waves[w]? with
      | none => s
      | some wv =>
        let t := wv.table.moveTo slot sp.pc wv.gone (s.checking wv)
        (s.withWave w (fun wv => { wv with table := t.1 })).raiseMismatch w t.2 ((e.map (·.w0)).getD 0)
          ((e.map (·.w1)).getD 0) ((e.map (·.w2)).getD 0)

/-- The wait of a split's place, if it waits. -/
def Wave.waitAt (wv : Wave) (k : Nat) : Option Wait := (wv.table.split? k).bind (·.wait)

/-- Waits of a wave that are over end, in slot order. -/
def State.wakeWave (s : State) (w : Nat) : State :=
  (List.range 4).foldl (fun s k => match s.waves[w]? with
    | some wv => match wv.waitAt k with
      | some wt => if s.waitOver w wv wt then s.endWait w k else s
      | none => s
    | none => s) s

/-- The JOIN that a wave waits in, if any. -/
def Wave.joining (wv : Wave) : Option (List Nat) :=
  (List.range 4).findSome? (fun k => match wv.waitAt k with
    | some (.join js _ _ _) => some js
    | some (.bar _ _ _) | some .baton | some (.batch _ _) | none => none)

/-- A wave that waits in JOIN swaps out once its producers have finished (R222, R362, R363): it leaves the baton, once its accesses
are performed (R254); in a tree it has left it already (R397). -/
def State.swapOut (s : State) (w : Nat) : State :=
  match s.waves[w]? with
  | none => s
  | some wv =>
    if wv.flights.any (fun f => f.entry.kind != 5) || wv.faulting.isSome || wv.parked.isSome || !wv.entering.isEmpty
        || !wv.reinj.isEmpty || s.edgeOpen w then s
    else
      let s := if s.det wv then s else s.withGroup wv.group (fun g => { g with baton := g.baton.leave wv.waveid false })
      s.suspend w .joined

/-- The waits of a saved wave, in its entries. -/
def Wave.savedWaits (wv : Wave) : List Wait := wv.reinj.filterMap (fun e => if e.kind = 5 then e.wait else none)

/-- Whether a saved wave's JOIN has its children complete; a boundary has ended it already when the wave waits no more
(R396). -/
def State.joinDone (s : State) (wv : Wave) : Bool :=
  wv.savedWaits.isEmpty || wv.savedWaits.any (fun x => match x with
    | .join js _ _ _ => s.allComplete js
    | .bar _ _ _ | .baton | .batch _ _ => false)

/-! ## The choice of a core (R360) -/

/-- Instances of a launch resident on a die. -/
def State.onDie (s : State) (li die : Nat) : Nat :=
  (s.groups.filter (fun g => decide (g.launch = li) && decide ((g.core.map (· / 64)) = some die))).length

/-- The better of two cores for a launch: a matching word, then the die with most of the launch, then the lowest number. -/
def State.betterCore (s : State) (li : Nat) (word : Word) (a b : Nat) : Bool :=
  let wa := decide ((s.coreAt a).partition = word)
  let wb := decide ((s.coreAt b).partition = word)
  if wa ≠ wb then wa
  else if s.onDie li (a / 64) ≠ s.onDie li (b / 64) then decide (s.onDie li (b / 64) < s.onDie li (a / 64))
  else decide (a < b)

/-- Whether a die takes a wave of the launch (R303): waves of at most one tree, and none while a regrouping of normal mode is under
way. -/
def State.dieOk (s : State) (l : Launch) (die : Nat) : Bool :=
  match l.tree with
  | none => true
  | some t => ((s.dies[die]?).map (fun d => d.regroup.isNone)).getD true && s.waves.all (fun wv => wv.life != .resident || wv.die' != die
      || (match (s.launchOf wv).bind (·.tree) with | some u => u == t | none => true))

/-- The core that takes a group with the given waves, if one fits. -/
def State.coreFor (s : State) (li : Nat) (l : Launch) (g : Option Nat) (vs : List Nat) : Option Nat :=
  (List.range 256).foldl (fun b k =>
    if !(s.coreAt k).thermal && s.dieOk l (k / 64) && s.fits k l g vs true then
      match b with
      | some j => if s.betterCore li l.record.partition k j then some k else b
      | none => some k
    else b) none

/-- The allotments of a launch's waves, in WAVEID order. -/
def LRecord.allotments (r : LRecord) : List Nat := (List.range r.groupW).map (fun i => (roleAt r.roles 0 i).2.vregs)

/-- What the Wellhead would place next of a launch: a saved group, an instance made eligible, or the next of stage 0. -/
inductive Unplaced
  | saved (g : Nat)
  | ready (g : Nat)
  | first (gl : Nat)
  deriving DecidableEq, Repr

/-- Whether a saved group waits for placement: it was pre-empted, so that some wave of it is saved. -/
def State.preempted (s : State) (g : Group) : Bool :=
  decide (g.life = .saved) && g.waves.any (fun w => decide ((s.waves[w]?).map (·.life) = some .saved))

/-- The launch's unplaced instance of lowest LWAVE (R360). -/
def State.nextOf (s : State) (li : Nat) (l : Launch) : Option Unplaced :=
  let key (g : Group) : Nat := g.gl * l.record.stages + g.stage
  let c := (List.range s.groups.length).filterMap (fun gi => (s.groups[gi]?).bind (fun g =>
    if g.launch ≠ li then none
    else if g.life = .eligible then some (key g, Unplaced.ready gi)
    else if s.preempted g then some (key g, Unplaced.saved gi)
    else none))
  let c := c ++ (if l.nextGl < l.record.groups then [(l.nextGl * l.record.stages, Unplaced.first l.nextGl)] else [])
  (c.foldl (fun (b : Option (Nat × Unplaced)) x => match b with
    | some y => if x.1 < y.1 then some x else b
    | none => some x) none).map (·.2)

/-- The waves of a saved group that come back with it, and their allotments. -/
def State.returning (s : State) (g : Group) : List (Nat × Nat) :=
  g.waves.filterMap (fun w => (s.waves[w]?).bind (fun wv => if wv.life = .saved then some (w, wv.vregs) else none))

/-- The core for what a launch has unplaced. -/
def State.placeFor (s : State) (li : Nat) (l : Launch) (u : Unplaced) : Option Nat :=
  match u with
  | .saved gi => match s.groups[gi]? with
    | some g => s.coreFor li l (some gi) ((s.returning g).map (·.2))
    | none => none
  | .ready _ | .first _ => s.coreFor li l none l.record.allotments

/-- Launches that have something unplaced, with it. -/
def State.unplaced (s : State) : List (Nat × Launch × Unplaced) :=
  (List.range s.launches.length).filterMap (fun i => (s.launches[i]?).bind (fun l =>
    if l.completed then none else (s.nextOf i l).map (fun u => (i, l, u))))

/-- The energy that the launch's class costs (R360, R411). -/
def State.energyCost (s : State) (l : Launch) : Word := (s.power.ecost[l.record.energy]?).getD 0

/-- The launch of a queue that may place now: the first whose instance fits a core, unless it must wait for the next energy
window (R360). -/
def State.queuePick (s : State) : List (Nat × Launch × Unplaced) → Option (Nat × Unplaced × Nat)
  | [] => none
  | (i, l, u) :: rest => match s.placeFor i l u with
    | some k => if (s.energyCost l).toNat ≤ s.power.budget.toNat then some (i, u, k) else none
    | none => State.queuePick s rest

/-- The Wellhead's choice (R360): the highest level with something unplaced, its queues in round-robin order. -/
def State.choosePlacement (s : State) : Option (Nat × Unplaced × Nat) :=
  if s.power.above then none
  else
    let all := s.unplaced
    let top := all.foldl (fun m x => max m x.2.1.record.prio) 0
    let lv := all.filter (fun x => x.2.1.record.prio == top)
    (List.range 64).findSome? (fun i =>
      let q := (s.nextQueue + i) % 64
      s.queuePick (lv.filter (fun x => x.2.1.queue == q)))

/-- The placement done: a new instance starts, or a saved group comes back with its waves (R293, R356). -/
def State.placeNow (s : State) (li : Nat) (u : Unplaced) (k : Nat) : State :=
  match s.launches[li]? with
  | none => s
  | some l =>
    let s := { s with nextQueue := (l.queue + 1) % 64, power := { s.power with budget := s.power.budget - s.energyCost l } }
    match u with
    | .first gl =>
      let gi := s.groups.length
      let s := { s with groups := s.groups ++ [Group.fresh li gl 0] }
      (s.withLaunch li (fun l => { l with nextGl := gl + 1 })).startGroup li gi k
    | .ready gi => s.startGroup li gi k
    | .saved gi => match s.groups[gi]? with
      | some g => (s.returning g).foldl (fun s x => s.reseat x.1 k l) (s.restoreGroup gi k l)
      | none => s

/-- GROUP PLACEMENT: the Wellhead places the next instance when its choice is of launch `l`. -/
def execGroupPlacement (l : Nat) (s : State) : Result :=
  .next (match s.choosePlacement with
    | some (i, u, k) => if i = l then s.placeNow i u k else s
    | none => s)

/-! ## Pre-emption (R291 to R293) -/

/-- Whether a wave's work can be captured now: no atomic in flight whose result is still to come (R279). -/
def Wave.quiet (wv : Wave) : Bool :=
  wv.flights.all (fun f => f.entry.kind != 3 || f.entry.cause != 0 || f.entry.remain &&& ~~~f.known == 0)

/-- Whether a deterministic wave may be saved (R394): its quantum has ended, a parked one's has not (R393), and what is in flight
either waits for the boundary or has its value already. -/
def State.endedOk (s : State) (w : Nat) (wv : Wave) : Bool :=
  wv.qended && wv.parked.isNone && !s.remoteBusy w

/-- Whether a resident wave may be saved now (R293, R394): a trap entry or a stop under way completes first. -/
def State.waveSavable (s : State) (w : Nat) (wv : Wave) : Bool :=
  wv.faulting.isNone && wv.entering.isEmpty && wv.stopping.isNone && (if s.det wv then s.endedOk w wv else wv.quiet)

/-- Whether a resident wave may be evicted alone (R291, R394): every live split waits at a barrier or for the baton, and the
condition does not hold. -/
def State.evictable (s : State) (w : Nat) (wv : Wave) : Bool :=
  let ws := (List.range 4).filterMap (fun k => (wv.table.split? k).map (fun sp => sp.wait))
  decide (wv.life = .resident) && wv.parked.isNone && wv.stopped.isNone && wv.reinj.isEmpty && s.waveSavable w wv
    && !ws.isEmpty
    && ws.all (fun x => match x with
      | some (.bar n p f) => !s.waitOver w wv (.bar n p f)
      | some .baton => !s.waitOver w wv .baton
      | some (.batch _ _) | some (.join _ _ _ _) | none => false)

/-- Whether engine operations of a group that have started are unfinished (R293). -/
def State.engineStarted (s : State) (g : Group) : Bool :=
  (match g.core with
    | some k => (s.coreAt k).mq.any (fun e => e.started && g.waves.contains e.wave)
    | none => false)
  || s.copies.any (fun c => c.started && !c.done && g.waves.contains c.wave)

/-- Whether a deterministic group has engine operations that wait for the boundary (R395). -/
def State.engineHeld (s : State) (g : Group) : Bool :=
  ((s.launches[g.launch]?).bind (·.tree)).isSome
    && ((match g.core with | some k => (s.coreAt k).mq.any (fun e => g.waves.contains e.wave) | none => false)
        || s.copies.any (fun c => !c.done && g.waves.contains c.wave))

/-- A placed group without a resident or evicted wave, some of whose waves have swapped out under JOIN, is saved (R363): when the
last resident one swaps out or retires, once what its engines have begun is complete. A deterministic group keeps its core for
the operations that a boundary is to perform (R395). -/
def State.saveIdle (s : State) (gi : Nat) : State :=
  match s.groups[gi]? with
  | none => s
  | some g =>
    let life (p : WaveLife → Bool) : Bool := g.waves.any (fun w => ((s.waves[w]?).map (fun wv => p wv.life)).getD false)
    if g.life = .placed ∧ life (fun l => l == .joined) = true ∧ life (fun l => l == .resident || l == .evicted) = false
        ∧ s.engineStarted g = false ∧ s.engineHeld g = false then s.saveGroup gi []
    else s

/-- Whether a group may be pre-empted now (R293, R394): one whose waves have all swapped out under JOIN comes back only with them,
and keeps its core for the operations that a boundary is to perform (R363, R395). -/
def State.savable (s : State) (g : Group) : Bool :=
  decide (g.life = .placed) && !s.engineStarted g
    && (!s.engineHeld g || g.waves.any (fun w => ((s.waves[w]?).map (fun wv => wv.life == .resident || wv.life == .evicted)).getD false))
    && g.waves.all (fun w => match s.waves[w]? with
      | some wv => wv.life != .resident || s.waveSavable w wv
      | none => true)

/-! ## The order of victims (R291) -/

/-- The placed groups that may be victims: of a tree, those whose waves have all ended their quantum (R394). -/
def State.victims (s : State) : List Nat :=
  (List.range s.groups.length).filter (fun i => match s.groups[i]? with
    | some g => decide (g.life = .placed) && g.core.isSome
        && g.waves.all (fun w => match s.waves[w]? with
          | some wv => wv.life != .resident || !s.det wv || s.endedOk w wv
          | none => true)
    | none => false)

/-- The key of a victim, least first: the launch priority, then the most recently placed. -/
def State.victimKey (s : State) (i : Nat) : Nat :=
  match s.groups[i]? with
  | none => 0
  | some g => ((s.launches[g.launch]?).map (·.record.prio)).getD 0 * 2 ^ 64 + (2 ^ 64 - 1 - g.placed % 2 ^ 64)

/-- Whether a group is the next victim (R291): no wave of the package waits that could be evicted alone, and it has the least
key. -/
def State.nextVictim (s : State) (gi : Nat) (g : Group) : Bool :=
  g.core.isSome && !s.waves.zipIdx.any (fun x => s.evictable x.2 x.1)
    && s.victims.all (fun j => decide (s.victimKey gi ≤ s.victimKey j))

/-- PREEMPTION: a waiting wave is evicted, or a group is saved with its waves, in the order of R291 (log entry 26). -/
def execPreemption (t : PreTarget) (s : State) : Result :=
  .next (match t with
    | .wave w => match s.waves[w]? with
      | some wv => if s.evictable w wv then s.suspend w .evicted else s
      | none => s
    | .group gi => match s.groups[gi]? with
      | some g =>
        if s.savable g && s.nextVictim gi g then
          (g.waves.foldl (fun s w => match (s.waves[w]?).map (·.life) with
            | some .resident => s.suspend w .saved
            | some .evicted => s.withWave w (fun wv => { wv with life := .saved })
            | some .joined | some .saved | some .retired | none => s) s).saveGroup gi (s.wakeRecords g)
        else s
      | none => s)

/-- A wave seated alone on its group's core, when it fits there and the die takes it (R303). -/
def State.comeBack (s : State) (w : Nat) (wv : Wave) : State :=
  match s.launchOf wv, (s.groupOf wv).bind (·.core) with
  | some l, some k =>
    if s.dieOk l (k / 64) && s.fits k l (some wv.group) [wv.vregs] false then s.reseat w k l else s
  | _, _ => s

/-- EVICTED WAVE RETURN: the barrier has flipped, or the baton has been given to the wave (R292). -/
def execEvictedWaveReturn (w : Nat) (s : State) : Result :=
  .next (match s.waves[w]? with
    | some wv =>
      if wv.life = .evicted ∧ (wv.savedWaits.isEmpty || wv.savedWaits.any (s.waitOver w wv)) = true then s.comeBack w wv else s
    | none => s)

/-- JOIN RESUME: the wave's children have completed; it comes back to its group's core, or the saved group comes back with
every wave whose children have completed (R363). -/
def execJoinResume (w : Nat) (s : State) : Result :=
  .next (match s.waves[w]? with
    | some wv =>
      if wv.life = .joined ∧ s.joinDone wv = true then
        match s.groupOf wv, s.launchOf wv with
        | some g, some l =>
          if g.life = .placed then s.comeBack w wv
          else if g.life = .saved ∧ s.preempted g = false then
            let ws := g.waves.filter (fun x => match s.waves[x]? with
              | some y => decide (y.life = .joined) && s.joinDone y
              | none => false)
            let vs := g.waves.filterMap (fun x => (s.waves[x]?).bind (fun y =>
              if y.life = .joined then some y.vregs else none))
            (match s.coreFor wv.launch l (some wv.group) vs with
              | some k => ws.foldl (fun s x => s.reseat x k l) (s.restoreGroup wv.group k l)
              | none => s)
          else s
        | _, _ => s
      else s
    | none => s)

end Sys2Proof.Machine
end

