-- ==== Sys2Proof/Machine/Parking.lean ====
section
/-! DEFINITION. Parking on a translation fault, the answers of RESUME, TLBINV and the fault queue's registers (R339 to
R348). -/

namespace Sys2Proof.Machine

/-! ## Parking (R341, R343, R348) -/

/-- The right that an access code of R344 needs. -/
def accessNeed (a : BitVec 4) : Need :=
  if a = 0 then .read else if a = 1 then .write else if a = 2 then .atomic else .fetch

/-- A wave attaches to the entry of each distinct key among faulting lanes (R343): the entries with the lowest lane of each,
and whether some key found no entry. -/
def State.attachAll (s : State) (die : Nat) (dom : BitVec 16) (p : Poster) :
    List (Nat × DWord × Cause) → State × List (Nat × Nat × Nat × DWord × Cause) × Bool
  | [] => (s, [], false)
  | (lane, va, c) :: rest =>
    let a := s.attach die dom va c p
    let r := State.attachAll a.1 die dom p rest
    match a.2 with
    | none => (r.1, r.2.1, true)
    | some i => (r.1, (die, i, lane, va, c) :: r.2.1.filter (fun x => !(x.2.1 == i)), r.2.2)

/-- The faulting lanes of a wave attach to their entries; what it was answered before is kept. -/
def State.parkOn (s : State) (w : Nat) (f : Faulting) (lanes : List (Nat × DWord × Cause))
    (failed : List (Nat × DWord × Cause)) : State :=
  match s.waves[w]? with
  | none => s
  | some wv => match s.launchOf wv with
    | none => s
    | some l =>
      let a := s.attachAll wv.die' l.domain.id (wv.poster f.access) lanes
      let p : Parked :=
        { waits := a.2.1, failed := failed, tableFull := a.2.2
          fetch := if f.entry.isNone then some (f.pc, f.slot) else none, faulting := f }
      a.1.withWave w (fun wv => { wv with parked := some p })

/-- Whether a wave that is to park waits for its own memory unit: the faulting instruction's translated lanes are still to complete,
or atomic lanes that have been sent (R279, R349). What a boundary is to answer (R395) is not waited for: a parked wave keeps its
quantum open (R393). -/
def State.parkWaits (s : State) (wv : Wave) (f : Faulting) : Bool :=
  if s.det wv then wv.flights.any (fun x => decide (x.entry.cause = 0 ∧ x.entry.kind ≠ 3 ∧ f.flight = some x.id))
  else wv.awaits f.flight

/-- TRANSLATION FAULT: the wave whose instruction faulted parks (R341), its unfinished work captured (R279, R349). -/
def State.park (s : State) (w : Nat) : State :=
  match s.waves[w]? with
  | none => s
  | some wv => match wv.faulting with
    | none => s
    | some f =>
      if wv.life ≠ .resident ∨ wv.parked.isSome = true ∨ s.parkWaits (s.landed wv) f = true then s
      else
        let c := (s.landed wv).capture none
        let s := s.withWave w (fun _ => { c.1 with reinj := c.2, table := c.1.table.clearWaits c.2 })
        s.parkOn w f f.lanes []

/-- TRANSLATION FAULT. -/
def execTranslationFault (w : Nat) (s : State) : Result := .next (s.park w)

/-! ## Unparking (R346, R348) -/

/-- The failed lane that TCAUSE names: the lowest (R346). -/
def lowestFailed (l : List (Nat × DWord × Cause)) : Option (Nat × DWord × Cause) :=
  l.foldl (fun b x => match b with
    | none => some x
    | some y => if x.1 < y.1 then some x else b) none

/-- A wave whose entries have all been answered unparks: its entries are re-injected, or it traps (R346); a fetch is made
again, or traps at its PC (R348). A debugger stop defers this to its end. -/
def State.unpark (s : State) (w : Nat) : State :=
  match s.waves[w]? with
  | none => s
  | some wv => match wv.parked with
    | none => s
    | some p =>
      if p.waits.isEmpty && !p.tableFull && wv.stopped.isNone then
        let s := s.withWave w (fun wv => { wv with parked := none })
        match lowestFailed p.failed with
        | none => s.withWave w (fun wv => wv.fillAll wv.reinj)
        | some (lane, va, c) =>
          let f := p.faulting
          match f.entry with
          | some e => s.enterTrap w ⟨c, lane, lo32 va, e.pc, e.w0, e.w1, e.w2, f.slot, none, none, none⟩
          | none =>
            let i := s.instAt wv f.pc
            s.enterTrap w ⟨c, lane, lo32 va, f.pc, i.1, i.2.1, i.2.2, f.slot, some f.pc, none, none⟩
      else s

/-- A split that a park has left at its reconvergence PC arrives once the wave goes on (R211, R341); the instruction that completes
the merge is that of its entry. -/
def State.settleArrivals (s : State) (w : Nat) : State :=
  match s.waves[w]? with
  | none => s
  | some wv =>
    if wv.life ≠ .resident ∨ wv.faulting.isSome = true ∨ wv.parked.isSome = true ∨ wv.entering ≠ [] ∨ wv.stopped.isSome = true
        ∨ wv.stopping.isSome = true then s
    else match (wv.table.idleSlots wv.reinj).filter wv.table.standsAt with
      | [] => s
      | k :: ks =>
        let t := wv.table.arriveAt (k :: ks) wv.gone (s.checking wv)
        let i := ((wv.reinj.find? (fun e => e.slot == k)).map (fun e => (e.w0, e.w1, e.w2))).getD s.noWords
        (s.withWave w (fun wv => { wv with table := t.1 })).raiseMismatch w t.2 i.1 i.2.1 i.2.2

/-- The entry of a wave answered. -/
def Parked.answer (p : Parked) (die i : Nat) (fail : Bool) : Parked :=
  let mine (x : Nat × Nat × Nat × DWord × Cause) : Bool := x.1 == die && x.2.1 == i
  { p with
    waits := p.waits.filter (fun x => !mine x)
    failed := if fail then p.failed ++ (p.waits.filter mine).map (fun x => x.2.2) else p.failed }

/-- A wave that parked without an entry translates its faulting lanes again (R343). -/
def State.retranslate (s : State) (w : Nat) : State :=
  match s.waves[w]? with
  | none => s
  | some wv => match wv.parked, s.launchOf wv with
    | some p, some l =>
      if p.tableFull then
        let lanes := p.faulting.lanes.filterMap (fun x =>
          match (s.translate wv.die' l.domain x.2.1 (accessNeed p.faulting.access)).1 with
          | .error c => some (x.1, x.2.1, c)
          | .ok _ => none)
        (s.parkOn w p.faulting lanes p.failed).unpark w
      else s
    | _, _ => s

/-- The page of an address as a fault entry's key holds it (R343). -/
def pageKey (va : DWord) : Nat := va.toNat / 4096 % 2 ^ 36

/-- The address that a fault on a page names: of the first byte in it of the first element of `n` bytes that reaches it (R348). -/
def faultVa (l : List DWord) (n page : Nat) : DWord :=
  let last (va : DWord) : DWord := va + BitVec.ofNat 64 (n - 1)
  match l.find? (fun va => pageKey va == page || pageKey (last va) == page) with
  | some va => if pageKey va = page then va else BitVec.ofNat 64 ((last va).toNat / 4096 * 4096)
  | none => BitVec.ofNat 64 (page * 4096)

/-- A copy operation's entry answered (R348). -/
def State.answerCopy (s : State) (k die i page : Nat) (c : Cause) (fail : Bool) : State :=
  match s.copies[k]? with
  | none => s
  | some op =>
    if op.wait = some (die, i) then
      if fail then
        let va := faultVa (op.elts.map (·.2)) op.es page
        let s := (s.setCopy k (fun o => { o with elts := [], wait := none })).engineCause op.wave c (lo32 va) op.pc op.w0 op.w1 op.w2
        s.settleCopy k
      else s.setCopy k (fun o => { o with wait := none })
    else s

/-- The address that a fault of a queued matrix operation names. -/
def MatE.faultVa (e : MatE) (page : Nat) : DWord := match e.kind with
  | .acstg _ ty _ l => Sys2Proof.Machine.faultVa (l.map (·.2)) (accBytes ty) page
  | .tld _ _ | .tst _ _ | .tzero _ | .mma _ _ _ _ _ _ _ | .acz _ | .acld _ _ _ | .acst _ _ _ _ | .acrd _ _ _ _ => 0

/-- The entry on which the head of a core's matrix queue waits is answered (R348). -/
def State.answerMatrix (s : State) (core die i page : Nat) (c : Cause) (fail : Bool) : State :=
  match (s.coreAt core).mq with
  | [] => s
  | e :: _ =>
    if e.wait = some (die, i) then
      if fail then
        ((s.withHead core MatE.abandon).engineCause e.wave c (lo32 (e.faultVa page)) e.pc e.w0 e.w1 e.w2).popMatrix core
      else s.withHead core (fun e => { e with wait := none })
    else s

/-- The same for an operation that is saved with its group (R293). -/
def State.answerSaved (s : State) (gi die i page : Nat) (c : Cause) (fail : Bool) : State :=
  match s.groups[gi]? with
  | none => s
  | some g => match g.engine.find? (fun e => e.wait == some (die, i)) with
    | none => s
    | some e =>
      let upd (x : MatE) : MatE := if x.wait = some (die, i) then (if fail then x.abandon else { x with wait := none }) else x
      let s := s.withGroup gi (fun g => { g with engine := g.engine.map upd })
      if fail then s.engineCause e.wave c (lo32 (e.faultVa page)) e.pc e.w0 e.w1 e.w2 else s

/-- An ignored write to the window is counted (R345, R415). -/
def State.ignored (s : State) : State := s.count 0x0223

/-- RESUME (R346). -/
def State.answerFault (s : State) (die : Nat) (v : DWord) : State :=
  let i := (v.extractLsb' 0 10).toNat
  let act := v.extractLsb' 32 2
  match lookupN i ((s.dies[die]?).getD Die.reset).faults with
  | none => s.ignored
  | some f =>
    if v.extractLsb' 34 30 ≠ 0#30 ∨ act.toNat ≥ 2 ∨ v.extractLsb' 10 6 ≠ 0#6 ∨ f.outstanding = false
        ∨ f.gen ≠ v.extractLsb' 16 16 then s.ignored
    else
      let fail := decide (act = 1)
      let s := s.withDie die (fun d => { d with faults := insertN i { f with outstanding := false } d.faults })
      let s := (List.range s.waves.length).foldl (fun s w =>
        match (s.waves[w]?).bind (·.parked) with
        | some p =>
          if p.waits.any (fun x => x.1 == die && x.2.1 == i) then
            (s.withWave w (fun wv => { wv with parked := some (p.answer die i fail) })).unpark w
          else s
        | none => s) s
      let s := (List.range s.copies.length).foldl (fun s k => s.answerCopy k die i f.page f.cause fail) s
      let s := (s.cores.map (·.1)).foldl (fun s k => s.answerMatrix k die i f.page f.cause fail) s
      let s := (List.range s.groups.length).foldl (fun s g => s.answerSaved g die i f.page f.cause fail) s
      (List.range s.waves.length).foldl (fun s w => match s.waves[w]? with
        | some wv => if wv.parked.isSome && wv.die' == die then s.retranslate w else s
        | none => s) s

/-! ## TLBINV (R345) -/

/-- TLBINV starts, or is ignored. -/
def State.startTlbinv (s : State) (die : Nat) (v : DWord) : State :=
  if v.extractLsb' 0 11 ≠ 0#11 then s.ignored
  else
    let page := if v.getLsbD 11 then none else some (v.extractLsb' 12 36).toNat
    s.withDie die (fun d => { d with tlbBusy := true, tlbReq := d.tlbReq ++ [(v.extractLsb' 48 16, page)] })

/-- Whether a request names the page of an address. -/
def tlbNames (r : BitVec 16 × Option Nat) (dom : BitVec 16) (va : DWord) : Bool :=
  r.1 == dom && (match r.2 with | none => true | some p => va.toNat / 4096 == p)

/-- Whether a cached leaf maps a page that a request names. -/
def TlbE.named (e : TlbE) (r : BitVec 16 × Option Nat) : Bool :=
  r.1 == e.dom && (match r.2 with | none => true | some p => p * 4096 / e.size == e.page)

/-- Whether a translation of a page that a request names goes through a cached non-leaf entry. -/
def TblE.named (e : TblE) (r : BitVec 16 × Option Nat) : Bool :=
  r.1 == e.dom && (match r.2 with | none => true | some p => p * 4096 / 2 ^ (12 + 9 * e.level) == e.index)

/-- The domain of a wave. -/
def State.domOf (s : State) (w : Nat) : Option (BitVec 16) := ((s.waves[w]?).bind s.launchOf).map (·.domain.id)

/-- The wave whose access a remote request carries. -/
def State.reqWave (s : State) (r : ReqFor) : Option Nat :=
  match r with
  | .flight w _ _ | .store w _ _ _ => some w
  | .copyRead k _ | .copyWrite k => (s.copies[k]?).map (·.wave)
  | .matrix c _ => ((s.coreAt c).mq.head?).map (·.wave)
  | .entry _ _ _ | .agent _ => none

/-- Whether a request names a page that lanes of an entry reach. -/
def RQEntry.reaches (e : RQEntry) (m : Mask) (r : BitVec 16 × Option Nat) (dom : BitVec 16) : Bool :=
  (Mask.lanes m).any (fun L => tlbNames r dom (pair (e.lw[1]).v[L] (e.lw[0]).v[L]))

/-- The core and the instruction of a buffered effect that reaches a page. -/
def DetEff.access : DetEff → Option (Nat × RQEntry)
  | .store _ core e | .atomic _ _ core e | .cas _ _ core e | .maj _ _ _ core e => some (core, e)
  | .spanStore _ | .spanAtomic _ _ | .spanCas _ _ | .spawn _ _ _ => none

/-- Whether an access translated through an old entry of the die is still to be performed: a remote request, a majority access, or
a buffered effect of a deterministic wave. -/
def State.oldAccess (s : State) (die : Nat) (r : BitVec 16 × Option Nat) : Bool :=
  let named (w : Nat) (p : BitVec 16 → Bool) : Bool := ((s.domOf w).map p).getD false
  let asks (q : RemReq) : Bool := q.core / 64 == die && (match q.who with
    | .entry _ dom _ => tlbNames r dom q.va
    | .agent _ => false
    | .flight _ _ _ | .store _ _ _ _ | .copyRead _ _ | .copyWrite _ | .matrix _ _ =>
      ((s.reqWave q.who).map (fun w => named w (fun d => tlbNames r d q.va))).getD false)
  s.via.streams.any (fun st => st.2.reqs.any asks)
    || s.keys.accs.any (fun a => a.phase != .done && a.keystone == die && (match a.kind with
        | .entry _ dom _ => dom == r.1
        | .load | .store _ _ => named a.wave (a.entry.reaches a.lanes r)))
    || (List.range s.waves.length).any (fun w => match s.waves[w]? with
      | some wv => wv.buf.any (fun e => (e.access.map (fun x => x.1 / 64 == die && named w (x.2.reaches x.2.remain r))).getD false)
      | none => false)

/-- Whether a die's TLBINV can end: the accesses made through old entries have been performed. -/
def State.tlbReady (s : State) (die : Nat) : Bool :=
  let d := (s.dies[die]?).getD Die.reset
  d.tlbBusy && !d.tlbReq.any (s.oldAccess die)

/-- TLBINV_DONE on a die: no named page is cached and BUSY clears. -/
def State.endTlbinv (s : State) (die : Nat) : State :=
  if s.tlbReady die then
    s.withDie die (fun d => { d with
      tlb := d.tlb.filter (fun e => !d.tlbReq.any e.named)
      tables := d.tables.filter (fun e => !d.tlbReq.any e.named), tlbBusy := false, tlbReq := [] })
  else s

/-- TLBINV_DONE, of the first die where it is due. -/
def execTlbinvDone (s : State) : Result :=
  .next (match (List.range 4).find? s.tlbReady with
    | some d => s.endTlbinv d
    | none => s)

/-! ## The fault queue's registers (R345) -/

/-- Records that waited are written. -/
def State.pumpRecords (s : State) (die : Nat) : State :=
  s.writeRecords die ((s.dies[die]?).getD Die.reset).fqWaiting.length

end Sys2Proof.Machine
end

