-- ==== Sys2Proof/Machine/Queue.lean ====
section
/-! DEFINITION. Host queues: their state, the retirement of a command, a halt (R403, R405, R408). -/

namespace Sys2Proof.Machine

/-- Queue `q`. -/
def State.queue (s : State) (q : Nat) : HQueue := (lookupN q s.queues).getD HQueue.reset

/-- Queue `q` changed. -/
def State.withQueue (s : State) (q : Nat) (f : HQueue → HQueue) : State := { s with queues := insertN q (f (s.queue q)) s.queues }

/-- EN. -/
def HQueue.en (q : HQueue) : Bool := q.cfg.getLsbD 31

/-- Words of the ring (R403). -/
def HQueue.size (q : HQueue) : Nat := 2 ^ (q.cfg.extractLsb' 16 5).toNat

/-- DOMAIN. -/
def HQueue.dom (q : HQueue) : BitVec 16 := q.cfg.extractLsb' 0 16

/-- Whether the command processor may work for a queue (R403, R406, R408). -/
def HQueue.live (q : HQueue) : Bool := q.en && q.res && !q.halt

/-- The queue halts with an ERR code (R408): vector 65 is raised; QPROG stays at the failing command. -/
def State.haltQueue (s : State) (q : Nat) (err : Byte) : State :=
  (s.withQueue q (fun x => { x with halt := true, err := err, pending := none, got := none })).vector 65

/-- QPROG after a command that ends at ring index `i` (R405): it never decreases. -/
def HQueue.advance (q : HQueue) (i : Word) : HQueue :=
  { q with prog := if (i - q.prog).toNat < 2 ^ 31 then i else q.prog }

/-- A JUMP whose buffer has been executed retires (R407). -/
def HQueue.leaveJump (q : HQueue) : HQueue × Bool :=
  match q.jump with
  | some j =>
    if j.pos ≥ (j.len : Int) then ({ q with jump := none, rd := q.rd + 2 }.advance (q.rd + 2), j.irq) else (q, false)
  | none => (q, false)

/-- The reading goes on `n` words after the command (R407). -/
def HQueue.forward (q : HQueue) (n : Nat) : HQueue :=
  match q.jump with
  | some j => { q with jump := some { j with pos := j.pos + n } }
  | none => { q with rd := q.rd + BitVec.ofNat 32 n }

/-- A command of `n` words, with `skip` words after it passed over, retires (R405, R407). -/
def State.retireCmd (s : State) (q : Nat) (irq : Bool) (n skip : Nat) : State :=
  let old := s.queue q
  let x := { old.forward (n + skip) with pending := none, got := none }
  let x := if old.jump.isSome then x else x.advance (old.rd + BitVec.ofNat 32 n)
  let r := x.leaveJump
  let s := s.withQueue q (fun _ => r.1)
  let s := if irq then s.vector (q % 64) else s
  if r.2 then s.vector (q % 64) else s

/-- Whether a queue has a remote request outstanding. -/
def State.queueBusy (s : State) (q : Nat) : Bool :=
  s.via.streams.any (fun st => st.2.reqs.any (fun r => decide (r.who = .agent (some q))))

/-- The last answer that a command waits for has come: it retires. -/
def State.agentDone (s : State) (who : Option Nat) : State :=
  match who with
  | none => s
  | some q => match (s.queue q).pending with
    | some (n, irq) => if s.queueBusy q then s else s.retireCmd q irq n 0
    | none => s

/-- A remote access of a command was refused or lost: the queue halts with ERR 4 (log entry 13). -/
def State.agentFail (s : State) (who : Option Nat) : State :=
  match who with
  | none => s
  | some q => if (s.queue q).pending.isSome || (s.queue q).got.isSome then s.haltQueue q 4 else s

end Sys2Proof.Machine
end

