-- ==== Sys2Proof/Machine/Fabric.lean ====
section
/-! DEFINITION. The Viaduct fabric at work: frames received and sent, timers, stream states, requests of peers, REMOTE_LOST
(R416 to R425). -/

namespace Sys2Proof.Machine

/-! ## Frames (R416, R417) -/

/-- The lifetime count of discarded frames, which R415 lists under no index: LCIDX cannot name it. -/
def discardIndex : Nat := 0x10000

/-- Whether a frame is discarded on receipt (R416). -/
def State.frameBad (s : State) (f : Frame) : Bool :=
  !f.fcsOk || decide (f.op.toNat > 9) || decide (f.src.toNat ≥ 1024) || decide (f.dst.toNat ≥ 1024)
    || decide (f.addr.extractLsb' 42 22 ≠ 0#22) || decide (f.zero ≠ 0) || decide (f.dst ≠ s.via.vpid.setWidth 16)
    || (decide (f.op ≠ 8) && decide (f.gen ≠ (s.stream f.src.toNat).gen))

/-- A frame that is neither numbered nor acknowledged is sent: OP 0, 8 and 9 (R417, R423). -/
def State.sendBare (s : State) (p : Nat) (op : BitVec 8) : State :=
  if s.via.linked p then s.emit p [{ s.frame p op 0 0 0 0 [] with ack := (s.stream p).acked }] else s

/-- Frames that an acknowledgement covers leave the sender (R417); one that covers a frame ends a recovery (R422). -/
def State.takeAck (s : State) (p : Nat) (ack : Word) : State :=
  let st := s.stream p
  if st.unacked.any (fun f => f.seq == ack) then
    (s.withStream p (fun st => { st with
      unacked := (st.unacked.dropWhile (fun f => f.seq != ack)).drop 1, retries := 0
      st := if st.st = .recovery then .up else st.st })).pump p
  else s

/-- A frame received: discarded and counted (R416); its acknowledgement taken; a numbered frame taken in order only (R417);
`k` is what the frame then does. -/
def State.receive (s : State) (f : Frame) (k : State → Nat → State) : State :=
  if s.frameBad f then s.count discardIndex
  else
    let p := f.src.toNat
    let s := s.takeAck p f.ack
    if f.seq = (s.stream p).expect then
      k (s.withStream p (fun st => { st with expect := nextSeq st.expect, acked := f.seq })) p
    else s

/-- An answer to a request of package `p`. -/
def State.reply (s : State) (p : Nat) (f : Frame) (op : BitVec 8) (payload : List Byte) (bad : Bool) : State :=
  s.post p { s.frame p op f.tag 0 0 (payload.length / 4) payload with bad := bad }

/-! ## Requests of peers (R418, R421) -/

/-- Whether the export window grants a request for `n` bytes; `need` holds the bits of EXRIGHTS that it needs. -/
def State.exports (s : State) (a n : Nat) (need : Word) : Bool :=
  let v := s.via
  v.ven && decide (v.exbase.toNat ≤ a) && decide (a + n ≤ v.exbase.toNat + v.exsize.toNat)
    && decide (a + n ≤ (kindEnd s.cfg 0).getD 0) && decide (v.exrights &&& need = need)

/-- Bytes at the home, and whether they are uncorrectable or beyond an unreachable stack. -/
def State.homeRead (s : State) (a n : Nat) : List Byte × Bool :=
  if (List.range n).any (fun i => !s.keyUp (memKey 0 (a + i))) || s.seenBad none (memKey 0 a) n then
    ((List.range n).map (fun i => BitVec.ofNat 8 (Config.choice s.fresh i)), true)
  else (s.seen none (memKey 0 a) n, false)

/-- A read request performed at the home slice. -/
def State.serveRead (s : State) (f : Frame) (p : Nat) : State :=
  let a := f.addr.toNat / 4 * 4
  let n := 4 * f.len.toNat
  if s.exports a n 1 then
    let r := s.homeRead a n
    (s.noteWords (s.badWords none (memKey 0 a) n)).reply p f 4 r.1 r.2
  else s.reply p f 7 [] false

/-- The bytes that a write request stores, with their addresses (R416). -/
def writeBytes (f : Frame) : List (Nat × Byte) :=
  let mask := f.attr.extractLsb' 8 4
  if mask = 0 then f.payload.mapIdx (fun i b => (f.addr.toNat + i, b))
  else (List.range 4).filterMap (fun i =>
    if mask.getLsbD i then some (f.addr.toNat / 4 * 4 + i, f.payload.getD i 0) else none)

/-- A write request performed; it may be a plain store of a wave of its package (R189, log entry 10). -/
def State.serveWrite (s : State) (f : Frame) (p : Nat) : State :=
  let bs := writeBytes f
  if bs.all (fun b => s.exports b.1 1 2) && s.via.ven then
    let s : State := match bs with
      | [] => s
      | b :: _ =>
        if f.attr.extractLsb' 8 4 = 0#4 then s.writeHome (memKey 0 b.1) (bs.map (·.2))
        else bs.foldl (fun s b => s.writeHome (memKey 0 b.1) [b.2]) s
    let s := if f.bad then bs.foldl (fun s b => s.spoilHome (memKey 0 b.1) 1) s else s
    (s.raceLoads (bs.map (fun b => (memKey 0 b.1, 0)))).reply p f 5 [] false
  else s.reply p f 7 [] false

/-- The operation of an atomic request and its width in bytes; none where its code names none (R192, R416). -/
def atomicOf (f : Frame) : Option (RemAtom × Nat) :=
  let op := f.attr.extractLsb' 4 4
  let ty := f.attr.extractLsb' 0 4
  let num (o n : Nat) : Nat := ofBytes ((f.payload.drop o).take n)
  if op = 15 then
    let n := if ty = 7 then 8 else 4
    if ty = 1 ∨ ty = 7 then some (.cas (num 0 n) (num n n), n) else none
  else
    let w : MWidth := if f.payload.length = 8 then .w64 else .w32
    let a := atomOpOf w op ty
    let n := match a.val with
      | .int _ t => t.width / 8
      | .fp _ t => t.width / 8
    if a.faults.isEmpty && (n == 4 || n == 8) then some (.op a.val (num 0 n), n) else none

/-- An atomic request performed by the home atomic unit (R335, R421). A result that is derived from an uncorrectable word, there or in
the request, is stored with that code (R247), which the peer of a wave's own atomic does too (log entry 12). -/
def State.serveAtomic (s : State) (f : Frame) (p : Nat) : State :=
  match atomicOf f with
  | none => s.reply p f 7 [] false
  | some (a, n) =>
    let at' := f.addr.toNat
    if s.exports at' n 7 && decide (at' % n = 0) then
      let key := memKey 0 at'
      let r := s.homeRead at' n
      let s := s.noteWords (s.badWords none key n)
      let s := match rmwNew a (ofBytes r.1) with
        | some v =>
          let s := s.writeHome key (toBytes n v)
          if f.bad || r.2 then s.spoilHome key n else s
        | none => s
      s.reply p f 6 r.1 r.2
    else s.reply p f 7 [] false

/-! ## Responses (R421) -/

/-- The outstanding request that a response answers, taken off the stream. -/
def State.takeReq (s : State) (p : Nat) (tag : BitVec 16) : Option (RemReq × State) :=
  match (s.stream p).reqs.find? (fun r => r.tag == tag) with
  | none => none
  | some r => some (r, s.withStream p (fun st => { st with reqs := st.reqs.erase r }))

/-- A lane's load answered by a read response. -/
def State.answerRead (s : State) (w id : Nat) (lane : Lane) (r : RemReq) (p : Nat) (f : Frame) : State :=
  match (s.waves[w]?).bind (·.flight id) with
  | none => s
  | some fl =>
    let got := (f.payload.drop (r.pa % 4)).take r.bytes
    let key := memKey 3 (p * 2 ^ 42 + r.pa)
    let val := ofBytes (got.mapIdx (fun i b => (lookupN (key + i) fl.own).getD b))
    let raced := f.race && fl.racy.has lane && !f.bad
    let cut (v : BitVec 128) : Nat := v.toNat % 2 ^ (8 * r.bytes)
    let s := if raced then s.withWave w (fun wv => { wv with raceSpace := 2 }) else s
    let a : Answer :=
      { lanes := Mask.one lane, errSrc := 0, ok := 0
        val := fun L => BitVec.ofNat 128 (if f.bad then cut (Config.errValue s.fresh L.val)
          else if raced then cut (Config.raceValue s.fresh L.val) else val)
        poison := fun _ => if f.bad then .err else if raced then .race else .clean }
    s.answer w id a

/-- In a tree, a core becomes the last committed writer of a sector (R303). -/
def State.noteWriter (s : State) (w core key : Nat) : State :=
  match ((s.waves[w]?).bind s.launchOf).bind (·.tree) with
  | none => s
  | some t => { s with trees := s.trees.modify t (fun x => { x with writers := insertN (key / 32) core x.writers }) }

/-- A lane's atomic answered: the old value; a CAS stored where it equals what the lane expected (R194). -/
def State.answerAtomic (s : State) (w id : Nat) (lane : Lane) (r : RemReq) (p : Nat) (f : Frame) : State :=
  match (s.waves[w]?).bind (·.flight id) with
  | none => s
  | some fl =>
    let old := ofBytes (f.payload.take r.bytes)
    let lo := (fl.entry.lw[8]).v[lane].toNat
    let hi := (fl.entry.lw[9]).v[lane].toNat
    let want := if r.bytes = 8 then hi * 2 ^ 32 + lo else lo
    let a : Answer :=
      { lanes := Mask.one lane, errSrc := 0
        val := fun L => BitVec.ofNat 128 (if f.bad then (Config.errValue s.fresh L.val).toNat % 2 ^ (8 * r.bytes) else old)
        poison := fun _ => if f.bad then .err else .clean
        ok := if old = want then Mask.one lane else 0 }
    (if r.cas && decide (old = want) then s.noteWriter w r.core (memKey 3 (p * 2 ^ 42 + r.pa)) else s).answer w id a

/-- Bytes of a copy operation's remote element written to its group's scratchpad (R202). -/
def State.answerCopyRead (s : State) (k : Nat) (places : List Nat) (r : RemReq) (f : Frame) : State :=
  match s.copies[k]? with
  | none => s
  | some op => match (s.waves[op.wave]?).bind s.groupOf with
    | none => s
    | some g => match g.core with
      | none => s
      | some core =>
        let at' := places.map (fun o => (scrAddr g.scr o).getD 0)
        (s.poolScatter core at' (((f.payload.drop (r.pa % 4)).take r.bytes).map (fun b => (b, f.bad)))).settleCopy k

/-- The flags of an add-on-store's element, from the old value that the peer returns (R263); an uncorrectable one is a free value,
and is counted (R247). -/
def State.answerAdd (s : State) (core : Nat) (add : Option (AccTy × Nat)) (r : RemReq) (f : Frame) : State :=
  match add with
  | some (ty, a) =>
    let old := if f.bad then (Config.errValue s.fresh 0).toNat % 2 ^ (8 * r.bytes) else ofBytes (f.payload.take r.bytes)
    (s.keepFlags core (addElement ty old a).fl).noteBad f.bad
  | none => s

/-- The bytes of a response; uncorrectable ones are free (R190). -/
def State.given (s : State) (r : RemReq) (f : Frame) : List Byte :=
  (List.range r.bytes).map (fun i =>
    if f.bad then BitVec.ofNat 8 (Config.choice s.fresh (r.pa + i)) else f.payload.getD (r.pa % 4 + i) 0)

/-- Bytes that a command has asked for (R407). -/
def State.answerCommand (s : State) (q : Option Nat) (r : RemReq) (p : Nat) (f : Frame) : State :=
  match q with
  | none => s
  | some q =>
    let key := memKey 3 (p * 2 ^ 42 + r.pa)
    let bs := (s.given r f).mapIdx (fun i b => (key + i, b))
    s.withQueue q (fun x => { x with got := x.got.map (· ++ bs) })

/-- Whether a request of a store's group is outstanding. -/
def State.storeOpen (s : State) (w id : Nat) : Bool :=
  s.via.streams.any (fun st => st.2.reqs.any (fun r => match r.who with
    | .store v _ _ j => decide (v = w ∧ j = id)
    | .flight _ _ _ | .copyRead _ _ | .copyWrite _ | .matrix _ _ | .entry _ _ _ | .agent _ => false))

/-- The trap of a store some of whose lanes were refused, once its last lane is answered. -/
def State.settleStore (s : State) (w id stamp : Nat) : State :=
  if s.storeOpen w id then s else s.raiseRefused w (2 * id + 1) stamp

/-- A request answered as its operation asks. -/
def State.finishReq (s : State) (r : RemReq) (p : Nat) (f : Frame) : State :=
  match r.who with
  | .flight w id lane => if r.op = 1 then s.answerRead w id lane r p f else s.answerAtomic w id lane r p f
  | .store w _ _ id => s.settleStore w id r.stamp
  | .agent q => (if r.op = 1 then s.answerCommand q r p f else s).agentDone q
  | .copyRead k places => s.answerCopyRead k places r f
  | .copyWrite k => s.settleCopy k
  | .matrix core add => (s.answerAdd core add r f).popMatrix core
  | .entry core dom i => s.cacheEntry core dom i (s.given r f)

/-- The response that a request asks for: a read, a write or an atomic response. -/
def RemReq.wants (r : RemReq) : BitVec 8 := r.op + 3

/-- A response received (R421). -/
def State.response (s : State) (f : Frame) (p : Nat) : State :=
  match s.takeReq p f.tag with
  | none => s
  | some (r, s') => if r.wants = f.op then s'.finishReq r p f else s

/-! ## Causes of class 14 (R421, R424, R425) -/

/-- A copy operation abandoned, with its cause (R424). -/
def State.abandonCopy (s : State) (k : Nat) (c : Cause) (va : DWord) : State :=
  match s.copies[k]? with
  | none => s
  | some op =>
    if op.done then s
    else ((s.setCopy k (fun o => { o with elts := [], wait := none })).engineCause op.wave c (lo32 va) op.pc op.w0 op.w1 op.w2).settleCopy k

/-- The head of a matrix queue abandoned, with its cause (R424). -/
def State.abandonMatrix (s : State) (core : Nat) (c : Cause) (va : DWord) : State :=
  match (s.coreAt core).mq with
  | [] => s
  | e :: _ => ((s.withHead core MatE.abandon).engineCause e.wave c (lo32 va) e.pc e.w0 e.w1 e.w2).popMatrix core

/-- An asynchronous cause that names the instruction of an entry. -/
def RQEntry.names (e : RQEntry) (c : Cause) (lane : Lane) (va : DWord) : PendCause :=
  ⟨c, lane.val, lo32 va, some e.pc, e.w0, e.w1, e.w2⟩

/-- A request that the peer refused raises 0x1C4 (R421, delivery L): the lanes refused stay in an entry, the others complete. -/
def State.refuse (s : State) (r : RemReq) : State :=
  let c : Cause := 0x1C4
  match r.who with
  | .flight w id lane => match (s.waves[w]?).bind (·.flight id) with
    | none => s
    | some f =>
      let m := f.entry.remain &&& (if f.uni then fullMask else Mask.one lane)
      (s.withWave w (fun wv => (wv.refuseLanes (2 * id) f.entry f.dst m).setFlight id (f.without m))).settleRefused w id r.stamp
  | .store w lane e id =>
    (s.withWave w (fun wv => wv.refuseLanes (2 * id + 1) e ⟨0, splat 0, none, none⟩ (Mask.one lane))).settleStore w id r.stamp
  | .copyRead k _ | .copyWrite k => s.abandonCopy k c r.va
  | .matrix core _ => s.abandonMatrix core c r.va
  | .entry core dom i => s.failEntry core dom i c
  | .agent q => s.agentFail q

/-- An error response received. -/
def State.errorResponse (s : State) (f : Frame) (p : Nat) : State :=
  match s.takeReq p f.tag with
  | none => s
  | some (r, s) => s.refuse r

/-- The requests of one instruction or engine operation among those of a lost stream. -/
def ReqFor.group : ReqFor → Nat × Nat × Nat
  | .flight w id _ => (0, w, id)
  | .store w _ _ id => (1, w, id)
  | .copyRead k _ | .copyWrite k => (2, k, 0)
  | .matrix c _ => (3, c, 0)
  | .agent q => (4, q.getD 64, 0)
  | .entry c dom i => (5, c, dom.toNat * 2 ^ 16 + i.toNat)

/-- The lane of a request. -/
def ReqFor.lane : ReqFor → Lane
  | .flight _ _ L | .store _ L _ _ => L
  | .copyRead _ _ | .copyWrite _ | .matrix _ _ | .entry _ _ _ | .agent _ => 0

/-- The lanes of a flight that wait on the lost stream take their cause; an LDU waits in all its lanes (R424). -/
def State.blameLost (s : State) (rs : List RemReq) : State :=
  let ids := (rs.filterMap (fun r => match r.who with
    | .flight w id _ => some (w, id)
    | .store _ _ _ _ | .copyRead _ _ | .copyWrite _ | .matrix _ _ | .entry _ _ _ | .agent _ => none)).eraseDups
  ids.foldl (fun s x => s.withWave x.1 (fun wv =>
    match wv.flight x.2 with
    | none => wv
    | some f =>
      let mine := rs.filter (fun r => r.who.group == (0, x.1, x.2))
      let m := mine.foldl (fun (m : Mask) r => m ||| Mask.one r.who.lane) 0
      let low := Mask.lowest m
      let va := ((mine.find? (fun r => r.who.lane == low)).map (·.va)).getD 0
      wv.blameLanes x.2 (if f.uni then fullMask else m) (if f.entry.kind = 3 then 0x1C2 else 0x1C0) (lo32 va))) s

/-- The trap of one completion of a lost stream: the first request is the one of the lowest lane. A flight whose lanes a trap
has captured in the meantime raises nothing more: their entry holds the cause. -/
def State.raiseLost (s : State) (r : RemReq) (entry : Option RQEntry) : State :=
  match r.who with
  | .flight w _ lane => match entry with
    | none => s
    | some e =>
      let c : Cause := if e.kind = 3 then 0x1C2 else 0x1C0
      let still := ((s.waves[w]?).map (fun wv => wv.flights.any (fun f => decide (f.entry.cause = c ∧ f.entry.pc = e.pc)))).getD false
      if still then s.raiseAsync w (e.names c lane r.va) else s
  | .store w lane e _ => s.raiseAsync w (e.names 0x1C1 lane r.va)
  | .copyRead k _ | .copyWrite k => s.abandonCopy k 0x1C3 r.va
  | .matrix core _ => s.abandonMatrix core 0x1C3 r.va
  | .entry core dom i => s.failEntry core dom i 0x1C0
  | .agent q => s.agentFail q

/-- The stream to package `p` enters LOST: vector 65, and every outstanding request completes with REMOTE_LOST (R422,
R424). Frames that wait for the peer go with it. -/
def State.loseStream (s : State) (p : Nat) : State :=
  let rs := (s.stream p).reqs
  let entryOf (r : RemReq) : Option RQEntry := match r.who with
    | .flight w id _ => ((s.waves[w]?).bind (·.flight id)).map (·.entry)
    | .store _ _ _ _ | .copyRead _ _ | .copyWrite _ | .matrix _ _ | .entry _ _ _ | .agent _ => none
  let firsts : List (RemReq × Option RQEntry) := ((rs.map (fun r => r.who.group)).eraseDups).filterMap (fun g =>
    let mine := rs.filter (fun r => r.who.group == g)
    (mine.foldl (fun (b : Option RemReq) r => match b with
      | none => some r
      | some x => if r.who.lane.val < x.who.lane.val then some r else b) none).map (fun r => (r, entryOf r)))
  let s := s.withStream p (fun st => { st with st := .lost, reqs := [], held := [], unacked := [], retries := 0 })
  let s := (s.vector 65).blameLost rs
  firsts.foldl (fun s x => s.raiseLost x.1 x.2) s

/-! ## Stream states and timers (R417, R422, R423) -/

/-- A stream's sequences start anew in a generation (R423). -/
def Stream.renew (st : Stream) (gen : BitVec 16) (tgt : StreamSt) : Stream :=
  { st with gen := gen, seq := 1, expect := 1, acked := 0, unacked := [], retries := 0, st := tgt }

/-- RTO elapses (R417, R422, R423): every unacknowledged frame is sent again, or OP 8 in RESET; a frame that RETRY
retransmissions have not got acknowledged puts the stream in RECOVERY. -/
def State.rto (s : State) (p : Nat) : State :=
  let st := s.stream p
  if st.st = .reset then s.sendBare p 8
  else if st.unacked.isEmpty || st.st == .lost || !s.via.linked p then s
  else
    let tired := decide (st.retries ≥ s.via.retry.toNat) && st.st == .up
    let s := if tired then (s.withStream p (fun st => { st with st := .recovery })).vector 65 else s
    let s := s.withStream p (fun st => { st with retries := st.retries + 1 })
    s.emit p (st.unacked.map (fun f => { s.stamped f with ack := st.acked }))

/-- RECTO elapses in RECOVERY or RESET (R422, R423). -/
def State.recto (s : State) (p : Nat) : State :=
  let st := (s.stream p).st
  if st = .recovery ∨ st = .reset then s.loseStream p else s

/-- OP 8 received (R423). -/
def State.streamReset (s : State) (f : Frame) : State :=
  if s.frameBad f then s.count discardIndex
  else
    let p := f.src.toNat
    let st := (s.stream p).st
    let s := if st = .up ∨ st = .recovery then s.loseStream p else s
    let s := s.withStream p (fun st => st.renew f.gen .up)
    (s.sendBare p 9).pump p

/-- OP 9 received (R423). -/
def State.resetAck (s : State) (f : Frame) : State :=
  if s.frameBad f then s.count discardIndex
  else
    let p := f.src.toNat
    if (s.stream p).st = .reset then (s.withStream p (fun st => { st with st := .up })).pump p else s

/-- A write of PEERp (R420, R423). -/
def State.peerp (s : State) (p : Nat) (v : Word) : State :=
  let st := s.stream p
  if v.extractLsb' 0 2 = 0#2 ∧ st.st = .lost then
    (s.withStream p (fun st => st.renew (st.gen + 1) .reset)).sendBare p 8
  else s.ignored

/-- Waiting frames of every stream are sent where they can be: a route or a link has changed. -/
def State.pumpAll (s : State) : State := (s.via.streams.map (·.1)).foldl State.pump s

/-! ## The steps -/

/-- RTO_EXPIRY. -/
def execRtoExpiry (p : Nat) (s : State) : Result := .next (s.rto p)
/-- RECTO_EXPIRY. -/
def execRectoExpiry (p : Nat) (s : State) : Result := .next (s.recto p)
/-- ACK_TIMER: a standalone acknowledgement while frames have been taken (R417). -/
def execAckTimer (p : Nat) (s : State) : Result :=
  .next (if (s.stream p).acked ≠ 0 ∧ (s.stream p).st ≠ .lost then s.sendBare p 0 else s)
/-- ACK_ONLY. -/
def execAckOnly (f : Frame) (s : State) : Result :=
  .next (if f.op ≠ 0 then s else if s.frameBad f then s.count discardIndex else s.takeAck f.src.toNat f.ack)
/-- REMOTE_READ. -/
def execRemoteRead (f : Frame) (s : State) : Result :=
  .next (if f.op = 1 then s.receive f (fun s p => s.serveRead f p) else s)
/-- REMOTE_WRITE. -/
def execRemoteWrite (f : Frame) (s : State) : Result :=
  .next (if f.op = 2 then s.receive f (fun s p => s.serveWrite f p) else s)
/-- REMOTE_ATOMIC. -/
def execRemoteAtomic (f : Frame) (s : State) : Result :=
  .next (if f.op = 3 then s.receive f (fun s p => s.serveAtomic f p) else s)
/-- READ_RESPONSE. -/
def execReadResponse (f : Frame) (s : State) : Result :=
  .next (if f.op = 4 then s.receive f (fun s p => s.response f p) else s)
/-- WRITE_RESPONSE. -/
def execWriteResponse (f : Frame) (s : State) : Result :=
  .next (if f.op = 5 then s.receive f (fun s p => s.response f p) else s)
/-- ATOMIC_RESPONSE. -/
def execAtomicResponse (f : Frame) (s : State) : Result :=
  .next (if f.op = 6 then s.receive f (fun s p => s.response f p) else s)
/-- ERROR_RESPONSE. -/
def execErrorResponse (f : Frame) (s : State) : Result :=
  .next (if f.op = 7 then s.receive f (fun s p => s.errorResponse f p) else s)
/-- STREAM_RESET. -/
def execStreamReset (f : Frame) (s : State) : Result := .next (if f.op = 8 then s.streamReset f else s)
/-- RESET_ACKNOWLEDGE. -/
def execResetAcknowledge (f : Frame) (s : State) : Result := .next (if f.op = 9 then s.resetAck f else s)
/-- DISCARDED_FRAME (R416). -/
def execDiscardedFrame (f : Frame) (s : State) : Result := .next (if s.frameBad f then s.count discardIndex else s)
/-- PORT_LINK_CHANGE. -/
def execPortLinkChange (i : Nat) (up : Bool) (s : State) : Result :=
  let b : BitVec 8 := 1#8 <<< i
  .next { s with via := { s.via with links := if up then s.via.links ||| b else s.via.links &&& ~~~b } }.pumpAll

end Sys2Proof.Machine
end

