-- ==== Sys2Proof/Machine/Regroup.lean ====
section
/-! DEFINITION. Regrouping of a die's spans (R296 to R303). -/

namespace Sys2Proof.Machine

/-- The epoch at which a die forms no new instance (R298). -/
def epochLimit : Nat := 0xFFFFFFFFFFC0

/-- Whether a wave of a deterministic launch is resident on a die (R303). -/
def State.dieDet (s : State) (die : Nat) : Bool :=
  s.waves.any (fun wv => wv.life == .resident && wv.die' == die && s.det wv)

/-- Members in ascending COREID. -/
def ascending (l : List Nat) : List Nat := l.foldl (fun a c => insertSet c a) []

/-- Whether new instances keep the invariants of R300: legal counts of enabled cores, whole instances retired, none of them
frozen, no core that has already changed instance in the interval. -/
def State.planOk (s : State) (die : Nat) (plan : List (List Nat)) : Bool :=
  let d := (s.dies[die]?).getD Die.reset
  let all := plan.flatten
  plan.all (fun g => [1, 2, 4, 8, 16].contains g.length) && decide (all.Nodup)
    && all.all (fun c => decide (c < 64) && !d.moved.contains c && d.spans.any (fun sp => sp.members.contains c))
    && d.spans.all (fun sp =>
      !sp.members.any all.contains || (sp.members.all all.contains && decide (sp.freeze = 0)))

/-- The cores that a regrouping pauses: the members of the instances that it retires (R301). -/
def affectedBy (plan : List (List Nat)) : List Nat := ascending plan.flatten

/-- Every sketch of a die halved (R299). -/
def State.halve (s : State) (die : Nat) : State :=
  { s with cores := s.cores.map (fun k =>
      if k.1 / 64 = die then (k.1, { k.2 with sketch := k.2.sketch.map (fun e => (e.1, BitVec.ofNat 16 (e.2.toNat / 2))) }) else k) }

/-- New instances with the next epochs, in ascending slot order (R296, R301). -/
def newSpans (epoch : Nat) (plan : List (List Nat)) : List Span :=
  let bySlot := (plan.map ascending).foldl (fun (l : List (Nat × List Nat)) g => insertN (g.headD 0) g l) []
  bySlot.mapIdx (fun i x => Span.fresh x.1 x.2 (BitVec.ofNat 48 (epoch + i)))

/-- Spans in slot order. -/
def bySlot (l : List Span) : List Span := (l.foldl (fun (a : List (Nat × Span)) sp => insertN sp.slot sp a) []).map (·.2)

/-- The fence of every wave resident on listed cores of a die (R301, R317). -/
def State.fenceCores (s : State) (die : Nat) (cs : List Nat) : State :=
  (List.range s.waves.length).foldl (fun s w => match (s.waves[w]?).bind (·.place) with
    | some p => if p.core / 64 = die ∧ cs.contains (p.core % 64) = true then s.fenceWave w else s
    | none => s) s

/-- The L1s of listed cores of a die invalidated (R301). -/
def State.emptyL1s (s : State) (die : Nat) (cs : List Nat) : State :=
  { s with cores := s.cores.map (fun k =>
      if k.1 / 64 = die ∧ cs.contains (k.1 % 64) = true then (k.1, { k.2 with l1 := [] }) else k) }

/-- Steps 2 to 5 of R301: the piers of the retiring instances drain and the L1s of their cores are invalidated, the new instances
take their epochs, and the waves of their cores go on after a fence. A counter that reaches its limit is recorded (R298). -/
def State.installPlan (s : State) (die : Nat) (plan : List (List Nat)) : State :=
  let all := plan.flatten
  let old := (((s.dies[die]?).getD Die.reset).spans).filter (fun sp => sp.members.any all.contains)
  let s := old.foldl (fun s sp => s.drainAt (die * 64 + sp.slot)) s
  let s := (s.emptyL1s die all).withDie die (fun d => { d with
    spans := bySlot (d.spans.filter (fun sp => !sp.members.any all.contains) ++ newSpans d.epoch plan)
    epoch := d.epoch + plan.length })
  let s := s.fenceCores die all
  if ((s.dies[die]?).getD Die.reset).epoch = epochLimit ∧ plan ≠ [] then s.count 0x0225 else s

/-- Whether the epochs of new instances stay below the limit (R298). -/
def State.epochsLeft (s : State) (die : Nat) (plan : List (List Nat)) : Bool :=
  decide (((s.dies[die]?).getD Die.reset).epoch + plan.length ≤ epochLimit)

/-- REGROUP_INTERVAL_END (R298, R300, R301): the planner reads and halves the sketches and takes the grouping `plan`, whose
choice is not specified; a grouping that breaks an invariant is not formed, and none while the last is still to be installed.
While the tree of a deterministic launch is on the die it does not regroup here (R303). -/
def State.intervalEnd (s : State) (die : Nat) (plan : List (List Nat)) : State :=
  let d := (s.dies[die]?).getD Die.reset
  let s' := (s.withDie die (fun d => { d with
    interval := d.newInterval.getD d.interval, newInterval := none, moved := [] }))
  if s.dieDet die then s'
  else
    let s' := s'.halve die
    if d.regroup.isSome || plan.isEmpty || !s.planOk die plan then s'
    else if !s.epochsLeft die plan then s'.count 0x0225
    else s'.withDie die (fun d => { d with regroup := some ⟨plan, affectedBy plan⟩ })

/-- REGROUP_INSTALL on a die (R301). -/
def State.install (s : State) (die : Nat) : State :=
  match ((s.dies[die]?).getD Die.reset).regroup with
  | none => s
  | some r => (s.installPlan die r.plan).withDie die (fun d => { d with regroup := none })

/-- The dies with a regrouping to install. -/
def State.installDue (s : State) : Option Nat :=
  (List.range 4).find? (fun d => ((s.dies[d]?).getD Die.reset).regroup.isSome)

/-- EPOCH_COUNTER_RESET (R298): only when no wave, saved group or parked wave belongs to the die. -/
def State.epochReset (s : State) (die : Nat) : State :=
  let busy := s.groups.any (fun g => decide (g.life = .saved) || decide (g.life = .placed ∧ (g.core.map (· / 64)) = some die))
  if busy ∨ ((s.dies[die]?).getD Die.reset).regroup.isSome = true then s
  else
    let s := (((s.dies[die]?).getD Die.reset).spans).foldl (fun s sp => s.drainAt (die * 64 + sp.slot)) s
    s.withDie die (fun d => { d with
      spans := (List.range 64).map (fun c => Span.fresh c [c] (BitVec.ofNat 48 (c + 1))), epoch := 65, freezes := [] })

/-! ## The algorithm of deterministic trees (R303) -/

/-- w(a, b) between two cores, over the accesses of the last 16 quanta. -/
def Tree.weight (t : Tree) (a b : Nat) : Nat :=
  (t.weights.filter (fun x => decide (x.2 = (a, b) ∨ x.2 = (b, a)))).length

/-- W(X, Y): the sum over members of two instances of a die. -/
def Tree.between (t : Tree) (die : Nat) (x y : List Nat) : Nat :=
  (x.flatMap (fun a => y.map (fun b => t.weight (die * 64 + a) (die * 64 + b)))).sum

/-- The sum over the member pairs of one instance. -/
def Tree.within (t : Tree) (die : Nat) (x : List Nat) : Nat :=
  (x.flatMap (fun a => (x.filter (fun b => decide (a < b))).map (fun b => t.weight (die * 64 + a) (die * 64 + b)))).sum

/-- The better of two candidate pairs: larger W, then lower least slot, then lower greatest slot. -/
def betterPair (a b : Nat × List Nat × List Nat) : Bool :=
  let lo (x : Nat × List Nat × List Nat) : Nat := min (x.2.1.headD 0) (x.2.2.headD 0)
  let hi (x : Nat × List Nat × List Nat) : Nat := max (x.2.1.headD 0) (x.2.2.headD 0)
  if a.1 ≠ b.1 then decide (b.1 < a.1)
  else if lo a ≠ lo b then decide (lo a < lo b)
  else decide (hi a < hi b)

/-- The merges of RegroupDet among instances that have not moved. -/
def Tree.merges (t : Tree) (die : Nat) : Nat → List (List Nat) → List (List Nat)
  | 0, _ => []
  | n + 1, free =>
    let pairs := free.flatMap (fun x => (free.filter (fun y => decide (x.headD 0 < y.headD 0))).filterMap (fun y =>
      let w := t.between die x y
      if x.length = y.length ∧ 2 * x.length ≤ 16 ∧ 0 < w then some (w, x, y) else none))
    match pairs.foldl (fun (b : Option (Nat × List Nat × List Nat)) x => match b with
      | none => some x
      | some y => if betterPair x y then some x else b) none with
    | none => []
    | some (_, x, y) =>
      ascending (x ++ y) :: Tree.merges t die n (free.filter (fun z => z != x && z != y))

/-- RegroupDet: the new instances of a die (R303). -/
def Tree.plan (t : Tree) (d : Die) (die : Nat) : List (List Nat) :=
  let free := (d.spans.filter (fun sp => sp.freeze == 0)).map (·.members)
  let loose := free.filter (fun x => decide (1 < x.length ∧ t.within die x = 0))
  (loose.flatMap (fun x => x.map (fun c => [c]))) ++ t.merges die 64 (free.filter (fun x => !loose.contains x))

/-- RegroupDet run on a die at a boundary. -/
def State.regroupDet (s : State) (t : Tree) (die : Nat) : State :=
  let d := (s.dies[die]?).getD Die.reset
  let plan := t.plan d die
  let s := s.halve die
  if plan.isEmpty || d.regroup.isSome then s
  else if !s.epochsLeft die plan then s.count 0x0225
  else (s.installPlan die plan).withDie die (fun d => { d with moved := ascending (d.moved ++ plan.flatten) })

/-! ## The steps -/

/-- REGROUP_INTERVAL_END. -/
def execRegroupIntervalEnd (die : Nat) (plan : List (List Nat)) (s : State) : Result := .next (s.intervalEnd die plan)

/-- REGROUP_INSTALL, on the first die where it is due. -/
def execRegroupInstall (s : State) : Result :=
  .next (match s.installDue with
    | some d => s.install d
    | none => s)

/-- EPOCH_COUNTER_RESET. -/
def execEpochCounterReset (die : Nat) (s : State) : Result := .next (s.epochReset die)

end Sys2Proof.Machine
end

