-- ==== Sys2Proof/Machine/Determinism.lean ====
section
/-! DEFINITION. Deterministic trees: quanta, boundaries, the commit of buffered effects, the ends of waits (R390 to R397), and
the progress watchdog (R434). -/

namespace Sys2Proof.Machine

/-! ## Trees -/

/-- Tree `t` changed. -/
def State.withTree (s : State) (t : Nat) (f : Tree → Tree) : State := { s with trees := s.trees.modify t f }

/-- The tree and the ordinal of a wave. -/
def State.treeOf (s : State) (wv : Wave) : Option (Nat × Nat) :=
  (s.launchOf wv).bind (fun l => l.tree.map (fun t => (t, l.ordinal)))

/-- The waves of a tree in ascending commit key (R390). -/
def State.treeWaves (s : State) (t : Nat) : List Nat :=
  ((List.range s.waves.length).foldl (fun (a : List (Nat × Nat)) w =>
    match (s.waves[w]?).bind (fun wv => (s.treeOf wv).map (fun x => (wv, x))) with
    | some (wv, u, ord) => if u = t then insertN (ord * 2 ^ 32 + wv.lwave.toNat) w a else a
    | none => a) []).map (·.2)

/-- The launches of a tree. -/
def State.treeLaunches (s : State) (t : Nat) : List Nat :=
  (List.range s.launches.length).filter (fun l => decide ((s.launches[l]?).bind (·.tree) = some t))

/-- Whether a wave of a tree has ended its quantum (R393, R394): one that is to park, is parked or has entries that it can
re-inject on its core keeps it open, and the loads of the quantum have been answered, since they return what the last boundary
left (R395). A trap or a stop that awaits what the boundary answers (R276, R289) does not. -/
def State.ended (s : State) (w : Nat) (wv : Wave) : Bool :=
  wv.life == .retired || (wv.qended && wv.faulting.isNone && wv.parked.isNone
    && (wv.life != .resident || wv.reinj.isEmpty || !wv.entering.isEmpty || wv.stopping.isSome) && !s.remoteBusy w)

/-- Whether every logically started wave of a tree has ended its quantum (R394): instances still to be placed have not. -/
def State.allEnded (s : State) (t : Nat) : Bool :=
  (s.treeLaunches t).all (fun i => match s.launches[i]? with
      | some l => (l.completed || l.nextGl == l.record.groups)
        && s.groups.all (fun g => g.launch != i || g.life != .eligible)
      | none => true)
    && (s.treeWaves t).all (fun w => match s.waves[w]? with
      | some wv => s.ended w wv
      | none => true)

/-! ## Step 1: buffered effects (R395) -/

/-- The address and the place that a lane of an entry names. -/
def RQEntry.va (e : RQEntry) (L : Lane) : DWord := pair (e.lw[1]).v[L] (e.lw[0]).v[L]

/-- The remote place of a key of KIND 3. -/
def remotePhys (key : Nat) : Phys := ⟨3, 0, key % 2 ^ 52⟩

/-- Whether a key lies in a remote package whose stream is lost (R424). -/
def State.keyLost (s : State) (key : Nat) : Bool :=
  keyKind key == 3 && (s.stream (remoteOf (remotePhys key)).1).st == .lost

/-- The core of a sector's last committed writer (R303). -/
def Tree.writer (t : Tree) (key : Nat) : Option Nat := lookupN (key / 32) t.writers

/-- One committed access of a core, counted for RegroupDet (R303); one that stores makes the core the sector's last writer. -/
def State.countAccess (s : State) (t core key : Nat) (stores : Bool) : State :=
  s.withTree t (fun x => { x with
    weights := match x.writer key with
      | some b => if b = core then x.weights else x.weights ++ [(x.boundary, core, b)]
      | none => x.weights
    writers := if stores then insertN (key / 32) core x.writers else x.writers })

/-- The key of a majority cell among the sectors that are counted: each set has its own. -/
def cellKey (setNo : BitVec 4) (pa : Nat) : Nat := setNo.toNat * 2 ^ 60 + memKey 4 pa

/-- A list in pieces of `n`. -/
def chunks {α : Type} (n : Nat) : Nat → List α → List (List α)
  | 0, _ => []
  | _ + 1, [] => []
  | k + 1, l => l.take n :: chunks n k (l.drop n)

/-- The cause that a lane of a buffered store or reduction meets at a lost stream (R424). -/
def State.lostStore (s : State) (w : Nat) (e : RQEntry) (L : Lane) : State := s.raiseAsync w (e.names 0x1C1 L (e.va L))

/-- A buffered store applied, lane by lane (R185). -/
def State.commitStore (s : State) (t w id : Nat) (bytes : List (Nat × Byte)) (core : Nat) (e : RQEntry) : State :=
  let lanes := Mask.lanes e.remain
  let per := lanes.zip (chunks (bytes.length / lanes.length) lanes.length bytes)
  let lost := per.find? (fun x => (x.2.head?.map (fun b => s.keyLost b.1)).getD false)
  let s := per.foldl (fun s x => match x.2 with
    | [] => s
    | (key, _) :: _ =>
      let bs := x.2.map (·.2)
      let s := s.countAccess t core key true
      if keyKind key = 3 then
        if s.keyLost key then s
        else s.askWrite (remotePhys key) bs (.store w x.1 { e with remain := Mask.one x.1 } id) (e.va x.1) (core := some core)
      else s.storeAs core (((s.waves[w]?).map (·.launch)).getD 0) false (some (w + 1)) key bs) s
  match lost with
  | some x => s.lostStore w e x.1
  | none => s

/-- One lane of a buffered read-modify-write applied: at the home, or sent to the peer. -/
def State.commitRmw (s : State) (t w id : Nat) (flight : Option Nat) (core : Nat) (e : RQEntry) (lane key n : Nat) (a : RemAtom) :
    State :=
  let L : Lane := Fin.ofNat 32 lane
  if keyKind key = 3 then
    (s.countAccess t core key (!a.isCas)).askAtomic (remotePhys key) n a
      (match flight with | some f => .flight w f L | none => .store w L { e with remain := Mask.one L } id) (e.va L)
      (core := some core)
  else
    let x := s.atomicAs core key n lane (rmwNew a)
    let old := x.2.val.toNat % 2 ^ (8 * n)
    let s := x.1.countAccess t core key (rmwNew a old).isSome
    match flight with
    | none => s
    | some f => s.answer w f
        { lanes := Mask.one L, val := fun _ => BitVec.ofNat 128 old, poison := fun _ => x.2.poison, errSrc := x.2.src
          ok := if (rmwNew a old).isSome then Mask.one L else 0 }

/-- Lanes of a buffered read-modify-write meet a lost stream: one cause names them all (R424). -/
def State.lostRmw (s : State) (w : Nat) (flight : Option Nat) (e : RQEntry) (m : Mask) : State :=
  let L := Mask.lowest m
  if m = 0 then s
  else match flight with
    | some f => (s.withWave w (fun wv => wv.blameLanes f m 0x1C2 (lo32 (e.va L)))).raiseAsync w (e.names 0x1C2 L (e.va L))
    | none => s.lostStore w e L

/-- A buffered read-modify-write applied, lane by lane: lane, key, bytes and what is done of each. -/
def State.commitRmws (s : State) (t w id : Nat) (flight : Option Nat) (core : Nat) (e : RQEntry)
    (l : List (Nat × Nat × Nat × RemAtom)) : State :=
  let lost := l.filter (fun x => s.keyLost x.2.1)
  let s := (l.filter (fun x => !s.keyLost x.2.1)).foldl (fun s x => s.commitRmw t w id flight core e x.1 x.2.1 x.2.2.1 x.2.2.2) s
  s.lostRmw w flight e (lost.foldl (fun m x => m ||| Mask.one (Fin.ofNat 32 x.1)) 0)

/-- One lane of a buffered span-storage read-modify-write applied. -/
def State.commitPool (s : State) (w : Nat) (flight : Option Nat) (lane core at' n : Nat) (a : RemAtom) : State :=
  let L : Lane := Fin.ofNat 32 lane
  let o := s.poolRead core at' n lane
  let old := o.val.toNat % 2 ^ (8 * n)
  let s := match rmwNew a old with
    | some v => s.poolWrite core at' (toBytes n v)
    | none => s
  match flight with
  | none => s
  | some f => s.answer w f
      { lanes := Mask.one L, val := fun _ => BitVec.ofNat 128 old, poison := fun _ => o.poison, errSrc := o.src
        ok := if (rmwNew a old).isSome then Mask.one L else 0 }

/-- Runs of neighbouring pool bytes. -/
def poolRuns (l : List (Nat × Nat × Byte)) : List (Nat × Nat × List Byte) :=
  l.foldl (fun (a : List (Nat × Nat × List Byte)) b => match a.reverse with
    | (c, p, bs) :: rest =>
      if c = b.1 ∧ p + bs.length = b.2.1 then rest.reverse ++ [(c, p, bs ++ [b.2.2])] else a ++ [(b.1, b.2.1, [b.2.2])]
    | [] => [(b.1, b.2.1, [b.2.2])]) []

/-- A buffered effect of wave `w` of tree `t` applied; a majority store opens an access that step 1 waits for. -/
def State.commitOne (s : State) (t w id : Nat) (e : DetEff) : State :=
  match e with
  | .store bytes core en => s.commitStore t w id bytes core en
  | .atomic f lanes core en =>
    s.commitRmws t w id f core en (lanes.map (fun x => (x.1, x.2.1, x.2.2.1, .op x.2.2.2.1 x.2.2.2.2.toNat)))
  | .cas f lanes core en =>
    s.commitRmws t w id (some f) core en (lanes.map (fun x => (x.1, x.2.1, x.2.2.1, .cas x.2.2.2.1.toNat x.2.2.2.2.toNat)))
  | .maj setNo pa data core en =>
    let k := s.keys.accs.length
    ((s.countAccess t core (cellKey setNo pa) true).askStore w core ⟨4, setNo, pa⟩ data en false).withTree t (fun x => { x with acc := some k })
  | .spanStore bytes => (poolRuns bytes).foldl (fun s r => s.poolWrite r.1 r.2.1 r.2.2) s
  | .spanAtomic f lanes => lanes.foldl (fun s x =>
      s.commitPool w f x.1 x.2.1 x.2.2.1 x.2.2.2.1 (.op x.2.2.2.2.1 x.2.2.2.2.2.toNat)) s
  | .spanCas f lanes => lanes.foldl (fun s x =>
      s.commitPool w (some f) x.1 x.2.1 x.2.2.1 x.2.2.2.1 (.cas x.2.2.2.2.1.toNat x.2.2.2.2.2.toNat)) s
  | .spawn _ _ _ => s

/-- Whether an effect is a child, which step 3 accepts. -/
def DetEff.isSpawn : DetEff → Bool
  | .spawn _ _ _ => true
  | .store _ _ _ | .atomic _ _ _ _ | .cas _ _ _ _ | .maj _ _ _ _ _ | .spanStore _ | .spanAtomic _ _ | .spanCas _ _ => false

/-- The next effect of step 1: the wave of least key that has one, its first. -/
def State.nextEffect (s : State) (t : Nat) : Option (Nat × Nat × DetEff) :=
  (s.treeWaves t).findSome? (fun w => (s.waves[w]?).bind (fun wv =>
    let i := wv.buf.findIdx (fun e => !e.isSpawn)
    (wv.buf[i]?).map (fun e => (w, i, e))))

/-- The majority store that a tree waits for, once it has completed. -/
def State.majReady (s : State) (t : Tree) : Bool :=
  match t.acc with
  | none => true
  | some k => ((s.keys.accs[k]?).map (fun a => a.phase == .done)).getD true

/-- Whether a compare and swap of a wave of the tree is under way in another package: its answer says whether the wave's core is the
sector's last writer (R303). -/
def State.swapOpen (s : State) (t : Nat) : Bool :=
  let ws := s.treeWaves t
  s.via.streams.any (fun st => st.2.reqs.any (fun r => r.cas && (r.who.wave.map ws.contains).getD false))

/-- Step 1 as far as it can go: it holds while a majority store or a remote compare and swap is under way. -/
def State.commitAll (s : State) (t : Nat) : Nat → State
  | 0 => s
  | n + 1 =>
    match s.trees[t]? with
    | none => s
    | some x =>
      if !s.majReady x || s.swapOpen t then s
      else match s.nextEffect t with
        | none => s.withTree t (fun x => { x with phase := 2, acc := none })
        | some (w, i, e) =>
          let s := s.withWave w (fun wv => { wv with buf := wv.buf.eraseIdx i })
          let s := s.withTree t (fun x => { x with acc := none })
          State.commitAll (s.commitOne t w (s.fresh * 2 ^ 20 + n + 1) e) t n

/-- The effects that a tree's waves have buffered. -/
def State.buffered (s : State) (t : Nat) : Nat :=
  ((s.treeWaves t).map (fun w => ((s.waves[w]?).map (fun wv => wv.buf.length)).getD 0)).sum

/-! ## Step 2: engine operations (R395) -/

/-- An engine operation that waits for the boundary: a copy operation, one in a core's matrix queue with the step that issued it,
or one that is saved with its group. -/
inductive EngOp
  | copy (k : Nat)
  | matrix (core order : Nat)
  | saved (g : Nat)
  deriving DecidableEq, Repr

/-- The unfinished engine operations of a tree's wave with the step that issued them, in issue order. -/
def State.waveOps (s : State) (w : Nat) : List (Nat × EngOp) :=
  let cs := (List.range s.copies.length).filterMap (fun k => (s.copies[k]?).bind (fun c =>
    if c.wave = w ∧ c.done = false then some (c.order, EngOp.copy k) else none))
  let ms := s.cores.flatMap (fun k => k.2.mq.filterMap (fun e =>
    if e.wave = w then some (e.order, EngOp.matrix k.1 e.order) else none))
  let gs := (List.range s.groups.length).flatMap (fun g => (((s.groups[g]?).map (·.engine)).getD []).filterMap (fun e =>
    if e.wave = w then some (e.order, EngOp.saved g) else none))
  (cs ++ ms ++ gs).foldl (fun (l : List (Nat × EngOp)) x => insertN x.1 x.2 l) []

/-- What has to be performed before an operation of wave `w`: of a queued one, the first of its group in the queue, which may be of
another wave (R250, R265). -/
def State.firstOf (s : State) (w : Nat) : EngOp → Nat × EngOp
  | .copy k => (w, .copy k)
  | .saved g => (w, .saved g)
  | .matrix core order =>
    let mine := ((s.waves[w]?).map (·.group)).getD 0
    match (s.coreAt core).mq.find? (fun e => e.group == mine) with
    | some e => (e.wave, .matrix core e.order)
    | none => (w, .matrix core order)

/-- The next operation of step 2, with its wave: the earliest of the wave of least key, or what the queue has before it. -/
def State.nextOp (s : State) (t : Nat) : Option (Nat × EngOp) :=
  (s.treeWaves t).findSome? (fun w => ((s.waveOps w).head?).map (fun x => s.firstOf w x.2))

/-- The engine operations left to a tree. -/
def State.opsLeft (s : State) (t : Nat) : Nat := ((s.treeWaves t).map (fun w => (s.waveOps w).length)).sum

/-- The operation that a wave issued at a step comes to the head of its core's queue, unless the head has begun: operations of
other groups entered before it (R250), and what they reach is their own. -/
def State.promote (s : State) (core w order : Nat) : State :=
  s.withCore core (fun c =>
    match c.mq.find? (fun e => decide (e.wave = w ∧ e.order = order)), c.mq with
    | some e, h :: _ => if h.started then c else { c with mq := e :: c.mq.erase e }
    | some _, [] | none, _ => c)

/-- The addresses in global memory that an operation still has to write. -/
def State.opWrites (s : State) : EngOp → List DWord
  | .copy k => match s.copies[k]? with
    | some c => if c.s2g then c.elts.map (·.2) else []
    | none => []
  | .matrix core order => match (s.coreAt core).mq.find? (fun e => e.order == order) with
    | some e => (match e.kind with
        | .acstg _ _ _ l => l.map (·.2)
        | .tld _ _ | .tst _ _ | .tzero _ | .mma _ _ _ _ _ _ _ | .acz _ | .acld _ _ _ | .acst _ _ _ _ | .acrd _ _ _ _ => [])
    | none => []
  | .saved _ => []

/-- The elements that an operation of wave `w` has committed, counted for RegroupDet (R303): `l` are the addresses that were left
before, `n` is how many are left. -/
def State.countOp (s : State) (t w : Nat) (l : List DWord) (n : Nat) : State :=
  match (s.waves[w]?).bind s.launchOf, ((s.waves[w]?).bind s.groupOf).bind (·.core) with
  | some la, some core => (l.take (l.length - n)).foldl (fun s va => match (s.translate (core / 64) la.domain va .write).1 with
      | .ok p => if p.kind = 4 then s else s.countAccess t core (memKey p.kind p.pa) true
      | .error _ => s) s
  | _, _ => s

/-- An operation performed as far as it can be. -/
def State.runOp (s : State) (t w : Nat) (op : EngOp) : State :=
  let l := s.opWrites op
  let s' := match op with
    | .copy k => s.runCopy k 0
    | .matrix core order =>
      let s := s.promote core w order
      if ((s.coreAt core).mq.head?.map (fun (e : MatE) => decide (e.wave = w ∧ e.order = order))).getD false then s.runMatrix core 0 else s
    | .saved _ => s
  s'.countOp t w l (s'.opWrites op).length

/-- Step 2 as far as it can go: an operation that waits on a fault or on another package, or whose group is off its core, holds the
boundary. -/
def State.engineAll (s : State) (t : Nat) : Nat → State
  | 0 => s
  | n + 1 =>
    match s.nextOp t with
    | none => s
    | some (w, op) =>
      let s' := s.runOp t w op
      if s'.opsLeft t < s.opsLeft t then State.engineAll s' t n else s'

/-! ## Step 3: children, instances, waits (R396, R397) -/

/-- Children accepted in ascending key of the spawning wave, then in its issue order. -/
def State.acceptAll (s : State) (t : Nat) : State :=
  (s.treeWaves t).foldl (fun s w => match s.waves[w]? with
    | none => s
    | some wv =>
      let s := s.withWave w (fun wv => { wv with buf := [] })
      wv.buf.foldl (fun s e => match e with
        | .spawn r _ _ => s.acceptChild w r
        | .store _ _ _ | .atomic _ _ _ _ | .cas _ _ _ _ | .maj _ _ _ _ _ | .spanStore _ | .spanAtomic _ _ | .spanCas _ _ => s) s) s

/-- The groups of a tree. -/
def State.treeGroups (s : State) (t : Nat) : List Nat :=
  (List.range s.groups.length).filter (fun g => decide ((s.groups[g]?).bind (fun h => (s.launches[h.launch]?).bind (·.tree)) = some t))

/-- The baton at a boundary (R397): a transfer arrives; a free baton goes to the waiter of lowest LWAVE. -/
def Baton.settle (b : Baton) : Baton :=
  match b.transit with
  | some n => Baton.give { b with transit := none } n false
  | none => if b.holder.isNone then b.giveNext false else b

/-- Barriers, batons and stages of a tree's groups at a boundary. -/
def State.settleGroups (s : State) (t : Nat) : State :=
  (s.treeGroups t).foldl (fun s g =>
    (s.withGroup g (fun h => { h with barriers := h.barriers.map Barrier.settle, baton := h.baton.settle })).settleStage g) s

/-- The entries in which a wave that is off its core, or stopped on it, keeps its waits (R279, R289). -/
def Wave.waitEntries (wv : Wave) : List RQEntry :=
  (if wv.stopped.isSome then wv.rq.drop wv.stopAt else if wv.life = .resident then [] else wv.reinj).filter (fun e => e.kind == 5)

/-- The wave without one of those entries. -/
def Wave.dropWait (wv : Wave) (e : RQEntry) : Wave :=
  if wv.stopped.isSome then { wv with rq := wv.rq.take wv.stopAt ++ (wv.rq.drop wv.stopAt).erase e }
  else { wv with reinj := wv.reinj.erase e }

/-- The wait of an entry of a wave ends that is off its core or stopped (R396, R397); a stopped one arrives when it resumes (R289). -/
def State.endSaved (s : State) (w : Nat) (e : RQEntry) : State :=
  match e.wait with
  | none => s
  | some wt =>
    let s := match wt with
      | .join js d er m => s.joinEnd w js d er m
      | .bar _ _ _ | .baton | .batch _ _ => s
    let s := s.withWave w (·.dropWait e)
    match s.waves[w]? with
    | none => s
    | some wv => match wv.table.split? e.slot with
      | none => s
      | some sp =>
        if wv.stopped.isSome then s
        else
          let m := wv.table.moveTo e.slot sp.pc wv.gone (s.checking wv)
          (s.withWave w (fun wv => { wv with table := m.1 })).raiseMismatch w m.2 e.w0 e.w1 e.w2

/-- The waits of a wave whose conditions hold end, on its core or off it. -/
def State.endWaits (s : State) (w : Nat) : State :=
  match s.waves[w]? with
  | none => s
  | some wv =>
    wv.waitEntries.foldl (fun s e => match e.wait, s.waves[w]? with
      | some wt, some wv => if s.waitOver w wv wt then s.endSaved w e else s
      | _, _ => s) (if wv.life = .resident then s.wakeWave w else s)

/-- Whether the split at a place waits, on its wave's core or off it. -/
def Wave.waitsAt (wv : Wave) (k : Nat) : Bool := (wv.waitAt k).isSome || wv.waitEntries.any (fun e => e.slot == k)

/-- Whether every live split waits: the wave has nothing to issue. -/
def Wave.allWait (wv : Wave) : Bool :=
  (List.range 4).all (fun k => (wv.table.split? k).isNone || wv.waitsAt k)

/-- The next quantum of a wave begins (R393): after a wait that ended the last one, once it is over; after the count, QEND or an
atomic, at the next boundary, unless no split could issue in it. -/
def Wave.begin (wv : Wave) : Wave :=
  if wv.life = .retired ∨ (wv.qwait.map wv.waitsAt).getD false = true ∨ wv.allWait = true then wv
  else { wv with qended := false, qwait := none, qretired := 0 }

/-- The dies that hold a wave of a tree. -/
def State.treeDies (s : State) (t : Nat) : List Nat :=
  (List.range 4).filter (fun d => (s.treeWaves t).any (fun w => match s.waves[w]? with
    | some wv => wv.life == .resident && wv.die' == d
    | none => false))

/-- Counts older than 16 quanta end, and RegroupDet runs at the boundaries of R303. -/
def State.regroupTree (s : State) (t : Nat) : State :=
  match s.trees[t]? with
  | none => s
  | some x =>
    let x : Tree := { x with weights := x.weights.filter (fun y => decide (x.boundary < y.1 + 16)) }
    let s := s.withTree t (fun _ => x)
    if x.boundary ≠ 0 ∧ x.boundary % 16 = 0 then (s.treeDies t).foldl (fun s d => s.regroupDet x d) s else s

/-- Step 3. -/
def State.boundaryEnd (s : State) (t : Nat) : State :=
  let s := (s.regroupTree t).acceptAll t
  let s := s.settleGroups t
  let s := (s.treeLaunches t).reverse.foldl State.complete s
  let s := (s.treeWaves t).foldl State.endWaits s
  let s := (s.treeWaves t).foldl (fun s w => s.withWave w Wave.begin) s
  s.withTree t (fun x => { x with phase := 0 })

/-! ## The boundary (R394, R395) -/

/-- A boundary under way goes on as far as it can. -/
def State.boundaryRun (s : State) (t : Nat) : State :=
  let phase (s : State) : Nat := ((s.trees[t]?).map (·.phase)).getD 0
  let s := if phase s = 1 then s.commitAll t (s.buffered t + 1) else s
  if phase s = 2 then
    let s := s.engineAll t (s.opsLeft t)
    -- what steps 1 and 2 have sent to other packages and to the keystones is performed before step 3
    if s.opsLeft t = 0 ∧ (s.treeWaves t).any s.remoteBusy = false then s.boundaryEnd t else s
  else s

/-- The next boundary of a tree begins. -/
def State.boundaryStart (s : State) (t : Nat) : State :=
  (s.withTree t (fun x => { x with boundary := x.boundary + 1, phase := 1, acc := none })).boundaryRun t

/-- The state with the number of a tree's boundary as it stood in another. -/
def State.sameBoundary (s o : State) (t : Nat) : State :=
  match o.trees[t]? with
  | none => s
  | some x => s.withTree t (fun y => { y with boundary := x.boundary })

/-- Whether a step of a boundary of a tree is due: the tree has not stopped, its waves have all ended their quantum or a
boundary is under way, and the step has an effect. -/
def State.boundaryDue (s : State) (t : Nat) : Bool :=
  match s.trees[t]? with
  | none => false
  | some x =>
    !x.stopped && (if x.phase = 0 then s.allEnded t && decide ((s.boundaryStart t).sameBoundary s t ≠ s)
      else decide (s.boundaryRun t ≠ s))

/-- QUANTUM_BOUNDARY of a tree. -/
def State.boundaryStep (s : State) (t : Nat) : State :=
  match s.trees[t]? with
  | none => s
  | some x => if x.phase = 0 then s.boundaryStart t else s.boundaryRun t

/-- QUANTUM_BOUNDARY, of the first tree for which it is due. -/
def execQuantumBoundary (s : State) : Result :=
  .next (match (List.range s.trees.length).find? s.boundaryDue with
    | some t => s.boundaryStep t
    | none => s)

/-- Whether a wave can issue nothing before the boundary, since each of its splits waits and some wait for a child that the
boundary is to accept (R361, R396): the model ends its quantum then (log entry 38). -/
def Wave.stuck (wv : Wave) : Bool :=
  wv.heldLanes != 0 && wv.faulting.isNone && wv.parked.isNone && wv.entering.isEmpty && wv.reinj.isEmpty
    && (List.range 4).all (fun k => match wv.table.split? k with
      | some sp => wv.waitsAt k || sp.mask &&& wv.heldLanes != 0
      | none => true)

/-- Whether a wave's quantum is to end, on its count (R393) or because nothing of it can issue. -/
def State.quantumDue (s : State) (wv : Wave) : Bool :=
  s.det wv && !wv.qended && wv.life == .resident
    && (decide (wv.qretired ≥ ((s.launchOf wv).map (·.record.quantum)).getD 0) || wv.stuck)

/-- QUANTUM_END (R393). -/
def execQuantumEnd (w : Nat) (s : State) : Result :=
  .next (match s.waves[w]? with
    | some wv => if s.quantumDue wv then s.endQuantum w else s
    | none => s)

/-! ## Stops of a tree (R392) -/

/-- Every wave of a tree aborts with 0x1E5, the package power its detail word (R433); what the current quantum has buffered or held
is discarded, and instances that have not started are done with. -/
def State.stopTree (s : State) (t : Nat) : State :=
  let ws := s.treeWaves t
  let s : State := ws.foldl (fun s w => s.withWave w (fun wv => { wv with buf := [] })) s
  let s : State := { s with
    copies := s.copies.map (fun c => if ws.contains c.wave then { c with elts := [], wait := none, done := true } else c)
    cores := s.cores.map (fun k => (k.1, { k.2 with mq := k.2.mq.filter (fun e => !ws.contains e.wave) }))
    groups := s.groups.map (fun g => { g with engine := g.engine.filter (fun e => !ws.contains e.wave) }) }
  let s : State := s.withTree t (fun x => { x with stopped := true, phase := 0, acc := none })
  let s : State := ws.foldl (fun (s : State) w => match s.waves[w]? with
    | some wv => if wv.life = .retired then s else s.abort w 0x1E5 (some (s.power.watts.setWidth 32))
    | none => s) s
  (s.treeLaunches t).foldl (fun (s : State) i => match s.launches[i]? with
    | none => s
    | some l =>
      if l.completed then s
      else
        let have' (gl st : Nat) : Bool := s.groups.any (fun g => g.launch == i && g.gl == gl && g.stage == st)
        let missing := (List.range l.record.groups).flatMap (fun gl => (List.range l.record.stages).filterMap (fun st =>
          if have' gl st then none else some { Group.fresh i gl st with life := .done }))
        let s : State := { s with groups := (s.groups.map (fun g =>
          if g.launch = i ∧ g.life ≠ .placed then { g with life := .done } else g)) ++ missing }
        s.withLaunch i (fun l => { l with nextGl := l.record.groups, abort := true, death := true })) s

/-! ## The watchdog (R434) -/

/-- WATCHDOG_EXPIRY: a wave for which the time of R434 has run out aborts with 0x1E4; the seconds of no progress are its
detail word (R433). Time under PAUSE, in a debugger stop, off
its core, or in an excused wait is not counted. -/
def execWatchdogExpiry (w : Nat) (seconds : Word) (s : State) : Result :=
  .next (match s.waves[w]? with
    | some wv =>
      let dog := ((s.launchOf wv).map (·.qwdog)).getD 0
      if wv.life = .resident ∧ dog ≠ 0 ∧ s.power.pause = 0 ∧ wv.stopped = none ∧ s.excused w = false then s.abort w 0x1E4 (some seconds)
      else s
    | none => s)

end Sys2Proof.Machine
end

