-- ==== Sys2Proof/Machine/Window.lean ====
section
/-! DEFINITION. The management window: writes and reads of its registers (R345, R372, R381, R382, R401 to R404, R408, R411,
R412, R415, R420, R434). -/

namespace Sys2Proof.Machine

/-- A write reaches the window, unless the device is in recovery (R413). -/
def State.window (s : State) (f : State → State) : State := if s.mgmt.recovery then s else f s

/-! ## Queue registers (R403, R404, R408) -/

/-- The indexes of a queue set to 0 (R403); what its context holds of a JUMP or a loop goes with them. -/
def HQueue.rewind (q : HQueue) : HQueue :=
  { q with tail := 0, prog := 0, rd := 0, loop := none, jump := none, unchecked := false, pending := none, got := none }

/-- A write of QBASE (R403). -/
def State.writeQbase (s : State) (q : Nat) (v : DWord) : State :=
  if (s.queue q).en then s.ignored else s.withQueue q (fun x => { x with base := v &&& ~~~0xFFF#64 }.rewind)

/-- The fields of QCFG below EN that hold something. -/
def cfgFields (v : Word) : Word := v &&& 0x001FFFFF

/-- A write of QCFG (R403). -/
def State.writeQcfg (s : State) (q : Nat) (v : Word) : State :=
  let x := s.queue q
  if x.en then
    if v.getLsbD 31 then s.ignored else s.withQueue q (fun x => { x with cfg := cfgFields x.cfg }.rewind)
  else
    let size := (v.extractLsb' 16 5).toNat
    if v.getLsbD 31 ∧ 6 ≤ size ∧ size ≤ 20 then
      s.withQueue q (fun x => { x with cfg := cfgFields v ||| 0x80000000, unchecked := true })
    else
      let s := s.withQueue q (fun x => { x with cfg := cfgFields v }.rewind)
      if v.getLsbD 31 then s.ignored else s

/-- A write of QTAIL (R404). -/
def State.writeQtail (s : State) (q : Nat) (v : Word) : State :=
  let x := s.queue q
  if (v - x.prog).toNat ≤ x.size ∧ (v - x.tail).toNat < 2 ^ 31 then s.withQueue q (fun x => { x with tail := v })
  else s.ignored

/-- A write of QRESTART (R408). -/
def State.writeQrestart (s : State) (q : Nat) (v : Word) : State :=
  let x := s.queue q
  if x.halt ∧ (x.tail - v).toNat ≤ x.size then
    s.withQueue q (fun x => { x with halt := false, err := 0, rd := v, prog := v, jump := none })
  else s.ignored

/-- Prawin switches a queue in or out (R406): at most 16 are in. -/
def State.switchQueue (s : State) (q : Nat) (on : Bool) : State :=
  if on then
    if (s.queues.filter (fun x => x.2.res && x.1 != q)).length < 16 then s.withQueue q (fun x => { x with res := true }) else s
  else s.withQueue q (fun x => { x with res := false })

/-! ## Power (R410, R411) -/

/-- The trees that have a wave not yet retired or an instance still to start. -/
def State.liveTrees (s : State) : List Nat :=
  (List.range s.trees.length).filter (fun t => ((s.trees[t]?).map (fun x => !x.stopped)).getD false
    && (s.treeLaunches t).any (fun l => ((s.launches[l]?).map (fun x => !x.completed)).getD false))

/-- OVER as the package power and PLIMIT give it (R411, R412): vector 65 when it becomes 1, and every tree stops when the power is
above the limit while a die is locked (R392). -/
def State.judgePower (s : State) : State :=
  let high := decide (s.power.plimit.toNat < s.power.watts.toNat)
  let s' := { s with power := { s.power with above := high } }
  if high then
    let s' := if s.power.above then s' else s'.vector 65
    if (List.range 4).any s.dieDet then s.liveTrees.foldl State.stopTree s' else s'
  else s'

/-- A tree whose wave takes a die while the power is above the limit stops as it would have at the power's rise (R7, R392). -/
def State.holdPower (s : State) : State := if s.power.above && (List.range 4).any s.dieDet then s.judgePower else s

/-- A power register written with a value of its range; none outside it (R411). -/
def State.setPower (s : State) (sel : Nat) (v : DWord) : Option State :=
  let n := v.toNat
  let w := lo32 v
  let put (p : Power) : Option State := some { s with power := p }
  let p := s.power
  if n ≥ 2 ^ 32 then none
  else if sel = 0 then
    if 400 ≤ n ∧ n ≤ 2000 ∧ n % 100 = 0 then
      some { s with power := { p with aclk := w }, dies := s.dies.map (fun d => { d with clock := BitVec.ofNat 16 n }) }
    else none
  else if sel = 1 then if 600 ≤ n ∧ n ≤ 2400 then some ({ s with power := { p with plimit := w } }.judgePower) else none
  else if sel = 2 then if 10 ≤ n ∧ n ≤ 10000000 then put { p with ewin := w } else none
  else if sel = 3 then put { p with ebudget := w }
  else if 4 ≤ sel ∧ sel ≤ 11 then put { p with ecost := p.ecost.setIfInBounds (sel - 4) w }
  else if sel = 12 then if 60 ≤ n ∧ n ≤ 110 then put { p with tthresh := w } else none
  else if sel = 13 then if n ≤ 1 then put { p with pause := w } else none
  else none

/-- A direct write of a power register (R411). -/
def State.writePower (s : State) (sel : Nat) (v : DWord) : State := (s.setPower sel v).getD s.ignored

/-- The arithmetic clock that a die runs at: a die that holds a wave of a tree is locked (R391). -/
def State.dieClock (s : State) (die : Nat) : BitVec 16 :=
  if s.dieDet die then 1600 else ((s.dies[die]?).getD Die.reset).clock

/-! ## Keystone block (R372, R373, R381, R382) -/

/-- Whether a value may make a set valid (R372). -/
def repLegal (g : Nat) (v : DWord) : Bool :=
  let st := (List.range (repN v)).map (repStack v)
  decide (v.extractLsb' 20 10 = 0#10) && (v.getLsbD 30 || decide (v.extractLsb' 12 8 = 0#8))
    && st.all (fun x => decide (x ≤ 11)) && decide (st.Nodup)
    && decide ((v.extractLsb' 48 16).toNat + (v.extractLsb' 32 16).toNat ≤ g * 1024)

/-- The copies of a set's space hold data zero and tag 0, written by Prawin before the set is valid (R373). -/
def State.clearSet (s : State) (v : DWord) : State :=
  let inSet (c : Nat × Nat × MajCopy) : Bool :=
    (setSpaces v).any (fun x => x.1 == c.1 && decide (x.2.1 ≤ c.2.1 ∧ c.2.1 < x.2.2))
  { s with keys := { s.keys.rewrite v false with copies := s.keys.copies.filter (fun c => !inSet c) } }

/-- The store to a set that an effect of a deterministic wave holds for the boundary. -/
def DetEff.toSet (n : BitVec 4) : DetEff → Option (Nat × RQEntry)
  | .maj m pa _ _ e => if m = n then some (pa, e) else none
  | .store _ _ _ | .atomic _ _ _ _ | .cas _ _ _ _ | .spanStore _ | .spanAtomic _ _ | .spanCas _ _ | .spawn _ _ _ => none

/-- The stores of a wave to a set that wait for the boundary (R395) complete with 0x0E5 too (R372). -/
def State.dropBuffered (s : State) (n : BitVec 4) (w : Nat) : State :=
  match s.waves[w]? with
  | none => s
  | some wv =>
    (wv.buf.filterMap (DetEff.toSet n)).foldl (fun s x =>
      s.raiseAsync w ⟨0x0E5, (Mask.lowest x.2.remain).val, BitVec.ofNat 32 x.1, some x.2.pc, x.2.w0, x.2.w1, x.2.w2⟩)
      (s.withWave w (fun wv => { wv with buf := wv.buf.filter (fun e => (e.toSet n).isNone) }))

/-- Outstanding accesses to a set complete with 0x0E5 (R372). -/
def State.dropSet (s : State) (n : BitVec 4) : State :=
  (List.range s.waves.length).foldl (fun s w => s.dropBuffered n w)
    ((List.range s.keys.accs.length).foldl (fun s k => match s.keys.accs[k]? with
      | some a => if a.setNo = n ∧ a.phase ≠ .done then s.failMaj k 0x0E5 else s
      | none => s) s)

/-- A write of REPSETn (R372). -/
def State.writeRepset (s : State) (n : BitVec 4) (v : DWord) : State :=
  let put (s : State) : State := { s with keys := { s.keys with repset := s.keys.repset.setIfInBounds n.toNat v } }
  if (s.repset n).getLsbD 31 then
    if v.getLsbD 31 then s.ignored else (put s).dropSet n
  else if v.getLsbD 31 then
    if repLegal s.cfg.g v then (put s).clearSet v else s.ignored
  else put s

/-- A write of REBASE (R381, R382). -/
def State.writeRebase (s : State) (v : Word) : State :=
  if v.getLsbD 0 ∧ s.keys.rebaseBusy = false then { s with keys := { s.keys with rebaseBusy := true } } else s.ignored

/-- A write of QTIMEOUT (R382). -/
def State.writeQtimeout (s : State) (v : Word) : State :=
  if v.extractLsb' 16 16 ≠ 0#16 ∨ v = 0 then s.ignored else { s with keys := { s.keys with qtimeout := v } }

/-- A write of SCRUB (R382). -/
def State.writeScrub (s : State) (v : Word) : State :=
  if v.extractLsb' 20 11 ≠ 0#11 then s.ignored else { s with keys := { s.keys with scrub := v } }

/-! ## Viaduct port block (R420) -/

/-- The port block changed. -/
def State.withVia (s : State) (f : Viaduct → Viaduct) : State := { s with via := f s.via }

/-- A write of VCTL (R420), field by field: VDSIZE while VEN is 0 and only from 1 to 1,024; VEN cleared at any time, and set while
VTYPE is an EtherType. A write of which a field is ignored is counted (R415). -/
def State.writeVctl (s : State) (v : Word) : State :=
  let on := v.getLsbD 31
  let n := v.extractLsb' 0 11
  let old := s.via.vctl &&& 0x7FF
  if s.via.ven then
    if on then s.ignored else s.withVia (fun x => { x with vctl := old })
  else
    let sized := decide (1 ≤ n.toNat ∧ n.toNat ≤ 1024)
    let size := if sized then n.setWidth 32 else old
    let able := !on || decide (0x600 ≤ s.via.vtype.toNat)
    let s' := (s.withVia (fun x => { x with vctl := size ||| (if on && able then 0x80000000 else 0) })).pumpAll
    if sized && able && decide (v.extractLsb' 11 20 = 0#20) then s' else s'.ignored

/-- A write of the port block at an offset (R420); `none` where it holds no writable register. -/
def State.writeVia (s : State) (o : Nat) (v : DWord) : State :=
  let w := lo32 v
  let off (f : Viaduct → Viaduct) : State := if s.via.ven then s.ignored else s.withVia f
  let ok (b : Bool) (f : Viaduct → Viaduct) : State := if b then s.withVia f else s.ignored
  if o = 0x08 then off (fun x => { x with vpid := w &&& 0x3FF })
  else if o = 0x0C then s.writeVctl w
  else if o = 0x10 then off (fun x => { x with vtype := w &&& 0xFFFF })
  else if o = 0x14 then ok (decide (1 ≤ w.toNat ∧ w.toNat ≤ 65535)) (fun x => { x with rto := w })
  else if o = 0x18 then ok (decide (1 ≤ w.toNat ∧ w.toNat ≤ 255)) (fun x => { x with retry := w })
  else if o = 0x1C then ok (decide (w ≠ 0)) (fun x => { x with recto := w })
  else if o = 0x20 then s.withVia (fun x => { x with exbase := v &&& ~~~0xFFF#64 })
  else if o = 0x28 then s.withVia (fun x => { x with exsize := v &&& ~~~0xFFF#64 })
  else if o = 0x30 then s.withVia (fun x => { x with exrights := w &&& 7 })
  else if 0x100 ≤ o ∧ o < 0x1100 ∧ o % 4 = 0 then
    (s.withVia (fun x => { x with routes := insertN ((o - 0x100) / 4) (v.extractLsb' 0 4) x.routes })).pumpAll
  else if 0x1100 ≤ o ∧ o < 0x2100 ∧ o % 4 = 0 then s.peerp ((o - 0x1100) / 4) w
  else s.ignored

/-! ## The blocks (R401, R402) -/

/-- Where a write lands: the block's register and its offset. -/
inductive Slot
  | queue (q o : Nat)
  | domain (o : Nat)
  | die (d o : Nat)
  | key (o : Nat)
  | power (o : Nat)
  | counters (o : Nat)
  | via (o : Nat)
  | header (n : Nat)
  | hole
  deriving DecidableEq, Repr

/-- The headers in the order of the list: offset, ID (R401). The list begins at offset 0, with a header whose ID the manual does not
give (log entry 65). -/
def headers : List (Nat × Nat) :=
  [(0, Config.rootId.toNat), (0x1000, 1), (0x2400, 2), (0x3000, 3), (0x3100, 3), (0x3200, 3), (0x3300, 3), (0x4000, 4), (0x5000, 5), (0x6000, 6), (0x8000, 8)]

/-- The register at an offset of the window; a block's registers follow its header (R401). -/
def slotOf (off : Nat) : Slot :=
  if (headers.map (·.1)).contains off then .header ((headers.map (·.1)).findIdx (· == off))
  else if 0x1008 ≤ off ∧ off < 0x2008 then .queue ((off - 0x1008) / 0x40) ((off - 0x1008) % 0x40)
  else if 0x2408 ≤ off ∧ off < 0x2418 then .domain (off - 0x2408)
  else if 0x3000 ≤ off ∧ off < 0x3400 ∧ 8 ≤ off % 0x100 then .die ((off - 0x3000) / 0x100) (off % 0x100 - 8)
  else if 0x4008 ≤ off ∧ off < 0x4100 then .key (off - 0x4008)
  else if 0x5008 ≤ off ∧ off < 0x5048 then .power (off - 0x5008)
  else if 0x6008 ≤ off ∧ off < 0x6018 then .counters (off - 0x6008)
  else if 0x8008 ≤ off ∧ off < 0xA108 then .via (off - 0x8008)
  else .hole

/-- A write of FQHEAD (R345). -/
def State.writeFqhead (s : State) (die : Nat) (v : Word) : State :=
  let d := (s.dies[die]?).getD Die.reset
  if (v - d.fqhead).toNat ≤ (d.fqtail - d.fqhead).toNat then (s.withDie die (fun d => { d with fqhead := v })).pumpRecords die
  else s.ignored

/-- A write of FQBASE or FQSIZE (R345). -/
def State.writeFqbase (s : State) (die : Nat) (size : Bool) (v : DWord) : State :=
  let d := (s.dies[die]?).getD Die.reset
  if d.fqhead ≠ d.fqtail ∨ (size = true ∧ ¬ (4 ≤ v.toNat ∧ v.toNat ≤ 16)) then s.ignored
  else
    (s.withDie die (fun d => { d with
      fqbase := if size then d.fqbase else v &&& ~~~0xFFF#64
      fqsize := if size then lo32 v else d.fqsize
      fqhead := 0, fqtail := 0 })).pumpRecords die

/-- A write to the window (R401): applied or ignored by the register's rules; a write of no register, or of a register that
software only reads, is ignored and counted (R415). -/
def State.writeReg (s : State) (off : Nat) (v : DWord) : State :=
  let w := lo32 v
  match slotOf off with
  | .queue q o =>
    if o = 0 then s.writeQbase q v
    else if o = 0x08 then s.writeQcfg q w
    else if o = 0x0C then s.writeQtail q w
    else if o = 0x18 then s.writeQrestart q w
    else if o = 0x1C then s.withQueue q (fun x => { x with wdog := w })
    else s.ignored
  | .domain o =>
    if o = 0 then { s with domBase := v &&& ~~~0x3F#64 }
    else if o = 8 then if w.toNat ≤ 65536 then { s with domCount := w } else s.ignored
    else s.ignored
  | .die d o =>
    if o = 0 then s.writeFqbase d false v
    else if o = 0x08 then s.writeFqbase d true (w.setWidth 64)
    else if o = 0x0C then s.writeFqhead d w
    else if o = 0x18 then s.answerFault d v
    else if o = 0x20 then s.startTlbinv d v
    else s.ignored
  | .key o =>
    if o < 0x80 ∧ o % 8 = 0 then s.writeRepset (BitVec.ofNat 4 (o / 8)) v
    else if o = 0x80 then s.writeQtimeout w
    else if o = 0x84 then s.writeScrub w
    else if o = 0xB0 then s.writeRebase w
    else s.ignored
  | .power o => if o % 4 = 0 then s.writePower (o / 4) (w.setWidth 64) else s.ignored
  | .counters o => if o = 0 then { s with mgmt := { s.mgmt with lcidx := v.extractLsb' 0 16 } } else s.ignored
  | .via o => s.writeVia o v
  | .header _ | .hole => s.ignored

/-! ## Reads of the window -/

/-- QSTAT (R403). -/
def HQueue.stat (q : HQueue) : Word :=
  (if q.halt then 0x80000000 else 0) ||| (if q.res then 0x40000000 else 0) ||| q.err.setWidth 32

/-- PEERp (R422). -/
def StreamSt.code : StreamSt → Word
  | .up => 0 | .recovery => 1 | .lost => 2 | .reset => 3

/-- A count of seconds by temperature or power (R415): a free value that never decreases (log entry 14). -/
def State.seconds (s : State) (i : Nat) : DWord :=
  BitVec.ofNat 64 (min ((List.range s.fresh).map (fun k => Config.choice k i)).sum (2 ^ 64 - 1))

/-- What a register of the window holds (R401); zero where none stands. -/
def State.regAt (s : State) (off : Nat) : DWord :=
  let x (w : Word) : DWord := w.setWidth 64
  match slotOf off with
  | .queue q o =>
    let u := s.queue q
    if o = 0 then u.base else if o = 0x08 then x u.cfg else if o = 0x0C then x u.tail else if o = 0x10 then x u.prog
    else if o = 0x14 then x u.stat else if o = 0x1C then x u.wdog else 0
  | .domain o => if o = 0 then s.domBase else if o = 8 then x s.domCount else 0
  | .die d o =>
    let u := (s.dies[d]?).getD Die.reset
    if o = 0 then u.fqbase else if o = 0x08 then x u.fqsize else if o = 0x0C then x u.fqhead else if o = 0x10 then x u.fqtail
    else if o = 0x14 then BitVec.ofNat 64 u.fqWaiting.length else if o = 0x28 then (if u.tlbBusy then 1 else 0) else 0
  | .key o =>
    let k := s.keys
    if o < 0x80 ∧ o % 8 = 0 then s.repset (BitVec.ofNat 4 (o / 8))
    else if o = 0x80 then x k.qtimeout else if o = 0x84 then x k.scrub
    else if o = 0x88 then BitVec.ofNat 64 s.cfg.g
    else if o = 0x8C then s.stackUp.setWidth 64
    else if 0x90 ≤ o ∧ o < 0xB0 ∧ o % 8 = 0 then ((k.kstamp[(o - 0x90) / 8]?).getD 0).setWidth 64
    else if o = 0xB0 then (if k.rebaseFail then 4 else 0) ||| (if k.rebaseBusy then 2 else 0)
    else 0
  | .power o =>
    let p := s.power
    if o = 0 then x p.aclk else if o = 4 then x p.plimit else if o = 8 then x p.ewin else if o = 0xC then x p.ebudget
    else if 0x10 ≤ o ∧ o < 0x30 ∧ o % 4 = 0 then x ((p.ecost[(o - 0x10) / 4]?).getD 0)
    else if o = 0x30 then x p.tthresh else if o = 0x34 then x p.pause
    else if o = 0x38 then x ((if p.above then 0x80000000 else 0) ||| p.watts.setWidth 32)
    else 0
  | .counters o =>
    if o = 0 then s.mgmt.lcidx.setWidth 64
    else if o = 8 then
      let i := s.mgmt.lcidx.toNat
      if 0x300 ≤ i ∧ i < 0x380 then s.seconds i else (lookupN i s.mgmt.counters).getD 0
    else 0
  | .via o =>
    let v := s.via
    if o = 0x08 then x v.vpid else if o = 0x0C then x v.vctl else if o = 0x10 then x v.vtype else if o = 0x14 then x v.rto
    else if o = 0x18 then x v.retry else if o = 0x1C then x v.recto else if o = 0x20 then v.exbase
    else if o = 0x28 then v.exsize else if o = 0x30 then x v.exrights
    else if 0x40 ≤ o ∧ o < 0x80 ∧ o % 8 = 0 then (if v.links.getLsbD ((o - 0x40) / 8) then 0x80000000 else 0)
    else if 0x100 ≤ o ∧ o < 0x1100 ∧ o % 4 = 0 then ((lookupN ((o - 0x100) / 4) v.routes).getD 0xF).setWidth 64
    else if 0x1100 ≤ o ∧ o < 0x2100 ∧ o % 4 = 0 then x ((s.stream ((o - 0x1100) / 4)).st).code
    else 0
  | .header n =>
    let next := ((headers[n + 1]?).map (·.1)).getD 0
    BitVec.ofNat 64 (next * 2 ^ 32 + 2 ^ 16 + ((headers[n]?).map (·.2)).getD 0)
  | .hole => 0

/-- The value that a read of the window returns (R401). In recovery only the capability list answers (R413): what another register
then gives is a free value. -/
def State.readReg (s : State) (off : Nat) : DWord :=
  match s.mgmt.recovery, slotOf off with
  | true, .header _ | false, _ => s.regAt off
  | true, _ => BitVec.ofNat 64 (Config.choice s.fresh off)

/-! ## The steps -/

/-- QTAIL_WRITE. -/
def execQtailWrite (q : Nat) (v : Word) (s : State) : Result := .next (s.window (fun s => s.writeQtail q v))
/-- QRESTART. -/
def execQrestart (q : Nat) (v : Word) (s : State) : Result := .next (s.window (fun s => s.writeQrestart q v))
/-- QCFG_WRITE. -/
def execQcfgWrite (q : Nat) (v : Word) (s : State) : Result := .next (s.window (fun s => s.writeQcfg q v))
/-- QBASE_WRITE. -/
def execQbaseWrite (q : Nat) (v : DWord) (s : State) : Result := .next (s.window (fun s => s.writeQbase q v))
/-- QUEUE_SWITCH. -/
def execQueueSwitch (q : Nat) (on : Bool) (s : State) : Result := .next (s.switchQueue q on)
/-- FQHEAD_WRITE. -/
def execFqheadWrite (die : Nat) (v : Word) (s : State) : Result := .next (s.window (fun s => s.writeFqhead die v))
/-- FQBASE_WRITE: of FQBASE, or of FQSIZE. -/
def execFqbaseWrite (die : Nat) (size : Bool) (v : DWord) (s : State) : Result :=
  .next (s.window (fun s => s.writeFqbase die size v))
/-- RESUME, as a write to a die's register. -/
def execResume (die : Nat) (v : DWord) (s : State) : Result := .next (s.window (fun s => s.answerFault die v))
/-- TLBINV. -/
def execTlbinv (die : Nat) (v : DWord) (s : State) : Result := .next (s.window (fun s => s.startTlbinv die v))
/-- PEERP_WRITE. -/
def execPeerpWrite (p : Nat) (v : Word) (s : State) : Result := .next (s.window (fun s => s.peerp p v))
/-- REPSET_WRITE. -/
def execRepsetWrite (n : BitVec 4) (v : DWord) (s : State) : Result := .next (s.window (fun s => s.writeRepset n v))
/-- REBASE_GO. -/
def execRebaseGo (v : Word) (s : State) : Result := .next (s.window (fun s => s.writeRebase v))
/-- ACLK_WRITE. -/
def execAclkWrite (v : Word) (s : State) : Result := .next (s.window (fun s => s.writePower 0 (v.setWidth 64)))
/-- PAUSE_WRITE. -/
def execPauseWrite (v : Word) (s : State) : Result := .next (s.window (fun s => s.writePower 13 (v.setWidth 64)))
/-- REGISTER_WRITE. -/
def execRegisterWrite (off : Nat) (v : DWord) (s : State) : Result := .next (s.window (fun s => s.writeReg off v))

/-- ENERGY_WINDOW_START (R411). -/
def execEnergyWindowStart (s : State) : Result :=
  .next { s with power := { s.power with winLen := s.power.ewin, budget := s.power.ebudget } }

/-- POWER_OVER (R392, R412): package power above PLIMIT. -/
def execPowerOver (watts : BitVec 16) (s : State) : Result :=
  .next (if watts.toNat ≤ s.power.plimit.toNat then s else { s with power := { s.power with watts := watts } }.judgePower)

/-- POWER_UNDER (R412). -/
def execPowerUnder (watts : BitVec 16) (s : State) : Result :=
  .next (if watts.toNat ≤ s.power.plimit.toNat then { s with power := { s.power with watts := watts } }.judgePower else s)

/-- THERMAL_STATE_CHANGE (R360). -/
def execThermalStateChange (core : Nat) (hot : Bool) (s : State) : Result :=
  .next (s.withCore core (fun c => { c with thermal := hot }))

end Sys2Proof.Machine
end

