-- ==== Sys2Proof/Machine/Commands.lean ====
section
/-! DEFINITION. The command processor: reading a queue's words, and the meaning of every command (R402 to R409). -/

namespace Sys2Proof.Machine

/-! ## Domains (R402) -/

/-- Entry `d` of the domain table, when the domain is VALID and below DOMCOUNT. -/
def State.domainEntry (s : State) (d : BitVec 16) : Option Domain :=
  let at' := s.domBase.toNat + 32 * d.toNat
  let w2 := s.qword (at' + 16)
  if d.toNat < s.domCount.toNat ∧ w2.getLsbD 32 = true then
    some { id := d, root := s.qword at' &&& ~~~0xFFF#64, otBase := s.qword (at' + 8) &&& ~~~0x3F#64, otSize := lo32 w2,
           valid := true, save := s.qword (at' + 24) &&& ~~~0xFFF#64 }
  else none

/-- The domain of queue `q`. -/
def State.queueDomain (s : State) (q : Nat) : Option Domain := s.domainEntry (s.queue q).dom

/-- Whether the command processor works for a queue: enabled, switched in, not halted, no command unfinished and no bytes
asked of another package still to come (R403, R406 to R408, R413). -/
def State.queueRuns (s : State) (q : Nat) : Bool :=
  (s.queue q).live && (s.queue q).pending.isNone && !s.queueBusy q && !s.mgmt.recovery

/-! ## Bytes that a command reads -/

/-- The places of `n` bytes for an access of the base die. -/
def State.sysPlaces (s : State) (dom : Domain) (va : DWord) (need : Need) : Nat → Except Cause (List Phys)
  | 0 => .ok []
  | n + 1 => match s.sysPlace dom va need, State.sysPlaces s dom (va + 1) need n with
    | .ok p, .ok l => .ok (p :: l)
    | .error c, _ => .error c
    | _, .error c => .error c

/-- The remote places among those that the command reads whose byte has not come yet. -/
def HQueue.lacks (x : HQueue) (l : List Phys) : List Phys :=
  l.filter (fun p => p.kind == 3 && (lookupN (memKey 3 p.pa) (x.got.getD [])).isNone)

/-- One byte as a command reads it: the answer of another package (R421), else what the base die reads. -/
def State.cmdByte (s : State) (q : Nat) (p : Phys) : Byte :=
  match if p.kind = 3 then lookupN (memKey 3 p.pa) ((s.queue q).got.getD []) else none with
  | some b => b
  | none => s.sysByte p

/-- The runs of consecutive places, cut at multiples of 64: each is one read request. -/
def readRuns : List Phys → List (Phys × Nat)
  | [] => []
  | p :: l => match readRuns l with
    | (q, n) :: r => if q.pa = p.pa + 1 ∧ q.pa % 64 ≠ 0 then (p, n + 1) :: r else (p, 1) :: (q, n) :: r
    | [] => [(p, 1)]

/-- The command asks other packages for bytes; a lost stream halts the queue like a page that grants nothing (log entry 13). -/
def State.cmdAsk (s : State) (q : Nat) (l : List Phys) : State :=
  if l.any (fun p => (s.stream (remoteOf p).1).st == .lost) then s.haltQueue q 4
  else (readRuns l).foldl (fun s r => s.askRead r.1 r.2 (.agent (some q)) 0)
    (s.withQueue q (fun x => { x with got := some (x.got.getD []) }))

/-- Bytes that a command has read are read again: those of other packages are forgotten. -/
def HQueue.forget (x : HQueue) (l : List Phys) : HQueue :=
  { x with got := x.got.map (fun g => g.filter (fun b => !l.any (fun p => p.kind == 3 && memKey 3 p.pa == b.1))) }

/-! ## Reading commands (R403, R404, R407) -/

/-- Where the `k`th word from the next command lies (R403, R407). -/
def HQueue.wordAddr (x : HQueue) (k : Nat) : DWord :=
  match x.jump with
  | some j => j.addr + BitVec.ofInt 64 (8 * (j.pos + k))
  | none => x.base + BitVec.ofNat 64 (8 * ((x.rd.toNat + k) % x.size))

/-- Whether the ring, or the buffer, holds `n` more words (R404, R407). -/
def HQueue.holds (x : HQueue) (n : Nat) : Bool :=
  match x.jump with
  | some _ => true
  | none => let a := (x.tail - x.rd).toNat
    decide (n ≤ a ∧ a < 2 ^ 31)

/-- The LEN that a command requires (R407). -/
def cmdLen : Nat → Option Nat
  | 0x01 | 0x08 | 0x0A | 0x0B | 0x0C => some 2
  | 0x02 | 0x03 | 0x04 | 0x07 => some 3
  | 0x05 | 0x06 => some 1
  | 0x09 => some 4
  | _ => none

/-- The ARGS bits that a command uses (R407). -/
def cmdArgs : Nat → BitVec 48
  | 0x03 => 0xF
  | 0x04 => 0x3
  | 0x06 => 0xFF00FFFFFFFF
  | 0x07 => 0xFF0F
  | 0x08 => 0xFFFFF
  | 0x0A => 0xFF
  | 0x0B => 0xF
  | 0x0C => 0x3
  | _ => 0

/-- Relations by code (R407). -/
def vrelOf (c : BitVec 3) : VRel := if c = 0 then .eq else if c = 1 then .ne else if c = 2 then .ge else .lt

/-- The ERR of a header word, none when it is well formed (R408). -/
def headerErr (h : DWord) : Option Byte :=
  let op := (h.extractLsb' 56 8).toNat
  let len := (h.extractLsb' 52 4).toNat
  let args : BitVec 48 := h.extractLsb' 0 48
  if 0x0C < op then some 1
  else if (if op = 0 then decide (1 ≤ len ∧ len ≤ 8) else decide (cmdLen op = some len)) = false then some 2
  else if h.extractLsb' 48 3 ≠ 0#3 ∨ args &&& ~~~(cmdArgs op) ≠ 0 ∨ ((op = 3 ∨ op = 7) ∧ args.getLsbD 2 = true)
      ∨ (op = 6 ∧ args.extractLsb' 40 8 = 0#8) ∨ (op = 8 ∧ args.extractLsb' 0 20 = 0#20) then some 3
  else none

/-- The command of a well-formed header with its operand words (R407). -/
def cmdOf (q : Nat) (h a b c : DWord) : Instr :=
  let irq := h.getLsbD 51
  let t : VTest := { rel := vrelOf (h.extractLsb' 0 3), w64 := h.getLsbD 3, addr := a, value := b }
  match (h.extractLsb' 56 8).toNat with
  | 0x01 => .launch q irq a
  | 0x02 => .launchi q irq a b
  | 0x03 => .waitv q irq t
  | 0x04 => .signal q irq (h.getLsbD 0) (h.getLsbD 1) a b
  | 0x05 => .cmdFence q irq
  | 0x06 => .cmdLoop q irq (h.extractLsb' 40 8) (lo32 h)
  | 0x07 => .ifv q irq t (h.extractLsb' 8 8)
  | 0x08 => .jump q irq (h.extractLsb' 0 20) a
  | 0x09 => .copyh q irq a b c
  | 0x0A => .setpow q irq (h.extractLsb' 0 8) a
  | 0x0B => .regroup q irq (h.extractLsb' 0 4) a
  | 0x0C => .cmdResume q irq (h.extractLsb' 0 2) a
  | _ => .cmdNop q irq (h.extractLsb' 52 4).toNat

/-- What the command processor meets next in a queue. -/
inductive Turn
  /-- nothing to do -/
  | idle
  /-- the check after EN passes (R403) -/
  | checked
  /-- a halt with an ERR code (R408) -/
  | stop (err : Byte)
  /-- words of the command lie in other packages, which have still to be asked -/
  | ask (l : List Phys)
  | run (i : Instr)
  deriving DecidableEq, Repr

/-- The `k`th word from the next command, read in the queue's domain; or what stands in its way. -/
def State.queueWord (s : State) (dom : Domain) (q k : Nat) : Except Turn DWord :=
  let x := s.queue q
  match s.sysPlaces dom (x.wordAddr k) .read 8 with
  | .ok l => match x.lacks l with
    | [] => .ok (BitVec.ofNat 64 (ofBytes (l.map (s.cmdByte q))))
    | p :: r => .error (.ask (p :: r))
  | .error _ => .error (.stop 4)

/-- The next command of a queue (R402, R403, R407, R408). -/
def State.turn (s : State) (q : Nat) : Turn :=
  let x := s.queue q
  if s.queueRuns q = false then .idle
  else if x.unchecked then
    match s.queueDomain q with
    | none => .stop 8
    | some dom => match s.sysPlace dom x.base .read with
      | .ok _ => .checked
      | .error _ => .stop 4
  else if x.holds 1 = false then .idle
  else match s.queueDomain q with
    | none => .stop 8
    | some dom => match s.queueWord dom q 0 with
      | .error t => t
      | .ok h => match headerErr h with
        | some e => .stop e
        | none =>
          let len := (h.extractLsb' 52 4).toNat
          if x.holds len = false then .idle
          else
            let op (k : Nat) : Except Turn DWord := if k < len ∧ h.extractLsb' 56 8 ≠ 0#8 then s.queueWord dom q k else .ok 0
            match op 1, op 2, op 3 with
            | .ok a, .ok b, .ok c =>
              if h.extractLsb' 56 8 = 8#8 ∧ a.extractLsb' 0 3 ≠ 0#3 then .stop 3 else .run (cmdOf q h a b c)
            | .error t, _, _ | _, .error t, _ | _, _, .error t => t

/-! ## The commands -/

/-- A command does `f` in the queue's domain; a queue whose domain is not valid halts with ERR 8 (R402). -/
def State.command (s : State) (q : Nat) (f : Domain → State) : Result :=
  .next (if s.queueRuns q then
    match s.queueDomain q with
    | some dom => f dom
    | none => s.haltQueue q 8
  else s)

/-- `f` of the places that a command reads once every byte of another package has come; bytes still lacking are asked for, and
a fault is ERR 4 (R408). -/
def State.withPlaces (s : State) (q : Nat) (dom : Domain) (va : DWord) (n : Nat) (f : List Phys → State) : State :=
  match s.sysPlaces dom va .read n with
  | .ok l => match (s.queue q).lacks l with
    | [] => f l
    | p :: r => s.cmdAsk q (p :: r)
  | .error _ => s.haltQueue q 4

/-- The uncorrectable words that a command has met in the tables, one walk for each page, and in the places that it reads are counted
(R415). -/
def State.noteCmd (s : State) (dom : Domain) (va : DWord) (n : Nat) (l : List Phys) : State :=
  let pages := (List.range (n / 4096 + 1)).map (fun i => va + BitVec.ofNat 64 (4096 * i)) ++ [va + BitVec.ofNat 64 (n - 1)]
  s.noteWords (pages.flatMap (s.walkBad dom) ++ s.badAt l)

/-- A read by a command, or ERR 4 (R408). -/
def State.cmdRead (s : State) (q : Nat) (dom : Domain) (va : DWord) (n : Nat) (f : State → List Byte → State) : State :=
  s.withPlaces q dom va n (fun l => f (s.noteCmd dom va n l) (l.map (s.cmdByte q)))

/-- CMD_NOP. -/
def execCmdNop (q : Nat) (irq : Bool) (len : Nat) (s : State) : Result :=
  s.command q (fun _ => s.retireCmd q irq len 0)

/-- A launch command: the record is read, and the launch accepted or refused (R353, R355, R407); `more` counts what else the command
has read. -/
def State.submit (s : State) (q : Nat) (irq : Bool) (dom : Domain) (n : Nat) (rec : DWord) (grid : Option (Nat × Nat × Nat))
    (more : State → State := id) : State :=
  s.cmdRead q dom rec 128 (fun s bs =>
    let l := s.launches.length
    let s := (more s).hostLaunch bs grid dom q (s.queue q).wdog
    (s.withQueue q (fun x => { x with launches := x.launches ++ [l] })).retireCmd q irq n 0)

/-- LAUNCH. -/
def execLaunch (q : Nat) (irq : Bool) (rec : DWord) (s : State) : Result :=
  s.command q (fun dom => s.submit q irq dom 2 rec none)

/-- LAUNCHI: a grid block whose fourth word is not zero is malformed like a must-be-zero field of the record. -/
def execLaunchi (q : Nat) (irq : Bool) (rec grid : DWord) (s : State) : Result :=
  s.command q (fun dom => s.withPlaces q dom grid 16 (fun at' =>
    let g := at'.map (s.cmdByte q)
    s.submit q irq dom 3 rec (some (if numAt g 12 4 = 0 then numAt g 0 4 else 0, numAt g 4 4, numAt g 8 4))
      (·.noteCmd dom grid 16 at')))

/-- The relation between a memory value and the command's (R407): unsigned, 32 or 64 bits. -/
def testHolds (t : VTest) (m : Nat) : Bool :=
  let v := if t.w64 then t.value.toNat else t.value.toNat % 2 ^ 32
  match t.rel with
  | .eq => decide (m = v)
  | .ne => decide (m ≠ v)
  | .ge => decide (m ≥ v)
  | .lt => decide (m < v)

/-- Bytes of an access of a command. -/
def cmdBytes (w64 : Bool) : Nat := if w64 then 8 else 4

/-- WAITV: one of its acquire loads. The command stays until the relation holds. -/
def execWaitv (q : Nat) (irq : Bool) (t : VTest) (s : State) : Result :=
  s.command q (fun dom => s.withPlaces q dom t.addr (cmdBytes t.w64) (fun l =>
    if testHolds t (ofBytes (l.map (s.cmdByte q))) then (s.noteCmd dom t.addr (cmdBytes t.w64) l).retireCmd q irq 3 0 else s.withQueue q (·.forget l)))

/-- IFV. -/
def execIfv (q : Nat) (irq : Bool) (t : VTest) (skip : BitVec 8) (s : State) : Result :=
  s.command q (fun dom => s.cmdRead q dom t.addr (cmdBytes t.w64) (fun s l =>
    s.retireCmd q irq 3 (if testHolds t (ofBytes l) then 0 else skip.toNat)))

/-- Whether every place can be written by a command: none is a majority page or of a package whose stream is lost (log entry
13). -/
def State.cmdTargets (s : State) (l : List Phys) : Bool :=
  l.all (fun p => p.kind != 4 && !(p.kind == 3 && (s.stream (remoteOf p).1).st == .lost))

/-- The frames that carry bytes to a remote place (R416): the part of a first word, whole words of up to 256 bytes a frame, and the
part of a last word. -/
def remotePieces (p : Phys) (bs : List Byte) : List (Phys × List Byte) :=
  let h := min bs.length ((4 - p.pa % 4) % 4)
  let body := (bs.length - h) / 4 * 4
  let piece (o n : Nat) : Phys × List Byte := ({ p with pa := p.pa + o }, (bs.drop o).take n)
  ([piece 0 h] ++ (List.range ((body + 255) / 256)).map (fun i => piece (h + 256 * i) (min 256 (body - 256 * i)))
    ++ [piece (h + body) (bs.length - h - body)]).filter (fun x => !x.2.isEmpty)

/-- Bytes written at their places by a command: each run of neighbouring bytes is one store, in other packages the frames that carry
it. -/
def State.cmdWrite (s : State) (q : Nat) (va : DWord) (l : List (Phys × Byte)) : State :=
  let bs := l.map (·.2)
  (runsOf (l.map (·.1))).foldl (fun s r =>
    let part := (bs.drop r.2.1).take r.2.2
    if r.1.kind = 3 then (remotePieces r.1 part).foldl (fun s x => s.askWrite x.1 x.2 (.agent (some q)) va) s
    else s.writeHome (memKey r.1.kind r.1.pa) part) s

/-- A command of `n` words retires now, or when its remote requests are answered. -/
def State.retireWritten (s : State) (q : Nat) (irq : Bool) (n : Nat) : State :=
  if s.queueBusy q then s.withQueue q (fun x => { x with pending := some (n, irq) }) else s.retireCmd q irq n 0

/-- Whether the places are one naturally aligned remote location, which one request names. -/
def oneRemote (l : List Phys) : Option Phys :=
  match l with
  | p :: _ => if p.kind = 3 ∧ p.pa % l.length = 0 then some p else none
  | [] => none

/-- SIGNAL: a release store or an integer RED.ADD at SY (R407). -/
def State.signal (s : State) (q : Nat) (irq add w64 : Bool) (addr value : DWord) (dom : Domain) : State :=
  let n := cmdBytes w64
  let v := value.toNat % 2 ^ (8 * n)
  match s.sysPlaces dom addr (if add then .atomic else .write) n with
  | .error _ => s.haltQueue q 4
  | .ok l =>
    if s.cmdTargets l = false then s.haltQueue q 4
    else
      match oneRemote l, add with
      | some p, true => (s.askAtomic p n (.op (.int .add (if w64 then .ui64 else .ui32)) v) (.agent (some q)) addr).retireWritten q irq 3
      | some p, false => (s.askWrite p (toBytes n v) (.agent (some q)) addr).retireWritten q irq 3
      | none, false => (s.cmdWrite q addr (l.zip (toBytes n v))).retireWritten q irq 3
      | none, true => match (s.queue q).lacks l with
        | p :: r => s.cmdAsk q (p :: r)
        | [] =>
          ((s.noteCmd dom addr n l).cmdWrite q addr (l.zip (toBytes n ((ofBytes (l.map (s.cmdByte q)) + v) % 2 ^ (8 * n)))))
            |>.retireWritten q irq 3

/-- SIGNAL. -/
def execSignal (q : Nat) (irq add w64 : Bool) (addr value : DWord) (s : State) : Result :=
  s.command q (s.signal q irq add w64 addr value)

/-- Whether every launch that the queue had accepted has completed (R407). -/
def State.fenceOk (s : State) (q : Nat) : Bool :=
  (s.queue q).launches.all (fun l => ((s.launches[l]?).map (·.completed)).getD true)

/-- CMD_FENCE: the command stays until it retires. -/
def execCmdFence (q : Nat) (irq : Bool) (s : State) : Result :=
  s.command q (fun _ => if s.fenceOk q then (s.withQueue q (fun x => { x with launches := [] })).retireCmd q irq 1 0 else s)

/-- The index of the next command: in the JUMP buffer or in the ring (R409). -/
def HQueue.index (x : HQueue) : Bool × Int := match x.jump with
  | some j => (true, j.pos)
  | none => (false, (x.rd.toNat : Int))

/-- The reading moves back `n` words (R409). -/
def HQueue.backward (x : HQueue) (n : Nat) : HQueue :=
  match x.jump with
  | some j => { x with jump := some { j with pos := j.pos - n } }
  | none => { x with rd := x.rd - BitVec.ofNat 32 n }

/-- A LOOP whose counter is above 0 (R405, R409): it retires, the counter is decremented and the reading moves back. -/
def State.loopBack (s : State) (q : Nat) (irq : Bool) (back : BitVec 8) (n : Word) : State :=
  let x := s.queue q
  let y := if x.jump.isSome then x else x.advance (x.rd + 1)
  let y := { y.backward back.toNat with loop := some (x.index.1, x.index.2, n - 1) }
  let s := s.withQueue q (fun _ => y)
  if irq then s.vector (q % 64) else s

/-- CMD_LOOP (R409). -/
def execCmdLoop (q : Nat) (irq : Bool) (back : BitVec 8) (count : Word) (s : State) : Result :=
  s.command q (fun _ =>
    let x := s.queue q
    match x.loop with
    | some (b, j, n) =>
      if (b, j) ≠ x.index then s.haltQueue q 6
      else if n = 0 then (s.withQueue q (fun x => { x with loop := none })).retireCmd q irq 1 0
      else s.loopBack q irq back n
    | none => if count = 0 then s.retireCmd q irq 1 0 else s.loopBack q irq back count)

/-- JUMP: the buffer's commands are read from here on; the command retires with the last of them (R407). -/
def execJump (q : Nat) (irq : Bool) (len : BitVec 20) (addr : DWord) (s : State) : Result :=
  s.command q (fun _ =>
    if (s.queue q).jump.isSome then s.haltQueue q 5
    else s.withQueue q (fun x => { x with jump := some { addr := addr, len := len.toNat, pos := 0, irq := irq } }))

/-- The position whose old byte position `i` of an overlapping copy receives after `k` other bytes were written first. -/
def copyFrom (src dst : List Phys) : Nat → Nat → Nat
  | i, 0 => i
  | i, k + 1 => match src[i]? with
    | some p => if dst.contains p then copyFrom src dst (dst.findIdx (· == p)) k else i
    | none => i

/-- The bytes that a copy without any order among its bytes writes (R407): where source and destination overlap, a byte is
read before or after another is written, a free choice. -/
def State.copied (s : State) (q : Nat) (src dst : List Phys) : List Byte :=
  src.mapIdx (fun i p =>
    if dst.contains p then
      let j := copyFrom src dst i (Config.choice s.fresh i % (src.length + 1))
      ((src[j]?).map (s.cmdByte q)).getD 0
    else s.cmdByte q p)

/-- COPYH: every byte is translated first, and nothing is copied when one faults (log entry 13). -/
def State.copyHost (s : State) (q : Nat) (irq : Bool) (dst src count : DWord) (dom : Domain) : State :=
  match s.sysPlaces dom src .read count.toNat, s.sysPlaces dom dst .write count.toNat with
  | .ok a, .ok b =>
    if s.cmdTargets b = false then s.haltQueue q 4
    else match (s.queue q).lacks a with
      | p :: r => s.cmdAsk q (p :: r)
      | [] => ((s.noteCmd dom src count.toNat a).cmdWrite q dst (b.zip (s.copied q a b))).retireWritten q irq 4
  | _, _ => s.haltQueue q 4

/-- COPYH. -/
def execCopyh (q : Nat) (irq : Bool) (dst src count : DWord) (s : State) : Result :=
  s.command q (s.copyHost q irq dst src count)

/-- SETPOW (R410, R411). -/
def execSetpow (q : Nat) (irq : Bool) (sel : BitVec 8) (v : DWord) (s : State) : Result :=
  s.command q (fun _ => match s.setPower sel.toNat v with
    | some s => s.retireCmd q irq 2 0
    | none => s.haltQueue q 7)

/-- REGROUP (R300). -/
def execRegroup (q : Nat) (irq : Bool) (dies : BitVec 4) (us : DWord) (s : State) : Result :=
  s.command q (fun _ =>
    if 20 ≤ us.toNat ∧ us.toNat ≤ 20000 then
      ((List.range 4).foldl (fun s d =>
        if dies.getLsbD d then s.withDie d (fun x => { x with newInterval := some us.toNat }) else s) s).retireCmd q irq 2 0
    else s.haltQueue q 7)

/-- CMD_RESUME (R346): a value outside its range halts the queue; another is written to the die's register. -/
def execCmdResume (q : Nat) (irq : Bool) (die : BitVec 2) (v : DWord) (s : State) : Result :=
  s.command q (fun _ =>
    if v.extractLsb' 34 30 ≠ 0#30 ∨ (v.extractLsb' 32 2).toNat ≥ 2 then s.haltQueue q 7
    else (s.answerFault die.toNat v).retireCmd q irq 2 0)

end Sys2Proof.Machine
end

