-- ==== Sys2Proof/Machine/Management.lean ====
section
/-! DEFINITION. The management processor: package reset and loss of power (R413, R415), the link (R399), host accesses
(R328, R399), attestation (R414). -/

namespace Sys2Proof.Machine

/-! ## Package reset and loss of power -/

/-- Whether an image passes its check against a recorded minimum (R413). -/
def imageOk (i : Image) (least : Word) : Bool := i.signed && decide (least.toNat ≤ i.version.toNat)

/-- The checks of a reset (R413): the configuration record and the Prawin images for the two processors, in that order. -/
def imagesOk (img : ResetImages) (least : Vector Word 3) : Bool :=
  imageOk img.record least[0] && imageOk img.prawinCmd least[1] && imageOk img.prawinMgmt least[2]

/-- What a reset leaves in the management processor (R413): the flash's counters with the events of the last minute, and the
minimums, which rise to the versions of images that pass; images that fail start recovery. -/
def Mgmt.comeUp (m : Mgmt) (img : ResetImages) : Mgmt :=
  let ok := imagesOk img m.minVersion
  { Mgmt.reset with
    recovery := !ok
    images := img
    counters := m.counters
    recent := m.recent
    minVersion := if ok then #v[img.record.version, img.prawinCmd.version, img.prawinMgmt.version] else m.minVersion }

/-- The configuration record after a reset: one that passes its check is used (R3, R413). -/
def CfgRecord.used (c : CfgRecord) (img : ResetImages) (m : Mgmt) : CfgRecord :=
  if imagesOk img m.minVersion then { c with version := img.record.version } else c

/-- The times of the last minute's events when the time base starts again. -/
def Mgmt.earlier (m : Mgmt) (n : Nat) : Mgmt := { m with recent := m.recent.map (fun x => (x.1 - n, x.2)) }

/-- PACKAGE_RESET (R413, R415): flash stays; every register takes its reset value. Memory, with what CCTL has written back there
(R334), and the copies of the majority region keep their contents (log entry 15). A failed check starts recovery; otherwise the
images run, and the minimums rise to their versions. -/
def State.packageReset (s : State) (img : ResetImages) : State :=
  { State.reset with
    inbox := s.inbox, fresh := s.fresh, mem := s.settledMem, memBad := s.memBad, stackUp := s.stackUp, siteUp := s.siteUp
    cfg := s.cfg.used img s.mgmt
    mgmt := (s.mgmt.earlier s.clock.toNat).comeUp img
    keys := { Keystones.reset with copies := s.keys.copies, lost := s.keys.lost, rewritten := s.keys.rewritten
                                   stamps := s.keys.stamps } }

/-- PACKAGE_RESET. -/
def execPackageReset (img : ResetImages) (s : State) : Result := .next (s.packageReset img)

/-- What the events of the last 60 seconds before a time have added to a lifetime counter. -/
def Mgmt.lately (m : Mgmt) (now i : Nat) : Nat :=
  ((m.recent.filter (fun x => decide (x.2.1 = i ∧ (now : Int) - x.1 ≤ recentTicks))).map (·.2.2)).sum

/-- A lifetime counter after a loss of power (R415): what the last 60 seconds added to it may be missing, a free value. -/
def lostCount (m : Mgmt) (now fresh i : Nat) (v : DWord) : DWord :=
  v - BitVec.ofNat 64 (Config.choice fresh i % (min (m.lately now i) v.toNat + 1))

/-- LOSS_OF_POWER (R413, R415): everything but flash ends; the package comes up again with a reset. -/
def execLossOfPower (s : State) : Result :=
  let img := s.mgmt.images
  let m : Mgmt := { s.mgmt with
    counters := s.mgmt.counters.map (fun c => (c.1, lostCount s.mgmt s.clock.toNat s.fresh c.1 c.2)), recent := [] }
  .next { State.reset with inbox := s.inbox, fresh := s.fresh, cfg := s.cfg.used img s.mgmt, mgmt := m.comeUp img }

/-! ## The host's link and its accesses -/

/-- One byte as the memory itself holds it: what CCTL has written back of a pier, else the home's (R334). -/
def State.storedByte (s : State) (p : Phys) : Byte := (s.backByte (memKey p.kind p.pa)).getD (s.sysByte p)


/-- MODULE_TRAINING_FAILURE (R399): the module is left out of the link. -/
def execModuleTrainingFailure (m : BitVec 4) (s : State) : Result :=
  .next { s with mgmt := { s.mgmt with modules := s.mgmt.modules &&& ~~~(1#16 <<< m.toNat) } }

/-- Whether a host access names bytes that the link exposes (R399, R413): HBM, the second tier, host-coherent memory, inside the
space of R370, while the device is not in recovery. -/
def State.hostReaches (s : State) (kind : BitVec 4) (pa n : Nat) : Bool :=
  !s.mgmt.recovery && decide (kind.toNat ≤ 2)
    && (match kindEnd s.cfg kind with
        | some e => decide (pa + n ≤ e)
        | none => true)

/-- HOST_MEMORY_ACCESS (R328): a host agent writes bytes, or reads `len` of them from the memory itself (R334). -/
def execHostMemoryAccess (a : HostAcc) (s : State) : Result :=
  let n := if a.write then a.data.length else a.len
  .next (if s.hostReaches a.kind a.pa.toNat n = false then s
    else if a.write then s.writeHome (memKey a.kind a.pa.toNat) a.data
    else
      let at' := (List.range n).map (fun i => (⟨a.kind, 0, a.pa.toNat + i⟩ : Phys))
      { s.noteWords (s.badAt at') with hostData := at'.map s.storedByte })

/-! ## Attestation (R414) -/

/-- A response placed in the DOE mailbox. -/
def State.answerSpdm (s : State) (r : Spdm) : State := { s with mgmt := { s.mgmt with spdm := some r } }

/-- `w` free bits of a response: item `k` (log entry 16). -/
def State.spdmFree (s : State) (w k : Nat) : BitVec w := BitVec.ofNat w (Config.spdmBits s.fresh k)

/-- GET_VERSION: SPDM 1.3. -/
def execGetVersion (s : State) : Result := .next (s.answerSpdm (.version 0x1300))

/-- GET_CAPABILITIES: certificates, challenges and measurements; no key exchange, no mutual authentication, no SET_CERTIFICATE. -/
def execGetCapabilities (s : State) : Result := .next (s.answerSpdm (.capabilities true true true false false false))

/-- NEGOTIATE_ALGORITHMS: the one signature and the one hash algorithm, when the request offers them; the bits that stand for
them are SPDM's (log entry 16). -/
def execNegotiateAlgorithms (asym hash : Word) (s : State) : Result :=
  .next (s.answerSpdm (.algorithms (asym &&& 0x80) (hash &&& 0x2)))

/-- GET_DIGESTS: slot 0 holds a chain. -/
def execGetDigests (s : State) : Result := .next (s.answerSpdm (.digests 1 (s.spdmFree 384 0)))

/-- The length of the identity chain of slot 0: the device's own, a free constant from 1 to 65,535. -/
def chainLength : Nat := Config.spdmBits 0 (2 ^ 16) % (2 ^ 16 - 1) + 1

/-- Byte `i` of the identity chain: a free constant. -/
def chainByte (i : Nat) : Byte := BitVec.ofNat 8 (Config.spdmBits 0 (2 ^ 16 + 1 + i))

/-- GET_CERTIFICATE: a portion of slot 0's chain. -/
def execGetCertificate (slot : BitVec 8) (ofs len : BitVec 16) (s : State) : Result :=
  let part := min len.toNat (chainLength - ofs.toNat)
  .next (s.answerSpdm (if slot ≠ 0 ∨ chainLength ≤ ofs.toNat then .error
    else .certificate slot ofs (BitVec.ofNat 16 (chainLength - ofs.toNat - part))
      ((List.range part).map (fun i => chainByte (ofs.toNat + i)))))

/-- CHALLENGE: signed with the identity key. -/
def execChallenge (slot : BitVec 8) (_nonce : BitVec 256) (s : State) : Result :=
  .next (s.answerSpdm (if slot = 0 then .challengeAuth slot (s.spdmFree 768 1) else .error))

/-- The measurement blocks that an index asks for: none for 0 (the count alone), one, or all five for 0xFF. -/
def State.blocks (s : State) (index : BitVec 8) : List (BitVec 8 × BitVec 384) :=
  let all : List (BitVec 8) := [1, 2, 3, 4, 5]
  let want := if index = 0xFF then all else all.filter (· == index)
  want.map (fun b => (b, s.spdmFree 384 (16 + b.toNat)))

/-- GET_MEASUREMENTS. -/
def execGetMeasurements (index : BitVec 8) (sign : Bool) (_nonce : BitVec 256) (s : State) : Result :=
  .next (s.answerSpdm (if 5 < index.toNat ∧ index ≠ 0xFF then .error
    else .measurements (s.blocks index) (if sign then some (s.spdmFree 768 2) else none)))

end Sys2Proof.Machine
end

