-- ==== Sys2Proof/Machine/Debugger.lean ====
section
/-! DEFINITION. The debugger: stop, resume, writes (R159, R289, R290), and an unassigned opcode (R50, R52). -/

namespace Sys2Proof.Machine

/-- DEBUGGER_STOP (R289). -/
def execDebuggerStop (w : Nat) (s : State) : Result := .next (s.stopWave w none)

/-- A stopped wave goes on (R289): the entries that the stop captured are re-injected. -/
def State.resumeStopped (s : State) (w : Nat) : State :=
  match s.waves[w]? with
  | none => s
  | some wv =>
    if wv.stopped.isNone then s
    else
      let es := wv.rq.drop wv.stopAt ++ wv.reinj
      -- a split whose wait the debugger deleted arrives if it stands at its reconvergence PC, in a parked wave when it unparks
      let t := wv.table.arriveAt (if wv.parked.isSome then [] else wv.table.idleSlots es) wv.gone (s.checking wv)
      let s := (s.withWave w (fun wv => { wv with
        reinj := es, rq := wv.rq.take wv.stopAt, stopped := none, stopAt := 0, table := t.1 })).unpark w
      let n := s.noWords
      s.raiseMismatch w t.2 n.1 n.2.1 n.2.2

/-- DEBUGGER_RESUME. -/
def execDebuggerResume (w : Nat) (s : State) : Result := .next (s.resumeStopped w)

/-- Whether an entry's destination, or the window of an indirect one, holds register `r` (R290). -/
def RQEntry.covers (e : RQEntry) (r : Nat) : Bool :=
  match e.dst.win with
  | some (b, n) => decide (b ≤ r ∧ r < b + n)
  | none => let b := e.dst.er[(0 : Lane)].toNat
    decide (b ≤ r ∧ r < b + e.dst.n)

/-- Every entry of the wave's level that covers a register deleted (R281, R290). -/
def State.dropCovering (s : State) (w r : Nat) : Nat → State
  | 0 => s
  | n + 1 => match (s.waves[w]?).bind (fun wv => (List.range wv.rq.length).find? (fun i =>
      ((wv.rq[i]?).map (·.covers r)).getD false)) with
    | some i => State.dropCovering (s.deleteEntry w i false) w r n
    | none => s

/-- Whether an entry of the wave, of its level or of a level below, covers a register (R290). -/
def Wave.covered (wv : Wave) (r : Nat) : Bool :=
  wv.rq.any (·.covers r) || wv.saved.any (fun f => f.rq.any (·.covers r))

/-- The entries of the levels below that cover a register deleted (R290). -/
def Wave.dropSaved (wv : Wave) (r : Nat) : Wave :=
  { wv with saved := wv.saved.map (fun f => { f with rq := f.rq.filter (fun e => !e.covers r) }) }

/-- A register of a stopped wave written, full and clean, unless an entry makes the write PENDING (R290). -/
def State.pokeReg (s : State) (w r : Nat) (v : Lanes Word) (force : Bool) : State :=
  match s.waves[w]? with
  | none => s
  | some wv =>
    if wv.vregs ≤ r then s
    else if wv.covered r && !force then { s with dbgPending := true }
    else (s.dropCovering w r wv.rq.length).withWave w (fun wv =>
      (wv.dropSaved r).setReg r { val := v, tag := .gen, full := true, poison := allClean, bad := 0, mirrorBad := 0 })

/-- A debugger write to a stopped wave (R159, R289, R290): each register takes the values that its own instruction would let it
take, the replay queue those of RQWR and RQDEL. -/
def State.poke (s : State) (w : Nat) (wv : Wave) (force : Bool) : DbgTarget → State
  | .reg r v => s.pokeReg w r.toNat v force
  | .window x i v => if i < (wv.xreg x).bound then s.pokeReg w ((wv.xreg x).base + i) v force else s
  | .pred p v => if p = 7 then s else s.withWave w (fun wv => wv.setPred p fullMask v)
  | .desc x v => if descBad v then s else s.withWave w (fun wv => wv.withX x (fun r => { r with desc := v }))
  | .index x v => s.withWave w (fun wv => wv.withX x (fun r => { r with idx := v }))
  | .fctl v => if swrBad .fctl fullMask (fun _ => v) then s else s.withWave w (fun wv => { wv with fctl := v })
  | .fstat v => if swrBad .fstat fullMask (fun L => v[L]) then s else s.withWave w (fun wv => { wv with fstat := v })
  | .rqWord e word v =>
    match wv.entryAt e with
    | some x => if rqWritable x.kind word then s.writeEntry w e word fullMask (fun L => v[L]) else s
    | none => s
  | .rqDelete e cmp => if (wv.entryAt e).isSome then s.deleteEntry w e cmp else s
  | .breakpoints _ => s

/-- DEBUGGER_WRITE: breakpoints of the wave's launch at any time (R224), everything else while the wave is stopped (R289). Its
answer tells whether it was refused with PENDING (R290). -/
def execDebuggerWrite (w : Nat) (t : DbgTarget) (force : Bool) (s : State) : Result :=
  let s := { s with dbgPending := false }
  .next (match s.waves[w]? with
    | none => s
    | some wv => match t with
      | .breakpoints on => s.withLaunch wv.launch (fun l => { l with bkpt := on })
      | t => if wv.stopped.isSome then s.poke w wv force t else s)

/-- A format cause of the word at the issuing split: delivery P, naming its lowest lane (R52, R426). -/
def State.encodingFault (s : State) (c : Cause) (detail : Word) : Result :=
  match s.cur with
  | none => .fault .noIssuer
  | some iss =>
    match (s.waves[iss.wave]?).bind (fun wv => wv.table.split? iss.slot) with
    | none => .fault .noIssuer
    | some sp =>
      .next ({ s with cur := none }.raiseP iss.wave iss.slot sp.pc iss.w0 iss.w1 iss.w2 none
        ⟨c, (Mask.lowest sp.mask).val, detail⟩)

/-- UNASSIGNED_OPCODE (R50, R52): cause 0x001. -/
def execUnassignedOpcode (_w0 _w1 _w2 : Word) (s : State) : Result := s.encodingFault 0x001 0

end Sys2Proof.Machine
end

