-- ==== Sys2Proof/Machine/Exchange.lean ====
section
/-! DEFINITION. Group 8: lane exchange (R231 to R242). -/

namespace Sys2Proof.Machine

/-- Registers of an operand under W64. -/
def wRegs (w64 : Bool) : Nat := if w64 then 2 else 1

/-- A source read whole: a pair under W64. -/
def wUse (fld : Nat) (w64 : Bool) (a : Src) : OpUse :=
  { fld := fld, src := a, n := wRegs w64, elt := .value false (if w64 then 128 else 32) }

/-- The participants (R236): the EXEC lanes at issue, also when a lane is executed again (R232). -/
def Ctx.participants (c : Ctx) : Mask := match c.replay with | some e => e.exec | none => c.exec

/-- What an exchange read of lane `j` delivers (R231), and whether a dead lane supplied it. -/
def supplied (wv : Wave) (mask : Mask) (v : OpVal) (fill : BitVec 128) (fp : Poison) (j : Int) :
    BitVec 128 × Poison × Bool :=
  match wv.supply mask j with
  | .fill => (fill, fp, false)
  | .dead => (0, .clean, true)
  | .lane k => (v.val[k], v.poison[k], false)

/-- Operand 0 replaced by what the exchange supplies to each lane, so that a replay entry holds that; XDEAD set (R231, R232).
`pick` gives each lane's source lane, fill value and fill poison. -/
def exchanged (s : State) (c : Ctx) (pick : Lane → Int × BitVec 128 × Poison) : State × Ctx :=
  match c.replay, s.waves[c.w]? with
  | none, some wv =>
    let mask := ((wv.table.split? c.slot).map (·.mask)).getD 0
    let x (L : Lane) : BitVec 128 × Poison × Bool :=
      let q := pick L
      supplied wv mask (c.src 0) q.2.1 q.2.2 q.1
    let v : OpVal := { c.src 0 with val := perLane fun L => (x L).1, poison := perLane fun L => (x L).2.1 }
    (s.withWave c.w (fun wv => wv.setXdead (lanes.any (fun L => c.exec.has L && (x L).2.2))),
      { c with vals := c.vals.set 0 v })
  | _, _ => (s, c)

/-- The operands of LPICK (R237). -/
def lpickUses (o : LpickOp) : Uses :=
  { srcs := [wUse 1 o.w64 (plainSrc o.a.r o.a.fe), { fld := 2, src := o.b }]
      ++ (match o.c with | some r => [wUse 3 o.w64 (plainSrc r)] | none => [])
    dst := some (o.d, wRegs o.w64) }

/-- The operands of RDLANE (R239). -/
def rdlaneUses (o : RdlaneOp) : Uses :=
  { srcs := [wUse 1 o.w64 (plainSrc o.a.r o.a.fe), { fld := 2, src := o.b, uniform := true }], dst := some (o.d, wRegs o.w64) }

/-- The operands of WRLANE (R239). -/
def wrlaneUses (o : WrlaneOp) : Uses :=
  { srcs := [{ wUse 1 o.w64 o.a with uniform := true }, { fld := 2, src := o.b, uniform := true }]
    dst := some (o.d, wRegs o.w64) }

/-- The operand of MATCH: D names a pair under W64 (R235). -/
def matchUses (o : MatchOp) : Uses := { srcs := [wUse 1 o.w64 o.a], dst := some (o.d, wRegs o.w64) }

/-- The operand of REDUX and SCAN. -/
def reduxUses (o : ReduxOp) : Uses := { srcs := [intUse 1 o.ty o.a], dst := some (o.d, o.ty.regs) }

/-- The operand of MAXIDX. -/
def maxidxUses (o : FPlain) : Uses := { srcs := [fltUse 1 o.ty o.a], dst := some (o.d, 1) }

/-- The operand of POLL with a predicate destination. -/
def pollPredUses (p pa : PNum) : Uses := { srcs := [{ fld := 1, src := predSrc pa }], preds := [pa, p] }

/-- The operand of POLL.M. -/
def pollMaskUses (d : Dst) (pa : PNum) : Uses := { srcs := [{ fld := 1, src := predSrc pa }], dst := some (d, 1), preds := [pa] }

/-- The operand of ELECT. -/
def electUses (d : PNum) : Uses := { preds := [d] }

/-- LPICK (R237). -/
def execLpick (h : Hdr) (o : LpickOp) : State → Result :=
  issue h (lpickUses o) (fun s c =>
    let r := exchanged s c (fun L => ((c.v 1 L).toNat, c.v 2 L, (c.src 2).poison[L]))
    r.1.runLanes r.2 (fun L => { val := r.2.v 0 L }) .gen none
      (some (fun L => (r.2.src 0).poison[L].max (c.src 1).poison[L])))

/-- The result of POLL (R238). -/
def pollResult (m : PollMode) (parts p : Mask) : Bool :=
  match m with
  | .any => decide (parts &&& p ≠ 0)
  | .all => decide (parts &&& ~~~p = 0)
  | .same => decide (parts &&& p = 0) || decide (parts &&& ~~~p = 0)

/-- POLL (R238). -/
def execPoll (h : Hdr) (d : PollDst) (pa : PNum) : State → Result :=
  let bits (c : Ctx) : Mask := maskOf fun L => (c.v 0 L).getLsbD 0
  match d with
  | .pred m p =>
    laneOp h (pollPredUses p pa) Ctx.uniTag (fun _ c _ => { p := pollResult m c.participants (bits c) })
      (some p)
  | .mask d =>
    laneOp h (pollMaskUses d pa) (fun _ => .uni)
      (fun _ c _ => { val := (bits c &&& c.participants).setWidth 128 })

/-- RDLANE (R239). -/
def execRdlane (h : Hdr) (o : RdlaneOp) : State → Result :=
  issue h (rdlaneUses o) (fun s c =>
    let r := exchanged s c (fun _ => ((c.u 1).toNat, 0, .clean))
    r.1.runLanes r.2 (fun L => { val := r.2.v 0 L }) .uni none (some (fun L => (r.2.src 0).poison[L])))

/-- WRLANE (R239): only lane `k`, and only when it is in EXEC. -/
def execWrlane (h : Hdr) (o : WrlaneOp) : State → Result :=
  issue h (wrlaneUses o) (fun s c =>
    let k := (c.u 1).toNat
    let m := maskOf fun L => L.val == k
    s.runLanes { c with exec := c.exec &&& m } (fun L => { val := c.v 0 L }) c.uniTag none
      (some (fun L => (c.src 0).poison[L])))

/-- The highest poison of operand 0 over the lanes of a mask. -/
def Ctx.poisonOver (c : Ctx) (m : Mask) : Poison := (Mask.lanes m).foldl (fun p L => p.max (c.src 0).poison[L]) .clean

/-- MATCH (R240). Under W64 D names a pair (R235); the mask stands in its low register. -/
def execMatch (h : Hdr) (o : MatchOp) : State → Result :=
  laneOp h (matchUses o) (fun _ => if o.all then .uni else .gen)
    (fun _ c L =>
      let same := c.participants &&& maskOf fun M => c.v 0 M == c.v 0 (if o.all then Mask.lowest c.participants else L)
      { val := if o.all then (if same = c.participants then c.participants.setWidth 128 else 0) else same.setWidth 128 })
    none (some (fun c _ => c.poisonOver c.participants))

/-- The identity of a fold (R241). -/
def foldUnit (op : RedOp) (t : IType) : Int :=
  match op with
  | .add | .or | .xor => 0
  | .and => t.read (BitVec.allOnes 128)
  | .min => t.greatest
  | .max => t.least

/-- One step of a fold (R241). -/
def foldStep (op : RedOp) (t : IType) (a b : Int) : Int :=
  let bits (f : BitVec 128 → BitVec 128 → BitVec 128) : Int := t.read (f (BitVec.ofInt 128 a) (BitVec.ofInt 128 b))
  match op with
  | .add => t.read (BitVec.ofInt 128 (a + b))
  | .min => if a ≤ b then a else b
  | .max => if a ≤ b then b else a
  | .and => bits (· &&& ·)
  | .or => bits (· ||| ·)
  | .xor => bits (· ^^^ ·)

/-- The fold over the lanes of a mask in ascending order (R241). -/
def foldLanes (op : RedOp) (t : IType) (c : Ctx) (m : Mask) : Int :=
  (Mask.lanes m).foldl (fun a L => foldStep op t a (t.read (c.v 0 L))) (foldUnit op t)

/-- REDUX (R241). -/
def execRedux (h : Hdr) (o : ReduxOp) : State → Result :=
  laneOp h (reduxUses o) (fun _ => .uni)
    (fun _ c _ => { val := o.ty.write (foldLanes o.op o.ty c c.participants) })
    none (some (fun c _ => c.poisonOver c.participants))

/-- The participants that a lane's SCAN result covers (R241). -/
def scanMask (excl : Bool) (parts : Mask) (L : Lane) : Mask :=
  parts &&& maskOf fun M => decide (if excl then M.val < L.val else M.val ≤ L.val)

/-- SCAN (R241). -/
def execScan (h : Hdr) (o : ReduxOp) : State → Result :=
  laneOp h (reduxUses o) (fun _ => .gen)
    (fun _ c L => { val := o.ty.write (foldLanes o.op o.ty c (scanMask o.excl c.participants L)) })
    none (some (fun c L => c.poisonOver (scanMask o.excl c.participants L)))

/-- The rank of a value (R88, R242): NaNs above every number and equal. -/
def Fmt.rank (f : Fmt) (x : Nat) : Nat := if (f.decode x).isNan then 2 ^ f.w else f.key x

/-- The lane of highest rank, the lowest of equals (R242). -/
def winner (f : Fmt) (c : Ctx) (m : Mask) : Nat :=
  ((Mask.lanes m).foldl (fun b L =>
    let r := f.rank (c.v 0 L).toNat
    match b with
    | some (q, k) => if r > q then some (r, L.val) else some (q, k)
    | none => some (r, L.val)) (none : Option (Nat × Nat))).elim 0 (·.2)

/-- MAXIDX (R242). -/
def execMaxidx (h : Hdr) (o : FPlain) : State → Result :=
  laneOp h (maxidxUses o) (fun _ => .uni)
    (fun _ c _ => { val := BitVec.ofNat 128 (winner (fmtOf o.ty) c c.participants) })
    none (some (fun c _ => c.poisonOver c.participants))

/-- ELECT (R238). -/
def execElect (h : Hdr) (d : PNum) : State → Result :=
  laneOp h (electUses d) Ctx.uniTag (fun _ c L => { p := decide (L = Mask.lowest c.participants) }) (some d)

end Sys2Proof.Machine
end

