-- ==== Sys2Proof/Machine/Random.lean ====
section
/-! DEFINITION. Spring streams (R136 to R140): the generator, RNGSET and RNG. -/

namespace Sys2Proof.Machine

/-- Philox4x32-10 (R137), `n` rounds. -/
def philox : Nat → Word → Word → Word → Word → Word → Word → Word × Word × Word × Word
  | 0, x0, x1, x2, x3, _, _ => (x0, x1, x2, x3)
  | n + 1, x0, x1, x2, x3, k0, k1 =>
    let p0 : DWord := 0xD2511F53 * x0.setWidth 64
    let p1 : DWord := 0xCD9E8D57 * x2.setWidth 64
    philox n (hi32 p1 ^^^ x1 ^^^ k0) (lo32 p1) (hi32 p0 ^^^ x3 ^^^ k1) (lo32 p0) (k0 + 0x9E3779B9) (k1 + 0xBB67AE85)

/-- A lane's block (R136). -/
def springBlock (seed : DWord) (lwave stage : Word) (L : Lane) (ctr : DWord) : BitVec 128 :=
  let r := philox 10 (lo32 ctr) (hi32 ctr) stage 0 (lo32 seed ^^^ lwave) (hi32 seed ^^^ BitVec.ofNat 32 L.val)
  r.2.2.2 ++ r.2.2.1 ++ r.2.1 ++ r.1

/-- The operand of RNGSET, consumed as store data (R140). -/
def rngsetUses (a : Src) : Uses := { srcs := [{ fld := 1, src := a, n := 2, elt := .value false 128, consume := some 1 }] }

/-- The operand of RNG. -/
def rngUses (d : Dst) : Uses := { dst := some (d, 4) }

/-- RNGSET (R139). -/
def execRngset (h : Hdr) (a : Src) : State → Result :=
  issue h (rngsetUses a) (fun s c =>
    (s.withWave c.w (fun wv => { wv with
      ctr := choose c.exec (perLane fun L => (c.v 0 L).setWidth 64) wv.ctr })).finish c 0 c.causes)

/-- Whether RNG makes a captured lane's block again, of the counter that its entry of kind 1 holds (log entry 63); a lane whose
stream was exhausted, or whose first execution failed its residue check, reads its counter anew (R73, R138). -/
def Ctx.redraws (c : Ctx) : Bool := (c.replay.map (fun e => e.kind == 1 && e.cause != 0x183)).getD false

/-- The kind of the entry of lanes that RNG does not finish (R279). -/
def Ctx.rngKind (c : Ctx) (causes : List LaneCause) : BitVec 3 :=
  match mainCause causes with
  | some m => if c.redraws ∨ m.cause = 0x183 then 1 else 0
  | none => 1

/-- The counter of a lane's block. -/
def Ctx.counter (c : Ctx) (wv : Wave) (L : Lane) : DWord :=
  match c.replay with
  | some e => if c.redraws then e.lw[1].v[L] ++ e.lw[0].v[L] else wv.ctr[L]
  | none => wv.ctr[L]

/-- RNG (R138): every lane's counter is advanced and its block is in flight; an exhausted stream traps. -/
def execRng (h : Hdr) (d : Dst) : State → Result :=
  issue h (rngUses d) (fun s c =>
    match s.waves[c.w]? with
    | none => s
    | some wv =>
      let seed := ((s.launchOf wv).map (·.record.seed)).getD 0
      let stage := BitVec.ofNat 32 (((s.groupOf wv).map (·.stage)).getD 0)
      let a := s.residueFails c
      let bad : Mask := maskOf fun L => (c.exec &&& ~~~causeMask a.2).has L && !c.redraws && decide (wv.ctr[L] = 0xFFFFFFFFFFFFFFFF)
      let m := c.exec &&& ~~~bad &&& ~~~causeMask a.2
      let ctr : Lanes DWord := perLane fun L => c.counter wv L
      let causes := c.causes ++ a.2 ++ (Mask.lanes bad).map (fun L => ⟨L, 6, 0x183, 0⟩)
      let s := a.1.withWave c.w (fun wv => { wv with
        ctr := if c.redraws then wv.ctr else choose m (perLane fun L => wv.ctr[L] + 1) wv.ctr })
      let s := s.fly c 1 m ctr { known := m, val := perLane fun L => springBlock seed wv.lwave stage L ctr[L], poison := allClean }
        (!causes.isEmpty)
      s.finish c (c.rngKind causes) causes)

end Sys2Proof.Machine
end

