-- ==== Sys2Proof/Machine/Dispatch.lean ====
section
/-! DEFINITION. One arm for every instruction and every other step of the package: its meaning. -/

namespace Sys2Proof.Machine

/-- The effect of an instruction or step `i` in state `s`. -/
def exec (i : Instr) (s : State) : Host.Outcome State Fault Refusal :=
  match i with
  -- group 0: control and system (10)
  | .nop h => Sys2Proof.Machine.execNop h s
  | .bra h f => Sys2Proof.Machine.execBra h f s
  | .brc h z c f => Sys2Proof.Machine.execBrc h z c f s
  | .brx h sig rofs b => Sys2Proof.Machine.execBrx h sig rofs b s
  | .call h sig link t => Sys2Proof.Machine.execCall h sig link t s
  | .ret h sig rofs b => Sys2Proof.Machine.execRet h sig rofs b s
  | .loop h c f => Sys2Proof.Machine.execLoop h c f s
  | .sync h => Sys2Proof.Machine.execSync h s
  | .sealB h sig => Sys2Proof.Machine.execSeal h sig s
  | .exit h sig => Sys2Proof.Machine.execExit h sig s
  | .yield h => Sys2Proof.Machine.execYield h s
  | .trap h n => Sys2Proof.Machine.execTrap h n s
  | .rtt h retry skip nosig => Sys2Proof.Machine.execRtt h retry skip nosig s
  | .bkpt h tag => Sys2Proof.Machine.execBkpt h tag s
  | .srd h w64 d n => Sys2Proof.Machine.execSrd h w64 d n s
  | .swr h r a => Sys2Proof.Machine.execSwr h r a s
  -- group 1: integer (05)
  | .iadd h o => Sys2Proof.Machine.execIadd h o s
  | .iaddI h o => Sys2Proof.Machine.execIaddI h o s
  | .isub h o => Sys2Proof.Machine.execIsub h o s
  | .iaddc h o => Sys2Proof.Machine.execIaddc h o s
  | .isubb h o => Sys2Proof.Machine.execIsubb h o s
  | .imul h o => Sys2Proof.Machine.execImul h o s
  | .imulh h o => Sys2Proof.Machine.execImulh h o s
  | .imad h o => Sys2Proof.Machine.execImad h o s
  | .imadw h o => Sys2Proof.Machine.execImadw h o s
  | .idiv h o => Sys2Proof.Machine.execIdiv h o s
  | .irem h o => Sys2Proof.Machine.execIrem h o s
  | .iabs h o => Sys2Proof.Machine.execIabs h o s
  | .ineg h o => Sys2Proof.Machine.execIneg h o s
  | .imin h o => Sys2Proof.Machine.execImin h o s
  | .imax h o => Sys2Proof.Machine.execImax h o s
  | .iadd3 h o => Sys2Proof.Machine.execIadd3 h o s
  | .isad h o => Sys2Proof.Machine.execIsad h o s
  | .lea h o => Sys2Proof.Machine.execLea h o s
  -- group 2: logic and bits (05)
  | .blut h o => Sys2Proof.Machine.execBlut h o s
  | .blutI h o => Sys2Proof.Machine.execBlutI h o s
  | .shl h o => Sys2Proof.Machine.execShl h o s
  | .shr h o => Sys2Proof.Machine.execShr h o s
  | .sar h o => Sys2Proof.Machine.execSar h o s
  | .rot h o => Sys2Proof.Machine.execRot h o s
  | .funl h o => Sys2Proof.Machine.execFunl h o s
  | .bfe h o => Sys2Proof.Machine.execBfe h o s
  | .bfi h o => Sys2Proof.Machine.execBfi h o s
  | .popc h o => Sys2Proof.Machine.execPopc h o s
  | .clz h o => Sys2Proof.Machine.execClz h o s
  | .ctz h o => Sys2Proof.Machine.execCtz h o s
  | .brev h o => Sys2Proof.Machine.execBrev h o s
  | .bsel h o => Sys2Proof.Machine.execBsel h o s
  -- group 3: compare, select, move, shape (05)
  | .mov h o => Sys2Proof.Machine.execMov h o s
  | .movi h o => Sys2Proof.Machine.execMovi h o s
  | .sel h o => Sys2Proof.Machine.execSel h o s
  | .icmp h o => Sys2Proof.Machine.execIcmp h o s
  | .icmpI h o => Sys2Proof.Machine.execIcmpI h o s
  | .fcmp h o => Sys2Proof.Machine.execFcmp h o s
  | .plut h o => Sys2Proof.Machine.execPlut h o s
  | .psave h d => Sys2Proof.Machine.execPsave h d s
  | .pload h mask a => Sys2Proof.Machine.execPload h mask a s
  | .shape h u d a => Sys2Proof.Machine.execShape h u d a s
  | .affine h d a b => Sys2Proof.Machine.execAffine h d a b s
  -- group 4: FP64 (06)
  | .dadd h o => Sys2Proof.Machine.execDadd h o s
  | .dmul h o => Sys2Proof.Machine.execDmul h o s
  | .dfma h o => Sys2Proof.Machine.execDfma h o s
  | .ddiv h o => Sys2Proof.Machine.execDdiv h o s
  | .dsqrt h o => Sys2Proof.Machine.execDsqrt h o s
  | .dmin h o => Sys2Proof.Machine.execDmin h o s
  | .dmax h o => Sys2Proof.Machine.execDmax h o s
  | .drint h o => Sys2Proof.Machine.execDrint h o s
  | .dscalb h o => Sys2Proof.Machine.execDscalb h o s
  | .dgetexp h o => Sys2Proof.Machine.execDgetexp h o s
  | .dgetmant h o => Sys2Proof.Machine.execDgetmant h o s
  | .dclass h o => Sys2Proof.Machine.execDclass h o s
  -- group 5: FP32 and 16-bit (06)
  | .fadd h o => Sys2Proof.Machine.execFadd h o s
  | .fmul h o => Sys2Proof.Machine.execFmul h o s
  | .ffma h o => Sys2Proof.Machine.execFfma h o s
  | .fdiv h o => Sys2Proof.Machine.execFdiv h o s
  | .fsqrt h o => Sys2Proof.Machine.execFsqrt h o s
  | .fmin h o => Sys2Proof.Machine.execFmin h o s
  | .fmax h o => Sys2Proof.Machine.execFmax h o s
  | .frint h o => Sys2Proof.Machine.execFrint h o s
  | .fscalb h o => Sys2Proof.Machine.execFscalb h o s
  | .fclass h o => Sys2Proof.Machine.execFclass h o s
  | .frcp h o => Sys2Proof.Machine.execFrcp h o s
  | .frsq h o => Sys2Proof.Machine.execFrsq h o s
  | .fex2 h o => Sys2Proof.Machine.execFex2 h o s
  | .flg2 h o => Sys2Proof.Machine.execFlg2 h o s
  | .fsin h o => Sys2Proof.Machine.execFsin h o s
  | .fcos h o => Sys2Proof.Machine.execFcos h o s
  -- group 6: conversion, dot products, streams (06)
  | .cvt h o => Sys2Proof.Machine.execCvt h o s
  | .cvtp h o => Sys2Proof.Machine.execCvtp h o s
  | .cvtn h o => Sys2Proof.Machine.execCvtn h o s
  | .unpk h o => Sys2Proof.Machine.execUnpk h o s
  | .dp2 h o => Sys2Proof.Machine.execDp2 h o s
  | .dp4 h o => Sys2Proof.Machine.execDp4 h o s
  | .dp8 h o => Sys2Proof.Machine.execDp8 h o s
  | .fmtset h o => Sys2Proof.Machine.execFmtset h o s
  | .fmtget h d => Sys2Proof.Machine.execFmtget h d s
  | .rngset h a => Sys2Proof.Machine.execRngset h a s
  | .rng h d => Sys2Proof.Machine.execRng h d s
  -- group 7: index registers (07)
  | .xset h x z a => Sys2Proof.Machine.execXset h x z a s
  | .xidx h x a => Sys2Proof.Machine.execXidx h x a s
  | .xrd h x b d => Sys2Proof.Machine.execXrd h x b d s
  | .xadd h x a => Sys2Proof.Machine.execXadd h x a s
  | .xclr h mask => Sys2Proof.Machine.execXclr h mask s
  -- group 8: lane exchange (12)
  | .lpick h o => Sys2Proof.Machine.execLpick h o s
  | .poll h d pa => Sys2Proof.Machine.execPoll h d pa s
  | .rdlane h o => Sys2Proof.Machine.execRdlane h o s
  | .wrlane h o => Sys2Proof.Machine.execWrlane h o s
  | .matchI h o => Sys2Proof.Machine.execMatch h o s
  | .redux h o => Sys2Proof.Machine.execRedux h o s
  | .scan h o => Sys2Proof.Machine.execScan h o s
  | .maxidx h o => Sys2Proof.Machine.execMaxidx h o s
  | .elect h d => Sys2Proof.Machine.execElect h d s
  -- group 9: loads and stores (09)
  | .ld h o => Sys2Proof.Machine.execLd h o s
  | .st h o => Sys2Proof.Machine.execSt h o s
  | .lds h o => Sys2Proof.Machine.execLds h o s
  | .sts h o => Sys2Proof.Machine.execSts h o s
  | .ldt h o => Sys2Proof.Machine.execLdt h o s
  | .stt h o => Sys2Proof.Machine.execStt h o s
  | .ldu h o => Sys2Proof.Machine.execLdu h o s
  | .pref h o => Sys2Proof.Machine.execPref h o s
  -- group A: atomics and ordering (09)
  | .atom h o => Sys2Proof.Machine.execAtom h o s
  | .atoms h o => Sys2Proof.Machine.execAtoms h o s
  | .cas h o => Sys2Proof.Machine.execCas h o s
  | .cass h o => Sys2Proof.Machine.execCass h o s
  | .red h o => Sys2Proof.Machine.execRed h o s
  | .fence h o => Sys2Proof.Machine.execFence h o s
  | .cctl h o => Sys2Proof.Machine.execCctl h o s
  | .otsync h scope => Sys2Proof.Machine.execOtsync h scope s
  -- group B: engines and majority (09, 23)
  | .copy h o => Sys2Proof.Machine.execCopy h o s
  | .copyo h o => Sys2Proof.Machine.execCopyo h o s
  | .bclose h mtx d => Sys2Proof.Machine.execBclose h mtx d s
  | .bwait h mtx a => Sys2Proof.Machine.execBwait h mtx a s
  | .btest h mtx d a => Sys2Proof.Machine.execBtest h mtx d a s
  | .mld h o => Sys2Proof.Machine.execMld h o s
  | .mst h o => Sys2Proof.Machine.execMst h o s
  -- group C: matrix (13)
  | .tcfg h t a => Sys2Proof.Machine.execTcfg h t a s
  | .tld h t lw => Sys2Proof.Machine.execTld h t lw s
  | .tst h t lw => Sys2Proof.Machine.execTst h t lw s
  | .tzero h t => Sys2Proof.Machine.execTzero h t s
  | .mma h o => Sys2Proof.Machine.execMma h o s
  | .mmab h o => Sys2Proof.Machine.execMmab h o s
  | .acz h ac => Sys2Proof.Machine.execAcz h ac s
  | .acld h o => Sys2Proof.Machine.execAcld h o s
  | .acst h o => Sys2Proof.Machine.execAcst h o s
  | .acrd h o => Sys2Proof.Machine.execAcrd h o s
  | .btake h => Sys2Proof.Machine.execBtake h s
  | .bpass h b => Sys2Proof.Machine.execBpass h b s
  | .bqry h d => Sys2Proof.Machine.execBqry h d s
  -- group D: synchronisation, spans, tasks, traps (15, 16, 21)
  | .barinit h n a => Sys2Proof.Machine.execBarinit h n a s
  | .bar h n token => Sys2Proof.Machine.execBar h n token s
  | .bara h n d => Sys2Proof.Machine.execBara h n d s
  | .bardrop h n => Sys2Proof.Machine.execBardrop h n s
  | .barjoin h n => Sys2Proof.Machine.execBarjoin h n s
  | .spanh h frz d => Sys2Proof.Machine.execSpanh h frz d s
  | .spanq h d a => Sys2Proof.Machine.execSpanq h d a s
  | .spanfrz h d a => Sys2Proof.Machine.execSpanfrz h d a s
  | .spanthaw h a => Sys2Proof.Machine.execSpanthaw h a s
  | .spawn h o => Sys2Proof.Machine.execSpawn h o s
  | .join h d => Sys2Proof.Machine.execJoin h d s
  | .sdone h => Sys2Proof.Machine.execSdone h s
  | .rqrd h e w d => Sys2Proof.Machine.execRqrd h e w d s
  | .rqwr h e w a => Sys2Proof.Machine.execRqwr h e w a s
  | .rqdel h e cmp => Sys2Proof.Machine.execRqdel h e cmp s
  | .kill h a => Sys2Proof.Machine.execKill h a s
  | .qend h => Sys2Proof.Machine.execQend h s
  -- steps of the memory system, the engines and the Wellhead
  | .memoryResponse w k race err src => Sys2Proof.Machine.execMemoryResponse w k race err src s
  | .translationFault w => Sys2Proof.Machine.execTranslationFault w s
  | .copyOperationComplete k => Sys2Proof.Machine.execCopyOperationComplete k s
  | .matrixOperationComplete c => Sys2Proof.Machine.execMatrixOperationComplete c s
  | .groupPlacement l => Sys2Proof.Machine.execGroupPlacement l s
  | .preemption t => Sys2Proof.Machine.execPreemption t s
  | .evictedWaveReturn w => Sys2Proof.Machine.execEvictedWaveReturn w s
  | .joinResume w => Sys2Proof.Machine.execJoinResume w s
  | .launchCompletion l => Sys2Proof.Machine.execLaunchCompletion l s
  | .regroupIntervalEnd die plan => Sys2Proof.Machine.execRegroupIntervalEnd die plan s
  | .quantumEnd w => Sys2Proof.Machine.execQuantumEnd w s
  | .watchdogExpiry w seconds => Sys2Proof.Machine.execWatchdogExpiry w seconds s
  -- the majority cells
  | .majAccessStart k => Sys2Proof.Machine.execMajAccessStart k s
  | .majTagReply k copy => Sys2Proof.Machine.execMajTagReply k copy s
  | .majCopyStore m => Sys2Proof.Machine.execMajCopyStore m s
  | .majLoadAnswer k copy => Sys2Proof.Machine.execMajLoadAnswer k copy s
  | .lossOfQuorum k => Sys2Proof.Machine.execLossOfQuorum k s
  | .scrubStep set cell => Sys2Proof.Machine.execScrubStep set cell s
  | .stackUnreachable tier n => Sys2Proof.Machine.execStackUnreachable tier n s
  | .stackReturn tier n lost => Sys2Proof.Machine.execStackReturn tier n lost s
  -- the Viaduct fabric
  | .rtoExpiry p => Sys2Proof.Machine.execRtoExpiry p s
  | .rectoExpiry p => Sys2Proof.Machine.execRectoExpiry p s
  | .ackTimer p => Sys2Proof.Machine.execAckTimer p s
  | .ackOnly f => Sys2Proof.Machine.execAckOnly f s
  | .remoteRead f => Sys2Proof.Machine.execRemoteRead f s
  | .remoteWrite f => Sys2Proof.Machine.execRemoteWrite f s
  | .remoteAtomic f => Sys2Proof.Machine.execRemoteAtomic f s
  | .readResponse f => Sys2Proof.Machine.execReadResponse f s
  | .writeResponse f => Sys2Proof.Machine.execWriteResponse f s
  | .atomicResponse f => Sys2Proof.Machine.execAtomicResponse f s
  | .errorResponse f => Sys2Proof.Machine.execErrorResponse f s
  | .streamReset f => Sys2Proof.Machine.execStreamReset f s
  | .resetAcknowledge f => Sys2Proof.Machine.execResetAcknowledge f s
  | .peerpWrite p v => Sys2Proof.Machine.execPeerpWrite p v s
  | .portLinkChange b up => Sys2Proof.Machine.execPortLinkChange b up s
  -- host commands
  | .cmdNop q irq len => Sys2Proof.Machine.execCmdNop q irq len s
  | .launch q irq rec => Sys2Proof.Machine.execLaunch q irq rec s
  | .launchi q irq rec grid => Sys2Proof.Machine.execLaunchi q irq rec grid s
  | .waitv q irq t => Sys2Proof.Machine.execWaitv q irq t s
  | .signal q irq add w64 addr value => Sys2Proof.Machine.execSignal q irq add w64 addr value s
  | .cmdFence q irq => Sys2Proof.Machine.execCmdFence q irq s
  | .cmdLoop q irq back count => Sys2Proof.Machine.execCmdLoop q irq back count s
  | .ifv q irq t skip => Sys2Proof.Machine.execIfv q irq t skip s
  | .jump q irq len addr => Sys2Proof.Machine.execJump q irq len addr s
  | .copyh q irq dst src count => Sys2Proof.Machine.execCopyh q irq dst src count s
  | .setpow q irq sel v => Sys2Proof.Machine.execSetpow q irq sel v s
  | .regroup q irq dies us => Sys2Proof.Machine.execRegroup q irq dies us s
  | .cmdResume q irq die v => Sys2Proof.Machine.execCmdResume q irq die v s
  -- window writes
  | .qtailWrite q v => Sys2Proof.Machine.execQtailWrite q v s
  | .qrestart q v => Sys2Proof.Machine.execQrestart q v s
  | .qcfgWrite q v => Sys2Proof.Machine.execQcfgWrite q v s
  | .qbaseWrite q v => Sys2Proof.Machine.execQbaseWrite q v s
  | .queueSwitch q on => Sys2Proof.Machine.execQueueSwitch q on s
  | .fqheadWrite die v => Sys2Proof.Machine.execFqheadWrite die v s
  | .fqbaseWrite die size v => Sys2Proof.Machine.execFqbaseWrite die size v s
  | .resume die v => Sys2Proof.Machine.execResume die v s
  | .tlbinv die v => Sys2Proof.Machine.execTlbinv die v s
  | .repsetWrite n v => Sys2Proof.Machine.execRepsetWrite n v s
  | .rebaseGo v => Sys2Proof.Machine.execRebaseGo v s
  | .aclkWrite v => Sys2Proof.Machine.execAclkWrite v s
  | .pauseWrite v => Sys2Proof.Machine.execPauseWrite v s
  | .registerWrite off v => Sys2Proof.Machine.execRegisterWrite off v s
  -- power, reset, link, host agents, SPDM
  | .powerOver watts => Sys2Proof.Machine.execPowerOver watts s
  | .powerUnder watts => Sys2Proof.Machine.execPowerUnder watts s
  | .thermalStateChange core hot => Sys2Proof.Machine.execThermalStateChange core hot s
  | .packageReset img => Sys2Proof.Machine.execPackageReset img s
  | .moduleTrainingFailure m => Sys2Proof.Machine.execModuleTrainingFailure m s
  | .hostMemoryAccess a => Sys2Proof.Machine.execHostMemoryAccess a s
  | .negotiateAlgorithms asym hash => Sys2Proof.Machine.execNegotiateAlgorithms asym hash s
  | .getCertificate slot ofs len => Sys2Proof.Machine.execGetCertificate slot ofs len s
  | .challenge slot nonce => Sys2Proof.Machine.execChallenge slot nonce s
  | .getMeasurements index sign nonce => Sys2Proof.Machine.execGetMeasurements index sign nonce s
  -- debugger, and the remaining steps
  | .debuggerStop w => Sys2Proof.Machine.execDebuggerStop w s
  | .debuggerResume w => Sys2Proof.Machine.execDebuggerResume w s
  | .debuggerWrite w t force => Sys2Proof.Machine.execDebuggerWrite w t force s
  | .unassignedOpcode w0 w1 w2 => Sys2Proof.Machine.execUnassignedOpcode w0 w1 w2 s
  | .majStoreAnswer k copy accept => Sys2Proof.Machine.execMajStoreAnswer k copy accept s
  | .epochCounterReset die => Sys2Proof.Machine.execEpochCounterReset die s
  | .discardedFrame f => Sys2Proof.Machine.execDiscardedFrame f s
  -- steps without operands: of the first die or tree for which the step is due
  | .regroupInstall => Sys2Proof.Machine.execRegroupInstall s
  | .quantumBoundary => Sys2Proof.Machine.execQuantumBoundary s
  | .tlbinvDone => Sys2Proof.Machine.execTlbinvDone s
  | .rebaseComplete => Sys2Proof.Machine.execRebaseComplete s
  | .energyWindowStart => Sys2Proof.Machine.execEnergyWindowStart s
  | .getVersion => Sys2Proof.Machine.execGetVersion s
  | .getCapabilities => Sys2Proof.Machine.execGetCapabilities s
  | .getDigests => Sys2Proof.Machine.execGetDigests s
  | .lossOfPower => Sys2Proof.Machine.execLossOfPower s

end Sys2Proof.Machine
end

