-- ==== Sys2Proof/Machine/Issue.lean ====
section
/-! DEFINITION. What happens between instructions: the choice of the next split (R169 to R175), its fetch (R29, R348), the
re-injection of replay entries (R283), and the events that the package itself makes due. -/

namespace Sys2Proof.Machine

/-! ## Time and waits -/

/-- A single-bit error that a read of the step corrects is counted: of a stack, or of a pool word (R168, R371, R415); of a site of the
second tier under the model's own index, since R415 gives none (log entry 12). -/
def State.correctOne (s : State) (i : Nat) : State :=
  if (0x200 ≤ i ∧ i < 0x20C) ∨ i = 0x222 ∨ (0x10010 ≤ i ∧ i < 0x10020) then s.count i else s

/-- One step of the model: the time base counts (R68), the free values of the step are new, the single-bit errors of its reads
are corrected. -/
def State.advance (s : State) : State :=
  (s.corrected.headD []).foldl State.correctOne
    { s with fresh := s.fresh + 1, clock := s.clock + BitVec.ofNat 64 (s.ticks.headD 1), ticks := s.ticks.drop 1
             corrected := s.corrected.drop 1, waited := false }

/-- Waits of a resident wave end outside a tree (R273, R252, R204), a trap or a stop that has awaited results is made (R276,
R289), a wave whose children are not complete swaps out (R363), and a cause that has waited for the wave is taken. A retired wave
leaves its group's barriers once its accesses are performed (R254, R317). Nothing of a wave that is to park, or to take a trap, moves
on until then (R276, R341). -/
def State.tidyWave (s : State) (w : Nat) : State :=
  match s.waves[w]? with
  | none => s
  | some wv =>
    if wv.life ≠ .resident then s.depart w
    else
      let s : State := if s.det wv || wv.faulting.isSome || !wv.entering.isEmpty then s else s.wakeWave w
      let s := ((s.settleTrap w).settleStop w).settleArrivals w
      let s : State := match s.waves[w]? with
        | some wv =>
          if wv.life = .resident ∧ wv.stopped = none ∧ wv.stopping = none
              ∧ (wv.joining.map s.allComplete).getD true = false then s.swapOut w else s
        | none => s
      s.takePending w

/-- Outside a tree the next stage of a group becomes eligible (R360); a group whose waves have all swapped out or retired is
saved (R363). -/
def State.tidyGroup (s : State) (g : Nat) : State :=
  let det := ((s.groups[g]?).bind (fun x => s.launches[x.launch]?)).bind (·.tree)
  (if det.isSome then s else s.settleStage g).saveIdle g

/-- Every wave, then every group, then the limit of power. -/
def State.tidy (s : State) : State :=
  let s := (List.range s.waves.length).foldl State.tidyWave s
  ((List.range s.groups.length).foldl State.tidyGroup s).holdPower

/-! ## Ready splits (R169, R170, R283) -/

/-- A split, or an entry to be re-injected, that may issue. -/
structure Cand where
  wave : Nat
  slot : Nat
  replay : Option RQEntry
  deriving DecidableEq, Repr

/-- Whether a wave may issue: it is on a core that issues, not parked, swapped out or stopped, and enters no trap (R169, R276,
R301, R341, R411). -/
def State.mayIssue (s : State) (wv : Wave) : Bool :=
  decide (wv.life = .resident) && wv.place.isSome && wv.faulting.isNone && wv.parked.isNone && wv.stopped.isNone
    && wv.entering.isEmpty && wv.stopping.isNone && wv.joining.isNone && decide (s.power.pause = 0)
    && (match ((s.dies[wv.die']?).getD Die.reset).regroup with
        | some r => !r.affected.contains (wv.coreNo % 64)
        | none => true)

/-- The candidates of a wave: entries still to be re-injected come first (R283); a wave whose quantum has ended issues nothing
else (R393), nor does a split whose child a boundary is still to accept (R361). -/
def State.candsOf (s : State) (w : Nat) : List Cand :=
  match s.waves[w]? with
  | none => []
  | some wv =>
    if s.mayIssue wv then
      match wv.reinj with
      | e :: _ => [⟨w, e.slot, some e⟩]
      | [] =>
        if s.det wv && wv.qended then []
        else (List.range 4).filterMap (fun k => match wv.table.split? k with
          | some sp => if sp.wait.isNone ∧ sp.mask &&& wv.heldLanes = 0 then some ⟨w, k, none⟩ else none
          | none => none)
    else []

/-- Every candidate. -/
def State.cands (s : State) : List Cand := (List.range s.waves.length).flatMap s.candsOf

/-- Where a quadrant keeps the split last picked in a wave: in a tree one for each trap level, so that the level below goes on with
the split that was running (R175). -/
def State.lastKey (s : State) (det : Bool) (w : Nat) : Nat :=
  4 * w + if det then ((s.waves[w]?).map (·.level)).getD 0 else 0

/-- The place of a candidate's wave. -/
def State.placeOf (s : State) (c : Cand) : PlaceW := ((s.waves[c.wave]?).bind (·.place)).getD ⟨0, 0, 0⟩

/-- The element of least key, the first of several. -/
def leastBy {α : Type} (key : α → Nat) : List α → Option α
  | [] => none
  | x :: r => match leastBy key r with
    | none => some x
    | some y => if key y < key x then some y else some x

/-- A quadrant of a core. -/
def State.quadAt (s : State) (core quad : Nat) : Quad := ((s.coreAt core).quads[quad]?).getD Quad.idle

/-- A quadrant changed. -/
def State.withQuad (s : State) (core quad : Nat) (f : Quad → Quad) : State :=
  s.withCore core (fun c => { c with quads := c.quads.setIfInBounds quad (f ((c.quads[quad]?).getD Quad.idle)) })

/-- The model's order of issue opportunities: cores in turn, and the quadrants of a core in turn. -/
def State.turnKey (s : State) (c : Cand) : Nat :=
  let p := s.placeOf c
  (p.core + 256 - s.nextCore % 256) % 256 * 4 + (p.quad + 4 - (s.coreAt p.core).nextQuad % 4) % 4

/-! ## Fetch and issue -/

/-- The transfer of the baton that a JOIN taken up again makes in a tree (R256, R397). -/
def State.resumeJoin (s : State) (w : Nat) : Option Wait → State
  | some (.join js _ _ _) => s.joinLeaves w js
  | some (.bar _ _ _) | some .baton | some (.batch _ _) | none => s

/-- A re-injected wait (R283): the split waits again, and nothing arrives; in a tree the wave's quantum ends again. A ninth
unfinished instruction waits (R278). -/
def State.resumeWait (s : State) (w : Nat) (e : RQEntry) : State :=
  match s.waves[w]? with
  | none => s
  | some wv =>
    let wv := { wv with reinj := wv.reinj.drop 1 }
    match wv.table.split? e.slot with
    | none => s.withWave w (fun _ => wv)
    | some _ =>
      if 8 ≤ wv.flights.length then s.stay
      else (s.withWave w (fun _ => (wv.withSplit e.slot (fun sp => { sp with wait := e.wait })).addFlight
        (fun id => .idle id e e.dst))).endByWait w e.slot |>.resumeJoin w e.wait

/-- A fetch that no page grants: the wave is to park without an entry (R348). -/
def State.fetchFault (s : State) (w slot : Nat) (sp : Split) (dom : BitVec 16) (va : DWord) (c : Cause) : State :=
  match s.waves[w]? with
  | none => s
  | some wv =>
    (s.dropLeaf wv.die' dom va c).withWave w (fun wv => { wv with
      faulting := some { lanes := [((Mask.lowest sp.mask).val, va, c)], access := 3, entry := none, flight := none, pc := sp.pc, slot := slot } })

/-- What a fetched word makes the split execute: its instruction, or its lowest encoding cause with the detail word, FMT for a
cause that FMT decides (R52, R54, R56). -/
def decodeFor (fmt : BitVec 10) (w : IWord) : Except (Cause × Word) Instr :=
  match decode w with
  | .ok i => .ok i
  | .error c =>
    let d := lowestCause ((parse w).val.fmtFaults fmt) c
    .error (if d.toNat < c.toNat then (d, fmt.setWidth 32) else (c, 0))

/-- A word executed by the split that has been set to issue. -/
def State.execWord (s : State) (fmt : BitVec 10) (w0 w1 w2 : Word) : Result :=
  match decodeFor fmt (w2 ++ w1 ++ w0) with
  | .ok i => exec i s
  | .error c => s.encodingFault c.1 c.2

/-- The state in which a split issues a word. -/
def State.issuing (s : State) (w slot : Nat) (w0 w1 w2 : Word) (replay : Option RQEntry) : State :=
  { s with cur := some ⟨w, slot, w0, w1, w2, replay⟩ }

/-- A split's next instruction fetched and executed (R29, R52, R348). -/
def State.issueSplit (s : State) (w slot : Nat) : Result :=
  match s.waves[w]? with
  | none => .next s
  | some wv =>
    match wv.table.split? slot, s.launchOf wv with
    | some sp, some l =>
      match s.fetch wv.die' l sp.pc with
      | .words w0 w1 w2 x => ((s.learn wv.die' x).issuing w slot w0 w1 w2 none).execWord sp.fmt w0 w1 w2
      | .fault va c => .next (s.fetchFault w slot sp l.domain.id va c)
      | .offCode =>
        let n := s.noWords
        .next (s.raiseP w slot sp.pc n.1 n.2.1 n.2.2 none ⟨0x0A7, (Mask.lowest sp.mask).val, sp.pc⟩)
    | _, _ => .next s

/-- A picked split issues, or an entry is re-injected. -/
def State.issueCand (s : State) (c : Cand) : Result :=
  match c.replay with
  | some e =>
    if e.kind = 5 then .next (s.resumeWait c.wave e)
    else (s.issuing c.wave c.slot e.w0 e.w1 e.w2 (some e)).execWord e.fmt e.w0 e.w1 e.w2
  | none => s.issueSplit c.wave c.slot

/-! ## The pick (R170, R174, R175) -/

/-- Whether a candidate has issued in the round. -/
def Quad.issued (q : Quad) (c : Cand) : Bool := q.round.contains (c.wave, c.slot)

/-- Whether a candidate's split has executed YIELD in the round (R222). -/
def State.yieldedAt (s : State) (c : Cand) : Bool :=
  (((s.waves[c.wave]?).bind (fun wv => wv.table.split? c.slot)).map (·.yielded)).getD false

/-- The role priority of a candidate's wave (R354). -/
def State.prioOf (s : State) (c : Cand) : Nat :=
  ((s.waves[c.wave]?).bind (fun wv => ((s.launchOf wv).bind (fun l => l.record.roles[wv.role]?)).map (·.prio))).getD 0

/-- The keys of R170, the first of them most significant. -/
def State.rank (s : State) (q : Quad) (c : Cand) : Nat :=
  let p := s.placeOf c
  let one (b : Bool) : Nat := if b then 1 else 0
  let past := match lookupN (s.lastKey false c.wave) q.last with | some k => k + 1 | none => 0
  (((one (q.issued c) * 2 + one (s.yieldedAt c)) * 4 + (3 - s.prioOf c)) * 16 + (p.slot + 16 - q.ptr % 16) % 16) * 4
    + (c.slot + 4 - past % 4) % 4

/-- The marks of a round cleared in a quadrant (R170, R222). -/
def State.newRound (s : State) (core quad : Nat) : State :=
  let s := s.withQuad core quad (fun q => { q with round := [] })
  { s with waves := s.waves.map (fun wv =>
      if wv.place.map (fun p => (p.core, p.quad)) = some (core, quad) then
        let slots := wv.table.slots.map (fun (o : Option Split) => o.map (fun sp => { sp with yielded := false }))
        { wv with table := { wv.table with slots := slots } }
      else wv) }

/-- Whether a candidate is ready (R169): its next instruction waits neither on an empty register nor on a lock, nor on anything
else that holds its issue. -/
def State.ready (s : State) (c : Cand) : Bool :=
  match s.issueCand c with
  | .next t => !t.waited
  | .fault _ | .refused _ => true

/-- The first pick of a quadrant in normal mode (R170) among its ready splits, with the quadrant's marks. -/
def State.pickNormal (s : State) (core quad : Nat) (cs : List Cand) : Option (Cand × State) :=
  let s := if cs.all (s.quadAt core quad).issued then s.newRound core quad else s
  (leastBy (s.rank (s.quadAt core quad)) cs).map (fun c =>
    (c, s.withQuad core quad (fun q => { q with
      round := q.round ++ [(c.wave, c.slot)], ptr := ((s.placeOf c).slot + 1) % 16, last := insertN (s.lastKey false c.wave) c.slot q.last })))

/-- The LWAVE of a candidate's wave. -/
def State.lwaveOf (s : State) (c : Cand) : Nat := ((s.waves[c.wave]?).map (·.lwave.toNat)).getD 0

/-- The split of a wave of a tree that issues (R175): the one that issues now goes on, after a switch point the next in ascending
table position. A handler's splits take their own turns: the level below goes on where it stood. -/
def State.detSplit (s : State) (q : Quad) (on : Bool) (w : Nat) (cs : List Cand) : Option Cand :=
  let from' := match lookupN (s.lastKey true w) q.last with
    | some k => if on then k else k + 1
    | none => 0
  leastBy (fun (c : Cand) => (c.slot + 4 - from' % 4) % 4) (cs.filter (fun c => c.wave == w))

/-- The pick of a quadrant that runs waves of a tree (R174, R175): the running wave keeps the quadrant, else it passes to the next
in ascending LWAVE that can proceed, the lower wave number among equals (log entry 21); a wait on an empty register or a lock
passes issue to no other split. -/
def State.pickDet (s : State) (core quad : Nat) (cs : List Cand) : Option (Cand × State) :=
  let q := s.quadAt core quad
  let c : Option Cand := match q.det with
    | some w => s.detSplit q true w cs
    | none => leastBy (fun (c : Cand) => (s.lwaveOf c + 2 ^ 32 - q.ptr) % 2 ^ 32)
        (((cs.map (·.wave)).eraseDups).filterMap (fun w => s.detSplit q false w cs))
  (c.filter s.ready).map (fun c => (c, s.withQuad core quad (fun q => { q with
    det := some c.wave, ptr := s.lwaveOf c + 1
    last := if c.replay.isSome then q.last else insertN (s.lastKey true c.wave) c.slot q.last })))

/-- The pick of a quadrant, none where no split of it is ready. -/
def State.pickQuad (s : State) (core quad : Nat) (cs : List Cand) : Option (Cand × State) :=
  if cs.any (fun c => ((s.waves[c.wave]?).map s.det).getD false) then s.pickDet core quad cs
  else match cs.filter s.ready with
    | [] => none
    | c :: r => s.pickNormal core quad (c :: r)

/-- The next issue among candidates: the pick of the quadrant whose turn it is, or of the next in turn that has one. -/
def State.pickAmong (s : State) (cs : List Cand) : Nat → Option (Cand × State)
  | 0 => none
  | n + 1 => match leastBy s.turnKey cs with
    | none => none
    | some c0 =>
      let p := s.placeOf c0
      let here (c : Cand) : Bool := (s.placeOf c).core == p.core && (s.placeOf c).quad == p.quad
      match s.pickQuad p.core p.quad (cs.filter here) with
      | some (c, t) => some (c, { t.withCore p.core (fun k => { k with nextQuad := (p.quad + 1) % 4 }) with
          nextCore := (p.core + 1) % 256 })
      | none => State.pickAmong s (cs.filter (fun c => !here c)) n

/-! ## The second pick (R171), and two causes in one cycle (R277) -/

/-- The issue classes (R160). -/
inductive IssueClass | ar | xc | me | en | ct
  deriving DecidableEq, Repr

/-- The issue class of an instruction, by the group of its opcode (R160). -/
def issueClass (w2 : Word) : IssueClass :=
  let g := (w2.extractLsb' 28 4).toNat
  if 1 ≤ g ∧ g ≤ 7 then .ar else if g = 8 then .xc else if 9 ≤ g ∧ g ≤ 11 then .me else if g = 12 then .en else .ct

/-- The last word of a candidate's next instruction, where it can be fetched. -/
def State.nextWord (s : State) (c : Cand) : Option Word :=
  match c.replay with
  | some e => some e.w2
  | none => match s.waves[c.wave]? with
    | none => none
    | some wv => match wv.table.split? c.slot, s.launchOf wv with
      | some sp, some l => match s.fetch wv.die' l sp.pc with
        | .words _ _ w2 _ => some w2
        | .offCode | .fault _ _ => none
      | _, _ => none

/-- Whether a candidate's next instruction is of another issue class than `k` (R171). -/
def State.otherClass (s : State) (k : IssueClass) (d : Cand) : Bool :=
  ((s.nextWord d).map (fun w => decide (issueClass w ≠ k))).getD false

/-- The second pick of a quadrant beside its first, `c` of class `k`: the first in rank of the ready splits of another class, with
the quadrant's marks (R171); none in a tree (R175). -/
def State.second (s : State) (c : Cand) (k : IssueClass) : Option (Cand × State) :=
  let p := s.placeOf c
  let here (d : Cand) : Bool := (s.placeOf d).core == p.core && (s.placeOf d).quad == p.quad
  let ds := s.cands.filter (fun d => here d && decide ((d.wave, d.slot) ≠ (c.wave, c.slot)) && s.otherClass k d && s.ready d)
  if ((s.waves[c.wave]?).map s.det).getD false then none
  else (leastBy (s.rank (s.quadAt p.core p.quad)) ds).map (fun d =>
    (d, s.withQuad p.core p.quad (fun q => { q with
      round := q.round ++ [(d.wave, d.slot)], last := insertN (s.lastKey false d.wave) d.slot q.last })))

/-- Whether a cause leaves its split at the instruction, or its lanes in an entry and the split at the next one without an arrival:
only such a cause can wait for the trap of another split. -/
def TrapInfo.stays (t : TrapInfo) (slot : Nat) (sp : Split) : Bool :=
  decide (t.slot = slot ∧ t.pc = sp.pc)
    && (t.resume == some sp.pc || (t.resume == some (sp.pc + 12) && t.entry.isSome && decide (sp.pc + 12 ≠ sp.rpc)))

/-- Two splits of a wave issue in the same cycle and both raise a cause: the first takes the trap, the second's lanes stay as an
entry (R277). None where they do not both raise one, or where both could not stay unfinished (R278): the two then issue one after
the other. -/
def State.issuePair (s : State) (c d : Cand) : Option State :=
  if c.replay.isSome || d.replay.isSome || decide (7 ≤ ((s.waves[c.wave]?).map (·.flights.length)).getD 0) then none else
  match (s.withWave c.wave (fun wv => { wv with pair := true })).issueCand c with
  | .fault _ | .refused _ => none
  | .next t => match t.waves[c.wave]? with
    | none => none
    | some v => match v.table.split? d.slot, v.entering with
      | some sp, [_] => match t.issueCand d with
        | .fault _ | .refused _ => none
        | .next u => match (u.waves[c.wave]?).map (·.entering) with
          | some [_, e] =>
            if e.stays d.slot sp then some ((u.withWave c.wave (fun wv => { wv with pair := false })).settleTrap c.wave) else none
          | _ => none
      | _, _ => none

/-- A second pick issues after the first, where it still can. -/
def State.issueNext (s : State) (d : Cand) : Result :=
  if (s.candsOf d.wave).contains d && s.ready d then { s with waited := false }.issueCand d else .next s

/-- Two picks of one cycle. -/
def State.issueBoth (s : State) (c d : Cand) : Result :=
  match if d.wave = c.wave then s.issuePair c d else none with
  | some t => .next t
  | none => match s.issueCand c with
    | .next t => t.issueNext d
    | .fault f => .fault f
    | .refused r => .refused r

/-- The first pick and, under `+dual`, the next instruction of its split where that is of another class (R171). -/
def State.issueDual (s : State) (c : Cand) (w2 : Word) : Result :=
  let at' (t : State) : Option Word := ((t.waves[c.wave]?).bind (fun wv => wv.table.split? c.slot)).map (·.pc)
  match s.issueCand c with
  | .next t =>
    if (hdrOf (w2 ++ (0 : BitVec 64))).dual = true ∧ c.replay = none ∧ at' t = (at' s).map (· + 12) ∧ t.otherClass (issueClass w2) c = true
    then t.issueNext c else .next t
  | .fault f => .fault f
  | .refused r => .refused r

/-- A pick issues; `n` says whether a second pick issues in the same cycle: 0 none, 1 of another split, 2 the next instruction of
the same split. -/
def State.issueTurn (s : State) (n : Nat) (c : Cand) : Result :=
  match n, s.nextWord c with
  | 1, some w2 => match s.second c (issueClass w2) with
    | some (d, t) => t.issueBoth c d
    | none => s.issueCand c
  | 2, some w2 => s.issueDual c w2
  | _, _ => s.issueCand c

/-- The next issue. -/
def State.pick (s : State) : Option (Cand × State) := s.pickAmong s.cands s.cands.length

/-! ## The package's own events -/

/-- The steps of waves that may be due. -/
def State.waveEvents (s : State) (w : Nat) : List Instr :=
  match s.waves[w]? with
  | none => []
  | some wv =>
    if wv.life = .retired then []
    else (if wv.faulting.isSome then [.translationFault w] else [])
      ++ (wv.flights.filter (fun f => f.entry.kind != 5)).map (fun f => .memoryResponse w f.id 0 0 0)
      ++ (if wv.life = .joined then [.joinResume w] else [])
      ++ (if wv.life = .evicted then [.evictedWaveReturn w] else [])
      ++ (if s.det wv then [.quantumEnd w] else [])

/-- The steps of a majority access that may be due. -/
def State.majEvents (s : State) (k : Nat) : List Instr :=
  match s.keys.accs[k]? with
  | none => []
  | some a =>
    let copies := List.range (repN (s.repset a.setNo))
    match a.phase with
    | .held => [.majAccessStart k]
    | .query | .write =>
      (match a.kind with
        | .load | .entry _ _ _ => copies.map (fun i => .majLoadAnswer k i)
        | .store _ _ => copies.map (fun i => .majTagReply k i))
      ++ a.answers.map (fun x => .majStoreAnswer k x.1 x.2)
    | .done => a.answers.map (fun x => .majStoreAnswer k x.1 x.2)

/-- The steps that may be due, in the order in which the model takes them. -/
def State.events (s : State) : List Instr :=
  (List.range s.waves.length).flatMap s.waveEvents
    ++ (List.range s.copies.length).map (fun k => .copyOperationComplete ⟨k, 0⟩)
    ++ (s.cores.filter (fun k => !k.2.mq.isEmpty)).map (fun k => .matrixOperationComplete ⟨k.1, 0⟩)
    ++ (List.range s.keys.accs.length).flatMap s.majEvents
    ++ (List.range s.keys.msgs.length).map (fun m => .majCopyStore m)
    ++ [.rebaseComplete, .tlbinvDone, .regroupInstall, .quantumBoundary]
    ++ (List.range s.launches.length).map (fun l => .launchCompletion l)
    ++ (match s.choosePlacement with | some x => [.groupPlacement x.1] | none => [])
    ++ (List.range s.copies.length).map (fun k => .copyOperationComplete ⟨k, 1⟩)
    ++ (s.cores.filter (fun k => !k.2.mq.isEmpty)).map (fun k => .matrixOperationComplete ⟨k.1, 1⟩)

/-- The state after a step that has an effect. -/
def State.effect (s : State) (i : Instr) : Option State :=
  match exec i s with
  | .next t => if t = s then none else some t
  | .fault _ | .refused _ => none

/-- A command that a queue has run leaves the queue elsewhere than it stood: the uncorrectable words among those of the command, as
they stood in `o`, are counted once (R415). -/
def State.noteRing (t o : State) (q : Nat) : State :=
  let x := o.queue q
  let y := t.queue q
  match o.queueDomain q with
  | none => t
  | some dom =>
    if x.index = y.index ∧ x.pending = y.pending ∧ y.live = true then t
    else
      let len := match o.queueWord dom q 0 with
        | .ok h => (h.extractLsb' 52 4).toNat
        | .error _ => 1
      (List.range len).foldl (fun t k => match o.sysPlaces dom (x.wordAddr k) .read 8 with
        | .ok l => t.noteCmd dom (x.wordAddr k) 8 l
        | .error _ => t) t

/-- What the command processor does next for a queue. -/
def State.queueEffect (s : State) (q : Nat) : Option State :=
  match s.turn q with
  | .idle => none
  | .checked => some (s.withQueue q (fun x => { x with unchecked := false }))
  | .stop e => some (s.haltQueue q e)
  | .ask l => some (s.cmdAsk q l)
  | .run i => (s.effect i).map (fun t => t.noteRing s q)

/-- The next event that the package makes of itself. -/
def State.event (s : State) : Option State :=
  match s.events.findSome? s.effect with
  | some t => some t
  | none => (s.queues.map (·.1)).findSome? s.queueEffect

/-- The `k`th of the events that are due, if it has one. -/
def State.eventAt (s : State) : Nat → Option State
  | 0 => s.event
  | k + 1 => ((s.events.filterMap s.effect) ++ (s.queues.map (·.1)).filterMap s.queueEffect)[k + 1]?

end Sys2Proof.Machine
end

