-- ==== Sys2Proof/Machine/Loader.lean ====
section
/-! DEFINITION. An instruction placed from outside where the next step fetches, for a program that is loaded from outside the
package (log entry 17). -/

namespace Sys2Proof.Machine

/-- The launch record of the placed program. -/
def loaderRecord : LRecord :=
  { codeBase := 0, codeSize := 12, entry := 0, handler := 0, partition := 0x00204082, prio := 0, energy := 0, spawnDepth := 4
    det := false, sig := false, mirrorOff := true, quantum := 0, gridX := 1, gridY := 1, gridZ := 1, stages := 1, groupW := 1
    scratch := 16384, tarn := 64, accum := 1, seed := 0, roles := [⟨1, 0, 256⟩], arg := 0, done := 0 }

/-- Its domain, with tables from physical address 0x1000. -/
def loaderDomain : Domain := { id := 0, root := 0x1000, otBase := 0, otSize := 0, valid := true, save := 0 }

/-- Tables that map virtual page 0 to physical page 5 with every right. -/
def loaderTables (m : Mem) : Mem :=
  (((m.writeN 0x1000 8 0x2001).writeN 0x2000 8 0x3001).writeN 0x3000 8 0x4001).writeN 0x4000 8 0x5079

/-- A core that holds wave `w` and group `g` of the placed program. -/
def loaderCore (w g : Nat) : Core :=
  let mine (o : Owner) (b : Bool) : Granule := { owner := some o, doms := Vector.replicate 8 (some 0), bytes := Vector.replicate 8 b, gen := 0 }
  { Core.idle with
    partition := loaderRecord.partition
    granules := [(0, mine (.wave w) false), (1, mine (.wave w) false), (2, mine (.group g) true), (3, mine (.group g) true)]
    tarn := [(0, w)], tileDom := some 0, otDom := some 0 }

/-- The group of the placed program. -/
def loaderGroup (l w : Nat) : Group :=
  { Group.fresh l 0 0 with
    life := .placed, core := some 0, waves := [w], scr := [2], acc := [3], tileFile := true
    barriers := (Group.fresh l 0 0).barriers.set 0 { mem := 1, arr := 0, phase := false, flips := 0 } }

/-- A launch of one wave whose code region is the one instruction, running alone: the other waves are stopped. The memory of its
tables and its code answers. -/
def State.loadAlone (s : State) (v : Nat) : State :=
  let l := s.launches.length
  let g := s.groups.length
  let w := s.waves.length
  let wv := { Wave.start l g 0 0 (0, ⟨1, 0, 256⟩) loaderRecord 0 ([], []) with life := .resident, place := some ⟨0, 0, 0⟩ }
  let held : List Wave := s.waves.map (fun x => { x with stopped := some none })
  let run : Launch := { Launch.fresh loaderRecord loaderDomain 0 0 0 none none 0 true with nextGl := 1 }
  let s : State := { s with
    waves := held ++ [wv], groups := s.groups ++ [loaderGroup l w], launches := s.launches ++ [run]
    mem := (loaderTables s.mem).writeN 0x5000 12 v, nextCore := 0
    memBad := s.memBad.filter (fun w => !decide (0x400 ≤ w ∧ w < 0x1800)), stackUp := s.stackUp ||| 0x03E }
  (s.withCore 0 (fun _ => loaderCore w g)).withDie 0 (fun d => { d with tlb := [], tables := [] })

/-- Where the next step fetches the three words of a split's instruction, when it fetches from this package's memory. -/
def State.fetchKeys (s : State) : Option (Nat × Nat × Nat) :=
  match s.pick with
  | some (⟨w, slot, none⟩, t) =>
    match t.waves[w]? with
    | none => none
    | some wv => match wv.table.split? slot, t.launchOf wv with
      | some sp, some l =>
        let va (i : Nat) : DWord := l.record.codeBase + BitVec.ofNat 64 (sp.pc.toNat + 4 * i)
        let at' (i : Nat) : Option Nat := match (t.translate wv.die' l.domain (va i) .fetch).1 with
          | .ok p => if p.kind.toNat ≤ 2 ∧ s.sound p.kind p.pa 4 = true then some (memKey p.kind p.pa) else none
          | .error _ => none
        if sp.pc.toNat % 12 ≠ 0 ∨ sp.pc.toNat ≥ l.record.codeSize.toNat then none
        else match at' 0, at' 1, at' 2 with
          | some a, some b, some c => some (a, b, c)
          | _, _, _ => none
      | _, _ => none
  | _ => none

/-- The state whose next step fetches and runs the instruction `v`: it is stored where a split fetches next, or, where none
fetches or the split would have to wait with it, a launch that holds it is loaded. -/
def State.loadWord (s : State) (v : Nat) : State :=
  let on : Power := { s.power with pause := 0 }
  let s : State := { s with inbox := [], devTurn := false, order := [], power := on, dies := s.dies.map (fun d => { d with regroup := none }) }
  match s.advance.tidy.fetchKeys with
  | some (a, b, c) =>
    let t := { s with mem := ((s.mem.writeN a 4 (v % 2 ^ 32)).writeN b 4 (v / 2 ^ 32 % 2 ^ 32)).writeN c 4 (v / 2 ^ 64) }
    if t.advance.tidy.fetchKeys = some (a, b, c) then t else s.loadAlone v
  | none => s.loadAlone v

end Sys2Proof.Machine
end

