-- ==== Sys2Proof/Machine/Step.lean ====
section
/-! DEFINITION. One step of the package: an event from outside, an event that the package makes due, or the issue of one
instruction; and an instruction put where the next step fetches. -/

namespace Sys2Proof.Machine

/-- The issue of one instruction of one split, or of two in one cycle (R171), or, when no split is ready, an event of the package. -/
def State.issueStep (s : State) : Host.Outcome State Fault Refusal :=
  match s.pick with
  | some (c, t) => { t with devTurn := true }.issueTurn (s.nextCore / 256) c
  | none => .next (if s.devTurn then { s with devTurn := false } else (s.event).getD s)

/-- What the order of steps says of this one: whether an event happens, and which, and the core whose turn it is. -/
def State.turnOf (s : State) : Nat × Nat := s.order.headD (if s.devTurn then 1 else 0, s.nextCore % 256)

/-- One step. -/
def step (s : State) : Host.Outcome State Fault Refusal :=
  match s.inbox with
  | i :: rest => exec i { s.advance with inbox := rest }
  | [] =>
    let o := s.turnOf
    let t := { s.advance.tidy with order := s.order.drop 1, nextCore := o.2 }
    match (match o.1 with | 0 => none | k + 1 => t.eventAt k) with
    | some u => .next { u with devTurn := false }
    | none => t.issueStep

/-- `s` with the instruction whose bits are `w` put where the next step fetches. -/
def State.withFetchWord (s : State) (nbits w : Nat) : State := s.loadWord (w % 2 ^ (min nbits 96))

end Sys2Proof.Machine
end

