-- ==== Sys2Proof/Safety.lean ====
section
/-! DEFINITION. The terms that statements are made in: who issues an instruction and when nothing stands in its way, what its
operands are, what an instruction that completes leaves, and the invariants of the state. -/

namespace Sys2Proof.Machine

/-- A destination as an instruction field gives it. -/
structure RDst.Ok (d : RDst) : Prop where
  pos : 0 < d.n
  direct : d.ind = false → ∀ L : Lane, d.er[L] = d.er[(0 : Lane)]
  elt : d.ind = true → d.elt = none

end Sys2Proof.Machine

namespace Sys2Proof.Safety

open Sys2Proof.Machine

/-! ## Invariants -/

/-- Package memory is in canonical form (R10, R370). -/
def MemOk (s : State) : Prop := s.mem.wf

/-! ## An instruction at issue -/

/-- A split that issues: its wave and slot, the instruction's words, and the wave and the split as they stand. -/
structure Site where
  w : Nat
  slot : Nat
  w0 : Word
  w1 : Word
  w2 : Word
  wv : Wave
  sp : Split

/-- EXEC (R26): the split's live lanes in which the guard holds. -/
def Site.exec (x : Site) (h : Hdr) : Mask := execMask x.wv x.sp h

/-- The split of `x`, which waits for nothing, issues an instruction for the first time (it is no re-injection). -/
structure Issues (s : State) (x : Site) : Prop where
  cur : s.cur = some ⟨x.w, x.slot, x.w0, x.w1, x.w2, none⟩
  wave : s.waves[x.w]? = some x.wv
  split : x.wv.table.split? x.slot = some x.sp
  place : x.slot < 4
  alive : x.wv.life ≠ .retired
  lanes : x.sp.mask ≠ 0
  idle : x.sp.wait = none ∧ ∀ f ∈ x.wv.flights, f.entry.kind = 5 → f.entry.slot ≠ x.slot

/-- Nothing stands in the way of an instruction with guard `h` and operands `u`: its FMT is one it accepts (R56), it waits for
nothing (R63, R151, R194, R278), no check of issue fails (R58, R61, R63, R69, R146), no register it reads holds an uncorrectable
word (R168), no value it consumes is poisoned (R65), and no residue check is failing (R73). -/
structure Clear (s : State) (x : Site) (h : Hdr) (u : Uses) : Prop where
  issues : Issues s x
  fmt : u.fmt = []
  ready : x.wv.blocked (x.exec h) h u = false
  free : u.hold s.taken x.w = false
  legal : x.wv.issueFault (x.exec h) u = none
  whole : ∀ r ∈ x.wv.sourceRegs (x.exec h) u, (x.wv.reg r).bad = 0
  allowed : u.illegal (x.exec h) (u.srcs.map (s.readSrc x.wv x.sp (x.exec h))) = none
  clean : ∀ p ∈ u.srcs, p.consume.isSome = true → ∀ L : Lane, (x.exec h &&& u.part).has L = true →
    (s.readSrc x.wv x.sp (x.exec h) p).poison[L] = .clean
  sound : s.residue = none

/-- The split does not reach its reconvergence point, or checking is disabled, so that its arrival raises no mismatch (R211,
R214). -/
def NoMismatch (s : State) (x : Site) : Prop := x.sp.pc + 12 ≠ x.sp.rpc ∨ s.checking x.wv = false

/-- Operand `k` of an instruction in lane `L`. -/
def operand (s : State) (x : Site) (h : Hdr) (u : Uses) (k : Nat) (L : Lane) : BitVec 128 :=
  ((u.srcs[k]?).map (fun p => (s.readSrc x.wv x.sp (x.exec h) p).val[L])).getD 0

/-- Operand `k` as a word. -/
def operandW (s : State) (x : Site) (h : Hdr) (u : Uses) (k : Nat) (L : Lane) : Word := wordOf (operand s x h u k L) 0

/-- Operand `k` in the lowest EXEC lane: a uniform operand. -/
def uniform (s : State) (x : Site) (h : Hdr) (u : Uses) (k : Nat) : BitVec 128 := operand s x h u k (Mask.lowest (x.exec h))

/-- A uniform operand as a word. -/
def uniformW (s : State) (x : Site) (h : Hdr) (u : Uses) (k : Nat) : Word := wordOf (uniform s x h u k) 0

/-- The effective registers of the destination. -/
def Site.dst (x : Site) (u : Uses) : RDst := x.wv.readDst u.dst

/-! ## What an instruction leaves -/

/-- Of the state, nothing has changed but the waves, the issue bookkeeping of the cores and the instruction being issued; no
wave but `w` has changed, no byte of memory, of a pool or of a tile file, and no special register of the wave's launch or
group. -/
structure OnlyWave (s t : State) (w : Nat) : Prop where
  rest : ∃ ws cs, t = { s with cur := none, waves := ws, cores := cs }
  others : ∀ v, v ≠ w → t.waves[v]? = s.waves[v]?
  memory : ∀ a, t.mem.read a = s.mem.read a
  pools : ∀ k, (t.coreAt k).pool = (s.coreAt k).pool ∧ (t.coreAt k).tiles = (s.coreAt k).tiles

/-- An instruction whose own effect has made the wave `wv1` retires, and the wave is `wv2`: the index registers have stepped (R148),
the split goes on at the next instruction unless that is its reconvergence point (R211), with its opcode in the block's signature
(R213), QRETIRED counts (R393), and every other field stands as the effect left it. -/
structure Retires (x : Site) (h : Hdr) (u : Uses) (wv1 wv2 : Wave) : Prop where
  fields : ∃ xr tb q, wv2 = { wv1 with xregs := xr, table := tb, qretired := wv1.qretired + 1, qended := q }
  steps : wv2.xregs = (wv1.stepAll (x.exec h) u.steps).xregs
  goesOn : x.sp.pc + 12 ≠ x.sp.rpc → ∀ sp1, wv1.table.split? x.slot = some sp1 → wv2.table.split? x.slot = some
    { sp1 with pc := x.sp.pc + 12, hash := if u.checking then sp1.hash else sigUpdate sp1.hash (x.w2.extractLsb' 22 10) }

/-- A value stands in a destination in lane `L`: whole registers, low word first, or an element whose neighbours keep their
bits (R36, R39). -/
def Landed (old new : Wave) (d : RDst) (L : Lane) (v : BitVec 128) : Prop :=
  match d.elt with
  | none => ∀ i, i < d.n → (new.reg (d.er[L].toNat + i)).val[L] = wordOf v i
  | some (e, i) => (new.reg d.er[L].toNat).val[L] = insertElt e i (old.reg d.er[L].toNat).val[L] (wordOf v 0)

/-- Whether a destination writes register `r` in lane `L`. -/
def Covers (d : RDst) (r : Nat) (L : Lane) : Prop :=
  d.er[L].toNat ≤ r ∧ r < d.er[L].toNat + (if d.elt.isSome then 1 else d.n)

/-- The effect of an instruction computed lane by lane in the lanes `m`: `out` is each of those lanes' result, flags and predicate
bit. `wv1` is the wave after it: in the lanes `m` D holds the results, FSTAT has gained the flags and predicate `pd` holds the
bits; every other register, lane, predicate and field is as before. (Bit 7 of lane 0's FSTAT, XDEAD, tells of operands that
dead lanes supplied; it is no flag of the result.) -/
structure LaneEffect (x : Site) (u : Uses) (m : Mask) (out : Lane → LaneOut) (pd : Option PNum) (wv1 : Wave) : Prop where
  fields : ∃ rs ps fs, wv1 = { x.wv with regs := rs, preds := ps, fstat := fs }
  value : u.dst.isSome = true → ∀ L, m.has L = true → Landed x.wv wv1 (x.dst u) L (out L).val
  others : ∀ r (L : Lane), m.has L = false ∨ u.dst = none ∨ ¬Covers (x.dst u) r L → (wv1.reg r).val[L] = (x.wv.reg r).val[L]
  pred : ∀ p L, (wv1.pred p).has L = if pd = some p ∧ p ≠ 7 ∧ m.has L = true then (out L).p else (x.wv.pred p).has L
  flags : ∀ L : Lane, L ≠ 0 → wv1.fstat[L] = x.wv.fstat[L] ||| (if m.has L then (out L).flags.setWidth 32 else 0)
  flags0 : wv1.fstat[(0 : Lane)] &&& 0x7F
    = (x.wv.fstat[(0 : Lane)] ||| (if m.has 0 then (out 0).flags.setWidth 32 else 0)) &&& 0x7F

/-- An instruction completes as a lane-by-lane operation in the lanes `m`: it answers a next state in which its effect is whole
and it has retired. -/
def CompletesIn (m : Mask) (i : Instr) (s : State) (x : Site) (h : Hdr) (u : Uses) (out : Lane → LaneOut) (pd : Option PNum) :
    Prop :=
  ∃ t wv1 wv2, exec i s = .next t ∧ LaneEffect x u m out pd wv1 ∧ Retires x h u wv1 wv2
    ∧ t.waves[x.w]? = some wv2 ∧ OnlyWave s t x.w

/-- An instruction completes as a lane-by-lane operation in its EXEC lanes. -/
def CompletesLanes (i : Instr) (s : State) (x : Site) (h : Hdr) (u : Uses) (out : Lane → LaneOut) (pd : Option PNum) : Prop :=
  CompletesIn (x.exec h) i s x h u out pd

/-- Every instruction `mk h o` with operands `u` completes lane by lane with the results `out`, at every site where nothing stands
in its way and `ok` holds in each EXEC lane. -/
def LaneResult {O : Type} (mk : Hdr → O → Instr) (u : Site → Hdr → O → Uses) (ok : State → Site → Hdr → O → Lane → Prop)
    (out : State → Site → Hdr → O → Lane → LaneOut) (pd : O → Option PNum) : Prop :=
  ∀ s x h o, Clear s x h (u x h o) → NoMismatch s x → (∀ L, (x.exec h).has L = true → ok s x h o L)
    → CompletesLanes (mk h o) s x h (u x h o) (out s x h o) (pd o)

/-- The wave `wv0` is the issuing wave once its operands have been read: XDEAD alone may have been set (R231). -/
def HasRead (x : Site) (wv0 : Wave) : Prop :=
  ∃ fs, wv0 = { x.wv with fstat := fs } ∧ (∀ L : Lane, L ≠ 0 → fs[L] = x.wv.fstat[L])
    ∧ fs[(0 : Lane)] &&& 0x7F = x.wv.fstat[(0 : Lane)] &&& 0x7F

/-- An instruction completes with the effect `eff` on its wave and none outside it: it answers a next state in which that effect is
whole and it has retired. -/
def CompletesWith (i : Instr) (s : State) (x : Site) (h : Hdr) (u : Uses) (eff : Wave → Wave) : Prop :=
  ∃ t wv0 wv2, exec i s = .next t ∧ HasRead x wv0 ∧ Retires x h u (eff wv0) wv2 ∧ t.waves[x.w]? = some wv2 ∧ OnlyWave s t x.w

/-! ## Results in the rules' own terms -/

/-- A value clamped to a type's range (R100). -/
def clampTo (t : IType) (v : Int) : Int := max t.least (min t.greatest v)

/-- An integer result (R96, R97): wrapped to the type, or clamped under SAT with flag IOV when clamping changed it. -/
def narrowed (t : IType) (sat : Bool) (v : Int) : LaneOut :=
  { val := t.write (if sat then clampTo t v else v), flags := if sat = true ∧ clampTo t v ≠ v then flIOV else 0 }

/-- No overflow trap is due (R78, R97): the result needs no clamping, or FCTL.IOVE is 0. -/
def NoOverflowTrap (fctl : Word) (t : IType) (sat : Bool) (v : Int) : Prop :=
  sat = true → clampTo t v ≠ v → trapOn fctl 6 = false

/-- Operand `k` of an instruction as a value of a type (R95). -/
def intOperand (s : State) (x : Site) (h : Hdr) (u : Uses) (t : IType) (k : Nat) (L : Lane) : Int := t.read (operand s x h u k L)

/-- Operand `k` of an instruction as a natural number. -/
def natOperand (s : State) (x : Site) (h : Hdr) (u : Uses) (k : Nat) (L : Lane) : Nat := (operand s x h u k L).toNat

/-- An integer instruction of two sources computes `f` of them and narrows it. -/
def IntTwo (mk : Hdr → IntOp → Instr) (f : IType → Int → Int → Int) : Prop :=
  LaneResult mk (fun _ _ o => int2Uses o)
    (fun s x h o L => NoOverflowTrap x.wv.fctl o.ty o.sat
      (f o.ty (intOperand s x h (int2Uses o) o.ty 0 L) (intOperand s x h (int2Uses o) o.ty 1 L)))
    (fun s x h o L => narrowed o.ty o.sat
      (f o.ty (intOperand s x h (int2Uses o) o.ty 0 L) (intOperand s x h (int2Uses o) o.ty 1 L)))
    (fun _ => none)

/-- An integer instruction of one source computes `f` of it and narrows it. -/
def IntOne (mk : Hdr → IntUn → Instr) (f : Int → Int) : Prop :=
  LaneResult mk (fun _ _ o => int1Uses o)
    (fun s x h o L => NoOverflowTrap x.wv.fctl o.ty o.sat (f (intOperand s x h (int1Uses o) o.ty 0 L)))
    (fun s x h o L => narrowed o.ty o.sat (f (intOperand s x h (int1Uses o) o.ty 0 L)))
    (fun _ => none)

/-- An integer instruction of three sources computes `f` of them and narrows it. -/
def IntThree (mk : Hdr → IntTri → Instr) (f : Int → Int → Int → Int) : Prop :=
  LaneResult mk (fun _ _ o => int3Uses o)
    (fun s x h o L => NoOverflowTrap x.wv.fctl o.ty o.sat (f (intOperand s x h (int3Uses o) o.ty 0 L)
      (intOperand s x h (int3Uses o) o.ty 1 L) (intOperand s x h (int3Uses o) o.ty 2 L)))
    (fun s x h o L => narrowed o.ty o.sat (f (intOperand s x h (int3Uses o) o.ty 0 L)
      (intOperand s x h (int3Uses o) o.ty 1 L) (intOperand s x h (int3Uses o) o.ty 2 L)))
    (fun _ => none)

/-- An instruction of group 2 with two sources computes `f` of the width, A as unsigned bits and the single B (R106). -/
def BitsTwo (mk : Hdr → LogOp → Instr) (f : IType → Nat → Nat → Int) : Prop :=
  LaneResult mk (fun _ _ o => log2Uses o) (fun _ _ _ _ _ => True)
    (fun s x h o L => { val := o.ty.write (f o.ty (natOperand s x h (log2Uses o) 0 L % 2 ^ o.ty.width)
      (natOperand s x h (log2Uses o) 1 L)) })
    (fun _ => none)

/-- An instruction of group 2 with one source computes `f` of the width and A as unsigned bits (R106); its result has `n`
registers. -/
def BitsOne (mk : Hdr → LogUn → Instr) (n : IType → Nat) (f : Nat → Nat → Nat) : Prop :=
  LaneResult mk (fun _ _ o => log1Uses o (n o.ty)) (fun _ _ _ _ _ => True)
    (fun s x h o L => { val := BitVec.ofNat 128 (f o.ty.width (natOperand s x h (log1Uses o (n o.ty)) 0 L % 2 ^ o.ty.width)) })
    (fun _ => none)

/-- An instruction completes with an effect on its wave alone that relates the wave before it and after it by `eff`. -/
def CompletesSo (i : Instr) (s : State) (x : Site) (h : Hdr) (u : Uses) (eff : Wave → Wave → Prop) : Prop :=
  ∃ t wv0 wv1 wv2, exec i s = .next t ∧ HasRead x wv0 ∧ eff wv0 wv1 ∧ Retires x h u wv1 wv2 ∧ t.waves[x.w]? = some wv2
    ∧ OnlyWave s t x.w

/-- The results of an operation on each element of a type: one value, or two packed ones, and the flags of all (R122). -/
def elementwise (t : EType) (op : List Nat → FRes) (xs : List (BitVec 128)) : LaneOut :=
  if t = .f16x2 ∨ t = .bf16x2 then
    let a := op (xs.map (fun x => x.toNat % 2 ^ 16))
    let b := op (xs.map (fun x => x.toNat / 2 ^ 16 % 2 ^ 16))
    { val := BitVec.ofNat 128 (a.bits + b.bits * 2 ^ 16), flags := a.fl ||| b.fl }
  else { val := BitVec.ofNat 128 (op (xs.map (·.toNat))).bits, flags := (op (xs.map (·.toNat))).fl }

/-- No floating-point trap is due (R84): no flag that is raised has its trap enabled. -/
def NoFloatTrap (fctl : Word) (fl : BitVec 8) : Prop := ∀ e, e < 5 → fl.getLsbD e = true → trapOn fctl e = false

/-- A floating-point instruction of two sources gives, in each element, the rounded result `op` of the type's format. -/
def FloatTwo (mk : Hdr → FBin → Instr) (op : Fmt → Rnd → Nat → Nat → FRes) : Prop :=
  let out (s : State) (x : Site) (h : Hdr) (o : FBin) (L : Lane) : LaneOut :=
    elementwise o.ty (fun l => op (fmtOf o.ty) (o.rnd.resolve x.wv.fctl) (l.getD 0 0) (l.getD 1 0))
      [operand s x h (fltUses2 o.ty o.d o.a o.b) 0 L, operand s x h (fltUses2 o.ty o.d o.a o.b) 1 L]
  LaneResult mk (fun _ _ o => fltUses2 o.ty o.d o.a o.b) (fun s x h o L => NoFloatTrap x.wv.fctl (out s x h o L).flags) out
    (fun _ => none)

/-- A floating-point multiply-add gives, in each element, the product and sum rounded once. -/
def FloatFma (mk : Hdr → FTri → Instr) : Prop :=
  let out (s : State) (x : Site) (h : Hdr) (o : FTri) (L : Lane) : LaneOut :=
    elementwise o.ty (fun l => (fmtOf o.ty).fma (o.rnd.resolve x.wv.fctl) (l.getD 0 0) (l.getD 1 0) (l.getD 2 0))
      [operand s x h (fltUses3 o) 0 L, operand s x h (fltUses3 o) 1 L, operand s x h (fltUses3 o) 2 L]
  LaneResult mk (fun _ _ o => fltUses3 o) (fun s x h o L => NoFloatTrap x.wv.fctl (out s x h o L).flags) out (fun _ => none)

/-- A floating-point instruction of one source whose result has `n` registers gives `op` of each element. -/
def FloatPlain (mk : Hdr → FPlain → Instr) (n : Nat) (op : Fmt → Nat → FRes) : Prop :=
  let out (s : State) (x : Site) (h : Hdr) (o : FPlain) (L : Lane) : LaneOut :=
    elementwise o.ty (fun l => op (fmtOf o.ty) (l.getD 0 0)) [operand s x h (fltUses1 o.ty o.d o.a n) 0 L]
  LaneResult mk (fun _ _ o => fltUses1 o.ty o.d o.a n) (fun s x h o L => NoFloatTrap x.wv.fctl (out s x h o L).flags) out
    (fun _ => none)

/-- DMIN and its like (R87). -/
def FloatMin (mk : Hdr → FMinOp → Instr) (max : Bool) : Prop :=
  let out (s : State) (x : Site) (h : Hdr) (o : FMinOp) (L : Lane) : LaneOut :=
    elementwise o.ty (fun l => (fmtOf o.ty).minmax max o.num (l.getD 0 0) (l.getD 1 0))
      [operand s x h (fltUses2 o.ty o.d o.a o.b) 0 L, operand s x h (fltUses2 o.ty o.d o.a o.b) 1 L]
  LaneResult mk (fun _ _ o => fltUses2 o.ty o.d o.a o.b) (fun s x h o L => NoFloatTrap x.wv.fctl (out s x h o L).flags) out
    (fun _ => none)

/-- DSCALB and FSCALB (R124): every element times 2 to the power of the single SI32 operand. -/
def FloatScale (mk : Hdr → FBin → Instr) : Prop :=
  let out (s : State) (x : Site) (h : Hdr) (o : FBin) (L : Lane) : LaneOut :=
    elementwise o.ty (fun l => (fmtOf o.ty).scalb (o.rnd.resolve x.wv.fctl) (l.getD 0 0) (intOperand s x h (scaleUses o) .si32 1 L))
      [operand s x h (scaleUses o) 0 L]
  LaneResult mk (fun _ _ o => scaleUses o) (fun s x h o L => NoFloatTrap x.wv.fctl (out s x h o L).flags) out (fun _ => none)

/-- DRINT and FRINT (R124). -/
def FloatRint (mk : Hdr → FRintOp → Instr) : Prop :=
  let out (s : State) (x : Site) (h : Hdr) (o : FRintOp) (L : Lane) : LaneOut :=
    elementwise o.ty (fun l => (fmtOf o.ty).rint (o.rnd.resolve x.wv.fctl) o.exact (l.getD 0 0))
      [operand s x h (fltUses1 o.ty o.d o.a (eRegs o.ty)) 0 L]
  LaneResult mk (fun _ _ o => fltUses1 o.ty o.d o.a (eRegs o.ty)) (fun s x h o L => NoFloatTrap x.wv.fctl (out s x h o L).flags)
    out (fun _ => none)

/-- DSQRT and FSQRT (R123, R125). -/
def FloatSqrt (mk : Hdr → FUn → Instr) : Prop :=
  let out (s : State) (x : Site) (h : Hdr) (o : FUn) (L : Lane) : LaneOut :=
    elementwise o.ty (fun l => (fmtOf o.ty).sqrt (o.rnd.resolve x.wv.fctl) (l.getD 0 0))
      [operand s x h (fltUses1 o.ty o.d o.a (eRegs o.ty)) 0 L]
  LaneResult mk (fun _ _ o => fltUses1 o.ty o.d o.a (eRegs o.ty)) (fun s x h o L => NoFloatTrap x.wv.fctl (out s x h o L).flags)
    out (fun _ => none)

/-! ## Control flow and traps -/

/-- The checks of a checking instruction pass, or are not made (R214). -/
def SigPasses (s : State) (x : Site) (sig : BitVec 16) : Prop :=
  s.checking x.wv = false ∨ x.sp.nosig = true ∨ (x.sp.hash = sig ∧ x.sp.mask = x.sp.emask &&& ~~~x.wv.gone)

/-- Divide (R209) for the issuing split, its exemption used up: the table it leaves and the merges whose mask check fails. -/
def Site.divided (s : State) (x : Site) (m : Mask) (target rpc : Word) : SplitTable × List Mismatch :=
  (x.wv.withSplit x.slot (fun sp => { sp with nosig := false })).table.divide x.slot m target (x.sp.pc + 12) rpc x.wv.gone
    (s.checking x.wv)

/-- The division fits the split table and the divergence stack (R210), and no merge that it completes fails its check (R211). -/
def CanDivide (s : State) (x : Site) (m : Mask) (target rpc : Word) : Prop :=
  x.wv.table.divideFits x.sp m rpc = true ∧ (x.divided s m target rpc).2 = []

/-- A branch completes: its effect on registers is `eff`, the lanes `m` go to `target` and the split's other lanes to the next
instruction, with reconvergence at `rpc`. -/
def CompletesBranch (i : Instr) (s : State) (x : Site) (h : Hdr) (u : Uses) (eff : Wave → Wave → Prop) (m : Mask)
    (target rpc : Word) : Prop :=
  ∃ t wv0 wv1 wv2, exec i s = .next t ∧ HasRead x wv0 ∧ eff wv0 wv1
    ∧ (∃ xr q, wv2 = { wv1 with xregs := xr, table := (x.divided s m target rpc).1, qretired := wv1.qretired + 1, qended := q })
    ∧ wv2.xregs = (wv1.stepAll (x.exec h) u.steps).xregs ∧ t.waves[x.w]? = some wv2 ∧ OnlyWave s t x.w

/-- Registers alone have changed: in the lanes `m` the destination holds `v`, and every other register and lane is as before. -/
def Wrote (wv0 wv1 : Wave) (d : RDst) (m : Mask) (v : Lane → BitVec 128) : Prop :=
  (∃ rs, wv1 = { wv0 with regs := rs }) ∧ (∀ L, m.has L = true → Landed wv0 wv1 d L (v L))
    ∧ ∀ r (L : Lane), m.has L = false ∨ ¬Covers d r L → (wv1.reg r).val[L] = (wv0.reg r).val[L]

/-- The wave can take a trap at once into the handler of its launch `l` (R276, R284, R288): it awaits the result of no atomic lane
that has been sent (R279). -/
structure CanTrap (s : State) (x : Site) (l : Launch) : Prop where
  calm : x.wv.awaits none = false
  launch : s.launchOf x.wv = some l
  handler : l.record.handler ≠ 0xFFFFFFFF
  level : x.wv.level < 2

/-- A trap has been entered (R69, R225, R276, R284): the level is one more, the frame names cause, lane, instruction and detail, the
state below is saved with its resume PC, and one split of all live lanes stands at the handler. -/
structure Trapped (s t : State) (x : Site) (l : Launch) (cause : Cause) (lane : Nat) (detail : Word) (resume : Option Word)
    (wv2 : Wave) : Prop where
  wave : t.waves[x.w]? = some wv2
  level : wv2.level = x.wv.level + 1
  frame : wv2.frame = ⟨BitVec.ofNat 32 ((x.wv.level + 1) * 2 ^ 14 + lane * 2 ^ 9 + cause.toNat), x.sp.pc, x.w0, x.w1, x.w2, detail⟩
  handler : wv2.table.split? 0 = some ⟨wv2.live, l.record.handler, 0xFFFFFFFF, wv2.live, 0xFFFF, 0, 31, false, false, none⟩
  alone : ∀ k, (0 < k → wv2.table.split? k = none) ∧ wv2.table.rec? k = none
  saved : ∃ f, wv2.saved = f :: x.wv.saved ∧ f.resume = resume ∧ f.slot = x.slot ∧ f.frame = x.wv.frame ∧ f.rq = x.wv.rq
  lanes : wv2.live = x.wv.live ∧ wv2.dead = x.wv.dead
  kept : wv2.fctl = x.wv.fctl ∧ wv2.ctr = x.wv.ctr
  regs : x.wv.flights = [] → wv2.preds = x.wv.preds ∧ ∀ r (L : Lane), (wv2.reg r).val[L] = (x.wv.reg r).val[L]
  only : OnlyWave s t x.w

/-- An instruction traps without effect: its cause, lane and detail, to be resumed at itself. -/
def TrapsPrecise (i : Instr) (s : State) (x : Site) (l : Launch) (cause : Cause) (lane : Nat) (detail : Word) : Prop :=
  ∃ t wv2, exec i s = .next t ∧ Trapped s t x l cause lane detail (some x.sp.pc) wv2 ∧ wv2.qretired = x.wv.qretired

/-! ## Effects beyond the wave -/

/-- Memory, the pools and the tile files hold what they held. -/
def Quiet (s t : State) : Prop :=
  (∀ a, t.mem.read a = s.mem.read a) ∧ ∀ k, (t.coreAt k).pool = (s.coreAt k).pool ∧ (t.coreAt k).tiles = (s.coreAt k).tiles

/-- An instruction completes: its effect on its wave is `eff`, no other wave changes, and `post` holds of the state after it. -/
def RetiresWith (i : Instr) (s : State) (x : Site) (h : Hdr) (u : Uses) (eff : Wave → Wave → Prop) (post : State → Prop) : Prop :=
  ∃ t wv0 wv1 wv2, exec i s = .next t ∧ HasRead x wv0 ∧ eff wv0 wv1 ∧ Retires x h u wv1 wv2 ∧ t.waves[x.w]? = some wv2
    ∧ (∀ v, v ≠ x.w → t.waves[v]? = s.waves[v]?) ∧ post t

/-- An instruction is taken up and its split waits (R169, R279): it stands at the next instruction, and an entry of kind 5 holds its
place. -/
def WaitsFor (i : Instr) (s : State) (x : Site) (h : Hdr) (wt : Wait) (post : State → Prop) : Prop :=
  ∃ t wv2 f, exec i s = .next t ∧ t.waves[x.w]? = some wv2 ∧ (∀ v, v ≠ x.w → t.waves[v]? = s.waves[v]?)
    ∧ wv2.table.split? x.slot = some { x.sp with wait := some wt, pc := x.sp.pc + 12, hash := sigUpdate x.sp.hash (x.w2.extractLsb' 22 10) }
    ∧ wv2.flights = x.wv.flights ++ [f] ∧ f.entry.kind = 5 ∧ f.entry.remain = x.exec h ∧ f.entry.wait = some wt
    ∧ wv2.regs = x.wv.regs ∧ wv2.preds = x.wv.preds ∧ wv2.qretired = x.wv.qretired + 1 ∧ Quiet s t ∧ post t

/-- A wave as a plain store that reaches a pier or the homes leaves it: of its flights, only which loads have met a store, and which
bytes a load has from a pier, has changed (R189, R323). -/
def OnlyRaces (a b : Wave) : Prop :=
  ∃ fs, b = { a with flights := fs }
    ∧ fs.map (fun f => { f with raced := 0, held := [] }) = a.flights.map (fun f => { f with raced := 0, held := [] })

/-- Of every wave but `w`, only which of its loads have met a store, or hold a pier's bytes, has changed. -/
def OthersRace (s t : State) (w : Nat) : Prop :=
  ∀ v, v ≠ w → ∀ a, s.waves[v]? = some a → ∃ b, t.waves[v]? = some b ∧ OnlyRaces a b

/-- An instruction that may bring stores to the homes completes: its wave has retired it, and of the wave and every other one only
which of their loads have met a store has changed besides. -/
def RetiresStoring (i : Instr) (s : State) (x : Site) (h : Hdr) (u : Uses) (post : State → Prop) : Prop :=
  ∃ t wv0 wv1 wv2, exec i s = .next t ∧ HasRead x wv0 ∧ OnlyRaces wv0 wv1 ∧ Retires x h u wv1 wv2 ∧ t.waves[x.w]? = some wv2
    ∧ OthersRace s t x.w ∧ post t

/-- A producer has issued (R62, R177): a flight of the lanes `m` that knows their values holds the destination, whose registers read
as empty; the split has gone on, and no register or predicate has changed its value. `s1` is the state once the release that the
access makes has drained the pier. -/
structure Producing (s1 t : State) (x : Site) (u : Uses) (kind : BitVec 3) (m : Mask) (val : Lane → Nat)
    (pred : Option (PNum × Mask)) (f : Flight) (wv2 : Wave) : Prop where
  wave : t.waves[x.w]? = some wv2
  others : ∀ v, v ≠ x.w → t.waves[v]? = s1.waves[v]?
  flights : ∃ wv1, s1.waves[x.w]? = some wv1 ∧ wv2.flights = wv1.flights ++ [f]
  names : f.id = x.wv.nextFlight ∧ f.dst = x.dst u ∧ f.entry.kind = kind ∧ f.entry.remain = m ∧ f.known = m ∧ f.pred = pred
  value : ∀ L, m.has L = true → f.val[L] = BitVec.ofNat 128 (val L) ∧ f.poison[L] = .clean
  empty : (x.dst u).ind = false → ∀ i, i < (x.dst u).n → (wv2.reg ((x.dst u).er[(0 : Lane)].toNat + i)).full = false
  regs : ∀ r (L : Lane), (wv2.reg r).val[L] = (x.wv.reg r).val[L]
  kept : wv2.preds = x.wv.preds ∧ wv2.live = x.wv.live ∧ wv2.tarn = x.wv.tarn ∧ wv2.qretired = x.wv.qretired + 1

/-- Operands whose index steps have been made at issue (R148). -/
def early (u : Uses) : Uses := { u with stepped := true }

/-- The group of the issuing wave has changed by `f`, and no other group has. -/
def GroupBecomes (s t : State) (x : Site) (f : Group → Group) : Prop :=
  ∀ k, t.groups[k]? = if k = x.wv.group then (s.groups[k]?).map f else s.groups[k]?

/-- The operands of an instruction that acts for its wave and group: checked with precise delivery (R249). -/
def grp (u : Uses) : Uses := { u with precise := true }

/-- A wave of group `g` issues an instruction that acts for it (R249). -/
structure Acts (s : State) (x : Site) (h : Hdr) (u : Uses) (g : Group) : Prop where
  clear : Clear s x h (grp u)
  arrive : NoMismatch s x
  some' : x.exec h ≠ 0
  group : s.groupOf x.wv = some g

/-- An operation has entered the queue of the wave's core (R250). -/
def Enqueued (s t : State) (x : Site) (batch : Option Word) (kind : MatKind) : Prop :=
  (∃ e, (t.coreAt x.wv.coreNo).mq = (s.coreAt x.wv.coreNo).mq ++ [e] ∧ e.wave = x.w ∧ e.group = x.wv.group ∧ e.batch = batch
      ∧ e.kind = kind ∧ e.wait = none)
    ∧ ∀ k, k ≠ x.wv.coreNo → (t.coreAt k).mq = (s.coreAt k).mq

end Sys2Proof.Safety
end

