-- ==== Sys2Proof/Certificates/Slice0/Obligations.lean ====
section
/-! DEFINITION. What is to be proved of the model. -/

open Sys2Proof Sys2Proof.Machine Sys2Proof.Safety

/-! ## Integer instructions -/

/-- R100, R104: IADD, ISUB, IMUL, IMULH, IMIN, IMAX, IABS, INEG, IMAD, IADD3 and IADD.I complete with the exact result of their
operands, wrapped or clamped. -/
def IntegerArithmeticResults : Prop :=
  IntTwo .iadd (fun _ a b => a + b) ∧ IntTwo .isub (fun _ a b => a - b) ∧ IntTwo .imul (fun _ a b => a * b)
    ∧ IntTwo .imulh (fun t a b => a * b / 2 ^ t.width) ∧ IntTwo .imin (fun _ a b => min a b) ∧ IntTwo .imax (fun _ a b => max a b)
    ∧ IntOne .iabs (fun a => (a.natAbs : Int)) ∧ IntOne .ineg (fun a => -a)
    ∧ IntThree .imad (fun a b c => a * b + c) ∧ IntThree .iadd3 (fun a b c => a + b + c)
    ∧ LaneResult .iaddI (fun _ _ o => iaddIUses o)
        (fun s x h o L => NoOverflowTrap x.wv.fctl o.ty o.sat
          (intOperand s x h (iaddIUses o) o.ty 0 L + o.ty.read (o.imm.setWidth 128)))
        (fun s x h o L => narrowed o.ty o.sat (intOperand s x h (iaddIUses o) o.ty 0 L + o.ty.read (o.imm.setWidth 128)))
        (fun _ => none)

/-- R101: what IDIV (`rem` false) and IREM (`rem` true) give for two operands of a type. -/
def quotient (t : IType) (rem : Bool) (a b : Int) : LaneOut :=
  if b = 0 then { val := 0, flags := flIDZ }
  else if t.signed = true ∧ a = t.least ∧ b = -1 then { val := if rem then 0 else t.write t.least, flags := flIOV }
  else { val := t.write (if rem then a.tmod b else a.tdiv b) }

/-- R78, R101: no trap of a division is due: the divisor is not zero or FCTL.IDZE is 0, and the quotient fits or FCTL.IOVE is 0. -/
def NoDivisionTrap (fctl : Word) (t : IType) (a b : Int) : Prop :=
  (b = 0 → trapOn fctl 5 = false) ∧ (t.signed = true → a = t.least → b = -1 → trapOn fctl 6 = false)

/-- R101: IDIV and IREM complete: quotient towards zero and its remainder; 0 with IDZ on a zero divisor; on the least value
divided by -1, the least value (quotient) or 0 (remainder) with IOV. -/
def IntegerDivision : Prop :=
  LaneResult .idiv (fun _ _ o => int2Uses o)
      (fun s x h o L => NoDivisionTrap x.wv.fctl o.ty (intOperand s x h (int2Uses o) o.ty 0 L) (intOperand s x h (int2Uses o) o.ty 1 L))
      (fun s x h o L => quotient o.ty false (intOperand s x h (int2Uses o) o.ty 0 L) (intOperand s x h (int2Uses o) o.ty 1 L))
      (fun _ => none)
    ∧ LaneResult .irem (fun _ _ o => int2Uses o)
      (fun s x h o L => NoDivisionTrap x.wv.fctl o.ty (intOperand s x h (int2Uses o) o.ty 0 L) (intOperand s x h (int2Uses o) o.ty 1 L))
      (fun s x h o L => quotient o.ty true (intOperand s x h (int2Uses o) o.ty 0 L) (intOperand s x h (int2Uses o) o.ty 1 L))
      (fun _ => none)

/-- R100, R104: IADD, ISUB, IMUL, IMULH, IMIN, IMAX, IABS, INEG, IMAD, IADD3 and IADD.I complete with the exact result of
their operands, wrapped or clamped. R101: IDIV and IREM complete: quotient towards zero and its remainder; 0 with IDZ on a
zero divisor; on the least value divided by -1, the least value (quotient) or 0 (remainder) with IOV. -/
def Obligations.IntegerArithmetic : Prop := IntegerArithmeticResults ∧ IntegerDivision

/-- R102: the carry or borrow into a lane. -/
def carryBit (x : Site) (o : CarryOp) (L : Lane) : Nat := if o.ci0 = false ∧ (x.wv.pred o.cip).has L = true then 1 else 0

/-- R100, R102, R103: IADDC and ISUBB complete with the sum or difference modulo 2^32 of two words and the bit carried in, and
write the bit carried out to a predicate; IMADW and LEA complete with a 64-bit result, ISAD with a 32-bit one. -/
def Obligations.WideIntegers : Prop :=
  LaneResult .iaddc (fun _ _ o => carryUses o) (fun _ _ _ _ _ => True)
      (fun s x h o L =>
        let a := natOperand s x h (carryUses o) 0 L % 2 ^ 32
        let b := natOperand s x h (carryUses o) 1 L % 2 ^ 32
        { val := BitVec.ofNat 128 ((a + b + carryBit x o L) % 2 ^ 32), p := decide (2 ^ 32 ≤ a + b + carryBit x o L) })
      (fun o => some o.cop)
    ∧ LaneResult .isubb (fun _ _ o => carryUses o) (fun _ _ _ _ _ => True)
      (fun s x h o L =>
        let a := natOperand s x h (carryUses o) 0 L % 2 ^ 32
        let b := natOperand s x h (carryUses o) 1 L % 2 ^ 32
        { val := BitVec.ofNat 128 ((2 ^ 33 + a - b - carryBit x o L) % 2 ^ 32), p := decide (a < b + carryBit x o L) })
      (fun o => some o.cop)
    ∧ LaneResult .imadw (fun _ _ o => imadwUses o) (fun _ _ _ _ _ => True)
      (fun s x h o L => { val := (BitVec.ofInt 64 (intOperand s x h (imadwUses o) o.ty 0 L * intOperand s x h (imadwUses o) o.ty 1 L
        + natOperand s x h (imadwUses o) 2 L)).setWidth 128 })
      (fun _ => none)
    ∧ LaneResult .lea (fun _ _ o => leaUses o) (fun _ _ _ _ _ => True)
      (fun s x h o L => { val := (BitVec.ofInt 64 (natOperand s x h (leaUses o) 0 L
        + intOperand s x h (leaUses o) o.ty 1 L * [1, 4, 8, 16].getD o.sc.toNat 1
        + intOperand s x h (leaUses o) .si32 2 L)).setWidth 128 })
      (fun _ => none)
    ∧ LaneResult .isad (fun _ _ o => isadUses o) (fun _ _ _ _ _ => True)
      (fun s x h o L => { val := BitVec.ofNat 128 (((intOperand s x h (isadUses o) o.ty 0 L
        - intOperand s x h (isadUses o) o.ty 1 L).natAbs + natOperand s x h (isadUses o) 2 L) % 2 ^ 32) })
      (fun _ => none)

/-! ## Logic and bits -/

/-- R106: the shifts of one operand complete: an amount of the width or more gives 0, or the sign in every bit under SAR; ROT
takes its amount modulo the width. FUNL shifts the pair C:A up or down by its amount modulo 32 and gives the high or the low
word. -/
def Obligations.Shifts : Prop :=
  BitsTwo .shl (fun t a n => if t.width ≤ n then 0 else a * 2 ^ n)
    ∧ BitsTwo .shr (fun t a n => if t.width ≤ n then 0 else a / 2 ^ n)
    ∧ BitsTwo .sar (fun t a n => sextInt t.width a / 2 ^ (min n t.width))
    ∧ BitsTwo .rot (fun t a n => (a * 2 ^ (n % t.width) + a / 2 ^ (t.width - n % t.width) : Nat))
    ∧ LaneResult .funl (fun _ _ o => log3Uses o.ty o.d o.a o.b o.c) (fun _ _ _ o _ => o.ty.width = 32)
        (fun s x h o L =>
          let u := log3Uses o.ty o.d o.a o.b o.c
          let y := natOperand s x h u 2 L % 2 ^ 32 * 2 ^ 32 + natOperand s x h u 0 L % 2 ^ 32
          let n := natOperand s x h u 1 L % 32
          { val := o.ty.write (if o.dn then (y / 2 ^ n : Nat) else (y * 2 ^ n / 2 ^ 32 % 2 ^ 32 : Nat)) })
        (fun _ => none)

/-- R107: BFE's field: bits `p` to `p + n - 1` of the operand, read as the type's own value continued above its width. -/
def extracted (t : IType) (a ctl : Nat) : Int :=
  let p := ctl % 256
  let n := min (ctl / 256 % 256) t.width
  let src : Int := if t.signed then sextInt t.width a else (a : Int)
  let field : Int := src / 2 ^ p % 2 ^ n
  if n = 0 then 0 else if t.signed = true ∧ 2 ^ (n - 1) ≤ field then field - 2 ^ n else field

/-- R107: bit `i` of BFI's result: the field's bit inside the mask, the base's bit outside it. -/
def insertedBit (w a ctl c i : Nat) : Bool :=
  let p := ctl % 256
  let n := min (ctl / 256 % 256) w
  if p ≤ i ∧ i < p + n ∧ i < w then a.testBit (i - p) else c.testBit i

/-- R105, R107, R108: BLUT, BLUT.I, BFE, BFI and BSEL complete; BLUT's result is the table's entry for the three input bits in
every bit, and BFI's the field in the base. -/
def BitFieldsResults : Prop :=
  LaneResult .blut (fun _ _ o => blutUses o) (fun _ _ _ _ _ => True)
      (fun s x h o L => { val := o.ty.write (blut o.tt (operand s x h (blutUses o) 0 L) (operand s x h (blutUses o) 1 L)
        (operand s x h (blutUses o) 2 L)).toInt }) (fun _ => none)
    ∧ LaneResult .blutI (fun _ _ o => blutIUses o) (fun _ _ _ _ _ => True)
      (fun s x h o L => { val := o.ty.write (blut o.tt (operand s x h (blutIUses o) 0 L) (o.imm.setWidth 128)
        (operand s x h (blutIUses o) 1 L)).toInt }) (fun _ => none)
    ∧ (∀ tt (a b c : BitVec 128) i, i < 128 → (blut tt a b c).getLsbD i
        = tt.getLsbD ((if a.getLsbD i then 1 else 0) + (if b.getLsbD i then 2 else 0) + (if c.getLsbD i then 4 else 0)))
    ∧ BitsTwo .bfe (fun t a ctl => extracted t a ctl)
    ∧ LaneResult .bfi (fun _ _ o => log3Uses o.ty o.d o.a o.b o.c) (fun _ _ _ _ _ => True)
      (fun s x h o L =>
        let u := log3Uses o.ty o.d o.a o.b o.c
        let w := o.ty.width
        { val := o.ty.write (BitVec.ofBoolListLE ((List.range w).map (insertedBit w (natOperand s x h u 0 L % 2 ^ w)
            (natOperand s x h u 1 L) (natOperand s x h u 2 L % 2 ^ w)))).toNat }) (fun _ => none)
    ∧ LaneResult .bsel (fun _ _ o => log3Uses o.ty o.d o.a o.b o.c) (fun _ _ _ o _ => o.ty.width = 32)
      (fun s x h o L =>
        let u := log3Uses o.ty o.d o.a o.b o.c
        let y := natOperand s x h u 2 L % 2 ^ 32 * 2 ^ 32 + natOperand s x h u 0 L % 2 ^ 32
        let sel (i : Nat) : Nat := natOperand s x h u 1 L / 2 ^ (8 * i) % 256
        { val := o.ty.write (ofBytes ((List.range 4).map (fun i => BitVec.ofNat 8 (bselByte (sel i) y)))) }) (fun _ => none)

/-- R106: POPC, CLZ, CTZ and BREV complete: the number of ones, of zeros above the highest one and below the lowest one, and the bits
in reverse order. -/
def BitCounts : Prop :=
  BitsOne .popc (fun _ => 1) (fun w a => ((List.range w).filter (fun i => a.testBit i)).length)
    ∧ BitsOne .clz (fun _ => 1) (fun w a => ((List.range w).takeWhile (fun i => !a.testBit (w - 1 - i))).length)
    ∧ BitsOne .ctz (fun _ => 1) (fun w a => ((List.range w).takeWhile (fun i => !a.testBit i)).length)
    ∧ BitsOne .brev (fun t => t.regs) (fun w a => (BitVec.ofBoolListLE ((List.range w).map (fun i => a.testBit (w - 1 - i)))).toNat)

/-- R105, R107, R108: BLUT, BLUT.I, BFE, BFI and BSEL complete; BLUT's result is the table's entry for the three input bits in
every bit, and BFI's the field in the base. R106: POPC, CLZ, CTZ and BREV complete: the number of ones, of zeros above the
highest one and below the lowest one, and the bits in reverse order. -/
def Obligations.BitFields : Prop := BitFieldsResults ∧ BitCounts

/-! ## Moves, compares and predicates -/

/-- R109, R110, R116, R117: MOV, MOVI, SEL, SHAPE and AFFINE complete: a value of the type, the immediate, A or B as C is not
zero or zero, the shape tag of a register or the lowest lane's value, and base plus lane number times stride. -/
def Obligations.MovesAndShapes : Prop :=
  LaneResult .mov (fun _ _ o => log1Uses o o.ty.regs) (fun _ _ _ _ _ => True)
      (fun s x h o L => { val := o.ty.write (intOperand s x h (log1Uses o o.ty.regs) o.ty 0 L) }) (fun _ => none)
    ∧ LaneResult .movi (fun _ _ o => dstUses o.d 1) (fun _ _ _ _ _ => True) (fun _ _ _ o _ => { val := o.imm.setWidth 128 })
      (fun _ => none)
    ∧ LaneResult .sel (fun _ _ o => selUses o) (fun _ _ _ _ _ => True)
      (fun s x h o L => { val := o.ty.write (intOperand s x h (selUses o) o.ty
        (if natOperand s x h (selUses o) 2 L = 0 then 1 else 0) L) }) (fun _ => none)
    ∧ LaneResult (fun h (o : Dst × VNum × Pat × Bool) => .shape h false o.1 (.reg o.2.1 o.2.2.1 o.2.2.2))
      (fun _ _ o => shapeUses o.1 (plainSrc o.2.1 o.2.2.2)) (fun _ _ _ _ _ => True)
      (fun _ x _ o _ => { val := match (x.wv.reg o.2.1.toNat).tag with | .uni => 0 | .aff => 1 | .gen => 2 }) (fun _ => none)
    ∧ LaneResult (fun h (o : Dst × Src) => .shape h true o.1 o.2) (fun _ _ o => shapeUses o.1 o.2) (fun _ _ _ _ _ => True)
      (fun s x h o _ => { val := uniform s x h (shapeUses o.1 o.2) 0 }) (fun _ => none)
    ∧ LaneResult (fun h (o : Dst × Src × Src) => .affine h o.1 o.2.1 o.2.2) (fun _ _ o => affineUses o.1 o.2.1 o.2.2)
      (fun _ _ _ _ _ => True)
      (fun s x h o L => { val := (operandW s x h (affineUses o.1 o.2.1 o.2.2) 0 L
        + BitVec.ofNat 32 L.val * operandW s x h (affineUses o.1 o.2.1 o.2.2) 1 L).setWidth 128 }) (fun _ => none)

/-- R112: the result of a relation, joined with the combining predicate. -/
def joined (j : JoinOp) (r p : Bool) : Bool := match j with | .and => r && p | .or => r || p | .xor => r != p | .andNot => r && !p

/-- R112: the bit that a compare writes: its relation set holds of the two values, joined with the combining predicate. -/
def compared (f : CmpF) (a b : Int) (p : Bool) : Bool :=
  joined f.comb
    ((f.rel.getLsbD 0 && decide (a < b)) || (f.rel.getLsbD 1 && decide (a = b)) || (f.rel.getLsbD 2 && decide (b < a))) p

/-! ### The IEEE formats (R79) -/

/-- R79: the sign bit. -/
def isNegative (f : Fmt) (x : Nat) : Bool := x / 2 ^ (f.w - 1) % 2 == 1

/-- R79, R80: the exponent field is not all ones: a zero, a subnormal or a normal number; KF4 has nothing else. -/
def isFinite (f : Fmt) (x : Nat) : Bool := !f.special || x / 2 ^ f.m % 2 ^ f.e != 2 ^ f.e - 1

/-- R79: an all-ones exponent with a zero fraction. -/
def isInfinity (f : Fmt) (x : Nat) : Bool := !isFinite f x && x % 2 ^ f.m == 0

/-- R79: an all-ones exponent with a non-zero fraction. -/
def isNotNumber (f : Fmt) (x : Nat) : Bool := !isFinite f x && x % 2 ^ f.m != 0

/-- R79: a NaN whose most significant fraction bit is 0. -/
def isSignallingNan (f : Fmt) (x : Nat) : Bool := isNotNumber f x && decide (x % 2 ^ f.m < 2 ^ (f.m - 1))

/-- R113: a number's place in the order: its sign and its encoding without the sign, so that −0 equals +0. -/
def rankOf (f : Fmt) (x : Nat) : Int := if isNegative f x then -((x % 2 ^ (f.w - 1) : Nat) : Int) else ((x % 2 ^ (f.w - 1) : Nat) : Int)

/-- R88: an encoding's place in the total order, where −0 comes before +0. -/
def totalRank (f : Fmt) (x : Nat) : Int := if isNegative f x then rankOf f x - 1 else rankOf f x

/-- R113: what FCMP writes and raises in one lane that does not trap: the total order under TOT, which raises nothing;
otherwise U where an operand is a NaN, and the order of the two numbers where none is. LT, LE, GT and GE with U = 0 raise IV
on any NaN, the other relations on a signalling one. -/
def floatCompared (o : FcmpOp) (p : Bool) (a b : Nat) : LaneOut :=
  let f := fmtOf o.ty
  let nan := isNotNumber f a || isNotNumber f b
  let signals := o.u = false ∧ o.f.rel.toNat ∈ [1, 3, 4, 6]
  if o.tot then { p := compared o.f (totalRank f a) (totalRank f b) p }
  else
    { p := if nan then joined o.f.comb o.u p else compared o.f (rankOf f a) (rankOf f b) p
      flags := if (if signals then nan else isSignallingNan f a || isSignallingNan f b) then flIV else 0 }

/-- R112, R113: ICMP, ICMP.I and FCMP complete: they write the predicate and no register; FCMP raises the flags of its lane. -/
def Compares : Prop :=
  let lane (s : State) (x : Site) (h : Hdr) (o : FcmpOp) (L : Lane) : LaneOut :=
    floatCompared o ((x.wv.pred o.f.pc).has L) (natOperand s x h (fcmpUses o) 0 L) (natOperand s x h (fcmpUses o) 1 L)
  LaneResult .icmp (fun _ _ o => icmpUses o) (fun _ _ _ _ _ => True)
      (fun s x h o L => { p := (compared o.f (intOperand s x h (icmpUses o) o.ty 0 L) (intOperand s x h (icmpUses o) o.ty 1 L)
        ((x.wv.pred o.f.pc).has L)) }) (fun o => some o.d)
    ∧ LaneResult .icmpI (fun _ _ o => icmpIUses o) (fun _ _ _ _ _ => True)
      (fun s x h o L => { p := (compared o.f (intOperand s x h (icmpIUses o) o.ty 0 L) (o.ty.read (o.imm.setWidth 128))
        ((x.wv.pred o.f.pc).has L)) }) (fun o => some o.d)
    ∧ LaneResult .fcmp (fun _ _ o => fcmpUses o)
      (fun s x h o L => o.ty ∈ [.f64, .f32, .f16, .bf16] ∧ ((lane s x h o L).flags ≠ 0 → trapOn x.wv.fctl 0 = false))
      lane (fun o => some o.d)

/-- R37, R114, R115: PLUT, PSAVE and PLOAD complete: the table's entry for three predicates, the eight predicates as a word, and the
chosen predicates from the bits of a word; PT stays as it is. -/
def Predicates : Prop :=
  LaneResult .plut (fun _ _ o => plutUses o) (fun _ _ _ _ _ => True)
      (fun _ x _ o L => { p := o.tt.getLsbD ((if (x.wv.pred o.pc).has L then 4 else 0) + (if (x.wv.pred o.pb).has L then 2 else 0)
        + (if (x.wv.pred o.pa).has L then 1 else 0)) }) (fun o => some o.d)
    ∧ LaneResult (fun h (d : Dst) => .psave h d) (fun _ _ d => psaveUses d) (fun _ _ _ _ _ => True)
      (fun _ x _ _ L => { val := BitVec.ofNat 128 (((List.range 8).map
        (fun i => if (x.wv.pred (BitVec.ofNat 3 i)).has L then 2 ^ i else 0)).sum) }) (fun _ => none)
    ∧ ∀ s x h mask a, Clear s x h (ploadUses mask a) → NoMismatch s x →
      CompletesSo (.pload h mask a) s x h (ploadUses mask a) (fun wv0 wv1 => (∃ ps, wv1 = { wv0 with preds := ps })
        ∧ ∀ (p : PNum) (L : Lane), (wv1.pred p).has L
          = if p ≠ 7 ∧ mask.getLsbD p.toNat = true ∧ (x.exec h).has L = true
            then (operandW s x h (ploadUses mask a) 0 L).getLsbD p.toNat else (wv0.pred p).has L)

/-- R112, R113: ICMP, ICMP.I and FCMP complete: they write the predicate and no register; FCMP raises the flags of its lane.
R37, R114, R115: PLUT, PSAVE and PLOAD complete: the table's entry for three predicates, the eight predicates as a word, and
the chosen predicates from the bits of a word; PT stays as it is. -/
def Obligations.ComparesAndPredicates : Prop := Compares ∧ Predicates

/-! ## Floating point -/

/-- 2^e, exactly. -/
def pow2 (e : Int) : Rat := if 0 ≤ e then ((2 ^ e.toNat : Nat) : Rat) else 1 / ((2 ^ (-e).toNat : Nat) : Rat)

/-- A non-negative number with a sign. -/
def withSign (neg : Bool) (v : Rat) : Rat := if neg then -v else v

/-- R79: the magnitude of a finite encoding: an exponent of zero holds zero or a subnormal. -/
def exactMagnitude (f : Fmt) (x : Nat) : Rat :=
  let ex := x / 2 ^ f.m % 2 ^ f.e
  if ex = 0 then ((x % 2 ^ f.m : Nat) : Rat) * pow2 (1 - f.bias - f.m)
  else ((2 ^ f.m + x % 2 ^ f.m : Nat) : Rat) * pow2 (ex - f.bias - f.m)

/-- R79: the number that a finite encoding stands for. -/
def exactValue (f : Fmt) (x : Nat) : Rat := withSign (isNegative f x) (exactMagnitude f x)

/-- R81: the integer to which the attribute takes the magnitude `t` of a number with the sign `neg`. -/
def nearestInt (r : Rnd) (neg : Bool) (t : Rat) : Nat :=
  let q := t.floor.toNat
  let rest := t - (q : Rat)
  let up : Bool := match r with
    | .rne => decide (1 / 2 < rest ∨ (rest = 1 / 2 ∧ q % 2 = 1))
    | .rna => decide (1 / 2 ≤ rest)
    | .rup => decide (rest ≠ 0) && !neg
    | .rdn => decide (rest ≠ 0) && neg
    | .rtz | .dyn => false
  if up then q + 1 else q

/-- R79: the default NaN: the all-ones exponent and the most significant fraction bit. -/
def defaultNan (f : Fmt) : Nat := (2 ^ (f.e + 1) - 1) * 2 ^ (f.m - 1)

/-- R79: an infinity. -/
def infinityOf (f : Fmt) (neg : Bool) : Nat := (if neg then 2 ^ (f.w - 1) else 0) + (2 ^ f.e - 1) * 2 ^ f.m

/-- R79: a zero. -/
def zeroOf (f : Fmt) (neg : Bool) : Nat := if neg then 2 ^ (f.w - 1) else 0

/-- R82: what an overflow delivers. -/
def overflowed (f : Fmt) (r : Rnd) (neg : Bool) : Nat :=
  if (r = .rtz ∨ (r = .rup ∧ neg = true) ∨ (r = .rdn ∧ neg = false)) then infinityOf f neg - 1 else infinityOf f neg

/-- R81, R82, R84: `y` is the non-zero exact number `v`, rounded once. With u its magnitude rounded with an unbounded exponent:
above the largest finite number it overflows, with OF and IX; below the smallest normal number it is rounded to a multiple of
the smallest subnormal instead, with UF and IX unless that is exact; otherwise it is u, with IX unless that is exact. -/
def RoundedOnce (f : Fmt) (r : Rnd) (v : Rat) (y : FRes) : Prop :=
  let neg := decide (v < 0)
  let a := withSign neg v
  let normal := pow2 (1 - f.bias)
  let grid := pow2 (1 - f.bias - f.m)
  let largest := ((2 ^ (f.m + 1) - 1 : Nat) : Rat) * pow2 (2 ^ f.e - 2 - f.bias - f.m)
  ∃ E : Int, pow2 E ≤ a ∧ a < pow2 (E + 1)
    ∧ (let u := (nearestInt r neg (a / pow2 (E - f.m)) : Rat) * pow2 (E - f.m)
      let d := if u < normal then (nearestInt r neg (a / grid) : Rat) * grid else u
      if largest < u then y = ⟨overflowed f r neg, flOF ||| flIX⟩
      else y.bits < 2 ^ f.w ∧ isFinite f y.bits = true ∧ isNegative f y.bits = neg ∧ exactMagnitude f y.bits = d
        ∧ y.fl = if d = a then 0 else if u < normal then flUF ||| flIX else flIX)

/-- R84, R86: the first NaN operand with its quiet bit set, and IV when an operand is a signalling NaN or `iv` holds. -/
def NanResult (f : Fmt) (operands : List Nat) (iv : Bool) (y : FRes) : Prop := ∀ n, operands.find? (isNotNumber f) = some n →
  y = ⟨n ||| 2 ^ (f.m - 1), if iv || operands.any (isSignallingNan f) then flIV else 0⟩

/-- R83: an exact sum: a zero takes the sign of two zeros of one sign, and else is −0 under RDN alone; any other sum is rounded
once. -/
def SumResult (f : Fmt) (r : Rnd) (na nb : Bool) (v : Rat) (y : FRes) : Prop :=
  if v = 0 then y = ⟨zeroOf f (if na = nb then na else decide (r = .rdn)), 0⟩ else RoundedOnce f r v y

/-- R81 to R84, R86: a sum. -/
def Sums (f : Fmt) (r : Rnd) (a b : Nat) : Prop :=
  let y := f.add r a b
  NanResult f [a, b] false y
    ∧ (isNotNumber f a = false → isNotNumber f b = false →
      if isInfinity f a then y = if isInfinity f b = true ∧ isNegative f a ≠ isNegative f b then ⟨defaultNan f, flIV⟩ else ⟨a, 0⟩
      else if isInfinity f b then y = ⟨b, 0⟩
      else SumResult f r (isNegative f a) (isNegative f b) (exactValue f a + exactValue f b) y)

/-- R81 to R84, R86: a product. -/
def Products (f : Fmt) (r : Rnd) (a b : Nat) : Prop :=
  let y := f.mul r a b
  let neg := isNegative f a != isNegative f b
  NanResult f [a, b] false y
    ∧ (isNotNumber f a = false → isNotNumber f b = false →
      if isInfinity f a || isInfinity f b then
        y = if a = zeroOf f (isNegative f a) ∨ b = zeroOf f (isNegative f b) then ⟨defaultNan f, flIV⟩ else ⟨infinityOf f neg, 0⟩
      else if exactValue f a * exactValue f b = 0 then y = ⟨zeroOf f neg, 0⟩
      else RoundedOnce f r (exactValue f a * exactValue f b) y)

/-- R81 to R84, R86: a multiply-add: the product is exact, and a product 0 × ∞ is invalid whatever the addend. -/
def MultiplyAdds (f : Fmt) (r : Rnd) (a b c : Nat) : Prop :=
  let y := f.fma r a b c
  let neg := isNegative f a != isNegative f b
  let zero (x : Nat) : Bool := x == zeroOf f (isNegative f x)
  let noProduct := (zero a && isInfinity f b) || (isInfinity f a && zero b)
  NanResult f [a, b, c] noProduct y
    ∧ (isNotNumber f a = false → isNotNumber f b = false → isNotNumber f c = false →
      if noProduct then y = ⟨defaultNan f, flIV⟩
      else if isInfinity f a || isInfinity f b then
        y = if isInfinity f c = true ∧ isNegative f c ≠ neg then ⟨defaultNan f, flIV⟩ else ⟨infinityOf f neg, 0⟩
      else if isInfinity f c then y = ⟨c, 0⟩
      else SumResult f r neg (isNegative f c) (exactValue f a * exactValue f b + exactValue f c) y)

/-- R81 to R84, R86: in each of the IEEE formats and under each attribute, sums, products and multiply-adds are formed exactly
and rounded once, with their NaN, infinite and zero results and their flags; and the order of the numbers is that of their
values. -/
def ExactArithmetic : Prop := ∀ f, f ∈ [f64, f32, f16, bf16] → ∀ a b c, a < 2 ^ f.w → b < 2 ^ f.w → c < 2 ^ f.w →
  (∀ r, r ≠ .dyn → Sums f r a b ∧ Products f r a b ∧ MultiplyAdds f r a b c)
    ∧ (isFinite f a = true → isFinite f b = true → (rankOf f a < rankOf f b ↔ exactValue f a < exactValue f b))

/-- R79 to R84, R86: a significand divided by 2^n is the quotient, or one more as the rounding attribute says: to nearest with
ties to even, towards zero, up, down, to nearest with ties away; and it is inexact unless nothing is cut off. In each of the
IEEE formats and under each attribute, sums, products and multiply-adds are formed exactly and rounded once, with their NaN,
infinite and zero results and their flags; and the order of the numbers is that of their values. -/
def Obligations.RoundingAttributes : Prop := ExactArithmetic ∧
  ∀ (neg : Bool) (m n : Nat), 0 < n →
    let q := m / 2 ^ n
    let r := m % 2 ^ n
    let half := 2 ^ (n - 1)
    roundShift .rtz neg m n false = (q, decide (r ≠ 0))
      ∧ roundShift .rup neg m n false = (if r ≠ 0 ∧ neg = false then q + 1 else q, decide (r ≠ 0))
      ∧ roundShift .rdn neg m n false = (if r ≠ 0 ∧ neg = true then q + 1 else q, decide (r ≠ 0))
      ∧ roundShift .rna neg m n false = (if half ≤ r then q + 1 else q, decide (r ≠ 0))
      ∧ roundShift .rne neg m n false = (if half < r ∨ (half = r ∧ q % 2 = 1) then q + 1 else q, decide (r ≠ 0))

/-- R81, R123, R125: DADD, DMUL, DFMA, DDIV, DSQRT, FADD, FMUL, FFMA, FDIV and FSQRT complete, element by element, where no
flag that they raise is trapped: each result is the format's operation on the operands in the rounding attribute in force,
with its flags. -/
def Obligations.FloatArithmetic : Prop :=
  FloatTwo .dadd Fmt.add ∧ FloatTwo .dmul Fmt.mul ∧ FloatTwo .ddiv Fmt.div ∧ FloatFma .dfma ∧ FloatSqrt .dsqrt
    ∧ FloatTwo .fadd Fmt.add ∧ FloatTwo .fmul Fmt.mul ∧ FloatTwo .fdiv Fmt.div ∧ FloatFma .ffma ∧ FloatSqrt .fsqrt

/-- R87, R124, R126: minimum and maximum, rounding to an integral value, scaling, exponent, significand and class complete,
and so do the approximations, whose values, within the rule's bounds, are the model's free values. The model's own choices in
it are those of log entry 18. -/
def Obligations.FloatParts : Prop :=
  FloatMin .dmin false ∧ FloatMin .dmax true ∧ FloatMin .fmin false ∧ FloatMin .fmax true ∧ FloatRint .drint ∧ FloatRint .frint
    ∧ FloatScale .dscalb ∧ FloatScale .fscalb ∧ FloatPlain .dgetexp 2 Fmt.getExp ∧ FloatPlain .dgetmant 2 Fmt.getMant
    ∧ FloatPlain .dclass 1 (fun f x => ⟨f.classify x, 0⟩) ∧ FloatPlain .fclass 1 (fun f x => ⟨f.classify x, 0⟩)
    ∧ FloatPlain .frcp 1 (Approx.apply .rcp) ∧ FloatPlain .frsq 1 (Approx.apply .rsq) ∧ FloatPlain .fex2 1 (Approx.apply .ex2)
    ∧ FloatPlain .flg2 1 (Approx.apply .lg2) ∧ FloatPlain .fsin 1 (Approx.apply .sin) ∧ FloatPlain .fcos 1 (Approx.apply .cos)

/-! ## Conversions, dot products, formats and streams -/

/-- R78, R84: no trap is due: no flag that is raised has its trap enabled. -/
def NoTrap (fctl : Word) (fl : BitVec 8) : Prop := ∀ e, e < 7 → fl.getLsbD e = true → trapOn fctl e = false

/-- R128: the value and the flags of CVT. A conversion to the operand's own element type leaves a number as it is. -/
def converted (fctl : Word) (o : CvtOp) (v : BitVec 128) : LaneOut :=
  match o.dst, o.src with
  | .int d, .int t => narrowed d o.sat (t.read v)
  | .int d, .elt t =>
    let r := fmtToInt (fmtOf t) (o.rnd.resolve fctl) d.least d.greatest v.toNat
    { val := d.write r.1, flags := r.2 }
  | .elt d, .int t =>
    let r := intToFmt (fmtOf d) (o.rnd.resolve fctl) o.sat (t.read v)
    { val := BitVec.ofNat 128 r.bits, flags := r.fl }
  | .elt d, .elt t =>
    let r := convFmt (fmtOf t) (fmtOf d) (o.rnd.resolve fctl) o.sat v.toNat
    if d = t then
      { val := BitVec.ofNat 128 (((fmtOf t).firstNan [v.toNat]).getD v.toNat), flags := (fmtOf t).snanFlag [v.toNat] }
    else { val := BitVec.ofNat 128 r.bits, flags := r.fl }

/-- R129: the two elements of CVTP, and the flags of both. -/
def convertedPair (fctl : Word) (o : CvtpOp) (a b : Nat) : LaneOut :=
  let cv (v : Nat) : FRes := convFmt (fmtOf o.src) (fmtOf o.dst) (o.rnd.resolve fctl) o.sat v
  { val := BitVec.ofNat 128 ((cv a).bits + (cv b).bits * 2 ^ 16), flags := (cv a).fl ||| (cv b).fl }

/-- R89, R130: the narrow element of CVTN; FMT gives its format and saturation where the instruction says FMT. -/
def narrowElement (fctl : Word) (fmt : BitVec 10) (o : CvtnOp) (v : Nat) : LaneOut :=
  let d := o.dst.getD (fmtType (fmtA fmt))
  let sat := o.sat || (o.dst.isNone && fmtSat fmt)
  if isIntElt d then
    let r := fmtToInt (fmtOf o.src) (o.rnd.resolve fctl) (eltInt d).least (eltInt d).greatest v
    { val := BitVec.ofInt 128 (r.1 % 2 ^ d.width), flags := r.2 }
  else
    let r := convFmt (fmtOf o.src) (fmtOf d) (o.rnd.resolve fctl) sat v
    { val := BitVec.ofNat 128 r.bits, flags := r.fl }

/-- R131: the F32 value of one element of UNPK. -/
def widened (t : EType) (v : Nat) : LaneOut :=
  let r := if isIntElt t then intToFmt f32 .rne false ((eltInt t).read (BitVec.ofNat 128 (v % 2 ^ t.width)))
    else convFmt (fmtOf t) f32 .rne false (v % 2 ^ t.width)
  { val := BitVec.ofNat 128 r.bits, flags := r.fl }

/-- Element `i`, of `w` bits, of a packed word. -/
def element (w i v : Nat) : Nat := v / 2 ^ (w * i) % 2 ^ w

/-- R91, R133: a dot product of elements of `w` bits: every product is exact; the integer sum is wrapped or clamped to 32 bits,
the floating sum is rounded once to F32. -/
def exactDotProduct (fctl : Word) (fmt : BitVec 10) (rnd : Rnd) (w a b c : Nat) : LaneOut :=
  let ta := fmtType (fmtA fmt)
  let tb := fmtType (fmtB fmt)
  let elt (t : EType) (v i : Nat) : Int := (eltInt t).read (BitVec.ofNat 128 (element w i v))
  if fmtAcc fmt then
    narrowed .si32 (fmtSat fmt) (((List.range (32 / w)).map (fun i => elt ta a i * elt tb b i)).sum + sextInt 32 c)
  else
    let r := f32.sumTerms (rnd.resolve fctl) ((List.range (32 / w)).map
      (fun i => prodTerm (fmtOf ta) (fmtOf tb) (element w i a) (element w i b)) ++ [valTerm f32 c])
    { val := BitVec.ofNat 128 r.bits, flags := r.fl }

/-- A dot product of elements of `w` bits completes. -/
def DotResult (mk : Hdr → DpOp → Instr) (w : Nat) : Prop :=
  let u (x : Site) (h : Hdr) (o : DpOp) : Uses := dpUses o ((mk h o).fmtFaults x.sp.fmt)
  let out (s : State) (x : Site) (h : Hdr) (o : DpOp) (L : Lane) : LaneOut :=
    exactDotProduct x.wv.fctl x.sp.fmt o.rnd w (operandW s x h (u x h o) 0 L).toNat (operandW s x h (u x h o) 1 L).toNat
      (operandW s x h (u x h o) 2 L).toNat
  LaneResult mk u (fun s x h o L => NoTrap x.wv.fctl (out s x h o L).flags) out (fun _ => none)

/-- R128 to R131: CVT, CVTP, CVTN and UNPK complete with their converted values and flags; a conversion to KF4 traps on no
flag; DP2, DP4 and DP8 complete with elements of 16, 8 and 4 bits. The model's own choices in it are those of log entry 34. -/
def Obligations.Conversions : Prop :=
  LaneResult .cvt (fun _ _ o => cvtUses o) (fun s x h o L => NoTrap x.wv.fctl (converted x.wv.fctl o (operand s x h (cvtUses o) 0 L)).flags)
      (fun s x h o L => converted x.wv.fctl o (operand s x h (cvtUses o) 0 L)) (fun _ => none)
    ∧ LaneResult .cvtp (fun _ _ o => cvtpUses o)
      (fun s x h o L => NoTrap x.wv.fctl (convertedPair x.wv.fctl o (natOperand s x h (cvtpUses o) 0 L)
        (natOperand s x h (cvtpUses o) 1 L)).flags)
      (fun s x h o L => convertedPair x.wv.fctl o (natOperand s x h (cvtpUses o) 0 L) (natOperand s x h (cvtpUses o) 1 L))
      (fun _ => none)
    ∧ LaneResult .cvtn (fun x h o => cvtnUses h o x.sp.fmt)
      (fun s x h o L => o.dst.getD (fmtType (fmtA x.sp.fmt)) = .kf4
        ∨ NoTrap x.wv.fctl (narrowElement x.wv.fctl x.sp.fmt o (natOperand s x h (cvtnUses h o x.sp.fmt) 0 L)).flags)
      (fun s x h o L => narrowElement x.wv.fctl x.sp.fmt o (natOperand s x h (cvtnUses h o x.sp.fmt) 0 L)) (fun _ => none)
    ∧ LaneResult .unpk (fun x h o => unpkUses h o x.sp.fmt)
      (fun s x h o L => NoTrap x.wv.fctl (widened (unpkType o x.sp.fmt) (natOperand s x h (unpkUses h o x.sp.fmt) 0 L)).flags)
      (fun s x h o L => widened (unpkType o x.sp.fmt) (natOperand s x h (unpkUses h o x.sp.fmt) 0 L)) (fun _ => none)
    ∧ DotResult .dp2 16 ∧ DotResult .dp4 8 ∧ DotResult .dp8 4

/-- R134 to R139: FMTSET completes and, unless EXEC is empty, gives its split the FMT of its fields; FMTGET completes with
FMT; RNGSET completes and sets the counter of every EXEC lane; RNG, in a split in no EXEC lane of which the counter is
exhausted, completes its issue: each lane's counter is advanced, and a producer of its block of the counter before stands for
the destination, which is empty until it lands. That the counter advances at issue is the model's choice (log entry 63). -/
def Obligations.FormatsAndStreams : Prop :=
  (∀ s x h o, Clear s x h {} → NoMismatch s x → CompletesWith (.fmtset h o) s x h {} (fun wv => if x.exec h = 0 then wv else
      wv.withSplit x.slot (fun sp => { sp with fmt := (BitVec.ofNat 10 (o.afmt.code.toNat + 2 ^ 4 * o.bfmt.code.toNat
        + (if o.acc then 2 ^ 8 else 0) + (if o.sat then 2 ^ 9 else 0))) })))
    ∧ LaneResult .fmtget (fun _ _ d => dstUses d 1) (fun _ _ _ _ _ => True) (fun _ x _ _ _ => { val := x.sp.fmt.setWidth 128 })
        (fun _ => none)
    ∧ (∀ s x h a, Clear s x h (rngsetUses a) → NoMismatch s x → CompletesSo (.rngset h a) s x h (rngsetUses a) (fun wv0 wv1 =>
      (∃ cs, wv1 = { wv0 with ctr := cs }) ∧ ∀ L : Lane, wv1.ctr[L]
        = if (x.exec h).has L then (operand s x h (rngsetUses a) 0 L).setWidth 64 else wv0.ctr[L]))
    ∧ ∀ s x h d, Clear s x h (rngUses d) → NoMismatch s x → (∀ L : Lane, (x.exec h).has L = true → x.wv.ctr[L] ≠ BitVec.allOnes 64) →
      (x.exec h = 0 → CompletesWith (.rng h d) s x h (rngUses d) (fun wv => wv))
        ∧ (x.exec h ≠ 0 → ∃ t f wv2, exec (.rng h d) s = .next t ∧ Quiet s t
          ∧ Producing s t x (rngUses d) 1 (x.exec h) (fun L => (springBlock (((s.launchOf x.wv).map (·.record.seed)).getD 0)
              x.wv.lwave (BitVec.ofNat 32 (((s.groupOf x.wv).map (·.stage)).getD 0)) L x.wv.ctr[L]).toNat) none f wv2
          ∧ ∀ L : Lane, wv2.ctr[L] = if (x.exec h).has L then x.wv.ctr[L] + 1 else x.wv.ctr[L])

/-! ## Index registers -/

/-- R142, R154: a descriptor that XSET accepts. -/
def GoodDescriptor (v : Word) : Prop :=
  let base := v.toNat % 2 ^ 8
  let bound := v.toNat / 2 ^ 8 % 2 ^ 9
  v.toNat / 2 ^ 21 < 2 ∧ 1 ≤ bound ∧ bound ≤ 256 ∧ base + bound ≤ 256

/-- Index register `n` has become `f`, and every other index register is as before. -/
def OnlyX (wv0 wv1 : Wave) (n : XNum) (desc : Word) (idx : Lane → Byte) : Prop :=
  (∃ xs, wv1 = { wv0 with xregs := xs }) ∧ (wv1.xreg n).desc = desc ∧ (∀ L : Lane, (wv1.xreg n).idx[L] = idx L)
    ∧ ∀ m, m ≠ n → wv1.xreg m = wv0.xreg m

/-- R145: an index reduced modulo 256, or modulo BOUND under RING. -/
def reducedIndex (desc : Word) (v : Int) : Byte :=
  BitVec.ofInt 8 (v % (if desc.toNat / 2 ^ 21 % 4 = 1 then ((desc.toNat / 2 ^ 8 % 2 ^ 9 : Nat) : Int) else 256))

/-- R154 to R157: XSET of a good descriptor sets the descriptor and, where asked, the index of each EXEC lane to 0; XIDX and
XADD set the index of each EXEC lane to the operand, or to the sum, reduced by the descriptor; XRD reads the index or the
descriptor; XCLR gives the registers of its mask the descriptor 0x100 and the index 0 in EXEC lanes. No other register
changes but by the steps of the operand's own index register, which XSET, XIDX and XADD make first (R148; that they come first
is the model's choice, log entry 32). -/
def Obligations.IndexRegisters : Prop :=
  (∀ s x h n z a, Clear s x h (xsetUses a) → NoMismatch s x → (x.exec h ≠ 0 → GoodDescriptor (uniformW s x h (xsetUses a) 0)) →
      CompletesSo (.xset h n z a) s x h (early (xsetUses a)) (fun wv wv1 =>
        let wv0 := wv.stepAll (x.exec h) (xsetUses a).steps
        if x.exec h = 0 then wv1 = wv else OnlyX wv0 wv1 n (uniformW s x h (xsetUses a) 0)
          (fun L => if z = true ∧ (x.exec h).has L = true then 0 else (wv0.xreg n).idx[L])))
    ∧ (∀ s x h n a, Clear s x h (xidxUses a) → NoMismatch s x →
      CompletesSo (.xidx h n a) s x h (early (xidxUses a)) (fun wv wv1 =>
        let wv0 := wv.stepAll (x.exec h) (xidxUses a).steps
        OnlyX wv0 wv1 n (wv0.xreg n).desc (fun L =>
          if (x.exec h).has L then reducedIndex (wv0.xreg n).desc (operandW s x h (xidxUses a) 0 L).toInt else (wv0.xreg n).idx[L])))
    ∧ (∀ s x h n a, Clear s x h (xidxUses a) → NoMismatch s x →
      CompletesSo (.xadd h n a) s x h (early (xidxUses a)) (fun wv wv1 =>
        let wv0 := wv.stepAll (x.exec h) (xidxUses a).steps
        OnlyX wv0 wv1 n (wv0.xreg n).desc (fun L =>
          if (x.exec h).has L then
            reducedIndex (wv0.xreg n).desc ((wv0.xreg n).idx[L].toNat + (operandW s x h (xidxUses a) 0 L).toInt)
          else (wv0.xreg n).idx[L])))
    ∧ LaneResult (fun h (o : XNum × Bool × Dst) => .xrd h o.1 o.2.1 o.2.2) (fun _ _ o => dstUses o.2.2 1) (fun _ _ _ _ _ => True)
      (fun _ x _ o L =>
        { val := if o.2.1 then ((x.wv.xreg o.1).idx[L]).setWidth 128 else (x.wv.xreg o.1).desc.setWidth 128 })
      (fun _ => none)
    ∧ ∀ s x h mask, Clear s x h {} → NoMismatch s x →
      CompletesSo (.xclr h mask) s x h {} (fun wv0 wv1 => (∃ xs, wv1 = { wv0 with xregs := xs })
        ∧ ∀ n : XNum, if x.exec h ≠ 0 ∧ mask.getLsbD n.toNat = true then (wv1.xreg n).desc = 0x100
            ∧ ∀ L : Lane, (wv1.xreg n).idx[L] = if (x.exec h).has L then 0 else (wv0.xreg n).idx[L]
          else wv1.xreg n = wv0.xreg n)

/-! ## Lane exchange -/

/-- R231: what an exchange read of operand `k` delivers from lane `j`: 0 from a dead lane, the fill value from a lane that is out of
range, gone or in another split, else that lane's value. -/
def suppliedFrom (s : State) (x : Site) (h : Hdr) (u : Uses) (k j : Nat) (fill : BitVec 128) : BitVec 128 :=
  if hj : j < 32 then
    if x.wv.dead.has ⟨j, hj⟩ then 0
    else if x.wv.live.has ⟨j, hj⟩ && x.sp.mask.has ⟨j, hj⟩ then operand s x h u k ⟨j, hj⟩ else fill
  else fill

/-- R237, R239: LPICK, RDLANE and WRLANE complete; WRLANE writes lane `k` alone, when it is in EXEC. -/
def Obligations.LanePicks : Prop :=
  LaneResult .lpick (fun _ _ o => lpickUses o) (fun _ _ _ _ _ => True)
      (fun s x h o L =>
        let fill := if o.c.isSome then operand s x h (lpickUses o) 2 L else 0
        { val := suppliedFrom s x h (lpickUses o) 0 (natOperand s x h (lpickUses o) 1 L) fill })
      (fun _ => none)
    ∧ LaneResult .rdlane (fun _ _ o => rdlaneUses o) (fun _ _ _ _ _ => True)
      (fun s x h o _ => { val := suppliedFrom s x h (rdlaneUses o) 0 (uniform s x h (rdlaneUses o) 1).toNat 0 }) (fun _ => none)
    ∧ ∀ s x h o, Clear s x h (wrlaneUses o) → NoMismatch s x →
      CompletesIn (maskOf fun L => (x.exec h).has L && decide (L.val = (uniform s x h (wrlaneUses o) 1).toNat)) (.wrlane h o) s x h
        (wrlaneUses o) (fun L => { val := operand s x h (wrlaneUses o) 0 L }) none

/-- R238: the answer of POLL over the participants. -/
def polled (m : PollMode) (ps : List Bool) : Bool :=
  match m with
  | .any => ps.any (fun p => p)
  | .all => ps.all (fun p => p)
  | .same => ps.all (fun p => p) || ps.all (fun p => !p)

/-- R238, R240: POLL, ELECT and MATCH complete over the EXEC lanes. -/
def LaneVotes : Prop :=
  LaneResult (fun h (o : PollMode × PNum × PNum) => .poll h (.pred o.1 o.2.1) o.2.2) (fun _ _ o => pollPredUses o.2.1 o.2.2)
      (fun _ _ _ _ _ => True)
      (fun _ x h o _ => { p := polled o.1 ((Mask.lanes (x.exec h)).map (fun M => (x.wv.pred o.2.2).has M)) })
      (fun o => some o.2.1)
    ∧ LaneResult (fun h (o : Dst × PNum) => .poll h (.mask o.1) o.2) (fun _ _ o => pollMaskUses o.1 o.2) (fun _ _ _ _ _ => True)
      (fun _ x h o _ => { val := (x.exec h &&& x.wv.pred o.2).setWidth 128 }) (fun _ => none)
    ∧ LaneResult .elect (fun _ _ d => electUses d) (fun _ _ _ _ _ => True)
      (fun _ x h _ L => { p := (Mask.lanes (x.exec h)).head? == some L }) (fun d => some d)
    ∧ LaneResult .matchI (fun _ _ o => matchUses o) (fun _ _ _ _ _ => True)
      (fun s x h o L =>
        let v (M : Lane) : BitVec 128 := operand s x h (matchUses o) 0 M
        { val := if o.all then
            (if ∀ M : Lane, (x.exec h).has M = true → v M = v (Mask.lowest (x.exec h)) then (x.exec h).setWidth 128 else 0)
          else (maskOf fun M => (x.exec h).has M && decide (v M = v L)).setWidth 128 }) (fun _ => none)

/-- R241: one step of a fold on integers. -/
def foldedWith (op : RedOp) (a b : Int) : Int :=
  match op with
  | .add => a + b
  | .min => min a b
  | .max => max a b
  | .and => (BitVec.ofInt 128 a &&& BitVec.ofInt 128 b).toInt
  | .or => (BitVec.ofInt 128 a ||| BitVec.ofInt 128 b).toInt
  | .xor => (BitVec.ofInt 128 a ^^^ BitVec.ofInt 128 b).toInt

/-- R241: the fold of values, wrapped to the type. -/
def foldedOf (op : RedOp) (t : IType) (vs : List Int) : BitVec 128 :=
  t.write (vs.foldl (foldedWith op) (match op with | .min => t.greatest | .max => t.least | .and => -1 | .add | .or | .xor => 0))

/-- R241, R242: REDUX, SCAN and MAXIDX complete: the fold of all participants, of those up to a lane (below it under EXCL), and the
lowest participant whose rank no other exceeds. -/
def LaneFolds : Prop :=
  LaneResult .redux (fun _ _ o => reduxUses o) (fun _ _ _ _ _ => True)
      (fun s x h o _ => { val := foldedOf o.op o.ty ((Mask.lanes (x.exec h)).map (intOperand s x h (reduxUses o) o.ty 0)) })
      (fun _ => none)
    ∧ LaneResult .scan (fun _ _ o => reduxUses o) (fun _ _ _ _ _ => True)
      (fun s x h o L => { val := foldedOf o.op o.ty (((Mask.lanes (x.exec h)).filter
        (fun M => if o.excl then decide (M < L) else decide (M ≤ L))).map (intOperand s x h (reduxUses o) o.ty 0)) })
      (fun _ => none)
    ∧ LaneResult .maxidx (fun _ _ o => maxidxUses o) (fun _ _ _ _ _ => True)
      (fun s x h o _ =>
        let rank (L : Lane) : Nat := (fmtOf o.ty).rank (natOperand s x h (maxidxUses o) 0 L)
        { val := BitVec.ofNat 128 (((Mask.lanes (x.exec h)).find?
            (fun L => (Mask.lanes (x.exec h)).all (fun M => decide (rank M ≤ rank L)))).elim 0 (·.val)) })
      (fun _ => none)

/-- R238, R240: POLL, ELECT and MATCH complete over the EXEC lanes. R241, R242: REDUX, SCAN and MAXIDX complete: the fold of
all participants, of those up to a lane (below it under EXCL), and the lowest participant whose rank no other exceeds. -/
def Obligations.LaneVotesAndFolds : Prop := LaneVotes ∧ LaneFolds

/-! ## Control flow -/

/-- R209: Divide, where neither part arrives at once. A uniform branch moves the split whole; a divergent one leaves the lanes not
taken in its slot, the taken ones in a new split, and both under a record of the divergence unless they reconverge where the
split already does. Every part starts a new block. -/
def DivisionOfSplits : Prop :=
  ∀ (t : SplitTable) (k : Nat) (sp : Split) (m : Mask) (target next r : Word) (gone : Mask) (chk : Bool), k < 4 →
    t.split? k = some sp → t.divideFits sp m r = true →
    let rest := sp.mask &&& ~~~m
    let new := (t.divide k m target next r gone chk).1
    (m = 0 → next ≠ sp.rpc → new.split? k = some { sp with pc := next, hash := 0xFFFF, emask := sp.mask })
      ∧ (m ≠ 0 → rest = 0 → target ≠ sp.rpc → new.split? k = some { sp with pc := target, hash := 0xFFFF, emask := sp.mask })
      ∧ (m ≠ 0 → rest ≠ 0 → next ≠ r → target ≠ r → ∃ (l : BitVec 5) (j : Nat), j ≠ k ∧ t.split? j = none
        ∧ new.split? k = some { sp with mask := rest, pc := next, rpc := r, link := l, hash := 0xFFFF, emask := rest }
        ∧ new.split? j = some { sp with mask := m, pc := target, rpc := r, link := l, hash := 0xFFFF, emask := m, yielded := false }
        ∧ if r = sp.rpc then l = sp.link
          else t.rec? l.toNat = none ∧ new.rec? l.toNat = some ⟨sp.mask, r, sp.rpc, sp.mask, 0, sp.fmt, sp.link⟩)

/-- R211, R215: a split arrives whose lanes are the last that its record awaits: with checking enabled and a mask that differs from the
lanes that have arrived the mismatch is reported; in either case the record is freed and the lanes stand in one split at the
record's PC, in a new block, with the record's FMT. -/
def MergeOfSplits : Prop :=
  ∀ (t : SplitTable) (k : Nat) (sp : Split) (r : Rec) (gone : Mask) (chk : Bool), k < 4 → t.split? k = some sp →
    t.rec? sp.link.toNat = some r → r.pend &&& ~~~sp.mask &&& ~~~gone = 0 → r.mask &&& ~~~gone ≠ 0 → r.pc ≠ r.rpc →
    let merged := r.mask &&& ~~~gone
    let new := t.arrive k gone chk
    new.2 = (if chk = true ∧ merged ≠ (r.arr ||| sp.mask) &&& ~~~gone then [⟨merged, r.pc, none⟩] else [])
      ∧ new.1.rec? sp.link.toNat = none
      ∧ ∃ j, new.1.split? j = some ⟨merged, r.pc, r.rpc, merged, 0xFFFF, r.fmt, r.link, false, false, none⟩

/-- R209: Divide, where neither part arrives at once. A uniform branch moves the split whole; a divergent one leaves the lanes
not taken in its slot, the taken ones in a new split, and both under a record of the divergence unless they reconverge where
the split already does. Every part starts a new block. R211, R215: a split arrives whose lanes are the last that its record
awaits: with checking enabled and a mask that differs from the lanes that have arrived the mismatch is reported; in either
case the record is freed and the lanes stand in one split at the record's PC, in a new block, with the record's FMT. The
model's own choices in it are those of log entry 36. -/
def Obligations.SplitsDivideAndMerge : Prop := DivisionOfSplits ∧ MergeOfSplits

/-- A whole register written in the lanes `m` with clean values (R64) and the tag of R60: UNI where `uni` holds and the lanes,
with those that are dead or have exited, are all 32, else GEN. -/
def WroteClean (wv0 wv1 : Wave) (d : RDst) (m : Mask) (uni : Prop) (v : Lane → BitVec 128) : Prop :=
  Wrote wv0 wv1 d m v
    ∧ (m ≠ 0 → let r := wv1.reg d.er[(0 : Lane)].toNat
      (∀ L : Lane, m.has L = true → r.poison[L] = .clean) ∧ (uni ∧ m ||| wv0.gone = fullMask → r.tag = .uni)
        ∧ (¬(uni ∧ m ||| wv0.gone = fullMask) → r.tag = .gen))

/-- R214, R217 to R220: BRA, BRC, BRX, CALL, RET and LOOP complete: each divides the split by its taken lanes; CALL has
written the return address to its link register and LOOP the decremented counter, for whose register it waits. -/
def Obligations.Branches : Prop :=
  let plain : Uses := { precise := true, checking := true }
  let cond (r : VNum) : Uses := { plain with srcs := [condUse 3 (plainSrc r)] }
  let targ (b : Src) : Uses := { plain with srcs := [targetUse b] }
  let count (r : VNum) : Uses := { cond r with dst := some (.reg r .w32 0, 1) }
  (∀ s x h f, Clear s x h plain → SigPasses s x f.sig → CanDivide s x (x.exec h) (target x.sp.pc f.tofs) (target x.sp.pc f.rofs) →
      CompletesBranch (.bra h f) s x h plain (fun a b => b = a) (x.exec h) (target x.sp.pc f.tofs) (target x.sp.pc f.rofs))
    ∧ (∀ s x h z r f,
      let m : Mask := maskOf fun L => (x.exec h).has L && decide ((operandW s x h (cond r) 0 L = 0) = (z = true))
      Clear s x h (cond r) → SigPasses s x f.sig → CanDivide s x m (target x.sp.pc f.tofs) (target x.sp.pc f.rofs) →
        CompletesBranch (.brc h z r f) s x h (cond r) (fun a b => b = a) m (target x.sp.pc f.tofs) (target x.sp.pc f.rofs))
    ∧ (∀ s x h sig rofs b,
      let to' := uniformW s x h (targ b) 0
      Clear s x h (targ b) → SigPasses s x sig → CanDivide s x (x.exec h) to' (target x.sp.pc rofs) →
        CompletesBranch (.brx h sig rofs b) s x h (targ b) (fun a b => b = a) (x.exec h) to' (target x.sp.pc rofs)
          ∧ CompletesBranch (.ret h sig rofs b) s x h (targ b) (fun a b => b = a) (x.exec h) to' (target x.sp.pc rofs))
    ∧ (∀ s x h sig link tofs,
      let u : Uses := { plain with dst := some (.reg link .w32 0, 1) }
      Clear s x h u → SigPasses s x sig → CanDivide s x (x.exec h) (target x.sp.pc tofs) (x.sp.pc + 12) →
        CompletesBranch (.call h sig link (.direct tofs)) s x h u
          (fun a b => WroteClean a b (x.dst u) (x.exec h) True (fun _ => (x.sp.pc + 12).setWidth 128)) (x.exec h) (target x.sp.pc tofs)
          (x.sp.pc + 12))
    ∧ (∀ s x h sig link b,
      let u : Uses := { targ b with dst := some (.reg link .w32 0, 1) }
      let to' := uniformW s x h u 0
      Clear s x h u → SigPasses s x sig → CanDivide s x (x.exec h) to' (x.sp.pc + 12) →
        CompletesBranch (.call h sig link (.reg b)) s x h u
          (fun a b => WroteClean a b (x.dst u) (x.exec h) True (fun _ => (x.sp.pc + 12).setWidth 128)) (x.exec h) to' (x.sp.pc + 12))
    ∧ (∀ s x h r f, Issues s x → (x.wv.reg r.toNat).full = false →
        ∃ t, exec (.loop h r f) s = .next t ∧ t.waves = s.waves ∧ t.mem = s.mem)
    ∧ ∀ s x h r f,
      let dec (L : Lane) : Word := operandW s x h (count r) 0 L - 1
      let m : Mask := maskOf fun L => (x.exec h).has L && decide (dec L ≠ 0)
      Clear s x h (count r) → SigPasses s x f.sig → CanDivide s x m (target x.sp.pc f.tofs) (target x.sp.pc f.rofs) →
        CompletesBranch (.loop h r f) s x h (count r)
          (fun a b => WroteClean a b (x.dst (count r)) (x.exec h) ((x.wv.reg r.toNat).tag = .uni) (fun L => (dec L).setWidth 128)) m (target x.sp.pc f.tofs)
          (target x.sp.pc f.rofs)

/-- R212, R214, R221: SEAL completes and starts a new block; EXIT completes and its EXEC lanes leave the wave, which retires
when none is live and else goes on with the split's other lanes in a new block. -/
def Obligations.BlocksAndExits : Prop :=
  let u : Uses := { checking := true }
  (∀ s x h sig, Clear s x h u → SigPasses s x sig → NoMismatch s x →
      ∃ t wv2, exec (.sealB h sig) s = .next t ∧ t.waves[x.w]? = some wv2 ∧ OnlyWave s t x.w
        ∧ (∃ tb q, wv2 = { x.wv with table := tb, qretired := x.wv.qretired + 1, qended := q })
        ∧ (x.sp.pc + 12 ≠ x.sp.rpc → wv2.table.split? x.slot
          = some { x.sp with pc := x.sp.pc + 12, hash := 0xFFFF, emask := x.sp.mask, nosig := false }))
    ∧ ∀ s x h sig, Clear s x h u → SigPasses s x sig → NoMismatch s x → (s.checking x.wv = false ∨ ∀ k, x.wv.table.rec? k = none) →
      x.wv.live ≠ 0 →
      ∃ t wv2, exec (.exit h sig) s = .next t ∧ t.waves[x.w]? = some wv2
        ∧ wv2.live = x.wv.live &&& ~~~x.exec h ∧ wv2.dead = x.wv.dead ∧ wv2.regs = x.wv.regs ∧ wv2.qretired = x.wv.qretired + 1
        ∧ (wv2.live = 0 → wv2.life = .retired)
        ∧ (wv2.live ≠ 0 → x.sp.mask &&& ~~~x.exec h ≠ 0 → x.sp.pc + 12 ≠ x.sp.rpc → ∃ sp, wv2.table.split? x.slot = some sp
          ∧ sp.mask = x.sp.mask &&& ~~~x.exec h ∧ sp.pc = x.sp.pc + 12 ∧ sp.hash = 0xFFFF ∧ sp.emask = sp.mask)

/-- R51, R222, R224: NOP completes without effect; SYNC completes without effect once every register is full, no window is
locked and no CAS predicate is due, and while one of the three is not so it waits: nothing but the mark that it has waited
changes; YIELD completes and marks its wave's splits; BKPT completes without effect, or, where breakpoints are enabled for the
launch, completes and makes the wave stop with its tag, which it does once no result is awaited. -/
def Obligations.PlainControl : Prop :=
  (∀ s x h, Clear s x h {} → NoMismatch s x → CompletesWith (.nop h) s x h {} (fun wv => wv))
    ∧ (∀ s x h, Clear s x h {} → NoMismatch s x → (∀ r ∈ x.wv.regs, r.2.full = true) → x.wv.locks = [] →
      (∀ f ∈ x.wv.flights, f.pred = none) → CompletesWith (.sync h) s x h {} (fun wv => wv))
    ∧ (∀ s x h, Clear s x h {} →
      (∃ r ∈ x.wv.regs, r.2.full = false) ∨ x.wv.locks ≠ [] ∨ (∃ f ∈ x.wv.flights, f.pred ≠ none) →
      exec (.sync h) s = .next { s with cur := none, waited := true })
    ∧ (∀ s x h, Clear s x h {} → NoMismatch s x → CompletesWith (.yield h) s x h {} (fun wv =>
      { wv with table := { wv.table with slots := (wv.table.slots.map (fun o => o.map (fun sp => { sp with yielded := true }))) } }))
    ∧ (∀ s x h tag, Clear s x h {} → NoMismatch s x → x.exec h = 0 ∨ (∀ l, s.launchOf x.wv = some l → l.bkpt = false) →
      CompletesWith (.bkpt h tag) s x h {} (fun wv => wv))
    ∧ ∀ s x h tag l, Clear s x h {} → NoMismatch s x → x.exec h ≠ 0 → s.launchOf x.wv = some l → l.bkpt = true →
      x.wv.life = .resident → x.wv.stopped = none → x.wv.stopping = none →
      ∃ t wv2, exec (.bkpt h tag) s = .next t ∧ t.waves[x.w]? = some wv2 ∧ wv2.stopping = some (some tag)
        ∧ wv2.qretired = x.wv.qretired + 1 ∧ OnlyWave s t x.w
        ∧ (x.wv.flights = [] → x.wv.entering = [] → x.wv.faulting = none → x.wv.reinj = [] → x.wv.rq.length ≤ 8 →
          ∃ wv3, (t.settleStop x.w).waves[x.w]? = some wv3 ∧ wv3.stopped = some (some tag) ∧ wv3.stopping = none
            ∧ wv3.regs = wv2.regs ∧ wv3.rq = wv2.rq)

/-- R69: a value that FCTL, FMT, MFLAGS or a lane's FSTAT takes. -/
def GoodSpecial (r : SwrReg) (L : Lane) (v : Nat) : Prop :=
  match r with
  | .fctl => v < 2 ^ 10 ∧ 1 ≤ v % 8 ∧ v % 8 ≤ 5
  | .fmt => v < 2 ^ 10 ∧ v % 16 ≤ 12 ∧ v / 16 % 16 ≤ 12
  | .mflags => v < 2 ^ 5 ∧ v / 2 % 2 = 0
  | .fstat => v < 2 ^ 8 ∧ (L ≠ 0 → v < 2 ^ 7)

/-- R69, R226, R227: SRD completes with the value of its special register or predicate; SWR of a value that its register takes
completes, and that register alone has it. The model's own choices in it are those of log entry 30. -/
def Obligations.SpecialRegisters : Prop :=
  LaneResult (fun h (o : Bool × Dst × BitVec 8) => .srd h o.1 o.2.1 o.2.2) (fun _ _ o => srdUses o.1 o.2.1 o.2.2) (fun _ _ _ _ _ => True)
      (fun s x h o L => { val := operand s x h (srdUses o.1 o.2.1 o.2.2) 0 L }) (fun _ => none)
    ∧ ∀ s x h r a, Clear s x h (swrUses r a) → NoMismatch s x →
      (∀ L : Lane, (x.exec h).has L = true → GoodSpecial r L (operandW s x h (swrUses r a) 0 L).toNat) →
      let v := uniformW s x h (swrUses r a) 0
      CompletesSo (.swr h r a) s x h (swrUses r a) (fun wv0 wv1 => if x.exec h = 0 then wv1 = wv0 else match r with
        | .fctl => wv1 = { wv0 with fctl := v }
        | .mflags => wv1 = { wv0 with mflags := v }
        | .fmt => wv1 = wv0.withSplit x.slot (fun sp => { sp with fmt := v.setWidth 10 })
        | .fstat => (∃ fs, wv1 = { wv0 with fstat := fs })
          ∧ ∀ L : Lane, wv1.fstat[L] = if (x.exec h).has L then operandW s x h (swrUses r a) 0 L else wv0.fstat[L])

/-! ## Traps -/

/-- R223, R276, R277, R284: TRAP in some lane enters its launch's handler with cause 0x1A0 + imm5, the lowest EXEC lane and EXEC as
detail, to resume behind it; in no lane it has no effect. Of two causes raised in one cycle the first takes the trap, and the
live lanes that the second names stay in its entry, with its cause. The model's own choices in it are those of log entries 21
and 36. -/
def Obligations.SoftwareTraps : Prop :=
  (∀ s x h n l, Clear s x h {} → x.exec h ≠ 0 → CanTrap s x l → ∃ t wv2, exec (.trap h n) s = .next t
      ∧ Trapped s t x l (BitVec.ofNat 9 (0x1A0 + n.toNat)) (Mask.lowest (x.exec h)).val (x.exec h) (some (x.sp.pc + 12)) wv2
      ∧ wv2.qretired = x.wv.qretired + 1 ∧ (x.wv.flights = [] → x.wv.faulting = none → x.wv.reinj = [] → wv2.rq = []))
    ∧ (∀ s x h n, Clear s x h {} → NoMismatch s x → x.exec h = 0 → CompletesWith (.trap h n) s x h {} (fun wv => wv))
    ∧ ∀ (s : State) w wv l a b, s.waves[w]? = some wv → wv.life ≠ .retired → wv.entering = [a, b] → wv.awaits a.flight = false →
      wv.level < 2 → s.launchOf wv = some l → l.record.handler ≠ 0xFFFFFFFF →
      ∃ wv2, (s.settleTrap w).waves[w]? = some wv2 ∧ wv2.level = wv.level + 1 ∧ wv2.frame = a.frame (wv.level + 1) ∧ wv2.entering = []
        ∧ ∀ e, b.entry = some e → e.remain &&& ~~~wv.gone ≠ 0 → { e with remain := e.remain &&& ~~~wv.gone } ∈ wv2.rq

/-- The wave of WAVEID `w` with its bit of a mask. -/
def bitOf (w : BitVec 4) : BitVec 16 := BitVec.ofNat 16 (2 ^ w.toNat)

/-- R215, R225: RTT above level 0 returns: the level, the splits, the replay queue and (from level 2) the frame below stand again,
the entries of the level are to be re-injected but for those of class 8 without RETRY, whose lanes die; the trapping split goes on
at its resume PC, behind the instruction under SKIP, exempt from the next check under NOSIG. At level 0 it traps with 0x1E3 for the
lowest lane of its split. The model's own choices in it are those of log entries 36 and 66. -/
def Obligations.ReturnsFromTraps : Prop :=
  let u : Uses := { hold := fun s w => ((s.waves[w]?).map (·.returnWaits)).getD false }
  (∀ s x h retry skip nosig f rest, Clear s x h u → x.exec h ≠ 0 → (∀ g, s.groupOf x.wv = some g → g.baton.waiting &&& bitOf x.wv.waveid = 0) → x.wv.level ≠ 0 → x.wv.saved = f :: rest → f.killed = 0 →
      x.wv.pending = [] → (retry = true ∨ ∀ e ∈ x.wv.rq, e.cause.toNat / 2 ^ 5 ≠ 8) →
      (∀ pc sp, f.resume = some pc → f.table.split? f.slot = some sp → pc ≠ sp.rpc ∧ pc + 12 ≠ sp.rpc ∨ s.checking x.wv = false) →
      (∀ k sp, k < 4 → f.table.split? k = some sp → sp.wait = none → (∀ e ∈ x.wv.rq, e.kind = 5 → e.slot ≠ k) → sp.pc ≠ sp.rpc) →
      ∃ t wv2, exec (.rtt h retry skip nosig) s = .next t ∧ t.waves[x.w]? = some wv2 ∧ OnlyWave s t x.w
        ∧ wv2.level = x.wv.level - 1 ∧ wv2.saved = rest ∧ wv2.reinj = x.wv.rq ∧ wv2.rq = f.rq ∧ wv2.regs = x.wv.regs
        ∧ wv2.frame = (if x.wv.level = 2 then f.frame else x.wv.frame) ∧ wv2.qretired = x.wv.qretired + 1
        ∧ (∀ k sp, k < 4 → k ≠ f.slot → f.table.split? k = some sp → wv2.table.split? k = some sp)
        ∧ ∀ sp, f.slot < 4 → f.table.split? f.slot = some sp →
          let pc' := match f.resume with
            | none => sp.pc
            | some pc => if skip = true ∧ pc = x.wv.frame.tpc then pc + 12 else pc
          pc' ≠ sp.rpc → wv2.table.split? f.slot = some { sp with pc := pc', nosig := (sp.nosig || nosig) })
    ∧ (∀ s x h skip nosig, Clear s x h u → x.exec h ≠ 0 → x.wv.level ≠ 0 →
      ∃ t wv2, exec (.rtt h false skip nosig) s = .next t ∧ t.waves[x.w]? = some wv2
        ∧ ∀ e ∈ x.wv.rq, e.cause.toNat / 2 ^ 5 = 8 → ∀ L : Lane, e.remain.has L = true → x.wv.live.has L = true
          → wv2.dead.has L = true)
    ∧ (∀ s x h retry skip nosig l, Clear s x h u → x.exec h ≠ 0 → x.wv.level = 0 → CanTrap s x l →
      TrapsPrecise (.rtt h retry skip nosig) s x l 0x1E3 (Mask.lowest x.sp.mask).val 0)
    ∧ (∀ s x h retry skip nosig, Clear s x h u → NoMismatch s x → x.exec h = 0 →
      CompletesWith (.rtt h retry skip nosig) s x h u (fun wv => wv))
    ∧ ∀ s x h retry skip nosig, Clear s x h {} → x.exec h ≠ 0 → x.wv.returnWaits = true →
      exec (.rtt h retry skip nosig) s = .next { s with cur := none, waited := true }

/-- R214, R215: the checking instructions `mk h sig`, with operands `u`, make the two checks: one whose SIG16 is not the split's hash
traps with 0x1E0, and one whose split is not what its block entered with, less the lanes that are gone, with 0x1E1. -/
def ChecksSignature (mk : Hdr → BitVec 16 → Instr) (u : Uses) : Prop :=
  ∀ s x h sig l, Clear s x h u → CanTrap s x l → s.checking x.wv = true → x.sp.nosig = false →
    (x.sp.hash ≠ sig → TrapsPrecise (mk h sig) s x l 0x1E0 (Mask.lowest x.sp.mask).val (sig ++ x.sp.hash))
      ∧ (x.sp.hash = sig → x.sp.mask ≠ x.sp.emask &&& ~~~x.wv.gone →
        TrapsPrecise (mk h sig) s x l 0x1E1 (Mask.lowest x.sp.mask).val x.sp.mask)

/-- R214, R215, R154: SEAL, EXIT, BRA, BRC, BRX, CALL, RET and LOOP, every checking instruction, trap with 0x1E0 or 0x1E1 where
the hash or the mask check fails and have no effect, and so does XSET of a descriptor that it refuses, with 0x058 + n. The
model's own choices in it are those of log entry 36. -/
def Obligations.PreciseTraps : Prop :=
  let u : Uses := { checking := true }
  let plain : Uses := { u with precise := true }
  let cond (r : VNum) : Uses := { plain with srcs := [condUse 3 (plainSrc r)] }
  let targ (b : Src) : Uses := { plain with srcs := [targetUse b] }
  let linked (v : Uses) (link : VNum) : Uses := { v with dst := some (.reg link .w32 0, 1) }
  ChecksSignature .sealB u ∧ ChecksSignature .exit u
    ∧ (∀ tofs rofs, ChecksSignature (fun h sig => .bra h ⟨sig, tofs, rofs⟩) plain)
    ∧ (∀ z r tofs rofs, ChecksSignature (fun h sig => .brc h z r ⟨sig, tofs, rofs⟩) (cond r))
    ∧ (∀ rofs b, ChecksSignature (fun h sig => .brx h sig rofs b) (targ b) ∧ ChecksSignature (fun h sig => .ret h sig rofs b) (targ b))
    ∧ (∀ link tofs, ChecksSignature (fun h sig => .call h sig link (.direct tofs)) (linked plain link))
    ∧ (∀ link b, ChecksSignature (fun h sig => .call h sig link (.reg b)) (linked (targ b) link))
    ∧ (∀ r tofs rofs, ChecksSignature (fun h sig => .loop h r ⟨sig, tofs, rofs⟩) (linked (cond r) r))
    ∧ ∀ s x h n z a l, Clear s x h (xsetUses a) → CanTrap s x l → x.exec h ≠ 0 → ¬GoodDescriptor (uniformW s x h (xsetUses a) 0) →
      TrapsPrecise (.xset h n z a) s x l (BitVec.ofNat 9 (0x058 + n.toNat)) (Mask.lowest (x.exec h)).val
        (uniformW s x h (xsetUses a) 0)

/-! ## Memory -/

/-- R10: the little-endian number in the `n` bytes of `f`. -/
def valueOf (f : Nat → Byte) : Nat → Nat
  | 0 => 0
  | n + 1 => valueOf f n + (f n).toNat * 256 ^ n

/-- R10: bytes with the low `n` bytes of `v`, little-endian, put in the places `place`. -/
def putAt {K : Type} [DecidableEq K] (mem : K → Byte) (place : Nat → K) (n v : Nat) : K → Byte := fun k =>
  match (List.range n).find? (fun i => decide (place i = k)) with
  | some i => BitVec.ofNat 8 (v / 256 ^ i)
  | none => mem k

/-- R185: the bytes after the stores of the lanes of a mask, in ascending lane order. -/
def afterStores {K : Type} [DecidableEq K] (mem : K → Byte) (m : Mask) (place : Lane → Nat → K) (n : Nat) (v : Lane → Nat) : K → Byte :=
  (Mask.lanes m).foldl (fun b L => putAt b (place L) n (v L)) mem

/-- What a wave's core observes in a byte of memory (R302): the write held at its instance's pier, else the home's byte. -/
def observed (s : State) (x : Site) (a : Nat) : Byte := Overlay.read (s.pier (some x.wv.coreNo)) s.mem a

/-- R178: the effective address of a lane: the pair of operand `k`, and the signed offset of operand `k + 1` in the ordinary form. -/
def address (s : State) (x : Site) (h : Hdr) (u : Uses) (k : Nat) (sp : Space) (L : Lane) : DWord :=
  (operand s x h u k L).setWidth 64 + if sp = .ordinary then (operandW s x h u (k + 1) L).signExtend 64 else 0

/-- The handle in operand `k`. -/
def handleIn (s : State) (x : Site) (h : Hdr) (u : Uses) (k : Nat) : DWord := (uniform s x h u k).setWidth 64

/-- R304: the scope of an access: its own, or the one that its handle gives. -/
def scopeIn (s : State) (x : Site) (m : MemF) (hd : DWord) : Scope :=
  if m.space = .handle then s.handleScope x.wv.coreNo hd else m.scope

/-- The state once a release that the access makes has drained the pier (R302, R312). -/
def released (s : State) (x : Site) (sc : Scope) (o : Order) : State := s.releaseAt false x.wv.coreNo sc o

/-- The same for a store or a read-modify-write that the pier does not take (`held` false): after a release fence at the instance the
pier has drained too (R316). -/
def fenceReleased (s : State) (x : Site) (sc : Scope) (o : Order) (held : Bool) : State :=
  (released s x sc o).passFence false x.wv.coreNo x.w held o

/-- R302, R323: a store that stays at the pier: a plain one of a scope up to SP, or an ordered one of scope SP. -/
def StaysAtPier (sc : Scope) (o : Order) : Prop := if o = .plain then sc.num ≤ 4 else sc = .sp

/-- The lanes `m` of a global access reach memory: every address is aligned (R180), its handle well formed (R297), translated with the right that the
access needs to a place of this package (R336 to R338), on a device that answers (R371), with no uncorrectable word (R190). -/
def Reaches (s : State) (x : Site) (m : Mask) (mf : MemF) (hd : DWord) (g : GAcc) (ea : Lane → DWord) (place : Lane → Phys) : Prop :=
  (mf.space = .handle → handleBad hd = false) ∧ ∃ l, s.launchOf x.wv = some l ∧ ∀ L, m.has L = true →
    (ea L).toNat % mf.width.bytes = 0 ∧ (s.translate x.wv.die' l.domain (ea L) g.need).1 = .ok (place L)
      ∧ (place L).kind.toNat ≤ 2 ∧ s.keyUp (memKey (place L).kind (place L).pa) = true
      ∧ s.seenBad (some x.wv.coreNo) (memKey (place L).kind (place L).pa) mf.width.bytes = false

/-- The key of byte `i` of a place. -/
def keyOf (p : Phys) (i : Nat) : Nat := memKey p.kind p.pa + i

/-- The lanes `m` of a scratchpad or span-storage access reach a pool: the addresses are aligned (R180) and in bounds (R181, R306), the
handle names a current instance of the wave's die that its core is in (R306), and no word is uncorrectable (R168). -/
def PoolReaches (s : State) (x : Site) (m : Mask) (mf : MemF) (hd : DWord) (ea : Lane → DWord) (place : Lane → Nat × Nat) : Prop :=
  (mf.space = .sps → handleBad hd = false ∧ handleDie hd = x.wv.coreNo / 64
    ∧ ∃ sp, s.handleSpan hd = some sp ∧ sp.members.contains (x.wv.coreNo % 64) = true)
  ∧ ∀ L, m.has L = true → (ea L).toNat % mf.width.bytes = 0
    ∧ s.poolPlace x.wv mf.space hd (ea L) mf.width.bytes = some (place L)
    ∧ ∀ w ∈ wordsOf (place L).2 mf.width.bytes, w ∉ (s.coreAt (place L).1).poolBad

/-- A byte of a core's pool. -/
def poolByte (s : State) (k : Nat × Nat) : Byte := (s.coreAt k.1).pool.read k.2

/-- R178, R187, R188: a load of global memory issues a producer of the bytes that its core observes, and changes no memory but by the
drain of a release. -/
def GlobalLoad (mk : Hdr → LdOp → Instr) (uni : Bool) : Prop := ∀ s x h (o : LdOp) place,
  let u := ldUses uni o
  let hd := handleIn s x h u 1
  let s1 := released s x (scopeIn s x o.m hd) o.m.order
  Clear s x h u → NoMismatch s x → s.det x.wv = false → x.exec h ≠ 0 →
  Reaches s1 x (x.exec h) o.m hd .load (address s x h u 0 o.m.space) place →
  ∃ t f wv2, exec (mk h o) s = .next t ∧ f.uni = uni ∧ (∀ a, t.mem.read a = s1.mem.read a)
    ∧ Producing s1 t x u 1 (x.exec h) (fun L => valueOf (fun i => observed s1 x (keyOf (place L) i)) o.m.width.bytes) none f wv2

/-- R178, R187, R188: LD and LDU complete their issue where every lane's address is good: a producer stands for the
destination with the bytes that the core observes, and no byte of memory has changed but by the drain of a release. The
model's own choices in it are those of log entry 8. -/
def Obligations.GlobalLoads : Prop := GlobalLoad .ld false ∧ GlobalLoad .ldu true

/-- R181, R184, R187, R306: LDS and LDT complete their issue with the bytes of the pool or of the lane's tarn slice, and
change no memory. -/
def Obligations.LocalLoads : Prop :=
  (∀ s x h (o : LdOp) place,
      let u := ldUses false o
      Clear s x h u → NoMismatch s x → s.det x.wv = false → x.exec h ≠ 0 →
      PoolReaches s x (x.exec h) o.m (handleIn s x h u 1) (address s x h u 0 o.m.space) place →
      ∃ t f wv2, exec (.lds h o) s = .next t ∧ (∀ a, t.mem.read a = s.mem.read a) ∧ (∀ k, poolByte t k = poolByte s k)
        ∧ Producing s t x u 1 (x.exec h) (fun L => valueOf (fun i => poolByte s ((place L).1, (place L).2 + i)) o.m.width.bytes) none
          f wv2)
    ∧ ∀ s x h (o : LdOp) l,
      let u := ldUses false o
      let ea := address s x h u 0 .ordinary
      let at' (L : Lane) : Nat := L.val * l.record.tarn + (ea L).toNat
      Clear s x h u → NoMismatch s x → x.exec h ≠ 0 → s.launchOf x.wv = some l →
      (∀ L : Lane, (x.exec h).has L = true → (ea L).toNat % o.m.width.bytes = 0 ∧ (ea L).toNat + o.m.width.bytes ≤ l.record.tarn
        ∧ ∀ w ∈ wordsOf (at' L) o.m.width.bytes, w ∉ x.wv.tarnBad) →
      ∃ t f wv2, exec (.ldt h o) s = .next t ∧ (∀ a, t.mem.read a = s.mem.read a) ∧ (∀ k, poolByte t k = poolByte s k)
        ∧ Producing s t x u 1 (x.exec h) (fun L => valueOf (fun i => x.wv.tarnByte (at' L + i)) o.m.width.bytes) none f wv2

/-- R188: the one access of an LDU marks every lane. -/
def marksOf (f : Flight) (m : Mask) : Mask := if f.uni = true ∧ m ≠ 0 then f.entry.remain else m

/-- R190: the lanes of a flight that a response marks ERR: of those it names, those whose data a memory supplied. -/
def errLanes (f : Flight) (err : Mask) : Mask := marksOf f (f.entry.remain &&& f.ecc &&& err)

/-- R189: the lanes that it marks RACE: of those it names, those of a plain load that a plain store of another wave has met. -/
def raceLanes (f : Flight) (race err : Mask) : Mask :=
  marksOf f (f.entry.remain &&& f.racy &&& f.raced &&& race) &&& ~~~errLanes f err

/-- R62, R65, R177, R188, R189, R190, R194: a memory response lands in the lanes of its flight whose values are known: the live
ones take them (a value the model leaves free, marked, where the word is uncorrectable or the plain load has raced), a compare
and swap writes its predicate as well, the flight is gone once every lane is answered and its registers are full, unless lanes of
the instruction have met a translation fault (R349); an answer to a granule that has been granted again is dropped. The model's
own choices in it are those of log entries 8 and 19. -/
def Obligations.MemoryResponses : Prop :=
  (∀ s w k wv f race err src, s.waves[w]? = some wv → wv.flights.find? (fun g => g.id == k) = some f → f.entry.kind ≠ 5 →
      f.entry.remain ≠ 0 → f.entry.remain &&& ~~~f.known = 0 → f.dst.Ok → (∀ g ∈ wv.flights, g.of ≠ some (2 * k)) →
      (wv.place = none ∨ f.gen = s.genOf w wv.coreNo f.dst.er[(0 : Lane)].toNat) →
      let d : RDst := if f.pred.isSome then { f.dst with n := f.dst.n / 2 } else f.dst
      let hit (L : Lane) : Prop := f.entry.remain.has L = true ∧ wv.live.has L = true
      ∃ t wv2, exec (.memoryResponse w k race err src) s = .next t ∧ t.waves[w]? = some wv2
        ∧ (∀ v, v ≠ w → t.waves[v]? = s.waves[v]?) ∧ t.mem = s.mem ∧ t.cores = s.cores
        ∧ wv2.flights = wv.flights.filter (fun g => g.id != k)
        ∧ (∀ L : Lane, hit L → (errLanes f err).has L = false → (raceLanes f race err).has L = false → Landed wv wv2 d L f.val[L])
        ∧ (f.dst.elt = none → ∀ L : Lane, hit L → ∀ i, i < d.n → (wv2.reg (d.er[L].toNat + i)).poison[L]
              = if (errLanes f err).has L then .err else if (raceLanes f race err).has L then .race else f.poison[L])
        ∧ (∀ r (L : Lane), f.entry.remain.has L = false ∨ wv.live.has L = false ∨ ¬Covers d r L →
            (wv2.reg r).val[L] = (wv.reg r).val[L])
        ∧ (∀ p v, f.pred = some (p, v) → p ≠ 7 → ∀ L : Lane, hit L → (wv2.pred p).has L = v.has L)
        ∧ (∀ p (L : Lane), (∀ v, f.pred ≠ some (p, v)) ∨ f.entry.remain.has L = false ∨ wv.live.has L = false →
            (wv2.pred p).has L = (wv.pred p).has L)
        ∧ (f.dst.ind = false → wv.faulting = none → ∀ i, i < f.dst.n →
            (wv2.reg (f.dst.er[(0 : Lane)].toNat + i)).full = true))
    ∧ ∀ s w k wv f race err src, s.waves[w]? = some wv → wv.flights.find? (fun g => g.id == k) = some f → f.entry.kind ≠ 5 →
      f.entry.remain ≠ 0 → f.entry.remain &&& ~~~f.known = 0 → wv.place ≠ none →
      f.gen ≠ s.genOf w wv.coreNo f.dst.er[(0 : Lane)].toNat → (∀ g ∈ wv.flights, g.of ≠ some (2 * k)) →
      ∃ t wv2, exec (.memoryResponse w k race err src) s = .next t ∧ t.waves[w]? = some wv2 ∧ wv2.regs = wv.regs
        ∧ wv2.preds = wv.preds ∧ wv2.flights = wv.flights.filter (fun g => g.id != k)

/-- R185, R187, R302, R323: ST completes: in ascending lane order each EXEC lane's data stands in the bytes at its address as its core
observes them; a plain store of a scope up to SP and an ordered one of scope SP leave the homes as they were, and after every
other the homes hold the data too; no other byte or register has changed, and of other waves only which of their loads have met
a store or hold a pier's bytes. -/
def GlobalStores : Prop := ∀ s x h (o : StOp) place,
  let u := stUses o
  let hd := handleIn s x h u 2
  let sc := scopeIn s x o.m hd
  let s1 := fenceReleased s x sc o.m.order (pierTakes sc o.m.order)
  let after (b : Nat → Byte) : Nat → Byte :=
    afterStores b (x.exec h) (fun L i => keyOf (place L) i) o.m.width.bytes (natOperand s x h u 0)
  Clear s x h u → NoMismatch s x → s.det x.wv = false → x.exec h ≠ 0 → (s.instanceOf x.wv.coreNo).isSome = true →
  Reaches s1 x (x.exec h) o.m hd .store (address s x h u 1 o.m.space) place →
  RetiresStoring (.st h o) s x h u (fun t => (∀ a, observed t x a = after (observed s1 x) a)
    ∧ (StaysAtPier sc o.m.order → ∀ a, t.mem.read a = s1.mem.read a)
    ∧ (¬StaysAtPier sc o.m.order → ∀ a, t.mem.read a = after s1.mem.read a))

/-- R184, R185, R187, R188, R306: STS completes with the EXEC lanes' data in the bytes of the pool, STT in the bytes of the lanes' tarn slices;
no other byte has changed. PREF completes without effect. -/
def LocalStores : Prop :=
  (∀ s x h (o : StOp) place,
      let u := stUses o
      Clear s x h u → NoMismatch s x → s.det x.wv = false →
      PoolReaches s x (x.exec h) o.m (handleIn s x h u 2) (address s x h u 1 o.m.space) place →
      ∃ t wv0 wv2, exec (.sts h o) s = .next t ∧ HasRead x wv0 ∧ Retires x h u wv0 wv2 ∧ t.waves[x.w]? = some wv2
        ∧ (∀ v, v ≠ x.w → t.waves[v]? = s.waves[v]?) ∧ (∀ a, t.mem.read a = s.mem.read a)
        ∧ ∀ k, poolByte t k = afterStores (poolByte s) (x.exec h) (fun L i => ((place L).1, (place L).2 + i)) o.m.width.bytes
            (natOperand s x h u 0) k)
    ∧ (∀ s x h (o : StOp) l,
      let u := stUses o
      let ea := address s x h u 1 .ordinary
      let at' (L : Lane) : Nat := L.val * l.record.tarn + (ea L).toNat
      Clear s x h u → NoMismatch s x → s.launchOf x.wv = some l →
      (∀ L : Lane, (x.exec h).has L = true → (ea L).toNat % o.m.width.bytes = 0 ∧ (ea L).toNat + o.m.width.bytes ≤ l.record.tarn) →
      CompletesSo (.stt h o) s x h u (fun wv0 wv1 => (∃ tn bad, wv1 = { wv0 with tarn := tn, tarnBad := bad })
        ∧ ∀ a, wv1.tarnByte a = afterStores wv0.tarnByte (x.exec h) (fun L i => at' L + i) o.m.width.bytes (natOperand s x h u 0) a))
    ∧ ∀ s x h o, Clear s x h (prefUses o) → NoMismatch s x → CompletesWith (.pref h o) s x h (prefUses o) (fun wv => wv)

/-- R185, R187, R302, R323: ST completes: in ascending lane order each EXEC lane's data stands in the bytes at its address as its
core observes them; a plain store of a scope up to SP and an ordered one of scope SP leave the homes as they were, and after every
other the homes hold the data too; no other byte or register has changed, and of other waves only which of their loads have met a
store or hold a pier's bytes. R184, R185, R187, R188, R306: STS completes with the EXEC lanes' data in the bytes of the pool, STT in
the bytes of the lanes' tarn slices; no other byte has changed. PREF completes without effect. The model's own choices in it are
those of log entry 23. -/
def Obligations.Stores : Prop := GlobalStores ∧ LocalStores

/-- R185, R195: read-modify-writes in ascending lane order, each on the bytes that the lanes below it left: the bytes after them, the
old value that each lane read, and whether it stored. -/
def afterRmw {K : Type} [DecidableEq K] (mem : K → Byte) (m : Mask) (place : Lane → Nat → K) (n : Nat) (f : Lane → Nat → Option Nat) :
    (K → Byte) × (Lane → Nat) × (Lane → Bool) :=
  (Mask.lanes m).foldl (fun st L =>
    let old := valueOf (fun i => st.1 (place L i)) n
    ((match f L old with | some v => putAt st.1 (place L) n v | none => st.1),
      (fun M => if M = L then old else st.2.1 M), (fun M => if M = L then (f L old).isSome else st.2.2 M))) (mem, fun _ => 0, fun _ => false)

/-- R191: the effective address of an atomic. -/
def atomAddress (s : State) (x : Site) (h : Hdr) (u : Uses) (off : AtomOff) (L : Lane) : DWord :=
  (operand s x h u 1 L).setWidth 64 + match off with | .ofs o => o.signExtend 64 | .handle _ => 0

/-- R192: what an atomic of `n` bytes stores in place of an old value. -/
def atomStores (s : State) (x : Site) (h : Hdr) (u : Uses) (op : AtomOp) (n : Nat) (L : Lane) (old : Nat) : Option Nat :=
  some (atomNew op old (natOperand s x h u 0 L % 256 ^ n))

/-- R194: what a compare and swap of `n` bytes stores: the new value, if the old one is the expected one. -/
def casStores (s : State) (x : Site) (h : Hdr) (u : Uses) (n : Nat) (L : Lane) (old : Nat) : Option Nat :=
  if old = natOperand s x h u 0 L % 256 ^ n then some (natOperand s x h u 0 L / 256 ^ n % 256 ^ n) else none

/-- R190: the words that the lanes `m` name are correct. -/
def WordsFine (s : State) (x : Site) (m : Mask) (mf : MemF) (place : Lane → Phys) : Prop :=
  ∀ L, m.has L = true → s.seenBad (some x.wv.coreNo) (memKey (place L).kind (place L).pa) mf.width.bytes = false

/-- The state in which a read-modify-write is performed: one that releases under a handle at the instance, or that goes on from a held
store which a release precedes, has drained the pier too (R314, R315, R324; log entry 67). -/
def rmwReady (s : State) (x : Site) (m : MemF) (hd : DWord) (lanes : Mask) (place : Lane → Phys) : State :=
  (fenceReleased s x (scopeIn s x m hd) m.order false).rmwRelease x.wv.coreNo m.width.bytes (decide (m.space = .handle))
    (scopeIn s x m hd) m.order lanes (perLane fun L => some (place L))

/-- R193 to R195, R335: after read-modify-writes the homes hold the bytes that a lane has stored, as the core observes them, and every
other byte as before: the home performs one of any scope. -/
def HomesTake (s1 t : State) (x : Site) (m : Mask) (place : Lane → Phys) (n : Nat) (f : Lane → Nat → Option Nat) : Prop :=
  let r := afterRmw (observed s1 x) m (fun L i => keyOf (place L) i) n f
  ∀ a, ((∃ L i, m.has L = true ∧ r.2.2 L = true ∧ i < n ∧ keyOf (place L) i = a) → t.mem.read a = r.1 a)
    ∧ ((∀ L i, m.has L = true → r.2.2 L = true → i < n → keyOf (place L) i ≠ a) → t.mem.read a = s1.mem.read a)

/-- R193 to R195, R335: a read-modify-write of global memory: every lane's bytes as its core observes them and at the homes, and a producer of the
old values. -/
def GlobalRmw {O : Type} (mk : Hdr → O → Instr) (u : O → Uses) (m : O → MemF) (off : O → AtomOff)
    (f : State → Site → Hdr → O → Lane → Nat → Option Nat) (pred : O → Option PNum) : Prop := ∀ s x h o place,
  let hd := handleIn s x h (u o) 2
  let s0 := fenceReleased s x (scopeIn s x (m o) hd) (m o).order false
  let s1 := rmwReady s x (m o) hd (x.exec h) place
  let r := afterRmw (observed s1 x) (x.exec h) (fun L i => keyOf (place L) i) (m o).width.bytes (f s x h o)
  Clear s x h (u o) → NoMismatch s x → s.det x.wv = false → x.exec h ≠ 0 →
  Reaches s0 x (x.exec h) (m o) hd .atomic (atomAddress s x h (u o) (off o)) place → WordsFine s1 x (x.exec h) (m o) place →
  ∃ t g wv2, exec (mk h o) s = .next t
    ∧ Producing s1 t x (u o) 3 (x.exec h) r.2.1 ((pred o).map (fun p => (p, maskOf fun L => (x.exec h).has L && r.2.2 L))) g wv2
    ∧ (∀ a, observed t x a = r.1 a) ∧ HomesTake s1 t x (x.exec h) place (m o).width.bytes (f s x h o)

/-- R193 to R195, R306: the same in a pool. -/
def PoolRmw {O : Type} (mk : Hdr → O → Instr) (u : O → Uses) (m : O → MemF) (off : O → AtomOff)
    (f : State → Site → Hdr → O → Lane → Nat → Option Nat) (pred : O → Option PNum) : Prop := ∀ s x h o place,
  let r := afterRmw (poolByte s) (x.exec h) (fun L i => ((place L).1, (place L).2 + i)) (m o).width.bytes (f s x h o)
  Clear s x h (u o) → NoMismatch s x → s.det x.wv = false → x.exec h ≠ 0 →
  PoolReaches s x (x.exec h) (m o) (handleIn s x h (u o) 2) (atomAddress s x h (u o) (off o)) place →
  ∃ t g wv2, exec (mk h o) s = .next t
    ∧ Producing s t x (u o) 3 (x.exec h) r.2.1 ((pred o).map (fun p => (p, maskOf fun L => (x.exec h).has L && r.2.2 L))) g wv2
    ∧ (∀ k, poolByte t k = r.1 k) ∧ ∀ a, t.mem.read a = s.mem.read a

/-- R191 to R195, R335: ATOM, ATOMS, CAS and CASS complete their issue, their memory changed lane by lane; RED completes with the
memory of ATOM and no result. The model's own choices in it are those of log entries 23 and 67. -/
def Obligations.Atomics : Prop :=
  GlobalRmw .atom atUses (·.m) (·.off) (fun s x h o => atomStores s x h (atUses o) o.op o.m.width.bytes) (fun _ => none)
    ∧ PoolRmw .atoms atUses (·.m) (·.off) (fun s x h o => atomStores s x h (atUses o) o.op o.m.width.bytes) (fun _ => none)
    ∧ GlobalRmw .cas casUses (·.m) (·.off) (fun s x h o => casStores s x h (casUses o) o.m.width.bytes) (fun o => some o.p)
    ∧ PoolRmw .cass casUses (·.m) (·.off) (fun s x h o => casStores s x h (casUses o) o.m.width.bytes) (fun o => some o.p)
    ∧ ∀ s x h (o : RedF) place,
      let u := redUses o
      let hd := handleIn s x h u 2
      let s0 := fenceReleased s x (scopeIn s x o.m hd) o.m.order false
      let s1 := rmwReady s x o.m hd (x.exec h) place
      Clear s x h u → NoMismatch s x → s.det x.wv = false → x.exec h ≠ 0 →
      Reaches s0 x (x.exec h) o.m hd .red (atomAddress s x h u o.off) place → WordsFine s1 x (x.exec h) o.m place →
      RetiresStoring (.red h o) s x h u (fun t => (∀ a, observed t x a
        = (afterRmw (observed s1 x) (x.exec h) (fun L i => keyOf (place L) i) o.m.width.bytes
            (atomStores s x h u o.op o.m.width.bytes)).1 a)
        ∧ HomesTake s1 t x (x.exec h) place o.m.width.bytes (atomStores s x h u o.op o.m.width.bytes))

/-- R198: the cores in a scope of OTSYNC. -/
def InScope (x : Site) (sc : Scope) (k : Nat) : Prop :=
  match sc with
  | .co => k = x.wv.coreNo
  | .di => k / 64 = x.wv.coreNo / 64
  | .ln | .wv | .gp | .sp | .pk | .hs | .vd | .sy => True

/-- R334: the scopes of CCTL that write to the memory that holds a line. -/
def ToMemory (sc : Scope) : Prop := sc = .pk ∨ sc = .hs ∨ sc = .sy

/-- What core `core` observes in a byte of memory (R302). -/
def observedAt (s : State) (core a : Nat) : Byte := Overlay.read (s.pier (some core)) s.mem a

/-- R196 to R198, R302, R304, R333, R334: FENCE completes; when it releases at DI or wider in some lane, every byte held at the pier of
its core's instance stands at its home and the pier holds none, and nothing its core observes has changed; when it releases at the
instance of a handle, the pier drains before the wave's next ordered store outside it, for which the wave is marked; else it has
no effect. CCTL completes; no byte of memory and nothing that a core observes has changed; at a scope of PK, HS or SY with ALL
every byte that a pier holds stands in the memory itself too, and INV with ALL leaves the covered L1s without a line. OTSYNC
completes; the cores in its scope hold no object-table entry of the wave's domain, read or failed. The model's own choices in it
are those of log entries 23, 62, 64 and 67. -/
def Obligations.FencesAndCaches : Prop :=
  let uo (sc : Scope) : Uses := { hold := fun s w => s.entriesRead w sc }
  (∀ s x h (o : FenceOp),
      let u := fenceUses o
      let hd := handleIn s x h u 0
      let sc := if o.hnd.isSome then s.handleScope x.wv.coreNo hd else o.scope
      Clear s x h u → NoMismatch s x → (o.hnd.isSome = true → handleBad hd = false) →
      (o.order.releases = false ∨ (sc.num < 5 ∧ ¬(o.hnd.isSome = true ∧ sc = .sp)) ∨ s.det x.wv = true ∨ x.exec h = 0 →
          CompletesWith (.fence h o) s x h u (fun wv => wv))
        ∧ (o.order.releases = true → o.hnd.isSome = true → sc = .sp → s.det x.wv = false → x.exec h ≠ 0 →
          RetiresWith (.fence h o) s x h u (fun a b => b = a) (fun t => Quiet s t ∧ (∀ core a, observedAt t core a = observedAt s core a)
            ∧ ((s.instanceOf x.wv.coreNo).isSome = true → t.fencedAt x.wv.coreNo x.w = true)))
        ∧ (o.order.releases = true → 5 ≤ sc.num → s.det x.wv = false → x.exec h ≠ 0 →
          (s.pier (some x.wv.coreNo)).Pairwise (fun a b => a.1 < b.1) → (∀ c ∈ s.pier (some x.wv.coreNo), s.keyUp c.1 = true) →
          RetiresStoring (.fence h o) s x h u (fun t => t.pier (some x.wv.coreNo) = []
            ∧ ∀ a, t.mem.read a = observed s x a ∧ observed t x a = observed s x a)))
    ∧ (∀ s x h o, Clear s x h (cctlUses o) → NoMismatch s x →
      (x.exec h = 0 ∨ ¬ToMemory o.scope → CompletesWith (.cctl h o) s x h (cctlUses o) (fun wv => wv))
        ∧ RetiresWith (.cctl h o) s x h (cctlUses o) (fun a b => b = a) (fun t => Quiet s t
          ∧ (∀ core a, observedAt t core a = observedAt s core a)
          ∧ (ToMemory o.scope → o.a = none → x.exec h ≠ 0 → ∀ core, ∀ c ∈ s.pier (some core), (t.backByte c.1).isSome = true)
          ∧ (o.op ≠ .wb → o.a = none → x.exec h ≠ 0 → ∀ k, k = x.wv.coreNo ∨ ToMemory o.scope → (t.coreAt k).l1 = [])))
    ∧ ∀ s x h sc, Clear s x h (uo sc) → NoMismatch s x →
      (x.exec h = 0 → CompletesWith (.otsync h sc) s x h (uo sc) (fun wv => wv))
        ∧ ∀ l, x.exec h ≠ 0 → s.launchOf x.wv = some l → RetiresWith (.otsync h sc) s x h (uo sc) (fun a b => b = a) (fun t =>
          t.mem = s.mem ∧ ∀ k, (t.coreAt k).pool = (s.coreAt k).pool
            ∧ (InScope x sc k → (∀ e ∈ (t.coreAt k).ot, e.1 ≠ l.domain.id) ∧ ∀ e ∈ (t.coreAt k).otFail, e.1 ≠ l.domain.id))

/-- R26, R180: a memory instruction with an empty EXEC completes without effect. -/
def EmptyMemoryAccesses : Prop :=
  ∀ s x h, x.exec h = 0 → NoMismatch s x →
    (∀ o, Clear s x h (ldUses false o) → CompletesWith (.ld h o) s x h (ldUses false o) (fun wv => wv)
      ∧ CompletesWith (.lds h o) s x h (ldUses false o) (fun wv => wv) ∧ CompletesWith (.ldt h o) s x h (ldUses false o) (fun wv => wv))
    ∧ (∀ o, Clear s x h (ldUses true o) → CompletesWith (.ldu h o) s x h (ldUses true o) (fun wv => wv))
    ∧ (∀ o, Clear s x h (stUses o) → CompletesWith (.st h o) s x h (stUses o) (fun wv => wv)
      ∧ CompletesWith (.sts h o) s x h (stUses o) (fun wv => wv) ∧ CompletesWith (.stt h o) s x h (stUses o) (fun wv => wv))
    ∧ (∀ o, Clear s x h (prefUses o) → CompletesWith (.pref h o) s x h (prefUses o) (fun wv => wv))
    ∧ (∀ o, Clear s x h (atUses o) → CompletesWith (.atom h o) s x h (atUses o) (fun wv => wv)
      ∧ CompletesWith (.atoms h o) s x h (atUses o) (fun wv => wv))
    ∧ (∀ o, Clear s x h (casUses o) → CompletesWith (.cas h o) s x h (casUses o) (fun wv => wv)
      ∧ CompletesWith (.cass h o) s x h (casUses o) (fun wv => wv))
    ∧ ∀ o, Clear s x h (redUses o) → CompletesWith (.red h o) s x h (redUses o) (fun wv => wv)

/-! ## Copies and batches -/

/-- Bytes of a group's scratchpad (R181). -/
def scratch (g : Group) : Nat := g.scr.length * 2 ^ 14

/-- R201, R202: a copy operation has entered the engine: the box's elements in order, each a scratchpad place and a global address. -/
def CopyStarted (s t : State) (x : Site) (s2g : Bool) (n0 n1 n2 es : Nat) (at' : Nat → Nat → Nat → Nat × DWord) : Prop :=
  ∃ op, t.copies = s.copies ++ [op] ∧ op.wave = x.w ∧ op.batch = nextBatch x.wv.closedC ∧ op.s2g = s2g ∧ op.es = es ∧ op.wait = none
    ∧ op.elts.length = n2 * n1 * n0
    ∧ (∀ i0 i1 i2, i0 < n0 → i1 < n1 → i2 < n2 → op.elts[(i2 * n1 + i1) * n0 + i0]? = some (at' i0 i1 i2))
    ∧ op.done = (decide (n2 * n1 * n0 = 0) && !s.det x.wv)

/-- R201, R202: COPY and COPYO complete once every check passes: the operation, with its whole box, is in the engine in the wave's
open batch, and nothing has been moved. With an empty EXEC they have no effect. The model's own choices in it are those of log
entries 46 and 68. -/
def Obligations.CopyInstructions : Prop :=
  let u (o : CopyOp) (k : Nat) : Uses := grp { srcs := [engUse 0 (plainSrc o.lw.r o.lw.fe) 3 3, engUse 1 o.a k 0, engUse 2 o.b 2 3], hold := State.edgeWaits }
  let n (s : State) (x : Site) (h : Hdr) (u : Uses) (i : Nat) : Nat := (uniform s x h u 2).toNat / 2 ^ (16 * i) % 2 ^ 16
  (∀ s x h o g l, Clear s x h (u o 2) → NoMismatch s x → x.exec h ≠ 0 → s.groupOf x.wv = some g →
      layoutOf (uniform s x h (u o 2) 0) = some l → n s x h (u o 2) 3 = 0 → (uniform s x h (u o 2) 1).toNat % 2 ^ 64 % l.es = 0 →
      (∀ i0 i1 i2, i0 < n s x h (u o 2) 0 → i1 < n s x h (u o 2) 1 → i2 < n s x h (u o 2) 2 → l.place i0 i1 i2 + l.es ≤ scratch g) →
      RetiresWith (.copy h o) s x h (u o 2) (fun a b => b = a) (fun t => Quiet s t
        ∧ CopyStarted s t x o.s2g (n s x h (u o 2) 0) (n s x h (u o 2) 1) (n s x h (u o 2) 2) l.es (fun i0 i1 i2 => (l.place i0 i1 i2,
          (uniform s x h (u o 2) 1).setWidth 64
            + BitVec.ofNat 64 (((i2 * n s x h (u o 2) 1 + i1) * n s x h (u o 2) 0 + i0) * l.es)))))
    ∧ (∀ s x h o g l la e,
      let c (k : Nat) : Nat := (wordOf (uniform s x h (u o 4) 1) k).toNat
      let at' (i0 i1 i2 : Nat) : List Nat := [c 1 + i0, c 2 + i1, c 3 + i2, c 0 / 2 ^ 16 % 2 ^ 8, c 0 / 2 ^ 24]
      Clear s x h (u o 4) → NoMismatch s x → x.exec h ≠ 0 → s.groupOf x.wv = some g → s.launchOf x.wv = some la →
      layoutOf (uniform s x h (u o 4) 0) = some l → n s x h (u o 4) 3 = 0 →
      (∀ q, ∃ s', s.object x.wv.coreNo x.w la.domain (c 0 % 2 ^ 16) q = .entry e s') → objBytes e.fmt = l.es → e.copy = true →
      (if o.s2g then e.w else e.r) = true →
      (∀ i0 i1 i2, i0 < n s x h (u o 4) 0 → i1 < n s x h (u o 4) 1 → i2 < n s x h (u o 4) 2 →
        l.place i0 i1 i2 + l.es ≤ scratch g ∧ e.inside (at' i0 i1 i2) = true) →
      RetiresWith (.copyo h o) s x h (u o 4) (fun a b => b = a) (fun t => Quiet s t
        ∧ CopyStarted s t x o.s2g (n s x h (u o 4) 0) (n s x h (u o 4) 1) (n s x h (u o 4) 2) l.es (fun i0 i1 i2 => (l.place i0 i1 i2,
          e.base + BitVec.ofNat 64 (((at' i0 i1 i2).zip e.stride).map (fun p => p.1 * p.2)).sum))))
    ∧ ∀ s x h o, NoMismatch s x → x.exec h = 0 →
      (Clear s x h (u o 2) → CompletesWith (.copy h o) s x h (u o 2) (fun wv => wv))
      ∧ (Clear s x h (u o 4) → CompletesWith (.copyo h o) s x h (u o 4) (fun wv => wv))

/-- R203, R204: BCLOSE completes with the next batch number, 0 skipped, in CLOSED and D. BWAIT completes when the batch is 0
or complete, and waits before (always in a deterministic tree); BTEST completes with the answer. Both trap with 0x17E on a
batch that is not at or before CLOSED. -/
def Obligations.Batches : Prop :=
  let ub (d : Dst) : Uses := { dst := some (d, 1), hold := fun s w => decide (s.openClosed w false ≥ 16) }
  let um (d : Dst) : Uses := { dst := some (d, 1), hold := fun s w => decide (s.openClosed w true ≥ 16) }
  let ua (a : Src) : Uses := { srcs := [{ fld := 1, src := a, uniform := true }] }
  let up (d : PNum) (a : Src) : Uses := { ua a with preds := [d] }
  let good (x : Site) (mtx : Bool) (n : Word) : Prop := n = 0 ∨ (x.wv.closed mtx - n).toNat < 2 ^ 31
  let next (n : Word) : Word := if n + 1 = 0 then 1 else n + 1
  (∀ s x h d, Clear s x h (ub d) → NoMismatch s x → x.exec h ≠ 0 → CompletesSo (.bclose h false d) s x h (ub d) (fun a b =>
      Wrote { a with closedC := next a.closedC } b (x.dst (ub d)) (x.exec h) (fun _ => (next a.closedC).setWidth 128)))
    ∧ (∀ s x h d, Clear s x h (um d) → NoMismatch s x → x.exec h ≠ 0 → CompletesSo (.bclose h true d) s x h (um d) (fun a b =>
      Wrote { a with closedM := next a.closedM } b (x.dst (um d)) (x.exec h) (fun _ => (next a.closedM).setWidth 128)))
    ∧ (∀ s x h mtx a, Clear s x h (ua a) → NoMismatch s x → x.exec h ≠ 0 → good x mtx (uniformW s x h (ua a) 0) →
      let n := uniformW s x h (ua a) 0
      ((n = 0 ∨ s.batchDone x.w mtx n = true) → s.det x.wv = false → CompletesWith (.bwait h mtx a) s x h (ua a) (fun wv => wv))
        ∧ ((n ≠ 0 ∧ s.batchDone x.w mtx n = false) ∨ s.det x.wv = true →
          WaitsFor (.bwait h mtx a) s x h (.batch mtx n) (fun _ => True)))
    ∧ (∀ s x h mtx d a, Clear s x h (up d a) → NoMismatch s x → x.exec h ≠ 0 → good x mtx (uniformW s x h (up d a) 0) →
      let n := uniformW s x h (up d a) 0
      CompletesWith (.btest h mtx d a) s x h (up d a)
        (fun wv => wv.setPred d (x.exec h) (if n = 0 ∨ s.batchDone x.w mtx n = true then fullMask else 0)))
    ∧ (∀ s x h mtx a l, Clear s x h (ua a) → CanTrap s x l → x.exec h ≠ 0 → ¬good x mtx (uniformW s x h (ua a) 0) →
      TrapsPrecise (.bwait h mtx a) s x l 0x17E (Mask.lowest (x.exec h)).val (uniformW s x h (ua a) 0))
    ∧ ∀ s x h mtx d a l, Clear s x h (up d a) → CanTrap s x l → x.exec h ≠ 0 → ¬good x mtx (uniformW s x h (up d a) 0) →
      TrapsPrecise (.btest h mtx d a) s x l 0x17E (Mask.lowest (x.exec h)).val (uniformW s x h (up d a) 0)

/-- R202, R203: the copy engine performs an operation outside a deterministic tree: one with no element left is done; an
element whose bytes lie together in this package goes from memory, as the wave's core observes it, to its scratchpad place, or
back, byte for byte. The model's own choices in it are those of log entry 46. -/
def Obligations.CopyEngine : Prop :=
  (∀ s k n op wv, s.copies[k]? = some op → s.waves[op.wave]? = some wv → s.det wv = false → op.elts = [] → s.copyBusy k = false →
      ∃ t op', exec (.copyOperationComplete ⟨k, n⟩) s = .next t ∧ t.copies[k]? = some op' ∧ op'.done = true ∧ t.mem = s.mem)
    ∧ ∀ s k n op wv g l core el p, s.copies[k]? = some op → s.waves[op.wave]? = some wv → s.det wv = false → s.groupOf wv = some g →
      s.launchOf wv = some l → g.core = some core → op.done = false → op.wait = none → op.elts = [el] → 1 ≤ op.es → op.es ≤ 8 →
      s.copyBusy k = false → s.residue = none → (s.power.pause = 0 ∨ op.started = true) → s.elMeet (core / 64) l.domain (if op.s2g then .write else .read) 0x0E9 el.2 op.es = .runs [(p, 0, op.es)] →
      p.kind.toNat ≤ 2 → s.keyUp (keyOf p 0) = true → s.seenBad (some core) (keyOf p 0) op.es = false →
      (s.instanceOf core).isSome = true → el.1 + op.es ≤ scratch g → (∀ i, i < op.es → ((s.coreAt core).poolBad.contains
        ((scrAddr g.scr (el.1 + i)).getD 0 / 4)) = false) → g.scr.Nodup →
      let place (i : Nat) : Nat × Nat := (core, (scrAddr g.scr (el.1 + i)).getD 0)
      ∃ t op', exec (.copyOperationComplete ⟨k, n⟩) s = .next t ∧ t.copies[k]? = some op' ∧ op'.done = true ∧ op'.elts = []
        ∧ if op.s2g then (∀ b, poolByte t b = poolByte s b)
            ∧ ∀ a, observedAt t core a = putAt (observedAt s core) (keyOf p) op.es (valueOf (fun i => poolByte s (place i)) op.es) a
          else (∀ a, t.mem.read a = s.mem.read a) ∧ ∀ b, poolByte t b
            = putAt (poolByte s) place op.es (valueOf (fun i => observedAt s core (keyOf p i)) op.es) b

/-! ## The matrix engine and the baton -/

/-- R244, R245: a tile control word that TCFG accepts. -/
def GoodTile (v : Nat) : Prop :=
  let rows := v / 2 ^ 4 % 2 ^ 7
  let cols := v / 2 ^ 11 % 2 ^ 9
  v < 2 ^ 20 ∧ 1 ≤ rows ∧ rows ≤ 64 ∧ v % 16 ≤ 12 ∧ v % 16 ≠ 3 ∧ v % 16 ≠ 4 ∧ 1 ≤ cols
    ∧ cols * (fmtType (BitVec.ofNat 4 v)).width ≤ 1024

/-- R257, R261: the layout in operand 0 suits elements of `es` bytes, and each element of a rectangle lies inside the scratchpad at
Place(col, row, 0). -/
def GoodLayout (s : State) (x : Site) (h : Hdr) (u : Uses) (g : Group) (l : Layout) (es rows cols : Nat) (col : Nat → Nat) : Prop :=
  layoutOf (uniform s x h u 0) = some l ∧ l.es = es ∧ ∀ r c, r < rows → c < cols → l.place (col c) r 0 + es ≤ scratch g

/-- R243, R245, R257, R258: TCFG of a good value completes with it in the tile's control word; TLD, TST and TZERO of a configured
tile complete: the operation, with every element of the tile, is in the core's queue. The model's own choices in it are those of log
entry 68. -/
def Obligations.TileInstructions : Prop :=
  let uc (a : Src) : Uses := { srcs := [engUse 1 a 1 3] }
  let ue : Uses := { hold := State.edgeWaits }
  let ul (lw : Plain) : Uses := { ue with srcs := [engUse 0 (plainSrc lw.r lw.fe) 3 3] }
  let elements (g : Group) (t : BitVec 4) (l : Layout) : List (Nat × Nat) :=
    let tc := g.tcOf t
    (rect (tcRows tc) (tcCols tc)).map (fun p => (t.toNat * 2 ^ 16 + p.1 * 2 ^ 10 + p.2 * tcWidth tc,
      l.place (if tcWidth tc = 4 then p.2 / 2 else p.2) p.1 0))
  let good (s : State) (x : Site) (h : Hdr) (t : BitVec 4) (lw : Plain) (g : Group) (l : Layout) : Prop :=
    let tc := g.tcOf t
    tcRows tc ≠ 0 ∧ GoodLayout s x h (grp (ul lw)) g l (if tcWidth tc = 4 then 1 else tcWidth tc / 8) (tcRows tc) (tcCols tc)
      (fun c => if tcWidth tc = 4 then c / 2 else c)
  (∀ s x h t a g, Acts s x h (uc a) g → GoodTile (uniformW s x h (grp (uc a)) 0).toNat →
      RetiresWith (.tcfg h t a) s x h (grp (uc a)) (fun a b => b = a) (fun s' => Quiet s s' ∧ GroupBecomes s s' x (fun g =>
        { g with tc := (g.tc.setIfInBounds t.toNat (uniformW s x h (grp (uc a)) 0)) })))
    ∧ (∀ s x h t lw g l, Acts s x h (ul lw) g → good s x h t lw g l →
      RetiresWith (.tld h t lw) s x h (grp (ul lw)) (fun a b => b = a) (fun s' => Quiet s s'
        ∧ Enqueued s s' x (some (nextBatch x.wv.closedM)) (.tld (tcWidth (g.tcOf t)) (elements g t l))))
    ∧ (∀ s x h t lw g l, Acts s x h (ul lw) g → good s x h t lw g l →
      RetiresWith (.tst h t lw) s x h (grp (ul lw)) (fun a b => b = a) (fun s' => Quiet s s'
        ∧ Enqueued s s' x (some (nextBatch x.wv.closedM)) (.tst (tcWidth (g.tcOf t)) (elements g t l))))
    ∧ ∀ s x h t g, Acts s x h ue g → tcRows (g.tcOf t) ≠ 0 →
      RetiresWith (.tzero h t) s x h (grp ue) (fun a b => b = a) (fun s' => Quiet s s'
        ∧ Enqueued s s' x (some (nextBatch x.wv.closedM)) (.tzero t))

/-- R251: the wave holds its group's baton. -/
def Holds (x : Site) (g : Group) : Prop := g.baton.holder = some x.wv.waveid ∧ g.baton.transit = none

/-- R259: the tiles, accumulators and FMT of an MMA (`blocks` false) or MMAB suit each other. -/
def GoodProduct (x : Site) (g : Group) (o : MmaOp) (blocks : Bool) : Prop :=
  let a := g.tcOf o.ta
  let b := g.tcOf o.tb
  o.ac.toNat + (if blocks then 15 else 0) < g.acc.length ∧ tcRows a ≠ 0 ∧ tcRows b ≠ 0 ∧ tcFmt a = fmtA x.sp.fmt ∧ tcFmt b = fmtB x.sp.fmt
    ∧ tcCols a = tcCols b ∧ (fmtA x.sp.fmt = 5 → tcRows a ≤ 32) ∧ (blocks = true → tcRows a % 16 = 0 ∧ tcRows b % 16 = 0)

/-- R250, R259: MMA and MMAB complete for the holder of the baton on suitable tiles and accumulators: the product is in the core's
queue with the tiles' shapes and FMT as they are; without the baton they trap with 0x170 and its state. The model's own choices in
it are those of log entry 68. -/
def Obligations.MatrixProducts : Prop :=
  let u (mk : Hdr → MmaOp → Instr) (h : Hdr) (o : MmaOp) (x : Site) : Uses :=
    { fmt := (mk h o).fmtFaults x.sp.fmt, hold := State.edgeWaits }
  let result (mk : Hdr → MmaOp → Instr) (blocks : Bool) : Prop := ∀ s x h o g, Acts s x h (u mk h o x) g →
    (Holds x g → GoodProduct x g o blocks → RetiresWith (mk h o) s x h (grp (u mk h o x)) (fun a b => b = a) (fun t => Quiet s t
      ∧ Enqueued s t x (some (nextBatch x.wv.closedM))
          (.mma o.ac.toNat o.ta o.tb (g.tcOf o.ta) (g.tcOf o.tb) x.sp.fmt blocks)))
    ∧ ∀ l, ¬Holds x g → CanTrap s x l →
      TrapsPrecise (mk h o) s x l 0x170 (Mask.lowest (x.exec h)).val (g.baton.word x.wv.waveid)
  result .mma false ∧ result .mmab true

/-- R261: a shape word for accumulators of a type. -/
def GoodShape (ty : AccTy) (v : Nat) : Prop :=
  let nr := v % 2 ^ 7
  let nc := v / 2 ^ 8 % 2 ^ 7
  v < 2 ^ 15 ∧ v / 2 ^ 7 % 2 = 0 ∧ 1 ≤ nc ∧ nc ≤ 64 ∧ 1 ≤ nr ∧ nr ≤ (if ty = .f64 then 32 else 64)

/-- R246: the byte of an accumulator at which its element (i, j) begins. -/
def accByte (ty : AccTy) (i j : Nat) : Nat := (i * 64 + j) * (if ty = .f64 then 8 else 4)

/-- R261 to R265: ACZ, ACLD and ACST complete for the holder of the baton: the operation, with every element of its shape, is in the
core's queue; ACRD completes its issue for any wave of the group: the reads are in the queue, and a producer holds D. The model's
own choices in it are those of log entry 68. -/
def Obligations.AccumulatorTransfers : Prop :=
  let ue : Uses := { hold := State.edgeWaits }
  let ul (lw : Plain) (b : Src) : Uses := { ue with srcs := [engUse 0 (plainSrc lw.r lw.fe) 3 3, engUse 2 b 1 3] }
  let uq (q b : Src) : Uses := { ue with srcs := [engUse 1 q 4 3, engUse 2 b 1 3] }
  let ur (o : AcrdOp) : Uses := { srcs := [{ fld := 2, src := o.b, consume := some 3 }], dst := some (o.d, if o.w64 then 2 else 1) }
  let es (ty : AccTy) : Nat := if ty = .f64 then 8 else 4
  let shape (v : Word) : List (Nat × Nat) := rect (v.toNat % 2 ^ 7) (v.toNat / 2 ^ 8 % 2 ^ 7)
  let good (s : State) (x : Site) (h : Hdr) (ac : BitVec 5) (ty : AccTy) (lw : Plain) (b : Src) (g : Group) (l : Layout) : Prop :=
    let v := (uniformW s x h (grp (ul lw b)) 1).toNat
    Holds x g ∧ ac.toNat < g.acc.length ∧ GoodShape ty v
      ∧ GoodLayout s x h (grp (ul lw b)) g l (es ty) (v % 2 ^ 7) (v / 2 ^ 8 % 2 ^ 7) (fun c => c)
  let moved (s : State) (x : Site) (h : Hdr) (ty : AccTy) (lw : Plain) (b : Src) (l : Layout) : List (Nat × Nat) :=
    (shape (uniformW s x h (grp (ul lw b)) 1)).map (fun p => (accByte ty p.1 p.2, l.place p.2 p.1 0))
  (∀ s x h ac g, Acts s x h ue g → Holds x g → ac.toNat < g.acc.length →
      RetiresWith (.acz h ac) s x h (grp ue) (fun a b => b = a) (fun t => Quiet s t
        ∧ Enqueued s t x (some (nextBatch x.wv.closedM)) (.acz ac.toNat)))
    ∧ (∀ s x h (o : AcldOp) g l, Acts s x h (ul o.lw o.b) g → good s x h o.ac o.ty o.lw o.b g l →
      RetiresWith (.acld h o) s x h (grp (ul o.lw o.b)) (fun a b => b = a) (fun t => Quiet s t
        ∧ Enqueued s t x (some (nextBatch x.wv.closedM)) (.acld o.ac.toNat o.ty (moved s x h o.ty o.lw o.b l))))
    ∧ (∀ s x h (o : AcstOp) lw g l, o.tgt = .scratch lw → Acts s x h (ul lw o.b) g → good s x h o.ac o.ty lw o.b g l →
      RetiresWith (.acst h o) s x h (grp (ul lw o.b)) (fun a b => b = a) (fun t => Quiet s t
        ∧ Enqueued s t x (some (nextBatch x.wv.closedM)) (.acst o.ac.toNat o.ty o.add (moved s x h o.ty lw o.b l))))
    ∧ (∀ s x h (o : AcstOp) q g la e,
      let a := uniform s x h (grp (uq q o.b)) 0
      let v := uniformW s x h (grp (uq q o.b)) 1
      let addr (p : Nat × Nat) : DWord := e.addr (objCoords a (p.2, p.1, 0))
      o.tgt = .object q → Acts s x h (uq q o.b) g → Holds x g → o.ac.toNat < g.acc.length → GoodShape o.ty v.toNat →
      s.launchOf x.wv = some la → (∀ r, ∃ s', s.object x.wv.coreNo x.w la.domain (a.toNat % 2 ^ 16) r = .entry e s') →
      (∀ p ∈ shape v, (addr p).toNat % es o.ty = 0 ∧ e.inside (objCoords a (p.2, p.1, 0)) = true) →
      (if o.add then e.atom else e.w) = true → e.fmt = (if o.ty = .f64 then 5 else 0) →
      RetiresWith (.acst h o) s x h (grp (uq q o.b)) (fun a b => b = a) (fun t => Quiet s t
        ∧ Enqueued s t x (some (nextBatch x.wv.closedM)) (.acstg o.ac.toNat o.ty o.add ((shape v).map (fun p => (accByte o.ty p.1 p.2, addr p))))))
    ∧ ∀ s x h (o : AcrdOp) g, Acts s x h (ur o) g → o.ac.toNat < g.acc.length →
      (∀ L : Lane, (x.exec h).has L = true → (operandW s x h (grp (ur o)) 0 L).toNat < (if o.w64 then 2048 else 4096)) →
      ∃ t f wv2, exec (.acrd h o) s = .next t ∧ t.waves[x.w]? = some wv2 ∧ (∀ v, v ≠ x.w → t.waves[v]? = s.waves[v]?) ∧ Quiet s t
        ∧ wv2.flights = x.wv.flights ++ [f] ∧ f.id = x.wv.nextFlight ∧ f.dst = x.dst (grp (ur o)) ∧ f.entry.remain = x.exec h ∧ f.known = 0
        ∧ (∀ r (L : Lane), (wv2.reg r).val[L] = (x.wv.reg r).val[L]) ∧ wv2.qretired = x.wv.qretired + 1
        ∧ Enqueued s t x none (.acrd o.ac.toNat o.w64 f.id
            ((Mask.lanes (x.exec h)).map (fun L => (L, (operandW s x h (grp (ur o)) 0 L).toNat))))

/-- R92: one chunk of products, of elements in the formats `fa` and `fb`, added into the F32 element `c`: `y` is the result. A NaN,
a product ∞ × 0 or infinities of opposite sign, in the chunk or against `c`, give the default NaN with IV; an infinity stays; the
exact sum is rounded once to nearest, and an exact zero is +0. -/
def ChunkAdded (fa fb : Fmt) (chunk : List (Nat × Nat)) (c : Nat) (y : FRes) : Prop :=
  let isZero (f : Fmt) (x : Nat) : Bool := x == zeroOf f (isNegative f x)
  let noProduct (p : Nat × Nat) : Bool := isNotNumber fa p.1 || isNotNumber fb p.2
    || (isInfinity fa p.1 && isZero fb p.2) || (isZero fa p.1 && isInfinity fb p.2)
  let infinite (neg : Bool) (p : Nat × Nat) : Bool :=
    (isInfinity fa p.1 || isInfinity fb p.2) && (isNegative fa p.1 != isNegative fb p.2) == neg
  let infinity (neg : Bool) : Bool := chunk.any (infinite neg) || (isInfinity f32 c && isNegative f32 c == neg)
  let v := (chunk.map (fun p => exactValue fa p.1 * exactValue fb p.2)).sum + exactValue f32 c
  if chunk.any noProduct || isNotNumber f32 c || (infinity true && infinity false) then y = ⟨defaultNan f32, flIV⟩
  else if infinity true then y = ⟨infinityOf f32 true, 0⟩
  else if infinity false then y = ⟨infinityOf f32 false, 0⟩
  else if v = 0 then y = ⟨0, 0⟩ else RoundedOnce f32 .rne v y

/-- R92, R93, R260: an accumulator element after the products of element pairs, k ascending. Integer elements are summed exactly modulo
2^32; F32 and F64 elements form a chain of multiply-adds rounded to nearest; the other formats are taken in chunks of 32 products,
of 64 for KF4, each added with one rounding. The flags are those of every step. -/
def ProductElements : Prop := ∀ (fmt : BitVec 10) (c : Nat) (ab : List (Nat × Nat)),
  let ta := fmtType (fmtA fmt)
  let tb := fmtType (fmtB fmt)
  let fa := fmtOf ta
  let fb := fmtOf tb
  let chunk := if ta = .kf4 then 64 else 32
  (∀ p ∈ ab, p.1 < 2 ^ ta.width ∧ p.2 < 2 ^ tb.width) → c < 2 ^ (if ta = .f64 then 64 else 32) → mmaFormats fmt = true →
  (fmtAcc fmt = true → mmaElement fmt c ab = ⟨(((c : Int) + (ab.map (fun (p : Nat × Nat) =>
      (eltInt ta).read (BitVec.ofNat 128 p.1) * (eltInt tb).read (BitVec.ofNat 128 p.2))).sum) % 2 ^ 32).toNat, 0⟩)
    ∧ (fmtAcc fmt = false → mmaElement fmt c [] = ⟨c, 0⟩)
    ∧ (fmtAcc fmt = false → ta = .f64 ∨ ta = .f32 → ∀ p, mmaElement fmt c (ab ++ [p])
        = let y := fa.fma .rne p.1 p.2 (mmaElement fmt c ab).bits
          ⟨y.bits, (mmaElement fmt c ab).fl ||| y.fl⟩)
    ∧ (fmtAcc fmt = false → ta ≠ .f64 → ta ≠ .f32 → ∀ ch, ab.length % chunk = 0 → 1 ≤ ch.length → ch.length ≤ chunk →
        (∀ p ∈ ch, p.1 < 2 ^ ta.width ∧ p.2 < 2 ^ tb.width) → ∃ y, ChunkAdded fa fb ch (mmaElement fmt c ab).bits y
          ∧ mmaElement fmt c (ab ++ ch) = ⟨y.bits, (mmaElement fmt c ab).fl ||| y.fl⟩)

/-- R250: the engine of a core is ready for the operation `e` at the head of its queue, outside a deterministic tree. -/
structure HeadReady (s : State) (core : Nat) (e : MatE) (rest : List MatE) (g : Group) (wv : Wave) : Prop where
  queue : (s.coreAt core).mq = e :: rest
  group : s.groups[e.group]? = some g
  wave : s.waves[e.wave]? = some wv
  normal : s.det wv = false
  idle : e.wait = none ∧ s.matrixBusy core = false
  power : s.power.pause = 0 ∨ e.started = true

/-- R247, R430: no residue check fails and no word of the core's pool and tile file is uncorrectable. -/
def HeadSound (s : State) (core : Nat) : Prop := s.residue = none ∧ (s.coreAt core).poolBad = [] ∧ (s.coreAt core).tilesBad = []

/-- R250, R260, R263: the head of the queue after a step: with elements left it stays, with `fl` in its flags; complete it is off the queue
and its flags are in its wave's MFLAGS. No memory has changed. -/
def HeadAfter (s t : State) (core : Nat) (e : MatE) (rest : List MatE) (wv : Wave) (left : Option MatKind) (fl : BitVec 8) : Prop :=
  t.mem = s.mem ∧ match left with
  | some k => (t.coreAt core).mq = { e with kind := k, flags := e.flags ||| fl, started := true } :: rest ∧ t.waves[e.wave]? = some wv
  | none => (t.coreAt core).mq = rest
      ∧ t.waves[e.wave]? = some { wv with mflags := wv.mflags ||| (e.flags ||| fl).setWidth 32 }

/-- The elements that a step performs of those left, and those that it leaves; `n` = 0 performs all. -/
def performed {α : Type} (n : Nat) (l : List α) : List α := if n = 0 then l else l.take n
def remaining {α : Type} (n : Nat) (l : List α) (mk : List α → MatKind) : Option MatKind :=
  if n = 0 ∨ l.length ≤ n then none else some (mk (l.drop n))

/-- Byte `i` of a place of an accumulator, and of a scratchpad, in a core's pool (R168, R246). -/
def accPlace (g : Group) (core ac o i : Nat) : Nat × Nat := (core, (g.acc[ac]?).getD 0 * 2 ^ 14 + o + i)
def scrPlace (g : Group) (core o i : Nat) : Nat × Nat := (core, (scrAddr g.scr (o + i)).getD 0)

/-- A place of `n` bytes of the scratchpad, whose granules are distinct. -/
def InScratch (g : Group) (o n : Nat) : Prop := o + n ≤ scratch g ∧ g.scr.Nodup

/-- Elements of `n` bytes copied one after the other, each a destination and a source. -/
def copied {K : Type} [DecidableEq K] (mem : K → Byte) (n : Nat) (l : List ((Nat → K) × (Nat → K))) : K → Byte :=
  l.foldl (fun m p => putAt m p.1 n (valueOf (fun i => m (p.2 i)) n)) mem

/-- Bits put at places. -/
def putBits (m : Nat → Bool) (place : Nat → Nat) (n : Nat) (v : Nat → Bool) : Nat → Bool := fun k =>
  match (List.range n).find? (fun i => decide (place i = k)) with
  | some i => v i
  | none => m k

/-- Bit `a` of a core's tile file and of its pool. -/
def tileFileBit (s : State) (core a : Nat) : Bool := ((s.coreAt core).tiles.read (a / 8)).getLsbD (a % 8)
def poolBit (s : State) (core a : Nat) : Bool := (poolByte s (core, a / 8)).getLsbD (a % 8)

/-- The bit of the pool that belongs to bit `i` of an element at bit `b` of the tile file and byte `o` of the scratchpad: the two nibbles
of a byte hold two 4-bit elements (R257). -/
def scrBit (g : Group) (b o i : Nat) : Nat := 8 * (scrAddr g.scr (o + (b % 8 + i) / 8)).getD 0 + (b % 8 + i) % 8

/-- R258: TLD copies each element's bits from the scratchpad to the tile file, TST back, and nothing else has changed. -/
def TileMoves : Prop := ∀ s core n e rest g wv w (l : List (Nat × Nat)), HeadReady s core e rest g wv → HeadSound s core → w ∈ [4, 8, 16, 32, 64] →
  (∀ p ∈ l, p.1 % w = 0 ∧ InScratch g p.2 ((w + 7) / 8)) →
  (e.kind = .tld w l → ∃ t, exec (.matrixOperationComplete ⟨core, n⟩) s = .next t ∧ HeadAfter s t core e rest wv (remaining n l (.tld w)) 0
      ∧ (∀ k, poolByte t k = poolByte s k) ∧ ∀ a, tileFileBit t core a
        = (performed n l).foldl (fun m p => putBits m (fun i => p.1 + i) w (fun i => poolBit s core (scrBit g p.1 p.2 i)))
          (tileFileBit s core) a)
    ∧ (e.kind = .tst w l → ∃ t, exec (.matrixOperationComplete ⟨core, n⟩) s = .next t ∧ HeadAfter s t core e rest wv (remaining n l (.tst w)) 0
      ∧ (t.coreAt core).tiles = (s.coreAt core).tiles ∧ (∀ k, k.1 ≠ core → poolByte t k = poolByte s k) ∧ ∀ a, poolBit t core a
        = (performed n l).foldl (fun m p => putBits m (fun i => scrBit g p.1 p.2 i) w (fun i => tileFileBit s core (p.1 + i)))
          (poolBit s core) a)

/-- R263: the new value of an element `m` with the accumulator element `a` added: rounded to nearest, or modulo 2^32. -/
def elementSum (ty : AccTy) (m a : Nat) : FRes := match ty with
  | .f64 => f64.add .rne m a
  | .f32 => f32.add .rne m a
  | .si32 => ⟨(m + a) % 2 ^ 32, 0⟩

/-- R262, R263: ACLD and ACST copy each element between the accumulator and the scratchpad, bit for bit; ACST.ADD adds to each element and
keeps the flags for MFLAGS. -/
def AccumulatorMoves : Prop := ∀ s core n e rest g wv ac ty (l : List (Nat × Nat)), HeadReady s core e rest g wv → HeadSound s core →
  let es := if ty = .f64 then 8 else 4
  (∀ p ∈ l, InScratch g p.2 es) →
  (e.kind = .acld ac ty l → ∃ t, exec (.matrixOperationComplete ⟨core, n⟩) s = .next t
      ∧ HeadAfter s t core e rest wv (remaining n l (.acld ac ty)) 0 ∧ (t.coreAt core).tiles = (s.coreAt core).tiles
      ∧ ∀ k, poolByte t k = copied (poolByte s) es ((performed n l).map (fun p => (accPlace g core ac p.1, scrPlace g core p.2))) k)
    ∧ (e.kind = .acst ac ty false l → ∃ t, exec (.matrixOperationComplete ⟨core, n⟩) s = .next t
      ∧ HeadAfter s t core e rest wv (remaining n l (.acst ac ty false)) 0 ∧ (t.coreAt core).tiles = (s.coreAt core).tiles
      ∧ ∀ k, poolByte t k = copied (poolByte s) es ((performed n l).map (fun p => (scrPlace g core p.2, accPlace g core ac p.1))) k)
    ∧ (e.kind = .acst ac ty true l →
      let r := l.foldl (fun (r : (Nat × Nat → Byte) × BitVec 8) p =>
        let y := elementSum ty (valueOf (fun i => r.1 (scrPlace g core p.2 i)) es) (valueOf (fun i => r.1 (accPlace g core ac p.1 i)) es)
        (putAt r.1 (scrPlace g core p.2) es y.bits, r.2 ||| y.fl)) (poolByte s, 0)
      ∃ t, exec (.matrixOperationComplete ⟨core, n⟩) s = .next t ∧ HeadAfter s t core e rest wv none r.2
        ∧ (t.coreAt core).tiles = (s.coreAt core).tiles ∧ ∀ k, poolByte t k = r.1 k)

/-- R260: MMA and MMAB give every element of the accumulators' rectangles its products with the rows of the two tiles, block by block;
the other elements stay, and the flags of all go to MFLAGS. -/
def ProductsPerformed : Prop := ∀ s core n e rest g wv ac (ta tb : BitVec 4) (tca tcb : Word) fmt (blocks : Bool),
  HeadReady s core e rest g wv → HeadSound s core → e.kind = .mma ac ta tb tca tcb fmt blocks →
  let ty : AccTy := if fmtA fmt = 5 then .f64 else if fmtAcc fmt then .si32 else .f32
  let es := if ty = .f64 then 8 else 4
  let nq := if blocks then 16 else 1
  let element (t : BitVec 4) (tc : Word) (row k : Nat) : Nat :=
    let b := t.toNat * 2 ^ 16 + row * 2 ^ 10 + k * tcWidth tc
    valueOf (fun i => (s.coreAt core).tiles.read (b / 8 + i)) ((tcWidth tc + 7) / 8) / 2 ^ (b % 8) % 2 ^ tcWidth tc
  let m := tcRows tca / nq
  let n' := tcRows tcb / nq
  let r := ((List.range nq).flatMap (fun q => (rect m n').map (fun p => (q, p.1, p.2)))).foldl
    (fun (r : (Nat × Nat → Byte) × BitVec 8) p =>
      let at' := accPlace g core (ac + p.1) (accByte ty p.2.1 p.2.2)
      let y := mmaElement fmt (valueOf (fun i => r.1 (at' i)) es) ((List.range (tcCols tca)).map
        (fun k => (element ta tca (p.1 * m + p.2.1) k, element tb tcb (p.1 * n' + p.2.2) k)))
      (putAt r.1 at' es y.bits, r.2 ||| y.fl)) (poolByte s, 0)
  ∃ t, exec (.matrixOperationComplete ⟨core, n⟩) s = .next t ∧ HeadAfter s t core e rest wv none r.2
    ∧ (t.coreAt core).tiles = (s.coreAt core).tiles ∧ ∀ k, poolByte t k = r.1 k

/-- R265: ACRD, performed, answers its flight: each live lane that it waits for has its element of the accumulator in D, clean, and the
producer is gone. -/
def AccumulatorReads : Prop := ∀ s core n e rest g wv ac w64 id f (el : Lane → Nat), HeadReady s core e rest g wv → HeadSound s core →
  e.kind = .acrd ac w64 id ((Mask.lanes f.entry.remain).map (fun L => (L, el L))) →
  wv.flights.find? (fun g => g.id == id) = some f → f.entry.kind ≠ 5 → f.entry.remain ≠ 0 → f.uni = false → f.pred = none → f.dst.Ok →
  (∀ g ∈ wv.flights, g.of ≠ some (2 * id)) → (wv.place = none ∨ f.gen = s.genOf e.wave wv.coreNo f.dst.er[(0 : Lane)].toNat) →
  let es := if w64 then 8 else 4
  let hit (L : Lane) : Prop := f.entry.remain.has L = true ∧ wv.live.has L = true
  ∃ t wv2, exec (.matrixOperationComplete ⟨core, n⟩) s = .next t ∧ t.waves[e.wave]? = some wv2 ∧ (t.coreAt core).mq = rest
    ∧ wv2.flights = wv.flights.filter (fun g => g.id != id) ∧ (∀ k, poolByte t k = poolByte s k) ∧ t.mem = s.mem
    ∧ (∀ L : Lane, hit L → Landed wv wv2 f.dst L (BitVec.ofNat 128 (valueOf (fun i => poolByte s (accPlace g core ac (el L * es) i)) es)))
    ∧ (f.dst.elt = none → ∀ L : Lane, hit L → ∀ i, i < f.dst.n → (wv2.reg (f.dst.er[L].toNat + i)).poison[L] = .clean)
    ∧ ∀ r (L : Lane), f.entry.remain.has L = false ∨ wv.live.has L = false ∨ ¬Covers f.dst r L → (wv2.reg r).val[L] = (wv.reg r).val[L]

/-- R262, R263, R302: the last element of an ACST to an object, whose bytes lie together in this package, reaches memory: a plain one as the
core's plain store; an added one in the home's memory, its flags in MFLAGS. -/
def AccumulatorStores : Prop := ∀ s core n e rest g wv la ac ty add x p,
  let es := if ty = .f64 then 8 else 4
  HeadReady s core e rest g wv → HeadSound s core → s.launchOf wv = some la → e.kind = .acstg ac ty add [x] →
  (∀ c ∈ [0x0E0, 0x0E9], s.elMeet (core / 64) la.domain (if add then .atomic else .write) c x.2 es = .runs [(p, 0, es)]) → p.kind.toNat ≤ 2 →
  s.keyUp (keyOf p 0) = true → s.seenBad (some core) (keyOf p 0) es = false → (s.instanceOf core).isSome = true →
  let a := valueOf (fun i => poolByte s (accPlace g core ac x.1 i)) es
  let y := elementSum ty (valueOf (fun i => observedAt s core (keyOf p i)) es) a
  ∃ t, exec (.matrixOperationComplete ⟨core, n⟩) s = .next t ∧ (t.coreAt core).mq = rest ∧ (∀ k, poolByte t k = poolByte s k)
    ∧ (∀ k, observedAt t core k = putAt (observedAt s core) (keyOf p) es (if add then y.bits else a) k)
    ∧ (add = true → ∀ k, t.mem.read k = putAt (fun k => s.mem.read k) (keyOf p) es y.bits k)
    ∧ ∃ wv2, t.waves[e.wave]? = some wv2 ∧ wv2.mflags = wv.mflags ||| (e.flags ||| if add then y.fl else 0).setWidth 32

/-- R92, R93, R250, R257, R258, R260, R262, R263, R265: outside a deterministic tree the engine performs the head of a core's queue,
whole or the next elements of it, and takes it off when it is complete. TZERO leaves zero in the tile's 8 KiB of the tile file and
ACZ in the accumulator's granule; TLD and TST copy tiles; MMA and MMAB give each accumulator element its products; ACLD and ACST
copy an accumulator, ACST.ADD adds it, and ACRD reads it. No other byte has changed, and the flags go to MFLAGS. The model's own
choices in it are those of log entry 39. -/
def Obligations.MatrixEngine : Prop := ProductElements ∧ TileMoves ∧ AccumulatorMoves ∧ ProductsPerformed ∧ AccumulatorReads ∧ AccumulatorStores ∧
  ∀ s core n e rest g wv, HeadReady s core e rest g wv →
    (∀ tile, e.kind = .tzero tile → ∃ t, exec (.matrixOperationComplete ⟨core, n⟩) s = .next t ∧ (t.coreAt core).mq = rest ∧ t.mem = s.mem
        ∧ (∀ k, poolByte t k = poolByte s k)
        ∧ ∀ a, (t.coreAt core).tiles.read a
          = if tile.toNat * 2 ^ 13 ≤ a ∧ a < (tile.toNat + 1) * 2 ^ 13 then 0 else (s.coreAt core).tiles.read a)
      ∧ ∀ ac base, e.kind = .acz ac → g.acc[ac]? = some base → ∃ t, exec (.matrixOperationComplete ⟨core, n⟩) s = .next t
        ∧ (t.coreAt core).mq = rest ∧ t.mem = s.mem ∧ (t.coreAt core).tiles = (s.coreAt core).tiles
        ∧ ∀ k, poolByte t k = if k.1 = core ∧ base * 2 ^ 14 ≤ k.2 ∧ k.2 < (base + 1) * 2 ^ 14 then 0 else poolByte s k

/-- R255: the value of BQRY. -/
def batonValue (x : Site) (g : Group) : Nat :=
  let b := g.baton
  let who := if b.transit.isSome then b.transit else b.holder
  (if b.transit = none ∧ b.holder = some x.wv.waveid then 2 ^ 21 else 0) + (if who.isSome then 2 ^ 20 else 0)
    + (match who with | some w => w.toNat * 2 ^ 16 | none => 0) + b.waiting.toNat

/-- R252, R253, R255: outside a deterministic tree BTAKE completes for the holder without effect and takes a free baton, and waits
otherwise; BPASS gives the baton to the waiter of lowest WAVEID or leaves it free, BPASS.W to the wave it names; BQRY completes with
the baton's state. A wave that does not hold the baton traps in BPASS with 0x171. The model's own choices in it are those of log
entry 68. -/
def Obligations.Baton : Prop :=
  let ue : Uses := { hold := State.edgeWaits }
  let uw (b : Src) : Uses := { ue with srcs := [engUse 2 b 1 3] }
  let ud (d : Dst) : Uses := { dst := some (d, 1) }
  let to' (n : BitVec 4) (g : Group) : Group :=
    { g with baton := { g.baton with holder := some n, waiting := g.baton.waiting &&& ~~~bitOf n } }
  (∀ s x h g, Acts s x h {} g → s.det x.wv = false →
      (Holds x g → RetiresWith (.btake h) s x h (grp {}) (fun a b => b = a) (fun t => Quiet s t ∧ GroupBecomes s t x (fun g => g)))
      ∧ (g.baton.holder = none → g.baton.transit = none → RetiresWith (.btake h) s x h (grp {}) (fun a b => b = a) (fun t => Quiet s t
          ∧ GroupBecomes s t x (fun g => { g with baton := { g.baton with holder := some x.wv.waveid } })))
      ∧ (¬Holds x g → ¬(g.baton.holder = none ∧ g.baton.transit = none) → WaitsFor (.btake h) s x h .baton (fun t =>
          GroupBecomes s t x (fun g => { g with baton := { g.baton with waiting := g.baton.waiting ||| bitOf x.wv.waveid } }))))
    ∧ (∀ s x h g, Acts s x h ue g → s.det x.wv = false → Holds x g →
      (∀ n : BitVec 4, g.baton.waiting.getLsbD n.toNat = true → (∀ m : BitVec 4, m < n → g.baton.waiting.getLsbD m.toNat = false) →
        RetiresWith (.bpass h none) s x h (grp ue) (fun a b => b = a) (fun t => Quiet s t ∧ GroupBecomes s t x (to' n)))
      ∧ (g.baton.waiting = 0 → RetiresWith (.bpass h none) s x h (grp ue) (fun a b => b = a) (fun t => Quiet s t
          ∧ GroupBecomes s t x (fun g => { g with baton := { g.baton with holder := none } }))))
    ∧ (∀ s x h b g, Acts s x h (uw b) g → s.det x.wv = false → Holds x g →
      let w := uniformW s x h (grp (uw b)) 0
      w.toNat ≤ 15 → (∃ v ∈ g.waves, ∃ wv, s.waves[v]? = some wv ∧ wv.waveid = w.setWidth 4 ∧ wv.life = .resident ∧ wv.live ≠ 0) →
      RetiresWith (.bpass h (some b)) s x h (grp (uw b)) (fun a b => b = a) (fun t => Quiet s t
        ∧ GroupBecomes s t x (fun g => if w.setWidth 4 = x.wv.waveid then g else to' (w.setWidth 4) g)))
    ∧ (∀ s x h g l, Acts s x h ue g → ¬Holds x g → CanTrap s x l →
      TrapsPrecise (.bpass h none) s x l 0x171 (Mask.lowest (x.exec h)).val (BitVec.ofNat 32 (batonValue x g)))
    ∧ ∀ s x h d g, Acts s x h (ud d) g → RetiresWith (.bqry h d) s x h (grp (ud d))
        (fun a b => Wrote a b (x.dst (grp (ud d))) (x.exec h) (fun _ => BitVec.ofNat 128 (batonValue x g))) (fun t => Quiet s t
        ∧ GroupBecomes s t x (fun g => g))

/-! ## Barriers, spans, tasks and the replay queue -/

/-- R271, R273: a barrier at which wave `w` has arrived, as a member from then on; outside a deterministic tree it flips once every
member has arrived. -/
def arrivedAt (b : Barrier) (w : BitVec 4) (det : Bool) : Barrier :=
  let mem := b.mem ||| bitOf w
  let arr := b.arr ||| bitOf w
  if det = false ∧ mem &&& ~~~arr = 0 then ⟨mem, 0, !b.phase, b.flips + 1⟩ else ⟨mem, arr, b.phase, b.flips⟩

/-- R273: a barrier that wave `w` has left. -/
def leftBy (b : Barrier) (w : BitVec 4) (det : Bool) : Barrier :=
  let mem := b.mem &&& ~~~bitOf w
  let arr := b.arr &&& ~~~bitOf w
  if det = false ∧ mem ≠ 0 ∧ mem &&& ~~~arr = 0 then ⟨mem, 0, !b.phase, b.flips + 1⟩ else ⟨mem, arr, b.phase, b.flips⟩

/-- Barrier `n` of a group set to `b`. -/
def withBarrier (n : BitVec 4) (b : Barrier) (g : Group) : Group := { g with barriers := (g.barriers.setIfInBounds n.toNat b) }

/-- R271: word 0 of a barrier. -/
def barrierWord (b : Barrier) : Word := BitVec.ofNat 32 (b.arr.toNat * 2 ^ 16 + b.mem.toNat)

/-- A WAVEID of a resident, live wave of the group. -/
def LiveMember (s : State) (g : Group) (i : Nat) : Prop :=
  ∃ v ∈ g.waves, ∃ wv, s.waves[v]? = some wv ∧ wv.waveid.toNat = i ∧ wv.life = .resident ∧ wv.live ≠ 0

/-- R272, R273: BARINIT sets the members; BAR and BARJOIN arrive and wait until the phase has flipped, going on at once where their
own arrival flips it; BAR.W goes on when the phase differs from its token's and waits otherwise; BARA gives phase and members and
arrives; BARDROP leaves. A wave that is no member traps in BAR, BARA and BARDROP with 0x160, one that has not arrived in BARJOIN of
a member with 0x163. The model's own choices in it are those of log entry 68. -/
def Obligations.Barriers : Prop :=
  let ua (a : Src) : Uses := { srcs := [engUse 1 a 1 2] }
  let ue : Uses := { hold := State.edgeWaits }
  let ud (d : Dst) : Uses := { ue with dst := some (d, 1) }
  let mine (x : Site) (b : Barrier) : Prop := b.mem &&& bitOf x.wv.waveid ≠ 0
  (∀ s x h n a g, Acts s x h (ua a) g →
      let v := uniformW s x h (grp (ua a)) 0
      v.toNat < 2 ^ 16 → (∀ i, i < 16 → v.getLsbD i = true → LiveMember s g i) → (g.bar n).arr = 0 →
      RetiresWith (.barinit h n a) s x h (grp (ua a)) (fun a b => b = a) (fun t => Quiet s t
        ∧ GroupBecomes s t x (withBarrier n { g.bar n with mem := v.setWidth 16 })))
    ∧ (∀ s x h n g, Acts s x h ue g →
      let b' := arrivedAt (g.bar n) x.wv.waveid (s.det x.wv)
      let post (t : State) : Prop := GroupBecomes s t x (withBarrier n b')
      (mine x (g.bar n) ∧ b'.phase ≠ (g.bar n).phase →
          RetiresWith (.bar h n none) s x h (grp ue) (fun a b => b = a) (fun t => Quiet s t ∧ post t))
        ∧ (mine x (g.bar n) ∧ b'.phase = (g.bar n).phase → WaitsFor (.bar h n none) s x h (.bar n (g.bar n).phase (g.bar n).flips) post)
        ∧ (¬mine x (g.bar n) ∨ (g.bar n).arr &&& bitOf x.wv.waveid ≠ 0 →
          (b'.phase ≠ (g.bar n).phase → RetiresWith (.barjoin h n) s x h (grp ue) (fun a b => b = a) (fun t => Quiet s t ∧ post t))
            ∧ (b'.phase = (g.bar n).phase → WaitsFor (.barjoin h n) s x h (.bar n (g.bar n).phase (g.bar n).flips) post))
        ∧ (mine x (g.bar n) → RetiresWith (.bardrop h n) s x h (grp ue) (fun a b => b = a) (fun t => Quiet s t
          ∧ GroupBecomes s t x (withBarrier n (leftBy (g.bar n) x.wv.waveid (s.det x.wv))))))
    ∧ (∀ s x h n tk g, Acts s x h (ua tk) g →
      let p := (uniformW s x h (grp (ua tk)) 0).getLsbD 16
      ((g.bar n).phase ≠ p → s.det x.wv = false → RetiresWith (.bar h n (some tk)) s x h (grp (ua tk)) (fun a b => b = a) (fun t =>
          Quiet s t ∧ GroupBecomes s t x (fun g => g)))
        ∧ ((g.bar n).phase = p ∨ s.det x.wv = true → WaitsFor (.bar h n (some tk)) s x h (.bar n p (g.bar n).flips) (fun t =>
          GroupBecomes s t x (fun g => g))))
    ∧ (∀ s x h n d g, Acts s x h (ud d) g → mine x (g.bar n) →
      RetiresWith (.bara h n d) s x h (grp (ud d))
        (fun a b => Wrote a b (x.dst (grp (ud d))) (x.exec h)
          (fun _ => BitVec.ofNat 128 ((if (g.bar n).phase then 2 ^ 16 else 0) + (g.bar n).mem.toNat)))
        (fun t => Quiet s t ∧ GroupBecomes s t x (withBarrier n (arrivedAt (g.bar n) x.wv.waveid (s.det x.wv)))))
    ∧ ∀ s x h n d g l, CanTrap s x l →
      (Acts s x h ue g → ¬mine x (g.bar n) →
        TrapsPrecise (.bar h n none) s x l 0x160 (Mask.lowest (x.exec h)).val (barrierWord (g.bar n))
          ∧ TrapsPrecise (.bardrop h n) s x l 0x160 (Mask.lowest (x.exec h)).val (barrierWord (g.bar n)))
        ∧ (Acts s x h (ud d) g → ¬mine x (g.bar n) →
          TrapsPrecise (.bara h n d) s x l 0x160 (Mask.lowest (x.exec h)).val (barrierWord (g.bar n)))
        ∧ (Acts s x h ue g → mine x (g.bar n) → (g.bar n).arr &&& bitOf x.wv.waveid = 0 →
          TrapsPrecise (.barjoin h n) s x l 0x163 (Mask.lowest (x.exec h)).val (barrierWord (g.bar n)))

/-- How many freezes a wave holds on an instance of a die (R305). -/
def freezesHeld (s : State) (w die : Nat) (epoch : BitVec 48) : Nat :=
  (((((s.dies[die]?).getD Die.reset).freezes.find? (fun f => decide (f.1 = w ∧ f.2.1 = epoch)))).map (·.2.2)).getD 0

/-- R305, R308: the planner's count of a current instance has changed to `count`, and the wave's record of it to `held`; no other
instance and no other wave's record has changed. -/
def FreezeBecomes (s t : State) (x : Site) (hd : DWord) (count held : Nat) : Prop :=
  (∃ sp, t.handleSpan hd = some sp ∧ sp.freeze = count)
    ∧ freezesHeld t x.w (handleDie hd) (hd.extractLsb' 0 48) = held
    ∧ (∀ o, handleDie o ≠ handleDie hd ∨ o.extractLsb' 0 48 ≠ hd.extractLsb' 0 48 →
        (t.handleSpan o).map (·.freeze) = (s.handleSpan o).map (·.freeze))
    ∧ ∀ w k e, w ≠ x.w → freezesHeld t w k e = freezesHeld s w k e

/-- R308: the quad of SPANQ for a handle. -/
def spanQuad (s : State) (x : Site) (hd : DWord) : BitVec 128 :=
  match s.handleSpan hd with
  | none => BitVec.ofNat 128 (31 * 2 ^ 96)
  | some sp =>
    let core := x.wv.coreNo
    let member := decide (core / 64 = handleDie hd) && sp.members.contains (core % 64)
    let w2 := 2 ^ 31 + (if member then 2 ^ 30 else 0) + sp.freeze * 2 ^ 8 + sp.members.length
    BitVec.ofNat 128 ((sp.members.map (2 ^ ·)).sum + w2 * 2 ^ 64 + (if member then sp.members.findIdx (· == core % 64) else 31) * 2 ^ 96)

/-- R297, R305, R307, R308: SPANH completes with the handle of its core's instance; SPANQ of a well-formed handle with the
instance's members, state and rank; SPANFRZ freezes a current instance, and says so, and writes 0 for a stale handle; SPANTHAW
takes back one of the wave's freezes. -/
def Obligations.Spans : Prop :=
  let held (u : Uses) : Uses := { u with hold := fun s _ => s.planning }
  let uh (d : Dst) : Uses := held { dst := some (d, 2) }
  let uq (d : Dst) (a : Src) : Uses := held { srcs := [handleUse a], dst := some (d, 4) }
  let uf (d : PNum) (a : Src) : Uses := held { srcs := [handleUse a], preds := [d] }
  let ut (a : Src) : Uses := held { srcs := [handleUse a] }
  (∀ s x h d g, Acts s x h (uh d) g → RetiresWith (.spanh h false d) s x h (grp (uh d))
      (fun a b => Wrote a b (x.dst (grp (uh d))) (x.exec h) (fun _ => (s.handleAt x.wv.coreNo).setWidth 128))
      (fun t => Quiet s t ∧ t.dies = s.dies))
    ∧ (∀ s x h d g sp,
      let hd := s.handleAt x.wv.coreNo
      Acts s x h (uh d) g → s.handleSpan hd = some sp → sp.freeze < 255 →
      (freezesHeld s x.w (handleDie hd) (hd.extractLsb' 0 48) ≠ 0 ∨ (s.freezesOf x.w).length < 4) → RetiresWith (.spanh h true d) s x h (grp (uh d))
        (fun a b => Wrote a b (x.dst (grp (uh d))) (x.exec h) (fun _ => hd.setWidth 128))
        (fun t => Quiet s t ∧ FreezeBecomes s t x hd (sp.freeze + 1)
          (freezesHeld s x.w (handleDie hd) (hd.extractLsb' 0 48) + 1)))
    ∧ (∀ s x h d a g,
      let hd := handleIn s x h (grp (uq d a)) 0
      Acts s x h (uq d a) g → handleBad hd = false → RetiresWith (.spanq h d a) s x h (grp (uq d a))
        (fun wv wv' => Wrote wv wv' (x.dst (grp (uq d a))) (x.exec h) (fun _ => spanQuad s x hd))
        (fun t => Quiet s t ∧ t.dies = s.dies))
    ∧ (∀ s x h d a g,
      let hd := handleIn s x h (grp (uf d a)) 0
      Acts s x h (uf d a) g → handleBad hd = false →
      (s.handleSpan hd = none → RetiresWith (.spanfrz h d a) s x h (grp (uf d a))
          (fun wv wv' => wv' = wv.setPred d (x.exec h) 0) (fun t => Quiet s t ∧ t.dies = s.dies))
        ∧ ∀ sp, s.handleSpan hd = some sp → sp.freeze < 255 →
          (freezesHeld s x.w (handleDie hd) (hd.extractLsb' 0 48) ≠ 0 ∨ (s.freezesOf x.w).length < 4) →
          RetiresWith (.spanfrz h d a) s x h (grp (uf d a)) (fun wv wv' => wv' = wv.setPred d (x.exec h) fullMask)
            (fun t => Quiet s t ∧ FreezeBecomes s t x hd (sp.freeze + 1)
              (freezesHeld s x.w (handleDie hd) (hd.extractLsb' 0 48) + 1)))
    ∧ ∀ s x h a g sp,
      let hd := handleIn s x h (grp (ut a)) 0
      let n := freezesHeld s x.w (handleDie hd) (hd.extractLsb' 0 48)
      Acts s x h (ut a) g → handleBad hd = false → s.handleSpan hd = some sp → n ≠ 0 → sp.freeze ≠ 0 →
      RetiresWith (.spanthaw h a) s x h (grp (ut a)) (fun wv wv' => wv' = wv)
        (fun t => Quiet s t ∧ FreezeBecomes s t x hd (sp.freeze - 1) (n - 1))

/-- R360 to R363, R365: SPAWN of a well-formed record outside a deterministic tree completes: the pier of its core has drained, and
a child launch of its wave has been accepted with the record, the argument of C and the grid that B may replace; JOIN of children
that have all completed gives the OR of their statuses and forgets them, and of others it waits; SDONE marks its wave done with its
stage, unless it is the last stage; QEND completes, and in a deterministic tree the wave's quantum has ended. The model's own
choices in it are those of log entries 41 and 68. -/
def Obligations.Tasks : Prop :=
  let us (o : SpawnOp) : Uses :=
    grp { srcs := [engUse 1 o.a 2 0, engUse 2 o.b 1 1, engUse 3 (plainSrc o.c) 2 1], hold := State.edgeWaits }
  let uj (d : Option Dst) : Uses := { dst := d.map (fun d => (d, 1)) }
  let status (s : State) (x : Site) : Word := x.wv.children.foldl (fun a j => a ||| ((s.launches[j]?).map (·.status)).getD 0) 0
  (∀ s x h (o : SpawnOp) l bs,
      let a : DWord := (uniform s x h (us o) 0).setWidth 64
      let n := (uniformW s x h (us o) 1).toNat
      let r0 : LRecord := { recordOf bs with arg := ((uniform s x h (us o) 2).setWidth 64) }
      let r := if n = 0 then r0 else { r0 with gridX := n }
      Clear s x h (us o) → NoMismatch s x → x.exec h ≠ 0 → s.launchOf x.wv = some l → s.det x.wv = false → a.toNat % 64 = 0 →
      l.depth + 1 ≤ l.record.spawnDepth → x.wv.children.length < 255 → (s.spawnRecord x.wv.coreNo l.domain [] a).1 = .ok bs →
      refusal bs r (some l.record.det) = none →
      ∃ t wv0 wv1 wv2, exec (.spawn h o) s = .next t ∧ HasRead x wv0 ∧ OnlyRaces wv0 wv1
        ∧ Retires x h (us o) { wv1 with children := wv1.children ++ [s.launches.length] } wv2 ∧ t.waves[x.w]? = some wv2
        ∧ OthersRace s t x.w ∧ (∀ a, t.mem.read a = (s.drainAt x.wv.coreNo).mem.read a)
        ∧ ∃ c, t.launches = s.launches ++ [c] ∧ c.record = r ∧ c.domain = l.domain ∧ c.queue = l.queue ∧ c.depth = l.depth + 1
          ∧ c.parent = some x.w ∧ c.tree = l.tree ∧ c.completed = false)
    ∧ (∀ s x h (o : SpawnOp) l k, Clear s x h (us o) → x.exec h ≠ 0 → CanTrap s x k → s.launchOf x.wv = some l →
      let a : DWord := (uniform s x h (us o) 0).setWidth 64
      (a.toNat % 64 ≠ 0 → TrapsPrecise (.spawn h o) s x k 0x0A0 (Mask.lowest (x.exec h)).val (a.setWidth 32))
        ∧ (a.toNat % 64 = 0 → l.record.spawnDepth < l.depth + 1 →
          TrapsPrecise (.spawn h o) s x k 0x180 (Mask.lowest (x.exec h)).val (BitVec.ofNat 32 (l.depth + 1))))
    ∧ (∀ s x h d g, Acts s x h (uj d) g → x.wv.level = 0 →
      ((∀ j ∈ x.wv.children, ∀ c, s.launches[j]? = some c → c.completed = true) → s.det x.wv = false →
        RetiresWith (.join h d) s x h (grp (uj d)) (fun wv wv' => match d with
            | none => wv' = { wv with children := [] }
            | some _ => Wrote { wv with children := [] } wv' (x.dst (grp (uj d))) (x.exec h) (fun _ => (status s x).setWidth 128))
          (fun t => Quiet s t ∧ t.launches = s.launches))
        ∧ ((∃ j ∈ x.wv.children, ∃ c, s.launches[j]? = some c ∧ c.completed = false) ∨ s.det x.wv = true →
          ∃ er, WaitsFor (.join h d) s x h (.join x.wv.children d er (x.exec h)) (fun t => t.launches = s.launches)))
    ∧ (∀ s x h d g l, Acts s x h (uj d) g → x.wv.level ≠ 0 → CanTrap s x l →
      TrapsPrecise (.join h d) s x l 0x182 (Mask.lowest (x.exec h)).val 0)
    ∧ (∀ s x h g l, Acts s x h {} g → s.launches[g.launch]? = some l →
      RetiresStoring (.sdone h) s x h (grp {}) (fun t => ∃ g', t.groups[x.wv.group]? = some g'
        ∧ g'.sdone = if g.stage + 1 = l.record.stages then g.sdone else g.sdone ||| bitOf x.wv.waveid))
    ∧ ∀ s x h g, Acts s x h {} g → ∃ t wv2, exec (.qend h) s = .next t ∧ t.waves[x.w]? = some wv2 ∧ OnlyWave s t x.w
      ∧ wv2.regs = x.wv.regs ∧ wv2.qretired = x.wv.qretired + 1 ∧ (s.det x.wv = true → wv2.qended = true)

/-- R280: word `k` of a replay entry in a lane, for the words that RQRD gives alike to every lane. -/
def entryWord (e : RQEntry) (seq k : Nat) : Word :=
  match k with
  | 0 => BitVec.ofNat 32 (2 ^ 31 + e.kind.toNat * 2 ^ 28 + e.cause.toNat * 2 ^ 16 + seq)
  | 1 => e.remain
  | 2 => e.pc
  | 3 => e.w0
  | 4 => e.w1
  | 5 => e.w2
  | 6 => e.detail
  | _ => 0

/-- R280, R281, R287: at a trap level above 0, RQRD completes with a word of an entry, 0 for one that does not exist; RQWR of
REMAIN with the AND of its value, and of a lane's operand word with the values of its EXEC lanes that remain; RQDEL removes
the entry. KILL completes: the live lanes it names are dead, and no other. The model's own choices in it are those of log
entry 40. -/
def Obligations.ReplayQueue : Prop :=
  let ud (d : Dst) : Uses := { dst := some (d, 1) }
  let uw (a : Src) : Uses := { srcs := [{ fld := 1, src := a, consume := some 1 }] }
  let uk (a : Src) : Uses := { srcs := [{ fld := 1, src := a, uniform := true, consume := some 2 }] }
  (∀ s x h (e : BitVec 3) (w : BitVec 5) d g, Acts s x h (ud d) g → x.wv.level ≠ 0 →
      (w.toNat < 8 → RetiresWith (.rqrd h e w d) s x h (grp (ud d)) (fun a b => Wrote a b (x.dst (grp (ud d))) (x.exec h)
          (fun _ => (match x.wv.rq[e.toNat]? with | some y => entryWord y e.toNat w.toNat | none => 0).setWidth 128)) (Quiet s))
      ∧ (8 ≤ w.toNat → w.toNat < 20 → RetiresWith (.rqrd h e w d) s x h (grp (ud d)) (fun a b => Wrote a b (x.dst (grp (ud d))) (x.exec h)
          (fun L => match x.wv.rq[e.toNat]?, (x.wv.rq[e.toNat]?).bind (fun y => y.lw[w.toNat - 8]?) with
            | some y, some lw => if y.kind ≠ 5 ∧ y.remain.has L = true then (lw.v[L]).setWidth 128 else 0
            | _, _ => 0)) (Quiet s)))
    ∧ (∀ s x h (e : BitVec 3) a y, Clear s x h (uw a) → NoMismatch s x → x.exec h ≠ 0 → x.wv.level ≠ 0 → x.wv.rq[e.toNat]? = some y →
      y.remain &&& operandW s x h (uw a) 0 (Mask.lowest (x.exec h)) ≠ 0 → (∀ z ∈ x.wv.rq, z.remain ≠ 0) →
      CompletesSo (.rqwr h e 1 a) s x h (uw a) (fun wv0 wv1 => wv1 = { wv0 with
        rq := wv0.rq.set e.toNat { y with remain := (y.remain &&& operandW s x h (uw a) 0 (Mask.lowest (x.exec h))) } }))
    ∧ (∀ s x h (e : BitVec 3) (w : BitVec 5) a y, Clear s x h (uw a) → NoMismatch s x → x.exec h ≠ 0 → x.wv.level ≠ 0 →
      x.wv.rq[e.toNat]? = some y → y.kind ≠ 5 → 8 ≤ w.toNat → w.toNat < 20 → (∀ z ∈ x.wv.rq, z.remain ≠ 0) →
      CompletesSo (.rqwr h e w a) s x h (uw a) (fun wv0 wv1 => ∃ y', wv1 = { wv0 with rq := wv0.rq.set e.toNat y' }
        ∧ y'.remain = y.remain ∧ ∀ old new, y.lw[w.toNat - 8]? = some old → y'.lw[w.toNat - 8]? = some new → ∀ L : Lane,
          new.v[L] = (if (x.exec h).has L = true ∧ y.remain.has L = true then operandW s x h (uw a) 0 L else old.v[L])))
    ∧ (∀ s x h (e : BitVec 3) g y, Acts s x h {} g → x.wv.level ≠ 0 → x.wv.rq[e.toNat]? = some y →
      RetiresWith (.rqdel h e false) s x h (grp {}) (fun wv wv' => ∃ k, wv' = { wv with rq := wv.rq.eraseIdx e.toNat, stopAt := k })
        (Quiet s))
    ∧ (∀ s x h (e : BitVec 3) cmp g l, Acts s x h {} g → CanTrap s x l →
      (cmp = true → ∀ y, x.wv.rq[e.toNat]? = some y → x.wv.outWaits y.dst = false) →
      (x.wv.level = 0 → TrapsPrecise (.rqdel h e cmp) s x l 0x164 (Mask.lowest (x.exec h)).val 0)
        ∧ (x.wv.level ≠ 0 → x.wv.rq[e.toNat]? = none →
          TrapsPrecise (.rqdel h e cmp) s x l 0x165 (Mask.lowest (x.exec h)).val (e.setWidth 32)))
    ∧ ∀ s x h a, Clear s x h (uk a) → x.exec h ≠ 0 → (s.checking x.wv = false ∨ ∀ k, x.wv.table.rec? k = none) → NoMismatch s x →
      ∃ t wv2, exec (.kill h a) s = .next t ∧ t.waves[x.w]? = some wv2 ∧ wv2.regs = x.wv.regs
        ∧ wv2.live = x.wv.live &&& ~~~uniformW s x h (uk a) 0
        ∧ wv2.dead = x.wv.dead ||| (x.wv.live &&& uniformW s x h (uk a) 0)
        ∧ (wv2.live = 0 → wv2.life = .retired)

/-- R26, R203, R249, R272, R281, R287, R308, R361: an instruction of groups B, C and D completes without effect when EXEC is empty. -/
def EmptyGroupInstructions : Prop :=
  let ok (i : Instr) (s : State) (x : Site) (h : Hdr) (u : Uses) : Prop := Clear s x h u → CompletesWith i s x h u (fun wv => wv)
  let ud (d : Dst) : Uses := { dst := some (d, 1) }
  let ua (a : Src) : Uses := { srcs := [{ fld := 1, src := a, uniform := true }] }
  let ul (lw : Plain) : Uses := { srcs := [engUse 0 (plainSrc lw.r lw.fe) 3 3] }
  ∀ s x h, NoMismatch s x → x.exec h = 0 →
    (∀ mtx d, ok (.bclose h mtx d) s x h (ud d)) ∧ (∀ mtx a, ok (.bwait h mtx a) s x h (ua a))
      ∧ (∀ mtx d a, ok (.btest h mtx d a) s x h { ua a with preds := [d] })
      ∧ (∀ t a, ok (.tcfg h t a) s x h (grp { srcs := [engUse 1 a 1 3] }))
      ∧ (∀ t lw, ok (.tld h t lw) s x h (grp (ul lw)) ∧ ok (.tst h t lw) s x h (grp (ul lw)))
      ∧ (∀ o, ok (.mma h o) s x h (grp { fmt := (Instr.mma h o).fmtFaults x.sp.fmt })
        ∧ ok (.mmab h o) s x h (grp { fmt := (Instr.mmab h o).fmtFaults x.sp.fmt }))
      ∧ (∀ o : AcldOp, ok (.acld h o) s x h (grp { srcs := [engUse 0 (plainSrc o.lw.r o.lw.fe) 3 3, engUse 2 o.b 1 3] }))
      ∧ (∀ o : AcstOp, ok (.acst h o) s x h (grp { srcs := (match o.tgt with
          | .scratch lw => [engUse 0 (plainSrc lw.r lw.fe) 3 3, engUse 2 o.b 1 3]
          | .object q => [engUse 1 q 4 3, engUse 2 o.b 1 3]) }))
      ∧ (∀ o : AcrdOp, ok (.acrd h o) s x h (grp { srcs := [{ fld := 2, src := o.b, consume := some 3 }],
                                                   dst := some (o.d, if o.w64 then 2 else 1) }))
      ∧ (∀ b, ok (.bpass h (some b)) s x h (grp { srcs := [engUse 2 b 1 3] }))
      ∧ (∀ n t, ok (.bar h n (some t)) s x h (grp { srcs := [engUse 1 t 1 2] }))
      ∧ (∀ frz d, ok (.spanh h frz d) s x h (grp { dst := some (d, 2) }))
      ∧ (∀ d a, ok (.spanq h d a) s x h (grp { srcs := [handleUse a], dst := some (d, 4) }))
      ∧ (∀ d a, ok (.spanfrz h d a) s x h (grp { srcs := [handleUse a], preds := [d] }))
      ∧ (∀ a, ok (.spanthaw h a) s x h (grp { srcs := [handleUse a] }))
      ∧ (∀ o : SpawnOp, ok (.spawn h o) s x h (grp { srcs := [engUse 1 o.a 2 0, engUse 2 o.b 1 1, engUse 3 (plainSrc o.c) 2 1] }))
      ∧ (∀ d, ok (.join h (some d)) s x h (grp (ud d))) ∧ ok (.qend h) s x h (grp {})
      ∧ (∀ e w d, ok (.rqrd h e w d) s x h (grp (ud d)))
      ∧ (∀ e w a, ok (.rqwr h e w a) s x h { srcs := [{ fld := 1, src := a, consume := some 1 }] })
      ∧ (∀ a, ok (.kill h a) s x h { srcs := [{ fld := 1, src := a, uniform := true, consume := some 2 }] })
      ∧ (∀ n a, ok (.barinit h n a) s x h (grp { srcs := [engUse 1 a 1 2] })) ∧ (∀ n, ok (.bar h n none) s x h (grp {}))
      ∧ (∀ n, ok (.bardrop h n) s x h (grp {})) ∧ (∀ n, ok (.barjoin h n) s x h (grp {}))
      ∧ (∀ n d, ok (.bara h n d) s x h (grp (ud d))) ∧ ok (.btake h) s x h (grp {}) ∧ ok (.bpass h none) s x h (grp {})
      ∧ (∀ d, ok (.bqry h d) s x h (grp (ud d))) ∧ (∀ t, ok (.tzero h t) s x h (grp {})) ∧ (∀ ac, ok (.acz h ac) s x h (grp {}))
      ∧ ok (.join h none) s x h (grp {}) ∧ ok (.sdone h) s x h (grp {})
      ∧ (∀ e cmp, ok (.rqdel h e cmp) s x h (grp {}))

/-- R26, R60: with an empty EXEC the instructions of groups A to D complete and change nothing but their split's place (those that
are not named here do so in the statements of their own: FENCE, CCTL and OTSYNC, COPY and COPYO, MLD and MST). The model's own
choices in it are those of log entry 29. -/
def Obligations.EmptyExec : Prop := EmptyMemoryAccesses ∧ EmptyGroupInstructions

/-! ## The majority region -/

/-- A step gives a next state that `P` describes. -/
def Gives (i : Instr) (s : State) (P : State → Prop) : Prop := ∃ t, exec i s = .next t ∧ P t

/-- R383: the lanes `m` name words of cell `c` of set `n`: aligned, in one cell, translated with the right that the access needs to a
majority page, whose cell a valid set holds. -/
def ReachesCell (s : State) (x : Site) (m : Mask) (g : GAcc) (ea : Lane → DWord) (n : BitVec 4) (c : Nat) : Prop :=
  ∃ l cell, s.launchOf x.wv = some l ∧ ∀ L, m.has L = true → (ea L).toNat % 4 = 0 ∧ (ea L).toNat / 64 = cell
    ∧ ∃ p, (s.translate x.wv.die' l.domain (ea L) g.need).1 = .ok p ∧ p.kind = 4 ∧ p.setNo = n ∧ p.pa / 64 = c
      ∧ s.cellOk n p.pa = true

/-- R383: the address of a participant. -/
def cellAddress (s : State) (x : Site) (h : Hdr) (u : Uses) (k : Nat) (ofs : BitVec 10) (L : Lane) : DWord :=
  (operand s x h u k L).setWidth 64 + ofs.signExtend 64

/-- R314, R377: an access that the keystone of the wave's die holds until it may start; the wave's later accesses wait for it when its
order acquires. -/
def HeldAccess (x : Site) (a : MajAcc) (o : Order) (n : BitVec 4) (c : Nat) (m : Mask) : Prop :=
  a.keystone = x.wv.die' ∧ a.wave = x.w ∧ a.setNo = n ∧ a.pa = c * 64 ∧ a.lanes = m ∧ a.phase = .held ∧ a.replies = []
    ∧ a.holds = [] ∧ a.answers = [] ∧ a.asked = 0 ∧ a.fence = o.acquires

/-- R383, R384: MLD issues a producer of its participants, which waits for the load that it gives its keystone; MST of a whole half
that names the 16 words of a cell gives its keystone a store of those 64 bytes; neither changes memory but by the drain of a
release, and with no participant neither has an effect. The model's own choices in it are those of log entry 68. -/
def Obligations.MajorityAccesses : Prop :=
  (∀ s x h (o : MldOp) n c,
      let u := mldUses o
      let m := x.exec h &&& halfMask o.hi
      let s1 := released s x o.scope o.order
      Clear s x h u → NoMismatch s x → s.det x.wv = false → m ≠ 0 → ReachesCell s1 x m .majLoad (cellAddress s x h u 0 o.ofs) n c →
      Gives (.mld h o) s (fun t => (∀ k, t.mem.read k = s1.mem.read k) ∧ ∃ a f wv1 wv2, t.waves[x.w]? = some wv2
        ∧ t.keys = { s1.keys with accs := s1.keys.accs ++ [a] } ∧ HeldAccess x a o.order n c m ∧ a.kind = .load ∧ a.flight = some f.id
        ∧ s1.waves[x.w]? = some wv1 ∧ wv2.flights = wv1.flights ++ [f] ∧ f.id = x.wv.nextFlight ∧ f.dst = x.dst u
        ∧ f.entry.kind = 1 ∧ f.entry.remain = m ∧ f.known = 0 ∧ (∀ r (L : Lane), (wv2.reg r).val[L] = (x.wv.reg r).val[L])
        ∧ ((x.dst u).ind = false → (wv2.reg ((x.dst u).er[(0 : Lane)].toNat)).full = false)))
    ∧ (∀ s x h (o : MstOp) n c,
      let u := mstUses o
      let m := halfMask o.hi
      let s1 := fenceReleased s x o.scope o.order false
      let ea := cellAddress s x h u 1 o.ofs
      Clear s x h u → NoMismatch s x → s.det x.wv = false → x.exec h &&& m = m → ReachesCell s1 x m .majStore ea n c →
      (∀ L L' : Lane, m.has L = true → m.has L' = true → (ea L).toNat % 64 = (ea L').toNat % 64 → L = L') →
      ∃ a data, RetiresStoring (.mst h o) s x h u (fun t => (∀ k, t.mem.read k = s1.mem.read k)
          ∧ t.keys = { s1.keys with accs := s1.keys.accs ++ [a] })
        ∧ HeldAccess x a o.order n c m ∧ a.flight = none ∧ a.kind = .store data (BitVec.ofNat 8 x.wv.coreNo) ∧ data.length = 64
        ∧ ∀ L, m.has L = true → (data.drop ((ea L).toNat % 64)).take 4 = toBytes 4 (operandW s x h u 0 L).toNat)
    ∧ (∀ s x h o, NoMismatch s x → x.exec h &&& halfMask o.hi = 0 → Clear s x h (mldUses o) →
        CompletesWith (.mld h o) s x h (mldUses o) (fun wv => wv))
    ∧ ∀ s x h o, NoMismatch s x → x.exec h &&& halfMask o.hi = 0 → Clear s x h (mstUses o) →
        CompletesWith (.mst h o) s x h (mstUses o) (fun wv => wv)

/-- Only the keystones have changed, and in them the accesses and messages alone, a copy, and the counters. -/
def OnlyKeys (s t : State) : Prop :=
  t = { s with keys := { s.keys with accs := t.keys.accs, msgs := t.keys.msgs, copies := t.keys.copies, kstamp := t.keys.kstamp } }

/-- The keystones' counters and messages stand as they were. -/
def SameTraffic (s t : State) : Prop := t.keys.msgs = s.keys.msgs ∧ t.keys.kstamp = s.keys.kstamp

/-- R371, R378, R387: the copy that answers query `copy` of an access: it was asked, its stack answers, and it is not damaged. -/
def Answers (s : State) (a : MajAcc) (copy : Nat) : Prop :=
  let r := s.repset a.setNo
  a.asked.getLsbD copy = true ∧ copy < repN r ∧ (∀ x ∈ a.replies, x.1 ≠ copy) ∧ s.stackUp.getLsbD (repStack r copy) = true
    ∧ (s.copyAt (repStack r copy) (repOff r a.pa)).damaged = false

/-- A message of access `k` to a copy of its cell. -/
def copyMsg (s : State) (k : Nat) (a : MajAcc) (copy : Nat) (tag : BitVec 64) (data : List Byte) : MajMsg :=
  { acc := some k, copy := copy, stack := repStack (s.repset a.setNo) copy, off := repOff (s.repset a.setNo) a.pa, tag := tag, data := data }

/-- R387: the messages of access `k` to copies, of which those to stacks that answer are sent and the others are lost. -/
def sentTo (s : State) (k : Nat) (a : MajAcc) (copies : List Nat) (tag : BitVec 64) (data : List Byte) : List MajMsg :=
  (copies.filter (fun i => s.stackUp.getLsbD (repStack (s.repset a.setNo) i))).map (fun i => copyMsg s k a i tag data)

/-- R375: the copy after a store or write-back of `tag` and `data`: taken when the copy is damaged or older. -/
def taken (c : MajCopy) (tag : BitVec 64) (data : List Byte) : MajCopy :=
  if c.damaged = true ∨ c.tag.toNat < tag.toNat then ⟨tag, data, false⟩ else c

/-- R374: of the counters, keystone `j` alone has changed, to at least `n`. -/
def CounterAtLeast (s t : State) (j n : Nat) : Prop :=
  ∀ i, (t.keys.kstamp[i]?).map BitVec.toNat
    = if i = j then (s.keys.kstamp[i]?).map (fun x => max x.toNat n) else (s.keys.kstamp[i]?).map BitVec.toNat

/-- R375: the greatest stamp among the replies of an access and its keystone's counter, once `copy` has replied. -/
def topStamp (s : State) (a : MajAcc) (copy : Nat) : Nat :=
  let r := s.repset a.setNo
  (a.replies ++ [(copy, (s.copyAt (repStack r copy) (repOff r a.pa)).tag, [])]).foldl (fun m (x : Nat × BitVec 64 × List Byte) => max m (stampOf x.2.1).toNat)
    ((s.keys.kstamp[a.keystone]?).getD 0).toNat

/-- R374, R375, R381: a tag reply, which raises the counter. At the quorum the store takes the stamp above every reply and the
counter, and is sent to every copy; a store whose stamp would pass the limit is sent to none. -/
def TagReply (s t : State) (k copy : Nat) (a : MajAcc) (data : List Byte) (core : Byte) : Prop :=
  let r := s.repset a.setNo
  let c := s.copyAt (repStack r copy) (repOff r a.pa)
  let replies := a.replies ++ [(copy, c.tag, [])]
  let top := topStamp s a copy
  t.keys.copies = s.keys.copies
    ∧ (a.phase ≠ .query ∨ replies.length ≠ repQ r → OnlyKeys s t ∧ t.keys.accs[k]? = some { a with replies := replies }
      ∧ t.keys.msgs = s.keys.msgs ∧ CounterAtLeast s t a.keystone (stampOf c.tag).toNat)
    ∧ (a.phase = .query → replies.length = repQ r → 2 ^ 56 ≤ top + 1 →
      t.keys.accs[k]? = some { a with replies := replies, phase := .done } ∧ t.keys.msgs = s.keys.msgs)
    ∧ (a.phase = .query → replies.length = repQ r → top + 1 < 2 ^ 56 →
        let tag : BitVec 64 := BitVec.ofNat 56 (top + 1) ++ core
        OnlyKeys s t ∧ t.keys.accs[k]? = some { a with replies := replies, phase := .write, tag := tag, data := data }
          ∧ t.keys.msgs = s.keys.msgs ++ sentTo s k a (List.range (repN r)) tag data
          ∧ CounterAtLeast s t a.keystone (top + 1))

/-- R374, R376: a load's answer, which raises the counter. Before the quorum it is kept; at the quorum the load takes a reply of
greatest tag, and sends it to the replies' copies that are older; later an answer counts as a copy that holds it when its tag is
no less; the load has completed once Q copies are known to hold it. -/
def LoadAnswer (s t : State) (k copy : Nat) (a : MajAcc) : Prop :=
  let r := s.repset a.setNo
  let c := s.copyAt (repStack r copy) (repOff r a.pa)
  let replies := a.replies ++ [(copy, c.tag, c.data)]
  let ended (holds : List Nat) : MajPhase := if repQ r ≤ holds.length then .done else .write
  t.keys.copies = s.keys.copies ∧ CounterAtLeast s t a.keystone (stampOf c.tag).toNat
    ∧ (a.phase = .query → (replies.length ≠ repQ r → t.keys.accs[k]? = some { a with replies := replies } ∧ t.keys.msgs = s.keys.msgs)
      ∧ (replies.length = repQ r → ∃ cp tag data, (cp, tag, data) ∈ replies ∧ (∀ x ∈ replies, x.2.1.toNat ≤ tag.toNat) ∧
        let holds := (replies.filter (fun x => decide (x.2.1 = tag))).map (·.1)
        let late := (replies.filter (fun x => decide (x.2.1.toNat < tag.toNat))).map (·.1)
        t.keys.accs[k]? = some { a with replies := replies, tag := tag, data := data, holds := holds, phase := ended holds }
          ∧ t.keys.msgs = s.keys.msgs ++ sentTo s k a late tag data))
    ∧ (a.phase = .write → t.keys.msgs = s.keys.msgs ∧
      let holds := if a.tag.toNat ≤ c.tag.toNat ∧ copy ∉ a.holds then a.holds ++ [copy] else a.holds
      t.keys.accs[k]? = some { a with replies := replies, holds := holds, phase := ended holds })
    ∧ (a.phase = .done → t.keys.msgs = s.keys.msgs ∧ t.keys.accs[k]? = some { a with replies := replies })

/-- The scrubber's place in a set (R379): the cell after the last one scrubbed, the first again past the end. -/
def scrubPlace (s : State) (set : Nat) : Nat :=
  let n := setCells (s.repset (BitVec.ofNat 4 set))
  let at' := (s.keys.scrubAt[set]?).getD 0
  if at' < n then at' else 0

/-- R379: the scrubber takes a cell now: it is enabled and has a rate, the set is valid, and the cell is its next. -/
def Scrubs (s : State) (set cell : Nat) : Prop :=
  let r := s.repset (BitVec.ofNat 4 set)
  s.keys.scrub.getLsbD 31 = true ∧ s.keys.scrub.extractLsb' 0 20 ≠ 0#20 ∧ r.getLsbD 31 = true ∧ cell < setCells r
    ∧ cell = scrubPlace s set

/-- The copies of a cell of a set, by number: a stack and an offset in its majority region. -/
def copyPlace (s : State) (set cell i : Nat) : Nat × Nat :=
  (repStack (s.repset (BitVec.ofNat 4 set)) i, repOff (s.repset (BitVec.ofNat 4 set)) (cell * 64))

/-- Copy `i` of a cell of a set exists on a stack that answers. -/
def CopyUp (s : State) (set cell i : Nat) : Prop :=
  i < repN (s.repset (BitVec.ofNat 4 set)) ∧ s.stackUp.getLsbD (copyPlace s set cell i).1 = true

/-- How many copies of a cell answer undamaged. -/
def goodCopies (s : State) (set cell : Nat) : Nat :=
  ((List.range (repN (s.repset (BitVec.ofNat 4 set)))).filter (fun i => s.stackUp.getLsbD (copyPlace s set cell i).1
    && !(s.copyAt (copyPlace s set cell i).1 (copyPlace s set cell i).2).damaged)).length

/-- R371, R374 to R381, R387: the steps of the keystones. An access starts when no earlier one of its wave to its cell is
unfinished and no rebase is under way, and asks the copies on stacks that answer; a store takes a stamp above the replies of a
quorum and is sent to the copies; a load takes the reply of greatest tag and repairs older copies; a copy takes a store of a
greater tag, or when it is damaged; a store is done when a quorum holds it; loss of quorum raises 0x0E6 or 0x0E7; a scrub step
brings every copy of its next cell to the greatest undamaged one, or skips a cell without a quorum; a rebase fails without
effect or sets every KSTAMP to 1; a stack that stops answering or returns changes its bit, and a return without contents leaves
its copies damaged. The model's own choices in it are those of log entries 24 and 52. -/
def Obligations.MajoritySteps : Prop :=
  (∀ s k, Gives (.majAccessStart k) s (fun t => OnlyKeys s t ∧ SameTraffic s t ∧ ∀ a, s.keys.accs[k]? = some a → a.phase = .held →
      t.keys.accs[k]? = some
      (if s.keys.rebaseBusy = false ∧ (∀ b ∈ s.keys.accs.take k, b.wave = a.wave → b.setNo = a.setNo → b.pa = a.pa → b.phase = .done)
        then { a with phase := .query, asked := s.upCopies (s.repset a.setNo) } else a)))
    ∧ (∀ (s : State) (n : BitVec 4) (i : Nat), (s.upCopies (s.repset n)).getLsbD i
        = decide (i < repN (s.repset n) ∧ s.stackUp.getLsbD (repStack (s.repset n) i) = true))
    ∧ (∀ s k copy, Gives (.majTagReply k copy) s (fun t => ∀ a data core, s.keys.accs[k]? = some a → a.kind = .store data core →
        a.keystone < 4 → Answers s a copy → TagReply s t k copy a data core))
    ∧ (∀ s k copy, Gives (.majLoadAnswer k copy) s (fun t => ∀ a, s.keys.accs[k]? = some a → a.kind = .load →
        Answers s a copy → LoadAnswer s t k copy a))
    ∧ (∀ s m, Gives (.majCopyStore m) s (fun t => OnlyKeys s t ∧ t.keys.msgs = s.keys.msgs.eraseIdx m ∧ t.keys.kstamp = s.keys.kstamp
        ∧ ∀ x, s.keys.msgs[m]? = some x →
        (s.stackUp.getLsbD x.stack = false → t.keys = { s.keys with msgs := t.keys.msgs })
        ∧ (s.stackUp.getLsbD x.stack = true → t.copyAt x.stack x.off = taken (s.copyAt x.stack x.off) x.tag x.data
          ∧ (∀ st o, (st, o) ≠ (x.stack, x.off) → t.copyAt st o = s.copyAt st o)
          ∧ ∀ k a, x.acc = some k → s.keys.accs[k]? = some a → t.keys.accs[k]? = some { a with answers := (a.answers ++ [(x.copy,
              decide ((s.copyAt x.stack x.off).damaged = true ∨ (s.copyAt x.stack x.off).tag.toNat < x.tag.toNat))]) })))
    ∧ (∀ s k copy acc, Gives (.majStoreAnswer k copy acc) s (fun t => t.keys.copies = s.keys.copies ∧ SameTraffic s t ∧
        ∀ a, s.keys.accs[k]? = some a → a.phase = .write → (copy, acc) ∈ a.answers →
        let holds := if copy ∈ a.holds then a.holds else a.holds ++ [copy]
        t.keys.accs[k]? = some { a with answers := (a.answers.filter (fun x => x != (copy, acc))), holds := holds
                                        phase := (if repQ (s.repset a.setNo) ≤ holds.length then .done else .write) }))
    ∧ (∀ s k, Gives (.lossOfQuorum k) s (fun t => ∀ a, s.keys.accs[k]? = some a → (a.phase = .query ∨ a.phase = .write) →
        t.keys.accs[k]? = some { a with phase := .done } ∧ ((∀ core dom i, a.kind ≠ .entry core dom i) → ∃ s1 : State, t = s1.raiseAsync a.wave
          ⟨if a.kind = .load then 0x0E6 else 0x0E7, (Mask.lowest a.lanes).val, BitVec.ofNat 32 a.pa, some a.entry.pc, a.entry.w0,
            a.entry.w1, a.entry.w2⟩ ∧ s1 = { s with keys := s1.keys, waves := s1.waves })))
    ∧ (∀ s set cell, set < 16 → Gives (.scrubStep set cell) s (fun t =>
        (¬Scrubs s set cell → t = s)
        ∧ (Scrubs s set cell → t.keys.scrubAt[set]? = some (cell + 1) ∧ t.keys.accs = s.keys.accs ∧ SameTraffic s t
          ∧ (goodCopies s set cell < repQ (s.repset (BitVec.ofNat 4 set)) → t.keys.copies = s.keys.copies)
          ∧ (repQ (s.repset (BitVec.ofNat 4 set)) ≤ goodCopies s set cell →
            let copy (i : Nat) : MajCopy := s.copyAt (copyPlace s set cell i).1 (copyPlace s set cell i).2
            ∃ j, CopyUp s set cell j ∧ (copy j).damaged = false
              ∧ (∀ i, CopyUp s set cell i → (copy i).damaged = false → (copy i).tag.toNat ≤ (copy j).tag.toNat)
              ∧ ∀ i, CopyUp s set cell i → t.copyAt (copyPlace s set cell i).1 (copyPlace s set cell i).2
                = taken (copy i) (copy j).tag (copy j).data))))
    ∧ (∀ s, Gives .rebaseComplete s (fun t => s.keys.rebaseBusy = true → (∀ a ∈ s.keys.accs, a.phase = .held ∨ a.phase = .done) →
        s.keys.msgs = [] → t.keys.rebaseBusy = false ∧ t.keys.accs = s.keys.accs
          ∧ (s.validSets.all s.rebaseOk = false → t = { s with keys := { s.keys with rebaseBusy := false, rebaseFail := true } })
          ∧ (s.validSets.all s.rebaseOk = true → t.keys.rebaseFail = false ∧ (∀ k, k < 4 → t.keys.kstamp[k]? = some 1)
            ∧ ∀ c ∈ t.keys.copies, ∀ r ∈ s.validSets, (∃ i, i < repN r ∧ repStack r i = c.1) → repOff r 0 ≤ c.2.1 →
              c.2.1 < repOff r 0 + (r.extractLsb' 32 16).toNat * 2 ^ 20 → stampOf c.2.2.tag = 1)))
    ∧ (∀ s n, n < 12 → Gives (.stackUnreachable false n) s (fun t => t = { s with stackUp := t.stackUp }
        ∧ ∀ i, t.stackUp.getLsbD i = (s.stackUp.getLsbD i && decide (i ≠ n))))
    ∧ (∀ s n, n < 8 → Gives (.stackUnreachable true n) s (fun t => t = { s with siteUp := t.siteUp }
        ∧ ∀ i, t.siteUp.getLsbD i = (s.siteUp.getLsbD i && decide (i ≠ n))))
    ∧ (∀ s n, n < 12 → Gives (.stackReturn false n false) s (fun t => t = { s with stackUp := t.stackUp }
        ∧ ∀ i, t.stackUp.getLsbD i = (s.stackUp.getLsbD i || decide (i = n))))
    ∧ (∀ s n, n < 12 → Gives (.stackReturn false n true) s (fun t => t.waves = s.waves ∧ t.stackUp.getLsbD n = true
        ∧ ∀ off, (t.copyAt n off).damaged = true))
    ∧ ∀ s n lost, n < 8 → Gives (.stackReturn true n lost) s (fun t => t.waves = s.waves ∧ t.keys = s.keys ∧ t.siteUp.getLsbD n = true)

/-! ## The Viaduct fabric -/

/-- Lifetime counter `i` has counted `n` more events (R415), and nothing else has changed. -/
def Counted (s t : State) (i n : Nat) : Prop :=
  t = { s with mgmt := { s.mgmt with counters := t.mgmt.counters, recent := t.mgmt.recent } }
    ∧ lookupN i t.mgmt.counters = some (BitVec.ofNat 64 (min (((lookupN i s.mgmt.counters).getD 0).toNat + n) (2 ^ 64 - 1)))
    ∧ ∀ j, j ≠ i → lookupN j t.mgmt.counters = lookupN j s.mgmt.counters

/-- R416: the event of a frame's arrival, by its OP. -/
def received (f : Frame) : Instr := match f.op.toNat with
  | 0 => .ackOnly f | 1 => .remoteRead f | 2 => .remoteWrite f | 3 => .remoteAtomic f | 4 => .readResponse f | 5 => .writeResponse f
  | 6 => .atomicResponse f | 7 => .errorResponse f | 8 => .streamReset f | 9 => .resetAcknowledge f | _ => .discardedFrame f

/-- The stream that a frame belongs to. -/
def from' (s : State) (f : Frame) : Stream := s.stream f.src.toNat

/-- R416, R417: a frame that is neither discarded nor out of order. -/
def InOrder (s : State) (f : Frame) : Prop := s.frameBad f = false ∧ f.seq = (from' s f).expect

/-- R417: a frame has been taken. -/
def Took (t : State) (f : Frame) : Prop := (from' t f).expect = nextSeq f.seq ∧ (from' t f).acked = f.seq

/-- R421: an answer to frame `f` is on its way to its sender. -/
def Replies (t : State) (f : Frame) (op : BitVec 8) (payload : List Byte) : Prop :=
  ∃ r ∈ (from' t f).held ++ (from' t f).unacked, r.op = op ∧ r.tag = f.tag ∧ r.payload = payload ∧ r.bad = false

/-- The bytes of HBM that a peer names are at devices that answer, with no uncorrectable word. -/
def HomeFine (s : State) (a n : Nat) : Prop := (∀ i, i < n → s.keyUp (memKey 0 (a + i)) = true) ∧ s.seenBad none (memKey 0 a) n = false

/-- R416 to R418, R421: frames received. A frame of R416's list is discarded and counted; one out of order gives its
acknowledgement only; requests within the export window are performed at the home and answered, others are refused; a response
is given to the operation that waits for it. The model's own choices in it are those of log entries 10 and 44. -/
def Obligations.FramesReceived : Prop :=
  (∀ s f, s.frameBad f = true → Gives (received f) s (Counted s · discardIndex 1) ∧ Gives (.discardedFrame f) s (Counted s · discardIndex 1))
    ∧ (∀ s f, 1 ≤ f.op.toNat → f.op.toNat ≤ 7 → s.frameBad f = false → f.seq ≠ (from' s f).expect →
        exec (received f) s = .next (s.takeAck f.src.toNat f.ack))
    ∧ (∀ s f, f.op = 0 → s.frameBad f = false → Gives (.ackOnly f) s (fun t =>
        if (from' s f).unacked.any (fun x => x.seq == f.ack) = true then
          (∃ more, (from' t f).unacked = ((from' s f).unacked.dropWhile (fun x => x.seq != f.ack)).drop 1 ++ more)
            ∧ (from' t f).retries = 0 ∧ (from' t f).st = (if (from' s f).st = .recovery then .up else (from' s f).st)
        else t = s))
    ∧ (∀ s f, f.op = 1 → InOrder s f →
        let a := f.addr.toNat / 4 * 4
        let n := 4 * f.len.toNat
        if s.exports a n 1 = true then HomeFine s a n → Gives (.remoteRead f) s (fun t => Took t f ∧ t.mem = s.mem
          ∧ Replies t f 4 ((List.range n).map (fun i => s.mem.read (memKey 0 a + i))))
        else Gives (.remoteRead f) s (fun t => Took t f ∧ t.mem = s.mem ∧ Replies t f 7 []))
    ∧ (∀ s f, f.op = 2 → InOrder s f →
        if ((writeBytes f).all (fun b => s.exports b.1 1 2) && s.via.ven) = true then
          (∀ b ∈ writeBytes f, s.keyUp (memKey 0 b.1) = true) → Gives (.remoteWrite f) s (fun t => Took t f ∧ Replies t f 5 []
            ∧ (∀ b ∈ writeBytes f, t.mem.read (memKey 0 b.1) = b.2)
            ∧ ∀ k, (∀ b ∈ writeBytes f, k ≠ memKey 0 b.1) → t.mem.read k = s.mem.read k)
        else Gives (.remoteWrite f) s (fun t => Took t f ∧ t.mem = s.mem ∧ Replies t f 7 []))
    ∧ (∀ s f op n, f.op = 3 → InOrder s f → atomicOf f = some (op, n) →
        let a := f.addr.toNat
        let old := (List.range n).map (fun i => s.mem.read (memKey 0 a + i))
        if s.exports a n 7 = true ∧ a % n = 0 then HomeFine s a n → Gives (.remoteAtomic f) s (fun t => Took t f ∧ Replies t f 6 old
          ∧ ∀ k, t.mem.read k = if memKey 0 a ≤ k ∧ k < memKey 0 a + n
              then ((toBytes n ((rmwNew op (ofBytes old)).getD (ofBytes old))).getD (k - memKey 0 a) 0) else s.mem.read k)
        else Gives (.remoteAtomic f) s (fun t => Took t f ∧ t.mem = s.mem ∧ Replies t f 7 []))
    ∧ (∀ s f, f.op = 3 → InOrder s f → atomicOf f = none →
        Gives (.remoteAtomic f) s (fun t => Took t f ∧ t.mem = s.mem ∧ Replies t f 7 []))
    ∧ (∀ s f r, 4 ≤ f.op.toNat → f.op.toNat ≤ 7 → InOrder s f → (from' s f).reqs.find? (fun q => q.tag == f.tag) = some r →
        (f.op ≠ 7 → r.op + 3 = f.op) → ∃ s1, s1 = { s with via := s1.via } ∧ Took s1 f ∧ (from' s1 f).reqs = (from' s f).reqs.erase r
          ∧ exec (received f) s = .next (if f.op = 7 then s1.refuse r else s1.finishReq r f.src.toNat f))

/-- A frame that is neither numbered nor acknowledged has been sent to package `p`, on the port of its route. -/
def SentBare (s t : State) (p : Nat) (op : BitVec 8) (gen : BitVec 16) : Prop :=
  ∃ f : Frame, t.via.out = s.via.out ++ [(s.via.portOf p, f)] ∧ f.op = op ∧ f.seq = 0 ∧ f.dst = BitVec.ofNat 16 p ∧ f.gen = gen

/-- R417, R420, R422 to R424: an expiry of RTO sends the unacknowledged frames again, with the EtherType and source of VTYPE and
VPID, or OP 8 in RESET, and enters RECOVERY after RETRY retransmissions; an expiry of RECTO in RECOVERY or RESET enters LOST and
raises vector 65; the acknowledgement timer sends an OP 0; OP 8 renews the stream in its generation, OP 9 ends RESET; a write of 0
to PEERp in LOST starts a reset, other writes are ignored and counted; a port's link changes its bit. The model's own choices in it
are those of log entry 44. -/
def Obligations.Streams : Prop :=
  (∀ s p, s.via.linked p = true → (s.stream p).st = .reset →
      Gives (.rtoExpiry p) s (fun t => SentBare s t p 8 (s.stream p).gen ∧ t.via.streams = s.via.streams))
    ∧ (∀ s p, s.via.linked p = true → ((s.stream p).st = .up ∨ (s.stream p).st = .recovery) → (s.stream p).unacked ≠ [] →
        Gives (.rtoExpiry p) s (fun t =>
          t.via.out = s.via.out ++ (s.stream p).unacked.map (fun f => (s.via.portOf p,
              { f with etype := s.via.vtype.setWidth 16, src := s.via.vpid.setWidth 16, ack := (s.stream p).acked }))
            ∧ t.stream p = { s.stream p with
                retries := (s.stream p).retries + 1
                st := (if (s.stream p).st = .up ∧ s.via.retry.toNat ≤ (s.stream p).retries then .recovery else (s.stream p).st) }
            ∧ (t.mgmt.msix.getLsbD 65 = (s.mgmt.msix.getLsbD 65
                || ((s.stream p).st == .up && decide (s.via.retry.toNat ≤ (s.stream p).retries))))))
    ∧ (∀ s p, (s.via.linked p = false ∨ (s.stream p).st = .lost ∨ (s.stream p).unacked = []) → (s.stream p).st ≠ .reset →
        exec (.rtoExpiry p) s = .next s)
    ∧ (∀ s p, Gives (.rectoExpiry p) s (fun t => if (s.stream p).st = .recovery ∨ (s.stream p).st = .reset
        then (t.stream p).st = .lost ∧ t.mgmt.msix.getLsbD 65 = true else t = s))
    ∧ (∀ s p, Gives (.ackTimer p) s (fun t => if (s.stream p).acked ≠ 0 ∧ (s.stream p).st ≠ .lost ∧ s.via.linked p = true
        then SentBare s t p 0 (s.stream p).gen else t = s))
    ∧ (∀ s f, f.op = 8 → s.frameBad f = false → Gives (.streamReset f) s (fun t => (from' t f).st = .up ∧ (from' t f).gen = f.gen
        ∧ (from' t f).expect = 1 ∧ (from' t f).acked = 0
        ∧ (((from' s f).st = .up ∨ (from' s f).st = .recovery) → t.mgmt.msix.getLsbD 65 = true)))
    ∧ (∀ s f, f.op = 9 → s.frameBad f = false → Gives (.resetAcknowledge f) s (fun t => if (from' s f).st = .reset
        then (from' t f).st = .up ∧ (from' t f).gen = (from' s f).gen else t = s))
    ∧ (∀ s p v, s.mgmt.recovery = false → Gives (.peerpWrite p v) s (fun t =>
        if v.extractLsb' 0 2 = 0#2 ∧ (s.stream p).st = .lost then
          t.stream p = (s.stream p).renew ((s.stream p).gen + 1) .reset
            ∧ (s.via.linked p = true → SentBare s t p 8 ((s.stream p).gen + 1))
        else Counted s t 0x0223 1))
    ∧ (∀ s p v, s.mgmt.recovery = true → exec (.peerpWrite p v) s = .next s)
    ∧ ∀ s i up, i < 8 → Gives (.portLinkChange i up) s (fun t => ∀ j, j < 8 → t.via.links.getLsbD j = if j = i then up else s.via.links.getLsbD j)

/-! ## Host queues and the management window -/

/-- R402, R403: the command processor works for queue `q`, in domain `dom`. -/
def Works (s : State) (q : Nat) (dom : Domain) : Prop := s.queueRuns q = true ∧ s.queueDomain q = some dom

/-- Only queue `q` and pending interrupts have changed. -/
def OnlyQueue (s t : State) (q : Nat) : Prop :=
  t = { s with queues := t.queues, mgmt := { s.mgmt with msix := t.mgmt.msix } } ∧ ∀ r, r ≠ q → t.queue r = s.queue r

/-- The same, but that uncorrectable words of the stacks, which the command has read, are counted (R415). -/
def OnlyQueueRead (s t : State) (q : Nat) : Prop :=
  (∃ c r, t = { s with queues := t.queues, mgmt := { s.mgmt with msix := t.mgmt.msix, counters := c, recent := r } }
      ∧ ∀ i, i < 0x0210 ∨ 0x021C ≤ i → lookupN i c = lookupN i s.mgmt.counters)
    ∧ ∀ r, r ≠ q → t.queue r = s.queue r

/-- R405: QPROG moves to an index unless it lies behind. -/
def progAt (p i : Word) : Word := if (i - p).toNat < 2 ^ 31 then i else p

/-- R405, R407: a command of `n` words has retired, with `skip` words passed over: the reading goes on after it in the ring, or in the
buffer of a JUMP, which retires with its last command; IRQ raises the queue's vector. -/
def Retired (s t : State) (q : Nat) (irq : Bool) (n skip : Nat) : Prop :=
  let x := s.queue q
  let y := t.queue q
  (irq = true → t.mgmt.msix.getLsbD (q % 64) = true) ∧ y.halt = x.halt ∧ y.tail = x.tail ∧ match x.jump with
    | none => y.jump = none ∧ y.rd = x.rd + BitVec.ofNat 32 (n + skip) ∧ y.prog = progAt x.prog (x.rd + BitVec.ofNat 32 n)
    | some j =>
      if j.pos + ((n + skip : Nat) : Int) < j.len then y.jump = some { j with pos := j.pos + ((n + skip : Nat) : Int) } ∧ y.rd = x.rd ∧ y.prog = x.prog
      else y.jump = none ∧ y.rd = x.rd + 2 ∧ y.prog = progAt x.prog (x.rd + 2) ∧ (j.irq = true → t.mgmt.msix.getLsbD (q % 64) = true)

/-- R408: the queue has halted with a code, and vector 65 is raised. -/
def Halted (s t : State) (q : Nat) (err : Byte) : Prop :=
  OnlyQueue s t q ∧ t.queue q = { s.queue q with halt := true, err := err, pending := none, got := none } ∧ t.mgmt.msix.getLsbD 65 = true

/-- R407, R421: bytes that a command of queue `q` reads: every one translates, and those of other packages have come. -/
def Reads (s : State) (q : Nat) (dom : Domain) (va : DWord) (bs : List Byte) : Prop :=
  ∃ l, s.sysPlaces dom va .read bs.length = .ok l ∧ (s.queue q).lacks l = [] ∧ l.map (s.cmdByte q) = bs

/-- R407, R421: bytes that a command of queue `q` reads lie in other packages, at streams that are not lost, and have still to be
asked for. -/
def Lacks (s : State) (q : Nat) (dom : Domain) (va : DWord) (n : Nat) : Prop :=
  ∃ l, s.sysPlaces dom va .read n = .ok l ∧ (s.queue q).lacks l ≠ []
    ∧ ∀ p ∈ (s.queue q).lacks l, (s.stream (remoteOf p).1).st ≠ .lost

/-- The command has asked other packages for bytes, which its queue awaits, and has done nothing else. -/
def Asks (s t : State) (q : Nat) : Prop :=
  t = { s with via := t.via, queues := t.queues } ∧ t.queueBusy q = true
    ∧ t.queue q = { s.queue q with got := some ((s.queue q).got.getD []) } ∧ ∀ r, r ≠ q → t.queue r = s.queue r

/-- No `n` bytes of an address can be read: some byte does not translate. -/
def Unreadable (s : State) (dom : Domain) (va : DWord) (n : Nat) : Prop := ∀ l, s.sysPlaces dom va .read n ≠ .ok l

/-- The queue's command stays to be executed again, and the bytes of other packages that it has read are forgotten. -/
def Stays (s t : State) (q : Nat) : Prop :=
  OnlyQueue s t q ∧ t.mgmt = s.mgmt ∧ ∃ g, t.queue q = { s.queue q with got := g } ∧ ((s.queue q).got = none → g = none)

/-- R353 to R355, R407: the launch whose record (or grid, of LAUNCHI) was read has been accepted, or refused with its cause. -/
def Submitted (s t : State) (dom : Domain) (q : Nat) (r : LRecord) (bs : List Byte) : Prop :=
  ∃ l, t.launches = s.launches ++ [l] ∧ l.record = r ∧ l.domain = dom ∧ l.queue = q ∧ l.depth = 0 ∧ l.parent = none
    ∧ l.refused = refusal bs r none ∧ l.completed = (refusal bs r none).isSome ∧ s.launches.length ∈ (t.queue q).launches

/-- R407: the places of bytes that a command writes, distinct, in memory of this package, on devices that answer. -/
def Targets (s : State) (dom : Domain) (va : DWord) (need : Need) (n : Nat) (l : List Phys) : Prop :=
  s.sysPlaces dom va need n = .ok l ∧ (l.map (fun p => memKey p.kind p.pa)).Nodup
    ∧ ∀ p ∈ l, p.kind.toNat ≤ 2 ∧ s.keyUp (memKey p.kind p.pa) = true ∧ s.seenBad none (memKey p.kind p.pa) 1 = false

/-- Memory after bytes are written one to a place. -/
def wroteAll (s t : State) (l : List Phys) (bs : List Byte) : Prop :=
  (∀ i p, l[i]? = some p → t.mem.read (memKey p.kind p.pa) = bs.getD i 0)
    ∧ ∀ k, (∀ p ∈ l, k ≠ memKey p.kind p.pa) → t.mem.read k = s.mem.read k

/-- R402, R403, R407, R408: a command of a queue that does not work does nothing, and one whose domain is not valid halts its queue. -/
def NeedsQueue (i : Nat → Instr) : Prop := ∀ s q,
  (s.queueRuns q = false → exec (i q) s = .next s) ∧ (s.queueRuns q = true → s.queueDomain q = none → Gives (i q) s (Halted s · q 8))

/-- R407: the number of words that a command may have. -/
def CommandLength (op len : Nat) : Prop := match op with
  | 0 => 1 ≤ len ∧ len ≤ 8
  | 5 | 6 => len = 1
  | 1 | 8 | 10 | 11 | 12 => len = 2
  | 2 | 3 | 4 | 7 => len = 3
  | 9 => len = 4
  | _ => False

/-- R407: ARGS bits that a command does not use are not zero, or a field has a value that it may not have. -/
def BadArgs (op args : Nat) : Prop := match op with
  | 3 => 2 ^ 4 ≤ args ∨ 4 ≤ args % 8
  | 6 => args / 2 ^ 32 % 2 ^ 8 ≠ 0 ∨ args / 2 ^ 40 = 0
  | 7 => 2 ^ 16 ≤ args ∨ args / 2 ^ 4 % 2 ^ 4 ≠ 0 ∨ 4 ≤ args % 8
  | 8 => 2 ^ 20 ≤ args ∨ args = 0
  | 10 => 2 ^ 8 ≤ args
  | 11 => 2 ^ 4 ≤ args
  | 4 | 12 => 4 ≤ args
  | _ => args ≠ 0

/-- R407: the command of a well-formed header `h` with operand words `w 1`, `w 2` and `w 3`. -/
def commandOf (q h : Nat) (w : Nat → Nat) : Instr :=
  let irq := h.testBit 51
  let word (k : Nat) : DWord := BitVec.ofNat 64 (w k)
  let rel : VRel := match h % 8 with | 0 => .eq | 1 => .ne | 2 => .ge | _ => .lt
  let test : VTest := { rel := rel, w64 := h.testBit 3, addr := word 1, value := word 2 }
  match h / 2 ^ 56 with
  | 1 => .launch q irq (word 1)
  | 2 => .launchi q irq (word 1) (word 2)
  | 3 => .waitv q irq test
  | 4 => .signal q irq (h.testBit 0) (h.testBit 1) (word 1) (word 2)
  | 5 => .cmdFence q irq
  | 6 => .cmdLoop q irq (BitVec.ofNat 8 (h / 2 ^ 40)) (BitVec.ofNat 32 h)
  | 7 => .ifv q irq test (BitVec.ofNat 8 (h / 2 ^ 8))
  | 8 => .jump q irq (BitVec.ofNat 20 h) (word 1)
  | 9 => .copyh q irq (word 1) (word 2) (word 3)
  | 10 => .setpow q irq (BitVec.ofNat 8 h) (word 1)
  | 11 => .regroup q irq (BitVec.ofNat 4 h) (word 1)
  | 12 => .cmdResume q irq (BitVec.ofNat 2 h) (word 1)
  | _ => .cmdNop q irq (h / 2 ^ 52 % 2 ^ 4)

/-- R404, R407: queue `q`, which works for domain `dom` and whose check after EN is done, has a command to read. -/
def Due (s : State) (q : Nat) (dom : Domain) : Prop :=
  Works s q dom ∧ (s.queue q).unchecked = false
    ∧ ((s.queue q).jump = none → let n := ((s.queue q).tail - (s.queue q).rd).toNat; 1 ≤ n ∧ n < 2 ^ 31)

/-- The command processor halts the queue with a code before any command begins. -/
def StopsAt (s : State) (q : Nat) (err : Byte) : Prop := ∃ t, s.queueEffect q = some t ∧ Halted s t q err

/-- R404, R407, R408: the command processor at the next command of a queue: an unknown OP halts with ERR 1, a LEN that is not the
command's with ERR 2, a must-be-zero bit that is not zero, a reserved relation, a BACK or a JUMP length of 0 and a JUMP buffer
that is not 8-byte aligned with ERR 3, a word that cannot be read with ERR 4; every other is the command that the table says. -/
def CommandsAreRead : Prop :=
  (∀ s q dom, Due s q dom → Unreadable s dom ((s.queue q).wordAddr 0) 8 → StopsAt s q 4)
    ∧ ∀ s q dom h, Due s q dom → h < 2 ^ 64 → Reads s q dom ((s.queue q).wordAddr 0) (toBytes 8 h) →
      let op := h / 2 ^ 56
      let len := h / 2 ^ 52 % 2 ^ 4
      let bad : Prop := h / 2 ^ 48 % 2 ^ 3 ≠ 0 ∨ BadArgs op (h % 2 ^ 48)
      (12 < op → StopsAt s q 1)
        ∧ (op ≤ 12 → ¬CommandLength op len → StopsAt s q 2)
        ∧ (op ≤ 12 → CommandLength op len → bad → StopsAt s q 3)
        ∧ ∀ w, op ≤ 12 → CommandLength op len → ¬bad → (s.queue q).holds len = true →
          (op ≠ 0 → ∀ k, 1 ≤ k → k < len → w k < 2 ^ 64 ∧ Reads s q dom ((s.queue q).wordAddr k) (toBytes 8 (w k))) →
          (op = 8 → w 1 % 8 ≠ 0 → StopsAt s q 3) ∧ (¬(op = 8 ∧ w 1 % 8 ≠ 0) → s.turn q = .run (commandOf q h w))

/-- R405, R407 to R409, R421: the commands of a queue as its words give them, and those that halt it with ERR 1, 2, 3 or 4 before
they begin; then NOP, LAUNCH, LAUNCHI, WAITV, FENCE, LOOP, IFV and JUMP of a queue that works: NOP retires; LAUNCH and LAUNCHI
submit the record that they read and retire, or halt with ERR 4 where the record, or LAUNCHI's grid block, does not translate;
WAITV retires when its test holds and waits otherwise; IFV skips words when its test fails; bytes that lie in other packages are
asked for first; FENCE waits for the launches; LOOP counts down and goes back, or halts with ERR 6; JUMP enters its buffer, or
halts with ERR 5 inside one. (A BACK or a JUMP length of 0 and a misaligned buffer have been refused before, with ERR 3.) The
model's own choices in it are those of log entry 42. -/
def Obligations.QueueCommands : Prop :=
  CommandsAreRead
    ∧ (∀ s q dom irq n, Works s q dom → Gives (.cmdNop q irq n) s (fun t => OnlyQueue s t q ∧ Retired s t q irq n 0))
    ∧ (∀ s q dom irq a bs, Works s q dom → bs.length = 128 → Reads s q dom a bs →
        Gives (.launch q irq a) s (fun t => Retired s t q irq 2 0 ∧ Submitted s t dom q (recordOf bs) bs))
    ∧ (∀ s q dom irq a, Works s q dom → (Unreadable s dom a 128 → Gives (.launch q irq a) s (Halted s · q 4))
        ∧ (Lacks s q dom a 128 → Gives (.launch q irq a) s (Asks s · q)))
    ∧ (∀ s q dom irq a b, Works s q dom →
        (Unreadable s dom b 16 → Gives (.launchi q irq a b) s (Halted s · q 4))
        ∧ (Lacks s q dom b 16 → Gives (.launchi q irq a b) s (Asks s · q))
        ∧ ∀ gs, gs.length = 16 → Reads s q dom b gs → (Unreadable s dom a 128 → Gives (.launchi q irq a b) s (Halted s · q 4))
          ∧ (Lacks s q dom a 128 → Gives (.launchi q irq a b) s (Asks s · q)))
    ∧ (∀ s q dom irq a b bs gs, Works s q dom → bs.length = 128 → Reads s q dom a bs → gs.length = 16 → Reads s q dom b gs →
        numAt gs 12 4 = 0 →
        Gives (.launchi q irq a b) s (fun t => Retired s t q irq 3 0 ∧ Submitted s t dom q
          { recordOf bs with gridX := numAt gs 0 4, gridY := numAt gs 4 4, gridZ := numAt gs 8 4 } bs))
    ∧ (∀ s q dom irq (x : VTest) bs, Works s q dom → bs.length = (if x.w64 then 8 else 4) → Reads s q dom x.addr bs →
        let m := ofBytes bs
        let v := if x.w64 then x.value.toNat else x.value.toNat % 2 ^ 32
        let holds := match x.rel with | .eq => m = v | .ne => m ≠ v | .ge => v ≤ m | .lt => m < v
        (holds → Gives (.waitv q irq x) s (fun t => OnlyQueueRead s t q ∧ Retired s t q irq 3 0))
          ∧ (¬holds → Gives (.waitv q irq x) s (Stays s · q))
          ∧ ∀ skip, (holds → Gives (.ifv q irq x skip) s (fun t => OnlyQueueRead s t q ∧ Retired s t q irq 3 0))
            ∧ (¬holds → Gives (.ifv q irq x skip) s (fun t => OnlyQueueRead s t q ∧ Retired s t q irq 3 skip.toNat)))
    ∧ (∀ s q dom irq (x : VTest) skip, Works s q dom →
        (Lacks s q dom x.addr (if x.w64 then 8 else 4) →
          Gives (.waitv q irq x) s (Asks s · q) ∧ Gives (.ifv q irq x skip) s (Asks s · q))
        ∧ (Unreadable s dom x.addr (if x.w64 then 8 else 4) →
          Gives (.waitv q irq x) s (Halted s · q 4) ∧ Gives (.ifv q irq x skip) s (Halted s · q 4)))
    ∧ (∀ s q dom irq, Works s q dom →
        if (∀ l ∈ (s.queue q).launches, ∀ x, s.launches[l]? = some x → x.completed = true)
        then Gives (.cmdFence q irq) s (fun t => OnlyQueue s t q ∧ Retired s t q irq 1 0)
        else exec (.cmdFence q irq) s = .next s)
    ∧ (∀ s q dom irq back count, Works s q dom →
        let x := s.queue q
        let here : Bool × Int := match x.jump with | some j => (true, j.pos) | none => (false, (x.rd.toNat : Int))
        let n := match x.loop with | some l => l.2.2 | none => count
        if (∃ l, x.loop = some l ∧ (l.1, l.2.1) ≠ here) then Gives (.cmdLoop q irq back count) s (Halted s · q 6)
        else if n = 0 then Gives (.cmdLoop q irq back count) s (fun t => Retired s t q irq 1 0 ∧ (t.queue q).loop = none)
        else Gives (.cmdLoop q irq back count) s (fun t => OnlyQueue s t q ∧ (t.queue q).loop = some (here.1, here.2, n - 1)
          ∧ (irq = true → t.mgmt.msix.getLsbD (q % 64) = true) ∧ match x.jump with
            | some j => (t.queue q).jump = some { j with pos := j.pos - back.toNat } ∧ (t.queue q).rd = x.rd
            | none => (t.queue q).jump = none ∧ (t.queue q).rd = x.rd - BitVec.ofNat 32 back.toNat
              ∧ (t.queue q).prog = progAt x.prog (x.rd + 1)))
    ∧ (∀ s q dom irq len addr, Works s q dom → match (s.queue q).jump with
        | some _ => Gives (.jump q irq len addr) s (Halted s · q 5)
        | none => Gives (.jump q irq len addr) s (fun t => OnlyQueue s t q
          ∧ t.queue q = { s.queue q with jump := some { addr := addr, len := len.toNat, pos := 0, irq := irq } }))

/-- R411: whether power register `sel` takes a value. -/
def GoodPower (sel n : Nat) : Prop := match sel with
  | 0 => 400 ≤ n ∧ n ≤ 2000 ∧ n % 100 = 0
  | 1 => 600 ≤ n ∧ n ≤ 2400
  | 2 => 10 ≤ n ∧ n ≤ 10000000
  | 12 => 60 ≤ n ∧ n ≤ 110
  | 13 => n ≤ 1
  | _ => sel ≤ 11

/-- R411: the value that power register `sel` holds. -/
def powerReg (p : Power) (sel : Nat) : Word := match sel with
  | 0 => p.aclk | 1 => p.plimit | 2 => p.ewin | 3 => p.ebudget | 12 => p.tthresh | 13 => p.pause | _ => (p.ecost[sel - 4]?).getD 0

/-- R411, R412: power register `sel` has been written with `n` and no other; a new PLIMIT makes OVER what the package power and it
give, and where OVER becomes 1 vector 65 is raised. -/
def PowerSet (s t : State) (sel n : Nat) : Prop :=
  powerReg t.power sel = BitVec.ofNat 32 n ∧ t.power.budget = s.power.budget
    ∧ ((sel = 1 → ∀ d, d < 4 → s.dieDet d = false) → t.waves = s.waves)
    ∧ t.power.above = (if sel = 1 then decide (n < s.power.watts.toNat) else s.power.above)
    ∧ (s.power.above = false → t.power.above = true → t.mgmt.msix.getLsbD 65 = true)
    ∧ t.power.winLen = s.power.winLen ∧ ∀ k, k < 14 → k ≠ sel → powerReg t.power k = powerReg s.power k


/-- A frame of a request that queue `q` awaits has been given to the stream to package `p` (R416, R421). -/
def CommandFrame (t : State) (q p : Nat) (f : Frame) : Prop :=
  f ∈ (t.stream p).held ++ (t.stream p).unacked ∧ f.dst = BitVec.ofNat 16 p ∧ f.bad = false
    ∧ ∃ r ∈ (t.stream p).reqs, r.tag = f.tag ∧ r.op = f.op ∧ r.who = .agent (some q)

/-- The command awaits the answers of other packages, and retires with the last of them. -/
def AwaitsAnswers (s t : State) (q n : Nat) (irq : Bool) : Prop :=
  t.queue q = { s.queue q with pending := some (n, irq) } ∧ t.queueBusy q = true ∧ ∀ r, r ≠ q → t.queue r = s.queue r

/-- No request can reach a place: a majority page, or a package whose stream is lost (log entry 13). -/
def OutOfReach (s : State) (p : Phys) : Prop := p.kind = 4 ∨ (p.kind = 3 ∧ (s.stream (remoteOf p).1).st = .lost)

/-- R407, R416, R421: SIGNAL to an aligned place of another package sends one write or atomic add, and COPYH to places of other
packages writes whose bytes are those of the source, each at its address as the peer reads the frames; both retire with the last
answer. A place that no request can reach halts the queue with ERR 4. -/
def RemoteCommands : Prop :=
  (∀ s q dom irq add w64 addr value l (p : Phys), Works s q dom →
      let n := if w64 then 8 else 4
      s.sysPlaces dom addr (if add then .atomic else .write) n = .ok l → l[0]? = some p → p.kind = 3 → p.pa % n = 0 →
      (∀ x ∈ l, ¬OutOfReach s x) → Gives (.signal q irq add w64 addr value) s (fun t => t.mem = s.mem ∧ AwaitsAnswers s t q 3 irq
        ∧ ∃ f, CommandFrame t q (p.pa / 2 ^ 42) f ∧ f.op = (if add then 3 else 2) ∧ f.addr = BitVec.ofNat 64 (p.pa % 2 ^ 42)
          ∧ f.attr = (if add then (if w64 then 0x07 else 0x01) else 0) ∧ f.len = BitVec.ofNat 8 (n / 4)
          ∧ f.payload = toBytes n (value.toNat % 2 ^ (8 * n))))
    ∧ (∀ s q dom irq add w64 addr value l, Works s q dom →
      s.sysPlaces dom addr (if add then .atomic else .write) (if w64 then 8 else 4) = .ok l → (∃ x ∈ l, OutOfReach s x) →
      Gives (.signal q irq add w64 addr value) s (Halted s · q 4))
    ∧ (∀ s q dom irq dst src count l m, Works s q dom → s.sysPlaces dom dst .write count.toNat = .ok l →
      s.sysPlaces dom src .read count.toNat = .ok m → (s.queue q).lacks m = [] → (∀ x ∈ l, ¬OutOfReach s x) → (∀ p ∈ m, p ∉ l) →
      (∃ p ∈ l, p.kind = 3) → Gives (.copyh q irq dst src count) s (fun t => AwaitsAnswers s t q 4 irq
        ∧ ((∀ p ∈ l, p.kind = 3) → t.mem = s.mem)
        ∧ ∀ (i : Nat) (p x : Phys), l[i]? = some p → m[i]? = some x → p.kind = 3 →
          ∃ f, CommandFrame t q (p.pa / 2 ^ 42) f ∧ f.op = 2 ∧ (p.pa % 2 ^ 42, s.cmdByte q x) ∈ writeBytes f))
    ∧ ∀ s q dom irq dst src count l m, Works s q dom → s.sysPlaces dom dst .write count.toNat = .ok l →
      s.sysPlaces dom src .read count.toNat = .ok m → (∃ x ∈ l, OutOfReach s x) →
      Gives (.copyh q irq dst src count) s (Halted s · q 4)

/-- R300, R346, R407, R408, R411, R416, R421: SIGNAL writes or adds, and COPYH copies, memory whose bytes all translate, and each
halts with ERR 4 when one does not; what lies in other packages is carried by requests, with whose answers the command retires;
SETPOW takes a value in its register's range, REGROUP an interval of 20 to 20,000, RESUME an answer, and each
halts with ERR 7 otherwise; a command of a queue that does not work does nothing, and one whose domain is not valid halts its
queue. The model's own choices in it are those of log entry 13. -/
def Obligations.MemoryCommands : Prop :=
  (∀ s q dom irq add w64 addr value l, Works s q dom → s.queueBusy q = false →
      let n := if w64 then 8 else 4
      Targets s dom addr (if add then .atomic else .write) n l →
      let old := if add then ofBytes (l.map (fun p => s.mem.read (memKey p.kind p.pa))) else 0
      Gives (.signal q irq add w64 addr value) s (fun t => Retired s t q irq 3 0
        ∧ wroteAll s t l (toBytes n ((old + value.toNat) % 2 ^ (8 * n)))))
    ∧ (∀ s q dom irq add w64 addr value, Works s q dom →
        (∀ l, s.sysPlaces dom addr (if add then .atomic else .write) (if w64 then 8 else 4) ≠ .ok l) →
        Gives (.signal q irq add w64 addr value) s (Halted s · q 4))
    ∧ (∀ s q dom irq dst src count l m, Works s q dom → s.queueBusy q = false → Targets s dom dst .write count.toNat l →
        s.sysPlaces dom src .read count.toNat = .ok m → (∀ p ∈ m, p ∉ l ∧ p.kind.toNat ≤ 2 ∧ s.keyUp (memKey p.kind p.pa) = true
          ∧ s.seenBad none (memKey p.kind p.pa) 1 = false) →
        Gives (.copyh q irq dst src count) s (fun t => Retired s t q irq 4 0
          ∧ wroteAll s t l (m.map (fun p => s.mem.read (memKey p.kind p.pa)))))
    ∧ (∀ s q dom irq dst src count, Works s q dom → ((∀ l, s.sysPlaces dom dst .write count.toNat ≠ .ok l)
        ∨ Unreadable s dom src count.toNat) → Gives (.copyh q irq dst src count) s (Halted s · q 4))
    ∧ (∀ s q dom irq dst src count l, Works s q dom → Targets s dom dst .write count.toNat l → Lacks s q dom src count.toNat →
        Gives (.copyh q irq dst src count) s (Asks s · q))
    ∧ RemoteCommands
    ∧ (∀ s q dom irq sel v, Works s q dom →
        (v.toNat < 2 ^ 32 ∧ GoodPower sel.toNat v.toNat → Gives (.setpow q irq sel v) s (fun t => Retired s t q irq 2 0
          ∧ PowerSet s t sel.toNat v.toNat))
        ∧ (¬(v.toNat < 2 ^ 32 ∧ GoodPower sel.toNat v.toNat) → Gives (.setpow q irq sel v) s (Halted s · q 7)))
    ∧ (∀ s q dom irq dies us, Works s q dom →
        if 20 ≤ us.toNat ∧ us.toNat ≤ 20000 then Gives (.regroup q irq dies us) s (fun t => Retired s t q irq 2 0
          ∧ ∀ d x, s.dies[d]? = some x → t.dies[d]? = some (if dies.getLsbD d then { x with newInterval := some us.toNat } else x))
        else Gives (.regroup q irq dies us) s (Halted s · q 7))
    ∧ (∀ s q dom irq die v, Works s q dom →
        if v.extractLsb' 34 30 = 0#30 ∧ (v.extractLsb' 32 2).toNat < 2 then
          Gives (.cmdResume q irq die v) s (fun t => t = (s.answerFault die.toNat v).retireCmd q irq 2 0)
        else Gives (.cmdResume q irq die v) s (Halted s · q 7))
    ∧ (∀ irq n, NeedsQueue (.cmdNop · irq n)) ∧ (∀ irq a, NeedsQueue (.launch · irq a)) ∧ (∀ irq a b, NeedsQueue (.launchi · irq a b))
    ∧ (∀ irq x, NeedsQueue (.waitv · irq x)) ∧ (∀ irq add w a v, NeedsQueue (.signal · irq add w a v))
    ∧ (∀ irq, NeedsQueue (.cmdFence · irq)) ∧ (∀ irq b c, NeedsQueue (.cmdLoop · irq b c)) ∧ (∀ irq x k, NeedsQueue (.ifv · irq x k))
    ∧ (∀ irq n a, NeedsQueue (.jump · irq n a)) ∧ (∀ irq a b n, NeedsQueue (.copyh · irq a b n))
    ∧ (∀ irq k v, NeedsQueue (.setpow · irq k v)) ∧ (∀ irq d v, NeedsQueue (.regroup · irq d v))
    ∧ ∀ irq d v, NeedsQueue (.cmdResume · irq d v)

/-- R401: a write to the window of a device in recovery (R413) does nothing. -/
def Shut (i : Instr) : Prop := ∀ s, s.mgmt.recovery = true → exec i s = .next s

/-- An ignored write is counted, and changes nothing else (R345, R403, R415). -/
def Ignored (s t : State) : Prop := Counted s t 0x0223 1

/-- Queue `q` becomes `y`, and nothing else changes. -/
def QueueBecomes (s t : State) (q : Nat) (y : HQueue) : Prop :=
  t = { s with queues := t.queues } ∧ t.queue q = y ∧ ∀ r, r ≠ q → t.queue r = s.queue r

/-- R403: the indexes of a queue at 0. -/
def rewound (x : HQueue) : HQueue :=
  { x with tail := 0, prog := 0, rd := 0, loop := none, jump := none, unchecked := false, pending := none, got := none }

/-- R403, R404, R406, R408: QBASE is taken while EN is 0; QCFG sets EN with a size of 6 to 20, or clears it and rewinds; QTAIL
and QRESTART take a value within the ring; other writes are ignored and counted; a queue is switched in, while fewer than 16
are, or out; a device in recovery takes no write. The model's own choices in it are those of log entry 42. -/
def Obligations.QueueRegisters : Prop :=
  (∀ s q v, s.mgmt.recovery = false → Gives (.qbaseWrite q v) s (fun t =>
      if (s.queue q).cfg.getLsbD 31 = true then Ignored s t
      else QueueBecomes s t q (rewound { s.queue q with base := v &&& ~~~0xFFF#64 })))
    ∧ (∀ s q (v : Word), s.mgmt.recovery = false → Gives (.qcfgWrite q v) s (fun t =>
        let x := s.queue q
        let size := (v.extractLsb' 16 5).toNat
        if x.cfg.getLsbD 31 = true then
          if v.getLsbD 31 = true then Ignored s t else QueueBecomes s t q (rewound { x with cfg := x.cfg &&& 0x001FFFFF })
        else if v.getLsbD 31 = true ∧ 6 ≤ size ∧ size ≤ 20 then
          QueueBecomes s t q { x with cfg := (v &&& 0x001FFFFF) ||| 0x80000000, unchecked := true }
        else
          ∃ s1, QueueBecomes s s1 q (rewound { x with cfg := v &&& 0x001FFFFF })
            ∧ if v.getLsbD 31 = true then Ignored s1 t else t = s1))
    ∧ (∀ s q v, s.mgmt.recovery = false → Gives (.qtailWrite q v) s (fun t =>
        let x := s.queue q
        if (v - x.prog).toNat ≤ 2 ^ (x.cfg.extractLsb' 16 5).toNat ∧ (v - x.tail).toNat < 2 ^ 31
        then QueueBecomes s t q { x with tail := v } else Ignored s t))
    ∧ (∀ s q v, s.mgmt.recovery = false → Gives (.qrestart q v) s (fun t =>
        let x := s.queue q
        if x.halt = true ∧ (x.tail - v).toNat ≤ 2 ^ (x.cfg.extractLsb' 16 5).toNat
        then QueueBecomes s t q { x with halt := false, err := 0, rd := v, prog := v, jump := none } else Ignored s t))
    ∧ (∀ s q, Gives (.queueSwitch q false) s (QueueBecomes s · q { s.queue q with res := false }))
    ∧ (∀ s q, (s.queues.filter (fun x => x.2.res && x.1 != q)).length < 16 →
        Gives (.queueSwitch q true) s (QueueBecomes s · q { s.queue q with res := true }))
    ∧ (∀ q v, Shut (.qbaseWrite q v)) ∧ (∀ q v, Shut (.qcfgWrite q v)) ∧ (∀ q v, Shut (.qtailWrite q v)) ∧ ∀ q v, Shut (.qrestart q v)

/-- Die `d` becomes `y` before the fault queue's waiting records are written (R345), and nothing else changes. -/
def DieThenRecords (s t : State) (d : Nat) (f : Die → Die) : Prop := t = (s.withDie d f).pumpRecords d

/-- R346: whether a RESUME value names an outstanding fault with its generation, and a known answer. -/
def GoodAnswer (s : State) (die : Nat) (v : DWord) (f : FaultE) : Prop :=
  lookupN (v.extractLsb' 0 10).toNat ((s.dies[die]?).getD Die.reset).faults = some f ∧ v.extractLsb' 34 30 = 0#30
    ∧ (v.extractLsb' 32 2).toNat < 2 ∧ v.extractLsb' 10 6 = 0#6 ∧ f.outstanding = true ∧ f.gen = v.extractLsb' 16 16

/-- R346, R348: fault `i` of a die is answered: with nobody attached to it only its entry changes; and a retry lets the one wave that
is attached, and only to it, go on. -/
def Answered (s t : State) (d i : Nat) (f : FaultE) (retry : Bool) : Prop :=
  let s1 := s.withDie d (fun x => { x with faults := insertN i { f with outstanding := false } x.faults })
  (∀ c ∈ s.copies, c.wait ≠ some (d, i)) → (∀ k ∈ s.cores, ∀ e ∈ k.2.mq, e.wait ≠ some (d, i)) →
  (∀ g ∈ s.groups, ∀ e ∈ g.engine, e.wait ≠ some (d, i)) →
    ((∀ w ∈ s.waves, w.parked = none) → t = s1)
      ∧ ∀ w wv p, s.waves[w]? = some wv → wv.parked = some p → (∀ u x, u ≠ w → s.waves[u]? = some x → x.parked = none) →
        (∀ x ∈ p.waits, x.1 = d ∧ x.2.1 = i) → p.waits ≠ [] → p.failed = [] → p.tableFull = false → wv.stopped = none → retry = true →
        ∃ wv2, t = s1.withWave w (fun _ => wv2) ∧ wv2.parked = none ∧ wv2.reinj = wv.reinj ∧ wv2.rq = wv.rq ∧ wv2.table = wv.table
          ∧ wv2.live = wv.live ∧ ∀ r (L : Lane), (wv2.reg r).val[L] = (wv.reg r).val[L]

/-- R411: a write of a power register takes a value in its range, and no other. -/
def PowerWrite (s t : State) (sel n : Nat) : Prop := (GoodPower sel n → PowerSet s t sel n) ∧ (¬GoodPower sel n → Ignored s t)

/-- R345, R346, R372, R381, R382, R401, R402, R411, R415, R420, R434: writes of FQHEAD, FQBASE, FQSIZE, RESUME, TLBINV,
REPSET, REBASE.GO, the power block, QWDOG, DOMBASE, DOMCOUNT, LCIDX and SCRUB take a legal value and are otherwise ignored and
counted; a write by offset is the write of the register that stands there; a device in recovery takes none. The model's own
choices in it are those of log entries 43 and 48. -/
def Obligations.WindowWrites : Prop :=
  (∀ s d v, s.mgmt.recovery = false → Gives (.fqheadWrite d v) s (fun t =>
      let x := (s.dies[d]?).getD Die.reset
      if (v - x.fqhead).toNat ≤ (x.fqtail - x.fqhead).toNat then DieThenRecords s t d (fun x => { x with fqhead := v }) else Ignored s t))
    ∧ (∀ s d size v, s.mgmt.recovery = false → Gives (.fqbaseWrite d size v) s (fun t =>
        let x := (s.dies[d]?).getD Die.reset
        if x.fqhead = x.fqtail ∧ (size = true → 4 ≤ v.toNat ∧ v.toNat ≤ 16) then DieThenRecords s t d (fun x => { x with
          fqbase := (if size = true then x.fqbase else v &&& ~~~0xFFF#64), fqsize := (if size = true then v.setWidth 32 else x.fqsize)
          fqhead := 0, fqtail := 0 })
        else Ignored s t))
    ∧ (∀ s d v, s.mgmt.recovery = false → Gives (.resume d v) s (fun t =>
        (∀ f, GoodAnswer s d v f → Answered s t d (v.extractLsb' 0 10).toNat f (decide (v.extractLsb' 32 2 = 0#2)))
        ∧ ((∀ f, ¬GoodAnswer s d v f) → Ignored s t)))
    ∧ (∀ s d v, s.mgmt.recovery = false → Gives (.tlbinv d v) s (fun t =>
        if v.extractLsb' 0 11 = 0#11 then t = s.withDie d (fun x => { x with
          tlbBusy := true
          tlbReq := x.tlbReq ++ [(v.extractLsb' 48 16, if v.getLsbD 11 then none else some (v.extractLsb' 12 36).toNat)] })
        else Ignored s t))
    ∧ (∀ s n v, s.mgmt.recovery = false → Gives (.repsetWrite n v) s (fun t =>
        let old := s.repset n
        let st := (List.range (repN v)).map (repStack v)
        let good := v.extractLsb' 20 10 = 0#10 ∧ (v.getLsbD 30 = false → v.extractLsb' 12 8 = 0#8) ∧ (∀ k ∈ st, k ≤ 11) ∧ st.Nodup
          ∧ (v.extractLsb' 48 16).toNat + (v.extractLsb' 32 16).toNat ≤ s.cfg.g * 1024
        if v.getLsbD 31 = false then t.repset n = v ∧ (∀ m, m ≠ n → t.repset m = s.repset m)
          ∧ (old.getLsbD 31 = false → t.waves = s.waves ∧ t.keys.accs = s.keys.accs)
          ∧ (old.getLsbD 31 = true → (∀ a ∈ t.keys.accs, a.setNo = n → a.phase = .done)
            ∧ ∀ wv ∈ t.waves, ∀ e ∈ wv.buf, e.toSet n = none)
        else (old.getLsbD 31 = true ∨ ¬good → Ignored s t)
          ∧ (old.getLsbD 31 = false → good → t.repset n = v ∧ t.waves = s.waves ∧ ∀ m, m ≠ n → t.repset m = s.repset m)))
    ∧ (∀ s v, s.mgmt.recovery = false → Gives (.rebaseGo v) s (fun t => if v.getLsbD 0 = true ∧ s.keys.rebaseBusy = false
        then t = { s with keys := { s.keys with rebaseBusy := true } } else Ignored s t))
    ∧ (∀ s (v : Word), s.mgmt.recovery = false → Gives (.aclkWrite v) s (fun t => PowerWrite s t 0 v.toNat)
      ∧ Gives (.pauseWrite v) s (fun t => PowerWrite s t 13 v.toNat))
    ∧ (∀ s sel (v : DWord), sel < 14 → s.mgmt.recovery = false →
        Gives (.registerWrite (0x5008 + 4 * sel) v) s (fun t => PowerWrite s t sel (v.toNat % 2 ^ 32)))
    ∧ (∀ s q (v : DWord), q < 64 → let o := 0x1008 + 0x40 * q
        exec (.registerWrite o v) s = exec (.qbaseWrite q v) s
          ∧ exec (.registerWrite (o + 8) v) s = exec (.qcfgWrite q (v.setWidth 32)) s
          ∧ exec (.registerWrite (o + 0xC) v) s = exec (.qtailWrite q (v.setWidth 32)) s
          ∧ exec (.registerWrite (o + 0x18) v) s = exec (.qrestart q (v.setWidth 32)) s
          ∧ (s.mgmt.recovery = false → Gives (.registerWrite (o + 0x1C) v) s (QueueBecomes s · q { s.queue q with wdog := v.setWidth 32 })
            ∧ Gives (.registerWrite (o + 0x10) v) s (Ignored s) ∧ Gives (.registerWrite (o + 0x14) v) s (Ignored s)))
    ∧ (∀ s d (v : DWord), d < 4 → let o := 0x3008 + 0x100 * d
        exec (.registerWrite o v) s = exec (.fqbaseWrite d false v) s
          ∧ exec (.registerWrite (o + 8) v) s = exec (.fqbaseWrite d true ((v.setWidth 32).setWidth 64)) s
          ∧ exec (.registerWrite (o + 0xC) v) s = exec (.fqheadWrite d (v.setWidth 32)) s
          ∧ exec (.registerWrite (o + 0x18) v) s = exec (.resume d v) s ∧ exec (.registerWrite (o + 0x20) v) s = exec (.tlbinv d v) s)
    ∧ (∀ s (n : BitVec 4) (v : DWord), exec (.registerWrite (0x4008 + 8 * n.toNat) v) s = exec (.repsetWrite n v) s
      ∧ exec (.registerWrite (0x4008 + 0xB0) v) s = exec (.rebaseGo (v.setWidth 32)) s)
    ∧ (∀ s p (v : DWord), p < 1024 → exec (.registerWrite (0x8008 + 0x1100 + 4 * p) v) s = exec (.peerpWrite p (v.setWidth 32)) s)
    ∧ (∀ s (v : DWord), s.mgmt.recovery = false → Gives (.registerWrite 0x2408 v) s (· = { s with domBase := v &&& ~~~0x3F#64 })
      ∧ Gives (.registerWrite 0x2410 v) s (fun t => if v.toNat % 2 ^ 32 ≤ 65536 then t = { s with domCount := v.setWidth 32 } else Ignored s t)
      ∧ Gives (.registerWrite 0x6008 v) s (· = { s with mgmt := { s.mgmt with lcidx := v.extractLsb' 0 16 } })
      ∧ Gives (.registerWrite 0x408C v) s (fun t => if v.extractLsb' 20 11 = 0#11
          then t = { s with keys := { s.keys with scrub := v.setWidth 32 } } else Ignored s t))
    ∧ (∀ off v, Shut (.registerWrite off v)) ∧ (∀ d v, Shut (.fqheadWrite d v)) ∧ (∀ d b v, Shut (.fqbaseWrite d b v))
    ∧ (∀ d v, Shut (.resume d v)) ∧ (∀ d v, Shut (.tlbinv d v)) ∧ (∀ n v, Shut (.repsetWrite n v)) ∧ (∀ v, Shut (.rebaseGo v))
    ∧ (∀ v, Shut (.aclkWrite v)) ∧ ∀ v, Shut (.pauseWrite v)

/-! ## The Wellhead, regrouping and deterministic trees -/

/-- Only wave `w` becomes another wave. -/
def WaveBecomes (s t : State) (w : Nat) (wv2 : Wave) : Prop := t.waves[w]? = some wv2 ∧ ∀ v, v ≠ w → t.waves[v]? = s.waves[v]?

/-- R72, R143, R356: wave `wv` has just started as wave `i` of group instance `gi` on a core. -/
structure Started (wv : Wave) (li gi i k : Nat) (r : LRecord) (lwave : Word) : Prop where
  names : wv.launch = li ∧ wv.group = gi ∧ wv.waveid = BitVec.ofNat 4 i ∧ wv.lwave = lwave
  placed : wv.life = .resident ∧ wv.place.map (·.core) = some k
  args : wv.reg 0 = ⟨splat (lo32 r.arg), .uni, true, allClean, 0, 0⟩
    ∧ wv.reg 1 = ⟨splat (hi32 r.arg), .uni, true, allClean, 0, 0⟩
  preds : ∀ p : PNum, p ≠ 7 → wv.pred p = 0
  xregs : ∀ (x : XNum) (L : Lane), (wv.xreg x).desc = 0x100 ∧ (wv.xreg x).idx[L] = 0
  specials : wv.fctl = 1 ∧ wv.mflags = 0 ∧ wv.death = 0 ∧ wv.live = fullMask ∧ wv.dead = 0 ∧ wv.frame = ⟨0, 0, 0, 0, 0, 0⟩
  lanes : ∀ L : Lane, wv.fstat[L] = 0 ∧ wv.ctr[L] = 0
  split : wv.table.split? 0 = some ⟨fullMask, r.entry, 0xFFFFFFFF, fullMask, 0xFFFF, 0, 31, false, false, none⟩
  single : ∀ k, (0 < k → wv.table.split? k = none) ∧ wv.table.rec? k = none
  quiet : wv.level = 0 ∧ wv.rq = [] ∧ wv.flights = [] ∧ wv.children = []

/-- Bytes of memory outside `n` from a key are as they were. -/
def OnlyBytes (s t : State) (key n : Nat) : Prop := ∀ a, (a < key ∨ key + n ≤ a) → t.mem.read a = s.mem.read a

/-- R294: nothing has written the save area of a wave since its record was put there. -/
def AreaKept (s : State) (w : Nat) (wv : Wave) (l : Launch) : Prop :=
  ∀ n m, wv.area = some (n, m) → s.cells (l.domain.recordAt (2 * w)) n = m

/-- R292, R293, R363: a wave that has left its core stands on core `k` again as it left: its place, the sources of R65 and R431 and
the generations that its outstanding answers are to meet (R177) are new. -/
def BackOn (s t : State) (w k : Nat) (wv : Wave) : Prop :=
  ∃ p fl, p.core = k ∧ fl.map (fun f : Flight => { f with gen := 0 }) = wv.flights.map (fun f => { f with gen := 0 })
    ∧ WaveBecomes s t w { wv with life := .resident, place := some p, errSrc := 0, raceSpace := 0, area := none, flights := fl }

/-- R72, R143, R291 to R294, R303, R341, R349, R356, R357, R360, R363: a placement is chosen only without a power event, on a core
in the nominal thermal state, within the energy budget; it starts the group's waves with the state of a new wave and leaves all
others; a pre-emption evicts a waiting wave, writing its record's bytes and no other, or saves the group that is the package's next
victim, with its state: none while a wave could be evicted alone, and of the lowest launch priority; an evicted or joined wave
returns to its core as it was, once its wait is over; a translation fault parks its wave once the instruction's translated lanes
have completed; a launch completes when it is ready, and not before, one of a running deterministic tree at a boundary alone (R396).
The model's own choices in it are those of log entries 26 and 41. -/
def Obligations.Wellhead : Prop :=
  (∀ (s : State) li u k, s.choosePlacement = some (li, u, k) → s.power.above = false ∧ k < 256 ∧ (s.coreAt k).thermal = false
      ∧ ∃ l, s.launches[li]? = some l ∧ l.completed = false ∧ (s.energyCost l).toNat ≤ s.power.budget.toNat)
    ∧ (∀ s li gl k l, s.choosePlacement = some (li, .first gl, k) → s.launches[li]? = some l →
        let n := s.waves.length
        let gi := s.groups.length
        Gives (.groupPlacement li) s (fun t => t.power = { s.power with budget := s.power.budget - s.energyCost l }
          ∧ t.launches[li]? = some { l with nextGl := gl + 1 } ∧ t.waves.length = n + l.record.groupW
          ∧ (∃ g, t.groups[gi]? = some g ∧ g.launch = li ∧ g.gl = gl ∧ g.stage = 0 ∧ g.core = some k ∧ g.life = .placed
            ∧ g.waves = (List.range l.record.groupW).map (fun i => n + i)
            ∧ g.bar 0 = { mem := BitVec.ofNat 16 (2 ^ l.record.groupW - 1), arr := 0, phase := false, flips := 0 })
          ∧ (∀ v, v < n → t.waves[v]? = s.waves[v]?)
          ∧ ∀ i, i < l.record.groupW → ∃ wv, t.waves[n + i]? = some wv
            ∧ Started wv li gi i k l.record (BitVec.ofNat 32 (gl * l.record.stages * l.record.groupW + i))
            ∧ wv.vregs = (roleAt l.record.roles 0 i).2.vregs))
    ∧ (∀ (s : State) li u k, s.choosePlacement = some (li, u, k) → exec (.groupPlacement li) s = .next (s.placeNow li u k))
    ∧ (∀ s li, (∀ u k, s.choosePlacement ≠ some (li, u, k)) → exec (.groupPlacement li) s = .next s)
    ∧ (∀ s w wv, s.waves[w]? = some wv → s.evictable w wv = true → Gives (.preemption (.wave w)) s (fun t =>
        ∃ wv2, WaveBecomes s t w wv2 ∧ wv2.life = .evicted ∧ wv2.place = none ∧ wv2.live = wv.live ∧ wv2.fctl = wv.fctl
          ∧ wv2.xregs = wv.xregs ∧ wv2.rq = wv.rq ∧ wv2.frame = wv.frame
          ∧ ∀ l, s.launchOf wv = some l → ∃ n m, wv2.area = some (n, m) ∧ OnlyBytes s t (l.domain.recordAt (2 * w)) n))
    ∧ (∀ (s : State) gi g, s.groups[gi]? = some g → s.nextVictim gi g = true → g.core ≠ none
          ∧
        (∀ w wv, s.waves[w]? = some wv → s.evictable w wv = false)
          ∧ ∀ j h a b, j ∈ s.victims → s.groups[j]? = some h → s.launches[g.launch]? = some a → s.launches[h.launch]? = some b →
            a.record.prio ≤ b.record.prio ∧ (a.record.prio = b.record.prio → g.placed < 2 ^ 64 → h.placed < 2 ^ 64 → h.placed ≤ g.placed))
    ∧ (∀ s gi g, s.groups[gi]? = some g → s.savable g = false ∨ s.nextVictim gi g = false →
        exec (.preemption (.group gi)) s = .next s)
    ∧ (∀ s gi g, s.groups[gi]? = some g → g.core ≠ none → s.savable g = true → s.nextVictim gi g = true → Gives (.preemption (.group gi)) s (fun t =>
        (∃ h, t.groups[gi]? = some h ∧ h.life = .saved ∧ h.core = none ∧ h.barriers = g.barriers ∧ h.baton = g.baton)
          ∧ (∀ v, v ∉ g.waves → t.waves[v]? = s.waves[v]?)
          ∧ ∀ v ∈ g.waves, ∀ wv, s.waves[v]? = some wv → wv.life = .resident → ∃ wv2, t.waves[v]? = some wv2 ∧ wv2.life = .saved
            ∧ wv2.place = none ∧ wv2.live = wv.live ∧ wv2.rq = wv.rq))
    ∧ (∀ s w wv l g k, s.waves[w]? = some wv → s.launchOf wv = some l → s.groupOf wv = some g → g.core = some k →
        s.fits k l (some wv.group) [wv.vregs] false = true → s.dieOk l (k / 64) = true → AreaKept s w wv l →
        (wv.life = .evicted → (wv.savedWaits = [] ∨ ∃ x ∈ wv.savedWaits, s.waitOver w wv x = true) →
          Gives (.evictedWaveReturn w) s (BackOn s · w k wv))
        ∧ (wv.life = .joined → s.joinDone wv = true → g.life = .placed → Gives (.joinResume w) s (BackOn s · w k wv)))
    ∧ (∀ s w wv, s.waves[w]? = some wv → wv.life ≠ .evicted → exec (.evictedWaveReturn w) s = .next s)
    ∧ (∀ s w wv, s.waves[w]? = some wv → (wv.life ≠ .joined ∨ s.joinDone wv = false) → exec (.joinResume w) s = .next s)
    ∧ (∀ s w wv f l, s.waves[w]? = some wv → s.launchOf wv = some l → wv.faulting = some f → wv.life = .resident → wv.parked = none →
        s.parkWaits (s.landed wv) f = false → Gives (.translationFault w) s (fun t => ∃ wv2 p, WaveBecomes s t w wv2 ∧ wv2.parked = some p ∧ p.faulting = f ∧ p.failed = []
          ∧ (p.tableFull = false → f.lanes ≠ [] → p.waits ≠ []) ∧ wv2.live = wv.live ∧ wv2.rq = wv.rq))
    ∧ (∀ s w wv, s.waves[w]? = some wv → (wv.faulting = none ∨ wv.life ≠ .resident ∨ wv.parked.isSome = true
        ∨ ∃ f, wv.faulting = some f ∧ s.parkWaits (s.landed wv) f = true) → exec (.translationFault w) s = .next s)
    ∧ (∀ s li l, s.launches[li]? = some l → Gives (.launchCompletion li) s (fun t => if s.launchReady li l = true ∧ s.offBoundary l = true
        then t.launches = s.launches.set li { l with completed := true }
          ∧ ∀ (v : Nat) a, s.waves[v]? = some a → ∃ b, t.waves[v]? = some b ∧ OnlyRaces a b
        else t = s))

/-- R296 to R301: at an interval's end a legal plan starts a regrouping of its die, unless one is still to be installed, the new
interval comes into force and the sketches are halved; the installation gives every new instance a fresh epoch and leaves the other
instances; a die of a deterministic tree does not regroup by a plan; EPOCH_COUNTER_RESET renews a die on which no group stands. The
model's own choices in it are those of log entry 25. -/
def Obligations.Regrouping : Prop :=
  (∀ s d x plan, s.dies[d]? = some x → s.dieDet d = false → Gives (.regroupIntervalEnd d plan) s (fun t =>
      let good := x.regroup = none ∧ plan ≠ [] ∧ s.planOk d plan = true ∧ x.epoch + plan.length ≤ 0xFFFFFFFFFFC0
      t.dies[d]? = some { x with interval := x.newInterval.getD x.interval, newInterval := none, moved := []
                                 regroup := (if good then some ⟨plan, ascending plan.flatten⟩ else x.regroup) }
        ∧ (∀ e, e ≠ d → t.dies[e]? = s.dies[e]?) ∧ t.waves = s.waves ∧ t.mem = s.mem
        ∧ ∀ k, (t.coreAt k).sketch = (if k / 64 = d
            then (s.coreAt k).sketch.map (fun e => (e.1, BitVec.ofNat 16 (e.2.toNat / 2))) else (s.coreAt k).sketch)))
    ∧ (∀ s d x plan, s.dies[d]? = some x → s.dieDet d = true → Gives (.regroupIntervalEnd d plan) s (fun t =>
        t = s.withDie d (fun x => { x with interval := x.newInterval.getD x.interval, newInterval := none, moved := [] })))
    ∧ (∀ s d x r, s.installDue = some d → s.dies[d]? = some x → x.regroup = some r → Gives .regroupInstall s (fun t =>
        ∃ y, t.dies[d]? = some y ∧ y.regroup = none ∧ y.epoch = x.epoch + r.plan.length
          ∧ (s.planOk d r.plan = true → x.epoch + r.plan.length ≤ 2 ^ 48 → ∀ g ∈ r.plan, ∃ sp ∈ y.spans, sp.members = ascending g
            ∧ sp.slot = (ascending g).headD 0 ∧ x.epoch ≤ sp.epoch.toNat ∧ sp.epoch.toNat < x.epoch + r.plan.length ∧ sp.freeze = 0
            ∧ sp.dirty = [])
          ∧ ∀ sp ∈ y.spans, (∃ g ∈ r.plan, sp.members = ascending g)
            ∨ ∃ old ∈ x.spans, sp.members = old.members ∧ sp.epoch = old.epoch ∧ sp.freeze = old.freeze))
    ∧ (∀ (s : State), s.installDue = none → exec .regroupInstall s = .next s)
    ∧ (∀ s d x, s.dies[d]? = some x → Gives (.epochCounterReset d) s (fun t =>
        if x.regroup = none ∧ (∀ g ∈ s.groups, g.life ≠ .saved ∧ (g.life = .placed → g.core.map (· / 64) ≠ some d))
        then ∃ y, t.dies[d]? = some y ∧ y.epoch = 65 ∧ y.freezes = []
          ∧ y.spans = (List.range 64).map (fun c => Span.fresh c [c] (BitVec.ofNat 48 (c + 1)))
        else t = s))

/-- The bytes that a store of `n` bytes in each lane of a mask leaves at its places, in the order in which it stores them. -/
def storedBytes (m : Mask) (place : Lane → Phys) (n : Nat) (v : Lane → Nat) : List (Nat × Byte) :=
  (Mask.lanes m).flatMap (fun L => (List.range n).map (fun i => (keyOf (place L) i, BitVec.ofNat 8 (v L / 256 ^ i))))

/-- The bytes of the stores to global memory among buffered effects, in program order. -/
def bufferedStores (l : List DetEff) : List (Nat × Byte) := l.flatMap (fun e => match e with
  | .store bytes _ _ => bytes
  | .atomic _ _ _ _ | .cas _ _ _ _ | .maj _ _ _ _ _ | .spanStore _ | .spanAtomic _ _ | .spanCas _ _ | .spawn _ _ _ => [])

/-- Memory with bytes stored one after the other. -/
def withStores (mem : Nat → Byte) (l : List (Nat × Byte)) : Nat → Byte := l.foldl (fun m b k => if k = b.1 then b.2 else m k) mem

/-- R395: what a deterministic wave observes: memory with its own buffered stores over it. -/
def ownView (s : State) (x : Site) : Nat → Byte := withStores (observed s x) (bufferedStores x.wv.buf)

/-- R395: a load of global memory by a wave of a deterministic tree issues a producer of the bytes that the wave observes. -/
def TreeLoad (mk : Hdr → LdOp → Instr) (uni : Bool) : Prop := ∀ s x h (o : LdOp) place,
  let u := ldUses uni o
  Clear s x h u → NoMismatch s x → s.det x.wv = true → x.exec h ≠ 0 →
  Reaches s x (x.exec h) o.m (handleIn s x h u 1) .load (address s x h u 0 o.m.space) place →
  ∃ t f wv2, exec (mk h o) s = .next t ∧ f.uni = uni ∧ (∀ a, t.mem.read a = s.mem.read a)
    ∧ Producing s t x u 1 (x.exec h) (fun L => valueOf (fun i => ownView s x (keyOf (place L) i)) o.m.width.bytes) none f wv2

/-- R395: ST by a wave of a deterministic tree completes with its bytes behind the wave's other buffered effects, and no memory or pier has
changed. -/
def TreeStore : Prop := ∀ s x h (o : StOp) place,
  let u := stUses o
  Clear s x h u → NoMismatch s x → s.det x.wv = true → x.exec h ≠ 0 →
  Reaches s x (x.exec h) o.m (handleIn s x h u 2) .store (address s x h u 1 o.m.space) place →
  RetiresWith (.st h o) s x h u (fun a b => ∃ e, e.remain = x.exec h ∧ b = { a with buf := a.buf
      ++ [.store (storedBytes (x.exec h) place o.m.width.bytes (natOperand s x h u 0)) x.wv.coreNo e] })
    (fun t => (∀ a, t.mem.read a = s.mem.read a) ∧ ∀ k a, observedAt t k a = observedAt s k a)

/-- A buffered store of this package, aligned, to devices that answer. -/
def HomeStore (s : State) (e : DetEff) : Prop := ∃ m place n v core en, e = .store (storedBytes m place n v) core en ∧ en.remain = m
  ∧ m ≠ 0 ∧ n ∈ [1, 2, 4, 8, 16] ∧ ∀ L, m.has L = true → (place L).kind.toNat ≤ 2 ∧ (place L).pa % n = 0 ∧ s.keyUp (keyOf (place L) 0) = true

/-- R395: step 1 of a boundary of a tree whose waves have buffered stores leaves every one of them at its home, in ascending commit key,
within a wave in program order and within an instruction in ascending lane order, and leaves the buffers empty; no other byte of
memory has changed. -/
def StoresCommit : Prop := ∀ (s : State) n x, s.trees[n]? = some x → x.acc = none → s.swapOpen n = false →
  (∀ w ∈ s.treeWaves n, ∀ wv, s.waves[w]? = some wv → ∀ e ∈ wv.buf, HomeStore s e) →
  let t := s.commitAll n (s.buffered n + 1)
  (∀ a, t.mem.read a = withStores s.mem.read ((s.treeWaves n).flatMap (fun w => bufferedStores (((s.waves[w]?).map (·.buf)).getD []))) a)
    ∧ (∀ w ∈ s.treeWaves n, ∀ wv, t.waves[w]? = some wv → wv.buf = [])
    ∧ ∃ y, t.trees[n]? = some y ∧ y.phase = 2

/-- R392 to R397, R434: in a deterministic tree a load observes memory and the wave's own buffered stores over it, a store is
buffered, and the first step of a boundary commits the stores in order. A quantum ends when QRETIRED reaches the record's quantum,
or nothing of the wave can issue before a boundary accepts its child (log entry 38); a boundary is held when it is due, counts once,
and leaves every wave with an open quantum whose wait, if one ended the last, is over and of which some split does not wait; an
expiry of the watchdog aborts the wave unless its time is excused. R345: TLBINV ends with the named translations gone, and not
before it may. The model's own choices in it are those of log entries 38, 43 and 54. -/
def Obligations.QuantaAndWatchdog : Prop := TreeLoad .ld false ∧ TreeLoad .ldu true ∧ TreeStore ∧ StoresCommit ∧
  (∀ s w wv l, s.waves[w]? = some wv → s.launchOf wv = some l → Gives (.quantumEnd w) s (fun t =>
      if l.tree ≠ none ∧ wv.qended = false ∧ wv.life = .resident ∧ (l.record.quantum ≤ wv.qretired ∨ wv.stuck = true)
      then WaveBecomes s t w { wv with qended := true } else t = s))
    ∧ (∀ s, Gives .quantumBoundary s (fun t =>
        ((∀ n, n < s.trees.length → s.boundaryDue n = false) → t = s)
        ∧ ∀ n x, s.boundaryDue n = true → (∀ m, m < n → s.boundaryDue m = false) → s.trees[n]? = some x → ∃ y, t.trees[n]? = some y
          ∧ y.boundary = (if x.phase = 0 then x.boundary + 1 else x.boundary)
          ∧ (y.phase = 0 → ∀ w ∈ t.treeWaves n, ∀ wv, t.waves[w]? = some wv → wv.life = .retired
            ∨ (∃ k, wv.qwait = some k ∧ wv.waitsAt k = true) ∨ wv.allWait = true ∨ wv.qended = false)
          ∧ (y.phase = 0 → ∀ w ∈ t.treeWaves n, ∀ wv, t.waves[w]? = some wv → wv.buf = [])))
    ∧ (∀ s w wv l n, s.waves[w]? = some wv → s.launchOf wv = some l → Gives (.watchdogExpiry w n) s (fun t =>
        if wv.life = .resident ∧ l.qwdog ≠ 0 ∧ s.power.pause = 0 ∧ wv.stopped = none ∧ s.excused w = false
        then ∃ wv2, t.waves[w]? = some wv2 ∧ wv2.aborted = true ∧ wv2.live = 0 else t = s))
    ∧ (∀ (s : State), (∀ d, d < 4 → s.tlbReady d = false) → exec .tlbinvDone s = .next s)
    ∧ ∀ s d x, d < 4 → s.dies[d]? = some x → s.tlbReady d = true → (∀ e, e < d → s.tlbReady e = false) → Gives .tlbinvDone s (fun t =>
        t = s.withDie d (fun _ => { x with
          tlbBusy := false, tlbReq := [], tlb := x.tlb.filter (fun e => !x.tlbReq.any e.named),
          tables := x.tables.filter (fun e => !x.tlbReq.any e.named) }))

/-! ## Management -/

/-- R414: a response stands in the mailbox, and nothing else has changed. -/
def Mailed (s t : State) (r : Spdm) : Prop := t = { s with mgmt := { s.mgmt with spdm := some r } }

/-- R413: an image passes. -/
def GoodImage (i : Image) (least : Word) : Prop := i.signed = true ∧ least.toNat ≤ i.version.toNat

/-- R328, R360, R399, R411 to R415: the energy window, the power limit and a thermal state; package reset, which keeps memory with
what CCTL has written back there, counters and flash and runs its images or starts recovery, and loss of power; a module that fails
its training; accesses of the host; the SPDM requests answered. The model's own choices in it are those of log entries 15, 16, 50
and 64. -/
def Obligations.Management : Prop :=
  (∀ s, Gives .energyWindowStart s (· = { s with power := { s.power with winLen := s.power.ewin, budget := s.power.ebudget } }))
    ∧ (∀ s w, Gives (.powerOver w) s (fun t => if s.power.plimit.toNat < w.toNat
        then t.power = { s.power with above := true, watts := w } ∧ (s.power.above = false → t.mgmt.msix.getLsbD 65 = true)
          ∧ ((∀ d, d < 4 → s.dieDet d = false) → t.waves = s.waves)
          ∧ ((∃ d, d < 4 ∧ s.dieDet d = true) → ∀ n ∈ s.liveTrees, ∀ x, t.trees[n]? = some x → x.stopped = true)
        else t = s))
    ∧ (∀ s w, Gives (.powerUnder w) s (fun t => if s.power.plimit.toNat < w.toNat then t = s
        else t = { s with power := { s.power with above := false, watts := w } }))
    ∧ (∀ s k hot, Gives (.thermalStateChange k hot) s (fun t => t.coreAt k = { s.coreAt k with thermal := hot }
        ∧ (∀ j, j ≠ k → t.coreAt j = s.coreAt j) ∧ t.waves = s.waves))
    ∧ (∀ s img, Gives (.packageReset img) s (fun t =>
        let ok := GoodImage img.record s.mgmt.minVersion[0] ∧ GoodImage img.prawinCmd s.mgmt.minVersion[1]
          ∧ GoodImage img.prawinMgmt s.mgmt.minVersion[2]
        t.waves = [] ∧ t.launches = [] ∧ t.queues = [] ∧ t.power = State.reset.power ∧ t.dies = State.reset.dies ∧ t.via = State.reset.via
          ∧ (s.mem.wf → ∀ k, t.mem.read k = (s.backByte k).getD (s.mem.read k)) ∧ t.mgmt.counters = s.mgmt.counters ∧ (t.mgmt.recovery = false ↔ ok)
          ∧ (ok → t.mgmt.minVersion = #v[img.record.version, img.prawinCmd.version, img.prawinMgmt.version])
          ∧ (¬ok → t.mgmt.minVersion = s.mgmt.minVersion)))
    ∧ (∀ s, Gives .lossOfPower s (fun t =>
        let img := s.mgmt.images
        let ok := GoodImage img.record s.mgmt.minVersion[0] ∧ GoodImage img.prawinCmd s.mgmt.minVersion[1]
          ∧ GoodImage img.prawinMgmt s.mgmt.minVersion[2]
        t.waves = [] ∧ t.mem = State.reset.mem ∧ (t.mgmt.recovery = false ↔ ok)
        ∧ (ok → t.mgmt.minVersion = #v[img.record.version, img.prawinCmd.version, img.prawinMgmt.version])
        ∧ (¬ok → t.mgmt.minVersion = s.mgmt.minVersion)
        ∧ ∀ i v, lookupN i t.mgmt.counters = some v → v.toNat ≤ ((lookupN i s.mgmt.counters).getD 0).toNat
          ∧ ((lookupN i s.mgmt.counters).getD 0).toNat ≤ v.toNat + s.mgmt.lately s.clock.toNat i))
    ∧ (∀ s m, Gives (.moduleTrainingFailure m) s (fun t => t = { s with mgmt := { s.mgmt with modules := t.mgmt.modules } }
        ∧ ∀ i, i < 16 → t.mgmt.modules.getLsbD i = (s.mgmt.modules.getLsbD i && decide (i ≠ m.toNat))))
    ∧ (∀ s (a : HostAcc), let n := if a.write then a.data.length else a.len
        let key := memKey a.kind a.pa.toNat
        (s.hostReaches a.kind a.pa.toNat n = false → exec (.hostMemoryAccess a) s = .next s)
        ∧ (s.hostReaches a.kind a.pa.toNat n = true → a.write = true → (∀ i, i < n → s.keyUp (key + i) = true) → Gives (.hostMemoryAccess a) s (fun t =>
          t.waves = s.waves ∧ ∀ k, t.mem.read k = if key ≤ k ∧ k < key + n then a.data.getD (k - key) 0 else s.mem.read k))
        ∧ (s.hostReaches a.kind a.pa.toNat n = true → a.write = false → Gives (.hostMemoryAccess a) s (fun t =>
          (∃ c r, t = { s with hostData := t.hostData, mgmt := { s.mgmt with counters := c, recent := r } }) ∧ t.hostData.length = n
            ∧ (∀ i b, i < n → s.backByte (key + i) = some b → t.hostData[i]? = some b)
            ∧ ∀ i, i < n → s.backByte (key + i) = none → s.keyUp (key + i) = true → s.seenBad none (key + i) 1 = false →
              t.hostData[i]? = some (s.mem.read (key + i)))))
    ∧ (∀ s, Gives .getVersion s (Mailed s · (.version 0x1300)) ∧ Gives .getCapabilities s (Mailed s · (.capabilities true true true false false false))
        ∧ Gives .getDigests s (fun t => ∃ d, Mailed s t (.digests 1 d)))
    ∧ (∀ s a h, Gives (.negotiateAlgorithms a h) s (Mailed s · (.algorithms (a &&& 0x80) (h &&& 2))))
    ∧ (∀ s slot ofs len, (slot = 0 → ofs.toNat < chainLength → Gives (.getCertificate slot ofs len) s (fun t => ∃ bs : List Byte,
          bs.length = min len.toNat (chainLength - ofs.toNat) ∧ (∀ i, i < bs.length → bs[i]? = some (chainByte (ofs.toNat + i)))
          ∧ Mailed s t (.certificate slot ofs (BitVec.ofNat 16 (chainLength - ofs.toNat - bs.length)) bs)))
        ∧ (slot ≠ 0 ∨ chainLength ≤ ofs.toNat → Gives (.getCertificate slot ofs len) s (Mailed s · .error)))
    ∧ (∀ s slot n, Gives (.challenge slot n) s (fun t => if slot = 0 then ∃ g, Mailed s t (.challengeAuth slot g) else Mailed s t .error))
    ∧ ∀ s i sign n, Gives (.getMeasurements i sign n) s (fun t => if i.toNat ≤ 5 ∨ i = 0xFF then
        ∃ bs g, Mailed s t (.measurements bs g) ∧ g.isSome = sign
          ∧ bs.map (·.1) = (if i = 0xFF then [1, 2, 3, 4, 5] else if i = 0 then [] else [i])
        else Mailed s t .error)

/-- R290: no replay entry of the wave, at its trap level or below, covers register `r`. -/
def Uncovered (wv : Wave) (r : Nat) : Prop :=
  (∀ e ∈ wv.rq, e.covers r = false) ∧ ∀ f ∈ wv.saved, ∀ e ∈ f.rq, e.covers r = false

/-- R224, R289, R290: the debugger makes a wave stop, which it does with its unfinished instructions captured once no result that
has been sent for is awaited, resumes it with them to be done again, and writes registers, predicates and descriptors of a
stopped wave only, answering PENDING for a register that an entry covers unless the write is forced, which deletes those entries; R50,
R52: a word of no assigned opcode traps with 0x001 and has no effect. The model's own choices in it are those of log entries
27 and 53. -/
def Obligations.DebuggerAndOpcodes : Prop :=
  (∀ s w wv, s.waves[w]? = some wv → wv.life = .resident → wv.stopped = none → wv.stopping = none →
      Gives (.debuggerStop w) s (WaveBecomes s · w { wv with stopping := some none }))
    ∧ (∀ (s : State) w wv tag, s.waves[w]? = some wv → wv.stopping = some tag → wv.entering = [] →
      wv.awaits (wv.faulting.bind (·.flight)) = false → wv.rq.length + wv.captures ≤ 8 →
      ∃ wv2, WaveBecomes s (s.settleStop w) w wv2 ∧ wv2.stopped = some tag ∧ wv2.stopping = none ∧ wv2.stopAt = wv.rq.length
        ∧ (∃ es, wv2.rq = wv.rq ++ es) ∧ wv2.live = wv.live ∧ wv2.reinj = [])
    ∧ (∀ s w wv, s.waves[w]? = some wv → (wv.life ≠ .resident ∨ wv.stopped.isSome = true ∨ wv.stopping.isSome = true) →
        exec (.debuggerStop w) s = .next s)
    ∧ (∀ s w wv, s.waves[w]? = some wv → wv.stopped.isSome = true → wv.parked = none →
        (∀ k sp, k < 4 → wv.table.split? k = some sp → sp.wait = none →
          (∀ e ∈ wv.rq.drop wv.stopAt ++ wv.reinj, e.kind = 5 → e.slot ≠ k) → sp.pc ≠ sp.rpc) → Gives (.debuggerResume w) s (fun t =>
        WaveBecomes s t w { wv with
          reinj := wv.rq.drop wv.stopAt ++ wv.reinj, rq := wv.rq.take wv.stopAt, stopped := none, stopAt := 0 }))
    ∧ (∀ s w wv, s.waves[w]? = some wv → wv.stopped = none → exec (.debuggerResume w) s = .next s
        ∧ ∀ tg force, (∀ on, tg ≠ .breakpoints on) → exec (.debuggerWrite w tg force) s = .next { s with dbgPending := false })
    ∧ (∀ s w wv force, s.waves[w]? = some wv → wv.stopped.isSome = true →
        (∀ (r : VNum) v, r.toNat < wv.vregs → Uncovered wv r.toNat →
          Gives (.debuggerWrite w (.reg r v) force) s (fun t => t.dbgPending = false ∧ ∃ wv2, WaveBecomes s t w wv2
            ∧ (∀ L : Lane, (wv2.reg r.toNat).val[L] = v[L])
            ∧ (wv2.reg r.toNat).full = true ∧ ∀ q, q ≠ r.toNat → wv2.reg q = wv.reg q))
        ∧ (∀ (r : VNum) v, r.toNat < wv.vregs → ¬Uncovered wv r.toNat →
          exec (.debuggerWrite w (.reg r v) false) s = .next { s with dbgPending := true })
        ∧ (∀ (r : VNum) v, r.toNat < wv.vregs → Gives (.debuggerWrite w (.reg r v) true) s (fun t => t.dbgPending = false
          ∧ ∃ wv2, WaveBecomes s t w wv2 ∧ (∀ L : Lane, (wv2.reg r.toNat).val[L] = v[L]) ∧ Uncovered wv2 r.toNat))
        ∧ (∀ (p : PNum) v, p ≠ 7 → Gives (.debuggerWrite w (.pred p v) force) s (fun t => ∃ wv2, WaveBecomes s t w wv2 ∧ wv2.pred p = v
            ∧ ∀ q, q ≠ p → wv2.pred q = wv.pred q))
        ∧ (∀ x v, ¬GoodDescriptor v → exec (.debuggerWrite w (.desc x v) force) s = .next { s with dbgPending := false })
        ∧ ∀ x v, GoodDescriptor v → Gives (.debuggerWrite w (.desc x v) force) s (fun t => ∃ wv2, WaveBecomes s t w wv2 ∧ (wv2.xreg x).desc = v))
    ∧ (∀ s w wv l on force, s.waves[w]? = some wv → s.launches[wv.launch]? = some l → Gives (.debuggerWrite w (.breakpoints on) force) s (fun t =>
        t.launches = s.launches.set wv.launch { l with bkpt := on } ∧ t.waves = s.waves))
    ∧ ∀ s x l a b c, Issues s x → CanTrap s x l → TrapsPrecise (.unassignedOpcode a b c) s x l 0x001 (Mask.lowest x.sp.mask).val 0

/-! ## Words, steps and reset -/

/-- The shared fields of an instruction with no guard and no hint. -/
def plainHdr : Hdr := { neg := false, pred := 7, yld := false, last := false, stall := 0, dual := false }

/-- Register `n` whole, as a source and as a destination. -/
def vs (n : VNum) : Src := .reg n (.elt .w32 0) false
/-- Register `n` whole, as a destination. -/
def vd (n : VNum) : Dst := .reg n .w32 0

/-- R26 to R56: words written out field by field from the encoding tables, one or more of every group, read as the
instructions that they stand for. The model's own choices in it are those of log entry 27. -/
def Obligations.DecodesSpecWords : Prop :=
  decode 0x019C000040000FFFFFC00000#96 = .ok (.loop plainHdr 1 ⟨0, 0xFFFFFC, 0⟩)
    ∧ decode 0x105C0001600C000040000800#96 = .ok (.isub plainHdr ⟨.ui8, true, vd 3, vs 1, vs 2⟩)
    ∧ decode 0x215C0008600C0000400C0005#96 = .ok (.funl plainHdr ⟨true, .ui32, vd 3, vs 1, .imm 5, 2⟩)
    ∧ decode 0x30DC00AC190400000003E807#96 = .ok (.icmpI plainHdr ⟨⟨1, .or, 3⟩, .si32, 1, 1000, 7⟩)
    ∧ decode 0x405C00010020000100001800#96 = .ok (.dmul plainHdr ⟨.f64, .rtz, vd 8, vs 4, vs 6⟩)
    ∧ decode 0x509C005104890002884CFF00#96 = .ok (.ffma plainHdr ⟨.f32, .rtz, .ind 1 2 .post, .reg 10 (.rot 1) false, .imm 0xFF00, 20⟩)
    ∧ decode 0x609C018050244C0080000000#96 = .ok (.cvtn plainHdr ⟨some .kf8e4, .f32, .rtz, true, .reg 9 .w8 3, vs 2⟩)
    ∧ decode 0x701C014000000001C0000000#96 = .ok (.xset plainHdr 2 true (vs 7))
    ∧ decode 0x801C0026001C000040002800#96 = .ok (.lpick plainHdr ⟨some 9, false, vd 7, ⟨1, false⟩, vs 10⟩)
    ∧ decode 0x9029415200300001000C0040#96 = .ok (.ld { neg := true, pred := 2, yld := false, last := true, stall := 2, dual := false }
      ⟨⟨.di, .acq, .w32, .dflt, .ordinary⟩, vd 12, vs 4, .imm 0x40⟩)
    ∧ decode 0xA05C008A00200000000C0404#96 = .ok (.atoms plainHdr
      ⟨⟨.gp, .rlx, .w32, .dflt, .ordinary⟩, .int .add .ui32, vd 8, vs 0, .ofs 4⟩)
    ∧ decode 0xB19C019D00240001000E0000#96 = .ok (.mst plainHdr ⟨.pk, .rel, true, 0, vs 9, vs 4⟩)
    ∧ decode 0xC11C0068A000000000000000#96 = .ok (.mma plainHdr ⟨3, 4, 5⟩)
    ∧ decode 0xD25C00200000000100001800#96 = .ok (.spawn plainHdr ⟨vs 4, vs 6, 8⟩)
    ∧ decode 0xD29C0000101C000000000000#96 = .ok (.join plainHdr (some (vd 7)))

/-- R26 to R49: the word that the encoder writes for a well-formed instruction decodes to that instruction, with every operand
and control at every value that the encoding admits. The model's own choices in it are those of log entry 27. -/
def Obligations.EncodeDecode : Prop := ∀ i w, WellFormed i → encode i = some w → decode w = .ok i

/-- R53 to R56, R348: the words at a PC: the first 12 bytes of the code region from it, in three little-endian words of devices that
answer, with no uncorrectable word. -/
def CodeAt (s : State) (die : Nat) (l : Launch) (pc : Word) (p : Nat → Phys) : Prop :=
  pc.toNat % 12 = 0 ∧ pc.toNat < l.record.codeSize.toNat ∧ ∀ k, k < 3 → (p k).kind.toNat ≤ 2 ∧ s.sound (p k).kind (p k).pa 4 = true
    ∧ (s.translate die l.domain (l.record.codeBase + BitVec.ofNat 64 (pc.toNat + 4 * k)) .fetch).1 = .ok (p k)

/-- The word of memory at a place. -/
def memWord (s : State) (p : Phys) : Word := BitVec.ofNat 32 (valueOf (fun i => s.mem.read (memKey p.kind p.pa + i)) 4)

/-- The step at which the split in place `c.slot` of wave `c.wave` issues: nothing has come from outside, the order of steps leaves the
turn to the waves and makes no second pick (R171), and the wave's core picks the split. -/
def IssueTurn (s t : State) (c : Cand) : Prop :=
  s.inbox = [] ∧ s.turnOf.1 = 0 ∧ s.turnOf.2 < 256
    ∧ { s.advance.tidy with order := s.order.drop 1, nextCore := s.turnOf.2 }.pick = some (c, t)

/-- R13, R26, R50, R52, R169: a step runs the decoded instruction. A step first counts itself and moves the clock on; an event from
outside then runs at once; a split that issues is ready; where a split issues, and the words at its PC decode to an instruction, the
step is that instruction at the state that names the issuing split, with at most what the walk has read cached, and its
uncorrectable words counted; where they decode to none, its trap is taken; an entry that is replayed runs the instruction that it
holds. The model's own choices in it are those of log entries 5, 6, 20, 21 and 51. -/
def Obligations.StepRunsDecoded : Prop :=
  (∀ s i rest, s.inbox = i :: rest → step s = exec i { s.advance with inbox := rest })
    ∧ (∀ s t c wv sp l p, IssueTurn s t c → c.replay = none → t.waves[c.wave]? = some wv → wv.table.split? c.slot = some sp →
        t.launchOf wv = some l → CodeAt { t with devTurn := true } wv.die' l sp.pc p →
        let w0 := memWord t (p 0)
        let w1 := memWord t (p 1)
        let w2 := memWord t (p 2)
        ∃ v, v = { t with devTurn := true, dies := v.dies, cur := some ⟨c.wave, c.slot, w0, w1, w2, none⟩
                          mgmt := { t.mgmt with counters := v.mgmt.counters, recent := v.mgmt.recent } }
          ∧ (∀ i, decode (w2 ++ w1 ++ w0) = .ok i → step s = exec i v)
          ∧ ∀ e, decode (w2 ++ w1 ++ w0) = .error e → ∃ c d, step s = v.encodingFault c d)
    ∧ (∀ s t c e i, IssueTurn s t c → c.replay = some e → e.kind ≠ 5 → decode (e.w2 ++ e.w1 ++ e.w0) = .ok i →
        step s = exec i { t with devTurn := true, cur := some ⟨c.wave, c.slot, e.w0, e.w1, e.w2, some e⟩ })
    ∧ (∀ (s : State) c t, s.pick = some (c, t) → s.ready c = true ∧ ∃ w, c ∈ s.candsOf w)
    ∧ ∀ i w f, decode w = .ok i → decodeFor f w = .ok i

/-- R296, R345, R382, R401, R403, R411, R420, R434: the values that the spec gives the registers at reset, as reads of the
window return them, and the rest of the machine at rest: no launch, no wave, no replica set, every core an instance of one. -/
def Obligations.ResetState : Prop :=
  let r (off : Nat) : DWord := State.reset.readReg off
  (r 0x5008 = 2000 ∧ r 0x500C = 2400 ∧ r 0x5010 = 1000 ∧ r 0x5014 = 0xFFFFFFFF ∧ r 0x5038 = 95 ∧ r 0x503C = 0 ∧ r 0x5040 = 0)
    ∧ (∀ c, c < 8 → r (0x5018 + 4 * c) = 0)
    ∧ (∀ n, n < 16 → r (0x4008 + 8 * n) = 0) ∧ r 0x4088 = 1000 ∧ r 0x408C = 0x80001000 ∧ (∀ k, k < 4 → r (0x4098 + 8 * k) = 0)
    ∧ r 0x40B8 = 0
    ∧ (∀ q, q < 64 → (∀ o ∈ [0, 8, 0xC, 0x10, 0x14], r (0x1008 + 0x40 * q + o) = 0) ∧ r (0x1024 + 0x40 * q) = 0x00989680)
    ∧ (∀ d, d < 4 → ∀ o ∈ [0, 8, 0xC, 0x10, 0x14, 0x28], r (0x3008 + 0x100 * d + o) = 0)
    ∧ r 0x2408 = 0 ∧ r 0x2410 = 0
    ∧ r 0x8010 = 0 ∧ r 0x8014 = 1 ∧ r 0x8018 = 0 ∧ r 0x801C = 20 ∧ r 0x8020 = 8 ∧ r 0x8024 = 1000000 ∧ r 0x8028 = 0 ∧ r 0x8030 = 0
    ∧ r 0x8038 = 0 ∧ (∀ p, p < 1024 → r (0x8108 + 4 * p) = 0xF ∧ r (0x9108 + 4 * p) = 0)
    ∧ (∀ d, d < 4 → ∃ y, State.reset.dies[d]? = some y ∧ y.epoch = 65 ∧ y.interval = 1000
      ∧ ∀ c, c < 64 → ∃ sp ∈ y.spans, sp.members = [c] ∧ sp.slot = c ∧ sp.epoch.toNat = c + 1)
    ∧ State.reset.waves = [] ∧ State.reset.launches = [] ∧ State.reset.groups = [] ∧ State.reset.mem.wf

/-- R10: every step keeps memory in its canonical form: addresses strictly rising, no byte listed that an unlisted one would
read as, so that equal memories are equal data. The model's own choices in it are those of log entry 1. -/
def Obligations.MemoryStaysCanonical : Prop := ∀ s t, step s = .next t → s.mem.wf → t.mem.wf

/-- R76: a value of a signed integer type of width `w` is the two's complement reading of its low `w` bits, of an unsigned
type their plain reading; a result without SAT is the value of the type congruent to the exact result modulo `2^w`, and with
SAT, where FCTL traps no overflow, the exact result clamped to the type's range. R66: writing lanes of a predicate changes
those lanes of that predicate; PT reads 1 in every lane and a write to it is discarded; predicate `p` is operand number `0x40
+ p`. R43: a Form C offset counts instructions from the next PC. -/
def Obligations.TypesPredicatesAndOffsets : Prop :=
  (∀ (t : IType) (x : BitVec 128), t.read x = if t.signed then (x.setWidth t.width).toInt else ((x.setWidth t.width).toNat : Int))
    ∧ (∀ (t : IType) (fctl : Word) (x : Int),
      let r := intResult fctl t false x
      let y := t.read r.val
      r.trap = none ∧ r.flags = 0 ∧ t.least ≤ y ∧ y ≤ t.greatest ∧ (2 ^ t.width : Int) ∣ y - x)
    ∧ (∀ (t : IType) (fctl : Word) (x : Int), trapOn fctl 6 = false →
      let r := intResult fctl t true x
      r.trap = none ∧ t.read r.val = if x < t.least then t.least else if t.greatest < x then t.greatest else x)
    ∧ (∀ (wv : Wave) (p q : PNum) (m v : Mask) (L : Lane), ((wv.setPred p m v).pred q).has L
        = if q = 7 then true else if q = p ∧ m.has L = true then v.has L else (wv.pred q).has L)
    ∧ (∀ (s : State) (wv : Wave) (sp : Split) (e : Mask) (p : PNum) (L : Lane),
        (s.special wv sp e (0x40 + p.setWidth 8))[L] = if (wv.pred p).has L then 1 else 0)
    ∧ (∀ (pc : Word) (o : BitVec 24), target pc o = BitVec.ofInt 32 (pc.toNat + 12 + 12 * o.toInt))
    ∧ ∀ (pc : Word) (o : BitVec 20), target pc o = BitVec.ofInt 32 (pc.toNat + 12 + 12 * o.toInt)
end

