-- ==== Sys2Proof/Laws/Encoding.lean ====
section
/-! SUPPORT. Encoding and decoding, field by field: what each field reader finds in a word that the encoder wrote. -/

namespace Sys2Proof

/-- Reading a field out of a word is reading each of its bits. -/
theorem extract_eq {w n : Nat} {x : BitVec w} {y : BitVec n} {k : Nat}
    (h : ∀ i, i < n → x.getLsbD (k + i) = y.getLsbD i) : x.extractLsb' k n = y := by
  apply BitVec.eq_of_getLsbD_eq
  intro i hi
  simp [hi, h i hi]

theorem bit_cat {n m : Nat} (x : BitVec n) (y : BitVec m) (i : Nat) :
    @BitVec.getLsbD (no_index (n + m)) (@HAppend.hAppend (BitVec n) (BitVec m) (no_index (BitVec (n + m))) _ x y) i
      = if i < m then y.getLsbD i else x.getLsbD (i - m) := BitVec.getLsbD_append
theorem field_low {n m : Nat} (x : BitVec n) (y : BitVec m) (k l : Nat) (h : k + l ≤ m) :
    @BitVec.extractLsb' (no_index (n + m)) k l (@HAppend.hAppend (BitVec n) (BitVec m) (no_index (BitVec (n + m))) _ x y)
      = y.extractLsb' k l := by
  apply extract_eq; intro i hi
  simp [bit_cat, show k + i < m by omega, hi]
theorem field_high {n m : Nat} (x : BitVec n) (y : BitVec m) (k l : Nat) (h : m ≤ k) :
    @BitVec.extractLsb' (no_index (n + m)) k l (@HAppend.hAppend (BitVec n) (BitVec m) (no_index (BitVec (n + m))) _ x y)
      = x.extractLsb' (k - m) l := by
  apply extract_eq; intro i hi
  simp [bit_cat, show ¬ k + i < m by omega, hi, show k - m + i = k + i - m by omega]
theorem mask_cat {n m : Nat} (x : BitVec n) (y : BitVec m) (k : BitVec (n + m)) :
    @HAnd.hAnd (BitVec (no_index (n + m))) (BitVec (no_index (n + m))) (BitVec (no_index (n + m))) _
        (@HAppend.hAppend (BitVec n) (BitVec m) (no_index (BitVec (n + m))) _ x y) k = 0
      ↔ x &&& k.extractLsb' m n = 0 ∧ y &&& k.extractLsb' 0 m = 0 := by
  constructor
  · intro h
    have hb : ∀ i, ((x ++ y) &&& k).getLsbD i = false := fun i => by rw [h]; simp
    simp only [BitVec.getLsbD_and, BitVec.getLsbD_append] at hb
    constructor <;> apply BitVec.eq_of_getLsbD_eq <;> intro i hi
    · have := hb (m + i)
      simp [hi] at this ⊢
      simpa [BitVec.getElem_eq_testBit_toNat] using this
    · have := hb i
      simp [hi] at this ⊢
      simpa using this
  · rintro ⟨h1, h2⟩
    have e1 : ∀ i, (x &&& k.extractLsb' m n).getLsbD i = false := fun i => by rw [h1]; simp
    have e2 : ∀ i, (y &&& k.extractLsb' 0 m).getLsbD i = false := fun i => by rw [h2]; simp
    apply BitVec.eq_of_getLsbD_eq
    intro i hi
    simp only [BitVec.getLsbD_and, BitVec.getLsbD_append]
    split
    · rename_i h; simpa [h] using e2 i
    · rename_i h
      have := e1 (i - m)
      have hi' : i < n + m := hi
      have hn : i - m < n := by omega
      simpa [hn, show m + (i - m) = i by omega] using this

theorem mask_lit {n m : Nat} (x : BitVec n) (y : BitVec m) (k : BitVec (n + m)) :
    @HAnd.hAnd (BitVec (no_index (n + m))) (BitVec (no_index (n + m))) (BitVec (no_index (n + m))) _
        (@HAppend.hAppend (BitVec n) (BitVec m) (no_index (BitVec (n + m))) _ x y) k = BitVec.ofNat (no_index (n + m)) 0
      ↔ x &&& k.extractLsb' m n = 0 ∧ y &&& k.extractLsb' 0 m = 0 := mask_cat x y k

/-- The bits above the operand fields, the same in every form. -/
def headBits (opc : BitVec 10) (h : Hdr) : BitVec 22 :=
  opc ++ bit h.neg ++ h.pred ++ bit h.yld ++ bit h.last ++ h.stall ++ bit h.dual ++ (0 : BitVec 2)

theorem formA_bit (opc : BitVec 10) (h : Hdr) (mod : BitVec 14) (d a b : BitVec 20) (i : Nat) :
    (formA opc h mod d a b).getLsbD i = if i < 20 then b.getLsbD i else if i < 40 then a.getLsbD (i - 20)
      else if i < 60 then d.getLsbD (i - 40) else if i < 74 then mod.getLsbD (i - 60) else (headBits opc h).getLsbD (i - 74) := by
  have e : formA opc h mod d a b = headBits opc h ++ mod ++ d ++ a ++ b := rfl
  rw [e]
  show (headBits opc h ++ mod ++ d ++ a ++ b).getLsbD i = _
  simp only [BitVec.getLsbD_append, Nat.sub_sub]
  repeat' split
  all_goals first | rfl | omega

section
variable (opc : BitVec 10) (h : Hdr) (mod : BitVec 14) (d a b : BitVec 20)

@[simp] theorem fB_formA : fB (formA opc h mod d a b) = b := by
  apply extract_eq; intro i hi
  rw [formA_bit, if_pos (by omega)]; simp
@[simp] theorem fA_formA : fA (formA opc h mod d a b) = a := by
  apply extract_eq; intro i hi
  rw [formA_bit, if_neg (by omega), if_pos (by omega)]; simp
@[simp] theorem fD_formA : fD (formA opc h mod d a b) = d := by
  apply extract_eq; intro i hi
  rw [formA_bit, if_neg (by omega), if_neg (by omega), if_pos (by omega)]; simp
@[simp] theorem modOf_formA : modOf (formA opc h mod d a b) = mod := by
  apply extract_eq; intro i hi
  rw [formA_bit, if_neg (by omega), if_neg (by omega), if_neg (by omega), if_pos (by omega)]; simp
/-- A field of MOD. -/
theorem mod_formA (k n : Nat) (hk : 60 ≤ k) (hn : k + n ≤ 74) :
    (formA opc h mod d a b).extractLsb' k n = mod.extractLsb' (k - 60) n := by
  apply extract_eq; intro i hi
  rw [formA_bit, if_neg (by omega), if_neg (by omega), if_neg (by omega), if_pos (by omega)]
  simp [hi, show k - 60 + i = k + i - 60 by omega]
/-- A field above MOD. -/
theorem head_formA (k n : Nat) (hk : 74 ≤ k) :
    (formA opc h mod d a b).extractLsb' k n = (headBits opc h).extractLsb' (k - 74) n := by
  apply extract_eq; intro i hi
  rw [formA_bit, if_neg (by omega), if_neg (by omega), if_neg (by omega), if_neg (by omega)]
  simp [hi, show k - 74 + i = k + i - 74 by omega]
end

theorem head_bit (opc : BitVec 10) (h : Hdr) (i : Nat) : (headBits opc h).getLsbD i =
   if i < 2 then false else if i < 3 then h.dual else if i < 6 then h.stall.getLsbD (i - 3) else if i < 7 then h.last
   else if i < 8 then h.yld else if i < 11 then h.pred.getLsbD (i - 8) else if i < 12 then h.neg else opc.getLsbD (i - 12) := by
  rcases h with ⟨ng, pr, yl, la, stl, du⟩
  show (opc ++ bit ng ++ pr ++ bit yl ++ bit la ++ stl ++ bit du ++ (0 : BitVec 2)).getLsbD i = _
  simp only [BitVec.getLsbD_append, Nat.sub_sub, bit]
  by_cases h12 : i < 12
  · rcases i with _|_|_|_|_|_|_|_|_|_|_|_|i <;> first | omega | simp
  · rw [if_neg (by omega), if_neg (by omega), if_neg (by omega), if_neg (by omega), if_neg (by omega), if_neg (by omega), if_neg (by omega)]
    simp [show ¬ i < 2 by omega, show ¬ i < 3 by omega, show ¬ i < 6 by omega, show ¬ i < 7 by omega, show ¬ i < 8 by omega, show ¬ i < 11 by omega, h12]

section
variable (opc : BitVec 10) (h : Hdr)

theorem head_idx : (headBits opc h).extractLsb' 12 6 = opc.extractLsb' 0 6 := by
  apply extract_eq; intro i hi
  simp only [head_bit]
  simp [hi, show ¬ 12 + i < 2 by omega, show ¬ 12 + i < 3 by omega, show ¬ 12 + i < 6 by omega, show ¬ 12 + i < 7 by omega,
    show ¬ 12 + i < 8 by omega, show ¬ 12 + i < 11 by omega, show ¬ 12 + i < 12 by omega]
theorem head_group : (headBits opc h).extractLsb' 18 4 = opc.extractLsb' 6 4 := by
  apply extract_eq; intro i hi
  simp only [head_bit]
  simp [hi, show ¬ 18 + i < 2 by omega, show ¬ 18 + i < 3 by omega, show ¬ 18 + i < 6 by omega, show ¬ 18 + i < 7 by omega,
    show ¬ 18 + i < 8 by omega, show ¬ 18 + i < 11 by omega, show ¬ 18 + i < 12 by omega, show 18 + i - 12 = 6 + i by omega]
theorem head_opc : (headBits opc h).extractLsb' 12 10 = opc := by
  apply extract_eq; intro i hi
  simp only [head_bit]
  simp [hi, show ¬ 12 + i < 2 by omega, show ¬ 12 + i < 3 by omega, show ¬ 12 + i < 6 by omega, show ¬ 12 + i < 7 by omega,
    show ¬ 12 + i < 8 by omega, show ¬ 12 + i < 11 by omega, show ¬ 12 + i < 12 by omega]
theorem head_res : (headBits opc h).extractLsb' 0 2 = 0 := by
  apply extract_eq; intro i hi
  simp [head_bit, hi]
theorem head_stall : (headBits opc h).extractLsb' 3 3 = h.stall := by
  apply extract_eq; intro i hi
  simp only [head_bit]
  rcases i with _ | _ | _ | i <;> first | omega | simp
theorem head_pred : (headBits opc h).extractLsb' 8 3 = h.pred := by
  apply extract_eq; intro i hi
  simp only [head_bit]
  rcases i with _ | _ | _ | i <;> first | omega | simp

variable (mod : BitVec 14) (d a b : BitVec 20)

@[simp] theorem hdrOf_formA : hdrOf (formA opc h mod d a b) = h := by
  rcases h with ⟨ng, pr, yl, la, stl, du⟩
  simp only [hdrOf, formA_bit, head_bit, head_formA opc _ mod d a b 82 3 (by omega), head_formA opc _ mod d a b 77 3 (by omega)]
  simp [head_stall, head_pred]
@[simp] theorem opcOf_formA : opcOf (formA opc h mod d a b) = opc := by
  rw [opcOf, head_formA _ _ _ _ _ _ _ _ (by omega)]; exact head_opc opc h

end

/-- The decoder of group `g`. -/
def byGroup (w : IWord) (i : Nat) : Nat → Parsed Instr
  | 0 => decode0 w i
  | 1 => decode1 w i
  | 2 => decode2 w i
  | 3 => decode3 w i
  | 4 => decode4 w i
  | 5 => decode5 w i
  | 6 => decode6 w i
  | 7 => decode7 w i
  | 8 => decode8 w i
  | 9 => decode9 w i
  | 10 => decodeA w i
  | 11 => decodeB w i
  | 12 => decodeC w i
  | 13 => decodeD w i
  | _ => unassignedWord w

/-- A word of any form decodes to what its group's decoder finds when nothing is amiss. -/
theorem decode_formA {opc : BitVec 10} {h : Hdr} {mod : BitVec 14} {d a b : BitVec 20} {i : Instr} (idx g : Nat)
    (hi : (opc.extractLsb' 0 6).toNat = idx) (hg : (opc.extractLsb' 6 4).toNat = g) (ha : assigned opc = true)
    (wf : WellFormed i) (hp : byGroup (formA opc h mod d a b) idx g = ⟨i, []⟩) :
    decode (formA opc h mod d a b) = .ok i := by
  have e : parse (formA opc h mod d a b) = ⟨i, []⟩ := by
    rw [← hp, ← hi, ← hg]
    show byGroup _ _ _ = _
    rw [head_formA _ _ _ _ _ _ _ _ (by omega), head_formA _ _ _ _ _ _ _ _ (by omega)]
    rw [head_idx, head_group]
  have z : (formA opc h mod d a b).extractLsb' 74 2 = 0 := by
    rw [head_formA _ _ _ _ _ _ _ _ (by omega)]; exact head_res opc h
  simp [decode, ha, e, z, mbz, show i.faults = [] from wf]

/-! ## Forms J and C as form A -/

theorem formJ_eq (opc : BitVec 10) (h : Hdr) (mod : BitVec 14) (d : BitVec 20) (imm : Word) (src : VNum) :
    formJ opc h mod d imm src = formA opc h mod d (imm.extractLsb' 12 20) (imm.extractLsb' 0 12 ++ src) := by
  apply BitVec.eq_of_getLsbD_eq
  intro i hi
  rw [formA_bit]
  show (headBits opc h ++ mod ++ d ++ imm ++ src).getLsbD i = _
  simp only [bit_cat]
  by_cases h8 : i < 8
  · simp [h8, show i < 20 by omega]
  by_cases h20 : i < 20
  · simp [h8, h20, show i - 8 < 32 by omega, show i - 8 < 12 by omega]
  by_cases h40 : i < 40
  · simp [h8, h20, h40, show i - 8 < 32 by omega, show i - 20 < 20 by omega, show 12 + (i - 20) = i - 8 by omega]
  rw [if_neg h8, if_neg (by omega), if_neg h20, if_neg h40]
  repeat' split
  all_goals first | rfl | omega

theorem formC_eq (opc : BitVec 10) (h : Hdr) (mod : BitVec 14) (sig : BitVec 16) (t : BitVec 24) (b : BitVec 20) :
    formC opc h mod sig t b = formA opc h mod (sig ++ t.extractLsb' 20 4) (t.extractLsb' 0 20) b := by
  apply BitVec.eq_of_getLsbD_eq
  intro i hi
  rw [formA_bit]
  show (headBits opc h ++ mod ++ sig ++ t ++ b).getLsbD i = _
  simp only [bit_cat]
  by_cases h20 : i < 20
  · simp [h20]
  by_cases h40 : i < 40
  · simp [h20, h40, show i - 20 < 24 by omega, show i - 20 < 20 by omega]
  by_cases h44 : i < 44
  · simp [h20, h40, show i - 20 < 24 by omega, show i < 60 by omega, show i - 40 < 4 by omega,
      show 20 + (i - 40) = i - 20 by omega]
  rw [if_neg h20, if_neg (by omega), if_neg h20, if_neg h40]
  simp only [show ¬ i - 40 < 4 by omega, if_false]
  repeat' split
  all_goals first | rfl | omega

section
variable (opc : BitVec 10) (h : Hdr) (mod : BitVec 14) (d : BitVec 20) (imm : Word) (src : VNum)

theorem fImm32_formJ : fImm32 (formJ opc h mod d imm src) = imm := by
  apply extract_eq; intro i hi
  show (headBits opc h ++ mod ++ d ++ imm ++ src).getLsbD (8 + i) = _
  simp only [bit_cat]
  simp [hi]
theorem fSrc_formJ : fSrc (formJ opc h mod d imm src) = src := by
  apply extract_eq; intro i hi
  show (headBits opc h ++ mod ++ d ++ imm ++ src).getLsbD (0 + i) = _
  simp only [bit_cat]
  simp [hi]

variable (sig : BitVec 16) (t : BitVec 24) (b : BitVec 20)

theorem fSig_formC : fSig (formC opc h mod sig t b) = sig := by
  apply extract_eq; intro i hi
  show (headBits opc h ++ mod ++ sig ++ t ++ b).getLsbD (44 + i) = _
  simp only [bit_cat]
  simp [hi, show ¬ 44 + i < 20 by omega, show ¬ 44 + i - 20 < 24 by omega, show 44 + i - 20 - 24 = i by omega]
theorem fTofs_formC : fTofs (formC opc h mod sig t b) = t := by
  apply extract_eq; intro i hi
  show (headBits opc h ++ mod ++ sig ++ t ++ b).getLsbD (20 + i) = _
  simp only [bit_cat]
  simp [hi]
theorem fB_formC : fB (formC opc h mod sig t b) = b := by rw [formC_eq, fB_formA]

end

/-! ## Field readers -/

theorem field_self {n : Nat} (x : BitVec n) : x.extractLsb' 0 n = x := by
  apply extract_eq; intro i hi; simp

@[simp] theorem iTypeOf_code (t : IType) : iTypeOf t.code = ⟨t, []⟩ := by cases t <;> rfl
@[simp] theorem eTypeOf_code (t : EType) : eTypeOf t.code = ⟨t, []⟩ := by cases t <;> rfl
theorem shortOf_enc (t : EType) (h : t.short = true) : shortOf (encShort t) = ⟨t, []⟩ := by
  cases t <;> first | rfl | simp [EType.short] at h
@[simp] theorem rndOf_enc (r : Rnd) : rndOf (encRnd r) = ⟨r, []⟩ := by cases r <;> rfl
@[simp] theorem scopeOf_enc (r : Scope) : scopeOf (encScope r) = ⟨r, []⟩ := by cases r <;> rfl
@[simp] theorem orderOf_enc (r : Order) : orderOf (encOrder r) = ⟨r, []⟩ := by cases r <;> rfl
@[simp] theorem orderFor_enc (s : Scope) (r : Order) : orderFor s (encOrder r) = ⟨r, []⟩ := by cases r <;> rfl
@[simp] theorem widthOf_enc (r : MWidth) : widthOf (encWidth r) = ⟨r, []⟩ := by cases r <;> rfl
@[simp] theorem cacheOf_enc (r : Cache) : cacheOf (encCache r) = r := by cases r <;> rfl
@[simp] theorem spaceOf_enc (r : Space) : spaceOf (encSpace r) = ⟨r, []⟩ := by cases r <;> rfl
@[simp] theorem eltWOfCode_enc (r : EltW) : eltWOfCode (encEltW r) = r := by cases r <;> rfl
@[simp] theorem stepOf_enc (r : StepMode) : stepOf (encStep r) = ⟨r, []⟩ := by cases r <;> rfl
@[simp] theorem redOpOf_enc (r : RedOp) : redOpOf (encRedOp r) = ⟨r, []⟩ := by cases r <;> rfl
@[simp] theorem accTyOf_enc (r : AccTy) : accTyOf (encAccTy r) = ⟨r, []⟩ := by cases r <;> rfl
@[simp] theorem joinOf_enc (r : JoinOp) : joinOf (encJoin r) = r := by cases r <;> rfl

@[simp] theorem mbz_zero {n : Nat} (c : Cause) : mbz 0#n c = [] := by simp [mbz]

theorem patOf_enc (p : Pat) : patOf ((encPat p).extractLsb' 5 3) ((encPat p).extractLsb' 0 5) = ⟨p, []⟩ := by
  cases p <;> simp (disch := omega) [encPat, field_low, field_high, patOf]

theorem srcOfBits_enc (pl : Bool) (s : Src) (h : pl = true → plainPat s = []) : srcOfBits pl (encSrc s) = ⟨s, []⟩ := by
  cases s with
  | reg r p fe =>
    have e := patOf_enc p
    cases pl with
    | false =>
      simp (disch := omega) only [srcOfBits, encSrc, field_low, field_high, field_self, bit_cat]
      simp (disch := omega) [bit] at e ⊢
      simp [e]
    | true =>
      have hp : p = .ident := by
        have := h rfl
        simp only [plainPat] at this
        split at this
        · assumption
        · cases this
      subst hp
      simp (disch := omega) only [srcOfBits, encSrc, field_low, field_high, field_self, bit_cat]
      simp [bit, encPat, encEltW, Pat.ident]
  | ind x o st fe =>
    simp (disch := omega) only [srcOfBits, encSrc, field_low, field_high, field_self, bit_cat]
    simp (disch := omega) [bit]
  | spec n =>
    simp (disch := omega) only [srcOfBits, encSrc, field_low, field_high, field_self, bit_cat]
    simp
  | imm v =>
    simp (disch := omega) only [srcOfBits, encSrc, field_low, field_high, field_self, bit_cat]
    simp

@[simp] theorem srcOf_enc (s : Src) : srcOf (encSrc s) = ⟨s, []⟩ := srcOfBits_enc false s (by simp)

theorem srcOfPlain_enc {c : Classes} {k : OpKind} (s : Src) (h : srcPlain c k s = []) :
    srcOfBits true (encSrc s) = ⟨s, []⟩ := by
  apply srcOfBits_enc
  intro _
  cases s with
  | reg r p fe =>
    simp only [srcPlain] at h
    split at h
    · exact (List.append_eq_nil_iff.mp h).1
    · cases h
  | ind _ _ _ _ => rfl
  | spec _ => rfl
  | imm _ => rfl

@[simp] theorem dstOf_enc (d : Dst) : dstOf (encDst d) = ⟨d, []⟩ := by
  cases d with
  | reg r w i =>
    simp (disch := omega) only [dstOf, encDst, field_low, field_high, field_self]
    simp
  | ind x o s =>
    simp (disch := omega) only [dstOf, encDst, field_low, field_high, field_self]
    simp

@[simp] theorem plainOf_enc (p : Plain) : plainOf (encPlain p) = ⟨p, []⟩ := by
  simp (disch := omega) only [plainOf, encPlain, field_low, field_high, field_self, bit_cat]
  simp [bit]

@[simp] theorem predOf_enc (p : PNum) : predOf (encPred p) = ⟨p, []⟩ := by
  simp (disch := omega) only [predOf, encPred, field_low, field_high, field_self]
  simp

@[simp] theorem numOf_enc (n : BitVec 8) : numOf (encNum n) = ⟨n, []⟩ := by
  simp (disch := omega) only [numOf, encNum, field_low, field_high, field_self]
  simp

@[simp] theorem swrOf_enc (r : SwrReg) : swrOf (encSwr r) = ⟨r, []⟩ := by cases r <;> simp [swrOf, encSwr]

@[simp] theorem immB_enc (v : BitVec 18) : immB (encImm v) = ⟨v, []⟩ := by
  simp (disch := omega) only [immB, encImm, field_low, field_high, field_self]
  simp

@[simp] theorem unused_zero : unused 0#20 = [] := by simp [unused]

theorem atomOpOf_enc (wd : MWidth) (o : AtomOp) :
    atomOpOf wd ((encAtomOp o).extractLsb' 4 4) ((encAtomOp o).extractLsb' 0 4) = ⟨o, []⟩ := by
  cases o with
  | int op t => cases op <;> cases t <;> rfl
  | fp op t => cases op <;> cases t <;> rfl

theorem atomOffOf_enc (m : Space) (o : AtomOff) (h : atomOffFaults m o = []) : atomOffOf m (encAtomOff o) = ⟨o, []⟩ := by
  cases o with
  | ofs o => cases m <;> first | rfl | simp [atomOffFaults, need] at h
  | handle r =>
    cases m
    · simp [atomOffFaults, need] at h
    all_goals
      simp (disch := omega) only [atomOffOf, encAtomOff, field_low, field_high, field_self]
      simp

theorem cvtTyOf_enc (d t : CvtTy) : cvtTyOf d ((encCvtTy t).1.getLsbD 0) (encCvtTy t).2 = ⟨t, []⟩ := by
  cases t <;> simp [cvtTyOf, encCvtTy]

theorem encRnd_dyn : encRnd .dyn = 0 := rfl

theorem need_nil (b : Bool) (c : Cause) : need b c = [] ↔ b = true := by cases b <;> simp [need]

theorem mbz_nil {n : Nat} (x : BitVec n) (c : Cause) : mbz x c = [] ↔ x = 0 := by
  simp [mbz]

theorem mBit_formA (opc : BitVec 10) (h : Hdr) (mod : BitVec 14) (d a b : BitVec 20) (k : Nat) (h1 : 60 ≤ k) (h2 : k < 74) :
    mBit (formA opc h mod d a b) k = mod.getLsbD (k - 60) := by
  rw [mBit, formA_bit, if_neg (by omega), if_neg (by omega), if_neg (by omega), if_pos h2]

theorem bit_bit (b : Bool) (i : Nat) : (bit b).getLsbD i = (decide (i = 0) && b) := by
  simp [bit, BitVec.getLsbD_ofBool]

/-! ## The other two forms -/

section
variable (opc : BitVec 10) (h : Hdr) (mod : BitVec 14) (d : BitVec 20) (imm : Word) (src : VNum)

theorem hdrOf_formJ : hdrOf (formJ opc h mod d imm src) = h := by rw [formJ_eq, hdrOf_formA]
theorem modOf_formJ : modOf (formJ opc h mod d imm src) = mod := by rw [formJ_eq, modOf_formA]
theorem mod_formJ (k n : Nat) (hk : 60 ≤ k) (hn : k + n ≤ 74) :
    (formJ opc h mod d imm src).extractLsb' k n = mod.extractLsb' (k - 60) n := by rw [formJ_eq, mod_formA _ _ _ _ _ _ _ _ hk hn]
theorem mBit_formJ (k : Nat) (h1 : 60 ≤ k) (h2 : k < 74) : mBit (formJ opc h mod d imm src) k = mod.getLsbD (k - 60) := by
  rw [formJ_eq, mBit_formA _ _ _ _ _ _ _ h1 h2]
theorem fD_formJ : fD (formJ opc h mod d imm src) = d := by rw [formJ_eq, fD_formA]

end

theorem decode_formJ {opc : BitVec 10} {h : Hdr} {mod : BitVec 14} {d : BitVec 20} {imm : Word} {src : VNum} {i : Instr} (idx g : Nat)
    (hi : (opc.extractLsb' 0 6).toNat = idx) (hg : (opc.extractLsb' 6 4).toNat = g) (ha : assigned opc = true)
    (wf : WellFormed i) (hp : byGroup (formJ opc h mod d imm src) idx g = ⟨i, []⟩) : decode (formJ opc h mod d imm src) = .ok i := by
  rw [formJ_eq] at hp ⊢
  exact decode_formA idx g hi hg ha wf hp

section
variable (opc : BitVec 10) (h : Hdr) (mod : BitVec 14) (sig : BitVec 16) (t : BitVec 24) (b : BitVec 20)

theorem hdrOf_formC : hdrOf (formC opc h mod sig t b) = h := by rw [formC_eq, hdrOf_formA]
theorem modOf_formC : modOf (formC opc h mod sig t b) = mod := by rw [formC_eq, modOf_formA]
theorem mod_formC (k n : Nat) (hk : 60 ≤ k) (hn : k + n ≤ 74) :
    (formC opc h mod sig t b).extractLsb' k n = mod.extractLsb' (k - 60) n := by rw [formC_eq, mod_formA _ _ _ _ _ _ _ _ hk hn]
theorem mBit_formC (k : Nat) (h1 : 60 ≤ k) (h2 : k < 74) : mBit (formC opc h mod sig t b) k = mod.getLsbD (k - 60) := by
  rw [formC_eq, mBit_formA _ _ _ _ _ _ _ h1 h2]

end

theorem decode_formC {opc : BitVec 10} {h : Hdr} {mod : BitVec 14} {sig : BitVec 16} {t : BitVec 24} {b : BitVec 20} {i : Instr} (idx g : Nat)
    (hi : (opc.extractLsb' 0 6).toNat = idx) (hg : (opc.extractLsb' 6 4).toNat = g) (ha : assigned opc = true)
    (wf : WellFormed i) (hp : byGroup (formC opc h mod sig t b) idx g = ⟨i, []⟩) : decode (formC opc h mod sig t b) = .ok i := by
  rw [formC_eq] at hp ⊢
  exact decode_formA idx g hi hg ha wf hp

/-! ## Unassigned opcodes -/

theorem byGroup_unassigned (w : IWord) (i g : Nat) (hg : g < 16) (hi : i < 64) (h : ¬ i < groupSize g) :
    byGroup w i g = unassignedWord w := by
  have hs : ∀ n, i = n → ¬ n < groupSize g := fun n e => e ▸ h
  rcases g with _ | _ | _ | _ | _ | _ | _ | _ | _ | _ | _ | _ | _ | _ | g
  all_goals simp only [byGroup]
  all_goals simp only [groupSize] at h
  · unfold decode0; split <;> first | rfl | omega
  · unfold decode1; split <;> first | rfl | omega
  · unfold decode2; split <;> first | rfl | omega
  · unfold decode3; split <;> first | rfl | omega
  · unfold decode4; split <;> first | rfl | omega
  · unfold decode5; split <;> first | rfl | omega
  · unfold decode6; split <;> first | rfl | omega
  · unfold decode7; split <;> first | rfl | omega
  · unfold decode8; split <;> first | rfl | omega
  · unfold decode9; split <;> first | rfl | omega
  · unfold decodeA; split <;> first | rfl | omega
  · unfold decodeB; split <;> first | rfl | omega
  · unfold decodeC; split <;> first | rfl | omega
  · unfold decodeD; split <;> first | rfl | omega

theorem decode_unassigned (w0 w1 w2 : Word) (wf : WellFormed (.unassignedOpcode w0 w1 w2)) :
    decode (w2 ++ w1 ++ w0) = .ok (.unassignedOpcode w0 w1 w2) := by
  have ho : opcOf (w2 ++ w1 ++ w0) = w2.extractLsb' 22 10 := by
    simp (disch := omega) only [opcOf, field_high, Nat.reduceSub]
  have ha : assigned (opcOf (w2 ++ w1 ++ w0)) = false := by
    rw [ho]; simpa [WellFormed, Instr.faults, need] using wf
  have hu : unassignedWord (w2 ++ w1 ++ w0) = ⟨.unassignedOpcode w0 w1 w2, []⟩ := by
    simp (disch := omega) only [unassignedWord, field_low, field_high, Nat.reduceSub, field_self]
  have hp : parse (w2 ++ w1 ++ w0) = unassignedWord (w2 ++ w1 ++ w0) := by
    show byGroup _ _ _ = _
    apply byGroup_unassigned
    · exact BitVec.isLt _
    · exact BitVec.isLt _
    · simp only [assigned, opcOf] at ha
      have e1 : (BitVec.extractLsb' 86 6 (w2 ++ w1 ++ w0)).toNat = (BitVec.extractLsb' 86 10 (w2 ++ w1 ++ w0)).toNat % 64 := by
        simp only [BitVec.extractLsb'_toNat]; omega
      have e2 : (BitVec.extractLsb' 92 4 (w2 ++ w1 ++ w0)).toNat = (BitVec.extractLsb' 86 10 (w2 ++ w1 ++ w0)).toNat / 64 := by
        simp only [BitVec.extractLsb'_toNat, Nat.shiftRight_eq_div_pow]; omega
      rw [e1, e2]; exact of_decide_eq_false ha
  unfold decode
  rw [ha, hp, hu]
  rfl

end Sys2Proof
end

