-- ==== Sys2Proof/Laws/Registers.lean ====
section
/-! SUPPORT. Masks, keyed lists, and a wave's registers and predicates after a write: what is read back, and that nothing else
has changed. -/

namespace Sys2Proof.Machine

/-! ## Masks -/

@[simp] theorem Mask.mem_lanes {m : Mask} {L : Lane} : L ∈ Mask.lanes m ↔ m.has L = true := by
  simp [Mask.lanes, Mask.has, Sys2Proof.lanes]

theorem Mask.lanes_zero : Mask.lanes 0 = [] := by
  simp [Mask.lanes]

@[simp] theorem Mask.has_zero (L : Lane) : Mask.has 0 L = false := by simp [Mask.has]

@[simp] theorem Mask.has_and (a b : Mask) (L : Lane) : Mask.has (a &&& b) L = (a.has L && b.has L) := by simp [Mask.has]

@[simp] theorem Mask.has_or (a b : Mask) (L : Lane) : Mask.has (a ||| b) L = (a.has L || b.has L) := by simp [Mask.has]

@[simp] theorem Mask.has_not (a : Mask) (L : Lane) : Mask.has (~~~a) L = !a.has L := by
  simp [Mask.has]

@[simp] theorem Mask.and_not_zero (m : Mask) : m &&& ~~~(0 : Mask) = m := by
  have h : ~~~(0 : Mask) = BitVec.allOnes 32 := by decide
  rw [h, BitVec.and_allOnes]

theorem Mask.eq_of_has {a b : Mask} (h : ∀ L : Lane, a.has L = b.has L) : a = b := by
  apply BitVec.eq_of_getLsbD_eq; intro i hi; exact h ⟨i, hi⟩

theorem Mask.ne_zero_of_has {a : Mask} {L : Lane} (h : a.has L = true) : a ≠ 0 := by
  intro h0; simp [h0, Mask.has] at h

@[simp] theorem perLane_getN {α : Type} (f : Lane → α) (i : Nat) (h : i < 32) : (perLane f)[i] = f ⟨i, h⟩ := by
  simp [perLane]

@[simp] theorem splat_getN {α : Type} (x : α) (i : Nat) (h : i < 32) : (splat x)[i] = x := by simp [splat]

@[simp] theorem perLane_get {α : Type} (f : Lane → α) (L : Lane) : (perLane f)[L] = f L := by
  simp [perLane]

@[simp] theorem splat_get {α : Type} (x : α) (L : Lane) : (splat x)[L] = x := by simp [splat]

/-! ## Keyed lists and folds -/

theorem lookupN_insertN_self {α : Type} (k : Nat) (v : α) (l : List (Nat × α)) : lookupN k (insertN k v l) = some v := by
  induction l with
  | nil => simp [insertN, lookupN]
  | cons c r ih =>
    obtain ⟨j, x⟩ := c
    unfold insertN
    split
    · simp [lookupN]
    · split
      · simp [lookupN]
      · rename_i h1 h2
        simp [lookupN, Ne.symm h2, ih]

theorem lookupN_insertN_ne {α : Type} {k j : Nat} (h : j ≠ k) (v : α) (l : List (Nat × α)) :
    lookupN j (insertN k v l) = lookupN j l := by
  induction l with
  | nil => simp [insertN, lookupN, Ne.symm h]
  | cons c r ih =>
    obtain ⟨i, x⟩ := c
    unfold insertN
    split
    · simp [lookupN, Ne.symm h]
    · split
      · rename_i h1 h2; subst h2; simp [lookupN, Ne.symm h]
      · simp [lookupN, ih]

theorem foldl_keeps {α β : Type} (P : β → Prop) (f : β → α → β) (h : ∀ b a, P b → P (f b a)) (l : List α) (b : β) (hb : P b) :
    P (l.foldl f b) := by
  induction l generalizing b with
  | nil => exact hb
  | cons a r ih => exact ih _ (h b a hb)

/-! ## Registers -/

theorem Wave.reg_setReg_self (wv : Wave) (r : Nat) (v : VReg) : (wv.setReg r v).reg r = v := by
  simp [Wave.setReg, Wave.reg, lookupN_insertN_self]

theorem Wave.reg_setReg_ne (wv : Wave) {r q : Nat} (h : q ≠ r) (v : VReg) : (wv.setReg r v).reg q = wv.reg q := by
  simp [Wave.setReg, Wave.reg, lookupN_insertN_ne h]
  rfl

/-- A value read from `n` registers written whole. -/
theorem Wave.writeWhole_val (wv : Wave) (r : Nat) (m : Mask) (val : Lanes (BitVec 128)) (p : Lanes Poison) (tag : Tag) (n q : Nat)
    (L : Lane) : ((Wave.writeWhole wv r m val p tag n).reg q).val[L]
      = if r ≤ q ∧ q < r + n ∧ m.has L = true then wordOf val[L] (q - r) else (wv.reg q).val[L] := by
  induction n with
  | zero => simp [Wave.writeWhole]; omega
  | succ n ih =>
    unfold Wave.writeWhole
    by_cases hq : q = r + n
    · subst hq
      simp [Wave.reg_setReg_self]
    · simp only [Wave.reg_setReg_ne _ hq, ih]
      have : (r ≤ q ∧ q < r + n ∧ m.has L = true) ↔ (r ≤ q ∧ q < r + (n + 1) ∧ m.has L = true) := by
        constructor <;> rintro ⟨h1, h2, h3⟩ <;> exact ⟨h1, by omega, h3⟩
      simp only [this]

/-- A value read from `n` registers of which one lane has been written. -/
theorem Wave.writeLane_val (wv : Wave) (r : Nat) (K : Lane) (v : BitVec 128) (p : Poison) (n q : Nat) (L : Lane) :
    ((Wave.writeLane wv r K v p n).reg q).val[L]
      = if r ≤ q ∧ q < r + n ∧ K = L then wordOf v (q - r) else (wv.reg q).val[L] := by
  induction n with
  | zero => simp [Wave.writeLane]; omega
  | succ n ih =>
    unfold Wave.writeLane
    by_cases hq : q = r + n
    · subst hq
      simp only [Wave.reg_setReg_self]
      by_cases hK : K = L
      · subst hK; simp
      · have h2 : K.val ≠ L.val := fun h => hK (Fin.ext h)
        simp only [hK, and_false, if_false] at ih ⊢
        rw [← ih]
        simp [h2]
    · simp only [Wave.reg_setReg_ne _ hq, ih]
      have : (r ≤ q ∧ q < r + n ∧ K = L) ↔ (r ≤ q ∧ q < r + (n + 1) ∧ K = L) := by
        constructor <;> rintro ⟨h1, h2, h3⟩ <;> exact ⟨h1, by omega, h3⟩
      simp only [this]

/-- What a write leaves of a wave besides its registers. -/
def Wave.SameButRegs (a b : Wave) : Prop := ∃ rs, b = { a with regs := rs }

theorem Wave.SameButRegs.refl (a : Wave) : Wave.SameButRegs a a := ⟨a.regs, rfl⟩

theorem Wave.SameButRegs.trans {a b c : Wave} (h1 : Wave.SameButRegs a b) (h2 : Wave.SameButRegs b c) : Wave.SameButRegs a c := by
  obtain ⟨_, rfl⟩ := h1
  obtain ⟨_, rfl⟩ := h2
  exact ⟨_, rfl⟩

theorem Wave.SameButRegs.setReg (a : Wave) (r : Nat) (v : VReg) : Wave.SameButRegs a (a.setReg r v) := ⟨_, rfl⟩

theorem Wave.writeWhole_same (wv : Wave) (r : Nat) (m : Mask) (val : Lanes (BitVec 128)) (p : Lanes Poison) (tag : Tag) (n : Nat) :
    Wave.SameButRegs wv (Wave.writeWhole wv r m val p tag n) := by
  induction n with
  | zero => exact .refl _
  | succ n ih => exact ih.trans (.setReg _ _ _)

theorem Wave.writeLane_same (wv : Wave) (r : Nat) (K : Lane) (v : BitVec 128) (p : Poison) (n : Nat) :
    Wave.SameButRegs wv (Wave.writeLane wv r K v p n) := by
  induction n with
  | zero => exact .refl _
  | succ n ih => exact ih.trans (.setReg _ _ _)

theorem Wave.writeD_same (wv : Wave) (d : RDst) (m : Mask) (val : Lanes (BitVec 128)) (p : Lanes Poison) (tag : Tag) :
    Wave.SameButRegs wv (wv.writeD d m val p tag) := by
  unfold Wave.writeD
  split
  · exact .refl _
  · split
    · exact foldl_keeps (fun w => Wave.SameButRegs wv w) _ (fun w L h => h.trans (Wave.writeLane_same _ _ _ _ _ _)) _ _ (.refl _)
    · split
      · exact .setReg _ _ _
      · exact Wave.writeWhole_same _ _ _ _ _ _ _

/-- One lane of several written through an index register, each lane in its own registers. -/
theorem Wave.writeLanes_val (er : Lanes Byte) (val : Lanes (BitVec 128)) (p : Lanes Poison) (n q : Nat) (L : Lane) (l : List Lane)
    (hl : l.Nodup) (wv : Wave) :
    ((l.foldl (fun w K => w.writeLane er[K].toNat K val[K] p[K] n) wv).reg q).val[L]
      = if er[L].toNat ≤ q ∧ q < er[L].toNat + n ∧ L ∈ l then wordOf val[L] (q - er[L].toNat) else (wv.reg q).val[L] := by
  induction l generalizing wv with
  | nil => simp
  | cons K r ih =>
    rw [List.nodup_cons] at hl
    simp only [List.foldl_cons, ih hl.2, Wave.writeLane_val, List.mem_cons]
    by_cases hK : L = K
    · subst hK
      simp [hl.1]
    · simp [hK, Ne.symm hK]

theorem Mask.lanes_nodup (m : Mask) : (Mask.lanes m).Nodup := by
  unfold Mask.lanes Sys2Proof.lanes
  exact List.Pairwise.filter _ (List.nodup_finRange 32)

end Sys2Proof.Machine
end

