-- ==== Sys2Proof/Laws/Splits.lean ====
section
/-! SUPPORT. The split table: reading a slot after it has been changed, no mismatch without checking, unparking leaves a
running split alone. -/

namespace Sys2Proof.Machine

theorem SplitTable.split?_setSplit (t : SplitTable) {k : Nat} (hk : k < 4) (v : Option Split) :
    (t.setSplit k v).split? k = v := by
  simp [SplitTable.setSplit, SplitTable.split?, hk]

theorem SplitTable.split?_setSplit_ne (t : SplitTable) {k j : Nat} (hj : j < 4) (h : k ≠ j) (v : Option Split) :
    (t.setSplit k v).split? j = t.split? j := by
  unfold SplitTable.setSplit SplitTable.split?
  simp only [hj, if_true]
  split
  · simp [h]
  · rfl

theorem SplitTable.checkMerge_unchecked (n : Nat) (t : SplitTable) (k : Nat) (gone : Mask) :
    (SplitTable.checkMerge n t k gone false).2 = [] := by
  induction n generalizing t k with
  | zero => rfl
  | succ n ih =>
    unfold SplitTable.checkMerge
    split
    · rfl
    · split
      · rfl
      · dsimp only
        split
        · rfl
        · simp only [Bool.false_and, Bool.false_eq_true, if_false]
          split
          · split
            · rfl
            · exact ih _ _
          · split <;> rfl

theorem SplitTable.maybeArrive_unchecked (t : SplitTable) (k : Nat) (gone : Mask) : (t.maybeArrive k gone false).2 = [] := by
  unfold SplitTable.maybeArrive
  split
  · rfl
  · split
    · unfold SplitTable.arrive
      split
      · rfl
      · split
        · rfl
        · exact SplitTable.checkMerge_unchecked _ _ _ _
    · rfl

theorem lowestFree_spec {α : Type} {n : Nat} {v : Vector (Option α) n} {i : Nat} (h : lowestFree v = some i) :
    ∃ hi : i < n, v[i] = none := by
  unfold lowestFree at h
  rw [Option.map_eq_some_iff] at h
  obtain ⟨j, hj, rfl⟩ := h
  have := List.find?_some hj
  exact ⟨j.isLt, by simpa using this⟩

theorem SplitTable.unpark_split (n : Nat) (t : SplitTable) {k : Nat} (hk : k < 4) (h : (t.split? k).isSome = true) :
    (SplitTable.unpark n t).split? k = t.split? k := by
  induction n generalizing t with
  | zero => rfl
  | succ n ih =>
    unfold SplitTable.unpark
    split
    · rename_i i j hi hj
      obtain ⟨hi4, hin⟩ := lowestFree_spec hi
      have hne : i ≠ k := by
        rintro rfl
        simp [SplitTable.split?, hk, hin] at h
      have h1 : ((t.setSplit i (t.split? (j + 4))).setSplit (j + 4) none).split? k = t.split? k := by
        rw [SplitTable.split?_setSplit_ne _ hk (by omega), SplitTable.split?_setSplit_ne _ hk hne]
      rw [ih _ (by rw [h1]; exact h), h1]
    · rfl

/-- A split that goes on to a place other than its reconvergence point stands there; and no mismatch arises unless it reaches
that point under checking (R211, R214). -/
theorem SplitTable.moveTo_quiet {t : SplitTable} {k : Nat} {sp : Split} {pc : Word} {gone : Mask} {chk : Bool} (hk : k < 4)
    (h : t.split? k = some sp) (hq : pc ≠ sp.rpc ∨ chk = false) : (t.moveTo k pc gone chk).2 = [] := by
  unfold SplitTable.moveTo
  rw [h]
  dsimp only
  rcases hq with hq | rfl
  · simp [SplitTable.maybeArrive, SplitTable.split?_setSplit _ hk, hq]
  · exact SplitTable.maybeArrive_unchecked _ _ _

theorem SplitTable.moveTo_goesOn {t : SplitTable} {k : Nat} {sp : Split} {pc : Word} {gone : Mask} {chk : Bool} (hk : k < 4)
    (h : t.split? k = some sp) (hq : pc ≠ sp.rpc) :
    (t.moveTo k pc gone chk).1.split? k = some { sp with pc := pc } := by
  unfold SplitTable.moveTo
  rw [h]
  dsimp only
  have h1 : (t.setSplit k (some { sp with pc := pc })).split? k = some { sp with pc := pc } :=
    SplitTable.split?_setSplit _ hk _
  have h2 : (t.setSplit k (some { sp with pc := pc })).maybeArrive k gone chk
      = (t.setSplit k (some { sp with pc := pc }), []) := by
    simp [SplitTable.maybeArrive, h1, hq]
  rw [h2]
  dsimp only
  rw [SplitTable.unpark_split _ _ hk (by rw [h1]; rfl), h1]

end Sys2Proof.Machine
end

