-- ==== Sys2Proof/Laws/State.lean ====
section
/-! SUPPORT. One lemma per field and update of the state and of a wave, true by rfl, so that no later proof unfolds a record
update; reading a wave, a core or a register after it has been changed. -/

namespace Sys2Proof.Machine

/-! ## State.withWave -/

@[simp] theorem State.withWave_inbox (s : State) (w : Nat) (f : Wave → Wave) : (s.withWave w f).inbox = s.inbox := rfl
@[simp] theorem State.withWave_devTurn (s : State) (w : Nat) (f : Wave → Wave) : (s.withWave w f).devTurn = s.devTurn := rfl
@[simp] theorem State.withWave_order (s : State) (w : Nat) (f : Wave → Wave) : (s.withWave w f).order = s.order := rfl
@[simp] theorem State.withWave_cur (s : State) (w : Nat) (f : Wave → Wave) : (s.withWave w f).cur = s.cur := rfl
@[simp] theorem State.withWave_fresh (s : State) (w : Nat) (f : Wave → Wave) : (s.withWave w f).fresh = s.fresh := rfl
@[simp] theorem State.withWave_residue (s : State) (w : Nat) (f : Wave → Wave) : (s.withWave w f).residue = s.residue := rfl
@[simp] theorem State.withWave_hostData (s : State) (w : Nat) (f : Wave → Wave) : (s.withWave w f).hostData = s.hostData := rfl
@[simp] theorem State.withWave_dbgPending (s : State) (w : Nat) (f : Wave → Wave) : (s.withWave w f).dbgPending = s.dbgPending := rfl
@[simp] theorem State.withWave_clock (s : State) (w : Nat) (f : Wave → Wave) : (s.withWave w f).clock = s.clock := rfl
@[simp] theorem State.withWave_ticks (s : State) (w : Nat) (f : Wave → Wave) : (s.withWave w f).ticks = s.ticks := rfl
@[simp] theorem State.withWave_corrected (s : State) (w : Nat) (f : Wave → Wave) : (s.withWave w f).corrected = s.corrected := rfl
@[simp] theorem State.withWave_waited (s : State) (w : Nat) (f : Wave → Wave) : (s.withWave w f).waited = s.waited := rfl
@[simp] theorem State.withWave_mem (s : State) (w : Nat) (f : Wave → Wave) : (s.withWave w f).mem = s.mem := rfl
@[simp] theorem State.withWave_memBad (s : State) (w : Nat) (f : Wave → Wave) : (s.withWave w f).memBad = s.memBad := rfl
@[simp] theorem State.withWave_stackUp (s : State) (w : Nat) (f : Wave → Wave) : (s.withWave w f).stackUp = s.stackUp := rfl
@[simp] theorem State.withWave_siteUp (s : State) (w : Nat) (f : Wave → Wave) : (s.withWave w f).siteUp = s.siteUp := rfl
@[simp] theorem State.withWave_cfg (s : State) (w : Nat) (f : Wave → Wave) : (s.withWave w f).cfg = s.cfg := rfl
@[simp] theorem State.withWave_mgmt (s : State) (w : Nat) (f : Wave → Wave) : (s.withWave w f).mgmt = s.mgmt := rfl
@[simp] theorem State.withWave_domBase (s : State) (w : Nat) (f : Wave → Wave) : (s.withWave w f).domBase = s.domBase := rfl
@[simp] theorem State.withWave_domCount (s : State) (w : Nat) (f : Wave → Wave) : (s.withWave w f).domCount = s.domCount := rfl
@[simp] theorem State.withWave_dies (s : State) (w : Nat) (f : Wave → Wave) : (s.withWave w f).dies = s.dies := rfl
@[simp] theorem State.withWave_cores (s : State) (w : Nat) (f : Wave → Wave) : (s.withWave w f).cores = s.cores := rfl
@[simp] theorem State.withWave_launches (s : State) (w : Nat) (f : Wave → Wave) : (s.withWave w f).launches = s.launches := rfl
@[simp] theorem State.withWave_groups (s : State) (w : Nat) (f : Wave → Wave) : (s.withWave w f).groups = s.groups := rfl
@[simp] theorem State.withWave_trees (s : State) (w : Nat) (f : Wave → Wave) : (s.withWave w f).trees = s.trees := rfl
@[simp] theorem State.withWave_copies (s : State) (w : Nat) (f : Wave → Wave) : (s.withWave w f).copies = s.copies := rfl
@[simp] theorem State.withWave_queues (s : State) (w : Nat) (f : Wave → Wave) : (s.withWave w f).queues = s.queues := rfl
@[simp] theorem State.withWave_nextQueue (s : State) (w : Nat) (f : Wave → Wave) : (s.withWave w f).nextQueue = s.nextQueue := rfl
@[simp] theorem State.withWave_keys (s : State) (w : Nat) (f : Wave → Wave) : (s.withWave w f).keys = s.keys := rfl
@[simp] theorem State.withWave_via (s : State) (w : Nat) (f : Wave → Wave) : (s.withWave w f).via = s.via := rfl
@[simp] theorem State.withWave_power (s : State) (w : Nat) (f : Wave → Wave) : (s.withWave w f).power = s.power := rfl
@[simp] theorem State.withWave_writers (s : State) (w : Nat) (f : Wave → Wave) : (s.withWave w f).writers = s.writers := rfl
@[simp] theorem State.withWave_nextCore (s : State) (w : Nat) (f : Wave → Wave) : (s.withWave w f).nextCore = s.nextCore := rfl

/-! ## State.withGroup -/

@[simp] theorem State.withGroup_inbox (s : State) (g : Nat) (f : Group → Group) : (s.withGroup g f).inbox = s.inbox := rfl
@[simp] theorem State.withGroup_devTurn (s : State) (g : Nat) (f : Group → Group) : (s.withGroup g f).devTurn = s.devTurn := rfl
@[simp] theorem State.withGroup_order (s : State) (g : Nat) (f : Group → Group) : (s.withGroup g f).order = s.order := rfl
@[simp] theorem State.withGroup_cur (s : State) (g : Nat) (f : Group → Group) : (s.withGroup g f).cur = s.cur := rfl
@[simp] theorem State.withGroup_fresh (s : State) (g : Nat) (f : Group → Group) : (s.withGroup g f).fresh = s.fresh := rfl
@[simp] theorem State.withGroup_residue (s : State) (g : Nat) (f : Group → Group) : (s.withGroup g f).residue = s.residue := rfl
@[simp] theorem State.withGroup_hostData (s : State) (g : Nat) (f : Group → Group) : (s.withGroup g f).hostData = s.hostData := rfl
@[simp] theorem State.withGroup_dbgPending (s : State) (g : Nat) (f : Group → Group) : (s.withGroup g f).dbgPending = s.dbgPending := rfl
@[simp] theorem State.withGroup_clock (s : State) (g : Nat) (f : Group → Group) : (s.withGroup g f).clock = s.clock := rfl
@[simp] theorem State.withGroup_ticks (s : State) (g : Nat) (f : Group → Group) : (s.withGroup g f).ticks = s.ticks := rfl
@[simp] theorem State.withGroup_corrected (s : State) (g : Nat) (f : Group → Group) : (s.withGroup g f).corrected = s.corrected := rfl
@[simp] theorem State.withGroup_waited (s : State) (g : Nat) (f : Group → Group) : (s.withGroup g f).waited = s.waited := rfl
@[simp] theorem State.withGroup_mem (s : State) (g : Nat) (f : Group → Group) : (s.withGroup g f).mem = s.mem := rfl
@[simp] theorem State.withGroup_memBad (s : State) (g : Nat) (f : Group → Group) : (s.withGroup g f).memBad = s.memBad := rfl
@[simp] theorem State.withGroup_stackUp (s : State) (g : Nat) (f : Group → Group) : (s.withGroup g f).stackUp = s.stackUp := rfl
@[simp] theorem State.withGroup_siteUp (s : State) (g : Nat) (f : Group → Group) : (s.withGroup g f).siteUp = s.siteUp := rfl
@[simp] theorem State.withGroup_cfg (s : State) (g : Nat) (f : Group → Group) : (s.withGroup g f).cfg = s.cfg := rfl
@[simp] theorem State.withGroup_mgmt (s : State) (g : Nat) (f : Group → Group) : (s.withGroup g f).mgmt = s.mgmt := rfl
@[simp] theorem State.withGroup_domBase (s : State) (g : Nat) (f : Group → Group) : (s.withGroup g f).domBase = s.domBase := rfl
@[simp] theorem State.withGroup_domCount (s : State) (g : Nat) (f : Group → Group) : (s.withGroup g f).domCount = s.domCount := rfl
@[simp] theorem State.withGroup_dies (s : State) (g : Nat) (f : Group → Group) : (s.withGroup g f).dies = s.dies := rfl
@[simp] theorem State.withGroup_cores (s : State) (g : Nat) (f : Group → Group) : (s.withGroup g f).cores = s.cores := rfl
@[simp] theorem State.withGroup_launches (s : State) (g : Nat) (f : Group → Group) : (s.withGroup g f).launches = s.launches := rfl
@[simp] theorem State.withGroup_waves (s : State) (g : Nat) (f : Group → Group) : (s.withGroup g f).waves = s.waves := rfl
@[simp] theorem State.withGroup_trees (s : State) (g : Nat) (f : Group → Group) : (s.withGroup g f).trees = s.trees := rfl
@[simp] theorem State.withGroup_copies (s : State) (g : Nat) (f : Group → Group) : (s.withGroup g f).copies = s.copies := rfl
@[simp] theorem State.withGroup_queues (s : State) (g : Nat) (f : Group → Group) : (s.withGroup g f).queues = s.queues := rfl
@[simp] theorem State.withGroup_nextQueue (s : State) (g : Nat) (f : Group → Group) : (s.withGroup g f).nextQueue = s.nextQueue := rfl
@[simp] theorem State.withGroup_keys (s : State) (g : Nat) (f : Group → Group) : (s.withGroup g f).keys = s.keys := rfl
@[simp] theorem State.withGroup_via (s : State) (g : Nat) (f : Group → Group) : (s.withGroup g f).via = s.via := rfl
@[simp] theorem State.withGroup_power (s : State) (g : Nat) (f : Group → Group) : (s.withGroup g f).power = s.power := rfl
@[simp] theorem State.withGroup_writers (s : State) (g : Nat) (f : Group → Group) : (s.withGroup g f).writers = s.writers := rfl
@[simp] theorem State.withGroup_nextCore (s : State) (g : Nat) (f : Group → Group) : (s.withGroup g f).nextCore = s.nextCore := rfl

/-! ## State.withLaunch -/

@[simp] theorem State.withLaunch_inbox (s : State) (l : Nat) (f : Launch → Launch) : (s.withLaunch l f).inbox = s.inbox := rfl
@[simp] theorem State.withLaunch_devTurn (s : State) (l : Nat) (f : Launch → Launch) : (s.withLaunch l f).devTurn = s.devTurn := rfl
@[simp] theorem State.withLaunch_order (s : State) (l : Nat) (f : Launch → Launch) : (s.withLaunch l f).order = s.order := rfl
@[simp] theorem State.withLaunch_cur (s : State) (l : Nat) (f : Launch → Launch) : (s.withLaunch l f).cur = s.cur := rfl
@[simp] theorem State.withLaunch_fresh (s : State) (l : Nat) (f : Launch → Launch) : (s.withLaunch l f).fresh = s.fresh := rfl
@[simp] theorem State.withLaunch_residue (s : State) (l : Nat) (f : Launch → Launch) : (s.withLaunch l f).residue = s.residue := rfl
@[simp] theorem State.withLaunch_hostData (s : State) (l : Nat) (f : Launch → Launch) : (s.withLaunch l f).hostData = s.hostData := rfl
@[simp] theorem State.withLaunch_dbgPending (s : State) (l : Nat) (f : Launch → Launch) : (s.withLaunch l f).dbgPending = s.dbgPending := rfl
@[simp] theorem State.withLaunch_clock (s : State) (l : Nat) (f : Launch → Launch) : (s.withLaunch l f).clock = s.clock := rfl
@[simp] theorem State.withLaunch_ticks (s : State) (l : Nat) (f : Launch → Launch) : (s.withLaunch l f).ticks = s.ticks := rfl
@[simp] theorem State.withLaunch_corrected (s : State) (l : Nat) (f : Launch → Launch) : (s.withLaunch l f).corrected = s.corrected := rfl
@[simp] theorem State.withLaunch_waited (s : State) (l : Nat) (f : Launch → Launch) : (s.withLaunch l f).waited = s.waited := rfl
@[simp] theorem State.withLaunch_mem (s : State) (l : Nat) (f : Launch → Launch) : (s.withLaunch l f).mem = s.mem := rfl
@[simp] theorem State.withLaunch_memBad (s : State) (l : Nat) (f : Launch → Launch) : (s.withLaunch l f).memBad = s.memBad := rfl
@[simp] theorem State.withLaunch_stackUp (s : State) (l : Nat) (f : Launch → Launch) : (s.withLaunch l f).stackUp = s.stackUp := rfl
@[simp] theorem State.withLaunch_siteUp (s : State) (l : Nat) (f : Launch → Launch) : (s.withLaunch l f).siteUp = s.siteUp := rfl
@[simp] theorem State.withLaunch_cfg (s : State) (l : Nat) (f : Launch → Launch) : (s.withLaunch l f).cfg = s.cfg := rfl
@[simp] theorem State.withLaunch_mgmt (s : State) (l : Nat) (f : Launch → Launch) : (s.withLaunch l f).mgmt = s.mgmt := rfl
@[simp] theorem State.withLaunch_domBase (s : State) (l : Nat) (f : Launch → Launch) : (s.withLaunch l f).domBase = s.domBase := rfl
@[simp] theorem State.withLaunch_domCount (s : State) (l : Nat) (f : Launch → Launch) : (s.withLaunch l f).domCount = s.domCount := rfl
@[simp] theorem State.withLaunch_dies (s : State) (l : Nat) (f : Launch → Launch) : (s.withLaunch l f).dies = s.dies := rfl
@[simp] theorem State.withLaunch_cores (s : State) (l : Nat) (f : Launch → Launch) : (s.withLaunch l f).cores = s.cores := rfl
@[simp] theorem State.withLaunch_groups (s : State) (l : Nat) (f : Launch → Launch) : (s.withLaunch l f).groups = s.groups := rfl
@[simp] theorem State.withLaunch_waves (s : State) (l : Nat) (f : Launch → Launch) : (s.withLaunch l f).waves = s.waves := rfl
@[simp] theorem State.withLaunch_trees (s : State) (l : Nat) (f : Launch → Launch) : (s.withLaunch l f).trees = s.trees := rfl
@[simp] theorem State.withLaunch_copies (s : State) (l : Nat) (f : Launch → Launch) : (s.withLaunch l f).copies = s.copies := rfl
@[simp] theorem State.withLaunch_queues (s : State) (l : Nat) (f : Launch → Launch) : (s.withLaunch l f).queues = s.queues := rfl
@[simp] theorem State.withLaunch_nextQueue (s : State) (l : Nat) (f : Launch → Launch) : (s.withLaunch l f).nextQueue = s.nextQueue := rfl
@[simp] theorem State.withLaunch_keys (s : State) (l : Nat) (f : Launch → Launch) : (s.withLaunch l f).keys = s.keys := rfl
@[simp] theorem State.withLaunch_via (s : State) (l : Nat) (f : Launch → Launch) : (s.withLaunch l f).via = s.via := rfl
@[simp] theorem State.withLaunch_power (s : State) (l : Nat) (f : Launch → Launch) : (s.withLaunch l f).power = s.power := rfl
@[simp] theorem State.withLaunch_writers (s : State) (l : Nat) (f : Launch → Launch) : (s.withLaunch l f).writers = s.writers := rfl
@[simp] theorem State.withLaunch_nextCore (s : State) (l : Nat) (f : Launch → Launch) : (s.withLaunch l f).nextCore = s.nextCore := rfl

/-! ## State.withCore -/

@[simp] theorem State.withCore_inbox (s : State) (k : Nat) (f : Core → Core) : (s.withCore k f).inbox = s.inbox := rfl
@[simp] theorem State.withCore_devTurn (s : State) (k : Nat) (f : Core → Core) : (s.withCore k f).devTurn = s.devTurn := rfl
@[simp] theorem State.withCore_order (s : State) (k : Nat) (f : Core → Core) : (s.withCore k f).order = s.order := rfl
@[simp] theorem State.withCore_cur (s : State) (k : Nat) (f : Core → Core) : (s.withCore k f).cur = s.cur := rfl
@[simp] theorem State.withCore_fresh (s : State) (k : Nat) (f : Core → Core) : (s.withCore k f).fresh = s.fresh := rfl
@[simp] theorem State.withCore_residue (s : State) (k : Nat) (f : Core → Core) : (s.withCore k f).residue = s.residue := rfl
@[simp] theorem State.withCore_hostData (s : State) (k : Nat) (f : Core → Core) : (s.withCore k f).hostData = s.hostData := rfl
@[simp] theorem State.withCore_dbgPending (s : State) (k : Nat) (f : Core → Core) : (s.withCore k f).dbgPending = s.dbgPending := rfl
@[simp] theorem State.withCore_clock (s : State) (k : Nat) (f : Core → Core) : (s.withCore k f).clock = s.clock := rfl
@[simp] theorem State.withCore_ticks (s : State) (k : Nat) (f : Core → Core) : (s.withCore k f).ticks = s.ticks := rfl
@[simp] theorem State.withCore_corrected (s : State) (k : Nat) (f : Core → Core) : (s.withCore k f).corrected = s.corrected := rfl
@[simp] theorem State.withCore_waited (s : State) (k : Nat) (f : Core → Core) : (s.withCore k f).waited = s.waited := rfl
@[simp] theorem State.withCore_mem (s : State) (k : Nat) (f : Core → Core) : (s.withCore k f).mem = s.mem := rfl
@[simp] theorem State.withCore_memBad (s : State) (k : Nat) (f : Core → Core) : (s.withCore k f).memBad = s.memBad := rfl
@[simp] theorem State.withCore_stackUp (s : State) (k : Nat) (f : Core → Core) : (s.withCore k f).stackUp = s.stackUp := rfl
@[simp] theorem State.withCore_siteUp (s : State) (k : Nat) (f : Core → Core) : (s.withCore k f).siteUp = s.siteUp := rfl
@[simp] theorem State.withCore_cfg (s : State) (k : Nat) (f : Core → Core) : (s.withCore k f).cfg = s.cfg := rfl
@[simp] theorem State.withCore_mgmt (s : State) (k : Nat) (f : Core → Core) : (s.withCore k f).mgmt = s.mgmt := rfl
@[simp] theorem State.withCore_domBase (s : State) (k : Nat) (f : Core → Core) : (s.withCore k f).domBase = s.domBase := rfl
@[simp] theorem State.withCore_domCount (s : State) (k : Nat) (f : Core → Core) : (s.withCore k f).domCount = s.domCount := rfl
@[simp] theorem State.withCore_dies (s : State) (k : Nat) (f : Core → Core) : (s.withCore k f).dies = s.dies := rfl
@[simp] theorem State.withCore_launches (s : State) (k : Nat) (f : Core → Core) : (s.withCore k f).launches = s.launches := rfl
@[simp] theorem State.withCore_groups (s : State) (k : Nat) (f : Core → Core) : (s.withCore k f).groups = s.groups := rfl
@[simp] theorem State.withCore_waves (s : State) (k : Nat) (f : Core → Core) : (s.withCore k f).waves = s.waves := rfl
@[simp] theorem State.withCore_trees (s : State) (k : Nat) (f : Core → Core) : (s.withCore k f).trees = s.trees := rfl
@[simp] theorem State.withCore_copies (s : State) (k : Nat) (f : Core → Core) : (s.withCore k f).copies = s.copies := rfl
@[simp] theorem State.withCore_queues (s : State) (k : Nat) (f : Core → Core) : (s.withCore k f).queues = s.queues := rfl
@[simp] theorem State.withCore_nextQueue (s : State) (k : Nat) (f : Core → Core) : (s.withCore k f).nextQueue = s.nextQueue := rfl
@[simp] theorem State.withCore_keys (s : State) (k : Nat) (f : Core → Core) : (s.withCore k f).keys = s.keys := rfl
@[simp] theorem State.withCore_via (s : State) (k : Nat) (f : Core → Core) : (s.withCore k f).via = s.via := rfl
@[simp] theorem State.withCore_power (s : State) (k : Nat) (f : Core → Core) : (s.withCore k f).power = s.power := rfl
@[simp] theorem State.withCore_writers (s : State) (k : Nat) (f : Core → Core) : (s.withCore k f).writers = s.writers := rfl
@[simp] theorem State.withCore_nextCore (s : State) (k : Nat) (f : Core → Core) : (s.withCore k f).nextCore = s.nextCore := rfl

/-! ## State.withDie -/

@[simp] theorem State.withDie_inbox (s : State) (d : Nat) (f : Die → Die) : (s.withDie d f).inbox = s.inbox := by
  unfold State.withDie; split <;> rfl
@[simp] theorem State.withDie_devTurn (s : State) (d : Nat) (f : Die → Die) : (s.withDie d f).devTurn = s.devTurn := by
  unfold State.withDie; split <;> rfl
@[simp] theorem State.withDie_order (s : State) (d : Nat) (f : Die → Die) : (s.withDie d f).order = s.order := by
  unfold State.withDie; split <;> rfl
@[simp] theorem State.withDie_cur (s : State) (d : Nat) (f : Die → Die) : (s.withDie d f).cur = s.cur := by
  unfold State.withDie; split <;> rfl
@[simp] theorem State.withDie_fresh (s : State) (d : Nat) (f : Die → Die) : (s.withDie d f).fresh = s.fresh := by
  unfold State.withDie; split <;> rfl
@[simp] theorem State.withDie_residue (s : State) (d : Nat) (f : Die → Die) : (s.withDie d f).residue = s.residue := by
  unfold State.withDie; split <;> rfl
@[simp] theorem State.withDie_hostData (s : State) (d : Nat) (f : Die → Die) : (s.withDie d f).hostData = s.hostData := by
  unfold State.withDie; split <;> rfl
@[simp] theorem State.withDie_dbgPending (s : State) (d : Nat) (f : Die → Die) : (s.withDie d f).dbgPending = s.dbgPending := by
  unfold State.withDie; split <;> rfl
@[simp] theorem State.withDie_clock (s : State) (d : Nat) (f : Die → Die) : (s.withDie d f).clock = s.clock := by
  unfold State.withDie; split <;> rfl
@[simp] theorem State.withDie_ticks (s : State) (d : Nat) (f : Die → Die) : (s.withDie d f).ticks = s.ticks := by
  unfold State.withDie; split <;> rfl
@[simp] theorem State.withDie_corrected (s : State) (d : Nat) (f : Die → Die) : (s.withDie d f).corrected = s.corrected := by
  unfold State.withDie; split <;> rfl
@[simp] theorem State.withDie_waited (s : State) (d : Nat) (f : Die → Die) : (s.withDie d f).waited = s.waited := by
  unfold State.withDie; split <;> rfl
@[simp] theorem State.withDie_mem (s : State) (d : Nat) (f : Die → Die) : (s.withDie d f).mem = s.mem := by
  unfold State.withDie; split <;> rfl
@[simp] theorem State.withDie_memBad (s : State) (d : Nat) (f : Die → Die) : (s.withDie d f).memBad = s.memBad := by
  unfold State.withDie; split <;> rfl
@[simp] theorem State.withDie_stackUp (s : State) (d : Nat) (f : Die → Die) : (s.withDie d f).stackUp = s.stackUp := by
  unfold State.withDie; split <;> rfl
@[simp] theorem State.withDie_siteUp (s : State) (d : Nat) (f : Die → Die) : (s.withDie d f).siteUp = s.siteUp := by
  unfold State.withDie; split <;> rfl
@[simp] theorem State.withDie_cfg (s : State) (d : Nat) (f : Die → Die) : (s.withDie d f).cfg = s.cfg := by
  unfold State.withDie; split <;> rfl
@[simp] theorem State.withDie_mgmt (s : State) (d : Nat) (f : Die → Die) : (s.withDie d f).mgmt = s.mgmt := by
  unfold State.withDie; split <;> rfl
@[simp] theorem State.withDie_domBase (s : State) (d : Nat) (f : Die → Die) : (s.withDie d f).domBase = s.domBase := by
  unfold State.withDie; split <;> rfl
@[simp] theorem State.withDie_domCount (s : State) (d : Nat) (f : Die → Die) : (s.withDie d f).domCount = s.domCount := by
  unfold State.withDie; split <;> rfl
@[simp] theorem State.withDie_cores (s : State) (d : Nat) (f : Die → Die) : (s.withDie d f).cores = s.cores := by
  unfold State.withDie; split <;> rfl
@[simp] theorem State.withDie_launches (s : State) (d : Nat) (f : Die → Die) : (s.withDie d f).launches = s.launches := by
  unfold State.withDie; split <;> rfl
@[simp] theorem State.withDie_groups (s : State) (d : Nat) (f : Die → Die) : (s.withDie d f).groups = s.groups := by
  unfold State.withDie; split <;> rfl
@[simp] theorem State.withDie_waves (s : State) (d : Nat) (f : Die → Die) : (s.withDie d f).waves = s.waves := by
  unfold State.withDie; split <;> rfl
@[simp] theorem State.withDie_trees (s : State) (d : Nat) (f : Die → Die) : (s.withDie d f).trees = s.trees := by
  unfold State.withDie; split <;> rfl
@[simp] theorem State.withDie_copies (s : State) (d : Nat) (f : Die → Die) : (s.withDie d f).copies = s.copies := by
  unfold State.withDie; split <;> rfl
@[simp] theorem State.withDie_queues (s : State) (d : Nat) (f : Die → Die) : (s.withDie d f).queues = s.queues := by
  unfold State.withDie; split <;> rfl
@[simp] theorem State.withDie_nextQueue (s : State) (d : Nat) (f : Die → Die) : (s.withDie d f).nextQueue = s.nextQueue := by
  unfold State.withDie; split <;> rfl
@[simp] theorem State.withDie_keys (s : State) (d : Nat) (f : Die → Die) : (s.withDie d f).keys = s.keys := by
  unfold State.withDie; split <;> rfl
@[simp] theorem State.withDie_via (s : State) (d : Nat) (f : Die → Die) : (s.withDie d f).via = s.via := by
  unfold State.withDie; split <;> rfl
@[simp] theorem State.withDie_power (s : State) (d : Nat) (f : Die → Die) : (s.withDie d f).power = s.power := by
  unfold State.withDie; split <;> rfl
@[simp] theorem State.withDie_writers (s : State) (d : Nat) (f : Die → Die) : (s.withDie d f).writers = s.writers := by
  unfold State.withDie; split <;> rfl
@[simp] theorem State.withDie_nextCore (s : State) (d : Nat) (f : Die → Die) : (s.withDie d f).nextCore = s.nextCore := by
  unfold State.withDie; split <;> rfl

/-! ## State.withQueue -/

@[simp] theorem State.withQueue_inbox (s : State) (q : Nat) (f : HQueue → HQueue) : (s.withQueue q f).inbox = s.inbox := rfl
@[simp] theorem State.withQueue_devTurn (s : State) (q : Nat) (f : HQueue → HQueue) : (s.withQueue q f).devTurn = s.devTurn := rfl
@[simp] theorem State.withQueue_order (s : State) (q : Nat) (f : HQueue → HQueue) : (s.withQueue q f).order = s.order := rfl
@[simp] theorem State.withQueue_cur (s : State) (q : Nat) (f : HQueue → HQueue) : (s.withQueue q f).cur = s.cur := rfl
@[simp] theorem State.withQueue_fresh (s : State) (q : Nat) (f : HQueue → HQueue) : (s.withQueue q f).fresh = s.fresh := rfl
@[simp] theorem State.withQueue_residue (s : State) (q : Nat) (f : HQueue → HQueue) : (s.withQueue q f).residue = s.residue := rfl
@[simp] theorem State.withQueue_hostData (s : State) (q : Nat) (f : HQueue → HQueue) : (s.withQueue q f).hostData = s.hostData := rfl
@[simp] theorem State.withQueue_dbgPending (s : State) (q : Nat) (f : HQueue → HQueue) : (s.withQueue q f).dbgPending = s.dbgPending := rfl
@[simp] theorem State.withQueue_clock (s : State) (q : Nat) (f : HQueue → HQueue) : (s.withQueue q f).clock = s.clock := rfl
@[simp] theorem State.withQueue_ticks (s : State) (q : Nat) (f : HQueue → HQueue) : (s.withQueue q f).ticks = s.ticks := rfl
@[simp] theorem State.withQueue_corrected (s : State) (q : Nat) (f : HQueue → HQueue) : (s.withQueue q f).corrected = s.corrected := rfl
@[simp] theorem State.withQueue_waited (s : State) (q : Nat) (f : HQueue → HQueue) : (s.withQueue q f).waited = s.waited := rfl
@[simp] theorem State.withQueue_mem (s : State) (q : Nat) (f : HQueue → HQueue) : (s.withQueue q f).mem = s.mem := rfl
@[simp] theorem State.withQueue_memBad (s : State) (q : Nat) (f : HQueue → HQueue) : (s.withQueue q f).memBad = s.memBad := rfl
@[simp] theorem State.withQueue_stackUp (s : State) (q : Nat) (f : HQueue → HQueue) : (s.withQueue q f).stackUp = s.stackUp := rfl
@[simp] theorem State.withQueue_siteUp (s : State) (q : Nat) (f : HQueue → HQueue) : (s.withQueue q f).siteUp = s.siteUp := rfl
@[simp] theorem State.withQueue_cfg (s : State) (q : Nat) (f : HQueue → HQueue) : (s.withQueue q f).cfg = s.cfg := rfl
@[simp] theorem State.withQueue_mgmt (s : State) (q : Nat) (f : HQueue → HQueue) : (s.withQueue q f).mgmt = s.mgmt := rfl
@[simp] theorem State.withQueue_domBase (s : State) (q : Nat) (f : HQueue → HQueue) : (s.withQueue q f).domBase = s.domBase := rfl
@[simp] theorem State.withQueue_domCount (s : State) (q : Nat) (f : HQueue → HQueue) : (s.withQueue q f).domCount = s.domCount := rfl
@[simp] theorem State.withQueue_dies (s : State) (q : Nat) (f : HQueue → HQueue) : (s.withQueue q f).dies = s.dies := rfl
@[simp] theorem State.withQueue_cores (s : State) (q : Nat) (f : HQueue → HQueue) : (s.withQueue q f).cores = s.cores := rfl
@[simp] theorem State.withQueue_launches (s : State) (q : Nat) (f : HQueue → HQueue) : (s.withQueue q f).launches = s.launches := rfl
@[simp] theorem State.withQueue_groups (s : State) (q : Nat) (f : HQueue → HQueue) : (s.withQueue q f).groups = s.groups := rfl
@[simp] theorem State.withQueue_waves (s : State) (q : Nat) (f : HQueue → HQueue) : (s.withQueue q f).waves = s.waves := rfl
@[simp] theorem State.withQueue_trees (s : State) (q : Nat) (f : HQueue → HQueue) : (s.withQueue q f).trees = s.trees := rfl
@[simp] theorem State.withQueue_copies (s : State) (q : Nat) (f : HQueue → HQueue) : (s.withQueue q f).copies = s.copies := rfl
@[simp] theorem State.withQueue_nextQueue (s : State) (q : Nat) (f : HQueue → HQueue) : (s.withQueue q f).nextQueue = s.nextQueue := rfl
@[simp] theorem State.withQueue_keys (s : State) (q : Nat) (f : HQueue → HQueue) : (s.withQueue q f).keys = s.keys := rfl
@[simp] theorem State.withQueue_via (s : State) (q : Nat) (f : HQueue → HQueue) : (s.withQueue q f).via = s.via := rfl
@[simp] theorem State.withQueue_power (s : State) (q : Nat) (f : HQueue → HQueue) : (s.withQueue q f).power = s.power := rfl
@[simp] theorem State.withQueue_writers (s : State) (q : Nat) (f : HQueue → HQueue) : (s.withQueue q f).writers = s.writers := rfl
@[simp] theorem State.withQueue_nextCore (s : State) (q : Nat) (f : HQueue → HQueue) : (s.withQueue q f).nextCore = s.nextCore := rfl

/-! ## State.withVia -/

@[simp] theorem State.withVia_inbox (s : State) (f : Viaduct → Viaduct) : (s.withVia f).inbox = s.inbox := rfl
@[simp] theorem State.withVia_devTurn (s : State) (f : Viaduct → Viaduct) : (s.withVia f).devTurn = s.devTurn := rfl
@[simp] theorem State.withVia_order (s : State) (f : Viaduct → Viaduct) : (s.withVia f).order = s.order := rfl
@[simp] theorem State.withVia_cur (s : State) (f : Viaduct → Viaduct) : (s.withVia f).cur = s.cur := rfl
@[simp] theorem State.withVia_fresh (s : State) (f : Viaduct → Viaduct) : (s.withVia f).fresh = s.fresh := rfl
@[simp] theorem State.withVia_residue (s : State) (f : Viaduct → Viaduct) : (s.withVia f).residue = s.residue := rfl
@[simp] theorem State.withVia_hostData (s : State) (f : Viaduct → Viaduct) : (s.withVia f).hostData = s.hostData := rfl
@[simp] theorem State.withVia_dbgPending (s : State) (f : Viaduct → Viaduct) : (s.withVia f).dbgPending = s.dbgPending := rfl
@[simp] theorem State.withVia_clock (s : State) (f : Viaduct → Viaduct) : (s.withVia f).clock = s.clock := rfl
@[simp] theorem State.withVia_ticks (s : State) (f : Viaduct → Viaduct) : (s.withVia f).ticks = s.ticks := rfl
@[simp] theorem State.withVia_corrected (s : State) (f : Viaduct → Viaduct) : (s.withVia f).corrected = s.corrected := rfl
@[simp] theorem State.withVia_waited (s : State) (f : Viaduct → Viaduct) : (s.withVia f).waited = s.waited := rfl
@[simp] theorem State.withVia_mem (s : State) (f : Viaduct → Viaduct) : (s.withVia f).mem = s.mem := rfl
@[simp] theorem State.withVia_memBad (s : State) (f : Viaduct → Viaduct) : (s.withVia f).memBad = s.memBad := rfl
@[simp] theorem State.withVia_stackUp (s : State) (f : Viaduct → Viaduct) : (s.withVia f).stackUp = s.stackUp := rfl
@[simp] theorem State.withVia_siteUp (s : State) (f : Viaduct → Viaduct) : (s.withVia f).siteUp = s.siteUp := rfl
@[simp] theorem State.withVia_cfg (s : State) (f : Viaduct → Viaduct) : (s.withVia f).cfg = s.cfg := rfl
@[simp] theorem State.withVia_mgmt (s : State) (f : Viaduct → Viaduct) : (s.withVia f).mgmt = s.mgmt := rfl
@[simp] theorem State.withVia_domBase (s : State) (f : Viaduct → Viaduct) : (s.withVia f).domBase = s.domBase := rfl
@[simp] theorem State.withVia_domCount (s : State) (f : Viaduct → Viaduct) : (s.withVia f).domCount = s.domCount := rfl
@[simp] theorem State.withVia_dies (s : State) (f : Viaduct → Viaduct) : (s.withVia f).dies = s.dies := rfl
@[simp] theorem State.withVia_cores (s : State) (f : Viaduct → Viaduct) : (s.withVia f).cores = s.cores := rfl
@[simp] theorem State.withVia_launches (s : State) (f : Viaduct → Viaduct) : (s.withVia f).launches = s.launches := rfl
@[simp] theorem State.withVia_groups (s : State) (f : Viaduct → Viaduct) : (s.withVia f).groups = s.groups := rfl
@[simp] theorem State.withVia_waves (s : State) (f : Viaduct → Viaduct) : (s.withVia f).waves = s.waves := rfl
@[simp] theorem State.withVia_trees (s : State) (f : Viaduct → Viaduct) : (s.withVia f).trees = s.trees := rfl
@[simp] theorem State.withVia_copies (s : State) (f : Viaduct → Viaduct) : (s.withVia f).copies = s.copies := rfl
@[simp] theorem State.withVia_queues (s : State) (f : Viaduct → Viaduct) : (s.withVia f).queues = s.queues := rfl
@[simp] theorem State.withVia_nextQueue (s : State) (f : Viaduct → Viaduct) : (s.withVia f).nextQueue = s.nextQueue := rfl
@[simp] theorem State.withVia_keys (s : State) (f : Viaduct → Viaduct) : (s.withVia f).keys = s.keys := rfl
@[simp] theorem State.withVia_power (s : State) (f : Viaduct → Viaduct) : (s.withVia f).power = s.power := rfl
@[simp] theorem State.withVia_writers (s : State) (f : Viaduct → Viaduct) : (s.withVia f).writers = s.writers := rfl
@[simp] theorem State.withVia_nextCore (s : State) (f : Viaduct → Viaduct) : (s.withVia f).nextCore = s.nextCore := rfl

/-! ## State.withStream -/

@[simp] theorem State.withStream_inbox (s : State) (p : Nat) (f : Stream → Stream) : (s.withStream p f).inbox = s.inbox := rfl
@[simp] theorem State.withStream_devTurn (s : State) (p : Nat) (f : Stream → Stream) : (s.withStream p f).devTurn = s.devTurn := rfl
@[simp] theorem State.withStream_order (s : State) (p : Nat) (f : Stream → Stream) : (s.withStream p f).order = s.order := rfl
@[simp] theorem State.withStream_cur (s : State) (p : Nat) (f : Stream → Stream) : (s.withStream p f).cur = s.cur := rfl
@[simp] theorem State.withStream_fresh (s : State) (p : Nat) (f : Stream → Stream) : (s.withStream p f).fresh = s.fresh := rfl
@[simp] theorem State.withStream_residue (s : State) (p : Nat) (f : Stream → Stream) : (s.withStream p f).residue = s.residue := rfl
@[simp] theorem State.withStream_hostData (s : State) (p : Nat) (f : Stream → Stream) : (s.withStream p f).hostData = s.hostData := rfl
@[simp] theorem State.withStream_dbgPending (s : State) (p : Nat) (f : Stream → Stream) : (s.withStream p f).dbgPending = s.dbgPending := rfl
@[simp] theorem State.withStream_clock (s : State) (p : Nat) (f : Stream → Stream) : (s.withStream p f).clock = s.clock := rfl
@[simp] theorem State.withStream_ticks (s : State) (p : Nat) (f : Stream → Stream) : (s.withStream p f).ticks = s.ticks := rfl
@[simp] theorem State.withStream_corrected (s : State) (p : Nat) (f : Stream → Stream) : (s.withStream p f).corrected = s.corrected := rfl
@[simp] theorem State.withStream_waited (s : State) (p : Nat) (f : Stream → Stream) : (s.withStream p f).waited = s.waited := rfl
@[simp] theorem State.withStream_mem (s : State) (p : Nat) (f : Stream → Stream) : (s.withStream p f).mem = s.mem := rfl
@[simp] theorem State.withStream_memBad (s : State) (p : Nat) (f : Stream → Stream) : (s.withStream p f).memBad = s.memBad := rfl
@[simp] theorem State.withStream_stackUp (s : State) (p : Nat) (f : Stream → Stream) : (s.withStream p f).stackUp = s.stackUp := rfl
@[simp] theorem State.withStream_siteUp (s : State) (p : Nat) (f : Stream → Stream) : (s.withStream p f).siteUp = s.siteUp := rfl
@[simp] theorem State.withStream_cfg (s : State) (p : Nat) (f : Stream → Stream) : (s.withStream p f).cfg = s.cfg := rfl
@[simp] theorem State.withStream_mgmt (s : State) (p : Nat) (f : Stream → Stream) : (s.withStream p f).mgmt = s.mgmt := rfl
@[simp] theorem State.withStream_domBase (s : State) (p : Nat) (f : Stream → Stream) : (s.withStream p f).domBase = s.domBase := rfl
@[simp] theorem State.withStream_domCount (s : State) (p : Nat) (f : Stream → Stream) : (s.withStream p f).domCount = s.domCount := rfl
@[simp] theorem State.withStream_dies (s : State) (p : Nat) (f : Stream → Stream) : (s.withStream p f).dies = s.dies := rfl
@[simp] theorem State.withStream_cores (s : State) (p : Nat) (f : Stream → Stream) : (s.withStream p f).cores = s.cores := rfl
@[simp] theorem State.withStream_launches (s : State) (p : Nat) (f : Stream → Stream) : (s.withStream p f).launches = s.launches := rfl
@[simp] theorem State.withStream_groups (s : State) (p : Nat) (f : Stream → Stream) : (s.withStream p f).groups = s.groups := rfl
@[simp] theorem State.withStream_waves (s : State) (p : Nat) (f : Stream → Stream) : (s.withStream p f).waves = s.waves := rfl
@[simp] theorem State.withStream_trees (s : State) (p : Nat) (f : Stream → Stream) : (s.withStream p f).trees = s.trees := rfl
@[simp] theorem State.withStream_copies (s : State) (p : Nat) (f : Stream → Stream) : (s.withStream p f).copies = s.copies := rfl
@[simp] theorem State.withStream_queues (s : State) (p : Nat) (f : Stream → Stream) : (s.withStream p f).queues = s.queues := rfl
@[simp] theorem State.withStream_nextQueue (s : State) (p : Nat) (f : Stream → Stream) : (s.withStream p f).nextQueue = s.nextQueue := rfl
@[simp] theorem State.withStream_keys (s : State) (p : Nat) (f : Stream → Stream) : (s.withStream p f).keys = s.keys := rfl
@[simp] theorem State.withStream_power (s : State) (p : Nat) (f : Stream → Stream) : (s.withStream p f).power = s.power := rfl
@[simp] theorem State.withStream_writers (s : State) (p : Nat) (f : Stream → Stream) : (s.withStream p f).writers = s.writers := rfl
@[simp] theorem State.withStream_nextCore (s : State) (p : Nat) (f : Stream → Stream) : (s.withStream p f).nextCore = s.nextCore := rfl

/-! ## State.withTree -/

@[simp] theorem State.withTree_inbox (s : State) (t : Nat) (f : Tree → Tree) : (s.withTree t f).inbox = s.inbox := rfl
@[simp] theorem State.withTree_devTurn (s : State) (t : Nat) (f : Tree → Tree) : (s.withTree t f).devTurn = s.devTurn := rfl
@[simp] theorem State.withTree_order (s : State) (t : Nat) (f : Tree → Tree) : (s.withTree t f).order = s.order := rfl
@[simp] theorem State.withTree_cur (s : State) (t : Nat) (f : Tree → Tree) : (s.withTree t f).cur = s.cur := rfl
@[simp] theorem State.withTree_fresh (s : State) (t : Nat) (f : Tree → Tree) : (s.withTree t f).fresh = s.fresh := rfl
@[simp] theorem State.withTree_residue (s : State) (t : Nat) (f : Tree → Tree) : (s.withTree t f).residue = s.residue := rfl
@[simp] theorem State.withTree_hostData (s : State) (t : Nat) (f : Tree → Tree) : (s.withTree t f).hostData = s.hostData := rfl
@[simp] theorem State.withTree_dbgPending (s : State) (t : Nat) (f : Tree → Tree) : (s.withTree t f).dbgPending = s.dbgPending := rfl
@[simp] theorem State.withTree_clock (s : State) (t : Nat) (f : Tree → Tree) : (s.withTree t f).clock = s.clock := rfl
@[simp] theorem State.withTree_ticks (s : State) (t : Nat) (f : Tree → Tree) : (s.withTree t f).ticks = s.ticks := rfl
@[simp] theorem State.withTree_corrected (s : State) (t : Nat) (f : Tree → Tree) : (s.withTree t f).corrected = s.corrected := rfl
@[simp] theorem State.withTree_waited (s : State) (t : Nat) (f : Tree → Tree) : (s.withTree t f).waited = s.waited := rfl
@[simp] theorem State.withTree_mem (s : State) (t : Nat) (f : Tree → Tree) : (s.withTree t f).mem = s.mem := rfl
@[simp] theorem State.withTree_memBad (s : State) (t : Nat) (f : Tree → Tree) : (s.withTree t f).memBad = s.memBad := rfl
@[simp] theorem State.withTree_stackUp (s : State) (t : Nat) (f : Tree → Tree) : (s.withTree t f).stackUp = s.stackUp := rfl
@[simp] theorem State.withTree_siteUp (s : State) (t : Nat) (f : Tree → Tree) : (s.withTree t f).siteUp = s.siteUp := rfl
@[simp] theorem State.withTree_cfg (s : State) (t : Nat) (f : Tree → Tree) : (s.withTree t f).cfg = s.cfg := rfl
@[simp] theorem State.withTree_mgmt (s : State) (t : Nat) (f : Tree → Tree) : (s.withTree t f).mgmt = s.mgmt := rfl
@[simp] theorem State.withTree_domBase (s : State) (t : Nat) (f : Tree → Tree) : (s.withTree t f).domBase = s.domBase := rfl
@[simp] theorem State.withTree_domCount (s : State) (t : Nat) (f : Tree → Tree) : (s.withTree t f).domCount = s.domCount := rfl
@[simp] theorem State.withTree_dies (s : State) (t : Nat) (f : Tree → Tree) : (s.withTree t f).dies = s.dies := rfl
@[simp] theorem State.withTree_cores (s : State) (t : Nat) (f : Tree → Tree) : (s.withTree t f).cores = s.cores := rfl
@[simp] theorem State.withTree_launches (s : State) (t : Nat) (f : Tree → Tree) : (s.withTree t f).launches = s.launches := rfl
@[simp] theorem State.withTree_groups (s : State) (t : Nat) (f : Tree → Tree) : (s.withTree t f).groups = s.groups := rfl
@[simp] theorem State.withTree_waves (s : State) (t : Nat) (f : Tree → Tree) : (s.withTree t f).waves = s.waves := rfl
@[simp] theorem State.withTree_copies (s : State) (t : Nat) (f : Tree → Tree) : (s.withTree t f).copies = s.copies := rfl
@[simp] theorem State.withTree_queues (s : State) (t : Nat) (f : Tree → Tree) : (s.withTree t f).queues = s.queues := rfl
@[simp] theorem State.withTree_nextQueue (s : State) (t : Nat) (f : Tree → Tree) : (s.withTree t f).nextQueue = s.nextQueue := rfl
@[simp] theorem State.withTree_keys (s : State) (t : Nat) (f : Tree → Tree) : (s.withTree t f).keys = s.keys := rfl
@[simp] theorem State.withTree_via (s : State) (t : Nat) (f : Tree → Tree) : (s.withTree t f).via = s.via := rfl
@[simp] theorem State.withTree_power (s : State) (t : Nat) (f : Tree → Tree) : (s.withTree t f).power = s.power := rfl
@[simp] theorem State.withTree_writers (s : State) (t : Nat) (f : Tree → Tree) : (s.withTree t f).writers = s.writers := rfl
@[simp] theorem State.withTree_nextCore (s : State) (t : Nat) (f : Tree → Tree) : (s.withTree t f).nextCore = s.nextCore := rfl

/-! ## State.withInstance -/

@[simp] theorem State.withInstance_inbox (s : State) (k : Nat) (f : Span → Span) : (s.withInstance k f).inbox = s.inbox := by simp [State.withInstance]
@[simp] theorem State.withInstance_devTurn (s : State) (k : Nat) (f : Span → Span) : (s.withInstance k f).devTurn = s.devTurn := by simp [State.withInstance]
@[simp] theorem State.withInstance_order (s : State) (k : Nat) (f : Span → Span) : (s.withInstance k f).order = s.order := by simp [State.withInstance]
@[simp] theorem State.withInstance_cur (s : State) (k : Nat) (f : Span → Span) : (s.withInstance k f).cur = s.cur := by simp [State.withInstance]
@[simp] theorem State.withInstance_fresh (s : State) (k : Nat) (f : Span → Span) : (s.withInstance k f).fresh = s.fresh := by simp [State.withInstance]
@[simp] theorem State.withInstance_residue (s : State) (k : Nat) (f : Span → Span) : (s.withInstance k f).residue = s.residue := by simp [State.withInstance]
@[simp] theorem State.withInstance_hostData (s : State) (k : Nat) (f : Span → Span) : (s.withInstance k f).hostData = s.hostData := by simp [State.withInstance]
@[simp] theorem State.withInstance_dbgPending (s : State) (k : Nat) (f : Span → Span) : (s.withInstance k f).dbgPending = s.dbgPending := by simp [State.withInstance]
@[simp] theorem State.withInstance_clock (s : State) (k : Nat) (f : Span → Span) : (s.withInstance k f).clock = s.clock := by simp [State.withInstance]
@[simp] theorem State.withInstance_ticks (s : State) (k : Nat) (f : Span → Span) : (s.withInstance k f).ticks = s.ticks := by simp [State.withInstance]
@[simp] theorem State.withInstance_corrected (s : State) (k : Nat) (f : Span → Span) : (s.withInstance k f).corrected = s.corrected := by simp [State.withInstance]
@[simp] theorem State.withInstance_waited (s : State) (k : Nat) (f : Span → Span) : (s.withInstance k f).waited = s.waited := by simp [State.withInstance]
@[simp] theorem State.withInstance_mem (s : State) (k : Nat) (f : Span → Span) : (s.withInstance k f).mem = s.mem := by simp [State.withInstance]
@[simp] theorem State.withInstance_memBad (s : State) (k : Nat) (f : Span → Span) : (s.withInstance k f).memBad = s.memBad := by simp [State.withInstance]
@[simp] theorem State.withInstance_stackUp (s : State) (k : Nat) (f : Span → Span) : (s.withInstance k f).stackUp = s.stackUp := by simp [State.withInstance]
@[simp] theorem State.withInstance_siteUp (s : State) (k : Nat) (f : Span → Span) : (s.withInstance k f).siteUp = s.siteUp := by simp [State.withInstance]
@[simp] theorem State.withInstance_cfg (s : State) (k : Nat) (f : Span → Span) : (s.withInstance k f).cfg = s.cfg := by simp [State.withInstance]
@[simp] theorem State.withInstance_mgmt (s : State) (k : Nat) (f : Span → Span) : (s.withInstance k f).mgmt = s.mgmt := by simp [State.withInstance]
@[simp] theorem State.withInstance_domBase (s : State) (k : Nat) (f : Span → Span) : (s.withInstance k f).domBase = s.domBase := by simp [State.withInstance]
@[simp] theorem State.withInstance_domCount (s : State) (k : Nat) (f : Span → Span) : (s.withInstance k f).domCount = s.domCount := by simp [State.withInstance]
@[simp] theorem State.withInstance_cores (s : State) (k : Nat) (f : Span → Span) : (s.withInstance k f).cores = s.cores := by simp [State.withInstance]
@[simp] theorem State.withInstance_launches (s : State) (k : Nat) (f : Span → Span) : (s.withInstance k f).launches = s.launches := by simp [State.withInstance]
@[simp] theorem State.withInstance_groups (s : State) (k : Nat) (f : Span → Span) : (s.withInstance k f).groups = s.groups := by simp [State.withInstance]
@[simp] theorem State.withInstance_waves (s : State) (k : Nat) (f : Span → Span) : (s.withInstance k f).waves = s.waves := by simp [State.withInstance]
@[simp] theorem State.withInstance_trees (s : State) (k : Nat) (f : Span → Span) : (s.withInstance k f).trees = s.trees := by simp [State.withInstance]
@[simp] theorem State.withInstance_copies (s : State) (k : Nat) (f : Span → Span) : (s.withInstance k f).copies = s.copies := by simp [State.withInstance]
@[simp] theorem State.withInstance_queues (s : State) (k : Nat) (f : Span → Span) : (s.withInstance k f).queues = s.queues := by simp [State.withInstance]
@[simp] theorem State.withInstance_nextQueue (s : State) (k : Nat) (f : Span → Span) : (s.withInstance k f).nextQueue = s.nextQueue := by simp [State.withInstance]
@[simp] theorem State.withInstance_keys (s : State) (k : Nat) (f : Span → Span) : (s.withInstance k f).keys = s.keys := by simp [State.withInstance]
@[simp] theorem State.withInstance_via (s : State) (k : Nat) (f : Span → Span) : (s.withInstance k f).via = s.via := by simp [State.withInstance]
@[simp] theorem State.withInstance_power (s : State) (k : Nat) (f : Span → Span) : (s.withInstance k f).power = s.power := by simp [State.withInstance]
@[simp] theorem State.withInstance_writers (s : State) (k : Nat) (f : Span → Span) : (s.withInstance k f).writers = s.writers := by simp [State.withInstance]
@[simp] theorem State.withInstance_nextCore (s : State) (k : Nat) (f : Span → Span) : (s.withInstance k f).nextCore = s.nextCore := by simp [State.withInstance]

/-! ## State.count -/

@[simp] theorem State.count_inbox (s : State) (i n : Nat) : (s.count i n).inbox = s.inbox := rfl
@[simp] theorem State.count_devTurn (s : State) (i n : Nat) : (s.count i n).devTurn = s.devTurn := rfl
@[simp] theorem State.count_order (s : State) (i n : Nat) : (s.count i n).order = s.order := rfl
@[simp] theorem State.count_cur (s : State) (i n : Nat) : (s.count i n).cur = s.cur := rfl
@[simp] theorem State.count_fresh (s : State) (i n : Nat) : (s.count i n).fresh = s.fresh := rfl
@[simp] theorem State.count_residue (s : State) (i n : Nat) : (s.count i n).residue = s.residue := rfl
@[simp] theorem State.count_hostData (s : State) (i n : Nat) : (s.count i n).hostData = s.hostData := rfl
@[simp] theorem State.count_dbgPending (s : State) (i n : Nat) : (s.count i n).dbgPending = s.dbgPending := rfl
@[simp] theorem State.count_clock (s : State) (i n : Nat) : (s.count i n).clock = s.clock := rfl
@[simp] theorem State.count_ticks (s : State) (i n : Nat) : (s.count i n).ticks = s.ticks := rfl
@[simp] theorem State.count_corrected (s : State) (i n : Nat) : (s.count i n).corrected = s.corrected := rfl
@[simp] theorem State.count_waited (s : State) (i n : Nat) : (s.count i n).waited = s.waited := rfl
@[simp] theorem State.count_mem (s : State) (i n : Nat) : (s.count i n).mem = s.mem := rfl
@[simp] theorem State.count_memBad (s : State) (i n : Nat) : (s.count i n).memBad = s.memBad := rfl
@[simp] theorem State.count_stackUp (s : State) (i n : Nat) : (s.count i n).stackUp = s.stackUp := rfl
@[simp] theorem State.count_siteUp (s : State) (i n : Nat) : (s.count i n).siteUp = s.siteUp := rfl
@[simp] theorem State.count_cfg (s : State) (i n : Nat) : (s.count i n).cfg = s.cfg := rfl
@[simp] theorem State.count_domBase (s : State) (i n : Nat) : (s.count i n).domBase = s.domBase := rfl
@[simp] theorem State.count_domCount (s : State) (i n : Nat) : (s.count i n).domCount = s.domCount := rfl
@[simp] theorem State.count_dies (s : State) (i n : Nat) : (s.count i n).dies = s.dies := rfl
@[simp] theorem State.count_cores (s : State) (i n : Nat) : (s.count i n).cores = s.cores := rfl
@[simp] theorem State.count_launches (s : State) (i n : Nat) : (s.count i n).launches = s.launches := rfl
@[simp] theorem State.count_groups (s : State) (i n : Nat) : (s.count i n).groups = s.groups := rfl
@[simp] theorem State.count_waves (s : State) (i n : Nat) : (s.count i n).waves = s.waves := rfl
@[simp] theorem State.count_trees (s : State) (i n : Nat) : (s.count i n).trees = s.trees := rfl
@[simp] theorem State.count_copies (s : State) (i n : Nat) : (s.count i n).copies = s.copies := rfl
@[simp] theorem State.count_queues (s : State) (i n : Nat) : (s.count i n).queues = s.queues := rfl
@[simp] theorem State.count_nextQueue (s : State) (i n : Nat) : (s.count i n).nextQueue = s.nextQueue := rfl
@[simp] theorem State.count_keys (s : State) (i n : Nat) : (s.count i n).keys = s.keys := rfl
@[simp] theorem State.count_via (s : State) (i n : Nat) : (s.count i n).via = s.via := rfl
@[simp] theorem State.count_power (s : State) (i n : Nat) : (s.count i n).power = s.power := rfl
@[simp] theorem State.count_writers (s : State) (i n : Nat) : (s.count i n).writers = s.writers := rfl
@[simp] theorem State.count_nextCore (s : State) (i n : Nat) : (s.count i n).nextCore = s.nextCore := rfl

/-! ## Reading after a change -/

theorem State.withWave_self {s : State} {w : Nat} {wv : Wave} (f : Wave → Wave) (h : s.waves[w]? = some wv) :
    (s.withWave w f).waves[w]? = some (f wv) := by
  simp [State.withWave, h]

theorem State.withWave_other {s : State} {w v : Nat} (f : Wave → Wave) (h : v ≠ w) :
    (s.withWave w f).waves[v]? = s.waves[v]? := by
  simp [State.withWave, Ne.symm h]

theorem State.withWave_twice (s : State) (w : Nat) (f g : Wave → Wave) :
    (s.withWave w f).withWave w g = s.withWave w (fun wv => g (f wv)) := by
  simp [State.withWave, List.modify_modify_eq, Function.comp_def]

theorem State.withGroup_self {s : State} {g : Nat} {x : Group} (f : Group → Group) (h : s.groups[g]? = some x) :
    (s.withGroup g f).groups[g]? = some (f x) := by
  simp [State.withGroup, h]

theorem State.withLaunch_self {s : State} {l : Nat} {x : Launch} (f : Launch → Launch) (h : s.launches[l]? = some x) :
    (s.withLaunch l f).launches[l]? = some (f x) := by
  simp [State.withLaunch, h]

/-! ## Wave.setReg -/

@[simp] theorem Wave.setReg_launch (wv : Wave) (r : Nat) (v : VReg) : (wv.setReg r v).launch = wv.launch := rfl
@[simp] theorem Wave.setReg_group (wv : Wave) (r : Nat) (v : VReg) : (wv.setReg r v).group = wv.group := rfl
@[simp] theorem Wave.setReg_waveid (wv : Wave) (r : Nat) (v : VReg) : (wv.setReg r v).waveid = wv.waveid := rfl
@[simp] theorem Wave.setReg_lwave (wv : Wave) (r : Nat) (v : VReg) : (wv.setReg r v).lwave = wv.lwave := rfl
@[simp] theorem Wave.setReg_role (wv : Wave) (r : Nat) (v : VReg) : (wv.setReg r v).role = wv.role := rfl
@[simp] theorem Wave.setReg_vregs (wv : Wave) (r : Nat) (v : VReg) : (wv.setReg r v).vregs = wv.vregs := rfl
@[simp] theorem Wave.setReg_life (wv : Wave) (r : Nat) (v : VReg) : (wv.setReg r v).life = wv.life := rfl
@[simp] theorem Wave.setReg_place (wv : Wave) (r : Nat) (v : VReg) : (wv.setReg r v).place = wv.place := rfl
@[simp] theorem Wave.setReg_kept (wv : Wave) (r : Nat) (v : VReg) : (wv.setReg r v).kept = wv.kept := rfl
@[simp] theorem Wave.setReg_keptRegs (wv : Wave) (r : Nat) (v : VReg) : (wv.setReg r v).keptRegs = wv.keptRegs := rfl
@[simp] theorem Wave.setReg_keptTarn (wv : Wave) (r : Nat) (v : VReg) : (wv.setReg r v).keptTarn = wv.keptTarn := rfl
@[simp] theorem Wave.setReg_preds (wv : Wave) (r : Nat) (v : VReg) : (wv.setReg r v).preds = wv.preds := rfl
@[simp] theorem Wave.setReg_xregs (wv : Wave) (r : Nat) (v : VReg) : (wv.setReg r v).xregs = wv.xregs := rfl
@[simp] theorem Wave.setReg_fctl (wv : Wave) (r : Nat) (v : VReg) : (wv.setReg r v).fctl = wv.fctl := rfl
@[simp] theorem Wave.setReg_fstat (wv : Wave) (r : Nat) (v : VReg) : (wv.setReg r v).fstat = wv.fstat := rfl
@[simp] theorem Wave.setReg_mflags (wv : Wave) (r : Nat) (v : VReg) : (wv.setReg r v).mflags = wv.mflags := rfl
@[simp] theorem Wave.setReg_death (wv : Wave) (r : Nat) (v : VReg) : (wv.setReg r v).death = wv.death := rfl
@[simp] theorem Wave.setReg_live (wv : Wave) (r : Nat) (v : VReg) : (wv.setReg r v).live = wv.live := rfl
@[simp] theorem Wave.setReg_dead (wv : Wave) (r : Nat) (v : VReg) : (wv.setReg r v).dead = wv.dead := rfl
@[simp] theorem Wave.setReg_ctr (wv : Wave) (r : Nat) (v : VReg) : (wv.setReg r v).ctr = wv.ctr := rfl
@[simp] theorem Wave.setReg_tarn (wv : Wave) (r : Nat) (v : VReg) : (wv.setReg r v).tarn = wv.tarn := rfl
@[simp] theorem Wave.setReg_tarnBad (wv : Wave) (r : Nat) (v : VReg) : (wv.setReg r v).tarnBad = wv.tarnBad := rfl
@[simp] theorem Wave.setReg_table (wv : Wave) (r : Nat) (v : VReg) : (wv.setReg r v).table = wv.table := rfl
@[simp] theorem Wave.setReg_frame (wv : Wave) (r : Nat) (v : VReg) : (wv.setReg r v).frame = wv.frame := rfl
@[simp] theorem Wave.setReg_level (wv : Wave) (r : Nat) (v : VReg) : (wv.setReg r v).level = wv.level := rfl
@[simp] theorem Wave.setReg_saved (wv : Wave) (r : Nat) (v : VReg) : (wv.setReg r v).saved = wv.saved := rfl
@[simp] theorem Wave.setReg_rq (wv : Wave) (r : Nat) (v : VReg) : (wv.setReg r v).rq = wv.rq := rfl
@[simp] theorem Wave.setReg_reinj (wv : Wave) (r : Nat) (v : VReg) : (wv.setReg r v).reinj = wv.reinj := rfl
@[simp] theorem Wave.setReg_pending (wv : Wave) (r : Nat) (v : VReg) : (wv.setReg r v).pending = wv.pending := rfl
@[simp] theorem Wave.setReg_flights (wv : Wave) (r : Nat) (v : VReg) : (wv.setReg r v).flights = wv.flights := rfl
@[simp] theorem Wave.setReg_nextFlight (wv : Wave) (r : Nat) (v : VReg) : (wv.setReg r v).nextFlight = wv.nextFlight := rfl
@[simp] theorem Wave.setReg_closedC (wv : Wave) (r : Nat) (v : VReg) : (wv.setReg r v).closedC = wv.closedC := rfl
@[simp] theorem Wave.setReg_closedM (wv : Wave) (r : Nat) (v : VReg) : (wv.setReg r v).closedM = wv.closedM := rfl
@[simp] theorem Wave.setReg_faulting (wv : Wave) (r : Nat) (v : VReg) : (wv.setReg r v).faulting = wv.faulting := rfl
@[simp] theorem Wave.setReg_parked (wv : Wave) (r : Nat) (v : VReg) : (wv.setReg r v).parked = wv.parked := rfl
@[simp] theorem Wave.setReg_stopped (wv : Wave) (r : Nat) (v : VReg) : (wv.setReg r v).stopped = wv.stopped := rfl
@[simp] theorem Wave.setReg_stopAt (wv : Wave) (r : Nat) (v : VReg) : (wv.setReg r v).stopAt = wv.stopAt := rfl
@[simp] theorem Wave.setReg_entering (wv : Wave) (r : Nat) (v : VReg) : (wv.setReg r v).entering = wv.entering := rfl
@[simp] theorem Wave.setReg_stopping (wv : Wave) (r : Nat) (v : VReg) : (wv.setReg r v).stopping = wv.stopping := rfl
@[simp] theorem Wave.setReg_traps (wv : Wave) (r : Nat) (v : VReg) : (wv.setReg r v).traps = wv.traps := rfl
@[simp] theorem Wave.setReg_since (wv : Wave) (r : Nat) (v : VReg) : (wv.setReg r v).since = wv.since := rfl
@[simp] theorem Wave.setReg_pair (wv : Wave) (r : Nat) (v : VReg) : (wv.setReg r v).pair = wv.pair := rfl
@[simp] theorem Wave.setReg_qretired (wv : Wave) (r : Nat) (v : VReg) : (wv.setReg r v).qretired = wv.qretired := rfl
@[simp] theorem Wave.setReg_qended (wv : Wave) (r : Nat) (v : VReg) : (wv.setReg r v).qended = wv.qended := rfl
@[simp] theorem Wave.setReg_qwait (wv : Wave) (r : Nat) (v : VReg) : (wv.setReg r v).qwait = wv.qwait := rfl
@[simp] theorem Wave.setReg_buf (wv : Wave) (r : Nat) (v : VReg) : (wv.setReg r v).buf = wv.buf := rfl
@[simp] theorem Wave.setReg_errSrc (wv : Wave) (r : Nat) (v : VReg) : (wv.setReg r v).errSrc = wv.errSrc := rfl
@[simp] theorem Wave.setReg_raceSpace (wv : Wave) (r : Nat) (v : VReg) : (wv.setReg r v).raceSpace = wv.raceSpace := rfl
@[simp] theorem Wave.setReg_children (wv : Wave) (r : Nat) (v : VReg) : (wv.setReg r v).children = wv.children := rfl
@[simp] theorem Wave.setReg_aborted (wv : Wave) (r : Nat) (v : VReg) : (wv.setReg r v).aborted = wv.aborted := rfl
@[simp] theorem Wave.setReg_leaving (wv : Wave) (r : Nat) (v : VReg) : (wv.setReg r v).leaving = wv.leaving := rfl
@[simp] theorem Wave.setReg_area (wv : Wave) (r : Nat) (v : VReg) : (wv.setReg r v).area = wv.area := rfl

/-! ## Wave.setPred -/

@[simp] theorem Wave.setPred_launch (wv : Wave) (p : PNum) (m v : Mask) : (wv.setPred p m v).launch = wv.launch := rfl
@[simp] theorem Wave.setPred_group (wv : Wave) (p : PNum) (m v : Mask) : (wv.setPred p m v).group = wv.group := rfl
@[simp] theorem Wave.setPred_waveid (wv : Wave) (p : PNum) (m v : Mask) : (wv.setPred p m v).waveid = wv.waveid := rfl
@[simp] theorem Wave.setPred_lwave (wv : Wave) (p : PNum) (m v : Mask) : (wv.setPred p m v).lwave = wv.lwave := rfl
@[simp] theorem Wave.setPred_role (wv : Wave) (p : PNum) (m v : Mask) : (wv.setPred p m v).role = wv.role := rfl
@[simp] theorem Wave.setPred_vregs (wv : Wave) (p : PNum) (m v : Mask) : (wv.setPred p m v).vregs = wv.vregs := rfl
@[simp] theorem Wave.setPred_life (wv : Wave) (p : PNum) (m v : Mask) : (wv.setPred p m v).life = wv.life := rfl
@[simp] theorem Wave.setPred_place (wv : Wave) (p : PNum) (m v : Mask) : (wv.setPred p m v).place = wv.place := rfl
@[simp] theorem Wave.setPred_regs (wv : Wave) (p : PNum) (m v : Mask) : (wv.setPred p m v).regs = wv.regs := rfl
@[simp] theorem Wave.setPred_kept (wv : Wave) (p : PNum) (m v : Mask) : (wv.setPred p m v).kept = wv.kept := rfl
@[simp] theorem Wave.setPred_keptRegs (wv : Wave) (p : PNum) (m v : Mask) : (wv.setPred p m v).keptRegs = wv.keptRegs := rfl
@[simp] theorem Wave.setPred_keptTarn (wv : Wave) (p : PNum) (m v : Mask) : (wv.setPred p m v).keptTarn = wv.keptTarn := rfl
@[simp] theorem Wave.setPred_xregs (wv : Wave) (p : PNum) (m v : Mask) : (wv.setPred p m v).xregs = wv.xregs := rfl
@[simp] theorem Wave.setPred_fctl (wv : Wave) (p : PNum) (m v : Mask) : (wv.setPred p m v).fctl = wv.fctl := rfl
@[simp] theorem Wave.setPred_fstat (wv : Wave) (p : PNum) (m v : Mask) : (wv.setPred p m v).fstat = wv.fstat := rfl
@[simp] theorem Wave.setPred_mflags (wv : Wave) (p : PNum) (m v : Mask) : (wv.setPred p m v).mflags = wv.mflags := rfl
@[simp] theorem Wave.setPred_death (wv : Wave) (p : PNum) (m v : Mask) : (wv.setPred p m v).death = wv.death := rfl
@[simp] theorem Wave.setPred_live (wv : Wave) (p : PNum) (m v : Mask) : (wv.setPred p m v).live = wv.live := rfl
@[simp] theorem Wave.setPred_dead (wv : Wave) (p : PNum) (m v : Mask) : (wv.setPred p m v).dead = wv.dead := rfl
@[simp] theorem Wave.setPred_ctr (wv : Wave) (p : PNum) (m v : Mask) : (wv.setPred p m v).ctr = wv.ctr := rfl
@[simp] theorem Wave.setPred_tarn (wv : Wave) (p : PNum) (m v : Mask) : (wv.setPred p m v).tarn = wv.tarn := rfl
@[simp] theorem Wave.setPred_tarnBad (wv : Wave) (p : PNum) (m v : Mask) : (wv.setPred p m v).tarnBad = wv.tarnBad := rfl
@[simp] theorem Wave.setPred_table (wv : Wave) (p : PNum) (m v : Mask) : (wv.setPred p m v).table = wv.table := rfl
@[simp] theorem Wave.setPred_frame (wv : Wave) (p : PNum) (m v : Mask) : (wv.setPred p m v).frame = wv.frame := rfl
@[simp] theorem Wave.setPred_level (wv : Wave) (p : PNum) (m v : Mask) : (wv.setPred p m v).level = wv.level := rfl
@[simp] theorem Wave.setPred_saved (wv : Wave) (p : PNum) (m v : Mask) : (wv.setPred p m v).saved = wv.saved := rfl
@[simp] theorem Wave.setPred_rq (wv : Wave) (p : PNum) (m v : Mask) : (wv.setPred p m v).rq = wv.rq := rfl
@[simp] theorem Wave.setPred_reinj (wv : Wave) (p : PNum) (m v : Mask) : (wv.setPred p m v).reinj = wv.reinj := rfl
@[simp] theorem Wave.setPred_pending (wv : Wave) (p : PNum) (m v : Mask) : (wv.setPred p m v).pending = wv.pending := rfl
@[simp] theorem Wave.setPred_flights (wv : Wave) (p : PNum) (m v : Mask) : (wv.setPred p m v).flights = wv.flights := rfl
@[simp] theorem Wave.setPred_nextFlight (wv : Wave) (p : PNum) (m v : Mask) : (wv.setPred p m v).nextFlight = wv.nextFlight := rfl
@[simp] theorem Wave.setPred_closedC (wv : Wave) (p : PNum) (m v : Mask) : (wv.setPred p m v).closedC = wv.closedC := rfl
@[simp] theorem Wave.setPred_closedM (wv : Wave) (p : PNum) (m v : Mask) : (wv.setPred p m v).closedM = wv.closedM := rfl
@[simp] theorem Wave.setPred_faulting (wv : Wave) (p : PNum) (m v : Mask) : (wv.setPred p m v).faulting = wv.faulting := rfl
@[simp] theorem Wave.setPred_parked (wv : Wave) (p : PNum) (m v : Mask) : (wv.setPred p m v).parked = wv.parked := rfl
@[simp] theorem Wave.setPred_stopped (wv : Wave) (p : PNum) (m v : Mask) : (wv.setPred p m v).stopped = wv.stopped := rfl
@[simp] theorem Wave.setPred_stopAt (wv : Wave) (p : PNum) (m v : Mask) : (wv.setPred p m v).stopAt = wv.stopAt := rfl
@[simp] theorem Wave.setPred_entering (wv : Wave) (p : PNum) (m v : Mask) : (wv.setPred p m v).entering = wv.entering := rfl
@[simp] theorem Wave.setPred_stopping (wv : Wave) (p : PNum) (m v : Mask) : (wv.setPred p m v).stopping = wv.stopping := rfl
@[simp] theorem Wave.setPred_traps (wv : Wave) (p : PNum) (m v : Mask) : (wv.setPred p m v).traps = wv.traps := rfl
@[simp] theorem Wave.setPred_since (wv : Wave) (p : PNum) (m v : Mask) : (wv.setPred p m v).since = wv.since := rfl
@[simp] theorem Wave.setPred_pair (wv : Wave) (p : PNum) (m v : Mask) : (wv.setPred p m v).pair = wv.pair := rfl
@[simp] theorem Wave.setPred_qretired (wv : Wave) (p : PNum) (m v : Mask) : (wv.setPred p m v).qretired = wv.qretired := rfl
@[simp] theorem Wave.setPred_qended (wv : Wave) (p : PNum) (m v : Mask) : (wv.setPred p m v).qended = wv.qended := rfl
@[simp] theorem Wave.setPred_qwait (wv : Wave) (p : PNum) (m v : Mask) : (wv.setPred p m v).qwait = wv.qwait := rfl
@[simp] theorem Wave.setPred_buf (wv : Wave) (p : PNum) (m v : Mask) : (wv.setPred p m v).buf = wv.buf := rfl
@[simp] theorem Wave.setPred_errSrc (wv : Wave) (p : PNum) (m v : Mask) : (wv.setPred p m v).errSrc = wv.errSrc := rfl
@[simp] theorem Wave.setPred_raceSpace (wv : Wave) (p : PNum) (m v : Mask) : (wv.setPred p m v).raceSpace = wv.raceSpace := rfl
@[simp] theorem Wave.setPred_children (wv : Wave) (p : PNum) (m v : Mask) : (wv.setPred p m v).children = wv.children := rfl
@[simp] theorem Wave.setPred_aborted (wv : Wave) (p : PNum) (m v : Mask) : (wv.setPred p m v).aborted = wv.aborted := rfl
@[simp] theorem Wave.setPred_leaving (wv : Wave) (p : PNum) (m v : Mask) : (wv.setPred p m v).leaving = wv.leaving := rfl
@[simp] theorem Wave.setPred_area (wv : Wave) (p : PNum) (m v : Mask) : (wv.setPred p m v).area = wv.area := rfl

/-! ## Wave.raiseFlags -/

@[simp] theorem Wave.raiseFlags_launch (wv : Wave) (x : Lanes (BitVec 8)) : (wv.raiseFlags x).launch = wv.launch := by simp only [Wave.raiseFlags]
@[simp] theorem Wave.raiseFlags_group (wv : Wave) (x : Lanes (BitVec 8)) : (wv.raiseFlags x).group = wv.group := by simp only [Wave.raiseFlags]
@[simp] theorem Wave.raiseFlags_waveid (wv : Wave) (x : Lanes (BitVec 8)) : (wv.raiseFlags x).waveid = wv.waveid := by simp only [Wave.raiseFlags]
@[simp] theorem Wave.raiseFlags_lwave (wv : Wave) (x : Lanes (BitVec 8)) : (wv.raiseFlags x).lwave = wv.lwave := by simp only [Wave.raiseFlags]
@[simp] theorem Wave.raiseFlags_role (wv : Wave) (x : Lanes (BitVec 8)) : (wv.raiseFlags x).role = wv.role := by simp only [Wave.raiseFlags]
@[simp] theorem Wave.raiseFlags_vregs (wv : Wave) (x : Lanes (BitVec 8)) : (wv.raiseFlags x).vregs = wv.vregs := by simp only [Wave.raiseFlags]
@[simp] theorem Wave.raiseFlags_life (wv : Wave) (x : Lanes (BitVec 8)) : (wv.raiseFlags x).life = wv.life := by simp only [Wave.raiseFlags]
@[simp] theorem Wave.raiseFlags_place (wv : Wave) (x : Lanes (BitVec 8)) : (wv.raiseFlags x).place = wv.place := by simp only [Wave.raiseFlags]
@[simp] theorem Wave.raiseFlags_regs (wv : Wave) (x : Lanes (BitVec 8)) : (wv.raiseFlags x).regs = wv.regs := by simp only [Wave.raiseFlags]
@[simp] theorem Wave.raiseFlags_kept (wv : Wave) (x : Lanes (BitVec 8)) : (wv.raiseFlags x).kept = wv.kept := by simp only [Wave.raiseFlags]
@[simp] theorem Wave.raiseFlags_keptRegs (wv : Wave) (x : Lanes (BitVec 8)) : (wv.raiseFlags x).keptRegs = wv.keptRegs := by simp only [Wave.raiseFlags]
@[simp] theorem Wave.raiseFlags_keptTarn (wv : Wave) (x : Lanes (BitVec 8)) : (wv.raiseFlags x).keptTarn = wv.keptTarn := by simp only [Wave.raiseFlags]
@[simp] theorem Wave.raiseFlags_preds (wv : Wave) (x : Lanes (BitVec 8)) : (wv.raiseFlags x).preds = wv.preds := by simp only [Wave.raiseFlags]
@[simp] theorem Wave.raiseFlags_xregs (wv : Wave) (x : Lanes (BitVec 8)) : (wv.raiseFlags x).xregs = wv.xregs := by simp only [Wave.raiseFlags]
@[simp] theorem Wave.raiseFlags_fctl (wv : Wave) (x : Lanes (BitVec 8)) : (wv.raiseFlags x).fctl = wv.fctl := by simp only [Wave.raiseFlags]
@[simp] theorem Wave.raiseFlags_mflags (wv : Wave) (x : Lanes (BitVec 8)) : (wv.raiseFlags x).mflags = wv.mflags := by simp only [Wave.raiseFlags]
@[simp] theorem Wave.raiseFlags_death (wv : Wave) (x : Lanes (BitVec 8)) : (wv.raiseFlags x).death = wv.death := by simp only [Wave.raiseFlags]
@[simp] theorem Wave.raiseFlags_live (wv : Wave) (x : Lanes (BitVec 8)) : (wv.raiseFlags x).live = wv.live := by simp only [Wave.raiseFlags]
@[simp] theorem Wave.raiseFlags_dead (wv : Wave) (x : Lanes (BitVec 8)) : (wv.raiseFlags x).dead = wv.dead := by simp only [Wave.raiseFlags]
@[simp] theorem Wave.raiseFlags_ctr (wv : Wave) (x : Lanes (BitVec 8)) : (wv.raiseFlags x).ctr = wv.ctr := by simp only [Wave.raiseFlags]
@[simp] theorem Wave.raiseFlags_tarn (wv : Wave) (x : Lanes (BitVec 8)) : (wv.raiseFlags x).tarn = wv.tarn := by simp only [Wave.raiseFlags]
@[simp] theorem Wave.raiseFlags_tarnBad (wv : Wave) (x : Lanes (BitVec 8)) : (wv.raiseFlags x).tarnBad = wv.tarnBad := by simp only [Wave.raiseFlags]
@[simp] theorem Wave.raiseFlags_table (wv : Wave) (x : Lanes (BitVec 8)) : (wv.raiseFlags x).table = wv.table := by simp only [Wave.raiseFlags]
@[simp] theorem Wave.raiseFlags_frame (wv : Wave) (x : Lanes (BitVec 8)) : (wv.raiseFlags x).frame = wv.frame := by simp only [Wave.raiseFlags]
@[simp] theorem Wave.raiseFlags_level (wv : Wave) (x : Lanes (BitVec 8)) : (wv.raiseFlags x).level = wv.level := by simp only [Wave.raiseFlags]
@[simp] theorem Wave.raiseFlags_saved (wv : Wave) (x : Lanes (BitVec 8)) : (wv.raiseFlags x).saved = wv.saved := by simp only [Wave.raiseFlags]
@[simp] theorem Wave.raiseFlags_rq (wv : Wave) (x : Lanes (BitVec 8)) : (wv.raiseFlags x).rq = wv.rq := by simp only [Wave.raiseFlags]
@[simp] theorem Wave.raiseFlags_reinj (wv : Wave) (x : Lanes (BitVec 8)) : (wv.raiseFlags x).reinj = wv.reinj := by simp only [Wave.raiseFlags]
@[simp] theorem Wave.raiseFlags_pending (wv : Wave) (x : Lanes (BitVec 8)) : (wv.raiseFlags x).pending = wv.pending := by simp only [Wave.raiseFlags]
@[simp] theorem Wave.raiseFlags_flights (wv : Wave) (x : Lanes (BitVec 8)) : (wv.raiseFlags x).flights = wv.flights := by simp only [Wave.raiseFlags]
@[simp] theorem Wave.raiseFlags_nextFlight (wv : Wave) (x : Lanes (BitVec 8)) : (wv.raiseFlags x).nextFlight = wv.nextFlight := by simp only [Wave.raiseFlags]
@[simp] theorem Wave.raiseFlags_closedC (wv : Wave) (x : Lanes (BitVec 8)) : (wv.raiseFlags x).closedC = wv.closedC := by simp only [Wave.raiseFlags]
@[simp] theorem Wave.raiseFlags_closedM (wv : Wave) (x : Lanes (BitVec 8)) : (wv.raiseFlags x).closedM = wv.closedM := by simp only [Wave.raiseFlags]
@[simp] theorem Wave.raiseFlags_faulting (wv : Wave) (x : Lanes (BitVec 8)) : (wv.raiseFlags x).faulting = wv.faulting := by simp only [Wave.raiseFlags]
@[simp] theorem Wave.raiseFlags_parked (wv : Wave) (x : Lanes (BitVec 8)) : (wv.raiseFlags x).parked = wv.parked := by simp only [Wave.raiseFlags]
@[simp] theorem Wave.raiseFlags_stopped (wv : Wave) (x : Lanes (BitVec 8)) : (wv.raiseFlags x).stopped = wv.stopped := by simp only [Wave.raiseFlags]
@[simp] theorem Wave.raiseFlags_stopAt (wv : Wave) (x : Lanes (BitVec 8)) : (wv.raiseFlags x).stopAt = wv.stopAt := by simp only [Wave.raiseFlags]
@[simp] theorem Wave.raiseFlags_entering (wv : Wave) (x : Lanes (BitVec 8)) : (wv.raiseFlags x).entering = wv.entering := by simp only [Wave.raiseFlags]
@[simp] theorem Wave.raiseFlags_stopping (wv : Wave) (x : Lanes (BitVec 8)) : (wv.raiseFlags x).stopping = wv.stopping := by simp only [Wave.raiseFlags]
@[simp] theorem Wave.raiseFlags_traps (wv : Wave) (x : Lanes (BitVec 8)) : (wv.raiseFlags x).traps = wv.traps := by simp only [Wave.raiseFlags]
@[simp] theorem Wave.raiseFlags_since (wv : Wave) (x : Lanes (BitVec 8)) : (wv.raiseFlags x).since = wv.since := by simp only [Wave.raiseFlags]
@[simp] theorem Wave.raiseFlags_pair (wv : Wave) (x : Lanes (BitVec 8)) : (wv.raiseFlags x).pair = wv.pair := by simp only [Wave.raiseFlags]
@[simp] theorem Wave.raiseFlags_qretired (wv : Wave) (x : Lanes (BitVec 8)) : (wv.raiseFlags x).qretired = wv.qretired := by simp only [Wave.raiseFlags]
@[simp] theorem Wave.raiseFlags_qended (wv : Wave) (x : Lanes (BitVec 8)) : (wv.raiseFlags x).qended = wv.qended := by simp only [Wave.raiseFlags]
@[simp] theorem Wave.raiseFlags_qwait (wv : Wave) (x : Lanes (BitVec 8)) : (wv.raiseFlags x).qwait = wv.qwait := by simp only [Wave.raiseFlags]
@[simp] theorem Wave.raiseFlags_buf (wv : Wave) (x : Lanes (BitVec 8)) : (wv.raiseFlags x).buf = wv.buf := by simp only [Wave.raiseFlags]
@[simp] theorem Wave.raiseFlags_errSrc (wv : Wave) (x : Lanes (BitVec 8)) : (wv.raiseFlags x).errSrc = wv.errSrc := by simp only [Wave.raiseFlags]
@[simp] theorem Wave.raiseFlags_raceSpace (wv : Wave) (x : Lanes (BitVec 8)) : (wv.raiseFlags x).raceSpace = wv.raceSpace := by simp only [Wave.raiseFlags]
@[simp] theorem Wave.raiseFlags_children (wv : Wave) (x : Lanes (BitVec 8)) : (wv.raiseFlags x).children = wv.children := by simp only [Wave.raiseFlags]
@[simp] theorem Wave.raiseFlags_aborted (wv : Wave) (x : Lanes (BitVec 8)) : (wv.raiseFlags x).aborted = wv.aborted := by simp only [Wave.raiseFlags]
@[simp] theorem Wave.raiseFlags_leaving (wv : Wave) (x : Lanes (BitVec 8)) : (wv.raiseFlags x).leaving = wv.leaving := by simp only [Wave.raiseFlags]
@[simp] theorem Wave.raiseFlags_area (wv : Wave) (x : Lanes (BitVec 8)) : (wv.raiseFlags x).area = wv.area := by simp only [Wave.raiseFlags]

/-! ## Wave.withX -/

@[simp] theorem Wave.withX_launch (wv : Wave) (x : XNum) (f : XReg → XReg) : (wv.withX x f).launch = wv.launch := by simp only [Wave.withX]
@[simp] theorem Wave.withX_group (wv : Wave) (x : XNum) (f : XReg → XReg) : (wv.withX x f).group = wv.group := by simp only [Wave.withX]
@[simp] theorem Wave.withX_waveid (wv : Wave) (x : XNum) (f : XReg → XReg) : (wv.withX x f).waveid = wv.waveid := by simp only [Wave.withX]
@[simp] theorem Wave.withX_lwave (wv : Wave) (x : XNum) (f : XReg → XReg) : (wv.withX x f).lwave = wv.lwave := by simp only [Wave.withX]
@[simp] theorem Wave.withX_role (wv : Wave) (x : XNum) (f : XReg → XReg) : (wv.withX x f).role = wv.role := by simp only [Wave.withX]
@[simp] theorem Wave.withX_vregs (wv : Wave) (x : XNum) (f : XReg → XReg) : (wv.withX x f).vregs = wv.vregs := by simp only [Wave.withX]
@[simp] theorem Wave.withX_life (wv : Wave) (x : XNum) (f : XReg → XReg) : (wv.withX x f).life = wv.life := by simp only [Wave.withX]
@[simp] theorem Wave.withX_place (wv : Wave) (x : XNum) (f : XReg → XReg) : (wv.withX x f).place = wv.place := by simp only [Wave.withX]
@[simp] theorem Wave.withX_regs (wv : Wave) (x : XNum) (f : XReg → XReg) : (wv.withX x f).regs = wv.regs := by simp only [Wave.withX]
@[simp] theorem Wave.withX_kept (wv : Wave) (x : XNum) (f : XReg → XReg) : (wv.withX x f).kept = wv.kept := by simp only [Wave.withX]
@[simp] theorem Wave.withX_keptRegs (wv : Wave) (x : XNum) (f : XReg → XReg) : (wv.withX x f).keptRegs = wv.keptRegs := by simp only [Wave.withX]
@[simp] theorem Wave.withX_keptTarn (wv : Wave) (x : XNum) (f : XReg → XReg) : (wv.withX x f).keptTarn = wv.keptTarn := by simp only [Wave.withX]
@[simp] theorem Wave.withX_preds (wv : Wave) (x : XNum) (f : XReg → XReg) : (wv.withX x f).preds = wv.preds := by simp only [Wave.withX]
@[simp] theorem Wave.withX_fctl (wv : Wave) (x : XNum) (f : XReg → XReg) : (wv.withX x f).fctl = wv.fctl := by simp only [Wave.withX]
@[simp] theorem Wave.withX_fstat (wv : Wave) (x : XNum) (f : XReg → XReg) : (wv.withX x f).fstat = wv.fstat := by simp only [Wave.withX]
@[simp] theorem Wave.withX_mflags (wv : Wave) (x : XNum) (f : XReg → XReg) : (wv.withX x f).mflags = wv.mflags := by simp only [Wave.withX]
@[simp] theorem Wave.withX_death (wv : Wave) (x : XNum) (f : XReg → XReg) : (wv.withX x f).death = wv.death := by simp only [Wave.withX]
@[simp] theorem Wave.withX_live (wv : Wave) (x : XNum) (f : XReg → XReg) : (wv.withX x f).live = wv.live := by simp only [Wave.withX]
@[simp] theorem Wave.withX_dead (wv : Wave) (x : XNum) (f : XReg → XReg) : (wv.withX x f).dead = wv.dead := by simp only [Wave.withX]
@[simp] theorem Wave.withX_ctr (wv : Wave) (x : XNum) (f : XReg → XReg) : (wv.withX x f).ctr = wv.ctr := by simp only [Wave.withX]
@[simp] theorem Wave.withX_tarn (wv : Wave) (x : XNum) (f : XReg → XReg) : (wv.withX x f).tarn = wv.tarn := by simp only [Wave.withX]
@[simp] theorem Wave.withX_tarnBad (wv : Wave) (x : XNum) (f : XReg → XReg) : (wv.withX x f).tarnBad = wv.tarnBad := by simp only [Wave.withX]
@[simp] theorem Wave.withX_table (wv : Wave) (x : XNum) (f : XReg → XReg) : (wv.withX x f).table = wv.table := by simp only [Wave.withX]
@[simp] theorem Wave.withX_frame (wv : Wave) (x : XNum) (f : XReg → XReg) : (wv.withX x f).frame = wv.frame := by simp only [Wave.withX]
@[simp] theorem Wave.withX_level (wv : Wave) (x : XNum) (f : XReg → XReg) : (wv.withX x f).level = wv.level := by simp only [Wave.withX]
@[simp] theorem Wave.withX_saved (wv : Wave) (x : XNum) (f : XReg → XReg) : (wv.withX x f).saved = wv.saved := by simp only [Wave.withX]
@[simp] theorem Wave.withX_rq (wv : Wave) (x : XNum) (f : XReg → XReg) : (wv.withX x f).rq = wv.rq := by simp only [Wave.withX]
@[simp] theorem Wave.withX_reinj (wv : Wave) (x : XNum) (f : XReg → XReg) : (wv.withX x f).reinj = wv.reinj := by simp only [Wave.withX]
@[simp] theorem Wave.withX_pending (wv : Wave) (x : XNum) (f : XReg → XReg) : (wv.withX x f).pending = wv.pending := by simp only [Wave.withX]
@[simp] theorem Wave.withX_flights (wv : Wave) (x : XNum) (f : XReg → XReg) : (wv.withX x f).flights = wv.flights := by simp only [Wave.withX]
@[simp] theorem Wave.withX_nextFlight (wv : Wave) (x : XNum) (f : XReg → XReg) : (wv.withX x f).nextFlight = wv.nextFlight := by simp only [Wave.withX]
@[simp] theorem Wave.withX_closedC (wv : Wave) (x : XNum) (f : XReg → XReg) : (wv.withX x f).closedC = wv.closedC := by simp only [Wave.withX]
@[simp] theorem Wave.withX_closedM (wv : Wave) (x : XNum) (f : XReg → XReg) : (wv.withX x f).closedM = wv.closedM := by simp only [Wave.withX]
@[simp] theorem Wave.withX_faulting (wv : Wave) (x : XNum) (f : XReg → XReg) : (wv.withX x f).faulting = wv.faulting := by simp only [Wave.withX]
@[simp] theorem Wave.withX_parked (wv : Wave) (x : XNum) (f : XReg → XReg) : (wv.withX x f).parked = wv.parked := by simp only [Wave.withX]
@[simp] theorem Wave.withX_stopped (wv : Wave) (x : XNum) (f : XReg → XReg) : (wv.withX x f).stopped = wv.stopped := by simp only [Wave.withX]
@[simp] theorem Wave.withX_stopAt (wv : Wave) (x : XNum) (f : XReg → XReg) : (wv.withX x f).stopAt = wv.stopAt := by simp only [Wave.withX]
@[simp] theorem Wave.withX_entering (wv : Wave) (x : XNum) (f : XReg → XReg) : (wv.withX x f).entering = wv.entering := by simp only [Wave.withX]
@[simp] theorem Wave.withX_stopping (wv : Wave) (x : XNum) (f : XReg → XReg) : (wv.withX x f).stopping = wv.stopping := by simp only [Wave.withX]
@[simp] theorem Wave.withX_traps (wv : Wave) (x : XNum) (f : XReg → XReg) : (wv.withX x f).traps = wv.traps := by simp only [Wave.withX]
@[simp] theorem Wave.withX_since (wv : Wave) (x : XNum) (f : XReg → XReg) : (wv.withX x f).since = wv.since := by simp only [Wave.withX]
@[simp] theorem Wave.withX_pair (wv : Wave) (x : XNum) (f : XReg → XReg) : (wv.withX x f).pair = wv.pair := by simp only [Wave.withX]
@[simp] theorem Wave.withX_qretired (wv : Wave) (x : XNum) (f : XReg → XReg) : (wv.withX x f).qretired = wv.qretired := by simp only [Wave.withX]
@[simp] theorem Wave.withX_qended (wv : Wave) (x : XNum) (f : XReg → XReg) : (wv.withX x f).qended = wv.qended := by simp only [Wave.withX]
@[simp] theorem Wave.withX_qwait (wv : Wave) (x : XNum) (f : XReg → XReg) : (wv.withX x f).qwait = wv.qwait := by simp only [Wave.withX]
@[simp] theorem Wave.withX_buf (wv : Wave) (x : XNum) (f : XReg → XReg) : (wv.withX x f).buf = wv.buf := by simp only [Wave.withX]
@[simp] theorem Wave.withX_errSrc (wv : Wave) (x : XNum) (f : XReg → XReg) : (wv.withX x f).errSrc = wv.errSrc := by simp only [Wave.withX]
@[simp] theorem Wave.withX_raceSpace (wv : Wave) (x : XNum) (f : XReg → XReg) : (wv.withX x f).raceSpace = wv.raceSpace := by simp only [Wave.withX]
@[simp] theorem Wave.withX_children (wv : Wave) (x : XNum) (f : XReg → XReg) : (wv.withX x f).children = wv.children := by simp only [Wave.withX]
@[simp] theorem Wave.withX_aborted (wv : Wave) (x : XNum) (f : XReg → XReg) : (wv.withX x f).aborted = wv.aborted := by simp only [Wave.withX]
@[simp] theorem Wave.withX_leaving (wv : Wave) (x : XNum) (f : XReg → XReg) : (wv.withX x f).leaving = wv.leaving := by simp only [Wave.withX]
@[simp] theorem Wave.withX_area (wv : Wave) (x : XNum) (f : XReg → XReg) : (wv.withX x f).area = wv.area := by simp only [Wave.withX]

/-! ## Wave.withSplit -/

@[simp] theorem Wave.withSplit_launch (wv : Wave) (k : Nat) (f : Split → Split) : (wv.withSplit k f).launch = wv.launch := rfl
@[simp] theorem Wave.withSplit_group (wv : Wave) (k : Nat) (f : Split → Split) : (wv.withSplit k f).group = wv.group := rfl
@[simp] theorem Wave.withSplit_waveid (wv : Wave) (k : Nat) (f : Split → Split) : (wv.withSplit k f).waveid = wv.waveid := rfl
@[simp] theorem Wave.withSplit_lwave (wv : Wave) (k : Nat) (f : Split → Split) : (wv.withSplit k f).lwave = wv.lwave := rfl
@[simp] theorem Wave.withSplit_role (wv : Wave) (k : Nat) (f : Split → Split) : (wv.withSplit k f).role = wv.role := rfl
@[simp] theorem Wave.withSplit_vregs (wv : Wave) (k : Nat) (f : Split → Split) : (wv.withSplit k f).vregs = wv.vregs := rfl
@[simp] theorem Wave.withSplit_life (wv : Wave) (k : Nat) (f : Split → Split) : (wv.withSplit k f).life = wv.life := rfl
@[simp] theorem Wave.withSplit_place (wv : Wave) (k : Nat) (f : Split → Split) : (wv.withSplit k f).place = wv.place := rfl
@[simp] theorem Wave.withSplit_regs (wv : Wave) (k : Nat) (f : Split → Split) : (wv.withSplit k f).regs = wv.regs := rfl
@[simp] theorem Wave.withSplit_kept (wv : Wave) (k : Nat) (f : Split → Split) : (wv.withSplit k f).kept = wv.kept := rfl
@[simp] theorem Wave.withSplit_keptRegs (wv : Wave) (k : Nat) (f : Split → Split) : (wv.withSplit k f).keptRegs = wv.keptRegs := rfl
@[simp] theorem Wave.withSplit_keptTarn (wv : Wave) (k : Nat) (f : Split → Split) : (wv.withSplit k f).keptTarn = wv.keptTarn := rfl
@[simp] theorem Wave.withSplit_preds (wv : Wave) (k : Nat) (f : Split → Split) : (wv.withSplit k f).preds = wv.preds := rfl
@[simp] theorem Wave.withSplit_xregs (wv : Wave) (k : Nat) (f : Split → Split) : (wv.withSplit k f).xregs = wv.xregs := rfl
@[simp] theorem Wave.withSplit_fctl (wv : Wave) (k : Nat) (f : Split → Split) : (wv.withSplit k f).fctl = wv.fctl := rfl
@[simp] theorem Wave.withSplit_fstat (wv : Wave) (k : Nat) (f : Split → Split) : (wv.withSplit k f).fstat = wv.fstat := rfl
@[simp] theorem Wave.withSplit_mflags (wv : Wave) (k : Nat) (f : Split → Split) : (wv.withSplit k f).mflags = wv.mflags := rfl
@[simp] theorem Wave.withSplit_death (wv : Wave) (k : Nat) (f : Split → Split) : (wv.withSplit k f).death = wv.death := rfl
@[simp] theorem Wave.withSplit_live (wv : Wave) (k : Nat) (f : Split → Split) : (wv.withSplit k f).live = wv.live := rfl
@[simp] theorem Wave.withSplit_dead (wv : Wave) (k : Nat) (f : Split → Split) : (wv.withSplit k f).dead = wv.dead := rfl
@[simp] theorem Wave.withSplit_ctr (wv : Wave) (k : Nat) (f : Split → Split) : (wv.withSplit k f).ctr = wv.ctr := rfl
@[simp] theorem Wave.withSplit_tarn (wv : Wave) (k : Nat) (f : Split → Split) : (wv.withSplit k f).tarn = wv.tarn := rfl
@[simp] theorem Wave.withSplit_tarnBad (wv : Wave) (k : Nat) (f : Split → Split) : (wv.withSplit k f).tarnBad = wv.tarnBad := rfl
@[simp] theorem Wave.withSplit_frame (wv : Wave) (k : Nat) (f : Split → Split) : (wv.withSplit k f).frame = wv.frame := rfl
@[simp] theorem Wave.withSplit_level (wv : Wave) (k : Nat) (f : Split → Split) : (wv.withSplit k f).level = wv.level := rfl
@[simp] theorem Wave.withSplit_saved (wv : Wave) (k : Nat) (f : Split → Split) : (wv.withSplit k f).saved = wv.saved := rfl
@[simp] theorem Wave.withSplit_rq (wv : Wave) (k : Nat) (f : Split → Split) : (wv.withSplit k f).rq = wv.rq := rfl
@[simp] theorem Wave.withSplit_reinj (wv : Wave) (k : Nat) (f : Split → Split) : (wv.withSplit k f).reinj = wv.reinj := rfl
@[simp] theorem Wave.withSplit_pending (wv : Wave) (k : Nat) (f : Split → Split) : (wv.withSplit k f).pending = wv.pending := rfl
@[simp] theorem Wave.withSplit_flights (wv : Wave) (k : Nat) (f : Split → Split) : (wv.withSplit k f).flights = wv.flights := rfl
@[simp] theorem Wave.withSplit_nextFlight (wv : Wave) (k : Nat) (f : Split → Split) : (wv.withSplit k f).nextFlight = wv.nextFlight := rfl
@[simp] theorem Wave.withSplit_closedC (wv : Wave) (k : Nat) (f : Split → Split) : (wv.withSplit k f).closedC = wv.closedC := rfl
@[simp] theorem Wave.withSplit_closedM (wv : Wave) (k : Nat) (f : Split → Split) : (wv.withSplit k f).closedM = wv.closedM := rfl
@[simp] theorem Wave.withSplit_faulting (wv : Wave) (k : Nat) (f : Split → Split) : (wv.withSplit k f).faulting = wv.faulting := rfl
@[simp] theorem Wave.withSplit_parked (wv : Wave) (k : Nat) (f : Split → Split) : (wv.withSplit k f).parked = wv.parked := rfl
@[simp] theorem Wave.withSplit_stopped (wv : Wave) (k : Nat) (f : Split → Split) : (wv.withSplit k f).stopped = wv.stopped := rfl
@[simp] theorem Wave.withSplit_stopAt (wv : Wave) (k : Nat) (f : Split → Split) : (wv.withSplit k f).stopAt = wv.stopAt := rfl
@[simp] theorem Wave.withSplit_entering (wv : Wave) (k : Nat) (f : Split → Split) : (wv.withSplit k f).entering = wv.entering := rfl
@[simp] theorem Wave.withSplit_stopping (wv : Wave) (k : Nat) (f : Split → Split) : (wv.withSplit k f).stopping = wv.stopping := rfl
@[simp] theorem Wave.withSplit_traps (wv : Wave) (k : Nat) (f : Split → Split) : (wv.withSplit k f).traps = wv.traps := rfl
@[simp] theorem Wave.withSplit_since (wv : Wave) (k : Nat) (f : Split → Split) : (wv.withSplit k f).since = wv.since := rfl
@[simp] theorem Wave.withSplit_pair (wv : Wave) (k : Nat) (f : Split → Split) : (wv.withSplit k f).pair = wv.pair := rfl
@[simp] theorem Wave.withSplit_qretired (wv : Wave) (k : Nat) (f : Split → Split) : (wv.withSplit k f).qretired = wv.qretired := rfl
@[simp] theorem Wave.withSplit_qended (wv : Wave) (k : Nat) (f : Split → Split) : (wv.withSplit k f).qended = wv.qended := rfl
@[simp] theorem Wave.withSplit_qwait (wv : Wave) (k : Nat) (f : Split → Split) : (wv.withSplit k f).qwait = wv.qwait := rfl
@[simp] theorem Wave.withSplit_buf (wv : Wave) (k : Nat) (f : Split → Split) : (wv.withSplit k f).buf = wv.buf := rfl
@[simp] theorem Wave.withSplit_errSrc (wv : Wave) (k : Nat) (f : Split → Split) : (wv.withSplit k f).errSrc = wv.errSrc := rfl
@[simp] theorem Wave.withSplit_raceSpace (wv : Wave) (k : Nat) (f : Split → Split) : (wv.withSplit k f).raceSpace = wv.raceSpace := rfl
@[simp] theorem Wave.withSplit_children (wv : Wave) (k : Nat) (f : Split → Split) : (wv.withSplit k f).children = wv.children := rfl
@[simp] theorem Wave.withSplit_aborted (wv : Wave) (k : Nat) (f : Split → Split) : (wv.withSplit k f).aborted = wv.aborted := rfl
@[simp] theorem Wave.withSplit_leaving (wv : Wave) (k : Nat) (f : Split → Split) : (wv.withSplit k f).leaving = wv.leaving := rfl
@[simp] theorem Wave.withSplit_area (wv : Wave) (k : Nat) (f : Split → Split) : (wv.withSplit k f).area = wv.area := rfl

end Sys2Proof.Machine
end

