-- ==== Sys2Proof/Laws/Issue.lean ====
section
/-! SUPPORT. What an issue does when nothing stands in its way: the shared course of every instruction, said once. -/

namespace Sys2Proof.Machine

open Sys2Proof.Safety

@[simp] theorem State.taken_waves (s : State) : s.taken.waves = s.waves := rfl

/-! ## Stages 4 of R427 when nothing is poisoned -/

theorem State.killLanes_zero (s : State) (w : Nat) (c : Nat → Cause) : s.killLanes w 0 c = (s, []) := by
  unfold State.killLanes
  split <;> simp

theorem State.noteKiller_zero (s : State) (w : Nat) (a b c : Word) : s.noteKiller w 0 a b c = s := if_pos rfl

theorem State.raiseMismatch_nil (s : State) (w : Nat) (a b c : Word) : s.raiseMismatch w [] a b c = s := by
  simp [State.raiseMismatch]

theorem mem_byKind {us : List (OpUse × OpVal)} {p : OpUse × OpVal} (h : p ∈ byKind us) : p ∈ us := by
  simp only [byKind, List.mem_flatMap, List.mem_filter] at h
  obtain ⟨_, _, h, _⟩ := h
  exact h

theorem errDeaths_nil {e : BitVec 3} {m : Mask} {us : List (OpUse × OpVal)}
    (h : ∀ p ∈ us, p.1.consume.isSome = true → ∀ L : Lane, m.has L = true → p.2.poison[L] = .clean) :
    errDeaths e m us = [] := by
  rw [errDeaths, List.filterMap_eq_nil_iff]
  intro L hL
  rw [Option.map_eq_none_iff, List.find?_eq_none]
  intro p hp
  simp only [Bool.and_eq_true, decide_eq_true_eq, not_and]
  intro hc
  rw [h p hp hc L (Mask.mem_lanes.mp hL)]
  decide

theorem raceCauses_nil {e : BitVec 2} {m : Mask} {us : List (OpUse × OpVal)}
    (h : ∀ p ∈ us, p.1.consume.isSome = true → ∀ L : Lane, m.has L = true → p.2.poison[L] = .clean) :
    raceCauses e m us = [] := by
  rw [raceCauses, List.filterMap_eq_nil_iff]
  intro L hL
  rw [Option.map_eq_none_iff, List.find?_eq_none]
  intro p hp
  simp only [Bool.and_eq_true, decide_eq_true_eq, not_and]
  intro hc
  rw [h p hp hc L (Mask.mem_lanes.mp hL)]
  decide

/-! ## The issue (R427) -/

/-- The operands as read. -/
def Site.vals (s : State) (x : Site) (h : Hdr) (u : Uses) : List OpVal := u.srcs.map (s.readSrc x.wv x.sp (x.exec h))

/-- The context of an instruction that nothing stops. -/
def Site.ctx (s : State) (x : Site) (h : Hdr) (u : Uses) : Ctx :=
  { w := x.w, slot := x.slot, pc := x.sp.pc, w0 := x.w0, w1 := x.w1, w2 := x.w2, replay := none, exec0 := x.exec h,
    exec := x.exec h, fmt := x.sp.fmt, vals := Site.vals s x h u, dst := x.dst u, causes := [], uses := u }

/-- The wave once its operands have been read: XDEAD is set when a dead lane supplied a value (R231). -/
def Site.readWave (s : State) (x : Site) (h : Hdr) (u : Uses) : Wave := x.wv.setXdead ((Site.vals s x h u).any (·.xdead))

/-- The state once the operands have been read. -/
def Site.readState (s : State) (x : Site) (h : Hdr) (u : Uses) : State :=
  s.taken.withWave x.w (fun _ => Site.readWave s x h u)

theorem readSrc_taken (s : State) : s.taken.readSrc = s.readSrc := rfl

theorem withWave_const {s : State} {w : Nat} {wv : Wave} (f : Wave → Wave) (h : s.waves[w]? = some wv) :
    s.withWave w f = s.withWave w (fun _ => f wv) := by
  unfold State.withWave
  congr 1
  apply List.ext_getElem?
  intro i
  by_cases hi : i = w
  · subst hi; simp [h]
  · simp [Ne.symm hi]

theorem setXdead_table (wv : Wave) (b : Bool) : (wv.setXdead b).table = wv.table := by cases b <;> rfl
theorem setXdead_life (wv : Wave) (b : Bool) : (wv.setXdead b).life = wv.life := by cases b <;> rfl

/-- Reading registers that hold no uncorrectable word changes nothing (R168). -/
theorem State.readRegs_whole {s : State} {w : Nat} {wv : Wave} (hw : s.waves[w]? = some wv) (rs : List Nat)
    (h : ∀ r ∈ rs, (wv.reg r).bad = 0) : s.readRegs w rs = s := by
  unfold State.readRegs
  induction rs with
  | nil => rfl
  | cons r rs ih =>
    simp only [List.foldl_cons, hw, h r (List.mem_cons_self ..), if_true]
    exact ih (fun r hr => h r (List.mem_cons_of_mem _ hr))

theorem issue_clear {s : State} {x : Site} {h : Hdr} {u : Uses} (hc : Clear s x h u) (k : State → Ctx → State) :
    issue h u k s = .next (k (Site.readState s x h u) (Site.ctx s x h u)) := by
  have hi := hc.issues
  have hp : ∀ p ∈ byKind (u.srcs.zip (Site.vals s x h u)), p.1.consume.isSome = true →
      ∀ L : Lane, (x.exec h &&& u.part).has L = true → p.2.poison[L] = .clean := by
    intro p hp hcs L hL
    have := mem_byKind hp
    simp only [Site.vals, List.zip_map_right, List.mem_map] at this
    obtain ⟨⟨a, b⟩, hq, rfl⟩ := this
    have hz : a = b ∧ a ∈ u.srcs := by
      rw [List.zip_eq_zipWith, List.zipWith_self] at hq
      simp at hq
      exact ⟨hq.2.symm, hq.2 ▸ hq.1⟩
    obtain ⟨rfl, ha⟩ := hz
    exact hc.clean a ha hcs L hL
  simp only [issue, hi.cur, hi.wave, hi.split]
  congr 1
  have hready := hc.ready
  have hlegal := hc.legal
  have hcl : (s.taken.withWave x.w
      (fun wv => wv.setXdead ((u.srcs.map (s.readSrc x.wv x.sp (x.exec h))).any (·.xdead)))) = Site.readState s x h u := by
    rw [withWave_const (s := s.taken) (wv := x.wv) _ hi.wave]; rfl
  have hw : (Site.readState s x h u).waves[x.w]? = some (Site.readWave s x h u) := by
    exact State.withWave_self _ (hi.wave)
  unfold State.issueFresh
  simp only [hc.fmt, List.map_nil, leastCause, List.foldl_nil]
  have hx : execMask x.wv x.sp h = x.exec h := rfl
  rw [hx, hready, hc.free, hlegal]
  simp only [Bool.and_false, Bool.or_self, Bool.false_eq_true, if_false]
  rw [State.readRegs_whole (s := s.taken) hi.wave _ hc.whole, State.taken_waves, hi.wave, Option.getD_some, readSrc_taken,
    hc.allowed]
  dsimp only
  rw [hcl]
  unfold State.consumeThen
  simp only [hw]
  have hz : (u.srcs.map (s.readSrc x.wv x.sp (x.exec h))) = Site.vals s x h u := rfl
  simp only [hz, errDeaths_nil hp, List.foldl_nil, State.killLanes_zero, State.noteKiller_zero, State.raiseMismatch_nil, Mask.and_not_zero, hw,
    Option.map_some, Site.readWave, setXdead_life, hi.lanes, hi.alive, raceCauses_nil hp, Option.some.injEq, if_false, setXdead_table, hi.split, causeMask, ite_self]
  rfl

/-! ## The end of an instruction -/

theorem Wave.stepIndex_fields (wv : Wave) (x : XNum) (d : Int) (m : Mask) : ∃ xr, wv.stepIndex x d m = { wv with xregs := xr } :=
  ⟨_, rfl⟩

theorem Wave.stepAll_fields (wv : Wave) (m : Mask) (l : List (XNum × StepMode)) :
    ∃ xr, wv.stepAll m l = { wv with xregs := xr } := by
  unfold Wave.stepAll
  refine foldl_keeps (β := Wave) (fun w => ∃ xr, w = { wv with xregs := xr }) _ ?_ _ _ ⟨wv.xregs, rfl⟩
  rintro w i ⟨xr, rfl⟩
  dsimp only
  split
  · exact ⟨_, rfl⟩
  · exact Wave.stepIndex_fields { wv with xregs := xr } _ _ _

end Sys2Proof.Machine

namespace Sys2Proof.Safety

open Sys2Proof.Machine

theorem OnlyWave.refl {s t : State} {w : Nat} (h : ∃ ws cs, t = { s with cur := none, waves := ws, cores := cs })
    (hw : ∀ v, v ≠ w → t.waves[v]? = s.waves[v]?)
    (hp : ∀ k, (t.coreAt k).pool = (s.coreAt k).pool ∧ (t.coreAt k).tiles = (s.coreAt k).tiles) : OnlyWave s t w := by
  refine ⟨h, hw, ?_, hp⟩
  obtain ⟨ws, cs, rfl⟩ := h
  exact fun _ => rfl

theorem OnlyWave.trans {s t u : State} {w : Nat} (h1 : OnlyWave s t w) (h2 : OnlyWave t u w) : OnlyWave s u w := by
  obtain ⟨⟨ws, cs, rfl⟩, o1, m1, p1⟩ := h1
  obtain ⟨⟨ws', cs', rfl⟩, o2, m2, p2⟩ := h2
  exact ⟨⟨ws', cs', rfl⟩, fun v hv => (o2 v hv).trans (o1 v hv), fun a => (m2 a).trans (m1 a),
    fun k => ⟨(p2 k).1.trans (p1 k).1, (p2 k).2.trans (p1 k).2⟩⟩

theorem OnlyWave.withWave {s : State} (hc : s.cur = none) (w : Nat) (f : Wave → Wave) : OnlyWave s (s.withWave w f) w :=
  OnlyWave.refl ⟨s.waves.modify w f, s.cores, by rw [← hc]; rfl⟩ (fun _ hv => State.withWave_other f hv) (fun _ => ⟨rfl, rfl⟩)

theorem OnlyWave.taken (s : State) (w : Nat) : OnlyWave s s.taken w :=
  OnlyWave.refl ⟨s.waves, s.cores, rfl⟩ (fun _ _ => rfl) (fun _ => ⟨rfl, rfl⟩)

end Sys2Proof.Safety

namespace Sys2Proof.Machine

open Sys2Proof.Safety

theorem State.coreAt_withCore_self (s : State) (k : Nat) (f : Core → Core) : (s.withCore k f).coreAt k = f (s.coreAt k) := by
  simp [State.withCore, State.coreAt, lookupN_insertN_self]

theorem State.coreAt_withCore_ne (s : State) {k j : Nat} (h : j ≠ k) (f : Core → Core) :
    (s.withCore k f).coreAt j = s.coreAt j := by
  simp [State.withCore, State.coreAt, lookupN_insertN_ne h]

theorem OnlyWave.withCore {s : State} (hc : s.cur = none) (w k : Nat) (f : Core → Core)
    (hf : ∀ c, (f c).pool = c.pool ∧ (f c).tiles = c.tiles) : OnlyWave s (s.withCore k f) w := by
  refine OnlyWave.refl ⟨s.waves, (s.withCore k f).cores, by rw [← hc]; rfl⟩ (fun _ _ => rfl) (fun j => ?_)
  by_cases hj : j = k
  · subst hj; rw [State.coreAt_withCore_self]; exact hf _
  · rw [State.coreAt_withCore_ne s hj]; exact ⟨rfl, rfl⟩

theorem State.endQuantum_only {s : State} (hc : s.cur = none) {w : Nat} {wv : Wave} (hw : s.waves[w]? = some wv) :
    OnlyWave s (s.endQuantum w) w ∧ ∃ q, (s.endQuantum w).waves[w]? = some { wv with qended := q } := by
  unfold State.endQuantum
  rw [hw]
  dsimp only
  split
  · have h1 := OnlyWave.withWave hc w (fun wv => { wv with qended := true })
    have hw1 : (s.withWave w (fun wv => { wv with qended := true })).waves[w]? = some { wv with qended := true } :=
      State.withWave_self _ hw
    split
    · exact ⟨h1.trans (OnlyWave.withCore (by simp [hc]) _ _ _ (fun _ => ⟨rfl, rfl⟩)), true, by simpa using hw1⟩
    · exact ⟨h1, true, hw1⟩
  · exact ⟨OnlyWave.refl ⟨s.waves, s.cores, by rw [← hc]⟩ (fun _ _ => rfl) (fun _ => ⟨rfl, rfl⟩), wv.qended, hw⟩

theorem Wave.split?_withSplit {wv : Wave} {k : Nat} {sp : Split} (hk : k < 4) (h : wv.table.split? k = some sp) (f : Split → Split) :
    (wv.withSplit k f).table.split? k = some (f sp) := by
  simp only [Wave.withSplit, h, Option.map_some]
  exact SplitTable.split?_setSplit _ hk _

/-- The end of an instruction whose effect is done in every lane: the wave retires it and its split goes on. `wv1` and `sp1` are
the wave and the split as the effect left them. -/
theorem State.finish_plain {s : State} {c : Ctx} {x : Site} {h : Hdr} {u : Uses} {wv1 : Wave} {sp1 : Split} (kind : BitVec 3)
    (edit : RQEntry → RQEntry) (hcur : s.cur = none) (hc : c.w = x.w ∧ c.slot = x.slot ∧ c.pc = x.sp.pc ∧ c.replay = none
      ∧ c.exec0 = x.exec h ∧ c.uses = u ∧ c.w2 = x.w2)
    (hw : s.waves[x.w]? = some wv1) (hk : x.slot < 4) (hs : wv1.table.split? x.slot = some sp1) (hr : sp1.rpc = x.sp.rpc)
    (hq : x.sp.pc + 12 ≠ x.sp.rpc ∨ s.checking wv1 = false) :
    ∃ wv2, (s.finish c kind [] edit).waves[x.w]? = some wv2 ∧ Retires x h u wv1 wv2 ∧ OnlyWave s (s.finish c kind [] edit) x.w := by
  obtain ⟨hc1, hc2, hc3, hc4, hc5, hc6, hc7⟩ := hc
  -- the wave retired: steps, hash, QRETIRED
  let f : Wave → Wave := fun wv =>
    let wv := wv.stepAll c.exec0 c.uses.steps
    let wv := if c.uses.checking then wv
      else wv.withSplit c.slot (fun sp => { sp with hash := sigUpdate sp.hash c.opc })
    { wv with qretired := wv.qretired + 1 }
  obtain ⟨xr, hxr⟩ := Wave.stepAll_fields wv1 c.exec0 c.uses.steps
  have hf : ∃ tb sp', f wv1 = { wv1 with xregs := xr, table := tb, qretired := wv1.qretired + 1 }
      ∧ tb.split? x.slot = some sp' ∧ sp'.rpc = x.sp.rpc
      ∧ sp' = { sp1 with hash := if u.checking then sp1.hash else sigUpdate sp1.hash (x.w2.extractLsb' 22 10) } := by
    have ho : c.opc = x.w2.extractLsb' 22 10 := by rw [← hc7]; rfl
    simp only [f, hxr]
    rw [hc6]
    split
    · exact ⟨wv1.table, sp1, rfl, hs, hr, rfl⟩
    · refine ⟨_, { sp1 with hash := sigUpdate sp1.hash c.opc }, rfl, ?_, hr, by rw [ho]⟩
      rw [hc2]
      exact Wave.split?_withSplit (wv := { wv1 with xregs := xr }) hk hs _
  obtain ⟨tb, sp', hf1, hf2, hf3, hf4⟩ := hf
  have hw1 : (s.withWave x.w f).waves[x.w]? = some (f wv1) := State.withWave_self _ hw
  have ho1 : OnlyWave s (s.withWave x.w f) x.w := OnlyWave.withWave hcur _ _
  -- QRETIRED may end the quantum
  have hret : ∃ q, (s.retired c).waves[x.w]? = some { f wv1 with qended := q } ∧ OnlyWave s (s.retired c) x.w := by
    unfold State.retired
    rw [hc4, hc1]
    dsimp only
    change ∃ q, (match (s.withWave x.w f).waves[x.w]? with
      | none => s.withWave x.w f
      | some wv => if (s.withWave x.w f).det wv && decide (wv.qretired ≥ (((s.withWave x.w f).launchOf wv).map (fun (l : Launch) => l.record.quantum)).getD 0)
          then (s.withWave x.w f).endQuantum x.w else s.withWave x.w f).waves[x.w]? = _ ∧ OnlyWave s (match (s.withWave x.w f).waves[x.w]? with
      | none => s.withWave x.w f
      | some wv => if (s.withWave x.w f).det wv && decide (wv.qretired ≥ (((s.withWave x.w f).launchOf wv).map (fun (l : Launch) => l.record.quantum)).getD 0)
          then (s.withWave x.w f).endQuantum x.w else s.withWave x.w f) x.w
    rw [hw1]
    dsimp only
    split
    · obtain ⟨h1, q, h2⟩ := State.endQuantum_only (s := s.withWave x.w f) hcur hw1
      exact ⟨q, h2, ho1.trans h1⟩
    · exact ⟨(f wv1).qended, hw1, ho1⟩
  obtain ⟨q, hq1, ho2⟩ := hret
  obtain ⟨wq, hwq⟩ : ∃ wq : Wave, wq = { f wv1 with qended := q } := ⟨_, rfl⟩
  rw [← hwq] at hq1
  have hwt : wq.table = tb := by rw [hwq, hf1]
  have hwx : wq.xregs = (wv1.stepAll c.exec0 c.uses.steps).xregs := by rw [hwq, hf1, hxr]
  have hwf : ∃ xr tb, wq = { wv1 with xregs := xr, table := tb, qretired := wv1.qretired + 1, qended := q } :=
    ⟨xr, tb, by rw [hwq, hf1]⟩
  have hchk : x.sp.pc + 12 ≠ sp'.rpc ∨ (s.retired c).checking wq = false := by
    rw [hf3]
    refine hq.imp id (fun hn => ?_)
    obtain ⟨ws, cs, hss⟩ := ho2.rest
    obtain ⟨_, _, hwf⟩ := hwf
    rw [hss, hwf]
    exact hn
  have hcur2 : (s.retired c).cur = none := by
    obtain ⟨ws, cs, hss⟩ := ho2.rest
    rw [hss]
  clear_value f
  clear hwq
  -- the split goes on
  have hfin : s.finish c kind [] edit = (s.retired c).goTo c (c.pc + 12) := rfl
  rw [hfin]
  unfold State.goTo
  rw [hc4, hc1, hq1]
  dsimp only
  rw [hwt, hc2, hc3, SplitTable.moveTo_quiet hk hf2 hchk, State.raiseMismatch_nil]
  refine ⟨_, State.withWave_self _ hq1, ⟨?_, ?_, ?_⟩, OnlyWave.trans ho2 (OnlyWave.withWave hcur2 _ _)⟩
  · obtain ⟨xr, tb, hwf⟩ := hwf
    exact ⟨xr, _, q, by rw [hwf]⟩
  · rw [← hc5, ← hc6]
    exact hwx
  · intro hne sp2 hsp2
    dsimp only
    rw [SplitTable.moveTo_goesOn hk hf2 (by rw [hf3]; exact hne), hf4]
    rw [hs] at hsp2
    cases hsp2
    rfl

end Sys2Proof.Machine
end

