-- ==== Sys2Proof/Laws/LaneOps.lean ====
section
/-! SUPPORT. What an instruction computed lane by lane leaves when nothing stops it, said once for all of them. -/

namespace Sys2Proof.Machine

open Sys2Proof.Safety

/-! ## Predicates and flags -/

theorem Wave.pred_setPred (wv : Wave) (p q : PNum) (m v : Mask) (L : Lane) :
    ((wv.setPred p m v).pred q).has L
      = if q = p ∧ q ≠ 7 ∧ m.has L = true then v.has L else (wv.pred q).has L := by
  by_cases h7 : q = 7
  · simp [Wave.pred, h7]
  · by_cases hq : q = p
    · subst hq
      have hlt : q.toNat < 7 := by
        have := q.isLt
        have h8 : q.toNat ≠ 7 := fun h => h7 (BitVec.eq_of_toNat_eq h)
        omega
      simp only [Wave.pred, h7, if_false, Wave.setPred]
      rw [Vector.getElem?_setIfInBounds]
      have h7' : ¬q = 7#3 := h7
      simp only [hlt, if_true, Option.getD_some, Mask.has_or, Mask.has_and, Mask.has_not]
      cases m.has L <;> simp [h7']
    · simp only [Wave.pred, h7, if_false, Wave.setPred, hq, false_and]
      rw [Vector.getElem?_setIfInBounds, if_neg]
      intro h
      exact hq (BitVec.eq_of_toNat_eq h.symm)

theorem maskOf_has (f : Lane → Bool) (L : Lane) : (maskOf f).has L = f L := by
  unfold maskOf Mask.has
  rw [BitVec.getLsbD_setWidth, BitVec.getLsbD_ofBoolListLE]
  simp [Sys2Proof.lanes, List.getD, L.isLt]

/-! ## Destinations -/

theorem Wave.readDst_ok (wv : Wave) {o : Option (Dst × Nat)} (h : ∃ d n, o = some (d, n) ∧ 0 < n) : (wv.readDst o).Ok := by
  obtain ⟨d, n, rfl, hn⟩ := h
  cases d with
  | reg r e i => exact ⟨hn, fun _ L => by simp [Wave.readDst], fun h => by simp [Wave.readDst, RDst.ind] at h⟩
  | ind y o st => exact ⟨hn, fun h => by simp [Wave.readDst, RDst.ind] at h, fun _ => rfl⟩

theorem Wave.writeD_landed (wv : Wave) {d : RDst} (hd : d.Ok) (m : Mask) (val : Lanes (BitVec 128)) (p : Lanes Poison) (tag : Tag)
    {L : Lane} (hL : m.has L = true) : Landed wv (wv.writeD d m val p tag) d L val[L] := by
  have hm : m ≠ 0 := Mask.ne_zero_of_has hL
  unfold Landed Wave.writeD
  rw [if_neg hm]
  by_cases hi : d.ind = true
  · simp only [hi, if_true, hd.elt hi]
    intro i hin
    rw [Wave.writeLanes_val _ _ _ _ _ _ _ (Mask.lanes_nodup m)]
    simp [hL, hin]
  · have hi' : d.ind = false := by simpa using hi
    have h0 := hd.direct hi' L
    simp only [hi', Bool.false_eq_true, if_false]
    cases he : d.elt with
    | none =>
      dsimp only
      intro i hin
      rw [h0, Wave.writeWhole_val]
      simp [hL, hin]
    | some ei =>
      obtain ⟨e, i⟩ := ei
      dsimp only
      rw [h0]
      simp only [Wave.writeElt, Wave.reg_setReg_self, perLane_get, hL, if_true]

theorem Wave.writeD_others (wv : Wave) {d : RDst} (hd : d.Ok) (m : Mask) (val : Lanes (BitVec 128)) (p : Lanes Poison) (tag : Tag)
    {r : Nat} {L : Lane} (h : m.has L = false ∨ ¬Covers d r L) :
    ((wv.writeD d m val p tag).reg r).val[L] = (wv.reg r).val[L] := by
  unfold Wave.writeD
  by_cases hm : m = 0
  · rw [if_pos hm]
  rw [if_neg hm]
  by_cases hi : d.ind = true
  · simp only [hi, if_true]
    rw [Wave.writeLanes_val _ _ _ _ _ _ _ (Mask.lanes_nodup m), if_neg]
    rintro ⟨h1, h2, h3⟩
    rw [Mask.mem_lanes] at h3
    rcases h with h | h
    · rw [h] at h3; exact absurd h3 (by decide)
    · exact h ⟨h1, by rw [hd.elt hi]; exact h2⟩
  · have hi' : d.ind = false := by simpa using hi
    have h0 := hd.direct hi' L
    simp only [hi', Bool.false_eq_true, if_false]
    cases he : d.elt with
    | none =>
      dsimp only
      rw [Wave.writeWhole_val, if_neg]
      rintro ⟨h1, h2, h3⟩
      rcases h with h | h
      · rw [h] at h3; exact absurd h3 (by decide)
      · exact h ⟨by rw [h0]; exact h1, by rw [h0, he]; exact h2⟩
    | some ei =>
      obtain ⟨e, i⟩ := ei
      dsimp only
      simp only [Wave.writeElt]
      by_cases hr : r = d.er[(0 : Lane)].toNat
      · rcases h with h | h
        · subst hr
          simp only [Wave.reg_setReg_self, perLane_get, h, Bool.false_eq_true, if_false]
        · exact absurd ⟨by rw [h0]; omega, by rw [h0, he]; simp [hr]⟩ h
      · simp only [Wave.reg_setReg_ne _ hr]

/-! ## The operation -/

/-- The flags of dead-lane reads alone may differ: bit 7 of lane 0 (R231). -/
theorem setXdead_fields (wv : Wave) (b : Bool) : ∃ fs, wv.setXdead b = { wv with fstat := fs }
    ∧ (∀ L : Lane, L ≠ 0 → fs[L] = wv.fstat[L]) ∧ fs[(0 : Lane)] &&& 0x7F = wv.fstat[(0 : Lane)] &&& 0x7F := by
  cases b with
  | false => exact ⟨wv.fstat, rfl, fun _ _ => rfl, rfl⟩
  | true =>
    refine ⟨_, rfl, fun L hL => ?_, ?_⟩
    · have : (0 : Nat) ≠ L.val := fun h => hL (Fin.ext h.symm)
      simp [this]
    · simp only [Fin.getElem_fin]
      apply BitVec.eq_of_getLsbD_eq
      intro i hi
      simp only [BitVec.getLsbD_and]
      have : ((0x80#32).getLsbD i && (0x7F#32).getLsbD i) = false := by
        have : ∀ j : Fin 32, ((0x80#32).getLsbD j.val && (0x7F#32).getLsbD j.val) = false := by decide
        exact this ⟨i, hi⟩
      cases h1 : (0x7F#32).getLsbD i <;> cases h2 : (0x80#32).getLsbD i <;> simp_all

/-- A lane-by-lane operation in whose lanes no trap is raised, in a wave whose operands have been read, is whole and retires. -/
theorem runLanes_clear {s0 : State} {c : Ctx} {x : Site} {h : Hdr} {u : Uses} {fs : Lanes Word} (hcur : s0.cur = none)
    (hres : s0.residue = none) (hw0 : s0.waves[x.w]? = some { x.wv with fstat := fs })
    (hfs1 : ∀ L : Lane, L ≠ 0 → fs[L] = x.wv.fstat[L]) (hfs0 : fs[(0 : Lane)] &&& 0x7F = x.wv.fstat[(0 : Lane)] &&& 0x7F)
    (hc : c.w = x.w ∧ c.slot = x.slot ∧ c.pc = x.sp.pc ∧ c.replay = none ∧ c.exec0 = x.exec h ∧ c.uses = u ∧ c.w2 = x.w2)
    (hd : c.dst = x.dst u) (hca : c.causes = []) (hk : x.slot < 4) (hs : x.wv.table.split? x.slot = some x.sp)
    (hq : x.sp.pc + 12 ≠ x.sp.rpc ∨ s0.checking x.wv = false) (hn : ∀ d n, u.dst = some (d, n) → 0 < n)
    (g : Lane → LaneOut) (tag : Tag) (pd : Option PNum) (poison : Option (Lane → Poison))
    (hf : ∀ L : Lane, c.exec.has L = true → (g L).trap = none) :
    ∃ wv1 wv2, LaneEffect x u c.exec g pd wv1 ∧ Retires x h u wv1 wv2
      ∧ (s0.runLanes c g tag pd poison).waves[x.w]? = some wv2 ∧ OnlyWave s0 (s0.runLanes c g tag pd poison) x.w := by
  have hwc : c.w = x.w := hc.1
  have hbad : ((Mask.lanes (c.exec &&& ~~~causeMask [])).filterMap (fun L =>
      (g L).trap.map (fun t => (⟨L, 6, t, 0⟩ : LaneCause)))) = [] := by
    rw [List.filterMap_eq_nil_iff]
    intro L hL
    rw [Mask.mem_lanes, Mask.has_and] at hL
    rw [hf L (by simp at hL; exact hL.1)]
    rfl
  unfold State.runLanes
  have hres' : s0.residueFails c = (s0, []) := by unfold State.residueFails; rw [hres]
  rw [hres']
  dsimp only
  rw [List.nil_append, hbad]
  have hcm : c.exec &&& ~~~causeMask [] = c.exec := Mask.and_not_zero _
  rw [hcm, hca, List.nil_append]
  let po := poison.getD c.poison
  let out : Lanes LaneOut := perLane fun L => if c.exec.has L then g L else {}
  let eff : Wave → Wave := fun wv =>
    let wv := if c.dst.n = 0 then wv
      else wv.writeD c.dst c.exec (perLane fun L => out[L].val) (perLane fun L => po L) tag
    let wv := wv.raiseFlags (perLane fun L => out[L].flags)
    match pd with
    | none => wv
    | some p => wv.setPred p c.exec (maskOf fun L => out[L].p)
  obtain ⟨wr, hwr, hwrl, hwro⟩ : ∃ wr : Wave, (if c.dst.n = 0 then ({ x.wv with fstat := fs } : Wave)
      else ({ x.wv with fstat := fs } : Wave).writeD c.dst c.exec (perLane fun L => out[L].val)
        (perLane fun L => po L) tag) = { wr with fstat := fs } ∧ (∃ rs, wr = { x.wv with regs := rs })
      ∧ (∀ L : Lane, (c.exec.has L = true → u.dst.isSome = true → Landed x.wv wr (x.dst u) L (g L).val)
        ∧ ∀ r, c.exec.has L = false ∨ u.dst = none ∨ ¬Covers (x.dst u) r L → (wr.reg r).val[L] = (x.wv.reg r).val[L]) := by
    rw [hd]
    cases hu : u.dst with
    | none =>
      have h0 : (x.dst u).n = 0 := by simp [Site.dst, hu, Wave.readDst]
      rw [if_pos h0]
      exact ⟨x.wv, rfl, ⟨x.wv.regs, rfl⟩, fun L => ⟨fun _ h => by simp at h, fun _ _ => rfl⟩⟩
    | some dn =>
      obtain ⟨d, n⟩ := dn
      have hok : (x.dst u).Ok := Wave.readDst_ok _ ⟨d, n, hu, hn d n hu⟩
      rw [if_neg (by have := hok.pos; omega)]
      obtain ⟨rs, hrs⟩ := Wave.writeD_same ({ x.wv with fstat := fs } : Wave) (x.dst u) c.exec
        (perLane fun L => out[L].val) (perLane fun L => po L) tag
      refine ⟨{ x.wv with regs := rs }, hrs, ⟨rs, rfl⟩, fun L => ⟨fun hL _ => ?_, fun r ho => ?_⟩⟩
      · have := Wave.writeD_landed ({ x.wv with fstat := fs } : Wave) hok c.exec
          (perLane fun L => out[L].val) (perLane fun L => po L) tag hL
        rw [hrs] at this
        simp only [perLane_get, out, hL, if_true] at this
        exact this
      · have := Wave.writeD_others ({ x.wv with fstat := fs } : Wave) hok c.exec
          (perLane fun L => out[L].val) (perLane fun L => po L) tag (ho.imp id (fun h => h.resolve_left (by simp)))
        rw [hrs] at this
        exact this
  obtain ⟨rs, hrs⟩ := hwrl
  have hw1 : (s0.withWave x.w eff).waves[x.w]? = some (eff { x.wv with fstat := fs }) :=
    State.withWave_self _ hw0
  have hfields : ∃ ps fs', eff { x.wv with fstat := fs } = { x.wv with regs := rs, preds := ps, fstat := fs' } := by
    simp only [eff, hwr, hrs]
    cases pd with
    | none => exact ⟨_, _, rfl⟩
    | some p => exact ⟨_, _, rfl⟩
  have hfst : ∀ L : Lane, (eff { x.wv with fstat := fs }).fstat[L]
      = fs[L] ||| (if c.exec.has L then (g L).flags.setWidth 32 else 0) := by
    intro L
    simp only [eff, hwr]
    have : ∀ wv : Wave, (wv.raiseFlags (perLane fun L => out[L].flags)).fstat[L]
        = wv.fstat[L] ||| (if c.exec.has L then (g L).flags.setWidth 32 else 0) := by
      intro wv
      simp only [Wave.raiseFlags, perLane_get, out]
      split <;> rfl
    cases pd with
    | none => exact this _
    | some p => simp only [Wave.setPred_fstat]; exact this _
  have hpred : ∀ p L, ((eff { x.wv with fstat := fs }).pred p).has L
      = if pd = some p ∧ p ≠ 7 ∧ c.exec.has L = true then (g L).p else (x.wv.pred p).has L := by
    intro p L
    simp only [eff, hwr]
    have hp : ∀ q, ((({ wr with fstat := fs } : Wave).raiseFlags (perLane fun L => out[L].flags)).pred q).has L = (x.wv.pred q).has L := by
      intro q; rw [hrs]; rfl
    cases pd with
    | none => simp only [reduceCtorEq, false_and, if_false]; exact hp p
    | some q =>
      dsimp only
      rw [Wave.pred_setPred, hp, maskOf_has]
      by_cases hpq : p = q
      · subst hpq
        by_cases h7 : p = 7
        · simp [h7]
        · by_cases hL : c.exec.has L = true
          · simp [hL, out]
          · simp [hL]
      · simp [hpq, Ne.symm hpq]
  have hregs : ∀ r, (eff { x.wv with fstat := fs }).reg r = wr.reg r := by
    intro r
    obtain ⟨ps, fs', he⟩ := hfields
    rw [he, hrs]; rfl
  have hsp1 : (eff { x.wv with fstat := fs }).table.split? x.slot = some x.sp := by
    obtain ⟨ps, fs', he⟩ := hfields
    rw [he]; exact hs
  have hchk : x.sp.pc + 12 ≠ x.sp.rpc ∨ (s0.withWave x.w eff).checking (eff { x.wv with fstat := fs }) = false := by
    refine hq.imp id (fun hn => ?_)
    obtain ⟨ps, fs', he⟩ := hfields
    rw [he]; exact hn
  obtain ⟨wv2, h1, h2, h3⟩ := State.finish_plain (s := s0.withWave x.w eff) (c := c)
    (x := x) (h := h) (u := u) 0 id hcur hc hw1 hk hsp1 rfl hchk
  rw [hwc]
  refine ⟨eff { x.wv with fstat := fs }, wv2, ?_, h2, h1, OnlyWave.trans (OnlyWave.withWave hcur x.w eff) h3⟩
  refine ⟨⟨rs, hfields⟩, ?_, ?_, hpred, ?_, ?_⟩
  · intro hu L hL
    have := (hwro L).1 hL hu
    unfold Landed at this ⊢
    simp only [hregs]
    exact this
  · intro r L ho
    rw [hregs]
    exact (hwro L).2 r ho
  · intro L hL
    rw [hfst, hfs1 L hL]
  · rw [hfst]
    apply BitVec.eq_of_getLsbD_eq
    intro i hi
    have := congrArg (fun v : Word => v.getLsbD i) hfs0
    simp only [BitVec.getLsbD_and, BitVec.getLsbD_or] at this ⊢
    cases h1 : (0x7F#32).getLsbD i <;> simp_all


/-- An instruction computed lane by lane, in whose EXEC lanes no trap is raised, completes. -/
theorem laneOp_clear {s : State} {x : Site} {h : Hdr} {u : Uses} (hc : Clear s x h u) (hq : NoMismatch s x)
    (hn : ∀ d n, u.dst = some (d, n) → 0 < n) (tag : Ctx → Tag) (f : State → Ctx → Lane → LaneOut) (pd : Option PNum)
    (poison : Option (Ctx → Lane → Poison))
    (hf : ∀ L : Lane, (x.exec h).has L = true → (f (Site.readState s x h u) (Site.ctx s x h u) L).trap = none) :
    ∃ t wv1 wv2, laneOp h u tag f pd poison s = .next t
      ∧ LaneEffect x u (x.exec h) (f (Site.readState s x h u) (Site.ctx s x h u)) pd wv1 ∧ Retires x h u wv1 wv2
      ∧ t.waves[x.w]? = some wv2 ∧ OnlyWave s t x.w := by
  have hi := hc.issues
  unfold laneOp
  rw [issue_clear hc]
  obtain ⟨fs, hfs, hfs1, hfs0⟩ := setXdead_fields x.wv ((Site.vals s x h u).any (·.xdead))
  have hrw : Site.readWave s x h u = { x.wv with fstat := fs } := hfs
  have hw0 : (Site.readState s x h u).waves[x.w]? = some { x.wv with fstat := fs } := by
    rw [← hrw]; exact State.withWave_self _ hi.wave
  have ho0 : OnlyWave s (Site.readState s x h u) x.w :=
    OnlyWave.trans (OnlyWave.taken s x.w) (OnlyWave.withWave rfl _ _)
  obtain ⟨wv1, wv2, h1, h2, h3, h4⟩ := runLanes_clear (s0 := Site.readState s x h u) (c := Site.ctx s x h u) (x := x) (h := h) (u := u)
    rfl hc.sound hw0 hfs1 hfs0 ⟨rfl, rfl, rfl, rfl, rfl, rfl, rfl⟩ rfl rfl hi.place hi.split hq hn
    (f (Site.readState s x h u) (Site.ctx s x h u)) (tag (Site.ctx s x h u)) pd (poison.map (fun p => p (Site.ctx s x h u))) hf
  exact ⟨_, wv1, wv2, rfl, h1, h2, h3, ho0.trans h4⟩

end Sys2Proof.Machine
end

