-- ==== Sys2Proof/Laws/Memory.lean ====
section
/-! SUPPORT. Memory: a write is read back and leaves every other byte alone, and every operation keeps the canonical form. -/

namespace Sys2Proof.Machine

/-! ## Keyed lists with rising keys -/

/-- Keys strictly rising. -/
abbrev Rising {α : Type} (l : List (Nat × α)) : Prop := l.Pairwise (fun a b => a.1 < b.1)

theorem mem_insertN {α : Type} {k : Nat} {v : α} {l : List (Nat × α)} {c : Nat × α} (h : c ∈ insertN k v l) :
    c = (k, v) ∨ c ∈ l := by
  induction l with
  | nil => simpa [insertN] using h
  | cons d r ih =>
    unfold insertN at h
    split at h
    · simpa using h
    · split at h
      · rcases List.mem_cons.mp h with h | h
        · exact .inl h
        · exact .inr (List.mem_cons_of_mem _ h)
      · rcases List.mem_cons.mp h with h | h
        · exact .inr (h ▸ List.mem_cons_self)
        · rcases ih h with h | h
          · exact .inl h
          · exact .inr (List.mem_cons_of_mem _ h)

theorem mem_eraseN {α : Type} {k : Nat} {l : List (Nat × α)} {c : Nat × α} (h : c ∈ eraseN k l) : c ∈ l := by
  induction l with
  | nil => simp [eraseN] at h
  | cons d r ih =>
    unfold eraseN at h
    split at h
    · exact List.mem_cons_of_mem _ (ih h)
    · rcases List.mem_cons.mp h with h | h
      · exact h ▸ List.mem_cons_self
      · exact List.mem_cons_of_mem _ (ih h)

theorem rising_insertN {α : Type} (k : Nat) (v : α) {l : List (Nat × α)} (h : Rising l) : Rising (insertN k v l) := by
  induction l with
  | nil => simp [insertN, Rising]
  | cons d r ih =>
    obtain ⟨j, w⟩ := d
    have ⟨h1, h2⟩ := List.pairwise_cons.mp h
    unfold insertN
    split
    · rename_i hk
      refine List.pairwise_cons.mpr ⟨?_, h⟩
      intro c hc
      rcases List.mem_cons.mp hc with rfl | hc
      · exact hk
      · exact Nat.lt_trans hk (h1 c hc)
    · split
      · rename_i hk
        subst hk
        exact List.pairwise_cons.mpr ⟨h1, h2⟩
      · refine List.pairwise_cons.mpr ⟨?_, ih h2⟩
        intro c hc
        rcases mem_insertN hc with rfl | hc
        · show j < k; omega
        · exact h1 c hc

theorem rising_eraseN {α : Type} (k : Nat) {l : List (Nat × α)} (h : Rising l) : Rising (eraseN k l) := by
  induction l with
  | nil => simp [eraseN, Rising]
  | cons d r ih =>
    have ⟨h1, h2⟩ := List.pairwise_cons.mp h
    unfold eraseN
    split
    · exact ih h2
    · exact List.pairwise_cons.mpr ⟨fun c hc => h1 c (mem_eraseN hc), ih h2⟩

theorem lookupN_eraseN_self {α : Type} (k : Nat) (l : List (Nat × α)) : lookupN k (eraseN k l) = none := by
  induction l with
  | nil => rfl
  | cons d r ih =>
    unfold eraseN
    split
    · exact ih
    · rename_i h; simp [lookupN, h, ih]

theorem lookupN_eraseN_ne {α : Type} {k j : Nat} (h : j ≠ k) (l : List (Nat × α)) :
    lookupN j (eraseN k l) = lookupN j l := by
  induction l with
  | nil => rfl
  | cons d r ih =>
    obtain ⟨i, w⟩ := d
    unfold eraseN
    split
    · rename_i e; subst e; simp [lookupN, Ne.symm h, ih]
    · simp only [lookupN, ih]

/-! ## One byte -/

theorem Mem.read_write_self (m : Mem) (a : Nat) (v : Byte) : (m.write a v).read a = v := by
  unfold Mem.write Mem.read
  split
  · rename_i h; simp [lookupN_eraseN_self, h]
  · simp [lookupN_insertN_self]

theorem Mem.read_write_ne (m : Mem) {a b : Nat} (h : b ≠ a) (v : Byte) : (m.write a v).read b = m.read b := by
  unfold Mem.write Mem.read
  split
  · rw [lookupN_eraseN_ne h]
  · rw [lookupN_insertN_ne h]

theorem Mem.wf_write {m : Mem} (h : m.wf) (a : Nat) (v : Byte) : (m.write a v).wf := by
  unfold Mem.write
  split
  · exact ⟨rising_eraseN a h.1, fun c hc => h.2 c (mem_eraseN hc)⟩
  · rename_i hv
    refine ⟨rising_insertN a v h.1, fun c hc => ?_⟩
    rcases mem_insertN hc with rfl | hc
    · exact hv
    · exact h.2 c hc

/-! ## Several bytes -/

theorem Mem.wf_store {m : Mem} (h : m.wf) (a : Nat) (bs : List Byte) : (m.store a bs).wf := by
  induction bs generalizing m a with
  | nil => exact h
  | cons b r ih => exact ih (Mem.wf_write h a b) (a + 1)

theorem Mem.wf_writeN {m : Mem} (h : m.wf) (a n x : Nat) : (m.writeN a n x).wf := Mem.wf_store h a _

theorem Mem.wf_flush {m : Mem} (h : m.wf) (o : Overlay) : (Overlay.flush o m).wf := by
  induction o generalizing m with
  | nil => exact h
  | cons c r ih => exact ih (Mem.wf_write h c.1 c.2)

theorem Mem.read_store_out (m : Mem) (a : Nat) (bs : List Byte) {b : Nat} (h : b < a ∨ a + bs.length ≤ b) :
    (m.store a bs).read b = m.read b := by
  induction bs generalizing m a with
  | nil => rfl
  | cons c r ih =>
    simp only [List.length_cons] at h
    rw [Mem.store, ih _ _ (by omega), Mem.read_write_ne _ (by omega)]

theorem Mem.bytes_write_below (m : Mem) (a n : Nat) {k : Nat} (v : Byte) (h : k < a) : (m.write k v).bytes a n = m.bytes a n := by
  induction n generalizing a with
  | zero => rfl
  | succ n ih => simp only [Mem.bytes]; rw [Mem.read_write_ne _ (by omega), ih _ (by omega)]

theorem Mem.store_write_below (m : Mem) (a : Nat) (bs : List Byte) {k : Nat} (h : k < a) :
    (m.store a bs).read k = m.read k := Mem.read_store_out m a bs (.inl h)

theorem Mem.bytes_store (m : Mem) (a : Nat) (bs : List Byte) : (m.store a bs).bytes a bs.length = bs := by
  induction bs generalizing m a with
  | nil => rfl
  | cons b r ih =>
    simp only [List.length_cons, Mem.bytes, Mem.store]
    rw [ih, Mem.store_write_below _ _ _ (by omega), Mem.read_write_self]

theorem toBytes_length (n x : Nat) : (toBytes n x).length = n := by
  induction n generalizing x with
  | zero => rfl
  | succ n ih => simp [toBytes, ih]

theorem ofBytes_toBytes (n x : Nat) : ofBytes (toBytes n x) = x % 256 ^ n := by
  induction n generalizing x with
  | zero => simp [toBytes, ofBytes, Nat.mod_one]
  | succ n ih =>
    simp only [toBytes, ofBytes, ih, BitVec.toNat_ofNat]
    rw [show 256 ^ (n + 1) = 256 * 256 ^ n from Nat.pow_succ', Nat.mod_mul (a := 256)]

/-- A number stored and read back (R10). -/
theorem Mem.readN_writeN (m : Mem) (a n x : Nat) : (m.writeN a n x).readN a n = x % 256 ^ n := by
  unfold Mem.readN Mem.writeN
  have h := Mem.bytes_store m a (toBytes n x)
  rw [toBytes_length] at h
  rw [h, ofBytes_toBytes]

/-! ## Reset -/

theorem reset_mem_wf : State.reset.mem.wf := by simp [State.reset, Mem.wf]

end Sys2Proof.Machine
end

