-- ==== Sys2Proof/Laws/PerInstr.lean ====
section
/-! SUPPORT. What holds of every instruction as syntax, constructor by constructor. Family `RoundTrip`: a well-formed
instruction's word decodes to that instruction (R26 to R56). -/

namespace Sys2Proof.Laws.RoundTrip

/-- The word that the encoder writes for a well-formed instruction decodes to it. -/
def Statement (i : Instr) : Prop := WellFormed i → ∀ w, encode i = some w → decode w = .ok i

theorem nop (x0) : Statement (.nop x0) := by
  intro wf w e
  obtain rfl := Option.some.inj e
  refine decode_formA 0 0 rfl rfl rfl wf ?_
  simp (disch := omega) only [byGroup, decode0, modZ, modOf_formA, fD_formA, fA_formA, fB_formA, hdrOf_formA, mbz_nil,
    List.append_eq_nil_iff, Parsed.mk.injEq]
  all_goals simp

theorem bra (x0 x1) : Statement (.bra x0 x1) := by
  intro wf w e
  obtain rfl := Option.some.inj e
  refine decode_formC 1 0 rfl rfl rfl wf ?_
  simp (disch := omega) only [byGroup, decode0, modZ, modOf_formC, mod_formC, hdrOf_formC, fSig_formC, fTofs_formC,
    fB_formC, braOf, kind0, mbz_nil, List.append_eq_nil_iff, Parsed.mk.injEq, Nat.reduceSub]
  all_goals simp

theorem brc (x0 x1 x2 x3) : Statement (.brc x0 x1 x2 x3) := by
  intro wf w e
  obtain rfl := Option.some.inj e
  refine decode_formC 2 0 rfl rfl rfl wf ?_
  simp (disch := omega) only [byGroup, decode0, modZ, modOf_formC, mod_formC, mBit_formC, hdrOf_formC, fSig_formC,
    fTofs_formC, fB_formC, braOf, field_low, field_high, field_self, bit_cat, bit_bit, mbz_nil, mask_cat,
    List.append_eq_nil_iff, Parsed.mk.injEq, decide_true, Bool.true_and, reduceIte, Nat.reduceLT, Nat.reduceSub]
  all_goals simp (disch := omega) [bit]

theorem brx (x0 x1 x2 x3) : Statement (.brx x0 x1 x2 x3) := by
  intro wf w e
  obtain rfl := Option.some.inj e
  refine decode_formC 3 0 rfl rfl rfl wf ?_
  simp (disch := omega) only [byGroup, decode0, modOf_formC, mod_formC, hdrOf_formC, fSig_formC, fTofs_formC, fB_formC,
    kind0, mbz_nil, List.append_eq_nil_iff, Parsed.mk.injEq, Nat.reduceSub, modZ]
  have hs := srcOfPlain_enc x3 (show srcPlain _ _ x3 = [] from wf)
  simp [hs]

theorem call (x0 x1 x2 x3) : Statement (.call x0 x1 x2 x3) := by
  intro wf w e
  cases x3 with
  | direct o =>
    obtain rfl := Option.some.inj e
    refine decode_formC 4 0 rfl rfl rfl wf ?_
    simp (disch := omega) only [byGroup, decode0, modOf_formC, mod_formC, hdrOf_formC, fSig_formC, fTofs_formC, fB_formC,
      field_low, field_high, field_self, reduceIte, Nat.reduceSub, modZ]
    all_goals simp (disch := omega) [mbz_nil, mask_lit]
  | reg b =>
    obtain rfl := Option.some.inj e
    refine decode_formC 4 0 rfl rfl rfl wf ?_
    simp (disch := omega) only [byGroup, decode0, modOf_formC, mod_formC, hdrOf_formC, fSig_formC, fTofs_formC, fB_formC,
      field_low, field_high, field_self, mbz_nil, mask_cat, List.append_eq_nil_iff, Parsed.mk.injEq, reduceIte,
      Nat.reduceSub, modZ]
    have hs := srcOfPlain_enc b (show srcPlain _ _ b = [] from wf)
    simp [hs]

theorem ret (x0 x1 x2 x3) : Statement (.ret x0 x1 x2 x3) := by
  intro wf w e
  obtain rfl := Option.some.inj e
  refine decode_formC 5 0 rfl rfl rfl wf ?_
  simp (disch := omega) only [byGroup, decode0, modOf_formC, mod_formC, hdrOf_formC, fSig_formC, fTofs_formC, fB_formC,
    kind0, mbz_nil, List.append_eq_nil_iff, Parsed.mk.injEq, Nat.reduceSub, modZ]
  have hs := srcOfPlain_enc x3 (show srcPlain _ _ x3 = [] from wf)
  simp [hs]

theorem loop (x0 x1 x2) : Statement (.loop x0 x1 x2) := by
  intro wf w e
  obtain rfl := Option.some.inj e
  refine decode_formC 6 0 rfl rfl rfl wf ?_
  simp (disch := omega) only [byGroup, decode0, modZ, modOf_formC, mod_formC, hdrOf_formC, fSig_formC, fTofs_formC,
    fB_formC, braOf, kind0, field_low, field_high, field_self, mbz_nil, mask_cat, List.append_eq_nil_iff, Parsed.mk.injEq,
    Nat.reduceSub]
  all_goals simp

theorem sync (x0) : Statement (.sync x0) := by
  intro wf w e
  obtain rfl := Option.some.inj e
  refine decode_formA 7 0 rfl rfl rfl wf ?_
  simp (disch := omega) only [byGroup, decode0, modZ, modOf_formA, fD_formA, fA_formA, fB_formA, hdrOf_formA, mbz_nil,
    List.append_eq_nil_iff, Parsed.mk.injEq]
  all_goals simp

theorem sealB (x0 x1) : Statement (.sealB x0 x1) := by
  intro wf w e
  obtain rfl := Option.some.inj e
  refine decode_formC 8 0 rfl rfl rfl wf ?_
  simp (disch := omega) only [byGroup, decode0, modZ, modOf_formC, mod_formC, hdrOf_formC, fSig_formC, fTofs_formC,
    fB_formC, kind0, mbz_nil, List.append_eq_nil_iff, Parsed.mk.injEq, Nat.reduceSub]
  all_goals simp

theorem exit (x0 x1) : Statement (.exit x0 x1) := by
  intro wf w e
  obtain rfl := Option.some.inj e
  refine decode_formC 9 0 rfl rfl rfl wf ?_
  simp (disch := omega) only [byGroup, decode0, modZ, modOf_formC, mod_formC, hdrOf_formC, fSig_formC, fTofs_formC,
    fB_formC, kind0, mbz_nil, List.append_eq_nil_iff, Parsed.mk.injEq, Nat.reduceSub]
  all_goals simp

theorem yield (x0) : Statement (.yield x0) := by
  intro wf w e
  obtain rfl := Option.some.inj e
  refine decode_formA 10 0 rfl rfl rfl wf ?_
  simp (disch := omega) only [byGroup, decode0, modZ, modOf_formA, fD_formA, fA_formA, fB_formA, hdrOf_formA, mbz_nil,
    List.append_eq_nil_iff, Parsed.mk.injEq]
  all_goals simp

theorem trap (x0 x1) : Statement (.trap x0 x1) := by
  intro wf w e
  obtain rfl := Option.some.inj e
  refine decode_formA 11 0 rfl rfl rfl wf ?_
  simp (disch := omega) only [byGroup, decode0, modZ, modOf_formA, fD_formA, fA_formA, fB_formA, mod_formA, hdrOf_formA,
    field_low, field_self, mbz_nil, mask_cat, List.append_eq_nil_iff, Parsed.mk.injEq, Nat.reduceSub]
  all_goals simp

theorem rtt (x0 x1 x2 x3) : Statement (.rtt x0 x1 x2 x3) := by
  intro wf w e
  obtain rfl := Option.some.inj e
  refine decode_formA 12 0 rfl rfl rfl wf ?_
  simp (disch := omega) only [byGroup, decode0, modZ, modOf_formA, fD_formA, fA_formA, fB_formA, mBit_formA, hdrOf_formA,
    bit_cat, bit_bit, mbz_nil, mask_cat, List.append_eq_nil_iff, Parsed.mk.injEq, decide_true, decide_false, Bool.true_and,
    Bool.false_and, reduceIte, Nat.reduceLT, Nat.reduceSub, Nat.reduceEqDiff]
  all_goals simp (disch := omega) [bit]

theorem bkpt (x0 x1) : Statement (.bkpt x0 x1) := by
  intro wf w e
  obtain rfl := Option.some.inj e
  refine decode_formA 13 0 rfl rfl rfl wf ?_
  simp (disch := omega) only [byGroup, decode0, modOf_formA, fD_formA, fA_formA, fB_formA, hdrOf_formA,
    List.append_eq_nil_iff, Parsed.mk.injEq]
  all_goals simp

theorem srd (x0 x1 x2 x3) : Statement (.srd x0 x1 x2 x3) := by
  intro wf w e
  obtain rfl := Option.some.inj e
  refine decode_formA 14 0 rfl rfl rfl wf ?_
  simp (disch := omega) only [byGroup, decode0, modZ, modOf_formA, fD_formA, fA_formA, fB_formA, mBit_formA, hdrOf_formA,
    bit_cat, bit_bit, mbz_nil, mask_cat, List.append_eq_nil_iff, Parsed.mk.injEq, decide_true, Bool.true_and, reduceIte,
    Nat.reduceLT, Nat.reduceSub]
  all_goals simp (disch := omega) [bit]

theorem swr (x0 x1 x2) : Statement (.swr x0 x1 x2) := by
  intro wf w e
  obtain rfl := Option.some.inj e
  refine decode_formA 15 0 rfl rfl rfl wf ?_
  simp (disch := omega) only [byGroup, decode0, modZ, modOf_formA, fD_formA, fA_formA, fB_formA, hdrOf_formA, mbz_nil,
    List.append_eq_nil_iff, Parsed.mk.injEq]
  all_goals simp

theorem iadd (x0 x1) : Statement (.iadd x0 x1) := by
  intro wf w e
  obtain rfl := Option.some.inj e
  refine decode_formA 0 1 rfl rfl rfl wf ?_
  simp (disch := omega) only [byGroup, decode1, pInt, modI, fTy, modZ, bit_bit, modOf_formA, fD_formA, fA_formA, fB_formA,
    mod_formA, mBit_formA, hdrOf_formA, field_low, field_high, field_self, bit_cat, bit_bit, mbz_nil, mask_cat,
    List.append_eq_nil_iff, Parsed.mk.injEq, Bool.false_eq_true, decide_true, decide_false, Bool.true_and, Bool.false_and,
    reduceIte, Nat.reduceLT, Nat.reduceSub, Nat.reduceEqDiff]
  all_goals simp (disch := omega) [bit]

theorem iaddI (x0 x1) : Statement (.iaddI x0 x1) := by
  intro wf w e
  obtain rfl := Option.some.inj e
  refine decode_formJ 0 1 rfl rfl rfl wf ?_
  simp (disch := omega) only [byGroup, decode1, modI, fTy, modZ, bit_bit, modOf_formJ, fD_formJ, mod_formJ, mBit_formJ,
    hdrOf_formJ, fImm32_formJ, fSrc_formJ, field_low, field_high, field_self, bit_cat, bit_bit, mbz_nil, mask_cat,
    List.append_eq_nil_iff, Parsed.mk.injEq, decide_true, decide_false, Bool.true_and, Bool.false_and, reduceIte,
    Nat.reduceLT, Nat.reduceSub, Nat.reduceEqDiff]
  all_goals simp (disch := omega) [bit]

theorem isub (x0 x1) : Statement (.isub x0 x1) := by
  intro wf w e
  obtain rfl := Option.some.inj e
  refine decode_formA 1 1 rfl rfl rfl wf ?_
  simp (disch := omega) only [byGroup, decode1, pInt, modI, fTy, modZ, bit_bit, modOf_formA, fD_formA, fA_formA, fB_formA,
    mod_formA, mBit_formA, hdrOf_formA, field_low, field_high, field_self, bit_cat, bit_bit, mbz_nil, mask_cat,
    List.append_eq_nil_iff, Parsed.mk.injEq, decide_true, decide_false, Bool.true_and, Bool.false_and, reduceIte,
    Nat.reduceLT, Nat.reduceSub, Nat.reduceEqDiff]
  all_goals simp (disch := omega) [bit]

theorem iaddc (x0 x1) : Statement (.iaddc x0 x1) := by
  intro wf w e
  obtain rfl := Option.some.inj e
  refine decode_formA 2 1 rfl rfl rfl wf ?_
  simp (disch := omega) only [byGroup, decode1, pCarry, fTy, modZ, bit_bit, modOf_formA, fD_formA, fA_formA, fB_formA,
    mod_formA, mBit_formA, hdrOf_formA, field_low, field_high, field_self, bit_cat, bit_bit, mbz_nil, mask_cat,
    List.append_eq_nil_iff, Parsed.mk.injEq, decide_true, Bool.true_and, reduceIte, Nat.reduceLT, Nat.reduceSub]
  all_goals simp (disch := omega) [bit]

theorem isubb (x0 x1) : Statement (.isubb x0 x1) := by
  intro wf w e
  obtain rfl := Option.some.inj e
  refine decode_formA 3 1 rfl rfl rfl wf ?_
  simp (disch := omega) only [byGroup, decode1, pCarry, fTy, modZ, bit_bit, modOf_formA, fD_formA, fA_formA, fB_formA,
    mod_formA, mBit_formA, hdrOf_formA, field_low, field_high, field_self, bit_cat, bit_bit, mbz_nil, mask_cat,
    List.append_eq_nil_iff, Parsed.mk.injEq, decide_true, Bool.true_and, reduceIte, Nat.reduceLT, Nat.reduceSub]
  all_goals simp (disch := omega) [bit]

theorem imul (x0 x1) : Statement (.imul x0 x1) := by
  intro wf w e
  obtain rfl := Option.some.inj e
  refine decode_formA 4 1 rfl rfl rfl wf ?_
  simp (disch := omega) only [byGroup, decode1, pInt, modI, fTy, modZ, bit_bit, modOf_formA, fD_formA, fA_formA, fB_formA,
    mod_formA, mBit_formA, hdrOf_formA, field_low, field_high, field_self, bit_cat, bit_bit, mbz_nil, mask_cat,
    List.append_eq_nil_iff, Parsed.mk.injEq, decide_true, decide_false, Bool.true_and, Bool.false_and, reduceIte,
    Nat.reduceLT, Nat.reduceSub, Nat.reduceEqDiff]
  all_goals simp (disch := omega) [bit]

theorem imulh (x0 x1) : Statement (.imulh x0 x1) := by
  intro wf w e
  obtain rfl := Option.some.inj e
  refine decode_formA 5 1 rfl rfl rfl wf ?_
  simp (disch := omega) only [byGroup, decode1, pInt, modI, fTy, modZ, bit_bit, modOf_formA, fD_formA, fA_formA, fB_formA,
    mod_formA, mBit_formA, hdrOf_formA, field_low, field_high, field_self, bit_cat, bit_bit, mbz_nil, mask_cat,
    List.append_eq_nil_iff, Parsed.mk.injEq, decide_true, decide_false, Bool.true_and, Bool.false_and, reduceIte,
    Nat.reduceLT, Nat.reduceSub, Nat.reduceEqDiff]
  all_goals simp (disch := omega) [bit]

theorem imad (x0 x1) : Statement (.imad x0 x1) := by
  intro wf w e
  obtain rfl := Option.some.inj e
  refine decode_formA 6 1 rfl rfl rfl wf ?_
  simp (disch := omega) only [byGroup, decode1, pIntTri, modI, fTy, fC, modZ, bit_bit, modOf_formA, fD_formA, fA_formA,
    fB_formA, mod_formA, mBit_formA, hdrOf_formA, field_low, field_high, field_self, bit_cat, bit_bit, mbz_nil, mask_cat,
    List.append_eq_nil_iff, Parsed.mk.injEq, decide_true, decide_false, Bool.true_and, Bool.false_and, reduceIte,
    Nat.reduceLT, Nat.reduceSub, Nat.reduceEqDiff]
  all_goals simp (disch := omega) [bit]

theorem imadw (x0 x1) : Statement (.imadw x0 x1) := by
  intro wf w e
  obtain rfl := Option.some.inj e
  refine decode_formA 7 1 rfl rfl rfl wf ?_
  simp (disch := omega) only [byGroup, decode1, pIntTri, modI, fTy, fC, modZ, bit_bit, modOf_formA, fD_formA, fA_formA,
    fB_formA, mod_formA, mBit_formA, hdrOf_formA, field_low, field_high, field_self, bit_cat, bit_bit, mbz_nil, mask_cat,
    List.append_eq_nil_iff, Parsed.mk.injEq, decide_true, decide_false, Bool.true_and, Bool.false_and, reduceIte,
    Nat.reduceLT, Nat.reduceSub, Nat.reduceEqDiff]
  all_goals simp (disch := omega) [bit]

theorem idiv (x0 x1) : Statement (.idiv x0 x1) := by
  intro wf w e
  obtain rfl := Option.some.inj e
  refine decode_formA 8 1 rfl rfl rfl wf ?_
  simp (disch := omega) only [byGroup, decode1, pInt, modI, fTy, modZ, bit_bit, modOf_formA, fD_formA, fA_formA, fB_formA,
    mod_formA, mBit_formA, hdrOf_formA, field_low, field_high, field_self, bit_cat, bit_bit, mbz_nil, mask_cat,
    List.append_eq_nil_iff, Parsed.mk.injEq, decide_true, decide_false, Bool.true_and, Bool.false_and, reduceIte,
    Nat.reduceLT, Nat.reduceSub, Nat.reduceEqDiff]
  all_goals simp (disch := omega) [bit]

theorem irem (x0 x1) : Statement (.irem x0 x1) := by
  intro wf w e
  obtain rfl := Option.some.inj e
  refine decode_formA 9 1 rfl rfl rfl wf ?_
  simp (disch := omega) only [byGroup, decode1, pInt, modI, fTy, modZ, bit_bit, modOf_formA, fD_formA, fA_formA, fB_formA,
    mod_formA, mBit_formA, hdrOf_formA, field_low, field_high, field_self, bit_cat, bit_bit, mbz_nil, mask_cat,
    List.append_eq_nil_iff, Parsed.mk.injEq, decide_true, decide_false, Bool.true_and, Bool.false_and, reduceIte,
    Nat.reduceLT, Nat.reduceSub, Nat.reduceEqDiff]
  all_goals simp (disch := omega) [bit]

theorem iabs (x0 x1) : Statement (.iabs x0 x1) := by
  intro wf w e
  obtain rfl := Option.some.inj e
  refine decode_formA 10 1 rfl rfl rfl wf ?_
  simp (disch := omega) only [byGroup, decode1, pIntUn, modI, fTy, modZ, bit_bit, modOf_formA, fD_formA, fA_formA,
    fB_formA, mod_formA, mBit_formA, hdrOf_formA, field_low, field_high, field_self, bit_cat, bit_bit, mbz_nil, mask_cat,
    List.append_eq_nil_iff, Parsed.mk.injEq, decide_true, decide_false, Bool.true_and, Bool.false_and, reduceIte,
    Nat.reduceLT, Nat.reduceSub, Nat.reduceEqDiff]
  all_goals simp (disch := omega) [bit]

theorem ineg (x0 x1) : Statement (.ineg x0 x1) := by
  intro wf w e
  obtain rfl := Option.some.inj e
  refine decode_formA 11 1 rfl rfl rfl wf ?_
  simp (disch := omega) only [byGroup, decode1, pIntUn, modI, fTy, modZ, bit_bit, modOf_formA, fD_formA, fA_formA,
    fB_formA, mod_formA, mBit_formA, hdrOf_formA, field_low, field_high, field_self, bit_cat, bit_bit, mbz_nil, mask_cat,
    List.append_eq_nil_iff, Parsed.mk.injEq, decide_true, decide_false, Bool.true_and, Bool.false_and, reduceIte,
    Nat.reduceLT, Nat.reduceSub, Nat.reduceEqDiff]
  all_goals simp (disch := omega) [bit]

theorem imin (x0 x1) : Statement (.imin x0 x1) := by
  intro wf w e
  obtain rfl := Option.some.inj e
  refine decode_formA 12 1 rfl rfl rfl wf ?_
  simp (disch := omega) only [byGroup, decode1, pInt, modI, fTy, modZ, bit_bit, modOf_formA, fD_formA, fA_formA, fB_formA,
    mod_formA, mBit_formA, hdrOf_formA, field_low, field_high, field_self, bit_cat, bit_bit, mbz_nil, mask_cat,
    List.append_eq_nil_iff, Parsed.mk.injEq, decide_true, decide_false, Bool.true_and, Bool.false_and, reduceIte,
    Nat.reduceLT, Nat.reduceSub, Nat.reduceEqDiff]
  all_goals simp (disch := omega) [bit]

theorem imax (x0 x1) : Statement (.imax x0 x1) := by
  intro wf w e
  obtain rfl := Option.some.inj e
  refine decode_formA 13 1 rfl rfl rfl wf ?_
  simp (disch := omega) only [byGroup, decode1, pInt, modI, fTy, modZ, bit_bit, modOf_formA, fD_formA, fA_formA, fB_formA,
    mod_formA, mBit_formA, hdrOf_formA, field_low, field_high, field_self, bit_cat, bit_bit, mbz_nil, mask_cat,
    List.append_eq_nil_iff, Parsed.mk.injEq, decide_true, decide_false, Bool.true_and, Bool.false_and, reduceIte,
    Nat.reduceLT, Nat.reduceSub, Nat.reduceEqDiff]
  all_goals simp (disch := omega) [bit]

theorem iadd3 (x0 x1) : Statement (.iadd3 x0 x1) := by
  intro wf w e
  obtain rfl := Option.some.inj e
  refine decode_formA 14 1 rfl rfl rfl wf ?_
  simp (disch := omega) only [byGroup, decode1, pIntTri, modI, fTy, fC, modZ, bit_bit, modOf_formA, fD_formA, fA_formA,
    fB_formA, mod_formA, mBit_formA, hdrOf_formA, field_low, field_high, field_self, bit_cat, bit_bit, mbz_nil, mask_cat,
    List.append_eq_nil_iff, Parsed.mk.injEq, decide_true, decide_false, Bool.true_and, Bool.false_and, reduceIte,
    Nat.reduceLT, Nat.reduceSub, Nat.reduceEqDiff]
  all_goals simp (disch := omega) [bit]

theorem isad (x0 x1) : Statement (.isad x0 x1) := by
  intro wf w e
  obtain rfl := Option.some.inj e
  refine decode_formA 15 1 rfl rfl rfl wf ?_
  simp (disch := omega) only [byGroup, decode1, pIntTri, modI, fTy, fC, modZ, bit_bit, modOf_formA, fD_formA, fA_formA,
    fB_formA, mod_formA, mBit_formA, hdrOf_formA, field_low, field_high, field_self, bit_cat, bit_bit, mbz_nil, mask_cat,
    List.append_eq_nil_iff, Parsed.mk.injEq, decide_true, decide_false, Bool.true_and, Bool.false_and, reduceIte,
    Nat.reduceLT, Nat.reduceSub, Nat.reduceEqDiff]
  all_goals simp (disch := omega) [bit]

theorem lea (x0 x1) : Statement (.lea x0 x1) := by
  intro wf w e
  obtain rfl := Option.some.inj e
  refine decode_formA 16 1 rfl rfl rfl wf ?_
  simp (disch := omega) only [byGroup, decode1, fTy, fC, fD_formA, fA_formA, fB_formA, mod_formA, hdrOf_formA, field_low,
    field_high, field_self, List.append_eq_nil_iff, Parsed.mk.injEq, Nat.reduceSub]
  all_goals simp

theorem blut (x0 x1) : Statement (.blut x0 x1) := by
  intro wf w e
  obtain rfl := Option.some.inj e
  refine decode_formA 0 2 rfl rfl rfl wf ?_
  simp (disch := omega) only [byGroup, decode2, modI, fTy, fC, modZ, bit_bit, modOf_formA, fD_formA, fA_formA, fB_formA,
    mod_formA, mBit_formA, hdrOf_formA, field_low, field_high, field_self, bit_cat, bit_bit, mbz_nil, mask_cat,
    List.append_eq_nil_iff, Parsed.mk.injEq, Bool.false_eq_true, decide_true, Bool.true_and, reduceIte, Nat.reduceLT,
    Nat.reduceSub]
  all_goals simp (disch := omega) [bit]

theorem blutI (x0 x1) : Statement (.blutI x0 x1) := by
  intro wf w e
  obtain rfl := Option.some.inj e
  refine decode_formJ 0 2 rfl rfl rfl wf ?_
  simp (disch := omega) only [byGroup, decode2, modI, fTy, fC, modZ, bit_bit, modOf_formJ, fD_formJ, mod_formJ,
    mBit_formJ, hdrOf_formJ, fImm32_formJ, fSrc_formJ, field_low, field_high, field_self, bit_cat, bit_bit, mbz_nil,
    mask_cat, List.append_eq_nil_iff, Parsed.mk.injEq, decide_true, Bool.true_and, reduceIte, Nat.reduceLT, Nat.reduceSub]
  all_goals simp (disch := omega) [bit]

theorem shl (x0 x1) : Statement (.shl x0 x1) := by
  intro wf w e
  obtain rfl := Option.some.inj e
  refine decode_formA 1 2 rfl rfl rfl wf ?_
  simp (disch := omega) only [byGroup, decode2, pLog, modI, fTy, modZ, modOf_formA, fD_formA, fA_formA, fB_formA,
    mod_formA, hdrOf_formA, field_low, field_high, field_self, mbz_nil, mask_cat, List.append_eq_nil_iff, Parsed.mk.injEq,
    Nat.reduceSub]
  all_goals simp (disch := omega) [bit]

theorem shr (x0 x1) : Statement (.shr x0 x1) := by
  intro wf w e
  obtain rfl := Option.some.inj e
  refine decode_formA 2 2 rfl rfl rfl wf ?_
  simp (disch := omega) only [byGroup, decode2, pLog, modI, fTy, modZ, modOf_formA, fD_formA, fA_formA, fB_formA,
    mod_formA, hdrOf_formA, field_low, field_high, field_self, mbz_nil, mask_cat, List.append_eq_nil_iff, Parsed.mk.injEq,
    Nat.reduceSub]
  all_goals simp (disch := omega) [bit]

theorem sar (x0 x1) : Statement (.sar x0 x1) := by
  intro wf w e
  obtain rfl := Option.some.inj e
  refine decode_formA 3 2 rfl rfl rfl wf ?_
  simp (disch := omega) only [byGroup, decode2, pLog, modI, fTy, modZ, modOf_formA, fD_formA, fA_formA, fB_formA,
    mod_formA, hdrOf_formA, field_low, field_high, field_self, mbz_nil, mask_cat, List.append_eq_nil_iff, Parsed.mk.injEq,
    Nat.reduceSub]
  all_goals simp (disch := omega) [bit]

theorem rot (x0 x1) : Statement (.rot x0 x1) := by
  intro wf w e
  obtain rfl := Option.some.inj e
  refine decode_formA 4 2 rfl rfl rfl wf ?_
  simp (disch := omega) only [byGroup, decode2, pLog, modI, fTy, modZ, modOf_formA, fD_formA, fA_formA, fB_formA,
    mod_formA, hdrOf_formA, field_low, field_high, field_self, mbz_nil, mask_cat, List.append_eq_nil_iff, Parsed.mk.injEq,
    Nat.reduceSub]
  all_goals simp (disch := omega) [bit]

theorem funl (x0 x1) : Statement (.funl x0 x1) := by
  intro wf w e
  obtain rfl := Option.some.inj e
  refine decode_formA 5 2 rfl rfl rfl wf ?_
  simp (disch := omega) only [byGroup, decode2, modI, fTy, fC, modZ, bit_bit, modOf_formA, fD_formA, fA_formA, fB_formA,
    mod_formA, mBit_formA, hdrOf_formA, field_low, field_high, field_self, bit_cat, bit_bit, mbz_nil, mask_cat,
    List.append_eq_nil_iff, Parsed.mk.injEq, decide_true, decide_false, Bool.true_and, Bool.false_and, reduceIte,
    Nat.reduceLT, Nat.reduceSub, Nat.reduceEqDiff]
  all_goals simp (disch := omega) [bit]

theorem bfe (x0 x1) : Statement (.bfe x0 x1) := by
  intro wf w e
  obtain rfl := Option.some.inj e
  refine decode_formA 6 2 rfl rfl rfl wf ?_
  simp (disch := omega) only [byGroup, decode2, pLog, modI, fTy, modZ, modOf_formA, fD_formA, fA_formA, fB_formA,
    mod_formA, hdrOf_formA, field_low, field_high, field_self, mbz_nil, mask_cat, List.append_eq_nil_iff, Parsed.mk.injEq,
    Nat.reduceSub]
  all_goals simp (disch := omega) [bit]

theorem bfi (x0 x1) : Statement (.bfi x0 x1) := by
  intro wf w e
  obtain rfl := Option.some.inj e
  refine decode_formA 7 2 rfl rfl rfl wf ?_
  simp (disch := omega) only [byGroup, decode2, pLogTri, modI, fTy, fC, modZ, modOf_formA, fD_formA, fA_formA, fB_formA,
    mod_formA, hdrOf_formA, field_low, field_high, field_self, mbz_nil, mask_cat, List.append_eq_nil_iff, Parsed.mk.injEq,
    Nat.reduceSub]
  all_goals simp (disch := omega) [bit]

theorem popc (x0 x1) : Statement (.popc x0 x1) := by
  intro wf w e
  obtain rfl := Option.some.inj e
  refine decode_formA 8 2 rfl rfl rfl wf ?_
  simp (disch := omega) only [byGroup, decode2, pLogUn, modI, fTy, modZ, modOf_formA, fD_formA, fA_formA, fB_formA,
    mod_formA, hdrOf_formA, field_low, field_high, field_self, mbz_nil, mask_cat, List.append_eq_nil_iff, Parsed.mk.injEq,
    Nat.reduceSub]
  all_goals simp (disch := omega) [bit]

theorem clz (x0 x1) : Statement (.clz x0 x1) := by
  intro wf w e
  obtain rfl := Option.some.inj e
  refine decode_formA 9 2 rfl rfl rfl wf ?_
  simp (disch := omega) only [byGroup, decode2, pLogUn, modI, fTy, modZ, modOf_formA, fD_formA, fA_formA, fB_formA,
    mod_formA, hdrOf_formA, field_low, field_high, field_self, mbz_nil, mask_cat, List.append_eq_nil_iff, Parsed.mk.injEq,
    Nat.reduceSub]
  all_goals simp (disch := omega) [bit]

theorem ctz (x0 x1) : Statement (.ctz x0 x1) := by
  intro wf w e
  obtain rfl := Option.some.inj e
  refine decode_formA 10 2 rfl rfl rfl wf ?_
  simp (disch := omega) only [byGroup, decode2, pLogUn, modI, fTy, modZ, modOf_formA, fD_formA, fA_formA, fB_formA,
    mod_formA, hdrOf_formA, field_low, field_high, field_self, mbz_nil, mask_cat, List.append_eq_nil_iff, Parsed.mk.injEq,
    Nat.reduceSub]
  all_goals simp (disch := omega) [bit]

theorem brev (x0 x1) : Statement (.brev x0 x1) := by
  intro wf w e
  obtain rfl := Option.some.inj e
  refine decode_formA 11 2 rfl rfl rfl wf ?_
  simp (disch := omega) only [byGroup, decode2, pLogUn, modI, fTy, modZ, modOf_formA, fD_formA, fA_formA, fB_formA,
    mod_formA, hdrOf_formA, field_low, field_high, field_self, mbz_nil, mask_cat, List.append_eq_nil_iff, Parsed.mk.injEq,
    Nat.reduceSub]
  all_goals simp (disch := omega) [bit]

theorem bsel (x0 x1) : Statement (.bsel x0 x1) := by
  intro wf w e
  obtain rfl := Option.some.inj e
  refine decode_formA 12 2 rfl rfl rfl wf ?_
  simp (disch := omega) only [byGroup, decode2, pLogTri, modI, fTy, fC, modZ, modOf_formA, fD_formA, fA_formA, fB_formA,
    mod_formA, hdrOf_formA, field_low, field_high, field_self, mbz_nil, mask_cat, List.append_eq_nil_iff, Parsed.mk.injEq,
    Nat.reduceSub]
  all_goals simp (disch := omega) [bit]

theorem mov (x0 x1) : Statement (.mov x0 x1) := by
  intro wf w e
  obtain rfl := Option.some.inj e
  refine decode_formA 0 3 rfl rfl rfl wf ?_
  simp (disch := omega) only [byGroup, decode3, pLogUn, modI, fTy, modZ, modOf_formA, fD_formA, fA_formA, fB_formA,
    mod_formA, hdrOf_formA, field_low, field_high, field_self, mbz_nil, mask_cat, List.append_eq_nil_iff, Parsed.mk.injEq,
    Nat.reduceSub]
  all_goals simp (disch := omega) [bit]

theorem movi (x0 x1) : Statement (.movi x0 x1) := by
  intro wf w e
  obtain rfl := Option.some.inj e
  refine decode_formJ 1 3 rfl rfl rfl wf ?_
  simp (disch := omega) only [byGroup, decode3, modI, fTy, modZ, bit_bit, modOf_formJ, fD_formJ, mod_formJ, mBit_formJ,
    hdrOf_formJ, fImm32_formJ, fSrc_formJ, field_low, field_high, field_self, bit_cat, bit_bit, mbz_nil, mask_cat,
    List.append_eq_nil_iff, Parsed.mk.injEq, decide_true, Bool.true_and, reduceIte, Nat.reduceLT, Nat.reduceSub]
  all_goals simp (disch := omega) [bit]

theorem sel (x0 x1) : Statement (.sel x0 x1) := by
  intro wf w e
  obtain rfl := Option.some.inj e
  refine decode_formA 2 3 rfl rfl rfl wf ?_
  simp (disch := omega) only [byGroup, decode3, pLogTri, modI, fTy, fC, modZ, modOf_formA, fD_formA, fA_formA, fB_formA,
    mod_formA, hdrOf_formA, field_low, field_high, field_self, mbz_nil, mask_cat, List.append_eq_nil_iff, Parsed.mk.injEq,
    Nat.reduceSub]
  all_goals simp (disch := omega) [bit]

theorem icmp (x0 x1) : Statement (.icmp x0 x1) := by
  intro wf w e
  obtain rfl := Option.some.inj e
  refine decode_formA 3 3 rfl rfl rfl wf ?_
  simp (disch := omega) only [byGroup, decode3, modI, fTy, modZ, bit_bit, cmpOf, encCmp, modOf_formA, fD_formA, fA_formA,
    fB_formA, mod_formA, mBit_formA, hdrOf_formA, field_low, field_high, field_self, bit_cat, bit_bit, mbz_nil, mask_cat,
    List.append_eq_nil_iff, Parsed.mk.injEq, Bool.false_eq_true, decide_true, Bool.true_and, reduceIte, Nat.reduceLT,
    Nat.reduceSub]
  all_goals simp (disch := omega) [bit]

theorem icmpI (x0 x1) : Statement (.icmpI x0 x1) := by
  intro wf w e
  obtain rfl := Option.some.inj e
  refine decode_formJ 3 3 rfl rfl rfl wf ?_
  simp (disch := omega) only [byGroup, decode3, modI, fTy, modZ, bit_bit, cmpOf, encCmp, modOf_formJ, fD_formJ, mod_formJ,
    mBit_formJ, hdrOf_formJ, fImm32_formJ, fSrc_formJ, field_low, field_high, field_self, bit_cat, bit_bit, mbz_nil,
    mask_cat, List.append_eq_nil_iff, Parsed.mk.injEq, decide_true, Bool.true_and, reduceIte, Nat.reduceLT, Nat.reduceSub]
  all_goals simp (disch := omega) [bit]

theorem fcmp (x0 x1) : Statement (.fcmp x0 x1) := by
  intro wf w e
  obtain rfl := Option.some.inj e
  refine decode_formA 4 3 rfl rfl rfl wf ?_
  simp (disch := omega) only [byGroup, decode3, bit_bit, cmpOf, encCmp, fD_formA, fA_formA, fB_formA, mod_formA,
    mBit_formA, hdrOf_formA, field_low, field_high, field_self, bit_cat, bit_bit, List.append_eq_nil_iff, Parsed.mk.injEq,
    decide_true, decide_false, Bool.true_and, Bool.false_and, reduceIte, Nat.reduceLT, Nat.reduceSub, Nat.reduceEqDiff]
  all_goals simp

theorem plut (x0 x1) : Statement (.plut x0 x1) := by
  intro wf w e
  obtain rfl := Option.some.inj e
  refine decode_formA 5 3 rfl rfl rfl wf ?_
  simp (disch := omega) only [byGroup, decode3, fC, modZ, modOf_formA, fD_formA, fA_formA, fB_formA, mod_formA,
    hdrOf_formA, field_low, field_high, field_self, mbz_nil, mask_cat, List.append_eq_nil_iff, Parsed.mk.injEq,
    Nat.reduceSub]
  all_goals simp

theorem psave (x0 x1) : Statement (.psave x0 x1) := by
  intro wf w e
  obtain rfl := Option.some.inj e
  refine decode_formA 6 3 rfl rfl rfl wf ?_
  simp (disch := omega) only [byGroup, decode3, modZ, modOf_formA, fD_formA, fA_formA, fB_formA, hdrOf_formA, mbz_nil,
    List.append_eq_nil_iff, Parsed.mk.injEq]
  all_goals simp

theorem pload (x0 x1 x2) : Statement (.pload x0 x1 x2) := by
  intro wf w e
  obtain rfl := Option.some.inj e
  refine decode_formA 7 3 rfl rfl rfl wf ?_
  simp (disch := omega) only [byGroup, decode3, modZ, modOf_formA, fD_formA, fA_formA, fB_formA, hdrOf_formA, immB_enc,
    field_low, field_high, field_self, mbz_nil, List.append_eq_nil_iff, Parsed.mk.injEq, Nat.reduceSub]
  all_goals simp

theorem shape (x0 x1 x2 x3) : Statement (.shape x0 x1 x2 x3) := by
  intro wf w e
  obtain rfl := Option.some.inj e
  refine decode_formA 8 3 rfl rfl rfl wf ?_
  simp (disch := omega) only [byGroup, decode3, modZ, bit_bit, modOf_formA, fD_formA, fA_formA, fB_formA, mBit_formA,
    hdrOf_formA, bit_cat, bit_bit, mbz_nil, mask_cat, List.append_eq_nil_iff, Parsed.mk.injEq, decide_true, Bool.true_and,
    reduceIte, Nat.reduceLT, Nat.reduceSub]
  all_goals simp (disch := omega) [bit]

theorem affine (x0 x1 x2 x3) : Statement (.affine x0 x1 x2 x3) := by
  intro wf w e
  obtain rfl := Option.some.inj e
  refine decode_formA 9 3 rfl rfl rfl wf ?_
  simp (disch := omega) only [byGroup, decode3, modZ, modOf_formA, fD_formA, fA_formA, fB_formA, hdrOf_formA, mbz_nil,
    List.append_eq_nil_iff, Parsed.mk.injEq]
  all_goals simp

theorem dadd (x0 x1) : Statement (.dadd x0 x1) := by
  intro wf w e
  obtain rfl := Option.some.inj e
  have ht : x1.ty = .f64 := by
    simp only [WellFormed, Instr.faults, fbinFaults, List.append_eq_nil_iff, need_nil, and_assoc, beq_iff_eq] at wf
    exact wf.1
  refine decode_formA 0 4 rfl rfl rfl wf ?_
  simp (disch := omega) only [byGroup, decode4, pFBin, modOf_formA, fD_formA, fA_formA, fB_formA, mod_formA, hdrOf_formA,
    field_low, field_high, field_self, mbz_nil, mask_cat, List.append_eq_nil_iff, Parsed.mk.injEq, Bool.false_eq_true,
    reduceIte, Nat.reduceSub, pFBin, modF, fShort, fZ, fRnd, modZ]
  all_goals simp (disch := omega) [bit, ← ht]

theorem dmul (x0 x1) : Statement (.dmul x0 x1) := by
  intro wf w e
  obtain rfl := Option.some.inj e
  have ht : x1.ty = .f64 := by
    simp only [WellFormed, Instr.faults, fbinFaults, List.append_eq_nil_iff, need_nil, and_assoc, beq_iff_eq] at wf
    exact wf.1
  refine decode_formA 1 4 rfl rfl rfl wf ?_
  simp (disch := omega) only [byGroup, decode4, pFBin, modOf_formA, fD_formA, fA_formA, fB_formA, mod_formA, hdrOf_formA,
    field_low, field_high, field_self, mbz_nil, mask_cat, List.append_eq_nil_iff, Parsed.mk.injEq, Bool.false_eq_true,
    reduceIte, Nat.reduceSub, pFBin, modF, fShort, fZ, fRnd, modZ]
  all_goals simp (disch := omega) [bit, ← ht]

theorem dfma (x0 x1) : Statement (.dfma x0 x1) := by
  intro wf w e
  obtain rfl := Option.some.inj e
  have ht : x1.ty = .f64 := by
    simp only [WellFormed, Instr.faults, ftriFaults, List.append_eq_nil_iff, need_nil, and_assoc, beq_iff_eq] at wf
    exact wf.1
  refine decode_formA 2 4 rfl rfl rfl wf ?_
  simp (disch := omega) only [byGroup, decode4, pFTri, modOf_formA, fD_formA, fA_formA, fB_formA, mod_formA, hdrOf_formA,
    field_low, field_high, field_self, mbz_nil, mask_cat, List.append_eq_nil_iff, Parsed.mk.injEq, Bool.false_eq_true,
    reduceIte, Nat.reduceSub, pFTri, modF, fShort, fZ, fRnd, modZ, fC]
  all_goals simp (disch := omega) [bit, ← ht]

theorem ddiv (x0 x1) : Statement (.ddiv x0 x1) := by
  intro wf w e
  obtain rfl := Option.some.inj e
  have ht : x1.ty = .f64 := by
    simp only [WellFormed, Instr.faults, fbinFaults, List.append_eq_nil_iff, need_nil, and_assoc, beq_iff_eq] at wf
    exact wf.1
  refine decode_formA 3 4 rfl rfl rfl wf ?_
  simp (disch := omega) only [byGroup, decode4, pFBin, modOf_formA, fD_formA, fA_formA, fB_formA, mod_formA, hdrOf_formA,
    field_low, field_high, field_self, mbz_nil, mask_cat, List.append_eq_nil_iff, Parsed.mk.injEq, Bool.false_eq_true,
    reduceIte, Nat.reduceSub, pFBin, modF, fShort, fZ, fRnd, modZ]
  all_goals simp (disch := omega) [bit, ← ht]

theorem dsqrt (x0 x1) : Statement (.dsqrt x0 x1) := by
  intro wf w e
  obtain rfl := Option.some.inj e
  have ht : x1.ty = .f64 := by
    simp only [WellFormed, Instr.faults, funFaults, List.append_eq_nil_iff, need_nil, and_assoc, beq_iff_eq] at wf
    exact wf.1
  refine decode_formA 4 4 rfl rfl rfl wf ?_
  simp (disch := omega) only [byGroup, decode4, pFUn, modOf_formA, fD_formA, fA_formA, fB_formA, mod_formA, hdrOf_formA,
    field_low, field_high, field_self, mbz_nil, mask_cat, List.append_eq_nil_iff, Parsed.mk.injEq, Bool.false_eq_true,
    reduceIte, Nat.reduceSub, pFUn, modF, fShort, fZ, fRnd, modZ]
  all_goals simp (disch := omega) [bit, ← ht]

theorem dmin (x0 x1) : Statement (.dmin x0 x1) := by
  intro wf w e
  obtain rfl := Option.some.inj e
  have ht : x1.ty = .f64 := by
    simp only [WellFormed, Instr.faults, fminFaults, List.append_eq_nil_iff, need_nil, and_assoc, beq_iff_eq] at wf
    exact wf.1
  refine decode_formA 5 4 rfl rfl rfl wf ?_
  simp (disch := omega) only [byGroup, decode4, pFMin, modOf_formA, fD_formA, fA_formA, fB_formA, mod_formA, mBit_formA,
    hdrOf_formA, encRnd_dyn, field_low, field_high, field_self, bit_cat, bit_bit, mbz_nil, mask_cat, List.append_eq_nil_iff,
    Parsed.mk.injEq, decide_true, decide_false, Bool.true_and, Bool.false_and, reduceIte, Nat.reduceLT, Nat.reduceSub,
    Nat.reduceEqDiff, pFMin, modF, fShort, optZ, optBit, noRnd, modZ]
  all_goals simp (disch := omega) [bit, ← ht]

theorem dmax (x0 x1) : Statement (.dmax x0 x1) := by
  intro wf w e
  obtain rfl := Option.some.inj e
  have ht : x1.ty = .f64 := by
    simp only [WellFormed, Instr.faults, fminFaults, List.append_eq_nil_iff, need_nil, and_assoc, beq_iff_eq] at wf
    exact wf.1
  refine decode_formA 6 4 rfl rfl rfl wf ?_
  simp (disch := omega) only [byGroup, decode4, pFMin, modOf_formA, fD_formA, fA_formA, fB_formA, mod_formA, mBit_formA,
    hdrOf_formA, encRnd_dyn, field_low, field_high, field_self, bit_cat, bit_bit, mbz_nil, mask_cat, List.append_eq_nil_iff,
    Parsed.mk.injEq, decide_true, decide_false, Bool.true_and, Bool.false_and, reduceIte, Nat.reduceLT, Nat.reduceSub,
    Nat.reduceEqDiff, pFMin, modF, fShort, optZ, optBit, noRnd, modZ]
  all_goals simp (disch := omega) [bit, ← ht]

theorem drint (x0 x1) : Statement (.drint x0 x1) := by
  intro wf w e
  obtain rfl := Option.some.inj e
  have ht : x1.ty = .f64 := by
    simp only [WellFormed, Instr.faults, frintFaults, List.append_eq_nil_iff, need_nil, and_assoc, beq_iff_eq] at wf
    exact wf.1
  refine decode_formA 7 4 rfl rfl rfl wf ?_
  simp (disch := omega) only [byGroup, decode4, pFRint, modOf_formA, fD_formA, fA_formA, fB_formA, mod_formA, mBit_formA,
    hdrOf_formA, field_low, field_high, field_self, bit_cat, bit_bit, mbz_nil, mask_cat, List.append_eq_nil_iff,
    Parsed.mk.injEq, decide_true, decide_false, Bool.true_and, Bool.false_and, reduceIte, Nat.reduceLT, Nat.reduceSub,
    Nat.reduceEqDiff, pFRint, modF, fShort, optZ, optBit, fRnd, modZ]
  all_goals simp (disch := omega) [bit, ← ht]

theorem dscalb (x0 x1) : Statement (.dscalb x0 x1) := by
  intro wf w e
  obtain rfl := Option.some.inj e
  have ht : x1.ty = .f64 := by
    simp only [WellFormed, Instr.faults, fbinFaults, List.append_eq_nil_iff, need_nil, and_assoc, beq_iff_eq] at wf
    exact wf.1
  refine decode_formA 8 4 rfl rfl rfl wf ?_
  simp (disch := omega) only [byGroup, decode4, pFBin, modOf_formA, fD_formA, fA_formA, fB_formA, mod_formA, hdrOf_formA,
    field_low, field_high, field_self, mbz_nil, mask_cat, List.append_eq_nil_iff, Parsed.mk.injEq, Bool.false_eq_true,
    reduceIte, Nat.reduceSub, pFBin, modF, fShort, fZ, fRnd, modZ]
  all_goals simp (disch := omega) [bit, ← ht]

theorem dgetexp (x0 x1) : Statement (.dgetexp x0 x1) := by
  intro wf w e
  obtain rfl := Option.some.inj e
  have ht : x1.ty = .f64 := by
    simp only [WellFormed, Instr.faults, fplainFaults, List.append_eq_nil_iff, need_nil, and_assoc, beq_iff_eq] at wf
    exact wf.1
  refine decode_formA 9 4 rfl rfl rfl wf ?_
  simp (disch := omega) only [byGroup, decode4, pFPlain, modOf_formA, fD_formA, fA_formA, fB_formA, mod_formA,
    hdrOf_formA, encRnd_dyn, field_low, field_high, field_self, mbz_nil, mask_cat, List.append_eq_nil_iff, Parsed.mk.injEq,
    Bool.false_eq_true, reduceIte, Nat.reduceSub, pFPlain, modF, fShort, fZ, noRnd, modZ]
  all_goals simp (disch := omega) [bit, ← ht]

theorem dgetmant (x0 x1) : Statement (.dgetmant x0 x1) := by
  intro wf w e
  obtain rfl := Option.some.inj e
  have ht : x1.ty = .f64 := by
    simp only [WellFormed, Instr.faults, fplainFaults, List.append_eq_nil_iff, need_nil, and_assoc, beq_iff_eq] at wf
    exact wf.1
  refine decode_formA 10 4 rfl rfl rfl wf ?_
  simp (disch := omega) only [byGroup, decode4, pFPlain, modOf_formA, fD_formA, fA_formA, fB_formA, mod_formA,
    hdrOf_formA, encRnd_dyn, field_low, field_high, field_self, mbz_nil, mask_cat, List.append_eq_nil_iff, Parsed.mk.injEq,
    Bool.false_eq_true, reduceIte, Nat.reduceSub, pFPlain, modF, fShort, fZ, noRnd, modZ]
  all_goals simp (disch := omega) [bit, ← ht]

theorem dclass (x0 x1) : Statement (.dclass x0 x1) := by
  intro wf w e
  obtain rfl := Option.some.inj e
  have ht : x1.ty = .f64 := by
    simp only [WellFormed, Instr.faults, fplainFaults, List.append_eq_nil_iff, need_nil, and_assoc, beq_iff_eq] at wf
    exact wf.1
  refine decode_formA 11 4 rfl rfl rfl wf ?_
  simp (disch := omega) only [byGroup, decode4, pFPlain, modOf_formA, fD_formA, fA_formA, fB_formA, mod_formA,
    hdrOf_formA, encRnd_dyn, field_low, field_high, field_self, mbz_nil, mask_cat, List.append_eq_nil_iff, Parsed.mk.injEq,
    Bool.false_eq_true, reduceIte, Nat.reduceSub, pFPlain, modF, fShort, fZ, noRnd, modZ]
  all_goals simp (disch := omega) [bit, ← ht]

theorem fadd (x0 x1) : Statement (.fadd x0 x1) := by
  intro wf w e
  obtain rfl := Option.some.inj e
  have ht : x1.ty.short = true := by
    simp only [WellFormed, Instr.faults, fbinFaults, List.append_eq_nil_iff, need_nil, and_assoc] at wf
    exact wf.1
  refine decode_formA 0 5 rfl rfl rfl wf ?_
  simp (disch := omega) only [byGroup, decode5, pFBin, modOf_formA, fD_formA, fA_formA, fB_formA, mod_formA, hdrOf_formA,
    field_low, field_high, field_self, mbz_nil, mask_cat, List.append_eq_nil_iff, Parsed.mk.injEq, Bool.false_eq_true,
    reduceIte, Nat.reduceSub, pFBin, modF, fShort, fZ, fRnd, modZ]
  all_goals simp (disch := omega) [shortOf_enc _ ht]

theorem fmul (x0 x1) : Statement (.fmul x0 x1) := by
  intro wf w e
  obtain rfl := Option.some.inj e
  have ht : x1.ty.short = true := by
    simp only [WellFormed, Instr.faults, fbinFaults, List.append_eq_nil_iff, need_nil, and_assoc] at wf
    exact wf.1
  refine decode_formA 1 5 rfl rfl rfl wf ?_
  simp (disch := omega) only [byGroup, decode5, pFBin, modOf_formA, fD_formA, fA_formA, fB_formA, mod_formA, hdrOf_formA,
    field_low, field_high, field_self, mbz_nil, mask_cat, List.append_eq_nil_iff, Parsed.mk.injEq, Bool.false_eq_true,
    reduceIte, Nat.reduceSub, pFBin, modF, fShort, fZ, fRnd, modZ]
  all_goals simp (disch := omega) [shortOf_enc _ ht]

theorem ffma (x0 x1) : Statement (.ffma x0 x1) := by
  intro wf w e
  obtain rfl := Option.some.inj e
  have ht : x1.ty.short = true := by
    simp only [WellFormed, Instr.faults, ftriFaults, List.append_eq_nil_iff, need_nil, and_assoc] at wf
    exact wf.1
  refine decode_formA 2 5 rfl rfl rfl wf ?_
  simp (disch := omega) only [byGroup, decode5, pFTri, modOf_formA, fD_formA, fA_formA, fB_formA, mod_formA, hdrOf_formA,
    field_low, field_high, field_self, mbz_nil, mask_cat, List.append_eq_nil_iff, Parsed.mk.injEq, Bool.false_eq_true,
    reduceIte, Nat.reduceSub, pFTri, modF, fShort, fZ, fRnd, modZ, fC]
  all_goals simp (disch := omega) [shortOf_enc _ ht]

theorem fdiv (x0 x1) : Statement (.fdiv x0 x1) := by
  intro wf w e
  obtain rfl := Option.some.inj e
  have ht : x1.ty.short = true := by
    simp only [WellFormed, Instr.faults, fbinFaults, List.append_eq_nil_iff, need_nil, and_assoc] at wf
    exact wf.1
  refine decode_formA 3 5 rfl rfl rfl wf ?_
  simp (disch := omega) only [byGroup, decode5, pFBin, modOf_formA, fD_formA, fA_formA, fB_formA, mod_formA, hdrOf_formA,
    field_low, field_high, field_self, mbz_nil, mask_cat, List.append_eq_nil_iff, Parsed.mk.injEq, Bool.false_eq_true,
    reduceIte, Nat.reduceSub, pFBin, modF, fShort, fZ, fRnd, modZ]
  all_goals simp (disch := omega) [shortOf_enc _ ht]

theorem fsqrt (x0 x1) : Statement (.fsqrt x0 x1) := by
  intro wf w e
  obtain rfl := Option.some.inj e
  have ht : x1.ty.short = true := by
    simp only [WellFormed, Instr.faults, funFaults, List.append_eq_nil_iff, need_nil, and_assoc] at wf
    exact wf.1
  refine decode_formA 4 5 rfl rfl rfl wf ?_
  simp (disch := omega) only [byGroup, decode5, pFUn, modOf_formA, fD_formA, fA_formA, fB_formA, mod_formA, hdrOf_formA,
    field_low, field_high, field_self, mbz_nil, mask_cat, List.append_eq_nil_iff, Parsed.mk.injEq, Bool.false_eq_true,
    reduceIte, Nat.reduceSub, pFUn, modF, fShort, fZ, fRnd, modZ]
  all_goals simp (disch := omega) [shortOf_enc _ ht]

theorem fmin (x0 x1) : Statement (.fmin x0 x1) := by
  intro wf w e
  obtain rfl := Option.some.inj e
  have ht : x1.ty.short = true := by
    simp only [WellFormed, Instr.faults, fminFaults, List.append_eq_nil_iff, need_nil, and_assoc] at wf
    exact wf.1
  refine decode_formA 5 5 rfl rfl rfl wf ?_
  simp (disch := omega) only [byGroup, decode5, pFMin, modOf_formA, fD_formA, fA_formA, fB_formA, mod_formA, mBit_formA,
    hdrOf_formA, encRnd_dyn, field_low, field_high, field_self, bit_cat, mbz_nil, mask_cat, List.append_eq_nil_iff,
    Parsed.mk.injEq, Bool.false_eq_true, reduceIte, Nat.reduceLT, Nat.reduceSub, pFMin, modF, fShort, optZ, optBit, noRnd,
    modZ]
  rw [shortOf_enc _ ht]
  cases hn : x1.num
  all_goals simp
  all_goals (cases x1; simp_all)

theorem fmax (x0 x1) : Statement (.fmax x0 x1) := by
  intro wf w e
  obtain rfl := Option.some.inj e
  have ht : x1.ty.short = true := by
    simp only [WellFormed, Instr.faults, fminFaults, List.append_eq_nil_iff, need_nil, and_assoc] at wf
    exact wf.1
  refine decode_formA 6 5 rfl rfl rfl wf ?_
  simp (disch := omega) only [byGroup, decode5, pFMin, modOf_formA, fD_formA, fA_formA, fB_formA, mod_formA, mBit_formA,
    hdrOf_formA, encRnd_dyn, field_low, field_high, field_self, bit_cat, mbz_nil, mask_cat, List.append_eq_nil_iff,
    Parsed.mk.injEq, Bool.false_eq_true, reduceIte, Nat.reduceLT, Nat.reduceSub, pFMin, modF, fShort, optZ, optBit, noRnd,
    modZ]
  rw [shortOf_enc _ ht]
  cases hn : x1.num
  all_goals simp
  all_goals (cases x1; simp_all)

theorem frint (x0 x1) : Statement (.frint x0 x1) := by
  intro wf w e
  obtain rfl := Option.some.inj e
  have ht : x1.ty.short = true := by
    simp only [WellFormed, Instr.faults, frintFaults, List.append_eq_nil_iff, need_nil, and_assoc] at wf
    exact wf.1
  refine decode_formA 7 5 rfl rfl rfl wf ?_
  simp (disch := omega) only [byGroup, decode5, pFRint, modOf_formA, fD_formA, fA_formA, fB_formA, mod_formA, mBit_formA,
    hdrOf_formA, field_low, field_high, field_self, bit_cat, mbz_nil, mask_cat, List.append_eq_nil_iff, Parsed.mk.injEq,
    Bool.false_eq_true, reduceIte, Nat.reduceLT, Nat.reduceSub, pFRint, modF, fShort, optZ, optBit, fRnd, modZ]
  rw [shortOf_enc _ ht]
  cases hn : x1.exact
  all_goals simp
  all_goals (cases x1; simp_all)

theorem fscalb (x0 x1) : Statement (.fscalb x0 x1) := by
  intro wf w e
  obtain rfl := Option.some.inj e
  have ht : x1.ty.short = true := by
    simp only [WellFormed, Instr.faults, fbinFaults, List.append_eq_nil_iff, need_nil, and_assoc] at wf
    exact wf.1
  refine decode_formA 8 5 rfl rfl rfl wf ?_
  simp (disch := omega) only [byGroup, decode5, pFBin, modOf_formA, fD_formA, fA_formA, fB_formA, mod_formA, hdrOf_formA,
    field_low, field_high, field_self, mbz_nil, mask_cat, List.append_eq_nil_iff, Parsed.mk.injEq, Bool.false_eq_true,
    reduceIte, Nat.reduceSub, pFBin, modF, fShort, fZ, fRnd, modZ]
  all_goals simp (disch := omega) [shortOf_enc _ ht]

theorem fclass (x0 x1) : Statement (.fclass x0 x1) := by
  intro wf w e
  obtain rfl := Option.some.inj e
  have ht : x1.ty.short = true := by
    simp only [WellFormed, Instr.faults, fplainFaults, List.append_eq_nil_iff, need_nil, and_assoc] at wf
    exact wf.1
  refine decode_formA 9 5 rfl rfl rfl wf ?_
  simp (disch := omega) only [byGroup, decode5, pFPlain, modOf_formA, fD_formA, fA_formA, fB_formA, mod_formA,
    hdrOf_formA, encRnd_dyn, field_low, field_high, field_self, mbz_nil, mask_cat, List.append_eq_nil_iff, Parsed.mk.injEq,
    Bool.false_eq_true, reduceIte, Nat.reduceSub, pFPlain, modF, fShort, fZ, noRnd, modZ]
  all_goals simp (disch := omega) [shortOf_enc _ ht]

theorem frcp (x0 x1) : Statement (.frcp x0 x1) := by
  intro wf w e
  obtain rfl := Option.some.inj e
  have ht : x1.ty.short = true := by
    simp only [WellFormed, Instr.faults, fplainFaults, List.append_eq_nil_iff, need_nil, and_assoc] at wf
    exact wf.1
  refine decode_formA 10 5 rfl rfl rfl wf ?_
  simp (disch := omega) only [byGroup, decode5, pFPlain, modOf_formA, fD_formA, fA_formA, fB_formA, mod_formA,
    hdrOf_formA, encRnd_dyn, field_low, field_high, field_self, mbz_nil, mask_cat, List.append_eq_nil_iff, Parsed.mk.injEq,
    Bool.false_eq_true, reduceIte, Nat.reduceSub, pFPlain, modF, fShort, fZ, noRnd, modZ]
  all_goals simp (disch := omega) [shortOf_enc _ ht]

theorem frsq (x0 x1) : Statement (.frsq x0 x1) := by
  intro wf w e
  obtain rfl := Option.some.inj e
  have ht : x1.ty.short = true := by
    simp only [WellFormed, Instr.faults, fplainFaults, List.append_eq_nil_iff, need_nil, and_assoc] at wf
    exact wf.1
  refine decode_formA 11 5 rfl rfl rfl wf ?_
  simp (disch := omega) only [byGroup, decode5, pFPlain, modOf_formA, fD_formA, fA_formA, fB_formA, mod_formA,
    hdrOf_formA, encRnd_dyn, field_low, field_high, field_self, mbz_nil, mask_cat, List.append_eq_nil_iff, Parsed.mk.injEq,
    Bool.false_eq_true, reduceIte, Nat.reduceSub, pFPlain, modF, fShort, fZ, noRnd, modZ]
  all_goals simp (disch := omega) [shortOf_enc _ ht]

theorem fex2 (x0 x1) : Statement (.fex2 x0 x1) := by
  intro wf w e
  obtain rfl := Option.some.inj e
  have ht : x1.ty.short = true := by
    simp only [WellFormed, Instr.faults, fplainFaults, List.append_eq_nil_iff, need_nil, and_assoc] at wf
    exact wf.1
  refine decode_formA 12 5 rfl rfl rfl wf ?_
  simp (disch := omega) only [byGroup, decode5, pFPlain, modOf_formA, fD_formA, fA_formA, fB_formA, mod_formA,
    hdrOf_formA, encRnd_dyn, field_low, field_high, field_self, mbz_nil, mask_cat, List.append_eq_nil_iff, Parsed.mk.injEq,
    Bool.false_eq_true, reduceIte, Nat.reduceSub, pFPlain, modF, fShort, fZ, noRnd, modZ]
  all_goals simp (disch := omega) [shortOf_enc _ ht]

theorem flg2 (x0 x1) : Statement (.flg2 x0 x1) := by
  intro wf w e
  obtain rfl := Option.some.inj e
  have ht : x1.ty.short = true := by
    simp only [WellFormed, Instr.faults, fplainFaults, List.append_eq_nil_iff, need_nil, and_assoc] at wf
    exact wf.1
  refine decode_formA 13 5 rfl rfl rfl wf ?_
  simp (disch := omega) only [byGroup, decode5, pFPlain, modOf_formA, fD_formA, fA_formA, fB_formA, mod_formA,
    hdrOf_formA, encRnd_dyn, field_low, field_high, field_self, mbz_nil, mask_cat, List.append_eq_nil_iff, Parsed.mk.injEq,
    Bool.false_eq_true, reduceIte, Nat.reduceSub, pFPlain, modF, fShort, fZ, noRnd, modZ]
  all_goals simp (disch := omega) [shortOf_enc _ ht]

theorem fsin (x0 x1) : Statement (.fsin x0 x1) := by
  intro wf w e
  obtain rfl := Option.some.inj e
  have ht : x1.ty.short = true := by
    simp only [WellFormed, Instr.faults, fplainFaults, List.append_eq_nil_iff, need_nil, and_assoc] at wf
    exact wf.1
  refine decode_formA 14 5 rfl rfl rfl wf ?_
  simp (disch := omega) only [byGroup, decode5, pFPlain, modOf_formA, fD_formA, fA_formA, fB_formA, mod_formA,
    hdrOf_formA, encRnd_dyn, field_low, field_high, field_self, mbz_nil, mask_cat, List.append_eq_nil_iff, Parsed.mk.injEq,
    Bool.false_eq_true, reduceIte, Nat.reduceSub, pFPlain, modF, fShort, fZ, noRnd, modZ]
  all_goals simp (disch := omega) [shortOf_enc _ ht]

theorem fcos (x0 x1) : Statement (.fcos x0 x1) := by
  intro wf w e
  obtain rfl := Option.some.inj e
  have ht : x1.ty.short = true := by
    simp only [WellFormed, Instr.faults, fplainFaults, List.append_eq_nil_iff, need_nil, and_assoc] at wf
    exact wf.1
  refine decode_formA 15 5 rfl rfl rfl wf ?_
  simp (disch := omega) only [byGroup, decode5, pFPlain, modOf_formA, fD_formA, fA_formA, fB_formA, mod_formA,
    hdrOf_formA, encRnd_dyn, field_low, field_high, field_self, mbz_nil, mask_cat, List.append_eq_nil_iff, Parsed.mk.injEq,
    Bool.false_eq_true, reduceIte, Nat.reduceSub, pFPlain, modF, fShort, fZ, noRnd, modZ]
  all_goals simp (disch := omega) [shortOf_enc _ ht]

theorem cvt (x0 x1) : Statement (.cvt x0 x1) := by
  intro wf w e
  obtain rfl := Option.some.inj e
  refine decode_formA 0 6 rfl rfl rfl wf ?_
  simp (disch := omega) only [byGroup, decode6, mod6, fRnd6, fTo, fFrom, fD_formA, fA_formA, fB_formA, mod_formA,
    mBit_formA, hdrOf_formA, cvtTyOf_enc, field_low, field_high, field_self, bit_cat, bit_bit, List.append_eq_nil_iff,
    Parsed.mk.injEq, decide_true, decide_false, Bool.true_and, Bool.false_and, reduceIte, Nat.reduceLT, Nat.reduceSub,
    Nat.reduceEqDiff]
  all_goals simp

theorem cvtp (x0 x1) : Statement (.cvtp x0 x1) := by
  intro wf w e
  obtain rfl := Option.some.inj e
  refine decode_formA 1 6 rfl rfl rfl wf ?_
  simp (disch := omega) only [byGroup, decode6, mod6, fRnd6, fTo, fFrom, modZ, modOf_formA, fD_formA, fA_formA, fB_formA,
    mod_formA, mBit_formA, hdrOf_formA, field_low, field_high, field_self, bit_cat, bit_bit, mbz_nil, mask_cat,
    List.append_eq_nil_iff, Parsed.mk.injEq, decide_true, Bool.true_and, reduceIte, Nat.reduceLT, Nat.reduceSub]
  all_goals simp (disch := omega) [bit]

theorem cvtn (x0 x1) : Statement (.cvtn x0 x1) := by
  intro wf w e
  obtain ⟨dst, src, rnd, sat, d, a⟩ := x1
  cases dst with
  | none =>
    obtain rfl := Option.some.inj e
    refine decode_formA 2 6 rfl rfl rfl wf ?_
    simp (disch := omega) only [byGroup, decode6, modOf_formA, fD_formA, fA_formA, fB_formA, mod_formA, mBit_formA,
      hdrOf_formA, field_low, field_high, field_self, bit_cat, bit_bit, decide_true, decide_false, Bool.true_and,
      Bool.false_and, reduceIte, Nat.reduceLT, Nat.reduceSub, Nat.reduceEqDiff, mod6, fRnd6, fTo, fFrom, modZ]
    all_goals simp (disch := omega) [bit, mbz_nil, mask_lit]
  | some t =>
    obtain rfl := Option.some.inj e
    refine decode_formA 2 6 rfl rfl rfl wf ?_
    simp (disch := omega) only [byGroup, decode6, modOf_formA, fD_formA, fA_formA, fB_formA, mod_formA, mBit_formA,
      hdrOf_formA, field_low, field_high, field_self, bit_cat, bit_bit, decide_true, decide_false, Bool.true_and,
      Bool.false_and, reduceIte, Nat.reduceLT, Nat.reduceSub, Nat.reduceEqDiff, mod6, fRnd6, fTo, fFrom, modZ]
    all_goals simp (disch := omega) [bit, mbz_nil, mask_lit]

theorem unpk (x0 x1) : Statement (.unpk x0 x1) := by
  intro wf w e
  obtain ⟨src, d, a⟩ := x1
  cases src with
  | elt t =>
    obtain rfl := Option.some.inj e
    refine decode_formA 3 6 rfl rfl rfl wf ?_
    simp (disch := omega) only [byGroup, decode6, modOf_formA, fD_formA, fA_formA, fB_formA, mod_formA, mBit_formA,
      hdrOf_formA, encRnd_dyn, field_low, field_high, field_self, bit_cat, bit_bit, decide_false, Bool.false_and, reduceIte,
      Nat.reduceLT, Nat.reduceSub, Nat.reduceEqDiff, mod6, fFrom, modZ]
    all_goals simp (disch := omega) [bit, mbz_nil, mask_lit]
  | fmtA =>
    obtain rfl := Option.some.inj e
    refine decode_formA 3 6 rfl rfl rfl wf ?_
    simp (disch := omega) only [byGroup, decode6, modOf_formA, fD_formA, fA_formA, fB_formA, mod_formA, mBit_formA,
      hdrOf_formA, encRnd_dyn, field_low, field_high, field_self, bit_cat, bit_bit, decide_false, Bool.false_and, reduceIte,
      Nat.reduceLT, Nat.reduceSub, Nat.reduceEqDiff, mod6, fFrom, modZ]
    all_goals simp (disch := omega) [bit]
  | fmtB =>
    obtain rfl := Option.some.inj e
    refine decode_formA 3 6 rfl rfl rfl wf ?_
    simp (disch := omega) only [byGroup, decode6, modOf_formA, fD_formA, fA_formA, fB_formA, mod_formA, mBit_formA,
      hdrOf_formA, encRnd_dyn, field_low, field_high, field_self, bit_cat, bit_bit, decide_false, Bool.false_and, reduceIte,
      Nat.reduceLT, Nat.reduceSub, Nat.reduceEqDiff, mod6, fFrom, modZ]
    all_goals simp (disch := omega) [bit]

theorem dp2 (x0 x1) : Statement (.dp2 x0 x1) := by
  intro wf w e
  obtain rfl := Option.some.inj e
  refine decode_formA 4 6 rfl rfl rfl wf ?_
  simp (disch := omega) only [byGroup, decode6, pDp, fRnd, fC, modZ, modOf_formA, fD_formA, fA_formA, fB_formA, mod_formA,
    hdrOf_formA, field_low, field_high, field_self, mbz_nil, mask_cat, List.append_eq_nil_iff, Parsed.mk.injEq,
    Nat.reduceSub]
  all_goals simp

theorem dp4 (x0 x1) : Statement (.dp4 x0 x1) := by
  intro wf w e
  obtain rfl := Option.some.inj e
  refine decode_formA 5 6 rfl rfl rfl wf ?_
  simp (disch := omega) only [byGroup, decode6, pDp, fRnd, fC, modZ, modOf_formA, fD_formA, fA_formA, fB_formA, mod_formA,
    hdrOf_formA, field_low, field_high, field_self, mbz_nil, mask_cat, List.append_eq_nil_iff, Parsed.mk.injEq,
    Nat.reduceSub]
  all_goals simp

theorem dp8 (x0 x1) : Statement (.dp8 x0 x1) := by
  intro wf w e
  obtain rfl := Option.some.inj e
  refine decode_formA 6 6 rfl rfl rfl wf ?_
  simp (disch := omega) only [byGroup, decode6, pDp, fRnd, fC, modZ, modOf_formA, fD_formA, fA_formA, fB_formA, mod_formA,
    hdrOf_formA, field_low, field_high, field_self, mbz_nil, mask_cat, List.append_eq_nil_iff, Parsed.mk.injEq,
    Nat.reduceSub]
  all_goals simp

theorem fmtset (x0 x1) : Statement (.fmtset x0 x1) := by
  intro wf w e
  obtain rfl := Option.some.inj e
  refine decode_formA 7 6 rfl rfl rfl wf ?_
  simp (disch := omega) only [byGroup, decode6, fTo, fFrom, modZ, modOf_formA, fD_formA, fA_formA, fB_formA, mod_formA,
    mBit_formA, hdrOf_formA, field_low, field_high, field_self, bit_cat, bit_bit, mbz_nil, mask_cat, List.append_eq_nil_iff,
    Parsed.mk.injEq, decide_true, decide_false, Bool.true_and, Bool.false_and, reduceIte, Nat.reduceLT, Nat.reduceSub,
    Nat.reduceEqDiff]
  all_goals simp (disch := omega) [bit]

theorem fmtget (x0 x1) : Statement (.fmtget x0 x1) := by
  intro wf w e
  obtain rfl := Option.some.inj e
  refine decode_formA 8 6 rfl rfl rfl wf ?_
  simp (disch := omega) only [byGroup, decode6, modZ, modOf_formA, fD_formA, fA_formA, fB_formA, hdrOf_formA, mbz_nil,
    List.append_eq_nil_iff, Parsed.mk.injEq]
  all_goals simp

theorem rngset (x0 x1) : Statement (.rngset x0 x1) := by
  intro wf w e
  obtain rfl := Option.some.inj e
  refine decode_formA 9 6 rfl rfl rfl wf ?_
  simp (disch := omega) only [byGroup, decode6, modZ, modOf_formA, fD_formA, fA_formA, fB_formA, hdrOf_formA, mbz_nil,
    List.append_eq_nil_iff, Parsed.mk.injEq]
  all_goals simp

theorem rng (x0 x1) : Statement (.rng x0 x1) := by
  intro wf w e
  obtain rfl := Option.some.inj e
  refine decode_formA 10 6 rfl rfl rfl wf ?_
  simp (disch := omega) only [byGroup, decode6, modZ, modOf_formA, fD_formA, fA_formA, fB_formA, hdrOf_formA, mbz_nil,
    List.append_eq_nil_iff, Parsed.mk.injEq]
  all_goals simp

theorem xset (x0 x1 x2 x3) : Statement (.xset x0 x1 x2 x3) := by
  intro wf w e
  obtain rfl := Option.some.inj e
  refine decode_formA 0 7 rfl rfl rfl wf ?_
  simp (disch := omega) only [byGroup, decode7, modZ, modOf_formA, fD_formA, fA_formA, fB_formA, mod_formA, mBit_formA,
    hdrOf_formA, field_high, field_self, bit_cat, bit_bit, mbz_nil, mask_cat, List.append_eq_nil_iff, Parsed.mk.injEq,
    decide_true, Bool.true_and, reduceIte, Nat.reduceLT, Nat.reduceSub]
  all_goals simp (disch := omega) [bit]

theorem xidx (x0 x1 x2) : Statement (.xidx x0 x1 x2) := by
  intro wf w e
  obtain rfl := Option.some.inj e
  refine decode_formA 1 7 rfl rfl rfl wf ?_
  simp (disch := omega) only [byGroup, decode7, modZ, modOf_formA, fD_formA, fA_formA, fB_formA, mod_formA, hdrOf_formA,
    field_high, field_self, mbz_nil, mask_cat, List.append_eq_nil_iff, Parsed.mk.injEq, Nat.reduceSub]
  all_goals simp

theorem xrd (x0 x1 x2 x3) : Statement (.xrd x0 x1 x2 x3) := by
  intro wf w e
  obtain rfl := Option.some.inj e
  refine decode_formA 2 7 rfl rfl rfl wf ?_
  simp (disch := omega) only [byGroup, decode7, modZ, modOf_formA, fD_formA, fA_formA, fB_formA, mod_formA, mBit_formA,
    hdrOf_formA, field_high, field_self, bit_cat, bit_bit, mbz_nil, mask_cat, List.append_eq_nil_iff, Parsed.mk.injEq,
    decide_true, Bool.true_and, reduceIte, Nat.reduceLT, Nat.reduceSub]
  all_goals simp (disch := omega) [bit]

theorem xadd (x0 x1 x2) : Statement (.xadd x0 x1 x2) := by
  intro wf w e
  obtain rfl := Option.some.inj e
  refine decode_formA 3 7 rfl rfl rfl wf ?_
  simp (disch := omega) only [byGroup, decode7, modZ, modOf_formA, fD_formA, fA_formA, fB_formA, mod_formA, hdrOf_formA,
    field_high, field_self, mbz_nil, mask_cat, List.append_eq_nil_iff, Parsed.mk.injEq, Nat.reduceSub]
  all_goals simp

theorem xclr (x0 x1) : Statement (.xclr x0 x1) := by
  intro wf w e
  obtain rfl := Option.some.inj e
  refine decode_formA 4 7 rfl rfl rfl wf ?_
  simp (disch := omega) only [byGroup, decode7, modZ, modOf_formA, fD_formA, fA_formA, fB_formA, mod_formA, hdrOf_formA,
    field_high, field_self, mbz_nil, mask_cat, List.append_eq_nil_iff, Parsed.mk.injEq, Nat.reduceSub]
  all_goals simp

theorem lpick (x0 x1) : Statement (.lpick x0 x1) := by
  intro wf w e
  obtain ⟨c, w64, d, a, b⟩ := x1
  cases c with
  | none =>
    obtain rfl := Option.some.inj e
    refine decode_formA 0 8 rfl rfl rfl wf ?_
    simp (disch := omega) only [byGroup, decode8, modOf_formA, fD_formA, fA_formA, fB_formA, mod_formA, mBit_formA,
      hdrOf_formA, field_high, bit_cat, bit_bit, decide_true, decide_false, Bool.true_and, Bool.false_and, reduceIte,
      Nat.reduceLT, Nat.reduceSub, Nat.reduceEqDiff, modZ, fC]
    all_goals simp (disch := omega) [bit, mbz_nil, mask_lit]
  | some t =>
    obtain rfl := Option.some.inj e
    refine decode_formA 0 8 rfl rfl rfl wf ?_
    simp (disch := omega) only [byGroup, decode8, modOf_formA, fD_formA, fA_formA, fB_formA, mod_formA, mBit_formA,
      hdrOf_formA, field_high, field_self, bit_cat, bit_bit, decide_true, decide_false, Bool.true_and, Bool.false_and,
      reduceIte, Nat.reduceLT, Nat.reduceSub, Nat.reduceEqDiff, modZ, fC]
    all_goals simp (disch := omega) [bit, mbz_nil, mask_lit]

theorem poll (x0 x1 x2) : Statement (.poll x0 x1 x2) := by
  intro wf w e
  cases x1 with
  | pred m p =>
    obtain rfl := Option.some.inj e
    cases m <;>
    (refine decode_formA 1 8 rfl rfl rfl wf ?_
     simp (disch := omega) only [byGroup, decode8, encPoll, modOf_formA, fD_formA, fA_formA, fB_formA, mod_formA,
       hdrOf_formA, field_low, field_self, reduceIte, Nat.reduceSub, modZ]
     all_goals simp)
  | mask d =>
    obtain rfl := Option.some.inj e
    refine decode_formA 1 8 rfl rfl rfl wf ?_
    simp (disch := omega) only [byGroup, decode8, modOf_formA, fD_formA, fA_formA, fB_formA, mod_formA, hdrOf_formA,
      Nat.reduceSub, modZ]
    all_goals simp

theorem rdlane (x0 x1) : Statement (.rdlane x0 x1) := by
  intro wf w e
  obtain rfl := Option.some.inj e
  refine decode_formA 2 8 rfl rfl rfl wf ?_
  simp (disch := omega) only [byGroup, decode8, modZ, modOf_formA, fD_formA, fA_formA, fB_formA, mBit_formA, hdrOf_formA,
    bit_cat, bit_bit, mbz_nil, mask_cat, List.append_eq_nil_iff, Parsed.mk.injEq, decide_true, Bool.true_and, reduceIte,
    Nat.reduceLT, Nat.reduceSub]
  all_goals simp (disch := omega) [bit]

theorem wrlane (x0 x1) : Statement (.wrlane x0 x1) := by
  intro wf w e
  obtain rfl := Option.some.inj e
  have hs : srcOfBits true (encSrc x1.a) = ⟨x1.a, []⟩ := by
    simp only [WellFormed, Instr.faults, List.append_eq_nil_iff] at wf
    exact srcOfPlain_enc _ wf.1.2
  refine decode_formA 3 8 rfl rfl rfl wf ?_
  simp (disch := omega) only [byGroup, decode8, modOf_formA, fD_formA, fA_formA, fB_formA, mBit_formA, hdrOf_formA,
    bit_cat, bit_bit, mbz_nil, mask_cat, List.append_eq_nil_iff, Parsed.mk.injEq, decide_true, Bool.true_and, reduceIte,
    Nat.reduceLT, Nat.reduceSub, modZ]
  simp [bit, hs]

theorem matchI (x0 x1) : Statement (.matchI x0 x1) := by
  intro wf w e
  obtain rfl := Option.some.inj e
  refine decode_formA 4 8 rfl rfl rfl wf ?_
  simp (disch := omega) only [byGroup, decode8, modZ, modOf_formA, fD_formA, fA_formA, fB_formA, mBit_formA, hdrOf_formA,
    bit_cat, bit_bit, mbz_nil, mask_cat, List.append_eq_nil_iff, Parsed.mk.injEq, decide_true, decide_false, Bool.true_and,
    Bool.false_and, reduceIte, Nat.reduceLT, Nat.reduceSub, Nat.reduceEqDiff]
  all_goals simp (disch := omega) [bit]

theorem redux (x0 x1) : Statement (.redux x0 x1) := by
  intro wf w e
  obtain rfl := Option.some.inj e
  refine decode_formA 5 8 rfl rfl rfl wf ?_
  simp (disch := omega) only [byGroup, decode8, modZ, fTy, modOf_formA, fD_formA, fA_formA, fB_formA, mod_formA,
    mBit_formA, hdrOf_formA, field_low, field_high, field_self, bit_cat, bit_bit, mbz_nil, mask_cat, List.append_eq_nil_iff,
    Parsed.mk.injEq, decide_true, Bool.true_and, reduceIte, Nat.reduceLT, Nat.reduceSub]
  all_goals simp (disch := omega) [bit]

theorem scan (x0 x1) : Statement (.scan x0 x1) := by
  intro wf w e
  obtain rfl := Option.some.inj e
  refine decode_formA 6 8 rfl rfl rfl wf ?_
  simp (disch := omega) only [byGroup, decode8, modZ, fTy, modOf_formA, fD_formA, fA_formA, fB_formA, mod_formA,
    mBit_formA, hdrOf_formA, field_low, field_high, field_self, bit_cat, bit_bit, mbz_nil, mask_cat, List.append_eq_nil_iff,
    Parsed.mk.injEq, decide_true, Bool.true_and, reduceIte, Nat.reduceLT, Nat.reduceSub]
  all_goals simp (disch := omega) [bit]

theorem maxidx (x0 x1) : Statement (.maxidx x0 x1) := by
  intro wf w e
  obtain rfl := Option.some.inj e
  refine decode_formA 7 8 rfl rfl rfl wf ?_
  simp (disch := omega) only [byGroup, decode8, modZ, modOf_formA, fD_formA, fA_formA, fB_formA, mod_formA, hdrOf_formA,
    field_low, field_high, field_self, mbz_nil, mask_cat, List.append_eq_nil_iff, Parsed.mk.injEq, Nat.reduceSub]
  all_goals simp

theorem elect (x0 x1) : Statement (.elect x0 x1) := by
  intro wf w e
  obtain rfl := Option.some.inj e
  refine decode_formA 8 8 rfl rfl rfl wf ?_
  simp (disch := omega) only [byGroup, decode8, modZ, modOf_formA, fD_formA, fA_formA, fB_formA, hdrOf_formA, mbz_nil,
    List.append_eq_nil_iff, Parsed.mk.injEq]
  all_goals simp

theorem ld (x0 x1) : Statement (.ld x0 x1) := by
  intro wf w e
  obtain rfl := Option.some.inj e
  refine decode_formA 0 9 rfl rfl rfl wf ?_
  simp (disch := omega) only [byGroup, decode9, pLd, memOf, encMem, fD_formA, fA_formA, fB_formA, mod_formA, hdrOf_formA,
    field_low, field_high, field_self, List.append_eq_nil_iff, Parsed.mk.injEq, Nat.reduceSub]
  all_goals simp

theorem st (x0 x1) : Statement (.st x0 x1) := by
  intro wf w e
  obtain rfl := Option.some.inj e
  refine decode_formA 1 9 rfl rfl rfl wf ?_
  simp (disch := omega) only [byGroup, decode9, pSt, memOf, encMem, fD_formA, fA_formA, fB_formA, mod_formA, hdrOf_formA,
    field_low, field_high, field_self, List.append_eq_nil_iff, Parsed.mk.injEq, Nat.reduceSub]
  all_goals simp

theorem lds (x0 x1) : Statement (.lds x0 x1) := by
  intro wf w e
  obtain rfl := Option.some.inj e
  refine decode_formA 2 9 rfl rfl rfl wf ?_
  simp (disch := omega) only [byGroup, decode9, pLd, memOf, encMem, fD_formA, fA_formA, fB_formA, mod_formA, hdrOf_formA,
    field_low, field_high, field_self, List.append_eq_nil_iff, Parsed.mk.injEq, Nat.reduceSub]
  all_goals simp

theorem sts (x0 x1) : Statement (.sts x0 x1) := by
  intro wf w e
  obtain rfl := Option.some.inj e
  refine decode_formA 3 9 rfl rfl rfl wf ?_
  simp (disch := omega) only [byGroup, decode9, pSt, memOf, encMem, fD_formA, fA_formA, fB_formA, mod_formA, hdrOf_formA,
    field_low, field_high, field_self, List.append_eq_nil_iff, Parsed.mk.injEq, Nat.reduceSub]
  all_goals simp

theorem ldt (x0 x1) : Statement (.ldt x0 x1) := by
  intro wf w e
  obtain rfl := Option.some.inj e
  refine decode_formA 4 9 rfl rfl rfl wf ?_
  simp (disch := omega) only [byGroup, decode9, pLd, memOf, encMem, fD_formA, fA_formA, fB_formA, mod_formA, hdrOf_formA,
    field_low, field_high, field_self, List.append_eq_nil_iff, Parsed.mk.injEq, Nat.reduceSub]
  all_goals simp

theorem stt (x0 x1) : Statement (.stt x0 x1) := by
  intro wf w e
  obtain rfl := Option.some.inj e
  refine decode_formA 5 9 rfl rfl rfl wf ?_
  simp (disch := omega) only [byGroup, decode9, pSt, memOf, encMem, fD_formA, fA_formA, fB_formA, mod_formA, hdrOf_formA,
    field_low, field_high, field_self, List.append_eq_nil_iff, Parsed.mk.injEq, Nat.reduceSub]
  all_goals simp

theorem ldu (x0 x1) : Statement (.ldu x0 x1) := by
  intro wf w e
  obtain rfl := Option.some.inj e
  refine decode_formA 6 9 rfl rfl rfl wf ?_
  simp (disch := omega) only [byGroup, decode9, pLd, memOf, encMem, fD_formA, fA_formA, fB_formA, mod_formA, hdrOf_formA,
    field_low, field_high, field_self, List.append_eq_nil_iff, Parsed.mk.injEq, Nat.reduceSub]
  all_goals simp

theorem pref (x0 x1) : Statement (.pref x0 x1) := by
  intro wf w e
  obtain rfl := Option.some.inj e
  refine decode_formA 7 9 rfl rfl rfl wf ?_
  simp (disch := omega) only [byGroup, decode9, memOf, encMem, fD_formA, fA_formA, fB_formA, mod_formA, hdrOf_formA,
    field_low, field_high, field_self, List.append_eq_nil_iff, Parsed.mk.injEq, Nat.reduceSub]
  all_goals simp

theorem atom (x0 x1) : Statement (.atom x0 x1) := by
  intro wf w e
  obtain rfl := Option.some.inj e
  have hs : atomOffOf x1.m.space (encAtomOff x1.off) = ⟨x1.off, []⟩ := by
    simp only [WellFormed, Instr.faults, atomFaults, List.append_eq_nil_iff] at wf
    exact atomOffOf_enc _ _ wf.2
  refine decode_formA 0 10 rfl rfl rfl wf ?_
  simp (disch := omega) only [byGroup, decodeA, pAtom, fD_formA, fA_formA, fB_formA, mod_formA, hdrOf_formA, immB_enc,
    field_low, field_high, field_self, List.append_eq_nil_iff, Parsed.mk.injEq, Nat.reduceSub, pAtom, memOf, encMem]
  all_goals simp
  all_goals simp [hs, atomOpOf_enc]

theorem atoms (x0 x1) : Statement (.atoms x0 x1) := by
  intro wf w e
  obtain rfl := Option.some.inj e
  have hs : atomOffOf x1.m.space (encAtomOff x1.off) = ⟨x1.off, []⟩ := by
    simp only [WellFormed, Instr.faults, atomFaults, List.append_eq_nil_iff] at wf
    exact atomOffOf_enc _ _ wf.2
  refine decode_formA 1 10 rfl rfl rfl wf ?_
  simp (disch := omega) only [byGroup, decodeA, pAtom, fD_formA, fA_formA, fB_formA, mod_formA, hdrOf_formA, immB_enc,
    field_low, field_high, field_self, List.append_eq_nil_iff, Parsed.mk.injEq, Nat.reduceSub, pAtom, memOf, encMem]
  all_goals simp
  all_goals simp [hs, atomOpOf_enc]

theorem cas (x0 x1) : Statement (.cas x0 x1) := by
  intro wf w e
  obtain rfl := Option.some.inj e
  have hs : atomOffOf x1.m.space (encAtomOff x1.off) = ⟨x1.off, []⟩ := by
    simp only [WellFormed, Instr.faults, casFaults, List.append_eq_nil_iff] at wf
    exact atomOffOf_enc _ _ wf.2
  refine decode_formA 2 10 rfl rfl rfl wf ?_
  simp (disch := omega) only [byGroup, decodeA, pCas, fD_formA, fA_formA, fB_formA, mod_formA, hdrOf_formA, immB_enc,
    field_low, field_high, field_self, mbz_nil, List.append_eq_nil_iff, Parsed.mk.injEq, Nat.reduceSub, pCas, memOf, encMem]
  all_goals simp
  all_goals simp [hs]

theorem cass (x0 x1) : Statement (.cass x0 x1) := by
  intro wf w e
  obtain rfl := Option.some.inj e
  have hs : atomOffOf x1.m.space (encAtomOff x1.off) = ⟨x1.off, []⟩ := by
    simp only [WellFormed, Instr.faults, casFaults, List.append_eq_nil_iff] at wf
    exact atomOffOf_enc _ _ wf.2
  refine decode_formA 3 10 rfl rfl rfl wf ?_
  simp (disch := omega) only [byGroup, decodeA, pCas, fD_formA, fA_formA, fB_formA, mod_formA, hdrOf_formA, immB_enc,
    field_low, field_high, field_self, mbz_nil, List.append_eq_nil_iff, Parsed.mk.injEq, Nat.reduceSub, pCas, memOf, encMem]
  all_goals simp
  all_goals simp [hs]

theorem red (x0 x1) : Statement (.red x0 x1) := by
  intro wf w e
  obtain rfl := Option.some.inj e
  have hs : atomOffOf x1.m.space (encAtomOff x1.off) = ⟨x1.off, []⟩ := by
    simp only [WellFormed, Instr.faults, redFaults, List.append_eq_nil_iff] at wf
    exact atomOffOf_enc _ _ wf.2
  refine decode_formA 4 10 rfl rfl rfl wf ?_
  simp (disch := omega) only [byGroup, decodeA, fD_formA, fA_formA, fB_formA, mod_formA, hdrOf_formA, immB_enc, field_low,
    field_high, field_self, List.append_eq_nil_iff, Parsed.mk.injEq, Nat.reduceSub, memOf, encMem]
  all_goals simp
  all_goals simp [hs, atomOpOf_enc]

theorem fence (x0 x1) : Statement (.fence x0 x1) := by
  intro wf w e
  obtain ⟨scope, order, hnd⟩ := x1
  cases hnd with
  | none =>
    obtain rfl := Option.some.inj e
    refine decode_formA 5 10 rfl rfl rfl wf ?_
    simp (disch := omega) only [byGroup, decodeA, modOf_formA, fD_formA, fA_formA, fB_formA, mod_formA, hdrOf_formA,
      field_low, field_high, field_self, Nat.reduceSub, modZ]
    all_goals simp (disch := omega) [mbz_nil, mask_lit]
  | some t =>
    obtain rfl := Option.some.inj e
    refine decode_formA 5 10 rfl rfl rfl wf ?_
    simp (disch := omega) only [byGroup, decodeA, modOf_formA, fD_formA, fA_formA, fB_formA, mod_formA, hdrOf_formA,
      field_low, field_high, field_self, Nat.reduceSub, modZ]
    all_goals simp (disch := omega) [mbz_nil, mask_lit]

theorem cctl (x0 x1) : Statement (.cctl x0 x1) := by
  intro wf w e
  obtain ⟨scope, op, a⟩ := x1
  cases a with
  | none =>
    obtain rfl := Option.some.inj e
    cases op <;>
    (refine decode_formA 6 10 rfl rfl rfl wf ?_
     simp (disch := omega) only [byGroup, decodeA, encCctl, modOf_formA, fD_formA, fA_formA, fB_formA, mod_formA,
       mBit_formA, hdrOf_formA, field_low, field_high, field_self, bit_cat, reduceIte, Nat.reduceLT, Nat.reduceSub, modZ]
     all_goals simp (disch := omega) [mbz_nil, mask_lit])
  | some t =>
    obtain rfl := Option.some.inj e
    cases op <;>
    (refine decode_formA 6 10 rfl rfl rfl wf ?_
     simp (disch := omega) only [byGroup, decodeA, encCctl, modOf_formA, fD_formA, fA_formA, fB_formA, mod_formA,
       mBit_formA, hdrOf_formA, field_low, field_high, field_self, bit_cat, reduceIte, Nat.reduceLT, Nat.reduceSub, modZ]
     all_goals simp (disch := omega) [mbz_nil, mask_lit])

theorem otsync (x0 x1) : Statement (.otsync x0 x1) := by
  intro wf w e
  obtain rfl := Option.some.inj e
  refine decode_formA 7 10 rfl rfl rfl wf ?_
  simp (disch := omega) only [byGroup, decodeA, modZ, modOf_formA, fD_formA, fA_formA, fB_formA, mod_formA, hdrOf_formA,
    field_high, field_self, mbz_nil, mask_cat, List.append_eq_nil_iff, Parsed.mk.injEq, Nat.reduceSub]
  all_goals simp

theorem copy (x0 x1) : Statement (.copy x0 x1) := by
  intro wf w e
  obtain rfl := Option.some.inj e
  refine decode_formA 0 11 rfl rfl rfl wf ?_
  simp (disch := omega) only [byGroup, decodeB, modZ, modOf_formA, fD_formA, fA_formA, fB_formA, mBit_formA, hdrOf_formA,
    bit_cat, bit_bit, mbz_nil, mask_cat, List.append_eq_nil_iff, Parsed.mk.injEq, decide_true, Bool.true_and, reduceIte,
    Nat.reduceLT, Nat.reduceSub]
  all_goals simp (disch := omega) [bit]

theorem copyo (x0 x1) : Statement (.copyo x0 x1) := by
  intro wf w e
  obtain rfl := Option.some.inj e
  refine decode_formA 1 11 rfl rfl rfl wf ?_
  simp (disch := omega) only [byGroup, decodeB, modZ, modOf_formA, fD_formA, fA_formA, fB_formA, mBit_formA, hdrOf_formA,
    bit_cat, bit_bit, mbz_nil, mask_cat, List.append_eq_nil_iff, Parsed.mk.injEq, decide_true, Bool.true_and, reduceIte,
    Nat.reduceLT, Nat.reduceSub]
  all_goals simp (disch := omega) [bit]

theorem bclose (x0 x1 x2) : Statement (.bclose x0 x1 x2) := by
  intro wf w e
  obtain rfl := Option.some.inj e
  refine decode_formA 2 11 rfl rfl rfl wf ?_
  simp (disch := omega) only [byGroup, decodeB, modZ, modOf_formA, fD_formA, fA_formA, fB_formA, mBit_formA, hdrOf_formA,
    bit_cat, bit_bit, mbz_nil, mask_cat, List.append_eq_nil_iff, Parsed.mk.injEq, decide_true, Bool.true_and, reduceIte,
    Nat.reduceLT, Nat.reduceSub]
  all_goals simp (disch := omega) [bit]

theorem bwait (x0 x1 x2) : Statement (.bwait x0 x1 x2) := by
  intro wf w e
  obtain rfl := Option.some.inj e
  refine decode_formA 3 11 rfl rfl rfl wf ?_
  simp (disch := omega) only [byGroup, decodeB, modZ, modOf_formA, fD_formA, fA_formA, fB_formA, mBit_formA, hdrOf_formA,
    bit_cat, bit_bit, mbz_nil, mask_cat, List.append_eq_nil_iff, Parsed.mk.injEq, decide_true, Bool.true_and, reduceIte,
    Nat.reduceLT, Nat.reduceSub]
  all_goals simp (disch := omega) [bit]

theorem btest (x0 x1 x2 x3) : Statement (.btest x0 x1 x2 x3) := by
  intro wf w e
  obtain rfl := Option.some.inj e
  refine decode_formA 4 11 rfl rfl rfl wf ?_
  simp (disch := omega) only [byGroup, decodeB, modZ, modOf_formA, fD_formA, fA_formA, fB_formA, mBit_formA, hdrOf_formA,
    bit_cat, bit_bit, mbz_nil, mask_cat, List.append_eq_nil_iff, Parsed.mk.injEq, decide_true, Bool.true_and, reduceIte,
    Nat.reduceLT, Nat.reduceSub]
  all_goals simp (disch := omega) [bit]

theorem mld (x0 x1) : Statement (.mld x0 x1) := by
  intro wf w e
  obtain rfl := Option.some.inj e
  refine decode_formA 5 11 rfl rfl rfl wf ?_
  simp (disch := omega) only [byGroup, decodeB, majOf, modMaj, bMaj, fD_formA, fA_formA, fB_formA, mod_formA, hdrOf_formA,
    immB_enc, field_low, field_high, field_self, bit_cat, bit_bit, mbz_nil, List.append_eq_nil_iff, Parsed.mk.injEq,
    decide_true, Bool.true_and, reduceIte, Nat.reduceLT, Nat.reduceSub]
  all_goals simp

theorem mst (x0 x1) : Statement (.mst x0 x1) := by
  intro wf w e
  obtain rfl := Option.some.inj e
  refine decode_formA 6 11 rfl rfl rfl wf ?_
  simp (disch := omega) only [byGroup, decodeB, majOf, modMaj, bMaj, fD_formA, fA_formA, fB_formA, mod_formA, hdrOf_formA,
    immB_enc, field_low, field_high, field_self, bit_cat, bit_bit, mbz_nil, List.append_eq_nil_iff, Parsed.mk.injEq,
    decide_true, Bool.true_and, reduceIte, Nat.reduceLT, Nat.reduceSub]
  all_goals simp

theorem tcfg (x0 x1 x2) : Statement (.tcfg x0 x1 x2) := by
  intro wf w e
  obtain rfl := Option.some.inj e
  refine decode_formA 0 12 rfl rfl rfl wf ?_
  simp (disch := omega) only [byGroup, decodeC, mod4, modZ, modOf_formA, fD_formA, fA_formA, fB_formA, mod_formA,
    hdrOf_formA, field_high, field_self, mbz_nil, mask_cat, List.append_eq_nil_iff, Parsed.mk.injEq, Nat.reduceSub]
  all_goals simp

theorem tld (x0 x1 x2) : Statement (.tld x0 x1 x2) := by
  intro wf w e
  obtain rfl := Option.some.inj e
  refine decode_formA 1 12 rfl rfl rfl wf ?_
  simp (disch := omega) only [byGroup, decodeC, pTile, mod4, modZ, modOf_formA, fD_formA, fA_formA, fB_formA, mod_formA,
    hdrOf_formA, field_high, field_self, mbz_nil, mask_cat, List.append_eq_nil_iff, Parsed.mk.injEq, Nat.reduceSub]
  all_goals simp

theorem tst (x0 x1 x2) : Statement (.tst x0 x1 x2) := by
  intro wf w e
  obtain rfl := Option.some.inj e
  refine decode_formA 2 12 rfl rfl rfl wf ?_
  simp (disch := omega) only [byGroup, decodeC, pTile, mod4, modZ, modOf_formA, fD_formA, fA_formA, fB_formA, mod_formA,
    hdrOf_formA, field_high, field_self, mbz_nil, mask_cat, List.append_eq_nil_iff, Parsed.mk.injEq, Nat.reduceSub]
  all_goals simp

theorem tzero (x0 x1) : Statement (.tzero x0 x1) := by
  intro wf w e
  obtain rfl := Option.some.inj e
  refine decode_formA 3 12 rfl rfl rfl wf ?_
  simp (disch := omega) only [byGroup, decodeC, mod4, modZ, modOf_formA, fD_formA, fA_formA, fB_formA, mod_formA,
    hdrOf_formA, field_high, field_self, mbz_nil, mask_cat, List.append_eq_nil_iff, Parsed.mk.injEq, Nat.reduceSub]
  all_goals simp

theorem mma (x0 x1) : Statement (.mma x0 x1) := by
  intro wf w e
  obtain rfl := Option.some.inj e
  refine decode_formA 4 12 rfl rfl rfl wf ?_
  simp (disch := omega) only [byGroup, decodeC, modZ, modOf_formA, fD_formA, fA_formA, fB_formA, mod_formA, hdrOf_formA,
    field_low, field_high, field_self, mbz_nil, mask_cat, List.append_eq_nil_iff, Parsed.mk.injEq, Nat.reduceSub]
  all_goals simp

theorem mmab (x0 x1) : Statement (.mmab x0 x1) := by
  intro wf w e
  obtain rfl := Option.some.inj e
  refine decode_formA 5 12 rfl rfl rfl wf ?_
  simp (disch := omega) only [byGroup, decodeC, modZ, modOf_formA, fD_formA, fA_formA, fB_formA, mod_formA, hdrOf_formA,
    field_low, field_high, field_self, mbz_nil, mask_cat, List.append_eq_nil_iff, Parsed.mk.injEq, Nat.reduceSub]
  all_goals simp

theorem acz (x0 x1) : Statement (.acz x0 x1) := by
  intro wf w e
  obtain rfl := Option.some.inj e
  refine decode_formA 6 12 rfl rfl rfl wf ?_
  simp (disch := omega) only [byGroup, decodeC, modZ, modOf_formA, fD_formA, fA_formA, fB_formA, mod_formA, hdrOf_formA,
    field_high, field_self, mbz_nil, mask_cat, List.append_eq_nil_iff, Parsed.mk.injEq, Nat.reduceSub]
  all_goals simp

theorem acld (x0 x1) : Statement (.acld x0 x1) := by
  intro wf w e
  obtain rfl := Option.some.inj e
  refine decode_formA 7 12 rfl rfl rfl wf ?_
  simp (disch := omega) only [byGroup, decodeC, modZ, modOf_formA, fD_formA, fA_formA, fB_formA, mod_formA, hdrOf_formA,
    field_low, field_high, field_self, mbz_nil, mask_cat, List.append_eq_nil_iff, Parsed.mk.injEq, Nat.reduceSub]
  all_goals simp

theorem acst (x0 x1) : Statement (.acst x0 x1) := by
  intro wf w e
  obtain ⟨ac, ty, add, tgt, b⟩ := x1
  cases tgt with
  | scratch l =>
    obtain rfl := Option.some.inj e
    refine decode_formA 8 12 rfl rfl rfl wf ?_
    simp (disch := omega) only [byGroup, decodeC, modOf_formA, fD_formA, fA_formA, fB_formA, mod_formA, mBit_formA,
      hdrOf_formA, field_low, field_high, field_self, bit_cat, bit_bit, decide_true, Bool.true_and, reduceIte, Nat.reduceLT,
      Nat.reduceSub, modZ]
    all_goals simp (disch := omega) [bit, mbz_nil, mask_lit]
  | object q =>
    obtain rfl := Option.some.inj e
    refine decode_formA 8 12 rfl rfl rfl wf ?_
    simp (disch := omega) only [byGroup, decodeC, modOf_formA, fD_formA, fA_formA, fB_formA, mod_formA, mBit_formA,
      hdrOf_formA, field_low, field_high, field_self, bit_cat, bit_bit, decide_true, Bool.true_and, reduceIte, Nat.reduceLT,
      Nat.reduceSub, modZ]
    all_goals simp (disch := omega) [bit, mbz_nil, mask_lit]

theorem acrd (x0 x1) : Statement (.acrd x0 x1) := by
  intro wf w e
  obtain rfl := Option.some.inj e
  refine decode_formA 9 12 rfl rfl rfl wf ?_
  simp (disch := omega) only [byGroup, decodeC, modZ, modOf_formA, fD_formA, fA_formA, fB_formA, mod_formA, mBit_formA,
    hdrOf_formA, field_high, field_self, bit_cat, bit_bit, mbz_nil, mask_cat, List.append_eq_nil_iff, Parsed.mk.injEq,
    decide_true, Bool.true_and, reduceIte, Nat.reduceLT, Nat.reduceSub]
  all_goals simp (disch := omega) [bit]

theorem btake (x0) : Statement (.btake x0) := by
  intro wf w e
  obtain rfl := Option.some.inj e
  refine decode_formA 10 12 rfl rfl rfl wf ?_
  simp (disch := omega) only [byGroup, decodeC, modZ, modOf_formA, fD_formA, fA_formA, fB_formA, hdrOf_formA, mbz_nil,
    List.append_eq_nil_iff, Parsed.mk.injEq]
  all_goals simp

theorem bpass (x0 x1) : Statement (.bpass x0 x1) := by
  intro wf w e
  cases x1 with
  | none =>
    obtain rfl := Option.some.inj e
    refine decode_formA 11 12 rfl rfl rfl wf ?_
    simp (disch := omega) only [byGroup, decodeC, modOf_formA, fD_formA, fA_formA, fB_formA, mBit_formA, hdrOf_formA,
      Nat.reduceSub, modZ]
    all_goals simp
  | some t =>
    obtain rfl := Option.some.inj e
    refine decode_formA 11 12 rfl rfl rfl wf ?_
    simp (disch := omega) only [byGroup, decodeC, modOf_formA, fD_formA, fA_formA, fB_formA, mBit_formA, hdrOf_formA,
      Nat.reduceSub, modZ]
    all_goals simp

theorem bqry (x0 x1) : Statement (.bqry x0 x1) := by
  intro wf w e
  obtain rfl := Option.some.inj e
  refine decode_formA 12 12 rfl rfl rfl wf ?_
  simp (disch := omega) only [byGroup, decodeC, modZ, modOf_formA, fD_formA, fA_formA, fB_formA, hdrOf_formA, mbz_nil,
    List.append_eq_nil_iff, Parsed.mk.injEq]
  all_goals simp

theorem barinit (x0 x1 x2) : Statement (.barinit x0 x1 x2) := by
  intro wf w e
  obtain rfl := Option.some.inj e
  refine decode_formA 0 13 rfl rfl rfl wf ?_
  simp (disch := omega) only [byGroup, decodeD, mod4, modZ, modOf_formA, fD_formA, fA_formA, fB_formA, mod_formA,
    hdrOf_formA, field_high, field_self, mbz_nil, mask_cat, List.append_eq_nil_iff, Parsed.mk.injEq, Nat.reduceSub]
  all_goals simp

theorem bar (x0 x1 x2) : Statement (.bar x0 x1 x2) := by
  intro wf w e
  cases x2 with
  | none =>
    obtain rfl := Option.some.inj e
    refine decode_formA 1 13 rfl rfl rfl wf ?_
    simp (disch := omega) only [byGroup, decodeD, modOf_formA, fD_formA, fA_formA, fB_formA, mod_formA, mBit_formA,
      hdrOf_formA, field_high, field_self, bit_cat, reduceIte, Nat.reduceLT, Nat.reduceSub, mod4, modZ]
    all_goals simp (disch := omega) [mbz_nil, mask_lit]
  | some t =>
    obtain rfl := Option.some.inj e
    refine decode_formA 1 13 rfl rfl rfl wf ?_
    simp (disch := omega) only [byGroup, decodeD, modOf_formA, fD_formA, fA_formA, fB_formA, mod_formA, mBit_formA,
      hdrOf_formA, field_high, field_self, bit_cat, reduceIte, Nat.reduceLT, Nat.reduceSub, mod4, modZ]
    all_goals simp (disch := omega) [mbz_nil, mask_lit]

theorem bara (x0 x1 x2) : Statement (.bara x0 x1 x2) := by
  intro wf w e
  obtain rfl := Option.some.inj e
  refine decode_formA 2 13 rfl rfl rfl wf ?_
  simp (disch := omega) only [byGroup, decodeD, mod4, modZ, modOf_formA, fD_formA, fA_formA, fB_formA, mod_formA,
    hdrOf_formA, field_high, field_self, mbz_nil, mask_cat, List.append_eq_nil_iff, Parsed.mk.injEq, Nat.reduceSub]
  all_goals simp

theorem bardrop (x0 x1) : Statement (.bardrop x0 x1) := by
  intro wf w e
  obtain rfl := Option.some.inj e
  refine decode_formA 3 13 rfl rfl rfl wf ?_
  simp (disch := omega) only [byGroup, decodeD, mod4, modZ, modOf_formA, fD_formA, fA_formA, fB_formA, mod_formA,
    hdrOf_formA, field_high, field_self, mbz_nil, mask_cat, List.append_eq_nil_iff, Parsed.mk.injEq, Nat.reduceSub]
  all_goals simp

theorem barjoin (x0 x1) : Statement (.barjoin x0 x1) := by
  intro wf w e
  obtain rfl := Option.some.inj e
  refine decode_formA 4 13 rfl rfl rfl wf ?_
  simp (disch := omega) only [byGroup, decodeD, mod4, modZ, modOf_formA, fD_formA, fA_formA, fB_formA, mod_formA,
    hdrOf_formA, field_high, field_self, mbz_nil, mask_cat, List.append_eq_nil_iff, Parsed.mk.injEq, Nat.reduceSub]
  all_goals simp

theorem spanh (x0 x1 x2) : Statement (.spanh x0 x1 x2) := by
  intro wf w e
  obtain rfl := Option.some.inj e
  refine decode_formA 5 13 rfl rfl rfl wf ?_
  simp (disch := omega) only [byGroup, decodeD, modZ, modOf_formA, fD_formA, fA_formA, fB_formA, mBit_formA, hdrOf_formA,
    bit_cat, bit_bit, mbz_nil, mask_cat, List.append_eq_nil_iff, Parsed.mk.injEq, decide_true, Bool.true_and, reduceIte,
    Nat.reduceLT, Nat.reduceSub]
  all_goals simp (disch := omega) [bit]

theorem spanq (x0 x1 x2) : Statement (.spanq x0 x1 x2) := by
  intro wf w e
  obtain rfl := Option.some.inj e
  refine decode_formA 6 13 rfl rfl rfl wf ?_
  simp (disch := omega) only [byGroup, decodeD, modZ, modOf_formA, fD_formA, fA_formA, fB_formA, hdrOf_formA, mbz_nil,
    List.append_eq_nil_iff, Parsed.mk.injEq]
  all_goals simp

theorem spanfrz (x0 x1 x2) : Statement (.spanfrz x0 x1 x2) := by
  intro wf w e
  obtain rfl := Option.some.inj e
  refine decode_formA 7 13 rfl rfl rfl wf ?_
  simp (disch := omega) only [byGroup, decodeD, modZ, modOf_formA, fD_formA, fA_formA, fB_formA, hdrOf_formA, mbz_nil,
    List.append_eq_nil_iff, Parsed.mk.injEq]
  all_goals simp

theorem spanthaw (x0 x1) : Statement (.spanthaw x0 x1) := by
  intro wf w e
  obtain rfl := Option.some.inj e
  refine decode_formA 8 13 rfl rfl rfl wf ?_
  simp (disch := omega) only [byGroup, decodeD, modZ, modOf_formA, fD_formA, fA_formA, fB_formA, hdrOf_formA, mbz_nil,
    List.append_eq_nil_iff, Parsed.mk.injEq]
  all_goals simp

theorem spawn (x0 x1) : Statement (.spawn x0 x1) := by
  intro wf w e
  obtain rfl := Option.some.inj e
  refine decode_formA 9 13 rfl rfl rfl wf ?_
  simp (disch := omega) only [byGroup, decodeD, modZ, fC, modOf_formA, fD_formA, fA_formA, fB_formA, mod_formA,
    hdrOf_formA, field_high, field_self, mbz_nil, mask_cat, List.append_eq_nil_iff, Parsed.mk.injEq, Nat.reduceSub]
  all_goals simp

theorem join (x0 x1) : Statement (.join x0 x1) := by
  intro wf w e
  cases x1 with
  | none =>
    obtain rfl := Option.some.inj e
    refine decode_formA 10 13 rfl rfl rfl wf ?_
    simp (disch := omega) only [byGroup, decodeD, modOf_formA, fD_formA, fA_formA, fB_formA, mBit_formA, hdrOf_formA,
      Nat.reduceSub, modZ]
    all_goals simp
  | some t =>
    obtain rfl := Option.some.inj e
    refine decode_formA 10 13 rfl rfl rfl wf ?_
    simp (disch := omega) only [byGroup, decodeD, modOf_formA, fD_formA, fA_formA, fB_formA, mBit_formA, hdrOf_formA,
      Nat.reduceSub, modZ]
    all_goals simp

theorem sdone (x0) : Statement (.sdone x0) := by
  intro wf w e
  obtain rfl := Option.some.inj e
  refine decode_formA 11 13 rfl rfl rfl wf ?_
  simp (disch := omega) only [byGroup, decodeD, modZ, modOf_formA, fD_formA, fA_formA, fB_formA, hdrOf_formA, mbz_nil,
    List.append_eq_nil_iff, Parsed.mk.injEq]
  all_goals simp

theorem rqrd (x0 x1 x2 x3) : Statement (.rqrd x0 x1 x2 x3) := by
  intro wf w e
  obtain rfl := Option.some.inj e
  refine decode_formA 12 13 rfl rfl rfl wf ?_
  simp (disch := omega) only [byGroup, decodeD, modZ, modOf_formA, fD_formA, fA_formA, fB_formA, mod_formA, hdrOf_formA,
    field_low, field_high, field_self, mbz_nil, mask_cat, List.append_eq_nil_iff, Parsed.mk.injEq, Nat.reduceSub]
  all_goals simp

theorem rqwr (x0 x1 x2 x3) : Statement (.rqwr x0 x1 x2 x3) := by
  intro wf w e
  obtain rfl := Option.some.inj e
  refine decode_formA 13 13 rfl rfl rfl wf ?_
  simp (disch := omega) only [byGroup, decodeD, modZ, modOf_formA, fD_formA, fA_formA, fB_formA, mod_formA, hdrOf_formA,
    field_low, field_high, field_self, mbz_nil, mask_cat, List.append_eq_nil_iff, Parsed.mk.injEq, Nat.reduceSub]
  all_goals simp

theorem rqdel (x0 x1 x2) : Statement (.rqdel x0 x1 x2) := by
  intro wf w e
  obtain rfl := Option.some.inj e
  refine decode_formA 14 13 rfl rfl rfl wf ?_
  simp (disch := omega) only [byGroup, decodeD, modZ, modOf_formA, fD_formA, fA_formA, fB_formA, mod_formA, mBit_formA,
    hdrOf_formA, field_high, field_self, bit_cat, bit_bit, mbz_nil, mask_cat, List.append_eq_nil_iff, Parsed.mk.injEq,
    decide_true, Bool.true_and, reduceIte, Nat.reduceLT, Nat.reduceSub]
  all_goals simp (disch := omega) [bit]

theorem kill (x0 x1) : Statement (.kill x0 x1) := by
  intro wf w e
  obtain rfl := Option.some.inj e
  refine decode_formA 15 13 rfl rfl rfl wf ?_
  simp (disch := omega) only [byGroup, decodeD, modZ, modOf_formA, fD_formA, fA_formA, fB_formA, hdrOf_formA, mbz_nil,
    List.append_eq_nil_iff, Parsed.mk.injEq]
  all_goals simp

theorem qend (x0) : Statement (.qend x0) := by
  intro wf w e
  obtain rfl := Option.some.inj e
  refine decode_formA 16 13 rfl rfl rfl wf ?_
  simp (disch := omega) only [byGroup, decodeD, modZ, modOf_formA, fD_formA, fA_formA, fB_formA, hdrOf_formA, mbz_nil,
    List.append_eq_nil_iff, Parsed.mk.injEq]
  all_goals simp

theorem unassignedOpcode (x0 x1 x2) : Statement (.unassignedOpcode x0 x1 x2) := by
  intro wf w e
  obtain rfl := Option.some.inj e
  exact decode_unassigned x0 x1 x2 wf

/-! Steps of the other agents have no word. -/

theorem memoryResponse (x0 x1 x2 x3 x4) : Statement (.memoryResponse x0 x1 x2 x3 x4) := fun _ _ e => nomatch e
theorem translationFault (x0) : Statement (.translationFault x0) := fun _ _ e => nomatch e
theorem copyOperationComplete (x0) : Statement (.copyOperationComplete x0) := fun _ _ e => nomatch e
theorem matrixOperationComplete (x0) : Statement (.matrixOperationComplete x0) := fun _ _ e => nomatch e
theorem groupPlacement (x0) : Statement (.groupPlacement x0) := fun _ _ e => nomatch e
theorem preemption (x0) : Statement (.preemption x0) := fun _ _ e => nomatch e
theorem evictedWaveReturn (x0) : Statement (.evictedWaveReturn x0) := fun _ _ e => nomatch e
theorem joinResume (x0) : Statement (.joinResume x0) := fun _ _ e => nomatch e
theorem launchCompletion (x0) : Statement (.launchCompletion x0) := fun _ _ e => nomatch e
theorem regroupIntervalEnd (x0 x1) : Statement (.regroupIntervalEnd x0 x1) := fun _ _ e => nomatch e
theorem quantumEnd (x0) : Statement (.quantumEnd x0) := fun _ _ e => nomatch e
theorem watchdogExpiry (x0 x1) : Statement (.watchdogExpiry x0 x1) := fun _ _ e => nomatch e
theorem majAccessStart (x0) : Statement (.majAccessStart x0) := fun _ _ e => nomatch e
theorem majTagReply (x0 x1) : Statement (.majTagReply x0 x1) := fun _ _ e => nomatch e
theorem majCopyStore (x0) : Statement (.majCopyStore x0) := fun _ _ e => nomatch e
theorem majLoadAnswer (x0 x1) : Statement (.majLoadAnswer x0 x1) := fun _ _ e => nomatch e
theorem lossOfQuorum (x0) : Statement (.lossOfQuorum x0) := fun _ _ e => nomatch e
theorem scrubStep (x0 x1) : Statement (.scrubStep x0 x1) := fun _ _ e => nomatch e
theorem stackUnreachable (x0 x1) : Statement (.stackUnreachable x0 x1) := fun _ _ e => nomatch e
theorem stackReturn (x0 x1 x2) : Statement (.stackReturn x0 x1 x2) := fun _ _ e => nomatch e
theorem rtoExpiry (x0) : Statement (.rtoExpiry x0) := fun _ _ e => nomatch e
theorem rectoExpiry (x0) : Statement (.rectoExpiry x0) := fun _ _ e => nomatch e
theorem ackTimer (x0) : Statement (.ackTimer x0) := fun _ _ e => nomatch e
theorem ackOnly (x0) : Statement (.ackOnly x0) := fun _ _ e => nomatch e
theorem remoteRead (x0) : Statement (.remoteRead x0) := fun _ _ e => nomatch e
theorem remoteWrite (x0) : Statement (.remoteWrite x0) := fun _ _ e => nomatch e
theorem remoteAtomic (x0) : Statement (.remoteAtomic x0) := fun _ _ e => nomatch e
theorem readResponse (x0) : Statement (.readResponse x0) := fun _ _ e => nomatch e
theorem writeResponse (x0) : Statement (.writeResponse x0) := fun _ _ e => nomatch e
theorem atomicResponse (x0) : Statement (.atomicResponse x0) := fun _ _ e => nomatch e
theorem errorResponse (x0) : Statement (.errorResponse x0) := fun _ _ e => nomatch e
theorem streamReset (x0) : Statement (.streamReset x0) := fun _ _ e => nomatch e
theorem resetAcknowledge (x0) : Statement (.resetAcknowledge x0) := fun _ _ e => nomatch e
theorem peerpWrite (x0 x1) : Statement (.peerpWrite x0 x1) := fun _ _ e => nomatch e
theorem portLinkChange (x0 x1) : Statement (.portLinkChange x0 x1) := fun _ _ e => nomatch e
theorem cmdNop (x0 x1 x2) : Statement (.cmdNop x0 x1 x2) := fun _ _ e => nomatch e
theorem launch (x0 x1 x2) : Statement (.launch x0 x1 x2) := fun _ _ e => nomatch e
theorem launchi (x0 x1 x2 x3) : Statement (.launchi x0 x1 x2 x3) := fun _ _ e => nomatch e
theorem waitv (x0 x1 x2) : Statement (.waitv x0 x1 x2) := fun _ _ e => nomatch e
theorem signal (x0 x1 x2 x3 x4 x5) : Statement (.signal x0 x1 x2 x3 x4 x5) := fun _ _ e => nomatch e
theorem cmdFence (x0 x1) : Statement (.cmdFence x0 x1) := fun _ _ e => nomatch e
theorem cmdLoop (x0 x1 x2 x3) : Statement (.cmdLoop x0 x1 x2 x3) := fun _ _ e => nomatch e
theorem ifv (x0 x1 x2 x3) : Statement (.ifv x0 x1 x2 x3) := fun _ _ e => nomatch e
theorem jump (x0 x1 x2 x3) : Statement (.jump x0 x1 x2 x3) := fun _ _ e => nomatch e
theorem copyh (x0 x1 x2 x3 x4) : Statement (.copyh x0 x1 x2 x3 x4) := fun _ _ e => nomatch e
theorem setpow (x0 x1 x2 x3) : Statement (.setpow x0 x1 x2 x3) := fun _ _ e => nomatch e
theorem regroup (x0 x1 x2 x3) : Statement (.regroup x0 x1 x2 x3) := fun _ _ e => nomatch e
theorem cmdResume (x0 x1 x2 x3) : Statement (.cmdResume x0 x1 x2 x3) := fun _ _ e => nomatch e
theorem qtailWrite (x0 x1) : Statement (.qtailWrite x0 x1) := fun _ _ e => nomatch e
theorem qrestart (x0 x1) : Statement (.qrestart x0 x1) := fun _ _ e => nomatch e
theorem qcfgWrite (x0 x1) : Statement (.qcfgWrite x0 x1) := fun _ _ e => nomatch e
theorem qbaseWrite (x0 x1) : Statement (.qbaseWrite x0 x1) := fun _ _ e => nomatch e
theorem queueSwitch (x0 x1) : Statement (.queueSwitch x0 x1) := fun _ _ e => nomatch e
theorem fqheadWrite (x0 x1) : Statement (.fqheadWrite x0 x1) := fun _ _ e => nomatch e
theorem fqbaseWrite (x0 x1 x2) : Statement (.fqbaseWrite x0 x1 x2) := fun _ _ e => nomatch e
theorem resume (x0 x1) : Statement (.resume x0 x1) := fun _ _ e => nomatch e
theorem tlbinv (x0 x1) : Statement (.tlbinv x0 x1) := fun _ _ e => nomatch e
theorem repsetWrite (x0 x1) : Statement (.repsetWrite x0 x1) := fun _ _ e => nomatch e
theorem rebaseGo (x0) : Statement (.rebaseGo x0) := fun _ _ e => nomatch e
theorem aclkWrite (x0) : Statement (.aclkWrite x0) := fun _ _ e => nomatch e
theorem pauseWrite (x0) : Statement (.pauseWrite x0) := fun _ _ e => nomatch e
theorem registerWrite (x0 x1) : Statement (.registerWrite x0 x1) := fun _ _ e => nomatch e
theorem powerOver (x0) : Statement (.powerOver x0) := fun _ _ e => nomatch e
theorem powerUnder (x0) : Statement (.powerUnder x0) := fun _ _ e => nomatch e
theorem thermalStateChange (x0 x1) : Statement (.thermalStateChange x0 x1) := fun _ _ e => nomatch e
theorem packageReset (x0) : Statement (.packageReset x0) := fun _ _ e => nomatch e
theorem moduleTrainingFailure (x0) : Statement (.moduleTrainingFailure x0) := fun _ _ e => nomatch e
theorem hostMemoryAccess (x0) : Statement (.hostMemoryAccess x0) := fun _ _ e => nomatch e
theorem negotiateAlgorithms (x0 x1) : Statement (.negotiateAlgorithms x0 x1) := fun _ _ e => nomatch e
theorem getCertificate (x0 x1 x2) : Statement (.getCertificate x0 x1 x2) := fun _ _ e => nomatch e
theorem challenge (x0 x1) : Statement (.challenge x0 x1) := fun _ _ e => nomatch e
theorem getMeasurements (x0 x1 x2) : Statement (.getMeasurements x0 x1 x2) := fun _ _ e => nomatch e
theorem debuggerStop (x0) : Statement (.debuggerStop x0) := fun _ _ e => nomatch e
theorem debuggerResume (x0) : Statement (.debuggerResume x0) := fun _ _ e => nomatch e
theorem debuggerWrite (x0 x1 x2) : Statement (.debuggerWrite x0 x1 x2) := fun _ _ e => nomatch e
theorem majStoreAnswer (x0 x1 x2) : Statement (.majStoreAnswer x0 x1 x2) := fun _ _ e => nomatch e
theorem epochCounterReset (x0) : Statement (.epochCounterReset x0) := fun _ _ e => nomatch e
theorem discardedFrame (x0) : Statement (.discardedFrame x0) := fun _ _ e => nomatch e
theorem regroupInstall : Statement .regroupInstall := fun _ _ e => nomatch e
theorem quantumBoundary : Statement .quantumBoundary := fun _ _ e => nomatch e
theorem tlbinvDone : Statement .tlbinvDone := fun _ _ e => nomatch e
theorem rebaseComplete : Statement .rebaseComplete := fun _ _ e => nomatch e
theorem energyWindowStart : Statement .energyWindowStart := fun _ _ e => nomatch e
theorem getVersion : Statement .getVersion := fun _ _ e => nomatch e
theorem getCapabilities : Statement .getCapabilities := fun _ _ e => nomatch e
theorem getDigests : Statement .getDigests := fun _ _ e => nomatch e
theorem lossOfPower : Statement .lossOfPower := fun _ _ e => nomatch e

end Sys2Proof.Laws.RoundTrip
end

