-- ==== Sys2Proof/Laws/WaveOps.lean ====
section
/-! SUPPORT. What an instruction leaves whose effect is on its wave alone, said once for all of them; and what an operation sees of
its operands. -/

namespace Sys2Proof.Machine

open Sys2Proof.Safety

/-! ## Operands as an operation sees them -/

theorem Site.ctx_exec (s : State) (x : Site) (h : Hdr) (u : Uses) : (Site.ctx s x h u).exec = x.exec h := rfl

theorem Site.ctx_v (s : State) (x : Site) (h : Hdr) (u : Uses) (k : Nat) (L : Lane) :
    (Site.ctx s x h u).v k L = operand s x h u k L := by
  have e : (Site.ctx s x h u).vals[k]? = (u.srcs[k]?).map (s.readSrc x.wv x.sp (x.exec h)) := by
    simp only [Site.ctx, Site.vals, List.getElem?_map]
  unfold Ctx.v Ctx.src operand
  rw [e]
  cases u.srcs[k]? <;> simp

theorem Site.ctx_u (s : State) (x : Site) (h : Hdr) (u : Uses) (k : Nat) : (Site.ctx s x h u).u k = uniform s x h u k :=
  Site.ctx_v s x h u k _

theorem Site.readState_wave {s : State} {x : Site} (h : Hdr) (u : Uses) (hi : Issues s x) :
    (Site.readState s x h u).waves[x.w]? = some (Site.readWave s x h u) := State.withWave_self _ hi.wave

theorem Site.hasRead (s : State) (x : Site) (h : Hdr) (u : Uses) : HasRead x (Site.readWave s x h u) :=
  let ⟨fs, h0, h1, h2⟩ := setXdead_fields x.wv ((Site.vals s x h u).any (·.xdead))
  ⟨fs, h0, h1, h2⟩

theorem Site.fctl {s : State} {x : Site} (h : Hdr) (u : Uses) (hi : Issues s x) :
    (Site.readState s x h u).fctl (Site.ctx s x h u) = x.wv.fctl := by
  have hw := Site.readState_wave h u hi
  obtain ⟨fs, h0, _⟩ := Site.hasRead s x h u
  simp only [State.fctl, Site.ctx, hw, h0, Option.map_some, Option.getD_some]

theorem Site.predOf {s : State} {x : Site} (h : Hdr) (u : Uses) (hi : Issues s x) (p : PNum) :
    (Site.readState s x h u).predOf (Site.ctx s x h u) p = x.wv.pred p := by
  have hw := Site.readState_wave h u hi
  obtain ⟨fs, h0, _⟩ := Site.hasRead s x h u
  simp only [State.predOf, Site.ctx, hw, h0, Option.map_some, Option.getD_some]
  rfl

/-! ## Completion -/

theorem laneEffect_congr {x : Site} {u : Uses} {m : Mask} {f g : Lane → LaneOut} {pd : Option PNum} {wv : Wave}
    (e : LaneEffect x u m f pd wv) (h : ∀ L, m.has L = true → f L = g L) : LaneEffect x u m g pd wv := by
  refine ⟨e.fields, fun hd L hL => h L hL ▸ e.value hd L hL, e.others, fun p L => ?_, fun L h0 => ?_, ?_⟩
  · rw [e.pred]
    by_cases hL : m.has L = true
    · rw [h L hL]
    · simp [hL]
  · rw [e.flags L h0]
    by_cases hL : m.has L = true
    · rw [h L hL]
    · simp [hL]
  · rw [e.flags0]
    by_cases hL : m.has 0 = true
    · rw [h 0 hL]
    · simp [hL]

/-- An instruction that is a lane-by-lane operation completes with the results it is shown to compute. -/
theorem completesLanes_of {i : Instr} {s : State} {x : Site} {h : Hdr} {u : Uses} {out : Lane → LaneOut} {pd : Option PNum}
    (hc : Clear s x h u) (hq : NoMismatch s x) (hn : ∀ d n, u.dst = some (d, n) → 0 < n) {tag : Ctx → Tag}
    {f : State → Ctx → Lane → LaneOut} {poison : Option (Ctx → Lane → Poison)}
    (he : exec i s = laneOp h u tag f pd poison s)
    (hf : ∀ L : Lane, (x.exec h).has L = true → f (Site.readState s x h u) (Site.ctx s x h u) L = out L ∧ (out L).trap = none) :
    CompletesLanes i s x h u out pd := by
  obtain ⟨t, wv1, wv2, h1, h2, h3, h4, h5⟩ := laneOp_clear hc hq hn tag f pd poison (fun L hL => (hf L hL).1 ▸ (hf L hL).2)
  exact ⟨t, wv1, wv2, he.trans h1, laneEffect_congr h2 (fun L hL => (hf L hL).1), h3, h4, h5⟩

/-- Instructions that are lane-by-lane operations complete with the results that each lane is shown to compute. -/
theorem laneResult_of {O : Type} {mk : Hdr → O → Instr} {u : Site → Hdr → O → Uses} {ok : State → Site → Hdr → O → Lane → Prop}
    {out : State → Site → Hdr → O → Lane → LaneOut} {pd : O → Option PNum} (tag : Hdr → O → Ctx → Tag)
    (f : Hdr → O → State → Ctx → Lane → LaneOut) (poison : Hdr → O → Option (Ctx → Lane → Poison))
    (he : ∀ s x h o, Issues s x → exec (mk h o) s = laneOp h (u x h o) (tag h o) (f h o) (pd o) (poison h o) s)
    (hn : ∀ x h o d n, (u x h o).dst = some (d, n) → 0 < n)
    (hf : ∀ s x h o L, Issues s x → (x.exec h).has L = true → ok s x h o L →
      f h o (Site.readState s x h (u x h o)) (Site.ctx s x h (u x h o)) L = out s x h o L ∧ (out s x h o L).trap = none) :
    LaneResult mk u ok out pd := by
  intro s x h o hc hq hok
  exact completesLanes_of hc hq (hn x h o) (he s x h o hc.issues) (fun L hL => hf s x h o L hc.issues hL (hok L hL))

/-- An instruction whose effect is on its wave alone completes. -/
theorem completesWith_of {i : Instr} {s : State} {x : Site} {h : Hdr} {u : Uses} (hc : Clear s x h u) (hq : NoMismatch s x)
    (eff : Wave → Wave) (kind : BitVec 3) (edit : RQEntry → RQEntry) {k : State → Ctx → State} (he : exec i s = issue h u k s)
    (hk : k (Site.readState s x h u) (Site.ctx s x h u)
      = ((Site.readState s x h u).withWave x.w eff).finish (Site.ctx s x h u) kind [] edit)
    (hs : ∀ wv, wv.table = x.wv.table → ∃ sp, (eff wv).table.split? x.slot = some sp ∧ sp.rpc = x.sp.rpc)
    (hl : ∀ wv, (eff wv).launch = wv.launch) :
    CompletesWith i s x h u eff := by
  have hi := hc.issues
  have hw := Site.readState_wave h u hi
  obtain ⟨fs, h0, h1, h2⟩ := Site.hasRead s x h u
  obtain ⟨sp, hsp, hr⟩ := hs (Site.readWave s x h u) (by rw [h0])
  have hw1 : ((Site.readState s x h u).withWave x.w eff).waves[x.w]? = some (eff (Site.readWave s x h u)) :=
    State.withWave_self _ hw
  have hchk : x.sp.pc + 12 ≠ x.sp.rpc
      ∨ ((Site.readState s x h u).withWave x.w eff).checking (eff (Site.readWave s x h u)) = false := by
    refine hq.imp id (fun hn => ?_)
    have : ∀ (a b : State) (v w : Wave), a.launches = b.launches → v.launch = w.launch → a.checking v = b.checking w := by
      intro a b v w e1 e2
      simp only [State.checking, State.launchOf, e1, e2]
    exact (this ((Site.readState s x h u).withWave x.w eff) s (eff (Site.readWave s x h u)) x.wv rfl (by rw [hl, h0])).trans hn
  obtain ⟨wv2, g1, g2, g3⟩ := State.finish_plain (s := (Site.readState s x h u).withWave x.w eff) (c := Site.ctx s x h u)
    (x := x) (h := h) (u := u) kind edit rfl ⟨rfl, rfl, rfl, rfl, rfl, rfl, rfl⟩ hw1 hi.place hsp hr hchk
  refine ⟨_, Site.readWave s x h u, wv2, he.trans (issue_clear hc k), Site.hasRead s x h u, g2, hk ▸ g1, ?_⟩
  rw [hk]
  exact ((OnlyWave.taken s x.w).trans (OnlyWave.withWave rfl _ _)).trans ((OnlyWave.withWave rfl _ _).trans g3)

end Sys2Proof.Machine
end

