-- ==== Sys2Proof/Tests/Slice0.lean ====
section
/-! SUPPORT. Tests: words of the spec decoded, ill-formed terms refused, worked examples of the spec run, and for every statement a
state and operands that meet its hypotheses. -/

set_option Elab.async false

namespace Sys2Proof.Tests

open Sys2Proof Sys2Proof.Machine Sys2Proof.Safety

/-! ## A small machine -/

/-- One wave alone on core 0, its split about to issue. -/
def demo : State := { State.reset.loadAlone 0x001C00000000000000000000 with cur := some ⟨0, 0, 0, 0, 0x001C0000, none⟩ }

/-- The wave. -/
def demoW : Wave :=
  { Wave.start 0 0 0 0 (0, ⟨1, 0, 256⟩) loaderRecord 0 ([], []) with life := .resident, place := some ⟨0, 0, 0⟩ }

/-- Its split. -/
def demoSp : Split :=
  { mask := fullMask, pc := 0, rpc := 0xFFFFFFFF, emask := fullMask, hash := 0xFFFF, fmt := 0, link := 31, nosig := false,
    yielded := false, wait := none }

/-- Where it issues, for a wave and a split that stand in place 0. -/
def siteOf (wv : Wave) (sp : Split) : Site := ⟨0, 0, 0, 0, 0x001C0000, wv, sp⟩

/-- Where the wave of `demo` issues. -/
def demoX : Site := siteOf demoW demoSp

/-- A state with the wave of `demo` changed. -/
def demoWith (f : Wave → Wave) : State := { demo with waves := [f demoW] }

/-- Whether nothing stands in the way of an instruction at a site, as a check that evaluates. -/
def clearB (s : State) (x : Site) (h : Hdr) (u : Uses) : Bool :=
  decide (u.fmt = []) && !x.wv.blocked (x.exec h) h u && !u.hold s.taken x.w
    && decide (x.wv.issueFault (x.exec h) u = none)
    && decide (∀ r ∈ x.wv.sourceRegs (x.exec h) u, (x.wv.reg r).bad = 0)
    && decide (u.illegal (x.exec h) (u.srcs.map (s.readSrc x.wv x.sp (x.exec h))) = none)
    && decide (∀ p ∈ u.srcs, p.consume.isSome = true → ∀ L : Lane, (x.exec h &&& u.part).has L = true →
        (s.readSrc x.wv x.sp (x.exec h) p).poison[L] = .clean)
    && decide (s.residue = none)

theorem clear_of {s : State} {x : Site} {h : Hdr} {u : Uses} (i : Issues s x) (e : clearB s x h u = true) : Clear s x h u := by
  simp only [clearB, Bool.and_eq_true, decide_eq_true_eq, Bool.not_eq_true'] at e
  obtain ⟨⟨⟨⟨⟨⟨⟨h7, h8⟩, h9⟩, h10⟩, ha⟩, hb⟩, h11⟩, h12⟩ := e
  exact ⟨i, h7, h8, h9, h10, ha, hb, h11, h12⟩

theorem ok_of {ε α : Type} {e : Except ε α} {v : α} (h : e.toOption = some v) : e = .ok v := by
  cases e with
  | error _ => cases h
  | ok w => exact congrArg _ (Option.some.inj h)

/-- The launch of `demo`. -/
def demoL : Launch := { Launch.fresh loaderRecord loaderDomain 0 0 0 none none 0 true with nextGl := 1 }

theorem demo_issues : Issues demo demoX := ⟨rfl, rfl, rfl, by decide, by decide, by decide, by decide⟩

/-- The operands of an instruction of `demo`, with the condition that its statement sets. -/
def Meets (u : Uses) (ok : Lane → Prop) : Prop :=
  Clear demo demoX plainHdr u ∧ NoMismatch demo demoX ∧ ∀ L, (demoX.exec plainHdr).has L = true → ok L

theorem meets_of {u : Uses} {ok : Lane → Prop} (e : clearB demo demoX plainHdr u = true) (k : ∀ L, ok L) : Meets u ok :=
  ⟨clear_of demo_issues e, .inl (by decide), fun L _ => k L⟩

/-- With the FCTL of a new wave no trap is enabled. -/
theorem no_trap (e : Nat) (h : e < 7) : trapOn demoW.fctl e = false := by
  revert e; decide

theorem no_float_trap (fl : BitVec 8) : NoFloatTrap demoW.fctl fl := fun e h _ => no_trap e (by omega)

theorem no_any_trap (fl : BitVec 8) : NoTrap demoW.fctl fl := fun e h _ => no_trap e h

/-! ## Witnesses: operations lane by lane -/

/-- A destination and sources of the tests. -/
def int2 (t : IType) (sat : Bool) : IntOp := ⟨t, sat, vd 3, vs 1, vs 2⟩

theorem witness_IntegerArithmetic :
    Meets (int2Uses (int2 .si32 true)) (fun L => NoOverflowTrap demoW.fctl .si32 true
        (intOperand demo demoX plainHdr (int2Uses (int2 .si32 true)) .si32 0 L))
      ∧ Meets (int1Uses ⟨.si64, false, vd 4, vs 6⟩) (fun _ => True) ∧ Meets (int3Uses ⟨.si32, true, vd 3, vs 1, .imm 5, 2⟩) (fun _ => True)
      ∧ Meets (iaddIUses ⟨.si32, true, vd 3, 0x80000000, 1⟩) (fun _ => True)
      ∧ Meets (int2Uses (int2 .si32 false)) (fun L => NoDivisionTrap demoW.fctl .si32
        (intOperand demo demoX plainHdr (int2Uses (int2 .si32 false)) .si32 0 L)
        (intOperand demo demoX plainHdr (int2Uses (int2 .si32 false)) .si32 1 L)) := by
  refine ⟨meets_of (by decide +kernel) ?_, meets_of (by decide +kernel) (fun _ => trivial), meets_of (by decide +kernel) (fun _ => trivial),
    meets_of (by decide +kernel) (fun _ => trivial), meets_of (by decide +kernel) ?_⟩
  · intro L _ _; exact no_trap 6 (by omega)
  · intro L; exact ⟨fun _ => no_trap 5 (by omega), fun _ _ _ => no_trap 6 (by omega)⟩

theorem witness_WideIntegers :
    Meets (carryUses ⟨.ui32, false, 1, 1, vd 5, vs 1, vs 2⟩) (fun _ => True)
      ∧ Meets (imadwUses ⟨.ui32, false, vd 8, vs 1, vs 2, 8⟩) (fun _ => True)
      ∧ Meets (leaUses ⟨.ui32, 2, vd 10, vs 4, vs 6, 7⟩) (fun _ => True)
      ∧ Meets (isadUses ⟨.ui8, false, vd 3, vs 1, vs 2, 3⟩) (fun _ => True) := by
  refine ⟨?_, ?_, ?_, ?_⟩ <;> exact meets_of (by decide +kernel) (fun _ => trivial)

theorem witness_Shifts :
    Meets (log2Uses ⟨.ui64, vd 4, vs 4, .imm 64⟩) (fun _ => True)
      ∧ Meets (log3Uses .ui32 (vd 3) (vs 1) (.imm 5) 2) (fun _ => IType.ui32.width = 32) := by
  refine ⟨?_, ?_⟩ <;> exact meets_of (by decide +kernel) (fun _ => by decide)

theorem witness_BitFields :
    Meets (blutUses ⟨.ui32, 0xE8, vd 3, vs 1, vs 2⟩) (fun _ => True) ∧ Meets (blutIUses ⟨.ui32, 0x88, vd 3, 0xFF, 1⟩) (fun _ => True)
      ∧ Meets (log2Uses ⟨.si32, vd 3, vs 1, .imm 0x0804⟩) (fun _ => True)
      ∧ Meets (log3Uses .si32 (vd 3) (vs 1) (.imm 0x0410) 3) (fun _ => IType.si32.width = 32)
      ∧ Meets (log1Uses ⟨.ui64, vd 3, vs 4⟩ 1) (fun _ => True) := by
  refine ⟨?_, ?_, ?_, ?_, ?_⟩ <;> exact meets_of (by decide +kernel) (fun _ => by decide)

theorem witness_MovesAndShapes :
    Meets (log1Uses ⟨.si32, vd 3, vs 1⟩ 1) (fun _ => True) ∧ Meets (dstUses (vd 3) 1) (fun _ => True)
      ∧ Meets (selUses ⟨.si32, vd 3, vs 1, vs 2, 9⟩) (fun _ => True) ∧ Meets (shapeUses (vd 3) (plainSrc 4 false)) (fun _ => True)
      ∧ Meets (affineUses (vd 3) (.imm 0) (.imm 4)) (fun _ => True) := by
  refine ⟨?_, ?_, ?_, ?_, ?_⟩ <;> exact meets_of (by decide +kernel) (fun _ => trivial)

/-- A compare of less than, joined by OR with P3. -/
def cmpLt : CmpF := ⟨1, .or, 3⟩

theorem witness_ComparesAndPredicates :
    Meets (icmpUses ⟨cmpLt, .si32, 1, vs 1, vs 2⟩) (fun _ => True) ∧ Meets (icmpIUses ⟨cmpLt, .si32, 1, 1000, 7⟩) (fun _ => True)
      ∧ Meets (fcmpUses ⟨cmpLt, .f32, false, false, 1, vs 1, vs 2⟩) (fun L => EType.f32 ∈ [EType.f64, .f32, .f16, .bf16]
        ∧ ((floatCompared ⟨cmpLt, .f32, false, false, 1, vs 1, vs 2⟩ ((demoW.pred 3).has L)
          (natOperand demo demoX plainHdr (fcmpUses ⟨cmpLt, .f32, false, false, 1, vs 1, vs 2⟩) 0 L)
          (natOperand demo demoX plainHdr (fcmpUses ⟨cmpLt, .f32, false, false, 1, vs 1, vs 2⟩) 1 L)).flags ≠ 0 → trapOn demoW.fctl 0 = false))
      ∧ Meets (plutUses ⟨0x80, 2, 1, 3, 7⟩) (fun _ => True) ∧ Meets (psaveUses (vd 3)) (fun _ => True)
      ∧ Meets (ploadUses 0x7F (vs 3)) (fun _ => True) := by
  refine ⟨?_, ?_, meets_of (by decide +kernel) (by decide +kernel), ?_, ?_, ?_⟩ <;> exact meets_of (by decide +kernel) (fun _ => trivial)

theorem witness_RoundingAttributes :
    0 < 1 ∧ (0x7FC00001 < 2 ^ f32.w ∧ isNotNumber f32 0x7FC00001 = true ∧ isSignallingNan f32 0x7F800001 = true ∧ isInfinity f32 0xFF800000 = true
      ∧ isFinite f32 0x3F800000 = true ∧ isNotNumber f32 0x3F800000 = false ∧ isNotNumber f32 0xFF800000 = false) := by decide

theorem witness_FloatArithmetic :
    Meets (fltUses2 .f64 (vd 8) (vs 4) (vs 6)) (fun _ => ∀ fl, NoFloatTrap demoW.fctl fl)
      ∧ Meets (fltUses2 .f16x2 (vd 8) (vs 4) (vs 6)) (fun _ => ∀ fl, NoFloatTrap demoW.fctl fl)
      ∧ Meets (fltUses3 ⟨.f64, .rtz, vd 8, vs 4, vs 6, 8⟩) (fun _ => ∀ fl, NoFloatTrap demoW.fctl fl)
      ∧ Meets (fltUses1 .f32 (vd 8) (vs 4) 1) (fun _ => ∀ fl, NoFloatTrap demoW.fctl fl) := by
  refine ⟨?_, ?_, ?_, ?_⟩ <;> exact meets_of (by decide +kernel) (fun _ => no_float_trap)

theorem witness_FloatParts :
    Meets (fltUses2 .f64 (vd 8) (vs 4) (.imm 0)) (fun _ => ∀ fl, NoFloatTrap demoW.fctl fl)
      ∧ Meets (fltUses1 .f64 (vd 8) (vs 4) 2) (fun _ => ∀ fl, NoFloatTrap demoW.fctl fl)
      ∧ Meets (scaleUses ⟨.f64, .rne, vd 8, vs 4, .imm 3⟩) (fun _ => ∀ fl, NoFloatTrap demoW.fctl fl)
      ∧ Meets (fltUses1 .f32 (vd 3) (vs 4) 1) (fun _ => ∀ fl, NoFloatTrap demoW.fctl fl) := by
  refine ⟨?_, ?_, ?_, ?_⟩ <;> exact meets_of (by decide +kernel) (fun _ => no_float_trap)

/-- A site of a split with FMT `f`. -/
def fmtX (f : BitVec 10) : Site :=
  siteOf { demoW with table := { SplitTable.empty with slots := SplitTable.empty.slots.set 0 (some { demoSp with fmt := f }) } }
    { demoSp with fmt := f }

theorem witness_Conversions :
    Meets (cvtUses ⟨.int .si32, .elt .f32, .rtz, false, vd 3, vs 1⟩) (fun _ => ∀ fl, NoTrap demoW.fctl fl)
      ∧ Meets (cvtpUses ⟨.f16, .f32, .rne, false, vd 3, vs 1, vs 2⟩) (fun _ => ∀ fl, NoTrap demoW.fctl fl)
      ∧ Meets (cvtnUses plainHdr ⟨some .kf8e4, .f32, .rtz, true, .reg 9 .w8 3, vs 2⟩ 0) (fun _ => ∀ fl, NoTrap demoW.fctl fl)
      ∧ Meets (unpkUses plainHdr ⟨.elt .kf8e4, vd 3, vs 2⟩ 0) (fun _ => ∀ fl, NoTrap demoW.fctl fl)
      ∧ (∃ f w, fmtA f = EType.si8.code ∧ clearB { demo with waves := [(fmtX f).wv] } (fmtX f) plainHdr
        (dpUses ⟨.rne, vd 3, vs 1, vs 2, 4⟩ ((Instr.dp4 plainHdr ⟨.rne, vd 3, vs 1, vs 2, 4⟩).fmtFaults f)) = w ∧ w = true) := by
  refine ⟨?_, ?_, ?_, ?_, ⟨BitVec.ofNat 10 (EType.si8.code.toNat * 17 + 2 ^ 8), true, ?_, ?_, rfl⟩⟩
  · exact meets_of (by decide +kernel) (fun _ => no_any_trap)
  · exact meets_of (by decide +kernel) (fun _ => no_any_trap)
  · exact meets_of (by decide +kernel) (fun _ => no_any_trap)
  · exact meets_of (by decide +kernel) (fun _ => no_any_trap)
  · decide +kernel
  · decide +kernel

theorem witness_FormatsAndStreams :
    Meets {} (fun _ => True) ∧ Meets (dstUses (vd 3) 1) (fun _ => True) ∧ Meets (rngsetUses (vs 4)) (fun _ => True)
      ∧ Meets (rngUses (vd 4)) (fun L => demoW.ctr[L] ≠ BitVec.allOnes 64) := by
  refine ⟨?_, ?_, ?_, meets_of (by decide +kernel) (by decide +kernel)⟩ <;> exact meets_of (by decide +kernel) (fun _ => trivial)

/-! ## Witnesses: index registers, lane exchange, control flow, traps -/

/-- A register whose lane L holds `f L`. -/
def regOf (f : Lane → Nat) : VReg := { val := perLane fun L => BitVec.ofNat 32 (f L), tag := .gen, full := true, poison := allClean, bad := 0, mirrorBad := 0 }

/-- A uniform register. -/
def uniOf (n : Nat) : VReg := { regOf (fun _ => n) with tag := .uni }

/-- The wave of `demo` with registers set. -/
def withRegs (l : List (Nat × VReg)) : Wave := { demoW with regs := l }

/-- A state and its site, for a wave and a split in place 0. -/
def stateOf (wv : Wave) : State := { demo with waves := [wv] }

/-- The header of an instruction in no lane. -/
def noLane : Hdr := { plainHdr with neg := true }

/-- Nothing stands in the way of an instruction of `demo` with some registers set, and its arrival raises nothing. -/
def MeetsAt (s : State) (x : Site) (h : Hdr) (u : Uses) : Prop := Clear s x h u ∧ NoMismatch s x

theorem meetsAt_of {s : State} {x : Site} {h : Hdr} {u : Uses} (i : Issues s x) (n : x.sp.pc + 12 ≠ x.sp.rpc)
    (e : clearB s x h u = true) : MeetsAt s x h u := ⟨clear_of i e, .inl n⟩

/-- V7 holds descriptors BASE 8, BOUND 256 - 8 (their sum the greatest), and V9 lane numbers. -/
def idxW : Wave := withRegs [(7, uniOf (248 * 256 + 8)), (9, regOf (fun L => L.val))]

theorem witness_IndexRegisters :
    (MeetsAt (stateOf idxW) (siteOf idxW demoSp) plainHdr (xsetUses (vs 7))
        ∧ GoodDescriptor (uniformW (stateOf idxW) (siteOf idxW demoSp) plainHdr (xsetUses (vs 7)) 0))
      ∧ MeetsAt (stateOf idxW) (siteOf idxW demoSp) plainHdr (xidxUses (vs 9)) ∧ Meets (dstUses (vd 3) 1) (fun _ => True)
      ∧ Meets {} (fun _ => True) := by
  have i : Issues (stateOf idxW) (siteOf idxW demoSp) := ⟨rfl, rfl, rfl, by decide, by decide, by decide, by decide⟩
  refine ⟨⟨meetsAt_of i (by decide) (by decide +kernel), ?_⟩, meetsAt_of i (by decide) (by decide +kernel),
    meets_of (by decide +kernel) (fun _ => trivial), meets_of (by decide +kernel) (fun _ => trivial)⟩
  have e : uniformW (stateOf idxW) (siteOf idxW demoSp) plainHdr (xsetUses (vs 7)) 0 = 248 * 256 + 8 := by decide +kernel
  rw [e]; unfold GoodDescriptor; decide

theorem witness_LanePicks :
    Meets (lpickUses ⟨some 9, false, vd 7, ⟨1, false⟩, vs 10⟩) (fun _ => True)
      ∧ Meets (rdlaneUses ⟨true, vd 4, ⟨6, false⟩, .imm 31⟩) (fun _ => True)
      ∧ Meets (wrlaneUses ⟨false, vd 7, vs 1, .imm 31⟩) (fun _ => True) := by
  refine ⟨?_, ?_, ?_⟩ <;> exact meets_of (by decide +kernel) (fun _ => trivial)

theorem witness_LaneVotesAndFolds :
    Meets (pollPredUses 1 2) (fun _ => True) ∧ Meets (pollMaskUses (vd 3) 2) (fun _ => True) ∧ Meets (electUses 1) (fun _ => True)
      ∧ Meets (matchUses ⟨true, true, vd 4, vs 6⟩) (fun _ => True) ∧ Meets (reduxUses ⟨.add, true, .si32, vd 3, vs 1⟩) (fun _ => True)
      ∧ Meets (maxidxUses ⟨.f32, vd 3, vs 1⟩) (fun _ => True) := by
  refine ⟨?_, ?_, ?_, ?_, ?_, ?_⟩ <;> exact meets_of (by decide +kernel) (fun _ => trivial)

/-- A table of one split. -/
def oneSplit (sp : Split) : SplitTable := { SplitTable.empty with slots := SplitTable.empty.slots.set 0 (some sp) }

/-- A table in which the upper lanes wait at record 0 for the lower ones. -/
def merging : SplitTable :=
  { SplitTable.empty with
    slots := SplitTable.empty.slots.set 0 (some { demoSp with mask := 0xFFFF, link := 0, rpc := 24 })
    recs := SplitTable.empty.recs.set 0 (some ⟨fullMask, 24, 0xFFFFFFFF, 0xFFFF, 0xFFFF0000, 0, 31⟩) }

theorem witness_SplitsDivideAndMerge :
    ((oneSplit demoSp).split? 0 = some demoSp ∧ (oneSplit demoSp).divideFits demoSp 0xFFFF 24 = true
        ∧ demoSp.mask &&& ~~~(0xFFFF : Mask) ≠ 0 ∧ (12 : Word) ≠ 24 ∧ (36 : Word) ≠ 24)
      ∧ ∃ sp r, merging.split? 0 = some sp ∧ merging.rec? sp.link.toNat = some r ∧ r.pend &&& ~~~sp.mask &&& ~~~0 = 0
        ∧ r.mask &&& ~~~0 ≠ 0 ∧ r.pc ≠ r.rpc := by
  refine ⟨by decide, _, _, rfl, rfl, by decide, by decide, by decide⟩

/-- V5 is zero in the lower lanes, V6 counts down from the lane number, V9 holds a target. -/
def branchW : Wave :=
  withRegs [(5, regOf (fun L => L.val / 16)), (6, regOf (fun L => L.val + 1)), (9, uniOf 36)]

/-- Where it issues. -/
def branchX : Site := siteOf branchW demoSp

/-- V3 is empty. -/
def emptyW : Wave := withRegs [(3, { regOf (fun _ => 0) with full := false })]

theorem witness_Branches :
    let plain : Uses := { precise := true, checking := true }
    let s := stateOf branchW
    let m : Mask := maskOf fun L => (branchX.exec plainHdr).has L
      && decide ((operandW s branchX plainHdr { plain with srcs := [condUse 3 (plainSrc 5)] } 0 L = 0) = (true = true))
    (Clear s branchX plainHdr plain ∧ SigPasses s branchX 0 ∧ CanDivide s branchX (branchX.exec plainHdr) (target 0 (3 : BitVec 24)) (target 0 (2 : BitVec 20)))
      ∧ (Clear s branchX plainHdr { plain with srcs := [condUse 3 (plainSrc 5)] } ∧ m = 0xFFFF
        ∧ CanDivide s branchX 0xFFFF (target 0 (3 : BitVec 24)) (target 0 (2 : BitVec 20)))
      ∧ (Clear s branchX plainHdr { plain with srcs := [targetUse (vs 9)] } ∧ CanDivide s branchX (branchX.exec plainHdr) 36 (target 0 (2 : BitVec 20)))
      ∧ Clear s branchX plainHdr { plain with dst := some (.reg 2 .w32 0, 1) }
      ∧ Clear s branchX plainHdr { plain with srcs := [targetUse (vs 9)], dst := some (.reg 2 .w32 0, 1) }
      ∧ (Clear s branchX plainHdr { plain with srcs := [condUse 3 (plainSrc 6)], dst := some (.reg 6 .w32 0, 1) }
        ∧ CanDivide s branchX 0xFFFFFFFE (target 0 (3 : BitVec 24)) (target 0 (2 : BitVec 20)))
      ∧ Issues (stateOf emptyW) (siteOf emptyW demoSp) ∧ (emptyW.reg 3).full = false := by
  have i : Issues (stateOf branchW) branchX := ⟨rfl, rfl, rfl, by decide, by decide, by decide, by decide⟩
  refine ⟨⟨clear_of i (by decide +kernel), .inl (by decide), ?_, ?_⟩, ⟨clear_of i (by decide +kernel), by decide +kernel, ?_, ?_⟩,
    ⟨clear_of i (by decide +kernel), ?_, ?_⟩, clear_of i (by decide +kernel), clear_of i (by decide +kernel),
    ⟨clear_of i (by decide +kernel), ?_, ?_⟩, ⟨rfl, rfl, rfl, by decide, by decide, by decide, by decide⟩, rfl⟩ <;> decide +kernel

theorem witness_BlocksAndExits :
    Clear demo demoX plainHdr { checking := true } ∧ SigPasses demo demoX 0xFFFF ∧ NoMismatch demo demoX
      ∧ demo.checking demoW = false ∧ demoX.sp.pc + 12 ≠ demoX.sp.rpc ∧ demoW.live ≠ 0 := by
  exact ⟨clear_of demo_issues (by decide +kernel), .inl (by decide), .inl (by decide), by decide, by decide, by decide⟩

/-- The launch of `demo` with breakpoints. -/
def bkptS : State := { demo with launches := demo.launches.map (fun l => { l with bkpt := true }) }

theorem witness_PlainControl :
    Meets {} (fun _ => (∀ r ∈ demoW.regs, r.2.full = true) ∧ demoW.locks = [] ∧ (∀ f ∈ demoW.flights, f.pred = none)
        ∧ ∀ l, demo.launchOf demoW = some l → l.bkpt = false)
      ∧ (Clear (stateOf emptyW) (siteOf emptyW demoSp) plainHdr {} ∧ ∃ r ∈ emptyW.regs, r.2.full = false)
      ∧ (MeetsAt bkptS demoX plainHdr {} ∧ demoX.exec plainHdr ≠ 0 ∧ (∃ l, bkptS.launchOf demoW = some l ∧ l.bkpt = true)
        ∧ (demoW.life = .resident ∧ demoW.stopped = none ∧ demoW.stopping = none)
        ∧ demoW.flights = [] ∧ demoW.entering = [] ∧ demoW.faulting = none ∧ demoW.reinj = [] ∧ demoW.rq.length ≤ 8) := by
  refine ⟨meets_of (by decide +kernel) (fun _ => ⟨by decide, by decide, by decide, ?_⟩), ⟨clear_of ?_ (by decide +kernel), by decide⟩,
    meetsAt_of ⟨rfl, rfl, rfl, by decide, by decide, by decide, by decide⟩ (by decide) (by decide +kernel), by decide, ⟨_, rfl, rfl⟩, by decide,
      by decide⟩
  · intro l h; obtain rfl := Option.some.inj h; rfl
  · exact ⟨rfl, rfl, rfl, by decide, by decide, by decide, by decide⟩

/-- V4 holds an FCTL with rounding attribute 5, V5 the greatest FMT. -/
def swrW : Wave := withRegs [(4, uniOf (2 ^ 10 - 3)), (5, uniOf (768 + 12 * 16 + 12)), (6, uniOf 29), (7, regOf (fun L => if L = 0 then 255 else 127))]

/-- Its site. -/
def swrX : Site := siteOf swrW demoSp

theorem witness_SpecialRegisters :
    Meets (srdUses true (vd 4) 0x20) (fun _ => True)
      ∧ (∀ p ∈ [(SwrReg.fctl, (4 : VNum)), (.fmt, 5), (.mflags, 6), (.fstat, 7)],
        MeetsAt (stateOf swrW) swrX plainHdr (swrUses p.1 (vs p.2))
          ∧ ∀ L : Lane, GoodSpecial p.1 L (operandW (stateOf swrW) swrX plainHdr (swrUses p.1 (vs p.2)) 0 L).toNat) := by
  have i : Issues (stateOf swrW) swrX := ⟨rfl, rfl, rfl, by decide, by decide, by decide, by decide⟩
  refine ⟨meets_of (by decide +kernel) (fun _ => trivial), ?_⟩
  simp only [List.mem_cons, List.not_mem_nil, or_false, forall_eq_or_imp, forall_eq]
  refine ⟨⟨meetsAt_of i (by decide) (by decide +kernel), ?_⟩, ⟨meetsAt_of i (by decide) (by decide +kernel), ?_⟩,
    ⟨meetsAt_of i (by decide) (by decide +kernel), ?_⟩, ⟨meetsAt_of i (by decide) (by decide +kernel), ?_⟩⟩ <;>
    (simp only [GoodSpecial]; decide +kernel)

/-- The launch of `demo` with a handler, and blocks that are checked where `sig` says so. -/
def handledS (sig : Bool) (wv : Wave) : State :=
  { demo with
    waves := [wv]
    launches := demo.launches.map (fun l => { l with record := { l.record with handler := 0, sig := sig } }) }

/-- Its launch. -/
def handledL (sig : Bool) : Launch :=
  let l := Launch.fresh loaderRecord loaderDomain 0 0 0 none none 0 true
  { l with nextGl := 1, record := { loaderRecord with handler := 0, sig := sig } }

theorem can_trap (sig : Bool) (wv : Wave) (h : wv.launch = 0) (v : wv.level < 2) (c : wv.awaits none = false := by decide) :
    CanTrap (handledS sig wv) (siteOf wv demoSp) (handledL sig) := by
  refine ⟨c, ?_, ?_, v⟩
  · show (handledS sig wv).launches[wv.launch]? = _; rw [h]; rfl
  · cases sig <;> decide

theorem handled_issues (sig : Bool) : Issues (handledS sig demoW) demoX := by
  cases sig <;> exact ⟨rfl, rfl, rfl, by decide, by decide, by decide, by decide⟩

/-- An entry of the replay queue of kind `k` for the lanes `m`. -/
def entryOf (k : BitVec 3) (m : Mask) : RQEntry :=
  { kind := k, cause := 0, remain := m, pc := 0, w0 := 0, w1 := 0, w2 := 0, detail := 0, lw := Vector.replicate 12 ⟨perLane (fun _ => 0), allClean⟩, er := perLane (fun _ => 0)
    exec := m, fmt := 0, slot := 0, wait := none, dst := ⟨1, perLane (fun _ => 4), none, none⟩ }

/-- The cause that takes the trap, and another of the same cycle. -/
def firstTrap : TrapInfo := ⟨0x1A1, 0, fullMask, 0, 0, 0, 0, 0, some 12, none, none⟩
def secondTrap : TrapInfo := { firstTrap with slot := 1, pc := 24, resume := some 36, entry := some (entryOf 0 fullMask) }

/-- A wave two splits of which have raised a cause in the same cycle. -/
def pairW : Wave := { demoW with entering := [firstTrap, secondTrap] }

theorem witness_SoftwareTraps :
    (Clear (handledS false demoW) demoX plainHdr {} ∧ demoX.exec plainHdr ≠ 0 ∧ CanTrap (handledS false demoW) demoX (handledL false)
        ∧ demoW.flights = [] ∧ demoW.faulting = none ∧ demoW.reinj = [])
      ∧ (MeetsAt demo demoX noLane {} ∧ demoX.exec noLane = 0)
      ∧ ((handledS false pairW).waves[0]? = some pairW ∧ pairW.life ≠ .retired ∧ pairW.entering = [firstTrap, secondTrap]
        ∧ pairW.awaits firstTrap.flight = false ∧ pairW.level < 2 ∧ (handledS false pairW).launchOf pairW = some (handledL false)
        ∧ (handledL false).record.handler ≠ 0xFFFFFFFF ∧ (entryOf 0 fullMask).remain &&& ~~~pairW.gone ≠ 0) := by
  exact ⟨⟨clear_of (handled_issues false) (by decide +kernel), by decide, can_trap false demoW rfl (by decide), by decide, by decide, by decide⟩,
    ⟨meetsAt_of demo_issues (by decide) (by decide +kernel), by decide⟩, rfl, by decide, rfl, by decide, by decide, rfl, by decide, by decide⟩

/-- A wave at level 1, to resume at PC 12, with an entry of class 8. -/
def level1 : Wave :=
  { demoW with
    level := 1, frame := ⟨0x4000, 12, 0, 0, 0, 0⟩
    saved := [{ table := oneSplit demoSp, frame := ⟨0, 0, 0, 0, 0, 0⟩, rq := [], slot := 0, resume := some 12, killed := 0, killer := [], since := 0 }] }

/-- A handler whose level keeps nine entries to re-inject. -/
def fullW : Wave := { level1 with rq := List.replicate 9 (entryOf 1 1) }

theorem witness_ReturnsFromTraps :
    (Clear (stateOf level1) (siteOf level1 demoSp) plainHdr {} ∧ (siteOf level1 demoSp).exec plainHdr ≠ 0 ∧ level1.level ≠ 0
        ∧ (∃ f, level1.saved = [f] ∧ f.killed = 0 ∧ f.slot < 4 ∧ f.resume = some 12 ∧ f.table.split? f.slot = some demoSp
          ∧ demoSp.rpc ≠ 12 ∧ demoSp.rpc ≠ 24 ∧ ∀ k sp, k < 4 → f.table.split? k = some sp → sp.pc ≠ sp.rpc) ∧ level1.pending = [] ∧ ∀ e ∈ level1.rq, e.cause.toNat / 2 ^ 5 ≠ 8)
      ∧ (Clear (handledS false demoW) demoX plainHdr {} ∧ demoW.level = 0 ∧ CanTrap (handledS false demoW) demoX (handledL false))
      ∧ (MeetsAt demo demoX noLane {} ∧ demoX.exec noLane = 0)
      ∧ (Clear (stateOf fullW) (siteOf fullW demoSp) plainHdr {} ∧ (siteOf fullW demoSp).exec plainHdr ≠ 0 ∧ fullW.returnWaits = true)
      ∧ (Clear (stateOf level1) (siteOf level1 demoSp) plainHdr { hold := fun s w => ((s.waves[w]?).map (·.returnWaits)).getD false }
        ∧ ∀ g, (stateOf level1).groupOf level1 = some g → g.baton.waiting &&& bitOf level1.waveid = 0) := by
  refine ⟨⟨clear_of ⟨rfl, rfl, rfl, by decide, by decide, by decide, by decide⟩ (by decide +kernel), by decide, by decide,
    ⟨_, rfl, rfl, by decide, rfl, by decide, by decide, by decide, ?_⟩, by decide, by decide⟩, ⟨clear_of (handled_issues false) (by decide +kernel), rfl,
    can_trap false demoW rfl (by decide)⟩, ⟨meetsAt_of demo_issues (by decide) (by decide +kernel), by decide⟩,
    ⟨clear_of ⟨rfl, rfl, rfl, by decide, by decide, by decide, by decide⟩ (by decide +kernel), by decide, by decide⟩,
    ⟨clear_of ⟨rfl, rfl, rfl, by decide, by decide, by decide, by decide⟩ (by decide +kernel), fun g h => by cases h; decide⟩⟩
  intro k sp hk h
  have : (oneSplit demoSp).split? k = if k = 0 then some demoSp else none := by
    rcases (by omega : k = 0 ∨ k = 1 ∨ k = 2 ∨ k = 3) with rfl | rfl | rfl | rfl <;> rfl
  rw [this] at h
  split at h <;> cases h
  decide

/-- The same wave, whose level holds an entry of class 8 of the lower lanes. -/
def level1K : Wave :=
  { level1 with
    rq := [{ kind := 1, cause := 0x107, remain := 0xFFFF, pc := 0, w0 := 0, w1 := 0, w2 := 0, detail := 0
             lw := Vector.replicate 12 ⟨perLane (fun _ => 0), allClean⟩, er := perLane (fun _ => 0), exec := fullMask, fmt := 0, slot := 0
             wait := none, dst := ⟨1, perLane (fun _ => 4), none, none⟩ }] }

theorem witness_KillsAtReturn :
    Clear (stateOf level1K) (siteOf level1K demoSp) plainHdr {} ∧ (siteOf level1K demoSp).exec plainHdr ≠ 0 ∧ level1K.level ≠ 0
      ∧ ∃ e ∈ level1K.rq, e.cause.toNat / 2 ^ 5 = 8 ∧ e.remain.has 0 = true ∧ level1K.live.has 0 = true :=
  ⟨clear_of ⟨rfl, rfl, rfl, by decide, by decide, by decide, by decide⟩ (by decide +kernel), by decide, by decide,
    ⟨_, List.mem_singleton.mpr rfl, by decide, by decide, by decide⟩⟩

/-- A split that holds fewer lanes than its block began with. -/
def thinSp : Split := { demoSp with mask := 0xFFFF }
/-- Its wave. -/
def thinW : Wave := { demoW with table := oneSplit thinSp }

/-- The operands of BRA, BRC, BRX and RET, CALL, CALL.X and LOOP. -/
def checkingUses : List Uses :=
  let u : Uses := { precise := true, checking := true }
  [u, { u with srcs := [condUse 3 (plainSrc 5)] }, { u with srcs := [targetUse (vs 9)] }, { u with dst := some (.reg 2 .w32 0, 1) },
    { u with srcs := [targetUse (vs 9)], dst := some (.reg 2 .w32 0, 1) }, { u with srcs := [condUse 3 (plainSrc 6)], dst := some (.reg 6 .w32 0, 1) }]

/-- The wave of the branches, with a split that has lost a lane. -/
def thinBranchW : Wave := { thinW with regs := branchW.regs }

theorem witness_PreciseTraps :
    (Clear (handledS true demoW) demoX plainHdr { checking := true } ∧ CanTrap (handledS true demoW) demoX (handledL true)
        ∧ (handledS true demoW).checking demoW = true ∧ demoSp.nosig = false ∧ demoSp.hash ≠ 0)
      ∧ (Clear (handledS true thinW) (siteOf thinW thinSp) plainHdr { checking := true } ∧ (handledS true thinW).checking thinW = true
        ∧ thinSp.hash = 0xFFFF ∧ thinSp.mask ≠ thinSp.emask &&& ~~~thinW.gone)
      ∧ (Clear (handledS false demoW) demoX plainHdr (xsetUses (.imm 0))
        ∧ ¬GoodDescriptor (uniformW (handledS false demoW) demoX plainHdr (xsetUses (.imm 0)) 0))
      ∧ (∀ u ∈ checkingUses, Clear (handledS true branchW) (siteOf branchW demoSp) plainHdr u
        ∧ Clear (handledS true thinBranchW) (siteOf thinBranchW thinSp) plainHdr u)
      ∧ (handledS true branchW).checking branchW = true ∧ (handledS true thinBranchW).checking thinBranchW = true
      ∧ CanTrap (handledS true branchW) (siteOf branchW demoSp) (handledL true) ∧ CanTrap (handledS true thinBranchW) (siteOf thinBranchW thinSp) (handledL true)
      ∧ thinSp.mask ≠ thinSp.emask &&& ~~~thinBranchW.gone := by
  refine ⟨⟨clear_of (handled_issues true) (by decide +kernel), can_trap true demoW rfl (by decide), by decide, by decide, by decide⟩,
    ⟨clear_of ⟨rfl, rfl, rfl, by decide, by decide, by decide, by decide⟩ (by decide +kernel), by decide, rfl, by decide⟩,
    ⟨clear_of (handled_issues false) (by decide +kernel), ?_⟩, ?_, by decide, by decide, can_trap true branchW rfl (by decide),
    ⟨by decide, rfl, by decide, by decide⟩, by decide⟩
  · have e : uniformW (handledS false demoW) demoX plainHdr (xsetUses (.imm 0)) 0 = 0 := by decide +kernel
    rw [e]; unfold GoodDescriptor; decide
  · have i : Issues (handledS true branchW) (siteOf branchW demoSp) := ⟨rfl, rfl, rfl, by decide, by decide, by decide, by decide⟩
    have j : Issues (handledS true thinBranchW) (siteOf thinBranchW thinSp) := ⟨rfl, rfl, rfl, by decide, by decide, by decide, by decide⟩
    intro u h
    simp only [checkingUses, List.mem_cons, List.not_mem_nil, or_false] at h
    rcases h with rfl | rfl | rfl | rfl | rfl | rfl <;> exact ⟨clear_of i (by decide +kernel), clear_of j (by decide +kernel)⟩

/-! ## Witnesses: memory -/

/-- Accesses of the tests: ordinary and through a handle, at some scope. -/
def mf (sc : Scope) (o : Order) (w : MWidth) : MemF := ⟨sc, o, w, .dflt, .ordinary⟩

/-- Byte 0 of the page of `demo`, and the last byte at which an access of 8 bytes may begin in a pool granule. -/
def place0 : Lane → Phys := fun _ => ⟨0, 0, 0x5000⟩

theorem reaches_of {s : State} {x : Site} {m : Mask} {k : MemF} {hd : DWord} {g : GAcc} {ea : Lane → DWord} {q : Phys} (l : Launch) (a : DWord)
    (hl : s.launchOf x.wv = some l) (hh : k.space = .ordinary) (ha : ∀ L, ea L = a)
    (e : a.toNat % k.width.bytes = 0 ∧ (s.translate x.wv.die' l.domain a g.need).1.toOption = some q
      ∧ q.kind.toNat ≤ 2 ∧ s.keyUp (memKey q.kind q.pa) = true
      ∧ s.seenBad (some x.wv.coreNo) (memKey q.kind q.pa) k.width.bytes = false) : Reaches s x m k hd g ea (fun _ => q) := by
  refine ⟨fun h => ?_, l, hl, fun L _ => ?_⟩
  · rw [hh] at h; cases h
  · obtain ⟨a, b, c⟩ := e
    rw [ha L]
    exact ⟨a, ok_of b, c⟩

theorem witness_GlobalLoads :
    let o : LdOp := ⟨mf .sy .acq .w64, vd 4, vs 2, .imm 8⟩
    Meets (ldUses false o) (fun _ => True) ∧ Meets (ldUses true ⟨o.m, o.d, .imm 0, o.b⟩) (fun _ => True) ∧ demo.det demoW = false ∧ demoX.exec plainHdr ≠ 0
      ∧ Reaches (released demo demoX (scopeIn demo demoX o.m (handleIn demo demoX plainHdr (ldUses false o) 1)) o.m.order) demoX
          (demoX.exec plainHdr) o.m (handleIn demo demoX plainHdr (ldUses false o) 1) .load
          (address demo demoX plainHdr (ldUses false o) 0 o.m.space) (fun _ => ⟨0, 0, 0x5008⟩) := by
  refine ⟨meets_of (by decide +kernel) (fun _ => trivial), meets_of (by decide +kernel) (fun _ => trivial), by decide, by decide,
    reaches_of demoL 8 rfl rfl (by decide +kernel) (by decide +kernel)⟩

/-- V2 and V3 hold a place of the last element of the lane's tarn slice of 64 bytes. -/
def tarnW : Wave := withRegs [(2, uniOf 60)]

theorem witness_LocalLoads :
    let o : LdOp := ⟨mf .gp .plain .w32, vd 4, vs 2, .imm 8⟩
    let q : LdOp := ⟨mf .ln .plain .w32, vd 4, vs 2, .imm 0⟩
    (Meets (ldUses false o) (fun _ => True) ∧ PoolReaches demo demoX (demoX.exec plainHdr) o.m (handleIn demo demoX plainHdr (ldUses false o) 1)
        (address demo demoX plainHdr (ldUses false o) 0 o.m.space) (fun _ => (0, 2 * 2 ^ 14 + 8)))
      ∧ MeetsAt (stateOf tarnW) (siteOf tarnW demoSp) plainHdr (ldUses false q) ∧ (stateOf tarnW).launchOf tarnW = some demoL
      ∧ ∀ L, ((address (stateOf tarnW) (siteOf tarnW demoSp) plainHdr (ldUses false q) 0 .ordinary) L).toNat = 60 := by
  refine ⟨⟨meets_of (by decide +kernel) (fun _ => trivial), ⟨fun h => by simp [mf] at h, ?_⟩⟩,
    meetsAt_of ⟨rfl, rfl, rfl, by decide, by decide, by decide, by decide⟩ (by decide) (by decide +kernel), rfl, by decide +kernel⟩
  decide +kernel

/-- A load of V4 in flight for every lane, of generation `g`. -/
def flightOf (g : BitVec 16) : Flight :=
  { id := 9, entry := entryOf 1 fullMask, known := fullMask, dst := ⟨1, perLane (fun _ => 4), none, none⟩
    val := perLane (fun L => BitVec.ofNat 128 L.val), poison := allClean, gen := g, pred := none, lock := none, uni := false, racy := 0, raced := 0
    host := 0, ecc := 0, errSrc := 0, of := none, keys := [], width := 0, own := [] }

/-- A wave with a load in flight. -/
def loadingW (g : BitVec 16) : Wave := { demoW with flights := [flightOf g] }

theorem witness_MemoryResponses :
    ((stateOf (loadingW 0)).waves[0]? = some (loadingW 0) ∧ (loadingW 0).flights.find? (fun g => g.id == 9) = some (flightOf 0)
        ∧ (flightOf 0).entry.kind ≠ 5 ∧ (flightOf 0).entry.remain ≠ 0 ∧ (flightOf 0).entry.remain &&& ~~~(flightOf 0).known = 0
        ∧ (∀ g ∈ (loadingW 0).flights, g.of ≠ some (2 * 9))
        ∧ (flightOf 0).dst.Ok ∧ (flightOf 0).gen = (stateOf (loadingW 0)).genOf 0 (loadingW 0).coreNo (flightOf 0).dst.er[(0 : Lane)].toNat)
      ∧ (loadingW 1).flights.find? (fun g => g.id == 9) = some (flightOf 1)
        ∧ (flightOf 1).gen ≠ (stateOf (loadingW 1)).genOf 0 (loadingW 1).coreNo (flightOf 1).dst.er[(0 : Lane)].toNat := by
  refine ⟨⟨rfl, rfl, by decide, by decide, by decide, by decide, ⟨by decide, fun _ => by decide, fun h => by cases h⟩, by decide +kernel⟩, rfl,
    by decide +kernel⟩

/-- A flight that locks V20 to V23, and one that is to write P1. -/
theorem witness_SyncWaits : ∀ f ∈ [{ flightOf 0 with dst := ⟨4, perLane (fun _ => 20), some (20, 4), none⟩, lock := some (20, 4) },
      { flightOf 0 with pred := some (1, fullMask) }],
    let wv := { demoW with flights := [f] }
    Clear (stateOf wv) (siteOf wv demoSp) plainHdr {} ∧ (wv.locks ≠ [] ∨ ∃ f ∈ wv.flights, f.pred ≠ none) := by
  intro f h
  simp only [List.mem_cons, List.not_mem_nil, or_false] at h
  rcases h with rfl | rfl <;>
    exact ⟨clear_of ⟨rfl, rfl, rfl, by decide, by decide, by decide, by decide⟩ (by decide +kernel), by decide⟩

theorem witness_Stores :
    let o : StOp := ⟨mf .di .rel .w64, vs 6, vs 2, .imm 8⟩
    let p : StOp := ⟨mf .gp .plain .w8, vs 6, vs 2, .imm 16383⟩
    let q : StOp := ⟨mf .ln .plain .w32, vs 6, vs 2, .imm 0⟩
    (Meets (stUses o) (fun _ => True) ∧ demo.det demoW = false ∧ demoX.exec plainHdr ≠ 0 ∧ (demo.instanceOf demoW.coreNo).isSome = true
        ∧ (∀ r ∈ [o, ⟨mf .gp .plain .w64, vs 6, vs 2, .imm 8⟩],
          Reaches (fenceReleased demo demoX (scopeIn demo demoX r.m (handleIn demo demoX plainHdr (stUses r) 2)) r.m.order (pierTakes r.m.scope r.m.order)) demoX
            (demoX.exec plainHdr) r.m (handleIn demo demoX plainHdr (stUses r) 2) .store
            (address demo demoX plainHdr (stUses r) 1 r.m.space) (fun _ => ⟨0, 0, 0x5008⟩))
        ∧ StaysAtPier .gp .plain ∧ ¬StaysAtPier .di .rel)
      ∧ (Meets (stUses p) (fun _ => True) ∧ PoolReaches demo demoX (demoX.exec plainHdr) p.m (handleIn demo demoX plainHdr (stUses p) 2)
        (address demo demoX plainHdr (stUses p) 1 p.m.space) (fun _ => (0, 3 * 2 ^ 14 - 1)))
      ∧ (MeetsAt (stateOf tarnW) (siteOf tarnW demoSp) plainHdr (stUses q) ∧ (stateOf tarnW).launchOf tarnW = some demoL
        ∧ ∀ L, ((address (stateOf tarnW) (siteOf tarnW demoSp) plainHdr (stUses q) 1 .ordinary) L).toNat = 60)
      ∧ Meets (prefUses ⟨mf .sy .rlx .w32, vs 2, .imm 0⟩) (fun _ => True) := by
  refine ⟨⟨meets_of (by decide +kernel) (fun _ => trivial), by decide, by decide, by decide, ?_, by unfold StaysAtPier; decide, by unfold StaysAtPier; decide⟩,
    ⟨meets_of (by decide +kernel) (fun _ => trivial), ⟨fun h => by simp [mf] at h, by decide +kernel⟩⟩,
    ⟨meetsAt_of ⟨rfl, rfl, rfl, by decide, by decide, by decide, by decide⟩ (by decide) (by decide +kernel), rfl, by decide +kernel⟩,
    meets_of (by decide +kernel) (fun _ => trivial)⟩
  intro r h
  simp only [List.mem_cons, List.not_mem_nil, or_false] at h
  rcases h with rfl | rfl <;> exact reaches_of demoL 8 rfl rfl (by decide +kernel) (by decide +kernel)

/-- `WordsFine` where every lane names one place whose words are all readable. -/
theorem wordsFine_of {s : State} {x : Site} {m : Mask} {f : MemF} (q : Phys)
    (e : s.seenBad (some x.wv.coreNo) (memKey q.kind q.pa) f.width.bytes = false) : WordsFine s x m f (fun _ => q) :=
  fun _ _ => e

theorem witness_Atomics :
    let a : AtomF' := ⟨mf .sy .ar .w32, .int .add .ui32, vd 6, vs 2, .ofs 8⟩
    let c : CasF := ⟨mf .sy .rlx .w64, vd 8, 1, vs 2, .ofs 8⟩
    let r : RedF := ⟨mf .sy .rlx .w32, .int .add .ui32, vs 6, vs 2, .ofs 8⟩
    let as : AtomF' := ⟨mf .gp .rlx .w32, .int .max .si32, vd 6, vs 2, .ofs 8⟩
    let cs : CasF := ⟨mf .gp .rlx .w32, vd 8, 1, vs 2, .ofs 8⟩
    let m : Mask := demoX.exec plainHdr
    let goes (u : Uses) (f : MemF) (g : GAcc) : Prop :=
      let hd := handleIn demo demoX plainHdr u 2
      Reaches (fenceReleased demo demoX (scopeIn demo demoX f hd) f.order false) demoX m f
          hd g (atomAddress demo demoX plainHdr u (.ofs 8)) (fun _ => ⟨0, 0, 0x5008⟩)
        ∧ WordsFine (rmwReady demo demoX f hd m (fun _ => ⟨0, 0, 0x5008⟩)) demoX m f (fun _ => ⟨0, 0, 0x5008⟩)
    let lies (u : Uses) (f : MemF) : Prop :=
      PoolReaches demo demoX m f (handleIn demo demoX plainHdr u 2) (atomAddress demo demoX plainHdr u (.ofs 8)) (fun _ => (0, 2 * 2 ^ 14 + 8))
    (Meets (atUses a) (fun _ => True) ∧ goes (atUses a) a.m .atomic) ∧ (Meets (casUses c) (fun _ => True) ∧ goes (casUses c) c.m .atomic)
      ∧ (Meets (redUses r) (fun _ => True) ∧ goes (redUses r) r.m .red) ∧ (Meets (atUses as) (fun _ => True) ∧ lies (atUses as) as.m)
      ∧ (Meets (casUses cs) (fun _ => True) ∧ lies (casUses cs) cs.m) ∧ m ≠ 0 ∧ demo.det demoW = false := by
  refine ⟨⟨meets_of (by decide +kernel) (fun _ => trivial), reaches_of demoL 8 rfl rfl (by decide +kernel) (by decide +kernel), wordsFine_of ⟨0, 0, 0x5008⟩ (by decide +kernel)⟩,
    ⟨meets_of (by decide +kernel) (fun _ => trivial), reaches_of demoL 8 rfl rfl (by decide +kernel) (by decide +kernel), wordsFine_of ⟨0, 0, 0x5008⟩ (by decide +kernel)⟩,
    ⟨meets_of (by decide +kernel) (fun _ => trivial), reaches_of demoL 8 rfl rfl (by decide +kernel) (by decide +kernel), wordsFine_of ⟨0, 0, 0x5008⟩ (by decide +kernel)⟩,
    ⟨meets_of (by decide +kernel) (fun _ => trivial), ⟨fun h => by simp [mf] at h, by decide +kernel⟩⟩,
    ⟨meets_of (by decide +kernel) (fun _ => trivial), ⟨fun h => by simp [mf] at h, by decide +kernel⟩⟩, by decide, by decide⟩

/-- The handle of core 0's instance in `demo`, and a wave that holds it in V2. -/
def handleW0 : DWord := demo.handleAt 0
def handleW : Wave := withRegs [(2, uniOf (handleW0.toNat % 2 ^ 32)), (3, uniOf (handleW0.toNat / 2 ^ 32))]

theorem witness_FencesAndCaches :
    let o : FenceOp := ⟨.di, .rel, none⟩
    Meets (fenceUses o) (fun _ => True) ∧ Meets (fenceUses ⟨.co, .rel, none⟩) (fun _ => True) ∧ demoX.exec plainHdr ≠ 0
      ∧ demo.det demoW = false ∧ (demo.pier (some demoX.wv.coreNo)).Pairwise (fun a b => a.1 < b.1)
      ∧ (∀ c ∈ demo.pier (some demoX.wv.coreNo), demo.keyUp c.1 = true)
      ∧ (∀ sc ∈ [Scope.co, .di, .sy], ∀ a ∈ [none, some (vs 2)], Meets (cctlUses ⟨sc, .wb, a⟩) (fun _ => True)) ∧ ¬ToMemory .co ∧ ToMemory .sy
      ∧ (∀ sc ∈ [Scope.co, .di, .pk], Meets { hold := fun s w => s.entriesRead w sc } (fun _ => True)) ∧ demo.launchOf demoW = some demoL
      ∧ (MeetsAt (stateOf handleW) (siteOf handleW demoSp) plainHdr (fenceUses ⟨.sp, .rel, some (vs 2)⟩)
        ∧ handleIn (stateOf handleW) (siteOf handleW demoSp) plainHdr (fenceUses ⟨.sp, .rel, some (vs 2)⟩) 0 = handleW0
        ∧ handleBad handleW0 = false ∧ (stateOf handleW).handleScope 0 handleW0 = .sp ∧ (stateOf handleW).det handleW = false
        ∧ ((stateOf handleW).instanceOf 0).isSome = true) := by
  refine ⟨meets_of (by decide +kernel) (fun _ => trivial), meets_of (by decide +kernel) (fun _ => trivial), by decide, by decide, by decide,
    by decide, ?_, by unfold ToMemory; decide, .inr (.inr rfl), ?_, rfl, meetsAt_of ⟨rfl, rfl, rfl, by decide, by decide, by decide, by decide⟩ (by decide) (by decide +kernel),
    by decide +kernel, by decide, by decide, by decide, by decide⟩
  · intro sc hs a ha
    simp only [List.mem_cons, List.not_mem_nil, or_false] at hs ha
    rcases hs with rfl | rfl | rfl <;> rcases ha with rfl | rfl <;> exact meets_of (by decide +kernel) (fun _ => trivial)
  · intro sc hs
    simp only [List.mem_cons, List.not_mem_nil, or_false] at hs
    rcases hs with rfl | rfl | rfl <;> exact meets_of (by decide +kernel) (fun _ => trivial)

/-! ## Witnesses: engines -/

/-- An object of F32 elements, one dimension of 8, that may be copied and stored to. -/
def demoObj : ObjEntry :=
  { base := 0x100, fmt := 0, dims := 2, r := true, w := true, atom := true, copy := true, valid := true, ext := [3, 2, 0, 0, 0], stride := [4, 16, 0, 0, 0] }

/-- A wave with a layout in V4, an address in V8, a box of 3 by 2 by 1 in V10, coordinates in V12, a shape of 2 rows and 3 columns in V16, a tile
control word in V17 and lane numbers in V18. -/
def engW : Wave :=
  withRegs [(4, uniOf (2 * 2 ^ 20 + 16320)), (5, uniOf (4 + 16 * 2 ^ 16)), (6, uniOf 0), (8, uniOf 16), (9, uniOf 0), (10, uniOf (3 + 2 * 2 ^ 16)), (11, uniOf 1), (12, uniOf 0), (13, uniOf 0), (14, uniOf 0), (15, uniOf 0),
    (16, uniOf (2 + 3 * 2 ^ 8)), (17, uniOf (2 * 2 ^ 4 + 3 * 2 ^ 11)), (18, regOf (fun L => L.val))]

/-- The group: it holds the baton, tile 1 is of 2 rows and 3 columns of F32. -/
def engG : Group :=
  { loaderGroup 0 0 with
    baton := { (loaderGroup 0 0).baton with holder := some 0 }, tc := (loaderGroup 0 0).tc.setIfInBounds 1 (BitVec.ofNat 32 (2 * 2 ^ 4 + 3 * 2 ^ 11)) }

/-- The launch, whose domain has one object. -/
def engL : Launch := { demoL with domain := { loaderDomain with otSize := 1 } }

/-- The state. -/
def engS : State :=
  ({ demo with waves := [engW], groups := [engG], launches := [engL] }).withCore 0 (fun c => { c with ot := [(loaderDomain.id, 0, demoObj)] })

/-- The site. -/
def engX : Site := siteOf engW demoSp

theorem eng_issues : Issues engS engX := ⟨rfl, rfl, rfl, by decide, by decide, by decide, by decide⟩

theorem eng_acts {u : Uses} (e : clearB engS engX plainHdr (grp u) = true) : Acts engS engX plainHdr u engG :=
  ⟨clear_of eng_issues e, .inl (by decide), by decide, rfl⟩

/-- The uses of COPY and COPYO. -/
def copyU (o : CopyOp) (k : Nat) : Uses := grp { srcs := [engUse 0 (plainSrc o.lw.r o.lw.fe) 3 3, engUse 1 o.a k 0, engUse 2 o.b 2 3], hold := State.edgeWaits }

theorem witness_CopyInstructions :
    let o : CopyOp := ⟨true, ⟨4, false⟩, vs 8, vs 10⟩
    let q : CopyOp := ⟨true, ⟨4, false⟩, vs 12, vs 10⟩
    let l : Layout := ⟨0, 4, 16320, 4, 16, 0⟩
    (Clear engS engX plainHdr (copyU o 2) ∧ NoMismatch engS engX ∧ engX.exec plainHdr ≠ 0 ∧ engS.groupOf engW = some engG
        ∧ layoutOf (uniform engS engX plainHdr (copyU o 2) 0) = some l ∧ (uniform engS engX plainHdr (copyU o 2) 1).toNat % 2 ^ 64 = 16
        ∧ (uniform engS engX plainHdr (copyU o 2) 2).toNat = 3 + 2 * 2 ^ 16 + 2 ^ 32
        ∧ ∀ i0 < 3, ∀ i1 < 2, l.place i0 i1 0 + 4 ≤ scratch engG)
      ∧ (Clear engS engX plainHdr (copyU q 4) ∧ engS.launchOf engW = some engL ∧ layoutOf (uniform engS engX plainHdr (copyU q 4) 0) = some l
        ∧ uniform engS engX plainHdr (copyU q 4) 1 = 0 ∧ (∀ r, ∃ s', engS.object engW.coreNo 0 engL.domain 0 r = .entry demoObj s')
        ∧ objBytes demoObj.fmt = 4 ∧ ∀ i0 < 3, ∀ i1 < 2, demoObj.inside [i0, i1, 0, 0, 0] = true) := by
  refine ⟨⟨clear_of eng_issues (by decide +kernel), .inl (by decide), by decide, rfl, by decide +kernel, by decide +kernel, by decide +kernel, by decide⟩,
    clear_of eng_issues (by decide +kernel), rfl, by decide +kernel, by decide +kernel, fun _ => ⟨_, rfl⟩, by decide, by decide⟩

/-- A wave whose batch 1 is closed; V2 and V3 hold batch numbers 1 and 2. -/
def batchW : Wave := { withRegs [(2, uniOf 1), (3, uniOf 2)] with closedC := 1 }

/-- A copy operation of 4-byte elements of batch 1 of wave 0: `elts` are still to be performed. -/
def copyOf (s2g : Bool) (elts : List (Nat × DWord)) : CopyE :=
  { wave := 0, batch := 1, s2g := s2g, es := 4, elts := elts, pc := 0, w0 := 0, w1 := 0, w2 := 0, wait := none, order := 0, started := false, done := false }

/-- The wave's state, in a launch with a handler, with copy operations. -/
def batchS (l : List CopyE) : State := { handledS false batchW with copies := l }

theorem batch_issues (l : List CopyE) : Issues (batchS l) (siteOf batchW demoSp) := ⟨rfl, rfl, rfl, by decide, by decide, by decide, by decide⟩

/-- The uses of BWAIT and BTEST. -/
def batchU (a : Src) : Uses := { srcs := [{ fld := 1, src := a, uniform := true }] }

theorem witness_Batches :
    (∀ m, Meets { dst := some (vd 3, 1), hold := fun s w => decide (s.openClosed w m ≥ 16) } (fun _ => True))
      ∧ (Clear (batchS []) (siteOf batchW demoSp) plainHdr (batchU (vs 2)) ∧ uniformW (batchS []) (siteOf batchW demoSp) plainHdr (batchU (vs 2)) 0 = 1
        ∧ (batchS []).batchDone 0 false 1 = true ∧ (batchS []).det batchW = false)
      ∧ (Clear (batchS [copyOf true [(0, 0)]]) (siteOf batchW demoSp) plainHdr (batchU (vs 2))
        ∧ (batchS [copyOf true [(0, 0)]]).batchDone 0 false 1 = false)
      ∧ (∀ p : PNum, Clear (batchS []) (siteOf batchW demoSp) plainHdr { batchU (vs 2) with preds := [p] })
      ∧ (Clear (batchS []) (siteOf batchW demoSp) plainHdr (batchU (vs 3)) ∧ CanTrap (batchS []) (siteOf batchW demoSp) (handledL false)
        ∧ uniformW (batchS []) (siteOf batchW demoSp) plainHdr (batchU (vs 3)) 0 = 2 ∧ (batchW.closed false - 2).toNat ≥ 2 ^ 31) := by
  refine ⟨fun m => by cases m <;> exact meets_of (by decide +kernel) (fun _ => trivial),
    ⟨clear_of (batch_issues _) (by decide +kernel), by decide +kernel, by decide, by decide⟩, ⟨clear_of (batch_issues _) (by decide +kernel), by decide⟩,
    fun p => clear_of (batch_issues _) (by revert p; decide +kernel),
    clear_of (batch_issues _) (by decide +kernel), ⟨by decide, rfl, by decide, by decide⟩, by decide +kernel, by decide⟩

/-- The state of `demo` with one copy operation of `elts`. -/
def copyS (s2g : Bool) (elts : List (Nat × DWord)) : State := { demo with copies := [copyOf s2g elts] }

theorem witness_CopyEngine :
    ((copyS true []).det demoW = false ∧ (copyS true []).copyBusy 0 = false)
      ∧ ∀ d, let s := copyS d [(16380, 0x104)]
        s.groupOf demoW = some (loaderGroup 0 0) ∧ s.launchOf demoW = some demoL ∧ s.copyBusy 0 = false
          ∧ (s.elMeet 0 demoL.domain (if d then .write else .read) 0x0E9 0x104 4) = .runs [(⟨0, 0, 0x5104⟩, 0, 4)]
          ∧ s.keyUp (keyOf ⟨0, 0, 0x5104⟩ 0) = true ∧ s.seenBad (some 0) (keyOf ⟨0, 0, 0x5104⟩ 0) 4 = false ∧ (s.instanceOf 0).isSome = true
          ∧ s.residue = none ∧ s.power.pause = 0 ∧ (loaderGroup 0 0).scr.Nodup ∧ 16380 + 4 ≤ scratch (loaderGroup 0 0) ∧ (∀ i < 4, (s.coreAt 0).poolBad.contains ((scrAddr [2] (16380 + i)).getD 0 / 4) = false) := by
  refine ⟨by decide, fun d => ?_⟩
  cases d <;> exact ⟨rfl, rfl, by decide, by decide +kernel, by decide, by decide, by decide, rfl, rfl, by decide, by decide, by decide⟩

/-- The layout that V4 to V6 of `engW` hold. -/
def engLay : Layout := ⟨0, 4, 16320, 4, 16, 0⟩

theorem eng_fits (r c : Nat) (hr : r < 2) (hc : c < 3) : engLay.place ((fun c => c) c) r 0 + 4 ≤ scratch engG := by
  simp only [engLay, Layout.place, scratch]; show _ ≤ 1 * 2 ^ 14; simp; omega

theorem engS_holds : Holds engX engG := ⟨rfl, rfl⟩

theorem witness_TileInstructions :
    let ul : Uses := { srcs := [engUse 0 (plainSrc 4) 3 3], hold := State.edgeWaits }
    let uc : Uses := { srcs := [engUse 1 (vs 17) 1 3] }
    (Acts engS engX plainHdr uc engG ∧ GoodTile (uniformW engS engX plainHdr (grp uc) 0).toNat)
      ∧ (Acts engS engX plainHdr ul engG ∧ tcRows (engG.tcOf 1) = 2 ∧ tcCols (engG.tcOf 1) = 3 ∧ tcWidth (engG.tcOf 1) = 32
        ∧ GoodLayout engS engX plainHdr (grp ul) engG engLay 4 2 3 (fun c => c))
      ∧ Acts engS engX plainHdr { hold := State.edgeWaits } engG := by
  have e : (uniformW engS engX plainHdr (grp { srcs := [engUse 1 (vs 17) 1 3] }) 0).toNat = 2 * 2 ^ 4 + 3 * 2 ^ 11 := by decide +kernel
  refine ⟨⟨eng_acts (by decide +kernel), ?_⟩, ⟨eng_acts (by decide +kernel), by decide, by decide, by decide,
    by decide +kernel, rfl, eng_fits⟩, eng_acts (by decide +kernel)⟩
  rw [e]; unfold GoodTile; decide

theorem witness_MatrixProducts :
    (Acts engS engX plainHdr { fmt := (Instr.mma plainHdr ⟨0, 1, 1⟩).fmtFaults 0, hold := State.edgeWaits } engG ∧ GoodProduct engX engG ⟨0, 1, 1⟩ false)
      ∧ (Acts (handledS false demoW) demoX plainHdr { fmt := (Instr.mma plainHdr ⟨0, 1, 1⟩).fmtFaults 0, hold := State.edgeWaits } (loaderGroup 0 0)
        ∧ ¬Holds demoX (loaderGroup 0 0) ∧ CanTrap (handledS false demoW) demoX (handledL false)) := by
  refine ⟨⟨eng_acts (by decide +kernel), by unfold GoodProduct; decide⟩,
    ⟨clear_of (handled_issues false) (by decide +kernel), .inl (by decide), by decide, rfl⟩, fun h => absurd h.1 (by decide),
    can_trap false demoW rfl (by decide)⟩

/-- The operands of ACLD and its like. -/
def accU : Uses := { srcs := [engUse 0 (plainSrc 4) 3 3, engUse 2 (vs 16) 1 3], hold := State.edgeWaits }

theorem witness_AccumulatorTransfers :
    let uq : Uses := { srcs := [engUse 1 (vs 12) 4 3, engUse 2 (vs 16) 1 3], hold := State.edgeWaits }
    let ur (w64 : Bool) : Uses :=
      { srcs := [{ fld := 2, src := vs 18, consume := some 3 }], dst := some (vd 20, if w64 then 2 else 1) }
    (Acts engS engX plainHdr { hold := State.edgeWaits } engG ∧ Holds engX engG ∧ 0 < engG.acc.length)
      ∧ (Acts engS engX plainHdr accU engG ∧ uniformW engS engX plainHdr (grp accU) 1 = 2 + 3 * 2 ^ 8 ∧ GoodShape .f32 (2 + 3 * 2 ^ 8)
        ∧ GoodLayout engS engX plainHdr (grp accU) engG engLay 4 2 3 (fun c => c))
      ∧ (Acts engS engX plainHdr uq engG ∧ uniform engS engX plainHdr (grp uq) 0 = 0 ∧ uniformW engS engX plainHdr (grp uq) 1 = 2 + 3 * 2 ^ 8
        ∧ (∀ r, ∃ s', engS.object engW.coreNo 0 engL.domain 0 r = .entry demoObj s')
        ∧ ∀ p ∈ rect 2 3, (demoObj.addr (objCoords 0 (p.2, p.1, 0))).toNat % 4 = 0 ∧ demoObj.inside (objCoords 0 (p.2, p.1, 0)) = true)
      ∧ ∀ w64 : Bool, Acts engS engX plainHdr (ur w64) engG ∧ ∀ L : Lane, (operandW engS engX plainHdr (grp (ur w64)) 0 L).toNat = L.val := by
  refine ⟨⟨eng_acts (by decide +kernel), engS_holds, by decide⟩,
    ⟨eng_acts (by decide +kernel), by decide +kernel, by unfold GoodShape; decide, by decide +kernel, rfl, eng_fits⟩,
    ⟨eng_acts (by decide +kernel), by decide +kernel, by decide +kernel, fun _ => ⟨_, rfl⟩, by decide⟩, fun w64 => ?_⟩
  cases w64 <;> exact ⟨eng_acts (by decide +kernel), by decide +kernel⟩

/-- An operation in the queue of core 0, for wave 0 and its group. -/
def headOf (k : MatKind) : MatE :=
  { wave := 0, group := 0, batch := some 1, kind := k, pc := 0, w0 := 0, w1 := 0, w2 := 0, wait := none, order := 0, started := false }

/-- The state of `demo` with one operation in the queue. -/
def headS (k : MatKind) : State := demo.withCore 0 (fun c => { c with mq := [headOf k] })

/-- The flight of an ACRD, and a wave with it. -/
def acrdW : Wave := { demoW with flights := [flightOf 0] }

theorem head_ready (k : MatKind) : HeadReady (headS k) 0 (headOf k) [] (loaderGroup 0 0) demoW ∧ HeadSound (headS k) 0 :=
  ⟨⟨rfl, rfl, rfl, rfl, ⟨rfl, rfl⟩, .inl rfl⟩, rfl, rfl, rfl⟩

theorem witness_MatrixEngine :
    (∀ k, HeadReady (headS k) 0 (headOf k) [] (loaderGroup 0 0) demoW ∧ HeadSound (headS k) 0) ∧ (loaderGroup 0 0).acc[0]? = some 3
      ∧ (∀ w ∈ [4, 8, 16, 32, 64], (7 * 1024 + 3 * w) % w = 0 ∧ InScratch (loaderGroup 0 0) (16384 - (w + 7) / 8) ((w + 7) / 8))
      ∧ (∀ es ∈ [4, 8], InScratch (loaderGroup 0 0) (16384 - es) es)
      ∧ ((handledS false demoW).launchOf demoW).isSome = true
      ∧ (∀ c ∈ [0x0E0, 0x0E9], (headS (.acstg 0 .f32 true [(0, 0x104)])).elMeet 0 demoL.domain .atomic c 0x104 4 = .runs [(⟨0, 0, 0x5104⟩, 0, 4)])
      ∧ (headS (.acstg 0 .f32 true [(0, 0x104)])).launchOf demoW = some demoL
      ∧ demo.keyUp (keyOf ⟨0, 0, 0x5104⟩ 0) = true ∧ demo.seenBad (some 0) (keyOf ⟨0, 0, 0x5104⟩ 0) 4 = false ∧ (demo.instanceOf 0).isSome = true
      ∧ (let k : MatKind := .acrd 0 false 9 ((Mask.lanes fullMask).map (fun L => (L, L.val)))
        let s := { headS k with waves := [acrdW] }
        HeadReady s 0 (headOf k) [] (loaderGroup 0 0) acrdW ∧ HeadSound s 0 ∧ acrdW.flights.find? (fun g => g.id == 9) = some (flightOf 0)
          ∧ (flightOf 0).entry.remain = fullMask ∧ (flightOf 0).dst.Ok ∧ (flightOf 0).uni = false ∧ (flightOf 0).pred = none
          ∧ (flightOf 0).gen = s.genOf 0 acrdW.coreNo (flightOf 0).dst.er[(0 : Lane)].toNat)
      ∧ (∀ c ∈ [0, 5, 0x11, 0x12, 0x66, 0x77, 0x88, 0x1A9, 0x1BC], mmaFormats (BitVec.ofNat 10 (if c = 5 then 0x55 else c)) = true) := by
  refine ⟨head_ready, rfl, ?_, ?_, rfl, by decide +kernel, rfl, by decide, by decide, by decide,
    ⟨⟨rfl, rfl, rfl, rfl, ⟨rfl, rfl⟩, .inl rfl⟩, ⟨rfl, rfl, rfl⟩, rfl, rfl, ⟨by decide, fun _ => by decide, fun h => by cases h⟩, rfl, rfl, by decide +kernel⟩, by decide⟩
  · unfold InScratch; decide
  · unfold InScratch; decide

/-! ## Witnesses: the baton, barriers, spans, tasks, the replay queue -/

/-- A state of the wave `wv` alone in the group `g`, in a launch with a handler. -/
def groupS (wv : Wave) (g : Group) : State := { handledS false wv with groups := [g] }

theorem group_acts {wv : Wave} {g : Group} {u : Uses} (e : clearB (groupS wv g) (siteOf wv demoSp) plainHdr (grp u) = true)
    (hg : (groupS wv g).groupOf wv = some g) (ha : wv.life ≠ .retired) (ht : wv.table.split? 0 = some demoSp)
    (hx : (siteOf wv demoSp).exec plainHdr ≠ 0) (hf : ∀ f ∈ wv.flights, f.entry.kind = 5 → f.entry.slot ≠ 0 := by decide) :
    Acts (groupS wv g) (siteOf wv demoSp) plainHdr u g :=
  ⟨clear_of ⟨rfl, rfl, ht, (by decide : 0 < 4), ha, (by decide : fullMask ≠ 0), rfl, hf⟩ e,
    .inl (by decide : (0 : Word) + 12 ≠ 0xFFFFFFFF), hx, hg⟩

/-- The group of `demo` with its baton held by `o`, and waited for by `wt`. -/
def batonG (o : Option (BitVec 4)) (wt : BitVec 16) : Group :=
  { loaderGroup 0 0 with baton := { (loaderGroup 0 0).baton with holder := o, waiting := wt } }

theorem witness_Baton :
    (∀ o ∈ [(none : Option (BitVec 4)), some 0, some 5], ∀ wt ∈ [(0 : BitVec 16), 0x8008], Acts (groupS demoW (batonG o wt)) demoX plainHdr {} (batonG o wt)
        ∧ Acts (groupS demoW (batonG o wt)) demoX plainHdr { hold := State.edgeWaits } (batonG o wt)
        ∧ (groupS demoW (batonG o wt)).det demoW = false)
      ∧ Holds demoX (batonG (some 0) 0x8008) ∧ ¬Holds demoX (batonG (some 5) 0) ∧ (0x8008 : BitVec 16).getLsbD 3 = true
      ∧ (∀ m : BitVec 4, m < 3 → (0x8008 : BitVec 16).getLsbD m.toNat = false)
      ∧ (Acts (groupS demoW (batonG (some 0) 0)) demoX plainHdr { srcs := [engUse 2 (.imm 0) 1 3], hold := State.edgeWaits } (batonG (some 0) 0)
        ∧ ∃ v ∈ (batonG (some 0) 0).waves, ∃ wv, (groupS demoW (batonG (some 0) 0)).waves[v]? = some wv ∧ wv.waveid = 0 ∧ wv.life = .resident ∧ wv.live ≠ 0)
      ∧ Acts (groupS demoW (batonG none 0)) demoX plainHdr { dst := some (vd 3, 1) } (batonG none 0)
      ∧ CanTrap (groupS demoW (batonG (some 5) 0)) demoX (handledL false) := by
  refine ⟨?_, ⟨rfl, rfl⟩, fun h => absurd h.1 (by decide), by decide, by decide,
    ⟨group_acts (by decide +kernel) rfl (by decide) rfl (by decide), ⟨0, by decide, demoW, rfl, rfl, rfl, by decide⟩⟩,
    group_acts (by decide +kernel) rfl (by decide) rfl (by decide), ⟨by decide, rfl, by decide, by decide⟩⟩
  intro o ho wt hw
  simp only [List.mem_cons, List.not_mem_nil, or_false] at ho hw
  rcases ho with rfl | rfl | rfl <;> rcases hw with rfl | rfl <;>
    exact ⟨group_acts (by decide +kernel) rfl (by decide) rfl (by decide), group_acts (by decide +kernel) rfl (by decide) rfl (by decide), by decide⟩

/-- The group with barrier 1 of members `m` of which `a` have arrived. -/
def barG (m a : BitVec 16) : Group := { loaderGroup 0 0 with barriers := (loaderGroup 0 0).barriers.set 1 ⟨m, a, false, 0⟩ }

theorem witness_Barriers :
    (Acts (groupS demoW (barG 1 0)) demoX plainHdr { srcs := [engUse 1 (.imm 1) 1 2] } (barG 1 0)
        ∧ LiveMember (groupS demoW (barG 1 0)) (barG 1 0) 0 ∧ ((barG 1 0).bar 1).arr = 0)
      ∧ (∀ m ∈ [(1 : BitVec 16), 3, 2], Acts (groupS demoW (barG m 0)) demoX plainHdr { hold := State.edgeWaits } (barG m 0)
        ∧ CanTrap (groupS demoW (barG m 0)) demoX (handledL false))
      ∧ (arrivedAt ((barG 1 0).bar 1) 0 false).phase = true ∧ (arrivedAt ((barG 3 0).bar 1) 0 false).phase = false
      ∧ (Acts (groupS demoW (barG 2 2)) demoX plainHdr { hold := State.edgeWaits } (barG 2 2) ∧ (arrivedAt ((barG 2 2).bar 1) 0 false).phase = true)
      ∧ ((barG 2 0).bar 1).mem &&& bitOf demoW.waveid = 0 ∧ ((barG 3 0).bar 1).mem &&& bitOf demoW.waveid ≠ 0
      ∧ (∀ p ∈ [(0 : BitVec 18), 0x10000], Acts (groupS demoW (barG 1 0)) demoX plainHdr { srcs := [engUse 1 (.imm p) 1 2] } (barG 1 0))
      ∧ Acts (groupS demoW (barG 3 0)) demoX plainHdr { hold := State.edgeWaits, dst := some (vd 3, 1) } (barG 3 0)
      ∧ Acts (groupS demoW (barG 2 0)) demoX plainHdr { hold := State.edgeWaits, dst := some (vd 3, 1) } (barG 2 0) := by
  refine ⟨⟨group_acts (by decide +kernel) rfl (by decide) rfl (by decide), ⟨0, by decide, demoW, rfl, rfl, rfl, by decide⟩, rfl⟩, ?_, rfl, rfl,
    ⟨group_acts (by decide +kernel) rfl (by decide) rfl (by decide), rfl⟩, rfl, by decide, ?_, group_acts (by decide +kernel) rfl (by decide) rfl (by decide), group_acts (by decide +kernel) rfl (by decide) rfl (by decide)⟩
  · intro m hm
    simp only [List.mem_cons, List.not_mem_nil, or_false] at hm
    rcases hm with rfl | rfl | rfl <;> exact ⟨group_acts (by decide +kernel) rfl (by decide) rfl (by decide), ⟨by decide, rfl, by decide, by decide⟩⟩
  · intro p hp
    simp only [List.mem_cons, List.not_mem_nil, or_false] at hp
    rcases hp with rfl | rfl <;> exact group_acts (by decide +kernel) rfl (by decide) rfl (by decide)

/-- The handle of core 0's instance in `demo`. -/
def demoHd : DWord := demo.handleAt 0

/-- V2 holds that handle, V4 the handle of an instance that does not exist. -/
def spanW : Wave :=
  withRegs [(2, uniOf (demoHd.toNat % 2 ^ 32)), (3, uniOf (demoHd.toNat / 2 ^ 32)), (4, uniOf (demoHd.toNat % 2 ^ 32 + 64)), (5, uniOf (demoHd.toNat / 2 ^ 32))]

/-- The state, in which the wave has frozen that instance `n` times. -/
def spanS (n : Nat) : State :=
  let s := stateOf spanW
  if n = 0 then s else s.withDie 0 (fun d => { d with
    freezes := [(0, demoHd.extractLsb' 0 48, n)], spans := d.spans.map (fun sp => if sp.members.contains 0 then { sp with freeze := n } else sp) })

theorem witness_Spans :
    let held (u : Uses) : Uses := { u with hold := fun s _ => s.planning }
    let uq (a : Src) : Uses := held { srcs := [handleUse a], dst := some (vd 8, 4) }
    let uf (a : Src) : Uses := held { srcs := [handleUse a], preds := [1] }
    let ut (a : Src) : Uses := held { srcs := [handleUse a] }
    let x := siteOf spanW demoSp
    let g := loaderGroup 0 0
    Acts (spanS 0) x plainHdr (held { dst := some (vd 8, 2) }) g ∧ (∃ sp, (spanS 0).handleSpan demoHd = some sp ∧ sp.freeze = 0)
      ∧ ((spanS 0).freezesOf 0).length = 0
      ∧ (∀ r : VNum, r = 2 ∨ r = 4 → Acts (spanS 0) x plainHdr (uq (vs r)) g ∧ Acts (spanS 0) x plainHdr (uf (vs r)) g
        ∧ handleBad (handleIn (spanS 0) x plainHdr (grp (uq (vs r))) 0) = false ∧ handleBad (handleIn (spanS 0) x plainHdr (grp (uf (vs r))) 0) = false)
      ∧ (spanS 0).handleSpan (handleIn (spanS 0) x plainHdr (grp (uf (vs 4))) 0) = none
      ∧ handleIn (spanS 0) x plainHdr (grp (uf (vs 2))) 0 = demoHd
      ∧ Acts (spanS 2) x plainHdr (ut (vs 2)) g ∧ handleIn (spanS 2) x plainHdr (grp (ut (vs 2))) 0 = demoHd
      ∧ (∃ sp, (spanS 2).handleSpan demoHd = some sp ∧ sp.freeze = 2) ∧ freezesHeld (spanS 2) 0 0 (demoHd.extractLsb' 0 48) = 2 := by
  have i (n : Nat) (h : n = 0 ∨ n = 2) : Issues (spanS n) (siteOf spanW demoSp) := by
    rcases h with rfl | rfl <;> exact ⟨rfl, rfl, rfl, by decide, by decide, by decide, by decide⟩
  have a (n : Nat) (h : n = 0 ∨ n = 2) (u : Uses) (e : clearB (spanS n) (siteOf spanW demoSp) plainHdr (grp u) = true) :
      Acts (spanS n) (siteOf spanW demoSp) plainHdr u (loaderGroup 0 0) :=
    ⟨clear_of (i n h) e, .inl (by decide), by decide, by rcases h with rfl | rfl <;> rfl⟩
  refine ⟨a 0 (.inl rfl) _ (by decide +kernel), ⟨_, rfl, rfl⟩, by decide, ?_, by decide +kernel, by decide +kernel, a 2 (.inr rfl) _ (by decide +kernel),
    by decide +kernel, ⟨_, rfl, by decide⟩, by decide⟩
  intro r hr
  rcases hr with rfl | rfl <;>
    exact ⟨a 0 (.inl rfl) _ (by decide +kernel), a 0 (.inl rfl) _ (by decide +kernel), by decide +kernel, by decide +kernel⟩

/-- The bytes of the record of one wave's launch (R353), with a depth of 3. -/
def recordBytes : List Byte :=
  toBytes 8 0 ++ toBytes 4 12 ++ toBytes 4 0 ++ toBytes 4 0 ++ toBytes 4 0x00204082 ++ toBytes 4 (3 * 2 ^ 15) ++ toBytes 4 0 ++ toBytes 4 1
    ++ toBytes 2 1 ++ toBytes 2 1 ++ toBytes 2 1 ++ toBytes 2 1 ++ toBytes 4 16384 ++ toBytes 2 64 ++ toBytes 2 1 ++ toBytes 4 0
    ++ toBytes 8 7 ++ toBytes 4 (2 ^ 8 + 32) ++ toBytes 12 0 ++ toBytes 8 0 ++ toBytes 8 0 ++ toBytes 32 0

/-- Memory of `demo` with that record at virtual address 0x40. -/
def recordMem : Mem := demo.mem.store 0x5040 recordBytes

/-- V2 holds 0x40, V4 zero, V6 an argument. -/
def spawnW : Wave := withRegs [(2, uniOf 0x40), (3, uniOf 0), (4, uniOf 0), (6, uniOf 11), (7, uniOf 13)]

/-- A state in which it may spawn, at depth `d`. -/
def spawnS (d : Nat) : State :=
  let s := handledS false spawnW
  { s with mem := recordMem, launches := s.launches.map (fun l => { l with depth := d }) }

/-- A wave with one child, launch 1. -/
def parentW : Wave := { demoW with children := [1] }

/-- Its state, the child completed or not. -/
def parentS (c : Bool) : State :=
  let s := handledS false parentW
  { s with launches := s.launches ++ [{ demoL with completed := c }] }

theorem witness_Tasks :
    let us (a : Src) : Uses :=
      grp { srcs := [engUse 1 a 2 0, engUse 2 (vs 4) 1 1, engUse 3 (plainSrc 6) 2 1], hold := State.edgeWaits }
    let x := siteOf spawnW demoSp
    let y := siteOf parentW demoSp
    (Clear (spawnS 0) x plainHdr (us (vs 2)) ∧ ((uniform (spawnS 0) x plainHdr (us (vs 2)) 0).setWidth 64 : DWord) = 0x40
        ∧ ((spawnS 0).spawnRecord spawnW.coreNo loaderDomain [] 0x40).1 = .ok recordBytes ∧ refusal recordBytes (recordOf recordBytes) (some false) = none
        ∧ (spawnS 0).det spawnW = false ∧ ∃ l, (spawnS 0).launchOf spawnW = some l ∧ l.domain = loaderDomain ∧ l.depth + 1 ≤ l.record.spawnDepth
          ∧ l.record.det = false)
      ∧ (Clear (spawnS 4) x plainHdr (us (vs 2)) ∧ (∃ k, CanTrap (spawnS 4) x k ∧ k.record.spawnDepth < k.depth + 1))
      ∧ (Clear (spawnS 0) x plainHdr (us (vs 6)) ∧ ((uniform (spawnS 0) x plainHdr (us (vs 6)) 0).setWidth 64 : DWord).toNat % 64 ≠ 0)
      ∧ (∀ c d : Bool, Acts (parentS c) y plainHdr { dst := (if d then some (vd 3, 1) else none) } (loaderGroup 0 0)) ∧ parentW.level = 0
      ∧ (∃ l, (parentS true).launches[1]? = some l ∧ l.completed = true) ∧ (∃ l, (parentS false).launches[1]? = some l ∧ l.completed = false)
      ∧ Acts (groupS { demoW with level := 1 } (loaderGroup 0 0)) (siteOf { demoW with level := 1 } demoSp) plainHdr { dst := some (vd 3, 1) } (loaderGroup 0 0)
      ∧ CanTrap (groupS { demoW with level := 1 } (loaderGroup 0 0)) (siteOf { demoW with level := 1 } demoSp) (handledL false)
      ∧ (Acts demo demoX plainHdr {} (loaderGroup 0 0) ∧ demo.launches[(loaderGroup 0 0).launch]? = some demoL) := by
  have i (d : Nat) : Issues (spawnS d) (siteOf spawnW demoSp) := ⟨rfl, rfl, rfl, (by decide : 0 < 4), (by decide : WaveLife.resident ≠ .retired),
    (by decide : fullMask ≠ 0), (by decide : demoSp.wait = none ∧ ∀ f ∈ spawnW.flights, f.entry.kind = 5 → f.entry.slot ≠ 0)⟩
  have e : (spawnS 4).launches = [{ handledL false with depth := 4 }] := rfl
  refine ⟨⟨clear_of (i 0) (by decide +kernel), by decide +kernel, ok_of (by decide +kernel), by decide +kernel, by decide, ⟨_, rfl, rfl, by decide, rfl⟩⟩,
    ⟨clear_of (i 4) (by decide +kernel), ⟨{ handledL false with depth := 4 }, ⟨by decide, rfl, by decide, by decide⟩, by decide⟩⟩,
    ⟨clear_of (i 0) (by decide +kernel), by decide +kernel⟩, ?_, rfl, ⟨_, rfl, rfl⟩, ⟨_, rfl, rfl⟩,
    group_acts (by decide +kernel) rfl (by decide) rfl (by decide), ⟨by decide, rfl, by decide, by decide⟩,
    ⟨clear_of demo_issues (by decide +kernel), .inl (by decide), by decide, rfl⟩, rfl⟩
  intro c d
  cases c <;> cases d <;>
    exact ⟨clear_of ⟨rfl, rfl, rfl, by decide, by decide, by decide, by decide⟩ (by decide +kernel), .inl (by decide), by decide, rfl⟩

/-- A wave at level 1 with a load and a wait in its replay queue; V2 names lanes. -/
def replayW : Wave := { withRegs [(2, uniOf 0xFF00)] with level := 1, rq := [entryOf 1 0xFFFF, entryOf 5 fullMask] }

theorem witness_ReplayQueue :
    let g := loaderGroup 0 0
    let s := groupS replayW g
    let x := siteOf replayW demoSp
    let uw : Uses := { srcs := [{ fld := 1, src := vs 2, consume := some 1 }] }
    Acts s x plainHdr { dst := some (vd 3, 1) } g ∧ replayW.level ≠ 0 ∧ Clear s x plainHdr uw ∧ replayW.rq[0]? = some (entryOf 1 0xFFFF)
      ∧ (entryOf 1 0xFFFF).remain &&& operandW s x plainHdr uw 0 (Mask.lowest (x.exec plainHdr)) ≠ 0 ∧ (∀ z ∈ replayW.rq, z.remain ≠ 0)
      ∧ Acts s x plainHdr {} g ∧ CanTrap s x (handledL false) ∧ replayW.rq[(7 : BitVec 3).toNat]? = none
      ∧ (Acts (groupS demoW g) demoX plainHdr {} g ∧ CanTrap (groupS demoW g) demoX (handledL false) ∧ demoW.level = 0)
      ∧ (Clear s x plainHdr { srcs := [{ fld := 1, src := vs 2, uniform := true, consume := some 2 }] } ∧ s.checking x.wv = false) := by
  have i : Issues (groupS replayW (loaderGroup 0 0)) (siteOf replayW demoSp) := ⟨rfl, rfl, rfl, by decide, by decide, by decide, by decide⟩
  refine ⟨group_acts (by decide +kernel) rfl (by decide) rfl (by decide), by decide, clear_of i (by decide +kernel), rfl, by decide +kernel, by decide,
    group_acts (by decide +kernel) rfl (by decide) rfl (by decide), ⟨by decide, rfl, by decide, by decide⟩, rfl,
    ⟨group_acts (by decide +kernel) rfl (by decide) rfl (by decide), ⟨by decide, rfl, by decide, by decide⟩, rfl⟩, clear_of i (by decide +kernel), by decide⟩

theorem witness_EmptyExec :
    demoX.exec noLane = 0 ∧ NoMismatch demo demoX ∧ (∀ u ∈ [ldUses false ⟨mf .sy .plain .w32, vd 4, vs 2, .imm 0⟩, ldUses true ⟨mf .sy .plain .w32, vd 4, .imm 0, .imm 0⟩,
      stUses ⟨mf .sy .plain .w32, vs 4, vs 2, .imm 0⟩, atUses ⟨mf .sy .rlx .w32, .int .add .ui32, vd 6, vs 2, .ofs 8⟩, casUses ⟨mf .sy .rlx .w32, vd 8, 1, vs 2, .ofs 8⟩,
      redUses ⟨mf .sy .rlx .w32, .int .add .ui32, vs 6, vs 2, .ofs 8⟩, { srcs := [{ fld := 1, src := .imm 0, uniform := true }] }, grp {},
      grp { srcs := [engUse 1 (.imm 0) 1 2] }, grp { dst := some (vd 3, 1) }], clearB demo demoX noLane u = true)
      ∧ ∀ u ∈ [{ dst := some (vd 3, 1) }, { srcs := [{ fld := 1, src := .imm 0, uniform := true }], preds := [1] }, grp { srcs := [engUse 1 (.imm 0) 1 3] },
        grp { srcs := [engUse 0 (plainSrc 4) 3 3] }, grp { fmt := (Instr.mma noLane ⟨0, 1, 1⟩).fmtFaults demoSp.fmt },
        grp { fmt := (Instr.mmab noLane ⟨0, 1, 1⟩).fmtFaults demoSp.fmt }, grp { srcs := [engUse 0 (plainSrc 4) 3 3, engUse 2 (.imm 0) 1 3] },
        grp { srcs := [engUse 1 (vs 12) 4 3, engUse 2 (.imm 0) 1 3] }, grp { srcs := [{ fld := 2, src := .imm 0, consume := some 3 }], dst := some (vd 4, 2) },
        grp { srcs := [engUse 2 (.imm 0) 1 3] }, grp { dst := some (vd 4, 2) }, grp { srcs := [handleUse (vs 4)], dst := some (vd 4, 4) },
        grp { srcs := [handleUse (vs 4)], preds := [1] }, grp { srcs := [handleUse (vs 4)] },
        grp { srcs := [engUse 1 (vs 4) 2 0, engUse 2 (.imm 0) 1 1, engUse 3 (plainSrc 8) 2 1] }, { srcs := [{ fld := 1, src := .imm 0, consume := some 1 }] },
        { srcs := [{ fld := 1, src := .imm 0, uniform := true, consume := some 2 }] }], clearB engS engX noLane u = true := by
  refine ⟨by decide, .inl (by decide), ?_, ?_⟩ <;> decide +kernel

/-! ## Witnesses: the majority region and the fabric -/

/-- Lane L's V2 holds 4 times L modulo 16: a half names the words of one cell. -/
def majW : Wave := withRegs [(2, regOf (fun L => 4 * (L.val % 16)))]

/-- A set of three stacks 0, 1 and 2 and of 1 MiB. -/
def majSet : DWord := 0x0000000180000210

/-- The state, in which virtual page 0 is the majority page of address 0x5000 of set 0. -/
def majS (wv : Wave) : State :=
  let s := stateOf wv
  { s with mem := s.mem.writeN 0x4000 8 (0x5079 + 2 ^ 62), keys := { s.keys with repset := s.keys.repset.set 0 majSet } }

/-- Where it issues. -/
def majX : Site := siteOf majW demoSp

theorem maj_issues : Issues (majS majW) majX := ⟨rfl, rfl, rfl, by decide, by decide, by decide, by decide⟩

/-- An MLD of the upper half with acquire, and an MST of it with release. -/
def mldT : MldOp := ⟨.sy, .acq, true, 0, vd 4, vs 2⟩
/-- The MST. -/
def mstT : MstOp := ⟨.sy, .rel, true, 0, vs 6, vs 2⟩

theorem reachesCell_of {s : State} {x : Site} {m : Mask} {g : GAcc} {ea : Lane → DWord} {n : BitVec 4} {c cell : Nat} (l : Launch)
    (hl : s.launchOf x.wv = some l) (e : ∀ L, m.has L = true → (ea L).toNat % 4 = 0 ∧ (ea L).toNat / 64 = cell
      ∧ ((s.translate x.wv.die' l.domain (ea L) g.need).1.toOption).any (fun p => p.kind == 4 && p.setNo == n && p.pa / 64 == c && s.cellOk n p.pa)
        = true) : ReachesCell s x m g ea n c := by
  refine ⟨l, cell, hl, fun L h => ?_⟩
  obtain ⟨a, b, k⟩ := e L h
  refine ⟨a, b, ?_⟩
  cases q : (s.translate x.wv.die' l.domain (ea L) g.need).1 with
  | error _ => rw [q] at k; cases k
  | ok p =>
    rw [q] at k
    simp only [Except.toOption, Option.any_some, Bool.and_eq_true, beq_iff_eq] at k
    exact ⟨p, rfl, k.1.1.1, k.1.1.2, k.1.2, k.2⟩

theorem witness_MajorityAccesses :
    let r1 := released (majS majW) majX mldT.scope mldT.order
    let r2 := fenceReleased (majS majW) majX mstT.scope mstT.order false
    (MeetsAt (majS majW) majX plainHdr (mldUses mldT) ∧ (majS majW).det majW = false ∧ majX.exec plainHdr &&& halfMask true ≠ 0
        ∧ ReachesCell r1 majX (majX.exec plainHdr &&& halfMask true) .majLoad (cellAddress (majS majW) majX plainHdr (mldUses mldT) 0 0) 0 0x140)
      ∧ (MeetsAt (majS majW) majX plainHdr (mstUses mstT) ∧ majX.exec plainHdr &&& halfMask true = halfMask true
        ∧ ReachesCell r2 majX (halfMask true) .majStore (cellAddress (majS majW) majX plainHdr (mstUses mstT) 1 0) 0 0x140
        ∧ ∀ L L' : Lane, (halfMask true).has L = true → (halfMask true).has L' = true →
          ((cellAddress (majS majW) majX plainHdr (mstUses mstT) 1 0) L).toNat % 64 = ((cellAddress (majS majW) majX plainHdr (mstUses mstT) 1 0) L').toNat % 64
            → L = L')
      ∧ (demoX.exec noLane &&& halfMask true = 0 ∧ clearB demo demoX noLane (mldUses mldT) = true ∧ clearB demo demoX noLane (mstUses mstT) = true) := by
  have e : ∀ L : Lane, (cellAddress (majS majW) majX plainHdr (mstUses mstT) 1 0) L = BitVec.ofNat 64 (4 * (L.val % 16)) := by decide +kernel
  refine ⟨⟨meetsAt_of maj_issues (by decide) (by decide +kernel), by decide, by decide, reachesCell_of demoL rfl (cell := 0) (by decide +kernel)⟩,
    ⟨meetsAt_of maj_issues (by decide) (by decide +kernel), by decide, reachesCell_of demoL rfl (cell := 0) (by decide +kernel), ?_⟩,
    ⟨by decide, by decide +kernel, by decide +kernel⟩⟩
  intro L L' h h'
  rw [e, e]
  revert L L'; decide +kernel

/-- An access to the cell at 0x5000 that has come to phase `p`. -/
def accOf (k : MajKind) (p : MajPhase) (r : List (Nat × BitVec 64 × List Byte)) : MajAcc :=
  { keystone := 0, wave := 0, flight := none, kind := k, setNo := 0, pa := 0x5000, lanes := halfMask true, phase := p, replies := r, tag := 0, data := []
    holds := [], answers := [(1, true)], entry := entryOf 1 fullMask, asked := 7, fence := false }

/-- The keystone with accesses and messages. -/
def keyS (l : List MajAcc) (m : List MajMsg) : State :=
  let s := majS majW
  { s with keys := { s.keys with accs := l, msgs := m } }

/-- A message of the access to its copy 1. -/
def msgT : MajMsg := { acc := some 0, copy := 1, stack := repStack majSet 1, off := repOff majSet 0x5000, tag := 0x100, data := [] }

theorem witness_MajoritySteps :
    ((keyS [accOf .load .held []] []).keys.accs[0]? = some (accOf .load .held []) ∧ (keyS [] []).keys.rebaseBusy = false)
      ∧ (∀ r ∈ [[], [(0, (0x700 : BitVec 64), [])]], ∀ p ∈ [MajPhase.query, .write, .done], ∀ k ∈ [MajKind.load, .store [] 0],
        let a := accOf k p r
        (keyS [a] []).keys.accs[0]? = some a ∧ a.phase = p ∧ a.keystone < 4 ∧ Answers (keyS [a] []) a 2)
      ∧ topStamp (keyS [accOf .load .query []] []) (accOf .load .query [(0, (0x700 : BitVec 64), [])]) 2 + 1 < 2 ^ 56
      ∧ 2 ^ 56 ≤ topStamp (keyS [accOf .load .query []] []) (accOf .load .query [(0, BitVec.allOnes 64, [])]) 2 + 1
      ∧ ((keyS [accOf (.store [] 0) .write []] [msgT]).keys.msgs[0]? = some msgT ∧ (keyS [] []).stackUp.getLsbD msgT.stack = true
        ∧ ({ keyS [] [msgT] with stackUp := 0 } : State).stackUp.getLsbD msgT.stack = false)
      ∧ ((accOf .load .write []).phase = .write ∧ (1, true) ∈ (accOf .load .write []).answers ∧ ∀ core dom i, (accOf .load .write []).kind ≠ .entry core dom i)
      ∧ (Scrubs (keyS [] []) 0 0 ∧ ¬Scrubs (keyS [] []) 0 1 ∧ repQ majSet ≤ goodCopies (keyS [] []) 0 0
        ∧ goodCopies { keyS [] [] with stackUp := 0 } 0 0 < repQ majSet)
      ∧ ((keyS [] []).validSets.all (keyS [] []).rebaseOk = true ∧ ({ keyS [] [] with stackUp := 0 } : State).validSets.all
          ({ keyS [] [] with stackUp := 0 } : State).rebaseOk = false
        ∧ ∃ s : State, s.keys.rebaseBusy = true ∧ (∀ a ∈ s.keys.accs, a.phase = .held ∨ a.phase = .done) ∧ s.keys.msgs = []) := by
  refine ⟨⟨rfl, rfl⟩, ?_, by decide, by decide, ⟨rfl, by decide, by decide⟩, ⟨rfl, by decide, fun _ _ _ h => by cases h⟩,
    ⟨by unfold Scrubs; decide, by unfold Scrubs; decide, by decide, by decide⟩, by decide +kernel, by decide +kernel,
    ⟨{ demo with keys := { demo.keys with rebaseBusy := true } }, rfl, by decide, rfl⟩⟩
  intro r hr p hp k hk
  simp only [List.mem_cons, List.not_mem_nil, or_false] at hr hp hk
  rcases hr with rfl | rfl <;> rcases hp with rfl | rfl | rfl <;> rcases hk with rfl | rfl <;>
    exact ⟨rfl, rfl, by decide, by decide, by decide, by decide, by decide, by decide⟩

/-- A frame from package 1. -/
def frameOf (op : BitVec 8) : Frame :=
  { etype := 0, src := 1, dst := 0, seq := 1, ack := 0, op := op, len := 2, tag := 3, addr := 0x40, attr := 0x01, gen := 0, zero := 0, fcsOk := true, bad := false
    race := false, payload := [1, 0, 0, 0, 0, 0, 0, 0] }

/-- A read of 8 bytes of package 1 for a copy operation. -/
def reqT : RemReq := { tag := 3, op := 1, who := .copyRead 0 [], bytes := 8, pa := 0x40, va := 0, fence := false, stamp := 0 }

/-- A port that exports 4 KiB to its peers, with a request to package 1 that awaits its answer. -/
def portS (ven : Bool) : State :=
  { demo with via := { Viaduct.reset with
      vctl := if ven then 0x80000001 else 1, exsize := 4096, exrights := 7, links := 1, routes := [(1, 0)]
      streams := [(1, { Stream.reset with reqs := [reqT] })] } }

theorem witness_FramesReceived :
    (portS true).frameBad { frameOf 1 with fcsOk := false } = true
      ∧ ((portS true).frameBad { frameOf 1 with seq := 2 } = false ∧ (2 : Word) ≠ (from' (portS true) (frameOf 1)).expect)
      ∧ (portS true).frameBad (frameOf 0) = false
      ∧ (∀ op ∈ [(1 : BitVec 8), 2, 3, 4], ∀ v, InOrder (portS v) (frameOf op))
      ∧ ((portS true).exports 0x40 8 1 = true ∧ HomeFine (portS true) 0x40 8) ∧ (portS false).exports 0x40 8 1 = false
      ∧ (((writeBytes (frameOf 2)).all (fun b => (portS true).exports b.1 1 2) && (portS true).via.ven) = true
        ∧ ∀ b ∈ writeBytes (frameOf 2), (portS true).keyUp (memKey 0 b.1) = true)
      ∧ ((∃ op, atomicOf (frameOf 3) = some (op, 4)) ∧ atomicOf { frameOf 3 with attr := 0xF0 } = none ∧ (portS true).exports 0x40 4 7 = true)
      ∧ (from' (portS true) (frameOf 4)).reqs.find? (fun q => q.tag == (frameOf 4).tag) = some reqT := by
  refine ⟨by decide, by decide, by decide, ?_, ⟨by decide, ⟨by decide +kernel, by decide⟩⟩, by decide, ⟨by decide, by decide +kernel⟩,
    ⟨⟨_, rfl⟩, rfl, by decide⟩, rfl⟩
  intro op h v
  simp only [List.mem_cons, List.not_mem_nil, or_false] at h
  rcases h with rfl | rfl | rfl | rfl <;> cases v <;> exact ⟨by decide, rfl⟩

/-- A stream to package 1 in some state, with a frame that it has not acknowledged. -/
def streamS (st : StreamSt) (un : List Frame) : State :=
  { portS true with via := { (portS true).via with streams := [(1, { Stream.reset with st := st, unacked := un })] } }

theorem witness_Streams :
    (∀ st, (streamS st []).via.linked 1 = true ∧ ((streamS st []).stream 1).st = st)
      ∧ (∀ st ∈ [StreamSt.up, .recovery], ((streamS st [frameOf 1]).stream 1).unacked ≠ [])
      ∧ (((streamS .up []).stream 1).unacked = [] ∧ ((streamS .up []).stream 1).st ≠ .reset)
      ∧ (∀ op ∈ [(8 : BitVec 8), 9], (streamS .reset []).frameBad (frameOf op) = false)
      ∧ (streamS .up []).mgmt.recovery = false ∧ ∃ s : State, s.mgmt.recovery = true := by
  refine ⟨fun st => ⟨by cases st <;> decide, rfl⟩, by decide, ⟨rfl, by decide⟩, by decide, by decide,
    ⟨{ demo with mgmt := { demo.mgmt with recovery := true } }, rfl⟩⟩

/-! ## Witnesses: host queues, the window, the Wellhead, management, the debugger -/

/-- Queue 0, enabled and switched in, of domain 0. -/
def queueT : HQueue :=
  { base := 0x100, cfg := 0x80060000, tail := 0, prog := 0, halt := false, err := 0, res := true, wdog := 0, rd := 0, loop := none, jump := none
    unchecked := false, launches := [], pending := none, got := none }

/-- Memory with the tables of `demo` and, at 0x7000, a table of one domain with them. -/
def cmdMem : Mem := (demo.mem.writeN 0x7000 8 0x1000).writeN 0x7010 8 (2 ^ 32)

/-- A state in which queue 0 works. -/
def cmdS (q : HQueue) : State := { demo with mem := cmdMem, domBase := 0x7000, domCount := 1, queues := [(0, q)] }

/-- Its domain. -/
def cmdD : Domain := { id := 0, root := 0x1000, otBase := 0, otSize := 0, valid := true, save := 0 }

theorem cmd_works : Works (cmdS queueT) 0 cmdD := ⟨rfl, by decide +kernel⟩

/-- A state in which queue 0 works and virtual page 1 lies in package 1. -/
def remoteS : State :=
  { cmdS queueT with mem := cmdMem.writeN 0x4008 8 (3 * 2 ^ 60 + 2 ^ 42 + 0x5079), via := { demo.via with vctl := 0x80000002 } }

theorem reads_of {s : State} {q : Nat} {dom : Domain} {va : DWord} {bs : List Byte} (l : List Phys)
    (h : (s.sysPlaces dom va .read bs.length).toOption = some l ∧ (s.queue q).lacks l = [] ∧ l.map (s.cmdByte q) = bs) : Reads s q dom va bs :=
  ⟨l, ok_of h.1, h.2⟩

theorem lacks_of {s : State} {q : Nat} {dom : Domain} {va : DWord} {n : Nat} (l : List Phys)
    (h : (s.sysPlaces dom va .read n).toOption = some l ∧ (s.queue q).lacks l ≠ [] ∧ ∀ p ∈ (s.queue q).lacks l, (s.stream (remoteOf p).1).st ≠ .lost) :
    Lacks s q dom va n := ⟨l, ok_of h.1, h.2⟩

/-- The places of `n` bytes of the page of `demo` from an offset, and of the page of package 1. -/
def placesT (o n : Nat) : List Phys := (List.range n).map (fun i => ⟨0, 0, 0x5000 + o + i⟩)
/-- See above. -/
def remoteT (n : Nat) : List Phys := (List.range n).map (fun i => ⟨3, 0, 2 ^ 42 + 0x5000 + i⟩)

theorem unreadable_of {s : State} {dom : Domain} {va : DWord} {n : Nat} (e : (s.sysPlaces dom va .read n).toOption = none) : Unreadable s dom va n := by
  intro l h; rw [h] at e; cases e

theorem witness_QueueCommands :
    Works (cmdS queueT) 0 cmdD ∧ Reads (cmdS queueT) 0 cmdD 0x40 (List.replicate 128 0)
      ∧ (Reads (cmdS queueT) 0 cmdD 0x40 (List.replicate 16 0) ∧ numAt (List.replicate 16 0) 12 4 = 0)
      ∧ Unreadable (cmdS queueT) cmdD 0x2000 128 ∧ Reads (cmdS queueT) 0 cmdD 0x800 (List.replicate 8 0)
      ∧ (Works remoteS 0 cmdD ∧ Lacks remoteS 0 cmdD 0x1000 128 ∧ Lacks remoteS 0 cmdD 0x1000 8 ∧ Lacks remoteS 0 cmdD 0x1000 16
        ∧ Reads remoteS 0 cmdD 0x40 (List.replicate 16 0) ∧ Unreadable remoteS cmdD 0x2000 128 ∧ Unreadable remoteS cmdD 0x2000 16)
      ∧ (∃ l, ({ queueT with loop := some (false, 3, 1) } : HQueue).loop = some l ∧ (l.1, l.2.1) ≠ (false, ((0 : Nat) : Int))) := by
  exact ⟨cmd_works, reads_of (placesT 0x40 128) (by decide +kernel), ⟨reads_of (placesT 0x40 16) (by decide +kernel), by decide⟩,
    unreadable_of (by decide +kernel),
    reads_of (placesT 0x800 8) (by decide +kernel), ⟨⟨rfl, by decide +kernel⟩, lacks_of (remoteT 128) (by decide +kernel), lacks_of (remoteT 8) (by decide +kernel),
      lacks_of (remoteT 16) (by decide +kernel), reads_of (placesT 0x40 16) (by decide +kernel), unreadable_of (by decide +kernel), unreadable_of (by decide +kernel)⟩,
    ⟨_, rfl, by decide⟩⟩

/-- Queue 0 with words in its ring, which it has still to read. -/
def ringS (ws : List Nat) : State :=
  let s := cmdS { queueT with tail := BitVec.ofNat 32 ws.length }
  { s with mem := ws.zipIdx.foldl (fun m w => m.writeN (0x5100 + 8 * w.2) 8 w.1) s.mem }

/-- The header of an OP with a LEN and ARGS. -/
def headerT (op len args : Nat) : Nat := op * 2 ^ 56 + len * 2 ^ 52 + args

theorem due_of {s : State} (h : decide (s.queueRuns 0 = true) && decide (s.queueDomain 0 = some cmdD) && decide ((s.queue 0).unchecked = false)
    && decide (1 ≤ ((s.queue 0).tail - (s.queue 0).rd).toNat) && decide (((s.queue 0).tail - (s.queue 0).rd).toNat < 2 ^ 31) = true) : Due s 0 cmdD := by
  simp only [Bool.and_eq_true, decide_eq_true_eq] at h
  exact ⟨⟨h.1.1.1.1, h.1.1.1.2⟩, h.1.1.2, fun _ => ⟨h.1.2, h.2⟩⟩

theorem witness_CommandsAreRead :
    (Due (cmdS { queueT with base := 0x2000, tail := 1 }) 0 cmdD
        ∧ Unreadable (cmdS { queueT with base := 0x2000, tail := 1 }) cmdD (({ queueT with base := 0x2000, tail := 1 } : HQueue).wordAddr 0) 8)
      ∧ (∀ h ∈ [headerT 13 1 0, headerT 5 2 0, headerT 5 1 1, headerT 8 2 0, headerT 3 3 4, headerT 6 1 1],
        Due (ringS [h]) 0 cmdD ∧ h < 2 ^ 64 ∧ Reads (ringS [h]) 0 cmdD (((ringS [h]).queue 0).wordAddr 0) (toBytes 8 h))
      ∧ (¬CommandLength 5 2 ∧ BadArgs 5 1 ∧ BadArgs 8 0 ∧ BadArgs 3 4 ∧ BadArgs 6 1)
      ∧ (∀ a ∈ [0x40, 0x41], let s := ringS [headerT 8 2 1, a]
        Due s 0 cmdD ∧ Reads s 0 cmdD ((s.queue 0).wordAddr 0) (toBytes 8 (headerT 8 2 1)) ∧ (s.queue 0).holds 2 = true
          ∧ Reads s 0 cmdD ((s.queue 0).wordAddr 1) (toBytes 8 a))
      ∧ CommandLength 8 2 ∧ ¬BadArgs 8 1 := by
  refine ⟨⟨due_of (by decide +kernel), unreadable_of (by decide +kernel)⟩, ?_, ?_, ?_, by simp [CommandLength], by simp [BadArgs]⟩
  · intro h hm
    simp only [List.mem_cons, List.not_mem_nil, or_false] at hm
    rcases hm with rfl | rfl | rfl | rfl | rfl | rfl <;>
      exact ⟨due_of (by decide +kernel), by decide, reads_of (placesT 0x100 8) (by decide +kernel)⟩
  · simp [CommandLength, BadArgs]
  · intro a ha
    simp only [List.mem_cons, List.not_mem_nil, or_false] at ha
    rcases ha with rfl | rfl <;>
      exact ⟨due_of (by decide +kernel), reads_of (placesT 0x100 8) (by decide +kernel), by decide +kernel, reads_of (placesT 0x108 8) (by decide +kernel)⟩

/-- The same with the stream to package 1 lost. -/
def cutS : State := remoteS.withStream 1 (fun x => { x with st := .lost })

theorem witness_MemoryCommands :
    (Works remoteS 0 cmdD ∧ Targets remoteS cmdD 0x10 .write 8 (placesT 0x10 8) ∧ Lacks remoteS 0 cmdD 0x1000 8)
      ∧ (cmdS queueT).queueBusy 0 = false ∧ (∀ w ∈ [Need.atomic, .write], Targets (cmdS queueT) cmdD 0x10 w 8 (placesT 0x10 8))
      ∧ (cmdS queueT).sysPlaces cmdD 0x20 .read 8 = .ok (placesT 0x20 8)
      ∧ (∀ p ∈ placesT 0x20 8, p ∉ placesT 0x10 8 ∧ p.kind.toNat ≤ 2 ∧ (cmdS queueT).keyUp (memKey p.kind p.pa) = true
        ∧ (cmdS queueT).seenBad none (memKey p.kind p.pa) 1 = false)
      ∧ (∀ l, (cmdS queueT).sysPlaces cmdD 0x2000 .write 8 ≠ .ok l)
      ∧ (GoodPower 0 2000 ∧ ¬GoodPower 0 2100)
      ∧ (remoteS.sysPlaces cmdD 0x1000 .atomic 8 = .ok (remoteT 8) ∧ remoteS.sysPlaces cmdD 0x1000 .write 8 = .ok (remoteT 8)
        ∧ (remoteT 8)[0]? = some ⟨3, 0, 2 ^ 42 + 0x5000⟩ ∧ (∀ x ∈ remoteT 8, ¬OutOfReach remoteS x)
        ∧ remoteS.sysPlaces cmdD 0x20 .read 8 = .ok (placesT 0x20 8) ∧ (remoteS.queue 0).lacks (placesT 0x20 8) = [] ∧ ∀ p ∈ placesT 0x20 8, p ∉ remoteT 8)
      ∧ (Works cutS 0 cmdD ∧ cutS.sysPlaces cmdD 0x1000 .atomic 8 = .ok (remoteT 8) ∧ cutS.sysPlaces cmdD 0x1000 .write 8 = .ok (remoteT 8)
        ∧ cutS.sysPlaces cmdD 0x20 .read 8 = .ok (placesT 0x20 8) ∧ ∃ x ∈ remoteT 8, OutOfReach cutS x)
      ∧ ((demo.queueRuns 0 = false) ∧ { cmdS queueT with domCount := 0 }.queueRuns 0 = true ∧ { cmdS queueT with domCount := 0 }.queueDomain 0 = none) := by
  refine ⟨⟨⟨rfl, by decide +kernel⟩, ⟨ok_of (by decide +kernel), by decide +kernel, by decide +kernel⟩, lacks_of (remoteT 8) (by decide +kernel)⟩,
    by decide, ?_, ok_of (by decide +kernel), by decide +kernel, ?_, by simp [GoodPower],
    ⟨ok_of (by decide +kernel), ok_of (by decide +kernel), by decide, by unfold OutOfReach; decide +kernel, ok_of (by decide +kernel), by decide, by decide⟩,
    ⟨⟨rfl, by decide +kernel⟩, ok_of (by decide +kernel), ok_of (by decide +kernel), ok_of (by decide +kernel),
      ⟨3, 0, 2 ^ 42 + 0x5000⟩, by decide, .inr (by decide +kernel)⟩, ⟨by decide, by decide, by decide +kernel⟩⟩
  · intro w h
    simp only [List.mem_cons, List.not_mem_nil, or_false] at h
    rcases h with rfl | rfl <;> exact ⟨ok_of (by decide +kernel), by decide +kernel, by decide +kernel⟩
  · have e : ((cmdS queueT).sysPlaces cmdD 0x2000 .write 8).toOption = none := by decide +kernel
    intro l h; rw [h] at e; cases e

theorem witness_QueueRegisters :
    demo.mgmt.recovery = false ∧ ({ demo with mgmt := { demo.mgmt with recovery := true } } : State).mgmt.recovery = true
      ∧ (demo.queues.filter (fun x => x.2.res && x.1 != 0)).length < 16
      ∧ (({ queueT with halt := true } : HQueue).halt = true ∧ (queueT.tail - 0).toNat ≤ 2 ^ (queueT.cfg.extractLsb' 16 5).toNat) := by
  refine ⟨by decide, rfl, by decide, rfl, by decide⟩

/-- Fault 5 of die 0 is outstanding with generation 1. -/
def faultT : FaultE := { gen := 1, page := 0, dom := 0, cause := 0x0C0, outstanding := true }

/-- The state. -/
def faultS : State := demo.withDie 0 (fun d => { d with faults := [(5, faultT)] })

theorem witness_WindowWrites :
    demo.mgmt.recovery = false ∧ GoodAnswer faultS 0 0x0000000100010005 faultT ∧ GoodAnswer faultS 0 0x0000000000010005 faultT
      ∧ (∀ c ∈ faultS.copies, c.wait ≠ some (0, 5)) ∧ (∀ k ∈ faultS.cores, ∀ e ∈ k.2.mq, e.wait ≠ some (0, 5))
      ∧ (∀ g ∈ faultS.groups, ∀ e ∈ g.engine, e.wait ≠ some (0, 5)) ∧ (∀ w ∈ faultS.waves, w.parked = none)
      ∧ GoodPower 12 110 ∧ ¬GoodPower 12 111 := by
  refine ⟨by decide, ?_, ?_, by decide, by decide, by decide, by decide, ⟨by decide, by decide⟩,
    fun h => absurd h.2 (by decide)⟩ <;>
    exact ⟨rfl, by decide, by decide, by decide, rfl, rfl⟩

/-- The launch of `demo`, accepted and not placed, on an idle package. -/
def fresh : State := { State.reset with launches := [Launch.fresh loaderRecord loaderDomain 0 0 0 none none 0 false] }

/-- A wave that waits for a barrier. -/
def waitingW : Wave := { demoW with table := oneSplit { demoSp with wait := some (.bar 1 false 0) } }

/-- A wave that has met a translation fault. -/
def faultingW : Wave := { demoW with faulting := some ⟨[(0, 0x2000, 0x0C0)], 0, some (entryOf 1 1), none, 0, 0⟩ }

/-- A wave off its core. -/
def offW (l : WaveLife) : Wave := { demoW with life := l, place := none }

/-- The state of `demo` without its wave on the core. -/
def offS (l : WaveLife) : State :=
  (stateOf (offW l)).withCore 0 (fun c => { c with granules := c.granules.drop 2, tarn := [] })

theorem witness_Wellhead :
    (∃ k, fresh.choosePlacement = some (0, .first 0, k)) ∧ (∀ u k, demo.choosePlacement ≠ some (0, u, k))
      ∧ (stateOf waitingW).evictable 0 waitingW = true ∧ (stateOf waitingW).launchOf waitingW = some demoL
      ∧ ((stateOf demoW).nextVictim 0 (loaderGroup 0 0) = true ∧ (stateOf waitingW).nextVictim 0 (loaderGroup 0 0) = false)
      ∧ ((stateOf demoW).groups[0]? = some (loaderGroup 0 0) ∧ (loaderGroup 0 0).core ≠ none ∧ (stateOf demoW).savable (loaderGroup 0 0) = true)
      ∧ (∀ l ∈ [WaveLife.evicted, .joined], (offS l).launchOf (offW l) = some demoL ∧ (offS l).groupOf (offW l) = some (loaderGroup 0 0)
        ∧ (offS l).fits 0 demoL (some 0) [(offW l).vregs] false = true ∧ (offW l).savedWaits = [] ∧ (offS l).joinDone (offW l) = true
        ∧ (offS l).dieOk demoL 0 = true ∧ AreaKept (offS l) 0 (offW l) demoL)
      ∧ (faultingW.faulting.isSome = true ∧ faultingW.life = .resident ∧ faultingW.parked = none ∧ (stateOf faultingW).launchOf faultingW = some demoL
        ∧ ∀ f, faultingW.faulting = some f → (stateOf faultingW).parkWaits ((stateOf faultingW).landed faultingW) f = false)
      ∧ demo.launchReady 0 demoL = false := by
  refine ⟨⟨0, by decide +kernel⟩, ?_, by decide +kernel, rfl, ⟨by decide +kernel, by decide +kernel⟩, ⟨rfl, by decide, by decide +kernel⟩, ?_,
    ⟨by decide, rfl, rfl, rfl, ?_⟩, by decide +kernel⟩
  · have e : demo.choosePlacement = none := by decide +kernel
    intro u k h; rw [h] at e; cases e
  · intro l h
    simp only [List.mem_cons, List.not_mem_nil, or_false] at h
    rcases h with rfl | rfl <;> exact ⟨rfl, rfl, by decide +kernel, rfl, by decide, by decide, fun _ _ h => by cases h⟩
  · intro f h
    obtain rfl := Option.some.inj h
    decide

/-- The launch of `demo` as the root of a deterministic tree. -/
def treeS : State :=
  { demo with
    launches := demo.launches.map (fun l => { l with tree := some 0, qwdog := 1, record := { l.record with quantum := 256 } })
    trees := [{ root := 0, boundary := 0, phase := 0, acc := none, nextOrd := 0, weights := [], writers := [], stopped := false }] }

/-- A die with a regrouping under way. -/
def regroupT : RegroupP := { plan := [[0, 1]], affected := [0, 1] }

/-- The state. -/
def regroupS : State := demo.withDie 0 (fun d => { d with regroup := some regroupT })

theorem witness_Regrouping :
    (demo.dies[0]? = some (Die.reset) ∧ Die.reset.regroup = none ∧ demo.dieDet 0 = false ∧ demo.planOk 0 [[0, 1], [2, 3, 4, 5]] = true
        ∧ Die.reset.epoch + 2 ≤ 0xFFFFFFFFFFC0) ∧ treeS.dieDet 0 = true
      ∧ (regroupS.installDue = some 0 ∧ regroupS.planOk 0 regroupT.plan = true ∧ ∃ x, regroupS.dies[0]? = some x ∧ x.regroup = some regroupT)
      ∧ demo.installDue = none := by
  refine ⟨⟨rfl, rfl, by decide, by decide +kernel, by decide⟩, by decide, ⟨by decide, by decide +kernel, ⟨_, rfl, rfl⟩⟩, by decide⟩

/-- Where the wave of the tree issues. -/
def treeX : Site := demoX

/-- The wave of the tree with one store buffered. -/
def bufferedW : Wave := { demoW with buf := [.store (storedBytes 3 (fun _ => ⟨0, 0, 0x5000⟩) 4 (fun L => L.val)) 0 { entryOf 1 1 with remain := 3 }] }

theorem witness_TreeAccesses :
    let l : LdOp := ⟨mf .sy .plain .w64, vd 4, vs 2, .imm 8⟩
    let u : LdOp := ⟨l.m, l.d, .imm 0, l.b⟩
    let o : StOp := ⟨mf .gp .plain .w64, vs 6, vs 2, .imm 8⟩
    (MeetsAt treeS treeX plainHdr (ldUses false l) ∧ Reaches treeS treeX (treeX.exec plainHdr) l.m (handleIn treeS treeX plainHdr (ldUses false l) 1) .load
        (address treeS treeX plainHdr (ldUses false l) 0 l.m.space) (fun _ => ⟨0, 0, 0x5008⟩))
      ∧ (MeetsAt treeS treeX plainHdr (ldUses true u) ∧ Reaches treeS treeX (treeX.exec plainHdr) u.m (handleIn treeS treeX plainHdr (ldUses true u) 1) .load
        (address treeS treeX plainHdr (ldUses true u) 0 u.m.space) (fun _ => ⟨0, 0, 0x5008⟩))
      ∧ (MeetsAt treeS treeX plainHdr (stUses o) ∧ Reaches treeS treeX (treeX.exec plainHdr) o.m (handleIn treeS treeX plainHdr (stUses o) 2) .store
        (address treeS treeX plainHdr (stUses o) 1 o.m.space) (fun _ => ⟨0, 0, 0x5008⟩))
      ∧ treeS.det demoW = true ∧ treeX.exec plainHdr ≠ 0 := by
  have i : Issues treeS treeX := ⟨rfl, rfl, rfl, by decide, by decide, by decide, by decide⟩
  exact ⟨⟨meetsAt_of i (by decide) (by decide +kernel), reaches_of _ 8 rfl rfl (by decide +kernel) (by decide +kernel)⟩,
    ⟨meetsAt_of i (by decide) (by decide +kernel), reaches_of _ 8 rfl rfl (by decide +kernel) (by decide +kernel)⟩,
    ⟨meetsAt_of i (by decide) (by decide +kernel), reaches_of _ 8 rfl rfl (by decide +kernel) (by decide +kernel)⟩, by decide, by decide⟩

theorem witness_StoresCommit :
    let s : State := { treeS with waves := [bufferedW] }
    (∃ x, s.trees[0]? = some x ∧ x.acc = none) ∧ s.swapOpen 0 = false ∧ s.treeWaves 0 = [0]
      ∧ ∀ w ∈ s.treeWaves 0, ∀ wv, s.waves[w]? = some wv → ∀ e ∈ wv.buf, HomeStore s e := by
  refine ⟨⟨_, rfl, rfl⟩, by decide, by decide, ?_⟩
  intro w hw wv h e he
  obtain rfl : w = 0 := by
    have : ({ treeS with waves := [bufferedW] } : State).treeWaves 0 = [0] := by decide
    simpa [this] using hw
  obtain rfl := Option.some.inj h
  simp only [bufferedW, List.mem_cons, List.not_mem_nil, or_false] at he
  subst he
  exact ⟨3, _, 4, _, 0, _, rfl, rfl, by decide, by decide, fun _ _ => ⟨by decide, by decide, by decide +kernel⟩⟩

/-- Die 0 invalidates its TLB. -/
def tlbS : State := demo.withDie 0 (fun d => { d with tlbBusy := true, tlbReq := [(0, none)] })

theorem witness_QuantaAndWatchdog :
    (∃ l, treeS.launchOf demoW = some l ∧ l.tree ≠ none ∧ l.record.quantum ≤ ({ demoW with qretired := 256 } : Wave).qretired ∧ l.qwdog ≠ 0)
      ∧ demoW.qended = false ∧ treeS.excused 0 = false ∧ treeS.power.pause = 0
      ∧ (∃ s : State, s.boundaryDue 0 = true ∧ ∃ x, s.trees[0]? = some x)
      ∧ (∀ d < 4, demo.tlbReady d = false) ∧ (tlbS.tlbReady 0 = true ∧ ∃ x, tlbS.dies[0]? = some x) := by
  refine ⟨⟨_, rfl, by decide, by decide, by decide⟩, rfl, by decide, rfl,
    ⟨{ treeS with waves := [{ demoW with qended := true }] }, by decide +kernel, ⟨_, rfl⟩⟩, by decide, ⟨by decide, ⟨_, rfl⟩⟩⟩

theorem witness_Management :
    GoodImage ⟨true, 0⟩ demo.mgmt.minVersion[0] ∧ ¬GoodImage ⟨false, 0⟩ demo.mgmt.minVersion[0]
      ∧ (demo.hostReaches 0 0x5000 64 = true ∧ demo.keyUp (memKey 0 0x5000) = true) ∧ demo.hostReaches 4 0x5000 64 = false
      ∧ (∃ s : State, s.dieDet 0 = true ∧ 0 ∈ s.liveTrees) ∧ (0 : BitVec 16).toNat < chainLength ∧ chainLength ≤ (0xFFFF : BitVec 16).toNat := by
  refine ⟨⟨rfl, by decide⟩, fun h => absurd h.1 (by decide), ⟨by decide, by decide⟩, by decide, ⟨treeS, by decide, by decide⟩,
    Nat.succ_pos _, Nat.succ_le_of_lt (Nat.mod_lt _ (by decide))⟩

/-- A wave that the debugger has stopped. -/
def stoppedW : Wave := { demoW with stopped := some none }

/-- A wave that is to stop. -/
def stoppingW : Wave := { demoW with stopping := some none }

theorem witness_DebuggerAndOpcodes :
    (demoW.life = .resident ∧ demoW.stopped = none ∧ demoW.stopping = none) ∧ (stoppedW.stopped.isSome = true ∧ stoppedW.parked = none
        ∧ ∀ k sp, k < 4 → stoppedW.table.split? k = some sp → sp.pc ≠ sp.rpc)
      ∧ (stoppingW.stopping = some none ∧ stoppingW.entering = [] ∧ stoppingW.awaits (stoppingW.faulting.bind (·.flight)) = false
        ∧ stoppingW.rq.length + stoppingW.captures ≤ 8)
      ∧ ((3 : VNum).toNat < stoppedW.vregs ∧ Uncovered stoppedW 3)
      ∧ (({ replayW with stopped := some none } : Wave).stopped.isSome = true ∧ (4 : VNum).toNat < replayW.vregs ∧ ¬Uncovered { replayW with stopped := some none } 4)
      ∧ GoodDescriptor 0x100 ∧ ¬GoodDescriptor 0 ∧ Issues (handledS false demoW) demoX ∧ CanTrap (handledS false demoW) demoX (handledL false) := by
  refine ⟨⟨rfl, rfl, rfl⟩, ⟨rfl, rfl, ?_⟩, ⟨rfl, rfl, by decide, by decide⟩, ⟨by decide, by decide, by decide⟩,
    ⟨rfl, by decide, fun h => absurd (h.1 (entryOf 1 0xFFFF) (by decide)) (by decide)⟩, by unfold GoodDescriptor; decide, by unfold GoodDescriptor; decide, handled_issues false,
    can_trap false demoW rfl (by decide)⟩
  intro k sp hk h
  have e : stoppedW.table.split? k = if k = 0 then some demoSp else none := by
    rcases (by omega : k = 0 ∨ k = 1 ∨ k = 2 ∨ k = 3) with rfl | rfl | rfl | rfl <;> rfl
  rw [e] at h
  split at h <;> cases h
  decide

/-! ## Witnesses: words and steps -/

theorem witness_EncodeDecode : WellFormed (.isub plainHdr ⟨.ui8, true, vd 3, vs 1, vs 2⟩)
    ∧ encode (.isub plainHdr ⟨.ui8, true, vd 3, vs 1, vs 2⟩) = some 0x105C0001600C000040000800#96 := by
  refine ⟨by decide, by decide⟩

/-- A state about to fetch a NOP. -/
def nopS : State := State.reset.withFetchWord 96 0x001C00000000000000000000

/-- The same with the NOP as an entry to be replayed. -/
def replayS : State :=
  { nopS with waves := nopS.waves.map (fun wv => { wv with reinj := [{ entryOf 0 fullMask with w2 := 0x001C0000 }] }) }

/-- What the wave's core picks. -/
def picked (s : State) : Option (Cand × State) := { s.advance.tidy with order := s.order.drop 1, nextCore := s.turnOf.2 }.pick

/-- The candidate. -/
def cand (s : State) : Cand := ((picked s).map (·.1)).getD ⟨9, 9, none⟩

/-- The state that remains. -/
def left (s : State) : State := ((picked s).map (·.2)).getD s

theorem issue_turn {s : State} (h : (picked s).isSome = true) (i : s.inbox = []) (o : s.turnOf.1 = 0) (n : s.turnOf.2 < 256) : IssueTurn s (left s) (cand s) := by
  refine ⟨i, o, n, ?_⟩
  show picked s = _
  unfold left cand
  cases q : picked s with
  | none => rw [q] at h; cases h
  | some x => rfl

theorem witness_StepRunsDecoded :
    (IssueTurn nopS (left nopS) (cand nopS) ∧ (cand nopS).replay = none
        ∧ (∃ wv sp l, (left nopS).waves[(cand nopS).wave]? = some wv ∧ wv.table.split? (cand nopS).slot = some sp ∧ (left nopS).launchOf wv = some l
          ∧ wv.die' = 0 ∧ sp.pc = 0 ∧ l.domain = loaderDomain ∧ l.record = loaderRecord)
        ∧ (∀ k < 3, ((({ left nopS with devTurn := true } : State).translate 0 loaderDomain (BitVec.ofNat 64 (4 * k)) .fetch).1).toOption
          = some ⟨0, 0, 0x5000 + 4 * k⟩)
        ∧ decode 0x001C00000000000000000000#96 = .ok (.nop plainHdr))
      ∧ (IssueTurn replayS (left replayS) (cand replayS) ∧ (cand replayS).replay.isSome = true) := by
  have e : ((left nopS).waves[(cand nopS).wave]?).any (fun wv => (wv.table.split? (cand nopS).slot).any (fun sp => ((left nopS).launchOf wv).any (fun l =>
      wv.die' == 0 && sp.pc == 0 && l.domain == loaderDomain && l.record == loaderRecord))) = true := by decide +kernel
  simp only [Option.any_eq_true_iff_get, Bool.and_eq_true, beq_iff_eq] at e
  refine ⟨⟨issue_turn (by decide +kernel) (by decide +kernel) (by decide +kernel) (by decide +kernel), by decide +kernel, ?_, by decide +kernel, rfl⟩,
    issue_turn (by decide +kernel) (by decide +kernel) (by decide +kernel) (by decide +kernel), by decide +kernel⟩
  obtain ⟨h1, h2, h3, ⟨⟨a, b⟩, c⟩, d⟩ := e
  exact ⟨_, _, _, (Option.some_get h1).symm, (Option.some_get h2).symm, (Option.some_get h3).symm, a, b, c, d⟩

/-- Whether an outcome is a next state that `p` accepts. -/
def nextB (o : Host.Outcome State Fault Refusal) (p : State → Bool) : Bool :=
  match o with
  | .next t => p t
  | .fault _ | .refused _ => false

theorem witness_MemoryStaysCanonical : nextB (step nopS) (fun _ => true) = true ∧ nopS.mem.wf := by
  refine ⟨by decide +kernel, by decide +kernel⟩

theorem witness_ResetState : State.reset.mem.wf := by decide

theorem witness_TypesPredicatesAndOffsets : trapOn 0 6 = false := by decide


/-! ## Decoding (R26 to R50): of every instruction one word, its opcode from the table of R50, its fields from its entry -/

/-- Group 0: control and system. -/
theorem test_decodes_control :
    (decode 0x001C00000000000000000000#96 = .ok (.nop plainHdr))
      ∧ (∃ a, decode 0x005C00000000000000000000#96 = .ok (.bra plainHdr a))
      ∧ (∃ a b c, decode 0x009C00000000000000000000#96 = .ok (.brc plainHdr a b c))
      ∧ (∃ a b c, decode 0x00DC00000000000000000000#96 = .ok (.brx plainHdr a b c))
      ∧ (∃ a b c, decode 0x011C00000000000000000000#96 = .ok (.call plainHdr a b c))
      ∧ (∃ a b c, decode 0x015C00000000000000000000#96 = .ok (.ret plainHdr a b c))
      ∧ (∃ a b, decode 0x019C00000000000000000000#96 = .ok (.loop plainHdr a b))
      ∧ (decode 0x01DC00000000000000000000#96 = .ok (.sync plainHdr))
      ∧ (∃ a, decode 0x021C00000000000000000000#96 = .ok (.sealB plainHdr a))
      ∧ (∃ a, decode 0x025C00000000000000000000#96 = .ok (.exit plainHdr a))
      ∧ (decode 0x029C00000000000000000000#96 = .ok (.yield plainHdr))
      ∧ (∃ a, decode 0x02DC00000000000000000000#96 = .ok (.trap plainHdr a))
      ∧ (∃ a b c, decode 0x031C00000000000000000000#96 = .ok (.rtt plainHdr a b c))
      ∧ (∃ a, decode 0x035C00000000000000000000#96 = .ok (.bkpt plainHdr a))
      ∧ (∃ a b c, decode 0x039C0000000C008000000000#96 = .ok (.srd plainHdr a b c))
      ∧ (∃ a b, decode 0x03DC00000840000100000000#96 = .ok (.swr plainHdr a b)) := by
  refine ⟨rfl, ⟨_, rfl⟩, ⟨_, _, _, rfl⟩, ⟨_, _, _, rfl⟩, ⟨_, _, _, rfl⟩, ⟨_, _, _, rfl⟩, ⟨_, _, rfl⟩, rfl, ⟨_, rfl⟩, ⟨_, rfl⟩, rfl, ⟨_, rfl⟩, ⟨_, _, _, rfl⟩, ⟨_, rfl⟩, ⟨_, _, _, rfl⟩, ⟨_, _, rfl⟩⟩

/-- Group 1: integer. -/
theorem test_decodes_integer :
    (∃ a, decode 0x101C00000000000000000000#96 = .ok (.iadd plainHdr a))
      ∧ (∃ a, decode 0x105C00000000000000000000#96 = .ok (.isub plainHdr a))
      ∧ (∃ a, decode 0x109C00000000000000000000#96 = .ok (.iaddc plainHdr a))
      ∧ (∃ a, decode 0x10DC00000000000000000000#96 = .ok (.isubb plainHdr a))
      ∧ (∃ a, decode 0x111C00000000000000000000#96 = .ok (.imul plainHdr a))
      ∧ (∃ a, decode 0x115C00000000000000000000#96 = .ok (.imulh plainHdr a))
      ∧ (∃ a, decode 0x119C00000000000000000000#96 = .ok (.imad plainHdr a))
      ∧ (∃ a, decode 0x11DC00000000000000000000#96 = .ok (.imadw plainHdr a))
      ∧ (∃ a, decode 0x121C00000000000000000000#96 = .ok (.idiv plainHdr a))
      ∧ (∃ a, decode 0x125C00000000000000000000#96 = .ok (.irem plainHdr a))
      ∧ (∃ a, decode 0x129C00000000000000000000#96 = .ok (.iabs plainHdr a))
      ∧ (∃ a, decode 0x12DC00000000000000000000#96 = .ok (.ineg plainHdr a))
      ∧ (∃ a, decode 0x131C00000000000000000000#96 = .ok (.imin plainHdr a))
      ∧ (∃ a, decode 0x135C00000000000000000000#96 = .ok (.imax plainHdr a))
      ∧ (∃ a, decode 0x139C00000000000000000000#96 = .ok (.iadd3 plainHdr a))
      ∧ (∃ a, decode 0x13DC00000000000000000000#96 = .ok (.isad plainHdr a))
      ∧ (∃ a, decode 0x141C00000000000000000000#96 = .ok (.lea plainHdr a))
      ∧ (∃ a, decode 0x101C00001000000000000100#96 = .ok (.iaddI plainHdr a)) := by
  refine ⟨⟨_, rfl⟩, ⟨_, rfl⟩, ⟨_, rfl⟩, ⟨_, rfl⟩, ⟨_, rfl⟩, ⟨_, rfl⟩, ⟨_, rfl⟩, ⟨_, rfl⟩, ⟨_, rfl⟩, ⟨_, rfl⟩, ⟨_, rfl⟩, ⟨_, rfl⟩, ⟨_, rfl⟩, ⟨_, rfl⟩, ⟨_, rfl⟩, ⟨_, rfl⟩, ⟨_, rfl⟩, ⟨_, rfl⟩⟩

/-- Group 2: logic and bits. -/
theorem test_decodes_logic :
    (∃ a, decode 0x201C00000000000000000000#96 = .ok (.blut plainHdr a))
      ∧ (∃ a, decode 0x205C00000000000000000000#96 = .ok (.shl plainHdr a))
      ∧ (∃ a, decode 0x209C00000000000000000000#96 = .ok (.shr plainHdr a))
      ∧ (∃ a, decode 0x20DC00000000000000000000#96 = .ok (.sar plainHdr a))
      ∧ (∃ a, decode 0x211C00000000000000000000#96 = .ok (.rot plainHdr a))
      ∧ (∃ a, decode 0x215C00000000000000000000#96 = .ok (.funl plainHdr a))
      ∧ (∃ a, decode 0x219C00000000000000000000#96 = .ok (.bfe plainHdr a))
      ∧ (∃ a, decode 0x21DC00000000000000000000#96 = .ok (.bfi plainHdr a))
      ∧ (∃ a, decode 0x221C00000000000000000000#96 = .ok (.popc plainHdr a))
      ∧ (∃ a, decode 0x225C00000000000000000000#96 = .ok (.clz plainHdr a))
      ∧ (∃ a, decode 0x229C00000000000000000000#96 = .ok (.ctz plainHdr a))
      ∧ (∃ a, decode 0x22DC00000000000000000000#96 = .ok (.brev plainHdr a))
      ∧ (∃ a, decode 0x231C00000000000000000000#96 = .ok (.bsel plainHdr a))
      ∧ (∃ a, decode 0x201C00001000000000000100#96 = .ok (.blutI plainHdr a)) := by
  refine ⟨⟨_, rfl⟩, ⟨_, rfl⟩, ⟨_, rfl⟩, ⟨_, rfl⟩, ⟨_, rfl⟩, ⟨_, rfl⟩, ⟨_, rfl⟩, ⟨_, rfl⟩, ⟨_, rfl⟩, ⟨_, rfl⟩, ⟨_, rfl⟩, ⟨_, rfl⟩, ⟨_, rfl⟩, ⟨_, rfl⟩⟩

/-- Group 3: compare, select, move, shape. -/
theorem test_decodes_moves :
    (∃ a, decode 0x301C00000000000000000000#96 = .ok (.mov plainHdr a))
      ∧ (∃ a, decode 0x305C0000100C000000000700#96 = .ok (.movi plainHdr a))
      ∧ (∃ a, decode 0x309C00000000000000000000#96 = .ok (.sel plainHdr a))
      ∧ (∃ a, decode 0x30DC00000904000100001400#96 = .ok (.icmp plainHdr a))
      ∧ (∃ a, decode 0x311C00000904000100001400#96 = .ok (.fcmp plainHdr a))
      ∧ (∃ a, decode 0x315C00000904009080090C00#96 = .ok (.plut plainHdr a))
      ∧ (∃ a, decode 0x319C00000000000000000000#96 = .ok (.psave plainHdr a))
      ∧ (∃ a b, decode 0x31DC000000000001000C007F#96 = .ok (.pload plainHdr a b))
      ∧ (∃ a b c, decode 0x321C00000000000000000000#96 = .ok (.shape plainHdr a b c))
      ∧ (∃ a b c, decode 0x325C00000000000000000000#96 = .ok (.affine plainHdr a b c))
      ∧ (∃ a, decode 0x30DC0000190400000003E807#96 = .ok (.icmpI plainHdr a)) := by
  refine ⟨⟨_, rfl⟩, ⟨_, rfl⟩, ⟨_, rfl⟩, ⟨_, rfl⟩, ⟨_, rfl⟩, ⟨_, rfl⟩, ⟨_, rfl⟩, ⟨_, _, rfl⟩, ⟨_, _, _, rfl⟩, ⟨_, _, _, rfl⟩, ⟨_, rfl⟩⟩

/-- Group 4: FP64. -/
theorem test_decodes_fp64 :
    (∃ a, decode 0x401C00000000000000000000#96 = .ok (.dadd plainHdr a))
      ∧ (∃ a, decode 0x405C00000000000000000000#96 = .ok (.dmul plainHdr a))
      ∧ (∃ a, decode 0x409C00000000000000000000#96 = .ok (.dfma plainHdr a))
      ∧ (∃ a, decode 0x40DC00000000000000000000#96 = .ok (.ddiv plainHdr a))
      ∧ (∃ a, decode 0x411C00000000000000000000#96 = .ok (.dsqrt plainHdr a))
      ∧ (∃ a, decode 0x415C00000000000000000000#96 = .ok (.dmin plainHdr a))
      ∧ (∃ a, decode 0x419C00000000000000000000#96 = .ok (.dmax plainHdr a))
      ∧ (∃ a, decode 0x41DC00000000000000000000#96 = .ok (.drint plainHdr a))
      ∧ (∃ a, decode 0x421C00000000000000000000#96 = .ok (.dscalb plainHdr a))
      ∧ (∃ a, decode 0x425C00000000000000000000#96 = .ok (.dgetexp plainHdr a))
      ∧ (∃ a, decode 0x429C00000000000000000000#96 = .ok (.dgetmant plainHdr a))
      ∧ (∃ a, decode 0x42DC00000000000000000000#96 = .ok (.dclass plainHdr a)) := by
  refine ⟨⟨_, rfl⟩, ⟨_, rfl⟩, ⟨_, rfl⟩, ⟨_, rfl⟩, ⟨_, rfl⟩, ⟨_, rfl⟩, ⟨_, rfl⟩, ⟨_, rfl⟩, ⟨_, rfl⟩, ⟨_, rfl⟩, ⟨_, rfl⟩, ⟨_, rfl⟩⟩

/-- Group 5: FP32 and 16-bit. -/
theorem test_decodes_fp32 :
    (∃ a, decode 0x501C00000000000000000000#96 = .ok (.fadd plainHdr a))
      ∧ (∃ a, decode 0x505C00000000000000000000#96 = .ok (.fmul plainHdr a))
      ∧ (∃ a, decode 0x509C00000000000000000000#96 = .ok (.ffma plainHdr a))
      ∧ (∃ a, decode 0x50DC00000000000000000000#96 = .ok (.fdiv plainHdr a))
      ∧ (∃ a, decode 0x511C00000000000000000000#96 = .ok (.fsqrt plainHdr a))
      ∧ (∃ a, decode 0x515C00000000000000000000#96 = .ok (.fmin plainHdr a))
      ∧ (∃ a, decode 0x519C00000000000000000000#96 = .ok (.fmax plainHdr a))
      ∧ (∃ a, decode 0x51DC00000000000000000000#96 = .ok (.frint plainHdr a))
      ∧ (∃ a, decode 0x521C00000000000000000000#96 = .ok (.fscalb plainHdr a))
      ∧ (∃ a, decode 0x525C00000000000000000000#96 = .ok (.fclass plainHdr a))
      ∧ (∃ a, decode 0x529C00000000000000000000#96 = .ok (.frcp plainHdr a))
      ∧ (∃ a, decode 0x52DC00000000000000000000#96 = .ok (.frsq plainHdr a))
      ∧ (∃ a, decode 0x531C00000000000000000000#96 = .ok (.fex2 plainHdr a))
      ∧ (∃ a, decode 0x535C00000000000000000000#96 = .ok (.flg2 plainHdr a))
      ∧ (∃ a, decode 0x539C00000000000000000000#96 = .ok (.fsin plainHdr a))
      ∧ (∃ a, decode 0x53DC00000000000000000000#96 = .ok (.fcos plainHdr a)) := by
  refine ⟨⟨_, rfl⟩, ⟨_, rfl⟩, ⟨_, rfl⟩, ⟨_, rfl⟩, ⟨_, rfl⟩, ⟨_, rfl⟩, ⟨_, rfl⟩, ⟨_, rfl⟩, ⟨_, rfl⟩, ⟨_, rfl⟩, ⟨_, rfl⟩, ⟨_, rfl⟩, ⟨_, rfl⟩, ⟨_, rfl⟩, ⟨_, rfl⟩, ⟨_, rfl⟩⟩

/-- Group 6: conversion, dot products, streams. -/
theorem test_decodes_conversion :
    (∃ a, decode 0x601C00000000000000000000#96 = .ok (.cvt plainHdr a))
      ∧ (∃ a, decode 0x605C00C0001C000080000C00#96 = .ok (.cvtp plainHdr a))
      ∧ (∃ a, decode 0x609C01800024000080000000#96 = .ok (.cvtn plainHdr a))
      ∧ (∃ a, decode 0x60DC001C0028000040000000#96 = .ok (.unpk plainHdr a))
      ∧ (∃ a, decode 0x611C00000000000000000000#96 = .ok (.dp2 plainHdr a))
      ∧ (∃ a, decode 0x615C00000000000000000000#96 = .ok (.dp4 plainHdr a))
      ∧ (∃ a, decode 0x619C00000000000000000000#96 = .ok (.dp8 plainHdr a))
      ∧ (∃ a, decode 0x61DC00000000000000000000#96 = .ok (.fmtset plainHdr a))
      ∧ (∃ a, decode 0x621C00000000000000000000#96 = .ok (.fmtget plainHdr a))
      ∧ (∃ a, decode 0x625C00000000000000000000#96 = .ok (.rngset plainHdr a))
      ∧ (∃ a, decode 0x629C00000000000000000000#96 = .ok (.rng plainHdr a)) := by
  refine ⟨⟨_, rfl⟩, ⟨_, rfl⟩, ⟨_, rfl⟩, ⟨_, rfl⟩, ⟨_, rfl⟩, ⟨_, rfl⟩, ⟨_, rfl⟩, ⟨_, rfl⟩, ⟨_, rfl⟩, ⟨_, rfl⟩, ⟨_, rfl⟩⟩

/-- Group 7: index registers. -/
theorem test_decodes_index :
    (∃ a b c, decode 0x701C00000000000000000000#96 = .ok (.xset plainHdr a b c))
      ∧ (∃ a b, decode 0x705C00000000000000000000#96 = .ok (.xidx plainHdr a b))
      ∧ (∃ a b c, decode 0x709C00000000000000000000#96 = .ok (.xrd plainHdr a b c))
      ∧ (∃ a b, decode 0x70DC00000000000000000000#96 = .ok (.xadd plainHdr a b))
      ∧ (∃ a, decode 0x711C00000000000000000000#96 = .ok (.xclr plainHdr a)) := by
  refine ⟨⟨_, _, _, rfl⟩, ⟨_, _, rfl⟩, ⟨_, _, _, rfl⟩, ⟨_, _, rfl⟩, ⟨_, rfl⟩⟩

/-- Group 8: lane exchange. -/
theorem test_decodes_lanes :
    (∃ a, decode 0x801C00000000000000000000#96 = .ok (.lpick plainHdr a))
      ∧ (∃ a b, decode 0x805C00000908009040000000#96 = .ok (.poll plainHdr a b))
      ∧ (∃ a, decode 0x809C00000000000000000000#96 = .ok (.rdlane plainHdr a))
      ∧ (∃ a, decode 0x80DC00000000000000000000#96 = .ok (.wrlane plainHdr a))
      ∧ (∃ a, decode 0x811C00000000000000000000#96 = .ok (.matchI plainHdr a))
      ∧ (∃ a, decode 0x815C00000000000000000000#96 = .ok (.redux plainHdr a))
      ∧ (∃ a, decode 0x819C00000000000000000000#96 = .ok (.scan plainHdr a))
      ∧ (∃ a, decode 0x81DC00000000000000000000#96 = .ok (.maxidx plainHdr a))
      ∧ (∃ a, decode 0x821C00000914000000000000#96 = .ok (.elect plainHdr a)) := by
  refine ⟨⟨_, rfl⟩, ⟨_, _, rfl⟩, ⟨_, rfl⟩, ⟨_, rfl⟩, ⟨_, rfl⟩, ⟨_, rfl⟩, ⟨_, rfl⟩, ⟨_, rfl⟩, ⟨_, rfl⟩⟩

/-- Group 9: loads and stores. -/
theorem test_decodes_loads :
    (∃ a, decode 0x901C00000000000000000000#96 = .ok (.ld plainHdr a))
      ∧ (∃ a, decode 0x905C00000000000000000000#96 = .ok (.st plainHdr a))
      ∧ (∃ a, decode 0x909C00000000000000000000#96 = .ok (.lds plainHdr a))
      ∧ (∃ a, decode 0x90DC00000000000000000000#96 = .ok (.sts plainHdr a))
      ∧ (∃ a, decode 0x911C00000000000000000000#96 = .ok (.ldt plainHdr a))
      ∧ (∃ a, decode 0x915C00000000000000000000#96 = .ok (.stt plainHdr a))
      ∧ (∃ a, decode 0x919C000200200001000C0010#96 = .ok (.ldu plainHdr a))
      ∧ (∃ a, decode 0x91DC00000000000000000000#96 = .ok (.pref plainHdr a)) := by
  refine ⟨⟨_, rfl⟩, ⟨_, rfl⟩, ⟨_, rfl⟩, ⟨_, rfl⟩, ⟨_, rfl⟩, ⟨_, rfl⟩, ⟨_, rfl⟩, ⟨_, rfl⟩⟩

/-- Group A: atomics and ordering. -/
theorem test_decodes_atomics :
    (∃ a, decode 0xA01C024A00180001000C0400#96 = .ok (.atom plainHdr a))
      ∧ (∃ a, decode 0xA05C008A00180001000C0400#96 = .ok (.atoms plainHdr a))
      ∧ (∃ a, decode 0xA09C024A00180001000C8000#96 = .ok (.cas plainHdr a))
      ∧ (∃ a, decode 0xA0DC008A00180001000C8000#96 = .ok (.cass plainHdr a))
      ∧ (∃ a, decode 0xA11C024A00180001000C0400#96 = .ok (.red plainHdr a))
      ∧ (∃ a, decode 0xA15C01580000000000000000#96 = .ok (.fence plainHdr a))
      ∧ (∃ a, decode 0xA19C01400000000100000000#96 = .ok (.cctl plainHdr a))
      ∧ (∃ a, decode 0xA1DC01800000000000000000#96 = .ok (.otsync plainHdr a)) := by
  refine ⟨⟨_, rfl⟩, ⟨_, rfl⟩, ⟨_, rfl⟩, ⟨_, rfl⟩, ⟨_, rfl⟩, ⟨_, rfl⟩, ⟨_, rfl⟩, ⟨_, rfl⟩⟩

/-- Group B: engines and majority. -/
theorem test_decodes_engines :
    (∃ a, decode 0xB01C00000000000000000000#96 = .ok (.copy plainHdr a))
      ∧ (∃ a, decode 0xB05C00000000000000000000#96 = .ok (.copyo plainHdr a))
      ∧ (∃ a b, decode 0xB09C00000000000000000000#96 = .ok (.bclose plainHdr a b))
      ∧ (∃ a b, decode 0xB0DC00000000000000000000#96 = .ok (.bwait plainHdr a b))
      ∧ (∃ a b c, decode 0xB11C00000904000100000000#96 = .ok (.btest plainHdr a b c))
      ∧ (∃ a, decode 0xB15C018D00300001000C0000#96 = .ok (.mld plainHdr a))
      ∧ (∃ a, decode 0xB19C018D00200001000C0000#96 = .ok (.mst plainHdr a)) := by
  refine ⟨⟨_, rfl⟩, ⟨_, rfl⟩, ⟨_, _, rfl⟩, ⟨_, _, rfl⟩, ⟨_, _, _, rfl⟩, ⟨_, rfl⟩, ⟨_, rfl⟩⟩

/-- Group C: matrix. -/
theorem test_decodes_matrix :
    (∃ a b, decode 0xC01C00000000000000000000#96 = .ok (.tcfg plainHdr a b))
      ∧ (∃ a b, decode 0xC05C00000000000000000000#96 = .ok (.tld plainHdr a b))
      ∧ (∃ a b, decode 0xC09C00000000000000000000#96 = .ok (.tst plainHdr a b))
      ∧ (∃ a, decode 0xC0DC00000000000000000000#96 = .ok (.tzero plainHdr a))
      ∧ (∃ a, decode 0xC11C00000000000000000000#96 = .ok (.mma plainHdr a))
      ∧ (∃ a, decode 0xC15C00000000000000000000#96 = .ok (.mmab plainHdr a))
      ∧ (∃ a, decode 0xC19C00000000000000000000#96 = .ok (.acz plainHdr a))
      ∧ (∃ a, decode 0xC1DC00000000000000000000#96 = .ok (.acld plainHdr a))
      ∧ (∃ a, decode 0xC21C00000000000000000000#96 = .ok (.acst plainHdr a))
      ∧ (∃ a, decode 0xC25C00000000000000000000#96 = .ok (.acrd plainHdr a))
      ∧ (decode 0xC29C00000000000000000000#96 = .ok (.btake plainHdr))
      ∧ (∃ a, decode 0xC2DC00000000000000000000#96 = .ok (.bpass plainHdr a))
      ∧ (∃ a, decode 0xC31C00000000000000000000#96 = .ok (.bqry plainHdr a)) := by
  refine ⟨⟨_, _, rfl⟩, ⟨_, _, rfl⟩, ⟨_, _, rfl⟩, ⟨_, rfl⟩, ⟨_, rfl⟩, ⟨_, rfl⟩, ⟨_, rfl⟩, ⟨_, rfl⟩, ⟨_, rfl⟩, ⟨_, rfl⟩, rfl, ⟨_, rfl⟩, ⟨_, rfl⟩⟩

/-- Group D: synchronisation, spans, tasks, traps. -/
theorem test_decodes_tasks :
    (∃ a b, decode 0xD01C00000000000000000000#96 = .ok (.barinit plainHdr a b))
      ∧ (∃ a b, decode 0xD05C00000000000000000000#96 = .ok (.bar plainHdr a b))
      ∧ (∃ a b, decode 0xD09C00000000000000000000#96 = .ok (.bara plainHdr a b))
      ∧ (∃ a, decode 0xD0DC00000000000000000000#96 = .ok (.bardrop plainHdr a))
      ∧ (∃ a, decode 0xD11C00000000000000000000#96 = .ok (.barjoin plainHdr a))
      ∧ (∃ a b, decode 0xD15C00000000000000000000#96 = .ok (.spanh plainHdr a b))
      ∧ (∃ a b, decode 0xD19C00000000000000000000#96 = .ok (.spanq plainHdr a b))
      ∧ (∃ a b, decode 0xD1DC00000904000500000000#96 = .ok (.spanfrz plainHdr a b))
      ∧ (∃ a, decode 0xD21C00000000000000000000#96 = .ok (.spanthaw plainHdr a))
      ∧ (∃ a, decode 0xD25C00000000000000000000#96 = .ok (.spawn plainHdr a))
      ∧ (∃ a, decode 0xD29C00000000000000000000#96 = .ok (.join plainHdr a))
      ∧ (decode 0xD2DC00000000000000000000#96 = .ok (.sdone plainHdr))
      ∧ (∃ a b c, decode 0xD31C00000000000000000000#96 = .ok (.rqrd plainHdr a b c))
      ∧ (∃ a b c, decode 0xD35C00000000000000000000#96 = .ok (.rqwr plainHdr a b c))
      ∧ (∃ a b, decode 0xD39C00000000000000000000#96 = .ok (.rqdel plainHdr a b))
      ∧ (∃ a, decode 0xD3DC00000000000000000000#96 = .ok (.kill plainHdr a))
      ∧ (decode 0xD41C00000000000000000000#96 = .ok (.qend plainHdr)) := by
  refine ⟨⟨_, _, rfl⟩, ⟨_, _, rfl⟩, ⟨_, _, rfl⟩, ⟨_, rfl⟩, ⟨_, rfl⟩, ⟨_, _, rfl⟩, ⟨_, _, rfl⟩, ⟨_, _, rfl⟩, ⟨_, rfl⟩, ⟨_, rfl⟩, ⟨_, rfl⟩, rfl, ⟨_, _, _, rfl⟩, ⟨_, _, _, rfl⟩, ⟨_, _, rfl⟩, ⟨_, rfl⟩, rfl⟩

/-! ## Fields: the words that the spec writes out field by field -/

/-- The LOOP, LD, FFMA, CVTN, ICMP.I and LPICK words of 01, 02, 05, 06, 10 and 12. -/
theorem test_fields_arithmetic :
    decode 0x019C000040000FFFFFC00000#96 = .ok (.loop plainHdr 1 ⟨0, 0xFFFFFC, 0⟩)
      ∧ decode 0x105C0001600C000040000800#96 = .ok (.isub plainHdr ⟨.ui8, true, vd 3, vs 1, vs 2⟩)
      ∧ decode 0x215C0008600C0000400C0005#96 = .ok (.funl plainHdr ⟨true, .ui32, vd 3, vs 1, .imm 5, 2⟩)
      ∧ decode 0x30DC00AC190400000003E807#96 = .ok (.icmpI plainHdr ⟨⟨1, .or, 3⟩, .si32, 1, 1000, 7⟩)
      ∧ decode 0x405C00010020000100001800#96 = .ok (.dmul plainHdr ⟨.f64, .rtz, vd 8, vs 4, vs 6⟩)
      ∧ decode 0x509C005104890002884CFF00#96 = .ok (.ffma plainHdr ⟨.f32, .rtz, .ind 1 2 .post, .reg 10 (.rot 1) false, .imm 0xFF00, 20⟩)
      ∧ decode 0x609C018050244C0080000000#96 = .ok (.cvtn plainHdr ⟨some .kf8e4, .f32, .rtz, true, .reg 9 .w8 3, vs 2⟩)
      ∧ decode 0x701C014000000001C0000000#96 = .ok (.xset plainHdr 2 true (vs 7))
      ∧ decode 0x801C0026001C000040002800#96 = .ok (.lpick plainHdr ⟨some 9, false, vd 7, ⟨1, false⟩, vs 10⟩) := by
  refine ⟨rfl, rfl, rfl, rfl, rfl, rfl, rfl, rfl, rfl⟩

/-- The LD word of 01 and words of groups A to D. -/
theorem test_fields_memory :
    decode 0x9029415200300001000C0040#96 = .ok (.ld ⟨true, 2, false, true, 2, false⟩ ⟨⟨.di, .acq, .w32, .dflt, .ordinary⟩, vd 12, vs 4, .imm 0x40⟩)
      ∧ decode 0xA05C008A00200000000C0404#96 = .ok (.atoms plainHdr ⟨⟨.gp, .rlx, .w32, .dflt, .ordinary⟩, .int .add .ui32, vd 8, vs 0, .ofs 4⟩)
      ∧ decode 0xB19C019D00240001000E0000#96 = .ok (.mst plainHdr ⟨.pk, .rel, true, 0, vs 9, vs 4⟩)
      ∧ decode 0xC11C0068A000000000000000#96 = .ok (.mma plainHdr ⟨3, 4, 5⟩)
      ∧ decode 0xD25C00200000000100001800#96 = .ok (.spawn plainHdr ⟨vs 4, vs 6, 8⟩)
      ∧ decode 0xD29C0000101C000000000000#96 = .ok (.join plainHdr (some (vd 7))) := by
  refine ⟨rfl, rfl, rfl, rfl, rfl, rfl⟩

/-- A word of an unassigned opcode, which raises 0x001 when it issues (R50), and words that the spec refuses, with their causes:
HINT[75:74], MOD and operand bits that must be zero (R26, R53), a reserved SCOPE (R45), ORDER and WIDTH (R44), rounding code (R49)
and type code (R48). -/
theorem test_refused_words :
    decode 0x045C00000000000000000000#96 = .ok (.unassignedOpcode 0 0 0x045C0000) ∧ decode 0x001C04000000000000000000#96 = .error 0x00C ∧ decode 0x001C00010000000000000000#96 = .error 0x002
      ∧ decode 0x001C00000000000000000001#96 = .error 0x00F ∧ decode 0x901C02800000000000000000#96 = .error 0x007
      ∧ decode 0x901C01700000000000000000#96 = .error 0x008 ∧ decode 0x901C00060000000000000000#96 = .error 0x009
      ∧ decode 0x501C00038000000000000000#96 = .error 0x00A ∧ decode 0x501C0000E000000000000000#96 = .error 0x00D := by
  refine ⟨rfl, rfl, rfl, rfl, rfl, rfl, rfl, rfl, rfl⟩

/-! ## WellFormed refuses an ill-formed term for each check -/

/-- The checks of operand fields (R33 to R39, R53). -/
theorem test_ill_formed_operands :
    (Instr.iadd plainHdr ⟨.si64, false, vd 3, vs 2, vs 4⟩).faults = [0x010]
      ∧ (Instr.rng plainHdr (vd 6)).faults = [0x010]
      ∧ (Instr.iadd plainHdr ⟨.si32, false, .reg 3 .w16 2, vs 2, vs 4⟩).faults = [0x005]
      ∧ (Instr.iadd plainHdr ⟨.si32, false, vd 3, .reg 2 (.mir 6) false, vs 4⟩).faults = [0x004]
      ∧ (Instr.dp2 plainHdr ⟨.rne, vd 3, .reg 2 (.elt .w8 1) false, vs 4, 6⟩).faults = [0x005]
      ∧ (Instr.fadd plainHdr ⟨.f16x2, .rne, .reg 3 .w16 1, vs 2, vs 4⟩).faults = [0x00B]
      ∧ (Instr.iadd plainHdr ⟨.si32, false, vd 3, .spec 0x1E, vs 4⟩).faults = [0x00E]
      ∧ (Instr.st plainHdr ⟨mf .ln .plain .w32, .imm 5, vs 2, .imm 0⟩).faults = [0x003]
      ∧ (Instr.brx plainHdr 0 0 (.reg 2 (.rot 1) false)).faults = [0x00F] := by
  refine ⟨rfl, rfl, rfl, rfl, rfl, rfl, rfl, rfl, rfl⟩

/-- A reserved control of a packed destination is 0x005, a legal one 0x00B (R35, R53); a register is required of PLOAD (R38, R115) and a
direct one of a FENCE through a handle (R46); CVTN by FMT to a 16-bit float names 0x00D alone (R130). -/
theorem test_ill_formed_controls :
    lowestCause (Instr.fadd plainHdr ⟨.f16x2, .rne, .reg 3 .w8 1, vs 2, vs 4⟩).faults 0x1FF = 0x005
      ∧ (Instr.pload plainHdr 1 (.imm 3)).faults = [0x003]
      ∧ (0x003 : Cause) ∈ (Instr.fence plainHdr ⟨.ln, .rel, some (.ind 1 0 .none false)⟩).faults
      ∧ (Instr.cvtn plainHdr ⟨none, .f32, .rne, false, .reg 9 .w16 1, vs 2⟩).fmtFaults 1 = [0x00D] := by
  refine ⟨rfl, rfl, by decide, rfl⟩

/-- A reserved OP of an ATOM of 64 bits raises its own cause and no other (R54, R192). -/
theorem test_reserved_operation : decode 0xA01C024B00180000800F1C00#96 = .error 0x00F := rfl

/-- The checks of types and options (R47, R48, R53). -/
theorem test_ill_formed_types :
    (Instr.imulh plainHdr ⟨.si16, false, vd 3, vs 1, vs 2⟩).faults = [0x00D]
      ∧ (Instr.imulh plainHdr ⟨.si32, true, vd 3, vs 1, vs 2⟩).faults = [0x002]
      ∧ (Instr.iaddc plainHdr ⟨.ui32, true, 3, 1, vd 3, vs 1, vs 2⟩).faults = [0x002]
      ∧ (Instr.fadd plainHdr ⟨.kf4, .rne, vd 3, vs 2, vs 4⟩).faults = [0x00D]
      ∧ (Instr.cvt plainHdr ⟨.int .si32, .elt .f32, .rne, true, vd 3, vs 2⟩).faults = [0x002]
      ∧ (Instr.rqrd plainHdr 0 21 (vd 3)).faults = [0x002] ∧ (Instr.unassignedOpcode 0 0 0).faults = [0x001] := by
  refine ⟨rfl, rfl, rfl, rfl, rfl, rfl, rfl⟩

/-- The checks of Form M, of atomics and of the majority instructions (R46, R47, R179, R192, R383). -/
theorem test_ill_formed_memory :
    (Instr.ldt plainHdr ⟨mf .di .acq .w32, vd 4, vs 2, .imm 0⟩).faults = [0x008, 0x007]
      ∧ (Instr.ld plainHdr ⟨mf .di .plain .w32, vd 4, vs 2, .imm 0⟩).faults = [0x007]
      ∧ (Instr.ld plainHdr ⟨mf .di .acq .w128, vd 4, vs 2, .imm 0⟩).faults = [0x009]
      ∧ (Instr.lds plainHdr ⟨⟨.gp, .acq, .w32, .keep, .ordinary⟩, vd 4, vs 2, .imm 0⟩).faults = [0x012]
      ∧ (Instr.ld plainHdr ⟨⟨.di, .acq, .w32, .dflt, .handle⟩, vd 4, vs 2, vs 6⟩).faults = [0x012]
      ∧ (Instr.atom plainHdr ⟨mf .sy .rlx .w64, .int .add .ui32, vd 6, vs 2, .ofs 0⟩).faults = [0x009]
      ∧ (Instr.atom plainHdr ⟨mf .sy .rlx .w32, .int .inc .si32, vd 6, vs 2, .ofs 0⟩).faults = [0x00D]
      ∧ (Instr.atom plainHdr ⟨mf .sy .rlx .w32, .int .add .ui32, vd 6, vs 2, .handle 4⟩).faults = [0x012]
      ∧ (Instr.mld plainHdr ⟨.ln, .rel, false, 0, vd 4, vs 2⟩).faults = [0x008, 0x007] := by
  refine ⟨rfl, rfl, rfl, rfl, rfl, rfl, rfl, rfl, rfl⟩

/-! ## Worked examples of the spec -/

/-- The wave of `demo` after an instruction of a wave with registers. -/
def after (l : List (Nat × VReg)) (i : Instr) (p : Wave → Bool) : Bool :=
  nextB (exec i (stateOf (withRegs l))) (fun t => (t.waves[0]?).any p)

/-- Lane L of a register. -/
def lane (wv : Wave) (r : Nat) (L : Lane) : Nat := ((wv.reg r).val[L]).toNat

/-- 10: a NOP applied to the hash 0xFFFF gives 0x1D0F. -/
theorem test_signature : sigUpdate 0xFFFF 0 = 0x1D0F := by decide +kernel

/-- 04: the chunk rule, forty products of BF16 ones on 2^24. -/
theorem test_chunks : (mmaElement 0x022 0x4B800000 (List.replicate 40 (0x3F80, 0x3F80))).bits = 0x4B800014 := by decide +kernel

/-- 05: the table of IDIV and IREM. -/
theorem test_division :
    after [(1, uniOf (2 ^ 32 - 7)), (2, uniOf 2)] (.idiv plainHdr ⟨.si32, false, vd 3, vs 1, vs 2⟩) (fun w => lane w 3 0 == 2 ^ 32 - 3) = true
      ∧ after [(1, uniOf (2 ^ 32 - 7)), (2, uniOf 2)] (.irem plainHdr ⟨.si32, false, vd 3, vs 1, vs 2⟩) (fun w => lane w 3 0 == 2 ^ 32 - 1) = true
      ∧ after [(1, uniOf 7), (2, uniOf (2 ^ 32 - 2))] (.irem plainHdr ⟨.si32, false, vd 3, vs 1, vs 2⟩) (fun w => lane w 3 0 == 1) = true
      ∧ after [(1, uniOf (2 ^ 31)), (2, uniOf (2 ^ 32 - 1))] (.idiv plainHdr ⟨.si32, false, vd 3, vs 1, vs 2⟩)
          (fun w => lane w 3 0 == 2 ^ 31 && w.fstat[(0 : Lane)] == 0x40) = true
      ∧ after [(1, uniOf (2 ^ 32 - 1)), (2, uniOf 0)] (.idiv plainHdr ⟨.ui32, false, vd 3, vs 1, vs 2⟩)
          (fun w => lane w 3 0 == 0 && w.fstat[(0 : Lane)] == 0x20) = true
      ∧ after [(1, uniOf 0x80), (2, uniOf 0xFF)] (.idiv plainHdr ⟨.si8, false, vd 3, vs 1, vs 2⟩)
          (fun w => lane w 3 0 == 0xFFFFFF80 && w.fstat[(0 : Lane)] == 0x40) = true := by
  refine ⟨?_, ?_, ?_, ?_, ?_, ?_⟩ <;> decide +kernel

/-- 05: BSEL, and the first line of the carry chain. -/
theorem test_bsel_and_carry :
    after [(1, uniOf 0x44332211), (2, uniOf 0x88776655), (5, uniOf 0x18070100)] (.bsel plainHdr ⟨.ui32, vd 3, vs 1, vs 5, 2⟩)
        (fun w => lane w 3 9 == 0xFF882211) = true
      ∧ after [(0, uniOf 0xFFFFFFFF)] (.iaddc plainHdr ⟨.ui32, true, 0, 1, vd 4, vs 0, .spec 0⟩)
        (fun w => lane w 4 0 == 0xFFFFFFFF && lane w 4 9 == 8 && w.pred 1 == 0xFFFFFFFE) = true := by
  refine ⟨?_, ?_⟩ <;> decide +kernel

/-- 05: BLUT.TT(0xE8) is the majority of A, B and the old D. -/
theorem test_blut : after [(1, uniOf 0b00001111), (2, uniOf 0b00110011), (3, uniOf 0b01010101)] (.blut plainHdr ⟨.ui32, 0xE8, vd 3, vs 1, vs 2⟩)
    (fun w => lane w 3 0 == 0b00010111) = true := by decide +kernel

/-- 06: DP4 rounds its exact sum once. -/
theorem test_dp4 :
    nextB (exec (.dp4 plainHdr ⟨.rne, vd 7, vs 4, vs 5, 6⟩) { demo with waves := [{ withRegs [(4, uniOf 0x3C40C038), (5, uniOf 0x813E3C40), (6, uniOf 0x4B800000)] with
        table := oneSplit { demoSp with fmt := 0x076 } }] })
      (fun t => (t.waves[0]?).any (fun w => lane w 7 0 == 0x4B800001 && w.fstat[(0 : Lane)] == 0x10)) = true := by decide +kernel

/-- 12: MAXIDX of (+0, -0, +0) in lanes 3, 4 and 9 gives 3; a signalling NaN in lane 6 wins over a quiet one in lane 12. -/
theorem test_maxidx :
    nextB (exec (.maxidx { plainHdr with pred := 1 } ⟨.f32, vd 5, vs 2⟩) (stateOf { withRegs [(2, regOf (fun L => if L = 4 then 2 ^ 31 else 0))] with
        preds := demoW.preds.set 1 0b1000011000 }))
      (fun t => (t.waves[0]?).any (fun w => lane w 5 3 == 3)) = true
      ∧ after [(2, regOf (fun L => if L = 12 then 0x7FC00000 else if L = 6 then 0x7F800001 else 5))] (.maxidx plainHdr ⟨.f32, vd 5, vs 2⟩)
        (fun w => lane w 5 0 == 6) = true := by
  refine ⟨?_, ?_⟩ <;> decide +kernel

/-- 26: the words of the host's example. -/
theorem test_commands :
    cmdOf 0 0x0120000000000000 0x00A01000 0 0 = .launch 0 false 0x00A01000 ∧ cmdOf 0 0x0510000000000000 0 0 0 = .cmdFence 0 false
      ∧ cmdOf 0 0x0438000000000000 0x00200040 1 0 = .signal 0 true false false 0x00200040 1 := by
  refine ⟨?_, ?_, ?_⟩ <;> decide +kernel

/-- 03, 09: a load of the code's first word, zero, leaves its register empty; the response fills it with the value. -/
theorem test_load_then_response :
    nextB (exec (.ld plainHdr ⟨mf .ln .plain .w32, vd 4, vs 2, .imm 0⟩) demo) (fun t =>
      (t.waves[0]?).any (fun w => !(w.reg 4).full) &&
        nextB (exec (.memoryResponse 0 0 0 0 0) t) (fun t => (t.waves[0]?).any (fun w => (w.reg 4).full && lane w 4 3 == 0))) = true := by
  decide +kernel

/-- 10: a uniform BRA goes on at PC + 12 + 12 times its offset. -/
theorem test_branch : nextB (exec (.bra plainHdr ⟨0, 0xFFFFFA, 0⟩) demo) (fun t =>
    (t.waves[0]?).any (fun w => (w.table.split? 0).any (fun sp => sp.pc == 0xFFFFFFC4))) = true := by decide +kernel

end Sys2Proof.Tests
end

/-! # Memory stays in canonical form (R10)

Every function of the model that answers with a state keeps the canonical form of memory. `State.Canonical` says that a state
has it, and one lemma for each such function, named after the function, says that it is kept, so that the proof for a function
that calls others is the chain of theirs. Memory itself is written in a few places alone (`State.writePage`, `State.flush`,
`State.putCells`, `State.stackBack`, the two resets); all else changes other fields or calls these. -/

namespace Sys2Proof.Machine

/-- The memory of the state is in canonical form (R10). -/
def State.Canonical (s : State) : Prop := s.mem.wf

/-- The next state of a step, if there is one, is canonical. -/
def Result.Canonical : Result → Prop
  | .next t => t.Canonical
  | .fault _ | .refused _ => True

section
variable {s : State}

/-! ## Building blocks -/

/-- Canonicity is about `mem` alone. -/
theorem State.Canonical.withFields (h : s.Canonical) {inbox devTurn order cur fresh residue hostData dbgPending clock ticks
    corrected waited memBad stackUp siteUp cfg mgmt domBase domCount dies cores launches groups waves trees copies queues
    nextQueue keys via power writers nextCore} :
    State.Canonical ⟨inbox, devTurn, order, cur, fresh, residue, hostData, dbgPending, clock, ticks, corrected, waited, s.mem,
      memBad, stackUp, siteUp, cfg, mgmt, domBase, domCount, dies, cores, launches, groups, waves, trees, copies, queues,
      nextQueue, keys, via, power, writers, nextCore⟩ := h

theorem State.Canonical.ite {c : Prop} {_ : Decidable c} {t : State} (hs : s.Canonical) (ht : t.Canonical) :
    (if c then s else t).Canonical := by split <;> assumption

theorem State.Canonical.ite_fst {α : Type} {c : Prop} {_ : Decidable c} {p q : State × α} (hp : p.1.Canonical)
    (hq : q.1.Canonical) : (if c then p else q).1.Canonical := by split <;> assumption

theorem State.Canonical.foldl {α : Type} {f : State → α → State} {l : List α} (h : s.Canonical)
    (hf : ∀ t x, t.Canonical → (f t x).Canonical) : (l.foldl f s).Canonical :=
  foldl_keeps State.Canonical f hf l s h

theorem State.Canonical.foldl_fst {α β : Type} {f : State × β → α → State × β} {l : List α} {p : State × β}
    (h : p.1.Canonical) (hf : ∀ q x, q.1.Canonical → (f q x).1.Canonical) : (l.foldl f p).1.Canonical :=
  foldl_keeps (fun q => q.1.Canonical) f hf l p h

/-- The state that an option holds, if there is one, is canonical. -/
def State.CanonicalIn (o : Option State) : Prop := ∀ t, o = some t → t.Canonical

theorem State.CanonicalIn.none : State.CanonicalIn none := fun t e => absurd e (Option.some_ne_none t).symm

theorem State.Canonical.inSome (h : s.Canonical) : State.CanonicalIn (some s) := fun _ e => Option.some.inj e ▸ h

theorem State.CanonicalIn.ite {c : Prop} {_ : Decidable c} {a b : Option State} (ha : State.CanonicalIn a)
    (hb : State.CanonicalIn b) : State.CanonicalIn (if c then a else b) := by split <;> assumption

theorem State.Canonical.getD (h : s.Canonical) {o : Option State} (ho : State.CanonicalIn o) : (o.getD s).Canonical := by
  cases o with
  | none => exact h
  | some t => exact ho t rfl

theorem State.Canonical.next (h : s.Canonical) : Result.Canonical (.next s) := h

theorem Result.Canonical.fault {f : Fault} : Result.Canonical (.fault f) := trivial

theorem Result.Canonical.ite {c : Prop} {_ : Decidable c} {a b : Result} (ha : a.Canonical) (hb : b.Canonical) :
    Result.Canonical (if c then a else b) := by split <;> assumption

/-! ## The places that write memory -/

theorem Mem.wf_filter {m : Mem} (h : m.wf) (p : Host.Cell → Bool) : Mem.wf (m.filter p) :=
  ⟨h.1.filter p, fun c hc => h.2 c (List.mem_filter.mp hc).1⟩

theorem State.Canonical.writePage (h : s.Canonical) {key bs} : (s.writePage key bs).Canonical :=
  .ite (Mem.wf_store h key bs) h

theorem State.Canonical.withDie (h : s.Canonical) {d f} : (s.withDie d f).Canonical := by
  unfold State.Canonical
  rw [State.withDie_mem]
  exact h

theorem State.Canonical.count (h : s.Canonical) {i n} : (s.count i n).Canonical := h

theorem State.Canonical.flush (h : s.Canonical) {o} : (s.flush o).Canonical := by
  have hf : (Overlay.flush (o.filter (fun c => s.keyUp c.1)) s.mem).wf := Mem.wf_flush h _
  exact .ite hf hf

/-- R334: what a write-back has brought to memory is written byte by byte. -/
theorem State.Canonical.settledMem (h : s.Canonical) : s.settledMem.wf :=
  foldl_keeps Mem.wf _ (fun m k hm => by
    split
    · exact Mem.wf_write hm _ _
    · exact hm) _ _ h

theorem Mem.wf_zeroRange {m : Mem} (h : m.wf) (bad : List Nat) (a n : Nat) : (zeroRange m bad a n).1.wf :=
  Mem.wf_filter h _

theorem Mem.wf_foldr_write {m : Mem} (h : m.wf) (l : Mem) (key : Nat) :
    Mem.wf (l.foldr (fun c x => x.write (key + c.1) c.2) m) := by
  induction l with
  | nil => exact h
  | cons c r ih => exact Mem.wf_write ih _ _

theorem State.Canonical.putCells (h : s.Canonical) {key n m} : (s.putCells key n m).Canonical :=
  Mem.wf_foldr_write (Mem.wf_zeroRange h _ _ _) m key

/-- Bytes replaced at their own addresses, and dropped where the new one is what an unlisted address reads as. -/
theorem Mem.wf_filterMap {m : Mem} (h : m.wf) {f : Host.Cell → Option Host.Cell}
    (hf : ∀ c d, c.2 ≠ unlistedByte → f c = some d → d.1 = c.1 ∧ d.2 ≠ unlistedByte) : Mem.wf (m.filterMap f) := by
  obtain ⟨rising, listed⟩ := h
  refine ⟨List.pairwise_filterMap.mpr (rising.imp_of_mem fun {a b} ha hb hab a' ha' b' hb' => ?_), fun d hd => ?_⟩
  · rw [(hf a a' (listed a ha) ha').1, (hf b b' (listed b hb) hb').1]
    exact hab
  · obtain ⟨c, hc, hcd⟩ := List.mem_filterMap.mp hd
    exact (hf c d (listed c hc) hcd).2

/-- R378: contents that are lost become free values of the same bytes (log entry 11). -/
theorem State.Canonical.stackBack (h : s.Canonical) {tier n lost} : (s.stackBack tier n lost).Canonical := by
  unfold State.stackBack
  extract_lets s1 kind here s2
  have h1 : s1.Canonical := .ite h.withFields h.withFields
  have h2 : s2.Canonical := by
    refine Mem.wf_filterMap h1 fun c d hc hd => ?_
    split at hd
    · extract_lets b at hd
      split at hd
      · exact absurd hd (by simp)
      · rename_i hb
        obtain rfl := Option.some.inj hd
        exact ⟨rfl, hb⟩
    · obtain rfl := Option.some.inj hd
      exact ⟨rfl, hc⟩
  exact .ite (.ite h2 h2.withFields) h1

theorem State.Canonical.packageReset (h : s.Canonical) {img} : (s.packageReset img).Canonical := h.settledMem

theorem State.Canonical.reset : State.reset.Canonical := reset_mem_wf

/-! ## Updates of one field -/

theorem State.Canonical.withWave (h : s.Canonical) {w f} : (s.withWave w f).Canonical := h
theorem State.Canonical.withGroup (h : s.Canonical) {g f} : (s.withGroup g f).Canonical := h
theorem State.Canonical.withLaunch (h : s.Canonical) {l f} : (s.withLaunch l f).Canonical := h
theorem State.Canonical.withCore (h : s.Canonical) {k f} : (s.withCore k f).Canonical := h
theorem State.Canonical.withTree (h : s.Canonical) {t f} : (s.withTree t f).Canonical := h
theorem State.Canonical.withQueue (h : s.Canonical) {q f} : (s.withQueue q f).Canonical := h
theorem State.Canonical.withVia (h : s.Canonical) {f} : (s.withVia f).Canonical := h
theorem State.Canonical.withStream (h : s.Canonical) {p f} : (s.withStream p f).Canonical := h
theorem State.Canonical.withInstance (h : s.Canonical) {k f} : (s.withInstance k f).Canonical := h.withDie

/-! ## Machine/Translate and Machine/Ops -/

theorem State.Canonical.cacheWalk (h : s.Canonical) {die w} : (s.cacheWalk die w).Canonical := .ite h h.withDie

theorem State.Canonical.dropLeaf (h : s.Canonical) {die dom va c} : (s.dropLeaf die dom va c).Canonical := h.withDie

theorem State.Canonical.raceLoads (h : s.Canonical) {l} : (s.raceLoads l).Canonical := .ite h h.withFields

theorem State.Canonical.unhold (h : s.Canonical) {key n} : (s.unhold key n).Canonical := h

theorem State.Canonical.writeHome (h : s.Canonical) {key bs} : (s.writeHome key bs).Canonical :=
  have hs := h.foldl fun _ _ h => h.writePage
  .ite hs hs.count

theorem State.Canonical.spoilHome (h : s.Canonical) {key n} : (s.spoilHome key n).Canonical := .ite h.withFields h

theorem State.Canonical.drainAt (h : s.Canonical) {core} : (s.drainAt core).Canonical := h.flush.raceLoads.withInstance

theorem State.Canonical.drainLaunch (h : s.Canonical) {l} : (s.drainLaunch l).Canonical :=
  h.foldl fun _ _ h => h.foldl fun _ _ h => .ite (by
    split
    · exact h.drainAt
    · exact h) h

theorem State.Canonical.settleStage (h : s.Canonical) {gi} : (s.settleStage gi).Canonical := by
  unfold State.settleStage
  split
  · exact h
  · split
    · exact h
    · exact .ite h.drainAt.withFields h

theorem State.Canonical.settleGroup (h : s.Canonical) {gi} : (s.settleGroup gi).Canonical := by
  unfold State.settleGroup
  split
  · exact h
  · refine .ite ?_ h
    split
    · exact h.withGroup.withCore
    · exact h.withGroup

theorem State.Canonical.noteDeaths (h : s.Canonical) {wv} : (s.noteDeaths wv).Canonical :=
  h.withLaunch.foldl fun _ _ h => h.withLaunch

theorem State.Canonical.releaseFreezes (h : s.Canonical) {w} : (s.releaseFreezes w).Canonical := h

theorem State.Canonical.vacate (h : s.Canonical) {w} : (s.vacate w).Canonical := by
  unfold State.vacate
  split
  · exact h
  · exact h.withCore.withWave

theorem State.Canonical.depart (h : s.Canonical) {w} : (s.depart w).Canonical := by
  unfold State.depart
  split
  · exact h
  · exact .ite h (.ite h.withWave.withGroup h.withWave.withGroup.settleStage)

theorem State.Canonical.retire (h : s.Canonical) {w} : (s.retire w).Canonical := by
  unfold State.retire
  split
  · exact h
  · exact .ite h h.noteDeaths.vacate.withWave.releaseFreezes.depart.settleGroup

theorem State.Canonical.clearLanes (h : s.Canonical) {w m} : (s.clearLanes w m).1.Canonical := by
  unfold State.clearLanes
  split
  · exact h
  · extract_lets r waits above fl a _ wv s1 s2
    have h2 : s2.Canonical := .ite h.withWave h.withWave.withGroup
    exact .ite_fst h2.retire h2

theorem State.Canonical.noteKiller (h : s.Canonical) {w m w0 w1 w2} : (s.noteKiller w m w0 w1 w2).Canonical :=
  .ite h h.withWave

theorem State.Canonical.strike (h : s.Canonical) {w m f} : (s.strike w m f).1.Canonical := h.withWave.count.clearLanes

theorem State.Canonical.killLanes (h : s.Canonical) {w m c} : (s.killLanes w m c).1.Canonical := by
  unfold State.killLanes
  split
  · exact h
  · exact .ite_fst h h.strike

theorem State.Canonical.abort (h : s.Canonical) {w c frame} : (s.abort w c frame).Canonical := by
  unfold State.abort
  split
  · exact h
  · cases frame with
    | none => exact .ite h.withWave h.withWave.strike
    | some d => exact .ite h.withWave.withWave h.withWave.withWave.strike

theorem State.Canonical.enterTrap (h : s.Canonical) {w t} : (s.enterTrap w t).Canonical := by
  unfold State.enterTrap
  split
  · exact h
  · refine .ite h (.ite h.abort ?_)
    split
    · exact h
    · exact .ite h.withWave.abort (.ite h.withWave h.withWave)

theorem State.Canonical.raiseAsync (h : s.Canonical) {w p} : (s.raiseAsync w p).Canonical := by
  unfold State.raiseAsync
  split
  · exact h
  · exact .ite h (.ite h.enterTrap (.ite h.abort h.withWave))

theorem State.Canonical.takePending (h : s.Canonical) {w} : (s.takePending w).Canonical := by
  unfold State.takePending
  split
  · exact h
  · split
    · exact h
    · exact .ite h.withWave.enterTrap h

theorem State.Canonical.settleTrap (h : s.Canonical) {w} : (s.settleTrap w).Canonical := by
  unfold State.settleTrap
  split
  · exact h
  · split
    · exact h
    · exact .ite h h.withWave.enterTrap

theorem State.Canonical.stopWave (h : s.Canonical) {w tag} : (s.stopWave w tag).Canonical := h

theorem State.Canonical.settleStop (h : s.Canonical) {w} : (s.settleStop w).Canonical := by
  unfold State.settleStop
  split
  · exact h
  · split
    · exact h
    · exact .ite h h.withWave

theorem State.Canonical.raiseMismatch (h : s.Canonical) {w mm w0 w1 w2} : (s.raiseMismatch w mm w0 w1 w2).Canonical := by
  unfold State.raiseMismatch
  split
  · exact h.enterTrap
  · exact h

theorem State.Canonical.killClass8 (h : s.Canonical) {w w0 w1 w2} : (s.killClass8 w w0 w1 w2).Canonical := by
  unfold State.killClass8
  split
  · exact h
  · exact (h.foldl fun _ _ h => h.killLanes.noteKiller).withWave

theorem State.Canonical.returnFromTrap (h : s.Canonical) {w retry skip nosig i0 i1 i2} :
    (s.returnFromTrap w retry skip nosig i0 i1 i2).Canonical := by
  unfold State.returnFromTrap
  extract_lets s1
  have h1 : s1.Canonical := .ite h h.killClass8
  split
  · exact h1
  · split
    · exact h1
    · extract_lets resume t s2 s3
      have h3 : s3.Canonical := .ite h1.withWave h1.withWave.withGroup
      split
      · exact h3.raiseMismatch
      · exact h3.raiseMismatch
      · extract_lets s4
        split
        · exact h3.withWave.enterTrap
        · exact h3.withWave
      · exact h3

/-! ## Machine/Operands: the course of every instruction (R427) -/

theorem State.Canonical.raiseP (h : s.Canonical) {w slot pc w0 w1 w2 replay c} :
    (s.raiseP w slot pc w0 w1 w2 replay c).Canonical := by
  cases replay with
  | none => exact h.enterTrap
  | some e => exact h.enterTrap

theorem State.Canonical.raise (h : s.Canonical) {c i} : (s.raise c i).Canonical := h.raiseP

theorem State.Canonical.endQuantum (h : s.Canonical) {w} : (s.endQuantum w).Canonical := by
  unfold State.endQuantum
  split
  · exact h
  · refine .ite ?_ h
    split
    · exact h.withWave.withCore
    · exact h.withWave

theorem State.Canonical.switchPoint (h : s.Canonical) {w} : (s.switchPoint w).Canonical := by
  unfold State.switchPoint
  split
  · exact h.withCore
  · exact h

theorem State.Canonical.retired (h : s.Canonical) {c} : (s.retired c).Canonical := by
  unfold State.retired
  split
  · exact h
  · extract_lets s1
    have h1 : s1.Canonical := h.withWave
    split
    · exact h1
    · exact .ite h1.endQuantum h1

theorem State.Canonical.consumeThen (h : s.Canonical) {c} {k : State → Ctx → State}
    (hk : ∀ t c, t.Canonical → (k t c).Canonical) : (s.consumeThen c k).Canonical := by
  unfold State.consumeThen
  split
  · exact h
  · extract_lets us dead m r s1 exec left after races
    have h1 : s1.Canonical := h.killLanes.noteKiller
    have ha : ∀ t, t.Canonical → (after t).Canonical := fun _ h => h.raiseMismatch
    refine .ite (ha _ h1) (.ite (ha _ h1.retired) (ha _ (.ite ?_ (hk _ _ h1))))
    clear_value races
    split
    · exact hk _ _ h1
    · exact h1.raise

theorem State.Canonical.taken (h : s.Canonical) : s.taken.Canonical := h

theorem State.Canonical.readRegs (h : s.Canonical) {w rs} : (s.readRegs w rs).Canonical :=
  h.foldl fun _ _ h => by
    split
    · exact h
    · exact .ite h (.ite h.withWave h.withWave.count)

theorem State.Canonical.stay (h : s.Canonical) : s.stay.Canonical := h

theorem State.Canonical.putBack (h : s.Canonical) {c} : (s.putBack c).Canonical := by
  unfold State.putBack
  split
  · exact h
  · exact h.withWave

theorem State.Canonical.again (h : s.Canonical) {c} : (s.again c).Canonical := h.putBack.stay

theorem State.Canonical.issueFresh (h : s.Canonical) {iss wv sp hd u} {k : State → Ctx → State}
    (hk : ∀ t c, t.Canonical → (k t c).Canonical) : (s.issueFresh iss wv sp hd u k).Canonical := by
  unfold State.issueFresh
  extract_lets exec low up s1 wv1 vals s2
  have h1 : s1.Canonical := h.readRegs
  split
  · exact h.raiseP
  · refine .ite h.stay ?_
    split
    · exact h.raiseP
    · split
      · exact h1.raiseP
      · exact h1.withWave.consumeThen hk

theorem State.Canonical.issueReplay (h : s.Canonical) {iss wv e u} {k : State → Ctx → State}
    (hk : ∀ t c, t.Canonical → (k t c).Canonical) : (s.issueReplay iss wv e u k).Canonical := by
  unfold State.issueReplay
  extract_lets exec s1 vals
  refine .ite h.stay ?_
  split
  · exact h.withWave.raiseP
  · exact h.withWave.consumeThen hk

theorem State.Canonical.issue (h : s.Canonical) {hd u} {k : State → Ctx → State}
    (hk : ∀ t c, t.Canonical → (k t c).Canonical) : Result.Canonical (Machine.issue hd u k s) := by
  unfold Machine.issue
  split
  · exact .fault
  · split
    · exact .fault
    · extract_lets s1
      have h1 : s1.Canonical := h.taken
      split
      · exact (h1.issueReplay hk).next
      · split
        · exact .fault
        · exact (h1.issueFresh hk).next

theorem State.Canonical.goTo (h : s.Canonical) {c pc} : (s.goTo c pc).Canonical := by
  unfold State.goTo
  split
  · exact h.withWave.raiseMismatch
  · exact h

theorem State.Canonical.finish (h : s.Canonical) {c kind causes edit own} : (s.finish c kind causes edit own).Canonical := by
  unfold State.finish
  extract_lets s1
  have h1 : s1.Canonical := h.retired
  split
  · exact h1.goTo
  · exact h1.enterTrap

theorem State.Canonical.raiseLate (h : s.Canonical) {c kind i bad} {rest : State → Ctx → State}
    (hr : ∀ t c, t.Canonical → (rest t c).Canonical) : (s.raiseLate c kind i bad rest).Canonical :=
  .ite h.raise (.ite h.finish (hr _ _ h))

theorem State.Canonical.residueFails (h : s.Canonical) {c} : (s.residueFails c).1.Canonical := by
  unfold State.residueFails
  split
  · exact h
  · exact .ite_fst h.withFields.count.count h.withFields.count

theorem State.Canonical.runLanes (h : s.Canonical) {c f tag pd poison} : (s.runLanes c f tag pd poison).Canonical :=
  h.residueFails.withWave.finish

theorem State.Canonical.laneOp (h : s.Canonical) {hd u tag f pd poison} :
    Result.Canonical (Machine.laneOp hd u tag f pd poison s) :=
  h.issue fun _ _ h => h.runLanes

/-! ## Machine/Control -/

theorem State.Canonical.useNosig (h : s.Canonical) {c} : (s.useNosig c).Canonical := h

theorem State.Canonical.divide (h : s.Canonical) {c tm tpc npc r} : (s.divide c tm tpc npc r).Canonical := by
  unfold State.divide
  split
  · exact h
  · exact h.withWave.raiseMismatch

theorem State.Canonical.endBranch (h : s.Canonical) {c tm tpc r bad} : (s.endBranch c tm tpc r bad).Canonical := by
  unfold State.endBranch
  split
  · exact h.divide
  · exact h.divide.enterTrap

theorem State.Canonical.branch (h : s.Canonical) {hd sig u taken tgt r pre arith} :
    Result.Canonical (Machine.branch hd sig u taken tgt r pre arith s) :=
  h.issue fun s c h => by
    split
    · exact h.raise
    · extract_lets a d s1 s2
      have ha : a.1.Canonical := .ite_fst h.residueFails h
      have h2 : s2.Canonical := .ite ha.withWave.useNosig ha.withWave
      exact .ite h2.retired.endBranch h.raise

theorem State.Canonical.execBra (h : s.Canonical) {hd f} : Result.Canonical (Machine.execBra hd f s) := h.branch

theorem State.Canonical.execBrc (h : s.Canonical) {hd z c f} : Result.Canonical (Machine.execBrc hd z c f s) := h.branch

theorem State.Canonical.execBrx (h : s.Canonical) {hd sig rofs b} : Result.Canonical (Machine.execBrx hd sig rofs b s) :=
  h.branch

theorem State.Canonical.execRet (h : s.Canonical) {hd sig rofs b} : Result.Canonical (Machine.execRet hd sig rofs b s) :=
  h.branch

theorem State.Canonical.execLoop (h : s.Canonical) {hd c f} : Result.Canonical (Machine.execLoop hd c f s) := by
  unfold Machine.execLoop
  exact h.branch

theorem State.Canonical.execCall (h : s.Canonical) {hd sig link t} : Result.Canonical (Machine.execCall hd sig link t s) := by
  unfold Machine.execCall
  split
  · exact h.branch
  · exact h.branch

theorem State.Canonical.newBlockNext (h : s.Canonical) {c} : (s.newBlockNext c).1.Canonical := by
  unfold State.newBlockNext
  split
  · exact h
  · exact h.withWave

theorem State.Canonical.execSeal (h : s.Canonical) {hd sig} : Result.Canonical (Machine.execSeal hd sig s) :=
  h.issue fun _ _ h => by
    split
    · exact h.raise
    · exact h.useNosig.retired.newBlockNext.raiseMismatch

theorem State.Canonical.execExit (h : s.Canonical) {hd sig} : Result.Canonical (Machine.execExit hd sig s) :=
  h.issue fun _ _ h => by
    split
    · exact h.raise
    · extract_lets s1 x a goes b
      have h1 : s1.Canonical := h.useNosig.retired
      have ha : a.1.Canonical := .ite_fst h1 h1.withWave.clearLanes.noteKiller
      have hb : b.1.Canonical := .ite_fst ha ha.newBlockNext
      exact hb.switchPoint.raiseMismatch

theorem State.Canonical.execNop (h : s.Canonical) {hd} : Result.Canonical (Machine.execNop hd s) :=
  h.issue fun _ _ h => h.finish

theorem State.Canonical.execSync (h : s.Canonical) {hd} : Result.Canonical (Machine.execSync hd s) :=
  h.issue fun _ _ h => by
    split
    · exact h
    · exact .ite h.finish h.stay

theorem State.Canonical.execYield (h : s.Canonical) {hd} : Result.Canonical (Machine.execYield hd s) :=
  h.issue fun _ _ h => h.withWave.switchPoint.finish

theorem State.Canonical.execTrap (h : s.Canonical) {hd n} : Result.Canonical (Machine.execTrap hd n s) :=
  h.issue fun _ _ h => .ite h.finish h.retired.enterTrap

theorem State.Canonical.execRtt (h : s.Canonical) {hd retry skip nosig} :
    Result.Canonical (Machine.execRtt hd retry skip nosig s) :=
  h.issue fun _ _ h => .ite h.finish (.ite h.raise h.retired.returnFromTrap)

theorem State.Canonical.execBkpt (h : s.Canonical) {hd tag} : Result.Canonical (Machine.execBkpt hd tag s) :=
  h.issue fun _ _ h => .ite h.finish.stopWave h.finish

theorem State.Canonical.execSwr (h : s.Canonical) {hd r a} : Result.Canonical (Machine.execSwr hd r a s) :=
  h.issue fun _ _ h => .ite h.finish h.withWave.finish

/-! ## Machine/Select and Machine/Index -/

theorem State.Canonical.execPload (h : s.Canonical) {hd mask a} : Result.Canonical (Machine.execPload hd mask a s) :=
  h.issue fun _ _ h => h.withWave.finish

theorem State.Canonical.execShape (h : s.Canonical) {hd u d a} : Result.Canonical (Machine.execShape hd u d a s) := by
  unfold Machine.execShape
  split
  · exact h.laneOp
  · exact h.laneOp

theorem State.Canonical.stepFirst (h : s.Canonical) {c} {k : State → Ctx → State}
    (hk : ∀ t c, t.Canonical → (k t c).Canonical) : (s.stepFirst c k).Canonical := by
  unfold State.stepFirst
  split
  · exact hk _ _ h
  · exact hk _ _ h.withWave

theorem State.Canonical.execXset (h : s.Canonical) {hd x z a} : Result.Canonical (Machine.execXset hd x z a s) :=
  h.issue fun _ _ h => .ite h.finish (.ite h.raise (h.stepFirst fun _ _ h => h.withWave.finish))

theorem State.Canonical.indexOp (h : s.Canonical) {hd x a f} : Result.Canonical (Machine.indexOp hd x a f s) :=
  h.issue fun _ _ h => h.stepFirst fun _ _ h => h.residueFails.withWave.finish

theorem State.Canonical.execXidx (h : s.Canonical) {hd x a} : Result.Canonical (Machine.execXidx hd x a s) := h.indexOp

theorem State.Canonical.execXadd (h : s.Canonical) {hd x a} : Result.Canonical (Machine.execXadd hd x a s) := h.indexOp

theorem State.Canonical.execXclr (h : s.Canonical) {hd mask} : Result.Canonical (Machine.execXclr hd mask s) :=
  h.issue fun _ _ h => .finish (.ite h h.withWave)

/-! ## Machine/Home -/

theorem State.Canonical.bump (h : s.Canonical) {core p} : (s.bump core p).Canonical := .ite h.withCore h

theorem State.Canonical.noteRead (h : s.Canonical) {core key} : (s.noteRead core key).Canonical := by
  unfold State.noteRead
  split
  · exact h.bump
  · exact h

theorem State.Canonical.noteWrite (h : s.Canonical) {core key} : (s.noteWrite core key).Canonical := h

theorem State.Canonical.loadLine (h : s.Canonical) {core line c} : (s.loadLine core line c).Canonical := by
  unfold State.loadLine
  refine .ite h.withCore ?_
  split
  · exact h
  · exact h.noteRead.withCore
  · exact h.noteRead.withCore
  · exact h.noteRead.withCore

theorem State.Canonical.storeAs (h : s.Canonical) {core l pier by' key bs rel} :
    (s.storeAs core l pier by' key bs rel).Canonical :=
  .ite h.noteWrite.unhold.withInstance h.noteWrite.writeHome.raceLoads.withInstance

theorem State.Canonical.noteEcc (h : s.Canonical) {key} : (s.noteEcc key).Canonical := .ite h.count h

theorem State.Canonical.noteWords (h : s.Canonical) {l} : (s.noteWords l).Canonical := h.foldl fun _ _ h => h.noteEcc

theorem State.Canonical.learn (h : s.Canonical) {die w} : (s.learn die w).Canonical := h.cacheWalk.noteWords

theorem State.Canonical.atomicAs (h : s.Canonical) {core key n lane f} : (s.atomicAs core key n lane f).1.Canonical := by
  unfold State.atomicAs
  extract_lets r s1
  have h1 : s1.Canonical := h.noteRead.noteWords
  split
  · exact h1
  · exact h1.noteWrite.writeHome.withInstance

/-! ## Machine/Remote -/

theorem State.Canonical.emit (h : s.Canonical) {p fs} : (s.emit p fs).Canonical := h

theorem State.Canonical.pumpN (h : s.Canonical) {p n} : (s.pumpN p n).Canonical := by
  induction n generalizing s with
  | zero => exact h
  | succ n ih =>
    unfold State.pumpN
    extract_lets st i
    split
    · exact h
    · exact ih h.withStream.emit

theorem State.Canonical.pump (h : s.Canonical) {p} : (s.pump p).Canonical := h.pumpN

theorem State.Canonical.post (h : s.Canonical) {p f} : (s.post p f).Canonical := h.withStream.pump

theorem State.Canonical.request (h : s.Canonical) {p op who bytes pa va attr len payload fence bad core cas} :
    (s.request p op who bytes pa va attr len payload fence bad core cas).Canonical := h.withStream.post

theorem State.Canonical.askRead (h : s.Canonical) {p n who va fence} : (s.askRead p n who va fence).Canonical := h.request

theorem State.Canonical.askWrite (h : s.Canonical) {p bs who va fence bad core} :
    (s.askWrite p bs who va fence bad core).Canonical := h.request

theorem State.Canonical.askAtomic (h : s.Canonical) {p n a who va fence bad core} :
    (s.askAtomic p n a who va fence bad core).Canonical := h.request

theorem State.Canonical.fenceWave (h : s.Canonical) {w} : (s.fenceWave w).Canonical := h

/-! ## Machine/Access and Machine/Storage -/

theorem State.Canonical.releaseAt (h : s.Canonical) {det core sc o} : (s.releaseAt det core sc o).Canonical := .ite h.drainAt h

theorem State.Canonical.passFence (h : s.Canonical) {det core w held o} : (s.passFence det core w held o).Canonical :=
  .ite h.drainAt h

theorem State.Canonical.addressResidue (h : s.Canonical) {c} {k : State → Ctx → State}
    (hk : ∀ t c, t.Canonical → (k t c).Canonical) : (s.addressResidue c k).Canonical := by
  unfold State.addressResidue
  split
  · exact hk _ _ h
  · exact .ite (hk _ _ h.residueFails) (hk _ _ h)

theorem State.Canonical.checked (h : s.Canonical) {c l} {k : State → Ctx → State}
    (hk : ∀ t c, t.Canonical → (k t c).Canonical) : (s.checked c l k).Canonical := by
  induction l generalizing s c with
  | nil => exact h.addressResidue hk
  | cons x r ih => exact .ite (ih h) (h.raiseLate fun _ _ h => ih h)

theorem State.Canonical.plan (h : s.Canonical) {c g m ea} : (s.plan c g m ea).1.Canonical := by
  unfold State.plan
  split
  · exact h
  · split
    · exact h
    · extract_lets x s1
      have h1 : s1.Canonical := h.foldl fun _ _ h => by
        split
        · exact h.dropLeaf
        · exact h.cacheWalk
        · exact h.cacheWalk
      exact h1.noteWords

theorem State.Canonical.deferLost (h : s.Canonical) {c g m ea} : (s.deferLost c g m ea).Canonical :=
  .ite h (.raiseAsync (.ite h h.withWave))

theorem State.Canonical.passOn (h : s.Canonical) {c} : (s.passOn c).Canonical := by
  unfold State.passOn
  split
  · exact h
  · exact h.withWave

theorem State.Canonical.closeAccess (h : s.Canonical) {c g ea p own} : (s.closeAccess c g ea p own).Canonical := by
  unfold State.closeAccess
  split
  · exact h.retired.withWave.passOn
  · exact .ite h.deferLost.finish h.finish
  · exact h.finish

theorem State.Canonical.fly (h : s.Canonical) {c kind m ea x stops} : (s.fly c kind m ea x stops).Canonical := by
  unfold State.fly
  split
  · exact h
  · exact .ite h h.withWave

theorem State.Canonical.buffer (h : s.Canonical) {c e} : (s.buffer c e).Canonical := h

theorem State.Canonical.poolWrite (h : s.Canonical) {core a bs} : (s.poolWrite core a bs).Canonical := h

theorem State.Canonical.noteSpan (h : s.Canonical) {core p} : (s.noteSpan core p).Canonical := h.bump.bump

theorem State.Canonical.notePool (h : s.Canonical) {c sp hd ea n} : (s.notePool c sp hd ea n).Canonical :=
  .ite (h.foldl fun _ _ h => h.noteSpan) h

/-! ## Machine/LoadStore -/

theorem State.Canonical.askLanes (h : s.Canonical) {c id n uni o m at' ea} :
    (s.askLanes c id n uni o m at' ea).Canonical := by
  unfold State.askLanes
  extract_lets e cells inCell s1
  have h1 : s1.Canonical := h.foldl fun _ _ h => by
    split
    · exact .ite h.askRead h
    · exact h
  exact h1.withFields

theorem State.Canonical.noteLoads (h : s.Canonical) {core n hd m at'} : (s.noteLoads core n hd m at').Canonical :=
  (h.foldl fun _ _ h => h.loadLine).noteWords

theorem State.Canonical.loadGlobal (h : s.Canonical) {uni o c} : (Machine.loadGlobal uni o s c).Canonical :=
  h.checked fun _ _ h =>
    (State.Canonical.ite h h.releaseAt).plan.noteLoads.fly.askLanes.closeAccess

theorem State.Canonical.loadLocal (h : s.Canonical) {c ea x} : (s.loadLocal c ea x).Canonical := h.fly.finish

theorem State.Canonical.execLds (h : s.Canonical) {hd o} : Result.Canonical (Machine.execLds hd o s) :=
  h.issue fun _ _ h => h.checked fun _ _ h => h.notePool.loadLocal

theorem State.Canonical.execLdt (h : s.Canonical) {hd o} : Result.Canonical (Machine.execLdt hd o s) :=
  h.issue fun _ _ h => h.checked fun _ _ h => h.loadLocal

theorem State.Canonical.execPref (h : s.Canonical) {hd o} : Result.Canonical (Machine.execPref hd o s) :=
  h.issue fun _ _ h => h.finish

theorem State.Canonical.storeLane (h : s.Canonical) {c core sc o e p va L bs} :
    (s.storeLane c core sc o e p va L bs).Canonical := .ite h.askWrite h.storeAs

theorem State.Canonical.storeLanes (h : s.Canonical) {c core sc o p ea data} :
    (s.storeLanes c core sc o p ea data).Canonical :=
  .ite (.ite h h.buffer) (h.foldl fun _ _ h => by
    split
    · exact h.storeLane
    · exact h)

theorem State.Canonical.execSt (h : s.Canonical) {hd o} : Result.Canonical (Machine.execSt hd o s) :=
  h.issue fun _ _ h => h.checked fun _ _ h =>
    (State.Canonical.ite h h.releaseAt.passFence).plan.storeLanes.closeAccess

theorem State.Canonical.execSts (h : s.Canonical) {hd o} : Result.Canonical (Machine.execSts hd o s) :=
  h.issue fun _ _ h => h.checked fun _ _ h =>
    (State.Canonical.ite h.notePool.buffer (h.notePool.foldl fun _ _ h => h.poolWrite)).finish

theorem State.Canonical.execStt (h : s.Canonical) {hd o} : Result.Canonical (Machine.execStt hd o s) :=
  h.issue fun _ _ h => h.checked fun _ _ h => h.withWave.finish

/-! ## Machine/Responses -/

theorem State.Canonical.raiseRefused (h : s.Canonical) {w of stamp} : (s.raiseRefused w of stamp).Canonical := by
  unfold State.raiseRefused
  split
  · exact h
  · split
    · exact h
    · exact .ite h.enterTrap h.raiseAsync

theorem State.Canonical.settleRefused (h : s.Canonical) {w id stamp} : (s.settleRefused w id stamp).Canonical :=
  .ite h h.raiseRefused

theorem State.Canonical.landFlight (h : s.Canonical) {w f m} : (s.landFlight w f m).Canonical := h.withWave.settleRefused

theorem State.Canonical.answer (h : s.Canonical) {w id a} : (s.answer w id a).Canonical := by
  unfold State.answer
  split
  · exact h
  · exact h.landFlight

theorem State.Canonical.memoryResponse (h : s.Canonical) {w k race err src} :
    (s.memoryResponse w k race err src).Canonical := by
  unfold State.memoryResponse
  split
  · exact h
  · have h1 : ∀ {c : Prop} {_ : Decidable c} {l}, (if c then s.noteWords l else s).Canonical := .ite h.noteWords h
    exact .ite h (.landFlight (.ite h1 h1.withWave))

/-! ## Machine/Majority -/

theorem State.Canonical.cacheEntry (h : s.Canonical) {core dom i bs} : (s.cacheEntry core dom i bs).Canonical := h

theorem State.Canonical.failEntry (h : s.Canonical) {core dom i c} : (s.failEntry core dom i c).Canonical := h

theorem State.Canonical.execMld (h : s.Canonical) {hd o} : Result.Canonical (Machine.execMld hd o s) :=
  h.issue fun _ _ h => h.checked fun _ _ h =>
    (State.Canonical.ite h h.releaseAt).plan.fly.askLanes.closeAccess

theorem State.Canonical.askStore (h : s.Canonical) {w core p data e fence} :
    (s.askStore w core p data e fence).Canonical := h

theorem State.Canonical.execMst (h : s.Canonical) {hd o} : Result.Canonical (Machine.execMst hd o s) :=
  h.issue fun _ _ h => .ite h.finish (h.checked fun _ _ h => by
    extract_lets core s1 r data e put s2
    have h1 : r.1.Canonical := h.releaseAt.passFence.plan
    refine State.Canonical.closeAccess (h1.getD fun t ht => ?_)
    obtain ⟨p, -, rfl⟩ := Option.map_eq_some_iff.mp ht
    exact .ite h1.buffer h1.askStore)

theorem State.Canonical.setCopyAt (h : s.Canonical) {stack off c} : (s.setCopyAt stack off c).Canonical := h

theorem State.Canonical.raiseStamp (h : s.Canonical) {k st} : (s.raiseStamp k st).Canonical := h

theorem State.Canonical.setAcc (h : s.Canonical) {k f} : (s.setAcc k f).Canonical := h

theorem State.Canonical.sendCopy (h : s.Canonical) {k r pa copy t data} : (s.sendCopy k r pa copy t data).Canonical :=
  .ite h.withFields h

theorem State.Canonical.takeCopy (h : s.Canonical) {stack off t data} : (s.takeCopy stack off t data).1.Canonical :=
  .ite_fst h.setCopyAt h

theorem State.Canonical.failMaj (h : s.Canonical) {k c} : (s.failMaj k c).Canonical := by
  unfold State.failMaj
  split
  · exact h
  · extract_lets d s1 s2
    have h1 : s1.Canonical := h.setAcc
    have h2 : s2.Canonical := by
      unfold s2
      split
      · exact h1
      · exact h1.withWave
    split
    · exact h1.failEntry
    · exact h2.raiseAsync
    · exact h2.raiseAsync

theorem State.Canonical.stampStore (h : s.Canonical) {k a data core} : (s.stampStore k a data core).Canonical :=
  .ite h.failMaj (h.raiseStamp.setAcc.foldl fun _ _ h => h.sendCopy)

theorem State.Canonical.settleMaj (h : s.Canonical) {k} : (s.settleMaj k).Canonical := by
  unfold State.settleMaj
  split
  · exact h
  · extract_lets s1
    have h1 : s1.Canonical := h.setAcc
    refine .ite ?_ h
    split
    · split
      · exact h1.answer
      · exact h1
    · exact h1.cacheEntry
    · exact h1
    · exact h1

theorem State.Canonical.majStart (h : s.Canonical) {k} : (s.majStart k).Canonical := by
  unfold State.majStart
  split
  · exact h
  · exact .ite h.setAcc h

theorem State.Canonical.majTag (h : s.Canonical) {k copy} : (s.majTag k copy).Canonical := by
  unfold State.majTag
  split
  · exact h
  · extract_lets r c
    split
    · exact h
    · exact h
    · exact .ite (.ite h.raiseStamp.setAcc.stampStore h.raiseStamp.setAcc) h

theorem State.Canonical.majLoad (h : s.Canonical) {k copy} : (s.majLoad k copy).Canonical := by
  unfold State.majLoad
  split
  · exact h
  · extract_lets r c
    split
    · exact h
    all_goals
      have h1 : ∀ {i st j f}, ((s.raiseStamp i st).setAcc j f).Canonical := h.raiseStamp.setAcc
      refine .ite (.ite (.settleMaj (.ite h1.setAcc h1)) (.ite ?_ h1)) h
      exact (h1.setAcc.foldl fun _ _ h => h.sendCopy).count.settleMaj

theorem State.Canonical.majCopy (h : s.Canonical) {m} : (s.majCopy m).Canonical := by
  unfold State.majCopy
  split
  · exact h
  · extract_lets _ s1
    have h1 : s1.Canonical := h.withFields
    refine .ite ?_ h1
    split
    · exact h1.takeCopy
    · exact h1.takeCopy.setAcc

theorem State.Canonical.majAnswer (h : s.Canonical) {k copy accept} : (s.majAnswer k copy accept).Canonical := by
  unfold State.majAnswer
  split
  · exact h
  · exact .ite h.setAcc.settleMaj h

theorem State.Canonical.majLost (h : s.Canonical) {k} : (s.majLost k).Canonical := by
  unfold State.majLost
  split
  · exact h
  · exact .ite h.failMaj h

theorem State.Canonical.scrubCell (h : s.Canonical) {r pa} : (s.scrubCell r pa).Canonical :=
  .ite h (h.foldl fun _ _ h => .ite h.takeCopy.count h)

theorem State.Canonical.scrub (h : s.Canonical) {set cell} : (s.scrub set cell).Canonical := .ite h.scrubCell.withFields h

theorem State.Canonical.rebase (h : s.Canonical) : s.rebase.Canonical := by
  unfold State.rebase
  extract_lets sets s1
  have h1 : s1.Canonical := h.foldl fun _ _ h => (h.foldl fun _ _ h => h.scrubCell).count
  exact .ite h (.ite h1.withFields h.withFields)

theorem State.Canonical.stackDown (h : s.Canonical) {tier n} : (s.stackDown tier n).Canonical := .ite h.withFields h.withFields

/-! ## Machine/Atomic -/

theorem State.Canonical.rmwLanes (h : s.Canonical) {core n m at' a} : (s.rmwLanes core n m at' a).1.Canonical :=
  State.Canonical.foldl_fst h fun _ _ h => by
    split
    · exact h
    · exact .ite_fst h.atomicAs h

theorem State.Canonical.rmwRelease (h : s.Canonical) {core n named sc o m at'} :
    (s.rmwRelease core n named sc o m at').Canonical := .ite h.drainAt h

theorem State.Canonical.askAtomics (h : s.Canonical) {n m at' ea a who o} :
    (s.askAtomics n m at' ea a who o).Canonical :=
  h.foldl fun _ _ h => by
    split
    · exact .ite h.askAtomic h
    · exact h

theorem State.Canonical.endAtomic (h : s.Canonical) {c} : (s.endAtomic c).Canonical := .ite h.endQuantum h

theorem State.Canonical.rmwGlobal (h : s.Canonical) {g m off a pred c} :
    (Machine.rmwGlobal g m off a pred s c).Canonical :=
  h.checked fun s c h => by
    extract_lets core det scope s1 r p id x s2 e s3
    have h1 : s1.Canonical := .ite h h.releaseAt.passFence
    have hr : r.1.Canonical := h1.plan
    have h2 : s2.Canonical := .ite_fst hr hr.rmwRelease.rmwLanes
    have h3 : s3.Canonical := .ite (h2.foldl fun _ _ h => h.buffer) h2
    exact .ite (.closeAccess (.ite h3 h3.askAtomics)) (.endAtomic (.closeAccess (.ite h3.fly h3.fly.askAtomics)))

theorem State.Canonical.rmwPool (h : s.Canonical) {m off a pred c} : (Machine.rmwPool m off a pred s c).Canonical :=
  h.checked fun s c h => by
    extract_lets s1 id kind at' ops cas s2 s3 _ y x
    have h1 : s1.Canonical := h.notePool
    have h2 : s2.Canonical := .ite h1 h1.buffer
    have h3 : s3.Canonical := .ite h2 h2.buffer
    have hx : x.1.Canonical := State.Canonical.foldl_fst h1 fun _ _ h => by
      dsimp only
      split
      · exact h.poolWrite
      · exact h
    exact .ite h3.fly.finish.endAtomic hx.fly.finish

theorem State.Canonical.execFence (h : s.Canonical) {hd o} : Result.Canonical (Machine.execFence hd o s) :=
  h.issue fun _ _ h => h.checked fun _ _ h => by
    extract_lets core scope s1 s2
    have h1 : s1.Canonical := .ite h h.releaseAt
    have h2 : s2.Canonical := .ite h1.withInstance h1
    exact h2.finish

theorem State.Canonical.writeBack (h : s.Canonical) {named} : (s.writeBack named).Canonical := h

theorem State.Canonical.dropLines (h : s.Canonical) {core sc named} : (s.dropLines core sc named).Canonical := h

theorem State.Canonical.execCctl (h : s.Canonical) {hd o} : Result.Canonical (Machine.execCctl hd o s) :=
  h.issue fun s c h => by
    extract_lets named t1 t
    have h1 : t1.Canonical := .ite h.writeBack h
    have ht : t.Canonical := .ite h (.ite h1.dropLines h1)
    exact ht.finish

theorem State.Canonical.execOtsync (h : s.Canonical) {hd scope} : Result.Canonical (Machine.execOtsync hd scope s) :=
  h.issue fun _ _ h => .finish (.ite h h.withFields)

/-! ## Machine/Faults -/

theorem State.Canonical.vector (h : s.Canonical) {v} : (s.vector v).Canonical := h

theorem State.Canonical.writeRecords (h : s.Canonical) {die n} : (s.writeRecords die n).Canonical := by
  induction n generalizing s with
  | zero => exact h
  | succ n ih =>
    unfold State.writeRecords
    extract_lets d
    split
    · exact h
    · exact .ite h (ih h.writeHome.withDie.vector)

theorem State.Canonical.postRecord (h : s.Canonical) {die r} : (s.postRecord die r).Canonical := h.withDie.writeRecords

theorem State.Canonical.attach (h : s.Canonical) {die dom va c p} : (s.attach die dom va c p).1.Canonical := by
  unfold State.attach
  extract_lets s1 d page
  have h1 : s1.Canonical := h.dropLeaf
  split
  · exact h1
  · split
    · exact h1
    · exact h1.withDie.postRecord

/-! ## Machine/Engine -/

theorem State.Canonical.poolScatter (h : s.Canonical) {core at' bs} : (s.poolScatter core at' bs).Canonical := h

theorem State.Canonical.noteBad (h : s.Canonical) {bad} : (s.noteBad bad).Canonical := .ite h.count h

theorem State.Canonical.engineResidue (h : s.Canonical) {core} : (s.engineResidue core).1.Canonical := by
  unfold State.engineResidue
  split
  · exact h
  · exact .ite_fst h.withFields.count.count h.withFields.count

theorem State.Canonical.noteRun (h : s.Canonical) {r bs} : (s.noteRun r bs).Canonical := h.noteWords

theorem State.Canonical.runWrite (h : s.Canonical) {core launch pier by' r bs} :
    (s.runWrite core launch pier by' r bs).Canonical := h.storeAs.foldl fun _ _ h => h.spoilHome

theorem State.Canonical.askEntry (h : s.Canonical) {core w dom i p va e} : (s.askEntry core w dom i p va e).Canonical :=
  .ite h.askRead h.withFields

/-- The state that the read of an object-table entry leaves is canonical. -/
def ObjRead.Canonical : ObjRead → Prop
  | .entry _ s | .bad s | .cause _ _ s | .late _ _ s | .ask s | .wait s => s.Canonical
  | .fault _ _ => True

theorem ObjRead.Canonical.ite {c : Prop} {_ : Decidable c} {a b : ObjRead} (ha : a.Canonical) (hb : b.Canonical) :
    ObjRead.Canonical (if c then a else b) := by split <;> assumption

theorem State.Canonical.object (h : s.Canonical) {core w dom i e} : (s.object core w dom i e).Canonical := by
  unfold State.object
  refine .ite h ?_
  extract_lets c ib va
  split
  · exact .ite h h
  · exact h.withCore
  · split
    · trivial
    · extract_lets s1
      have h1 : s1.Canonical := h.learn
      split
      · exact h1
      · trivial
      · extract_lets bs s2 s3
        have h3 : s3.Canonical := h1.noteWords.cacheEntry
        exact .ite (.ite h3 h3) (.ite h1 h1.askEntry)

/-! ## Machine/Copy -/

theorem State.Canonical.endByWait (h : s.Canonical) {w slot} : (s.endByWait w slot).Canonical := by
  unfold State.endByWait
  split
  · exact h
  · exact .ite h h.withWave.endQuantum

theorem State.Canonical.beginWait (h : s.Canonical) {c wt} : (s.beginWait c wt).Canonical := by
  unfold State.beginWait
  split
  · exact h
  · extract_lets lanes slot _ e s1 s2
    have h2 : s2.Canonical := h.retired.withWave
    split
    · exact h2
    · exact h2.switchPoint.endByWait

theorem State.Canonical.parkObject (h : s.Canonical) {c dom va x} : (s.parkObject c dom va x).Canonical :=
  h.dropLeaf.retired.withWave.passOn

theorem State.Canonical.objectCause (h : s.Canonical) {c waits x d} : (s.objectCause c waits x d).Canonical :=
  .ite h.withWave.raiseAsync.finish h.finish

theorem State.Canonical.withObject (h : s.Canonical) {c idx} {k : State → ObjEntry → State}
    (hk : ∀ t e, t.Canonical → (k t e).Canonical) : (s.withObject c idx k).Canonical := by
  unfold State.withObject
  split
  · exact h
  · rename_i la _
    have ho : (s.object (s.coreOf c) c.w la.domain idx (c.entry 0 0 c.exec 0)).Canonical := h.object
    split
    next e => rw [e] at ho; exact ho.raise
    next => exact h.parkObject
    next e => rw [e] at ho; exact ho.objectCause
    next e => rw [e] at ho; exact ho.objectCause
    next e => rw [e] at ho; exact ho.putBack
    next e => rw [e] at ho; exact ho.again
    next e => rw [e] at ho; exact hk _ _ ho

theorem State.Canonical.startCopy (h : s.Canonical) {c s2g es elts} : (s.startCopy c s2g es elts).Canonical := by
  unfold State.startCopy
  split
  · exact h
  · exact h.withFields

theorem State.Canonical.execCopy (h : s.Canonical) {hd o} : Result.Canonical (Machine.execCopy hd o s) :=
  h.issue fun _ _ h => .ite h.finish (by
    extract_lets g0
    split
    · exact h.raise
    · exact h
    · exact h.startCopy.finish)

theorem State.Canonical.execCopyo (h : s.Canonical) {hd o} : Result.Canonical (Machine.execCopyo hd o s) :=
  h.issue fun _ _ h => .ite h.finish (by
    extract_lets a idx
    split
    · exact h.raise
    · exact h
    · exact h.withObject fun _ _ h => .ite h.raise (.ite h.raise (.ite h.raise h.startCopy.finish)))

theorem State.Canonical.execBclose (h : s.Canonical) {hd mtx d} : Result.Canonical (Machine.execBclose hd mtx d s) :=
  h.issue fun _ _ h => .ite h.finish (by
    split
    · exact h
    · exact h.withWave.finish)

theorem State.Canonical.execBwait (h : s.Canonical) {hd mtx a} : Result.Canonical (Machine.execBwait hd mtx a s) :=
  h.issue fun _ _ h => .ite h.finish (.ite h.raise (.ite h.switchPoint.finish h.beginWait))

theorem State.Canonical.execBtest (h : s.Canonical) {hd mtx d a} : Result.Canonical (Machine.execBtest hd mtx d a s) :=
  h.issue fun _ _ h => .ite h.finish (.ite h.raise h.withWave.finish)

theorem State.Canonical.setCopy (h : s.Canonical) {k f} : (s.setCopy k f).Canonical := h

theorem State.Canonical.engineCause (h : s.Canonical) {w c detail pc w0 w1 w2} :
    (s.engineCause w c detail pc w0 w1 w2).Canonical := h.raiseAsync

theorem State.Canonical.moveElement (h : s.Canonical) {k core wv g op el bad runs} :
    (s.moveElement k core wv g op el bad runs).Canonical :=
  h.foldl fun _ _ h => .ite (.ite h.askWrite h.runWrite) (.ite h.askRead h.noteRun.poolScatter)

theorem State.Canonical.copyElements (h : s.Canonical) {k core wv l g op bad later i elts} :
    (s.copyElements k core wv l g op bad later i elts).Canonical := by
  induction elts generalizing s i with
  | nil => exact h.setCopy
  | cons el rest ih =>
    unfold State.copyElements
    split
    · exact h.attach.setCopy
    · exact h.setCopy.engineCause
    · exact ih h.moveElement

theorem State.Canonical.settleCopy (h : s.Canonical) {k} : (s.settleCopy k).Canonical := by
  unfold State.settleCopy
  split
  · exact h
  · extract_lets s1
    have h1 : s1.Canonical := h.setCopy
    refine .ite ?_ h
    split
    · exact h1.settleGroup
    · exact h1

theorem State.Canonical.runCopy (h : s.Canonical) {k n} : (s.runCopy k n).Canonical := by
  unfold State.runCopy
  split
  · exact h
  · refine .ite h.settleCopy (.ite h ?_)
    split
    · exact h
    · split
      · split
        · exact h.setCopy.engineResidue.copyElements.settleCopy
        · exact h
      · exact h

theorem State.Canonical.execCopyOperationComplete (h : s.Canonical) {x} :
    Result.Canonical (Machine.execCopyOperationComplete x s) :=
  State.Canonical.next (by
    split
    · exact .ite h h.runCopy
    · exact h)

/-! ## Machine/FloatOps and Machine/Matrix -/

theorem State.Canonical.execFmtset (h : s.Canonical) {hd o} : Result.Canonical (Machine.execFmtset hd o s) :=
  h.issue fun _ _ h => .finish (.ite h h.withWave)

theorem State.Canonical.guarded (h : s.Canonical) {c checks} {k : State → State}
    (hk : ∀ t, t.Canonical → (k t).Canonical) :
    (s.guarded c checks k).Canonical := by
  unfold State.guarded
  split
  · exact h.raise
  · exact hk _ h

theorem State.Canonical.groupC (h : s.Canonical) {hd u} {k : State → Ctx → Group → State}
    (hk : ∀ t c g, t.Canonical → (k t c g).Canonical) : Result.Canonical (Machine.groupC hd u k s) :=
  h.issue fun _ _ h => .ite h.finish (by
    split
    · exact hk _ _ _ h
    · exact h)

theorem State.Canonical.ownGroup (h : s.Canonical) {c f} : (s.ownGroup c f).Canonical := by
  unfold State.ownGroup
  split
  · exact h.withGroup
  · exact h

theorem State.Canonical.execBtake (h : s.Canonical) {hd} : Result.Canonical (Machine.execBtake hd s) :=
  h.groupC fun _ _ _ h =>
    .ite (.beginWait (.ite h h.ownGroup))
      (.ite h.switchPoint.finish (.ite h.ownGroup.switchPoint.finish h.ownGroup.beginWait))

theorem State.Canonical.execBpass (h : s.Canonical) {hd b} : Result.Canonical (Machine.execBpass hd b s) :=
  h.groupC fun _ _ _ h => h.guarded fun _ h => .finish (.ite h.ownGroup (.ite h h.ownGroup))

theorem State.Canonical.execBqry (h : s.Canonical) {hd d} : Result.Canonical (Machine.execBqry hd d s) :=
  h.groupC fun _ _ _ h => h.withWave.finish

theorem State.Canonical.enqueue (h : s.Canonical) {c batch k} : (s.enqueue c batch k).Canonical := by
  unfold State.enqueue
  split
  · exact h
  · exact h.withCore

theorem State.Canonical.matrixOp (h : s.Canonical) {c k} : (s.matrixOp c k).Canonical := h.enqueue.finish

theorem State.Canonical.tileMove (h : s.Canonical) {hd t lw mk} : Result.Canonical (Machine.tileMove hd t lw mk s) :=
  h.groupC fun _ _ _ h => h.guarded fun _ h => h.matrixOp

theorem State.Canonical.execTcfg (h : s.Canonical) {hd t a} : Result.Canonical (Machine.execTcfg hd t a s) :=
  h.groupC fun _ _ _ h => h.guarded fun _ h => h.ownGroup.finish

theorem State.Canonical.execTzero (h : s.Canonical) {hd t} : Result.Canonical (Machine.execTzero hd t s) :=
  h.groupC fun _ _ _ h => h.guarded fun _ h => h.matrixOp

theorem State.Canonical.mmaOp (h : s.Canonical) {hd o blocks fmt} : Result.Canonical (Machine.mmaOp hd o blocks fmt s) :=
  h.groupC fun _ _ _ h => h.guarded fun _ h => h.matrixOp

theorem State.Canonical.accMove (h : s.Canonical) {hd ac ty lw b mk} :
    Result.Canonical (Machine.accMove hd ac ty lw b mk s) :=
  h.groupC fun _ _ _ h => h.guarded fun _ h => h.matrixOp

theorem State.Canonical.execAcz (h : s.Canonical) {hd ac} : Result.Canonical (Machine.execAcz hd ac s) :=
  h.groupC fun _ _ _ h => h.guarded fun _ h => h.matrixOp

theorem State.Canonical.accObject (h : s.Canonical) {hd o q} : Result.Canonical (Machine.accObject hd o q s) :=
  h.groupC fun _ _ _ h => h.guarded fun _ h => h.withObject fun _ _ h => h.guarded fun _ h => h.matrixOp

theorem State.Canonical.execAcst (h : s.Canonical) {hd o} : Result.Canonical (Machine.execAcst hd o s) := by
  unfold Machine.execAcst
  cases o.tgt with
  | scratch lw => exact h.accMove
  | object q => exact h.accObject

theorem State.Canonical.execAcrd (h : s.Canonical) {hd o} : Result.Canonical (Machine.execAcrd hd o s) :=
  h.issue fun _ _ h => .ite h.finish (by
    split
    · exact h
    · exact h.guarded fun _ h => h.checked fun _ _ h => h.fly.enqueue.finish.endAtomic)

theorem State.Canonical.mmaStep (h : s.Canonical) {core g ta tb tca tcb fmt bad p} :
    (s.mmaStep core g ta tb tca tcb fmt bad p).1.Canonical := h.poolScatter

theorem State.Canonical.withHead (h : s.Canonical) {core f} : (s.withHead core f).Canonical := h

theorem State.Canonical.keepFlags (h : s.Canonical) {core fl} : (s.keepFlags core fl).Canonical := h

theorem State.Canonical.raiseMflags (h : s.Canonical) {w fl} : (s.raiseMflags w fl).Canonical := h

theorem State.Canonical.performMma (h : s.Canonical) {core g ac ta tb tca tcb fmt blocks bad} :
    (s.performMma core g ac ta tb tca tcb fmt blocks bad).Canonical := by
  unfold State.performMma
  extract_lets r
  have hr : r.1.Canonical := State.Canonical.foldl_fst h fun _ _ h => h.mmaStep
  exact hr.keepFlags.noteBad

theorem State.Canonical.moveAll (h : s.Canonical) {α : Type} {bad} {f : State → α → Bool → State × Bool} {l : List α}
    (hf : ∀ t x b, t.Canonical → (f t x b).1.Canonical) : (s.moveAll bad f l).Canonical := by
  unfold State.moveAll
  extract_lets r
  have hr : r.1.Canonical := State.Canonical.foldl_fst h fun _ _ h => hf _ _ _ h
  exact hr.noteBad

theorem State.Canonical.performTld (h : s.Canonical) {core g w bad l} : (s.performTld core g w bad l).Canonical :=
  h.moveAll fun _ _ _ h => h.withCore

theorem State.Canonical.performTst (h : s.Canonical) {core g w bad l} : (s.performTst core g w bad l).Canonical :=
  h.moveAll fun _ _ _ h => h.poolScatter

theorem State.Canonical.performPool (h : s.Canonical) {core bad l} : (s.performPool core bad l).Canonical :=
  h.moveAll fun _ _ _ h => h.poolScatter

theorem State.Canonical.performAdd (h : s.Canonical) {core ty bad l} : (s.performAdd core ty bad l).Canonical :=
  h.moveAll fun _ _ _ h => h.poolScatter.keepFlags

theorem State.Canonical.addGlobal (h : s.Canonical) {core w ty r v bad va} :
    (s.addGlobal core w ty r v bad va).Canonical := by
  unfold State.addGlobal
  extract_lets n key x err s1 s2
  have h1 : s1.Canonical := h.atomicAs.keepFlags.noteBad
  have h2 : s2.Canonical := .ite h1 h1.raceLoads
  exact .ite h.askAtomic (.ite h2.spoilHome h2)

theorem State.Canonical.storeElements (h : s.Canonical) {core wv l g e ac ty add bad i elts} :
    (s.storeElements core wv l g e ac ty add bad i elts).Canonical := by
  induction elts generalizing s i with
  | nil => exact h
  | cons x rest ih =>
    unfold State.storeElements
    split
    · exact h.withHead.engineCause
    · exact h
    · exact ih (h.noteBad.foldl fun _ _ h => .ite h.addGlobal (.ite h.askWrite h.runWrite))

theorem State.Canonical.performStore (h : s.Canonical) {core g wv e ac ty add bad elts later} :
    (s.performStore core g wv e ac ty add bad elts later).Canonical := by
  unfold State.performStore
  split
  · exact h
  · split
    · exact h.withHead.storeElements.attach.withHead
    · exact h.withHead.storeElements

theorem State.Canonical.performAcrd (h : s.Canonical) {core g w ac w64 flight idx} :
    (s.performAcrd core g w ac w64 flight idx).Canonical := h.answer

theorem State.Canonical.setHead (h : s.Canonical) {core k} : (s.setHead core k).Canonical := h

theorem State.Canonical.performHead (h : s.Canonical) {core g wv e n bad} :
    (s.performHead core g wv e n bad).Canonical := by
  unfold State.performHead
  split
  · exact h.performTld.setHead
  · exact h.performTst.setHead
  · exact h.withCore
  · exact h.performMma
  · exact h.withCore
  · exact h.performPool.setHead
  · exact .setHead (.ite h.performAdd h.performPool)
  · exact h.performStore
  · exact h.performAcrd

theorem State.Canonical.popMatrix (h : s.Canonical) {core} : (s.popMatrix core).Canonical := by
  unfold State.popMatrix
  split
  · exact h
  · exact .ite h h.withCore.raiseMflags.settleGroup

theorem State.Canonical.runMatrix (h : s.Canonical) {core n} : (s.runMatrix core n).Canonical := by
  unfold State.runMatrix
  split
  · exact h
  · refine .ite h ?_
    split
    · exact (State.Canonical.ite_fst h.engineResidue h).withHead.performHead.popMatrix
    · exact h

theorem State.Canonical.execMatrixOperationComplete (h : s.Canonical) {x} :
    Result.Canonical (Machine.execMatrixOperationComplete x s) :=
  State.Canonical.next (by
    split
    · exact h
    · split
      · exact .ite h h.runMatrix
      · exact h)

/-! ## Machine/Barriers -/

theorem State.Canonical.setBar (h : s.Canonical) {c n b} : (s.setBar c n b).Canonical := h.ownGroup

theorem State.Canonical.barWait (h : s.Canonical) {c n b p} : (s.barWait c n b p).Canonical :=
  .ite h.switchPoint.finish h.beginWait

theorem State.Canonical.execBarinit (h : s.Canonical) {hd n a} : Result.Canonical (Machine.execBarinit hd n a s) :=
  h.groupC fun _ _ _ h => h.guarded fun _ h => h.setBar.finish

theorem State.Canonical.execBar (h : s.Canonical) {hd n token} : Result.Canonical (Machine.execBar hd n token s) :=
  h.groupC fun _ _ _ h => by
    cases token with
    | some _ => exact h.barWait
    | none => exact h.guarded fun _ h => h.setBar.barWait

theorem State.Canonical.execBara (h : s.Canonical) {hd n d} : Result.Canonical (Machine.execBara hd n d s) :=
  h.groupC fun _ _ _ h => h.guarded fun _ h => h.setBar.withWave.switchPoint.finish

theorem State.Canonical.execBardrop (h : s.Canonical) {hd n} : Result.Canonical (Machine.execBardrop hd n s) :=
  h.groupC fun _ _ _ h => h.guarded fun _ h => h.setBar.switchPoint.finish

theorem State.Canonical.execBarjoin (h : s.Canonical) {hd n} : Result.Canonical (Machine.execBarjoin hd n s) :=
  h.groupC fun _ _ _ h => h.guarded fun _ h => h.setBar.barWait

theorem State.Canonical.withSpan (h : s.Canonical) {hd f} : (s.withSpan hd f).Canonical := h.withDie

theorem State.Canonical.setFreeze (h : s.Canonical) {w hd n} : (s.setFreeze w hd n).Canonical := h.withDie

theorem State.Canonical.freeze (h : s.Canonical) {w hd} : (s.freeze w hd).Canonical := h.setFreeze.withSpan

theorem State.Canonical.thaw (h : s.Canonical) {w hd} : (s.thaw w hd).Canonical := h.setFreeze.withSpan

theorem State.Canonical.execSpanh (h : s.Canonical) {hd frz d} : Result.Canonical (Machine.execSpanh hd frz d s) :=
  h.groupC fun _ _ _ h => h.guarded fun _ h => (State.Canonical.ite h.freeze h).withWave.finish

theorem State.Canonical.execSpanq (h : s.Canonical) {hd d a} : Result.Canonical (Machine.execSpanq hd d a s) :=
  h.groupC fun _ _ _ h => h.guarded fun _ h => h.withWave.finish

theorem State.Canonical.execSpanfrz (h : s.Canonical) {hd d a} : Result.Canonical (Machine.execSpanfrz hd d a s) :=
  h.groupC fun _ _ _ h => h.guarded fun _ h =>
    .ite h.withWave.finish (h.guarded fun _ h => h.freeze.withWave.finish)

theorem State.Canonical.execSpanthaw (h : s.Canonical) {hd a} : Result.Canonical (Machine.execSpanthaw hd a s) :=
  h.groupC fun _ _ _ h => h.guarded fun _ h => h.thaw.finish

/-! ## Machine/Replay -/

theorem State.Canonical.dropEntry (h : s.Canonical) {w e} : (s.dropEntry w e).Canonical := by
  unfold State.dropEntry
  extract_lets s1
  have h1 : s1.Canonical := h.withWave
  split
  · exact h1
  · exact .ite h1 h1.withGroup

theorem State.Canonical.dropEmpty (h : s.Canonical) {w} : (s.dropEmpty w).Canonical := by
  unfold State.dropEmpty
  split
  · exact h.dropEntry
  · exact h

theorem State.Canonical.writeEntry (h : s.Canonical) {w e word m v} : (s.writeEntry w e word m v).Canonical :=
  h.withWave.dropEmpty

theorem State.Canonical.deleteEntry (h : s.Canonical) {w e cmp} : (s.deleteEntry w e cmp).Canonical :=
  h.withWave.dropEntry

theorem State.Canonical.execRqrd (h : s.Canonical) {hd e w d} : Result.Canonical (Machine.execRqrd hd e w d s) :=
  h.groupC fun _ _ _ h => h.guarded fun _ h => h.withWave.finish

theorem State.Canonical.execRqwr (h : s.Canonical) {hd e w a} : Result.Canonical (Machine.execRqwr hd e w a s) :=
  h.issue fun _ _ h => .ite h.finish (by
    extract_lets x bad
    clear_value bad
    split
    · exact h.raiseLate fun _ _ h => h
    · exact h.writeEntry.finish)

theorem State.Canonical.execRqdel (h : s.Canonical) {hd e cmp} : Result.Canonical (Machine.execRqdel hd e cmp s) :=
  h.groupC fun _ _ _ h => h.guarded fun _ h => h.deleteEntry.finish

theorem State.Canonical.execKill (h : s.Canonical) {hd a} : Result.Canonical (Machine.execKill hd a s) :=
  h.issue fun _ _ h => .ite h.finish (by
    extract_lets cause s1 mine k r goes
    have hr : r.1.Canonical := h.retired.killLanes.noteKiller
    have hg : goes.1.Canonical := by
      unfold goes
      split
      · exact .ite_fst hr hr.withWave
      · exact hr
    split
    · exact hg.raiseMismatch
    · exact hg.enterTrap)

/-! ## Machine/Launches and Machine/Tasks -/

theorem State.Canonical.sysWrite (h : s.Canonical) {p bs va} : (s.sysWrite p bs va).Canonical := .ite h.askWrite h.writeHome

theorem State.Canonical.accept (h : s.Canonical) {r dom queue qwdog depth parent tree ordinal} :
    (s.accept r dom queue qwdog depth parent tree ordinal).Canonical := h

theorem State.Canonical.acceptChild (h : s.Canonical) {w r} : (s.acceptChild w r).Canonical := by
  unfold State.acceptChild
  split
  · exact h
  · split
    · exact h
    · extract_lets ord n s1 s2
      have h1 : s1.Canonical := h.accept
      have h2 : s2.Canonical := by
        unfold s2
        split
        · exact h1.withFields
        · exact h1
      exact h2.withWave

theorem State.Canonical.writeAt (h : s.Canonical) {ps bs va} : (s.writeAt ps bs va).Canonical :=
  h.foldl fun _ _ h => h.sysWrite

theorem State.Canonical.writeDone (h : s.Canonical) {l} : (s.writeDone l).Canonical := by
  unfold State.writeDone
  refine .ite h ?_
  split
  · exact h.writeAt.writeAt
  · exact h.count.vector

theorem State.Canonical.hostLaunch (h : s.Canonical) {bs grid dom queue qwdog} :
    (s.hostLaunch bs grid dom queue qwdog).Canonical := by
  unfold State.hostLaunch
  extract_lets r r'
  split
  · exact h.withFields.writeDone
  · exact .ite h.accept.withFields h.accept

theorem State.Canonical.complete (h : s.Canonical) {i} : (s.complete i).Canonical := by
  unfold State.complete
  split
  · exact h
  · exact .ite h.drainLaunch.writeDone.withLaunch h

theorem State.Canonical.execLaunchCompletion (h : s.Canonical) {l} : Result.Canonical (Machine.execLaunchCompletion l s) :=
  State.Canonical.next (.ite h.complete h)

theorem State.Canonical.execSpawn (h : s.Canonical) {hd o} : Result.Canonical (Machine.execSpawn hd o s) :=
  h.issue fun _ _ h => .ite h.finish (by
    split
    · refine .ite h.raise (.ite h.raise (.ite h.again ?_))
      split
      · exact h.learn.parkObject
      · extract_lets s1 up r0 r
        have h1 : s1.Canonical := h.learn
        split
        · exact h1.raise
        · exact .ite h1.buffer.finish h1.drainAt.acceptChild.finish
    · exact h)

theorem State.Canonical.joinEnd (h : s.Canonical) {w js d er m} : (s.joinEnd w js d er m).Canonical := h

theorem State.Canonical.joinLeaves (h : s.Canonical) {w js} : (s.joinLeaves w js).Canonical := by
  unfold State.joinLeaves
  split
  · exact .ite h.withGroup h
  · exact h

theorem State.Canonical.execJoin (h : s.Canonical) {hd d} : Result.Canonical (Machine.execJoin hd d s) :=
  h.groupC fun _ _ _ h => h.guarded fun _ h => .ite h.joinEnd.switchPoint.finish h.joinLeaves.beginWait

theorem State.Canonical.execSdone (h : s.Canonical) {hd} : Result.Canonical (Machine.execSdone hd s) :=
  h.groupC fun s c g h => by
    extract_lets last s1 s2
    have h1 : s1.Canonical := .ite h h.ownGroup
    have h2 : s2.Canonical := by
      unfold s2
      split
      · exact .ite h1 h1.settleStage
      · exact h1
    exact h2.finish

theorem State.Canonical.execQend (h : s.Canonical) {hd} : Result.Canonical (Machine.execQend hd s) :=
  h.groupC fun _ _ _ h => .ite h.finish.switchPoint.endQuantum h.finish

/-! ## Machine/SaveArea and Machine/Schedule -/

theorem State.Canonical.saveWave (h : s.Canonical) {w} : (s.saveWave w).Canonical := by
  unfold State.saveWave
  split
  · exact h
  · split
    · exact h
    · exact h.putCells.withWave

theorem State.Canonical.loadWave (h : s.Canonical) {w} : (s.loadWave w).Canonical := by
  unfold State.loadWave
  split
  · exact h
  · split
    · exact h.withWave
    · exact h

theorem State.Canonical.saveRecord (h : s.Canonical) {gi n a r} : (s.saveRecord gi n a r).Canonical := by
  unfold State.saveRecord
  split
  · exact h
  · split
    · exact h
    · exact h.putCells.withGroup

theorem State.Canonical.loadRecord (h : s.Canonical) {gi l} : (s.loadRecord gi l).Canonical := by
  unfold State.loadRecord
  split
  · exact h
  · split
    · exact h
    · exact .ite h (.ite h.withGroup (h.withGroup.foldl fun _ _ h => h.withWave))

theorem State.Canonical.seat (h : s.Canonical) {w k l} : (s.seat w k l).Canonical := by
  unfold State.seat
  split
  · exact h
  · exact h.withCore.withWave.withWave

theorem State.Canonical.seatGroup (h : s.Canonical) {gi k l} : (s.seatGroup gi k l).Canonical := h

theorem State.Canonical.startGroup (h : s.Canonical) {li gi k} : (s.startGroup li gi k).Canonical := by
  unfold State.startGroup
  split
  · exact h.seatGroup.withGroup.foldl fun _ _ h => h.withFields.withGroup.seat
  · exact h

theorem State.Canonical.suspend (h : s.Canonical) {w life} : (s.suspend w life).Canonical := by
  unfold State.suspend
  split
  · exact h
  · exact h.withWave.saveWave.vacate

theorem State.Canonical.saveGroup (h : s.Canonical) {gi wake} : (s.saveGroup gi wake).Canonical := by
  unfold State.saveGroup
  split
  · exact h
  · split
    · exact h
    · exact h.withCore.withGroup.saveRecord

theorem State.Canonical.restoreGroup (h : s.Canonical) {gi k l} : (s.restoreGroup gi k l).Canonical := by
  unfold State.restoreGroup
  extract_lets s1
  have h1 : s1.Canonical := h.loadRecord
  split
  · exact h1
  · split
    · exact h1
    · extract_lets same s2
      have h2 : s2.Canonical := (State.Canonical.ite h1 h1.drainAt).seatGroup
      split
      · exact h2
      · exact h2.withCore.withGroup

theorem State.Canonical.reseat (h : s.Canonical) {w k l} : (s.reseat w k l).Canonical := h.loadWave.seat.fenceWave

theorem State.Canonical.endWait (h : s.Canonical) {w slot} : (s.endWait w slot).Canonical := by
  unfold State.endWait
  split
  · exact h
  · split
    · exact h
    · extract_lets e s1 s2
      have h1 : s1.Canonical := by
        unfold s1
        split
        · exact h.joinEnd
        all_goals exact h
      have h2 : s2.Canonical := h1.withWave
      split
      · exact h2
      · exact h2.withWave.raiseMismatch

theorem State.Canonical.wakeWave (h : s.Canonical) {w} : (s.wakeWave w).Canonical :=
  h.foldl fun _ _ h => by
    split
    · split
      · exact .ite h.endWait h
      · exact h
    · exact h

theorem State.Canonical.swapOut (h : s.Canonical) {w} : (s.swapOut w).Canonical := by
  unfold State.swapOut
  split
  · exact h
  · exact .ite h (State.Canonical.ite h h.withGroup).suspend

theorem State.Canonical.placeNow (h : s.Canonical) {li u k} : (s.placeNow li u k).Canonical := by
  unfold State.placeNow
  split
  · exact h
  · extract_lets _ s1
    have h1 : s1.Canonical := h.withFields
    split
    · exact h1.withFields.withLaunch.startGroup
    · exact h1.startGroup
    · split
      · exact h1.restoreGroup.foldl fun _ _ h => h.reseat
      · exact h1

theorem State.Canonical.execGroupPlacement (h : s.Canonical) {l} : Result.Canonical (Machine.execGroupPlacement l s) :=
  State.Canonical.next (by
    split
    · exact .ite h.placeNow h
    · exact h)

theorem State.Canonical.saveIdle (h : s.Canonical) {gi} : (s.saveIdle gi).Canonical := by
  unfold State.saveIdle
  split
  · exact h
  · exact .ite h.saveGroup h

theorem State.Canonical.execPreemption (h : s.Canonical) {t} : Result.Canonical (Machine.execPreemption t s) :=
  State.Canonical.next (by
    split
    · split
      · exact .ite h.suspend h
      · exact h
    · split
      · refine .ite (State.Canonical.saveGroup (h.foldl fun _ _ h => ?_)) h
        split
        · exact h.suspend
        · exact h.withWave
        all_goals exact h
      · exact h)

theorem State.Canonical.comeBack (h : s.Canonical) {w wv} : (s.comeBack w wv).Canonical := by
  unfold State.comeBack
  split
  · exact .ite h.reseat h
  · exact h

theorem State.Canonical.execEvictedWaveReturn (h : s.Canonical) {w} :
    Result.Canonical (Machine.execEvictedWaveReturn w s) :=
  State.Canonical.next (by
    split
    · exact .ite h.comeBack h
    · exact h)

theorem State.Canonical.execJoinResume (h : s.Canonical) {w} : Result.Canonical (Machine.execJoinResume w s) :=
  State.Canonical.next (by
    split
    · refine .ite ?_ h
      split
      · refine .ite h.comeBack (.ite ?_ h)
        extract_lets ws vs
        split
        · exact h.restoreGroup.foldl fun _ _ h => h.reseat
        · exact h
      · exact h
    · exact h)

/-! ## Machine/Parking -/

theorem State.Canonical.attachAll (h : s.Canonical) {die dom p l} : (s.attachAll die dom p l).1.Canonical := by
  induction l generalizing s with
  | nil => exact h
  | cons x rest ih =>
    unfold State.attachAll
    extract_lets a r
    have hr : r.1.Canonical := ih h.attach
    split
    · exact hr
    · exact hr

theorem State.Canonical.parkOn (h : s.Canonical) {w f lanes failed} : (s.parkOn w f lanes failed).Canonical := by
  unfold State.parkOn
  split
  · exact h
  · split
    · exact h
    · exact h.attachAll.withWave

theorem State.Canonical.park (h : s.Canonical) {w} : (s.park w).Canonical := by
  unfold State.park
  split
  · exact h
  · split
    · exact h
    · exact .ite h h.withWave.parkOn

theorem State.Canonical.unpark (h : s.Canonical) {w} : (s.unpark w).Canonical := by
  unfold State.unpark
  split
  · exact h
  · split
    · exact h
    · extract_lets s1
      have h1 : s1.Canonical := h.withWave
      refine .ite ?_ h
      split
      · exact h1.withWave
      · split
        · exact h1.enterTrap
        · exact h1.enterTrap

theorem State.Canonical.settleArrivals (h : s.Canonical) {w} : (s.settleArrivals w).Canonical := by
  unfold State.settleArrivals
  split
  · exact h
  · refine .ite h ?_
    split
    · exact h
    · exact h.withWave.raiseMismatch

theorem State.Canonical.retranslate (h : s.Canonical) {w} : (s.retranslate w).Canonical := by
  unfold State.retranslate
  split
  · exact h
  · split
    · exact .ite h.parkOn.unpark h
    · exact h

theorem State.Canonical.answerCopy (h : s.Canonical) {k die i page c fail} :
    (s.answerCopy k die i page c fail).Canonical := by
  unfold State.answerCopy
  split
  · exact h
  · exact .ite (.ite h.setCopy.engineCause.settleCopy h.setCopy) h

theorem State.Canonical.answerMatrix (h : s.Canonical) {core die i page c fail} :
    (s.answerMatrix core die i page c fail).Canonical := by
  unfold State.answerMatrix
  split
  · exact h
  · exact .ite (.ite h.withHead.engineCause.popMatrix h.withHead) h

theorem State.Canonical.answerSaved (h : s.Canonical) {gi die i page c fail} :
    (s.answerSaved gi die i page c fail).Canonical := by
  unfold State.answerSaved
  split
  · exact h
  · split
    · exact h
    · exact .ite h.withGroup.engineCause h.withGroup

theorem State.Canonical.ignored (h : s.Canonical) : s.ignored.Canonical := h

theorem State.Canonical.answerFault (h : s.Canonical) {die v} : (s.answerFault die v).Canonical := by
  unfold State.answerFault
  extract_lets i act fail
  split
  · exact h.ignored
  · extract_lets s1 s2 s3 s4 s5
    have h1 : s1.Canonical := h.withDie
    have h2 : s2.Canonical := h1.foldl fun _ _ h => by
      split
      · exact .ite h.withWave.unpark h
      · exact h
    have h3 : s3.Canonical := h2.foldl fun _ _ h => h.answerCopy
    have h4 : s4.Canonical := h3.foldl fun _ _ h => h.answerMatrix
    have h5 : s5.Canonical := h4.foldl fun _ _ h => h.answerSaved
    refine .ite h.ignored (h5.foldl fun _ _ h => ?_)
    split
    · exact .ite h.retranslate h
    · exact h

theorem State.Canonical.startTlbinv (h : s.Canonical) {die v} : (s.startTlbinv die v).Canonical := .ite h.ignored h.withDie

theorem State.Canonical.endTlbinv (h : s.Canonical) {die} : (s.endTlbinv die).Canonical := .ite h.withDie h

theorem State.Canonical.execTlbinvDone (h : s.Canonical) : Result.Canonical (Machine.execTlbinvDone s) :=
  State.Canonical.next (by
    split
    · exact h.endTlbinv
    · exact h)

theorem State.Canonical.pumpRecords (h : s.Canonical) {die} : (s.pumpRecords die).Canonical := h.writeRecords

/-! ## Machine/Queue and Machine/Fabric -/

theorem State.Canonical.haltQueue (h : s.Canonical) {q err} : (s.haltQueue q err).Canonical := h.withQueue.vector

theorem State.Canonical.retireCmd (h : s.Canonical) {q irq n skip} : (s.retireCmd q irq n skip).Canonical := by
  unfold State.retireCmd
  extract_lets old _ x x' r s1 s2
  have h2 : s2.Canonical := .ite h.withQueue.vector h.withQueue
  exact .ite h2.vector h2

theorem State.Canonical.agentDone (h : s.Canonical) {who} : (s.agentDone who).Canonical := by
  unfold State.agentDone
  split
  · exact h
  · split
    · exact .ite h h.retireCmd
    · exact h

theorem State.Canonical.agentFail (h : s.Canonical) {who} : (s.agentFail who).Canonical := by
  unfold State.agentFail
  split
  · exact h
  · exact .ite h.haltQueue h

theorem State.Canonical.sendBare (h : s.Canonical) {p op} : (s.sendBare p op).Canonical := .ite h.emit h

theorem State.Canonical.takeAck (h : s.Canonical) {p ack} : (s.takeAck p ack).Canonical := .ite h.withStream.pump h

theorem State.Canonical.receive (h : s.Canonical) {f} {k : State → Nat → State}
    (hk : ∀ t p, t.Canonical → (k t p).Canonical) : (s.receive f k).Canonical :=
  .ite h.count (.ite (hk _ _ h.takeAck.withStream) h.takeAck)

theorem State.Canonical.reply (h : s.Canonical) {p f op payload bad} : (s.reply p f op payload bad).Canonical := h.post

theorem State.Canonical.serveRead (h : s.Canonical) {f p} : (s.serveRead f p).Canonical := .ite h.noteWords.reply h.reply

theorem State.Canonical.serveWrite (h : s.Canonical) {f p} : (s.serveWrite f p).Canonical := by
  unfold State.serveWrite
  extract_lets bs s1 s2
  clear_value bs
  have h1 : s1.Canonical := by
    unfold s1
    split
    · exact h
    · exact .ite h.writeHome (h.foldl fun _ _ h => h.writeHome)
  have h2 : s2.Canonical := .ite (h1.foldl fun _ _ h => h.spoilHome) h1
  exact .ite h2.raceLoads.reply h.reply

theorem State.Canonical.serveAtomic (h : s.Canonical) {f p} : (s.serveAtomic f p).Canonical := by
  unfold State.serveAtomic
  split
  · exact h.reply
  · extract_lets at' key r s1 s2
    have h1 : s1.Canonical := h.noteWords
    have h2 : s2.Canonical := by
      unfold s2
      split
      · exact .ite h1.writeHome.spoilHome h1.writeHome
      · exact h1
    exact .ite h2.reply h.reply

theorem State.Canonical.takeReq (h : s.Canonical) {p tag x} (hx : s.takeReq p tag = some x) : x.2.Canonical := by
  unfold State.takeReq at hx
  split at hx
  · exact absurd hx (Option.some_ne_none x).symm
  · exact Option.some.inj hx ▸ h.withStream

theorem State.Canonical.answerRead (h : s.Canonical) {w id lane r p f} : (s.answerRead w id lane r p f).Canonical := by
  unfold State.answerRead
  split
  · exact h
  · exact (State.Canonical.ite h.withWave h).answer

theorem State.Canonical.noteWriter (h : s.Canonical) {w core key} : (s.noteWriter w core key).Canonical := by
  unfold State.noteWriter
  split
  · exact h
  · exact h.withFields

theorem State.Canonical.answerAtomic (h : s.Canonical) {w id lane r p f} : (s.answerAtomic w id lane r p f).Canonical := by
  unfold State.answerAtomic
  split
  · exact h
  · exact (State.Canonical.ite h.noteWriter h).answer

theorem State.Canonical.answerCopyRead (h : s.Canonical) {k places r f} : (s.answerCopyRead k places r f).Canonical := by
  unfold State.answerCopyRead
  split
  · exact h
  · split
    · exact h
    · split
      · exact h
      · exact h.poolScatter.settleCopy

theorem State.Canonical.answerAdd (h : s.Canonical) {core add r f} : (s.answerAdd core add r f).Canonical := by
  unfold State.answerAdd
  split
  · exact h.keepFlags.noteBad
  · exact h

theorem State.Canonical.answerCommand (h : s.Canonical) {q r p f} : (s.answerCommand q r p f).Canonical := by
  unfold State.answerCommand
  split
  · exact h
  · exact h.withQueue

theorem State.Canonical.settleStore (h : s.Canonical) {w id stamp} : (s.settleStore w id stamp).Canonical :=
  .ite h h.raiseRefused

theorem State.Canonical.finishReq (h : s.Canonical) {r p f} : (s.finishReq r p f).Canonical := by
  unfold State.finishReq
  split
  · exact .ite h.answerRead h.answerAtomic
  · exact h.settleStore
  · exact (State.Canonical.ite h.answerCommand h).agentDone
  · exact h.answerCopyRead
  · exact h.settleCopy
  · exact h.answerAdd.popMatrix
  · exact h.cacheEntry

theorem State.Canonical.response (h : s.Canonical) {f p} : (s.response f p).Canonical := by
  unfold State.response
  split
  · exact h
  next e => exact .ite (h.takeReq e).finishReq h

theorem State.Canonical.abandonCopy (h : s.Canonical) {k c va} : (s.abandonCopy k c va).Canonical := by
  unfold State.abandonCopy
  split
  · exact h
  · exact .ite h h.setCopy.engineCause.settleCopy

theorem State.Canonical.abandonMatrix (h : s.Canonical) {core c va} : (s.abandonMatrix core c va).Canonical := by
  unfold State.abandonMatrix
  split
  · exact h
  · exact h.withHead.engineCause.popMatrix

theorem State.Canonical.refuse (h : s.Canonical) {r} : (s.refuse r).Canonical := by
  unfold State.refuse
  extract_lets c
  split
  · split
    · exact h
    · exact h.withWave.settleRefused
  · exact h.withWave.settleStore
  · exact h.abandonCopy
  · exact h.abandonCopy
  · exact h.abandonMatrix
  · exact h.failEntry
  · exact h.agentFail

theorem State.Canonical.errorResponse (h : s.Canonical) {f p} : (s.errorResponse f p).Canonical := by
  unfold State.errorResponse
  split
  · exact h
  next e => exact (h.takeReq e).refuse

theorem State.Canonical.blameLost (h : s.Canonical) {rs} : (s.blameLost rs).Canonical := h.foldl fun _ _ h => h.withWave

theorem State.Canonical.raiseLost (h : s.Canonical) {r entry} : (s.raiseLost r entry).Canonical := by
  unfold State.raiseLost
  split
  · split
    · exact h
    · exact .ite h.raiseAsync h
  · exact h.raiseAsync
  · exact h.abandonCopy
  · exact h.abandonCopy
  · exact h.abandonMatrix
  · exact h.failEntry
  · exact h.agentFail

theorem State.Canonical.loseStream (h : s.Canonical) {p} : (s.loseStream p).Canonical :=
  h.withStream.vector.blameLost.foldl fun _ _ h => h.raiseLost

theorem State.Canonical.rto (h : s.Canonical) {p} : (s.rto p).Canonical :=
  .ite h.sendBare (.ite h (State.Canonical.ite h.withStream.vector h).withStream.emit)

theorem State.Canonical.recto (h : s.Canonical) {p} : (s.recto p).Canonical := .ite h.loseStream h

theorem State.Canonical.streamReset (h : s.Canonical) {f} : (s.streamReset f).Canonical :=
  .ite h.count (State.Canonical.ite h.loseStream h).withStream.sendBare.pump

theorem State.Canonical.resetAck (h : s.Canonical) {f} : (s.resetAck f).Canonical := .ite h.count (.ite h.withStream.pump h)

theorem State.Canonical.peerp (h : s.Canonical) {p v} : (s.peerp p v).Canonical := .ite h.withStream.sendBare h.ignored

theorem State.Canonical.pumpAll (h : s.Canonical) : s.pumpAll.Canonical := h.foldl fun _ _ h => h.pump

theorem State.Canonical.execPortLinkChange (h : s.Canonical) {i up} :
    Result.Canonical (Machine.execPortLinkChange i up s) := h.withFields.pumpAll.next

/-! ## Machine/Regroup -/

theorem State.Canonical.halve (h : s.Canonical) {die} : (s.halve die).Canonical := h

theorem State.Canonical.fenceCores (h : s.Canonical) {die cs} : (s.fenceCores die cs).Canonical :=
  h.foldl fun _ _ h => by
    split
    · exact .ite h.fenceWave h
    · exact h

theorem State.Canonical.emptyL1s (h : s.Canonical) {die cs} : (s.emptyL1s die cs).Canonical := h

theorem State.Canonical.installPlan (h : s.Canonical) {die plan} : (s.installPlan die plan).Canonical := by
  unfold State.installPlan
  extract_lets all old s1 s2 s3
  have h1 : s1.Canonical := h.foldl fun _ _ h => h.drainAt
  have h3 : s3.Canonical := h1.emptyL1s.withDie.fenceCores
  exact .ite h3.count h3

theorem State.Canonical.intervalEnd (h : s.Canonical) {die plan} : (s.intervalEnd die plan).Canonical :=
  .ite h.withDie (.ite h.withDie.halve (.ite h.withDie.halve.count h.withDie.halve.withDie))

theorem State.Canonical.install (h : s.Canonical) {die} : (s.install die).Canonical := by
  unfold State.install
  split
  · exact h
  · exact h.installPlan.withDie

theorem State.Canonical.epochReset (h : s.Canonical) {die} : (s.epochReset die).Canonical := by
  unfold State.epochReset
  extract_lets busy s1
  have h1 : s1.Canonical := h.foldl fun _ _ h => h.drainAt
  exact .ite h h1.withDie

theorem State.Canonical.regroupDet (h : s.Canonical) {t die} : (s.regroupDet t die).Canonical :=
  .ite h.halve (.ite h.halve.count h.halve.installPlan.withDie)

theorem State.Canonical.execRegroupInstall (h : s.Canonical) : Result.Canonical (Machine.execRegroupInstall s) :=
  State.Canonical.next (by
    split
    · exact h.install
    · exact h)

/-! ## Machine/Determinism -/

theorem State.Canonical.countAccess (h : s.Canonical) {t core key stores} : (s.countAccess t core key stores).Canonical :=
  h.withTree

theorem State.Canonical.lostStore (h : s.Canonical) {w e L} : (s.lostStore w e L).Canonical := h.raiseAsync

theorem State.Canonical.commitStore (h : s.Canonical) {t w id bytes core e} :
    (s.commitStore t w id bytes core e).Canonical := by
  unfold State.commitStore
  extract_lets lanes per lost s1
  have h1 : s1.Canonical := h.foldl fun _ _ h => by
    split
    · exact h
    · exact .ite (.ite h.countAccess h.countAccess.askWrite) h.countAccess.storeAs
  clear_value lost
  split
  · exact h1.lostStore
  · exact h1

theorem State.Canonical.commitRmw (h : s.Canonical) {t w id flight core e lane key n a} :
    (s.commitRmw t w id flight core e lane key n a).Canonical := by
  unfold State.commitRmw
  extract_lets L x old s1
  have h1 : s1.Canonical := h.atomicAs.countAccess
  refine .ite h.countAccess.askAtomic ?_
  split
  · exact h1
  · exact h1.answer

theorem State.Canonical.lostRmw (h : s.Canonical) {w flight e m} : (s.lostRmw w flight e m).Canonical := by
  unfold State.lostRmw
  refine .ite h ?_
  split
  · exact h.withWave.raiseAsync
  · exact h.lostStore

theorem State.Canonical.commitRmws (h : s.Canonical) {t w id flight core e l} :
    (s.commitRmws t w id flight core e l).Canonical :=
  (h.foldl fun _ _ h => h.commitRmw).lostRmw

theorem State.Canonical.commitPool (h : s.Canonical) {w flight lane core at' n a} :
    (s.commitPool w flight lane core at' n a).Canonical := by
  unfold State.commitPool
  extract_lets L o old s1
  have h1 : s1.Canonical := by
    unfold s1
    split
    · exact h.poolWrite
    · exact h
  split
  · exact h1
  · exact h1.answer

theorem State.Canonical.commitOne (h : s.Canonical) {t w id e} : (s.commitOne t w id e).Canonical := by
  unfold State.commitOne
  split
  · exact h.commitStore
  · exact h.commitRmws
  · exact h.commitRmws
  · exact h.countAccess.askStore.withTree
  · exact h.foldl fun _ _ h => h.poolWrite
  · exact h.foldl fun _ _ h => h.commitPool
  · exact h.foldl fun _ _ h => h.commitPool
  · exact h

theorem State.Canonical.commitAll (h : s.Canonical) {t n} : (s.commitAll t n).Canonical := by
  induction n generalizing s with
  | zero => exact h
  | succ n ih =>
    unfold State.commitAll
    split
    · exact h
    · refine .ite h ?_
      split
      · exact h.withTree
      · exact ih h.withWave.withTree.commitOne

theorem State.Canonical.promote (h : s.Canonical) {core w order} : (s.promote core w order).Canonical := h

theorem State.Canonical.countOp (h : s.Canonical) {t w l n} : (s.countOp t w l n).Canonical := by
  unfold State.countOp
  split
  · refine h.foldl fun _ _ h => ?_
    split
    · exact .ite h h.countAccess
    · exact h
  · exact h

theorem State.Canonical.runOp (h : s.Canonical) {t w op} : (s.runOp t w op).Canonical := by
  unfold State.runOp
  extract_lets l s1
  have h1 : s1.Canonical := by
    unfold s1
    split
    · exact h.runCopy
    · exact .ite h.promote.runMatrix h.promote
    · exact h
  exact h1.countOp

theorem State.Canonical.engineAll (h : s.Canonical) {t n} : (s.engineAll t n).Canonical := by
  induction n generalizing s with
  | zero => exact h
  | succ n ih =>
    unfold State.engineAll
    split
    · exact h
    · exact .ite (ih h.runOp) h.runOp

theorem State.Canonical.acceptAll (h : s.Canonical) {t} : (s.acceptAll t).Canonical :=
  h.foldl fun _ _ h => by
    split
    · exact h
    · refine h.withWave.foldl fun _ _ h => ?_
      split
      · exact h.acceptChild
      all_goals exact h

theorem State.Canonical.settleGroups (h : s.Canonical) {t} : (s.settleGroups t).Canonical :=
  h.foldl fun _ _ h => h.withGroup.settleStage

theorem State.Canonical.endSaved (h : s.Canonical) {w e} : (s.endSaved w e).Canonical := by
  unfold State.endSaved
  split
  · exact h
  · extract_lets s1 s2
    have h1 : s1.Canonical := by
      unfold s1
      split
      · exact h.joinEnd
      all_goals exact h
    have h2 : s2.Canonical := h1.withWave
    split
    · exact h2
    · split
      · exact h2
      · exact .ite h2 h2.withWave.raiseMismatch

theorem State.Canonical.endWaits (h : s.Canonical) {w} : (s.endWaits w).Canonical := by
  unfold State.endWaits
  split
  · exact h
  · refine (State.Canonical.ite h.wakeWave h).foldl fun _ _ h => ?_
    split
    · exact .ite h.endSaved h
    · exact h

theorem State.Canonical.regroupTree (h : s.Canonical) {t} : (s.regroupTree t).Canonical := by
  unfold State.regroupTree
  split
  · exact h
  · exact .ite (h.withTree.foldl fun _ _ h => h.regroupDet) h.withTree

theorem State.Canonical.boundaryEnd (h : s.Canonical) {t} : (s.boundaryEnd t).Canonical := by
  unfold State.boundaryEnd
  extract_lets s1 s2 s3 s4 s5
  have h3 : s3.Canonical := h.regroupTree.acceptAll.settleGroups.foldl fun _ _ h => h.complete
  have h4 : s4.Canonical := h3.foldl fun _ _ h => h.endWaits
  have h5 : s5.Canonical := h4.foldl fun _ _ h => h.withWave
  exact h5.withTree

theorem State.Canonical.boundaryRun (h : s.Canonical) {t} : (s.boundaryRun t).Canonical := by
  unfold State.boundaryRun
  extract_lets phase s1 s2
  have h1 : s1.Canonical := .ite h.commitAll h
  have h2 : s2.Canonical := h1.engineAll
  exact .ite (.ite h2.boundaryEnd h2) h1

theorem State.Canonical.boundaryStart (h : s.Canonical) {t} : (s.boundaryStart t).Canonical := h.withTree.boundaryRun

theorem State.Canonical.boundaryStep (h : s.Canonical) {t} : (s.boundaryStep t).Canonical := by
  unfold State.boundaryStep
  split
  · exact h
  · exact .ite h.boundaryStart h.boundaryRun

theorem State.Canonical.execQuantumBoundary (h : s.Canonical) : Result.Canonical (Machine.execQuantumBoundary s) :=
  State.Canonical.next (by
    split
    · exact h.boundaryStep
    · exact h)

theorem State.Canonical.execQuantumEnd (h : s.Canonical) {w} : Result.Canonical (Machine.execQuantumEnd w s) :=
  State.Canonical.next (by
    split
    · exact .ite h.endQuantum h
    · exact h)

theorem State.Canonical.stopTree (h : s.Canonical) {t} : (s.stopTree t).Canonical := by
  unfold State.stopTree
  extract_lets ws s1 s2 s3 s4
  have h1 : s1.Canonical := h.foldl fun _ _ h => h.withWave
  have h3 : s3.Canonical := h1.withFields.withTree
  have h4 : s4.Canonical := h3.foldl fun _ _ h => by
    split
    · exact .ite h h.abort
    · exact h
  refine h4.foldl fun _ _ h => ?_
  split
  · exact h
  · exact .ite h h.withFields.withLaunch

theorem State.Canonical.execWatchdogExpiry (h : s.Canonical) {w seconds} :
    Result.Canonical (Machine.execWatchdogExpiry w seconds s) :=
  State.Canonical.next (by
    split
    · exact .ite h.abort h
    · exact h)

/-! ## Machine/Window -/

theorem State.Canonical.window (h : s.Canonical) {f : State → State} (hf : (f s).Canonical) : (s.window f).Canonical :=
  .ite h hf

theorem State.Canonical.writeQbase (h : s.Canonical) {q v} : (s.writeQbase q v).Canonical := .ite h.ignored h.withQueue

theorem State.Canonical.writeQcfg (h : s.Canonical) {q v} : (s.writeQcfg q v).Canonical :=
  .ite (.ite h.ignored h.withQueue) (.ite h.withQueue (.ite h.withQueue.ignored h.withQueue))

theorem State.Canonical.writeQtail (h : s.Canonical) {q v} : (s.writeQtail q v).Canonical := .ite h.withQueue h.ignored

theorem State.Canonical.writeQrestart (h : s.Canonical) {q v} : (s.writeQrestart q v).Canonical := .ite h.withQueue h.ignored

theorem State.Canonical.switchQueue (h : s.Canonical) {q on} : (s.switchQueue q on).Canonical :=
  .ite (.ite h.withQueue h) h.withQueue

theorem State.Canonical.judgePower (h : s.Canonical) : s.judgePower.Canonical := by
  unfold State.judgePower
  extract_lets high _ s1 s2
  have h1 : s1.Canonical := h.withFields
  have h2 : s2.Canonical := .ite h1 h1.vector
  exact .ite (.ite (h2.foldl fun _ _ h => h.stopTree) h2) h1

theorem State.Canonical.holdPower (h : s.Canonical) : s.holdPower.Canonical := .ite h.judgePower h

theorem State.Canonical.setPower (h : s.Canonical) {sel v} : State.CanonicalIn (s.setPower sel v) := by
  unfold State.setPower
  extract_lets n w put p
  have hp : ∀ x, State.CanonicalIn (put x) := fun _ => h.withFields.inSome
  exact .ite .none <| .ite (.ite h.withFields.inSome .none) <| .ite (.ite h.withFields.judgePower.inSome .none) <|
    .ite (.ite (hp _) .none) <| .ite (hp _) <| .ite (hp _) <| .ite (.ite (hp _) .none) <| .ite (.ite (hp _) .none) .none

theorem State.Canonical.writePower (h : s.Canonical) {sel v} : (s.writePower sel v).Canonical := h.ignored.getD h.setPower

theorem State.Canonical.clearSet (h : s.Canonical) {v} : (s.clearSet v).Canonical := h

theorem State.Canonical.dropBuffered (h : s.Canonical) {n w} : (s.dropBuffered n w).Canonical := by
  unfold State.dropBuffered
  split
  · exact h
  · exact h.withWave.foldl fun _ _ h => h.raiseAsync

theorem State.Canonical.dropSet (h : s.Canonical) {n} : (s.dropSet n).Canonical :=
  State.Canonical.foldl
    (h.foldl fun _ _ h => by
      split
      · exact .ite h.failMaj h
      · exact h)
    fun _ _ h => h.dropBuffered

theorem State.Canonical.writeRepset (h : s.Canonical) {n v} : (s.writeRepset n v).Canonical := by
  unfold State.writeRepset
  extract_lets put
  have hp : (put s).Canonical := h.withFields
  exact .ite (.ite h.ignored hp.dropSet) (.ite (.ite hp.clearSet h.ignored) hp)

theorem State.Canonical.writeRebase (h : s.Canonical) {v} : (s.writeRebase v).Canonical := .ite h.withFields h.ignored

theorem State.Canonical.writeQtimeout (h : s.Canonical) {v} : (s.writeQtimeout v).Canonical := .ite h.ignored h.withFields

theorem State.Canonical.writeScrub (h : s.Canonical) {v} : (s.writeScrub v).Canonical := .ite h.ignored h.withFields

theorem State.Canonical.writeVctl (h : s.Canonical) {v} : (s.writeVctl v).Canonical :=
  .ite (.ite h.ignored h.withVia) (.ite h.withVia.pumpAll h.withVia.pumpAll.ignored)

theorem State.Canonical.writeVia (h : s.Canonical) {o v} : (s.writeVia o v).Canonical := by
  unfold State.writeVia
  extract_lets w off ok
  have hoff : ∀ f, (off f).Canonical := fun _ => .ite h.ignored h.withVia
  have hok : ∀ b f, (ok b f).Canonical := fun _ _ => .ite h.withVia h.ignored
  exact .ite (hoff _) <| .ite h.writeVctl <| .ite (hoff _) <| .ite (hok _ _) <| .ite (hok _ _) <| .ite (hok _ _) <|
    .ite h.withVia <| .ite h.withVia <| .ite h.withVia <| .ite h.withVia.pumpAll <| .ite h.peerp h.ignored

theorem State.Canonical.writeFqhead (h : s.Canonical) {die v} : (s.writeFqhead die v).Canonical :=
  .ite h.withDie.pumpRecords h.ignored

theorem State.Canonical.writeFqbase (h : s.Canonical) {die size v} : (s.writeFqbase die size v).Canonical :=
  .ite h.ignored h.withDie.pumpRecords

theorem State.Canonical.writeReg (h : s.Canonical) {off v} : (s.writeReg off v).Canonical := by
  unfold State.writeReg
  extract_lets w
  split
  · exact .ite h.writeQbase <| .ite h.writeQcfg <| .ite h.writeQtail <| .ite h.writeQrestart <| .ite h.withQueue h.ignored
  · exact .ite h.withFields <| .ite (.ite h.withFields h.ignored) h.ignored
  · exact .ite h.writeFqbase <| .ite h.writeFqbase <| .ite h.writeFqhead <| .ite h.answerFault <|
      .ite h.startTlbinv h.ignored
  · exact .ite h.writeRepset <| .ite h.writeQtimeout <| .ite h.writeScrub <| .ite h.writeRebase h.ignored
  · exact .ite h.writePower h.ignored
  · exact .ite h.withFields h.ignored
  · exact h.writeVia
  · exact h.ignored
  · exact h.ignored

/-! ## Machine/Commands -/

theorem State.Canonical.cmdAsk (h : s.Canonical) {q l} : (s.cmdAsk q l).Canonical :=
  .ite h.haltQueue (h.withQueue.foldl fun _ _ h => h.askRead)

theorem State.Canonical.command (h : s.Canonical) {q} {f : Domain → State} (hf : ∀ d, (f d).Canonical) :
    Result.Canonical (s.command q f) :=
  State.Canonical.next (.ite (by
    split
    · exact hf _
    · exact h.haltQueue) h)

theorem State.Canonical.withPlaces (h : s.Canonical) {q dom va n} {f : List Phys → State} (hf : ∀ l, (f l).Canonical) :
    (s.withPlaces q dom va n f).Canonical := by
  unfold State.withPlaces
  split
  · split
    · exact hf _
    · exact h.cmdAsk
  · exact h.haltQueue

theorem State.Canonical.noteCmd (h : s.Canonical) {dom va n l} : (s.noteCmd dom va n l).Canonical := h.noteWords

theorem State.Canonical.cmdRead (h : s.Canonical) {q dom va n} {f : State → List Byte → State}
    (hf : ∀ t bs, t.Canonical → (f t bs).Canonical) : (s.cmdRead q dom va n f).Canonical :=
  h.withPlaces fun _ => hf _ _ h.noteCmd

theorem State.Canonical.execCmdNop (h : s.Canonical) {q irq len} : Result.Canonical (Machine.execCmdNop q irq len s) :=
  h.command fun _ => h.retireCmd

theorem State.Canonical.submit (h : s.Canonical) {q irq dom n rec grid} {more : State → State}
    (hm : ∀ t, t.Canonical → (more t).Canonical) : (s.submit q irq dom n rec grid more).Canonical :=
  h.cmdRead fun _ _ h => (hm _ h).hostLaunch.withQueue.retireCmd

theorem State.Canonical.execLaunch (h : s.Canonical) {q irq rec} : Result.Canonical (Machine.execLaunch q irq rec s) :=
  h.command fun _ => h.submit fun _ h => h

theorem State.Canonical.execLaunchi (h : s.Canonical) {q irq rec grid} :
    Result.Canonical (Machine.execLaunchi q irq rec grid s) :=
  h.command fun _ => h.withPlaces fun _ => h.submit fun _ h => h.noteCmd

theorem State.Canonical.execWaitv (h : s.Canonical) {q irq t} : Result.Canonical (Machine.execWaitv q irq t s) :=
  h.command fun _ => h.withPlaces fun _ => .ite h.noteCmd.retireCmd h.withQueue

theorem State.Canonical.execIfv (h : s.Canonical) {q irq t skip} : Result.Canonical (Machine.execIfv q irq t skip s) :=
  h.command fun _ => h.cmdRead fun _ _ h => h.retireCmd

theorem State.Canonical.cmdWrite (h : s.Canonical) {q va l} : (s.cmdWrite q va l).Canonical :=
  h.foldl fun _ _ h => .ite (h.foldl fun _ _ h => h.askWrite) h.writeHome

theorem State.Canonical.retireWritten (h : s.Canonical) {q irq n} : (s.retireWritten q irq n).Canonical :=
  .ite h.withQueue h.retireCmd

theorem State.Canonical.signal (h : s.Canonical) {q irq add w64 addr value dom} :
    (s.signal q irq add w64 addr value dom).Canonical := by
  unfold State.signal
  extract_lets n v
  split
  · exact h.haltQueue
  · refine .ite h.haltQueue ?_
    split
    · exact h.askAtomic.retireWritten
    · exact h.askWrite.retireWritten
    · exact h.cmdWrite.retireWritten
    · split
      · exact h.cmdAsk
      · exact h.noteCmd.cmdWrite.retireWritten

theorem State.Canonical.execSignal (h : s.Canonical) {q irq add w64 addr value} :
    Result.Canonical (Machine.execSignal q irq add w64 addr value s) :=
  h.command fun _ => h.signal

theorem State.Canonical.execCmdFence (h : s.Canonical) {q irq} : Result.Canonical (Machine.execCmdFence q irq s) :=
  h.command fun _ => .ite h.withQueue.retireCmd h

theorem State.Canonical.loopBack (h : s.Canonical) {q irq back n} : (s.loopBack q irq back n).Canonical :=
  .ite h.withQueue.vector h.withQueue

theorem State.Canonical.execCmdLoop (h : s.Canonical) {q irq back count} :
    Result.Canonical (Machine.execCmdLoop q irq back count s) :=
  h.command fun _ => by
    extract_lets x
    split
    · exact .ite h.haltQueue (.ite h.withQueue.retireCmd h.loopBack)
    · exact .ite h.retireCmd h.loopBack

theorem State.Canonical.execJump (h : s.Canonical) {q irq len addr} : Result.Canonical (Machine.execJump q irq len addr s) :=
  h.command fun _ => .ite h.haltQueue h.withQueue

theorem State.Canonical.copyHost (h : s.Canonical) {q irq dst src count dom} :
    (s.copyHost q irq dst src count dom).Canonical := by
  unfold State.copyHost
  split
  · refine .ite h.haltQueue ?_
    split
    · exact h.cmdAsk
    · exact h.noteCmd.cmdWrite.retireWritten
  · exact h.haltQueue

theorem State.Canonical.execCopyh (h : s.Canonical) {q irq dst src count} :
    Result.Canonical (Machine.execCopyh q irq dst src count s) :=
  h.command fun _ => h.copyHost

theorem State.Canonical.execSetpow (h : s.Canonical) {q irq sel v} : Result.Canonical (Machine.execSetpow q irq sel v s) :=
  h.command fun _ => by
    split
    next e => exact (h.setPower _ e).retireCmd
    next => exact h.haltQueue

theorem State.Canonical.execRegroup (h : s.Canonical) {q irq dies us} :
    Result.Canonical (Machine.execRegroup q irq dies us s) :=
  h.command fun _ => .ite (State.Canonical.retireCmd (h.foldl fun _ _ h => .ite h.withDie h)) h.haltQueue

theorem State.Canonical.execCmdResume (h : s.Canonical) {q irq die v} :
    Result.Canonical (Machine.execCmdResume q irq die v s) :=
  h.command fun _ => .ite h.haltQueue h.answerFault.retireCmd

/-! ## Machine/Management and Machine/Debugger -/

theorem State.Canonical.answerSpdm (h : s.Canonical) {r} : (s.answerSpdm r).Canonical := h

theorem State.Canonical.execHostMemoryAccess (h : s.Canonical) {a} : Result.Canonical (Machine.execHostMemoryAccess a s) :=
  State.Canonical.next (.ite h (.ite h.writeHome h.noteWords.withFields))

theorem State.Canonical.resumeStopped (h : s.Canonical) {w} : (s.resumeStopped w).Canonical := by
  unfold State.resumeStopped
  split
  · exact h
  · exact .ite h h.withWave.unpark.raiseMismatch

theorem State.Canonical.dropCovering (h : s.Canonical) {w r n} : (s.dropCovering w r n).Canonical := by
  induction n generalizing s with
  | zero => exact h
  | succ n ih =>
    unfold State.dropCovering
    split
    · exact ih h.deleteEntry
    · exact h

theorem State.Canonical.pokeReg (h : s.Canonical) {w r v force} : (s.pokeReg w r v force).Canonical := by
  unfold State.pokeReg
  split
  · exact h
  · exact .ite h (.ite h.withFields h.dropCovering.withWave)

theorem State.Canonical.poke (h : s.Canonical) {w wv force t} : (s.poke w wv force t).Canonical := by
  unfold State.poke
  split
  · exact h.pokeReg
  · exact .ite h.pokeReg h
  · exact .ite h h.withWave
  · exact .ite h h.withWave
  · exact h.withWave
  · exact .ite h h.withWave
  · exact .ite h h.withWave
  · split
    · exact .ite h.writeEntry h
    · exact h
  · exact .ite h.deleteEntry h
  · exact h

theorem State.Canonical.execDebuggerWrite (h : s.Canonical) {w t force} :
    Result.Canonical (Machine.execDebuggerWrite w t force s) := by
  unfold Machine.execDebuggerWrite
  extract_lets s1
  have h1 : s1.Canonical := h.withFields
  refine State.Canonical.next ?_
  split
  · exact h1
  · split
    · exact h1.withLaunch
    · exact .ite h1.poke h1

theorem State.Canonical.encodingFault (h : s.Canonical) {c detail} : Result.Canonical (s.encodingFault c detail) := by
  unfold State.encodingFault
  split
  · exact .fault
  · split
    · exact .fault
    · exact h.withFields.raiseP.next

/-! ## Machine/Exchange and Machine/Random -/

theorem State.Canonical.exchanged (h : s.Canonical) {c pick} : (Machine.exchanged s c pick).1.Canonical := by
  unfold Machine.exchanged
  split
  · exact h.withWave
  · exact h

theorem State.Canonical.execLpick (h : s.Canonical) {hd o} : Result.Canonical (Machine.execLpick hd o s) :=
  h.issue fun _ _ h => h.exchanged.runLanes

theorem State.Canonical.execPoll (h : s.Canonical) {hd d pa} : Result.Canonical (Machine.execPoll hd d pa s) := by
  cases d with
  | pred m p => exact h.laneOp
  | mask d => exact h.laneOp

theorem State.Canonical.execRdlane (h : s.Canonical) {hd o} : Result.Canonical (Machine.execRdlane hd o s) :=
  h.issue fun _ _ h => h.exchanged.runLanes

theorem State.Canonical.execWrlane (h : s.Canonical) {hd o} : Result.Canonical (Machine.execWrlane hd o s) :=
  h.issue fun _ _ h => h.runLanes

theorem State.Canonical.execRngset (h : s.Canonical) {hd a} : Result.Canonical (Machine.execRngset hd a s) :=
  h.issue fun _ _ h => h.withWave.finish

theorem State.Canonical.execRng (h : s.Canonical) {hd d} : Result.Canonical (Machine.execRng hd d s) :=
  h.issue fun _ _ h => by
    split
    · exact h
    · exact h.residueFails.withWave.fly.finish

/-! ## Machine/Exec: every instruction and every other step -/

/-- One arm for each instruction, as in `Machine.exec`; the instructions that are a `laneOp` share the first. -/
theorem State.Canonical.exec (h : s.Canonical) : ∀ i : Instr, Result.Canonical (Machine.exec i s)
  -- instructions whose lanes compute on their own and write registers or predicates
  | .srd .. | .iadd .. | .iaddI .. | .isub .. | .iaddc .. | .isubb .. | .imul .. | .imulh .. | .imad .. | .imadw ..
  | .idiv .. | .irem .. | .iabs .. | .ineg .. | .imin .. | .imax .. | .iadd3 .. | .isad .. | .lea .. | .blut .. | .blutI ..
  | .shl .. | .shr .. | .sar .. | .rot .. | .funl .. | .bfe .. | .bfi .. | .popc .. | .clz .. | .ctz .. | .brev .. | .bsel ..
  | .mov .. | .movi .. | .sel .. | .icmp .. | .icmpI .. | .fcmp .. | .plut .. | .psave .. | .affine .. | .dadd .. | .dmul ..
  | .dfma .. | .ddiv .. | .dsqrt .. | .dmin .. | .dmax .. | .drint .. | .dscalb .. | .dgetexp .. | .dgetmant .. | .dclass ..
  | .fadd .. | .fmul .. | .ffma .. | .fdiv .. | .fsqrt .. | .fmin .. | .fmax .. | .frint .. | .fscalb .. | .fclass ..
  | .frcp .. | .frsq .. | .fex2 .. | .flg2 .. | .fsin .. | .fcos .. | .cvt .. | .cvtp .. | .cvtn .. | .unpk .. | .dp2 ..
  | .dp4 .. | .dp8 .. | .fmtget .. | .xrd .. | .matchI .. | .redux .. | .scan .. | .maxidx .. | .elect .. => h.laneOp
  -- control and system
  | .nop .. => h.execNop
  | .bra .. => h.execBra
  | .brc .. => h.execBrc
  | .brx .. => h.execBrx
  | .call .. => h.execCall
  | .ret .. => h.execRet
  | .loop .. => h.execLoop
  | .sync .. => h.execSync
  | .sealB .. => h.execSeal
  | .exit .. => h.execExit
  | .yield .. => h.execYield
  | .trap .. => h.execTrap
  | .rtt .. => h.execRtt
  | .bkpt .. => h.execBkpt
  | .swr .. => h.execSwr
  -- predicates, shapes, formats, streams, index registers, lane exchange
  | .pload .. => h.execPload
  | .shape .. => h.execShape
  | .fmtset .. => h.execFmtset
  | .rngset .. => h.execRngset
  | .rng .. => h.execRng
  | .xset .. => h.execXset
  | .xidx .. => h.execXidx
  | .xadd .. => h.execXadd
  | .xclr .. => h.execXclr
  | .lpick .. => h.execLpick
  | .poll .. => h.execPoll
  | .rdlane .. => h.execRdlane
  | .wrlane .. => h.execWrlane
  -- loads, stores, atomics and ordering
  | .ld .. | .ldu .. => h.issue fun _ _ h => h.loadGlobal
  | .st .. => h.execSt
  | .lds .. => h.execLds
  | .sts .. => h.execSts
  | .ldt .. => h.execLdt
  | .stt .. => h.execStt
  | .pref .. => h.execPref
  | .atom .. | .cas .. | .red .. => h.issue fun _ _ h => h.rmwGlobal
  | .atoms .. | .cass .. => h.issue fun _ _ h => h.rmwPool
  | .fence .. => h.execFence
  | .cctl .. => h.execCctl
  | .otsync .. => h.execOtsync
  -- engines, majority, matrix
  | .copy .. => h.execCopy
  | .copyo .. => h.execCopyo
  | .bclose .. => h.execBclose
  | .bwait .. => h.execBwait
  | .btest .. => h.execBtest
  | .mld .. => h.execMld
  | .mst .. => h.execMst
  | .tcfg .. => h.execTcfg
  | .tld .. | .tst .. => h.tileMove
  | .tzero .. => h.execTzero
  | .mma .. | .mmab .. => h.mmaOp
  | .acz .. => h.execAcz
  | .acld .. => h.accMove
  | .acst .. => h.execAcst
  | .acrd .. => h.execAcrd
  | .btake .. => h.execBtake
  | .bpass .. => h.execBpass
  | .bqry .. => h.execBqry
  -- synchronisation, spans, tasks, traps
  | .barinit .. => h.execBarinit
  | .bar .. => h.execBar
  | .bara .. => h.execBara
  | .bardrop .. => h.execBardrop
  | .barjoin .. => h.execBarjoin
  | .spanh .. => h.execSpanh
  | .spanq .. => h.execSpanq
  | .spanfrz .. => h.execSpanfrz
  | .spanthaw .. => h.execSpanthaw
  | .spawn .. => h.execSpawn
  | .join .. => h.execJoin
  | .sdone .. => h.execSdone
  | .rqrd .. => h.execRqrd
  | .rqwr .. => h.execRqwr
  | .rqdel .. => h.execRqdel
  | .kill .. => h.execKill
  | .qend .. => h.execQend
  -- the memory system, the engines and the Wellhead
  | .memoryResponse .. => h.memoryResponse.next
  | .translationFault .. => h.park.next
  | .copyOperationComplete .. => h.execCopyOperationComplete
  | .matrixOperationComplete .. => h.execMatrixOperationComplete
  | .groupPlacement .. => h.execGroupPlacement
  | .preemption .. => h.execPreemption
  | .evictedWaveReturn .. => h.execEvictedWaveReturn
  | .joinResume .. => h.execJoinResume
  | .launchCompletion .. => h.execLaunchCompletion
  | .regroupIntervalEnd .. => h.intervalEnd.next
  | .regroupInstall => h.execRegroupInstall
  | .epochCounterReset .. => h.epochReset.next
  | .quantumEnd .. => h.execQuantumEnd
  | .quantumBoundary => h.execQuantumBoundary
  | .watchdogExpiry .. => h.execWatchdogExpiry
  | .tlbinvDone => h.execTlbinvDone
  -- the majority cells
  | .majAccessStart .. => h.majStart.next
  | .majTagReply .. => h.majTag.next
  | .majCopyStore .. => h.majCopy.next
  | .majLoadAnswer .. => h.majLoad.next
  | .majStoreAnswer .. => h.majAnswer.next
  | .lossOfQuorum .. => h.majLost.next
  | .scrubStep .. => h.scrub.next
  | .rebaseComplete => h.rebase.next
  | .stackUnreachable .. => h.stackDown.next
  | .stackReturn .. => h.stackBack.next
  -- the Viaduct fabric
  | .rtoExpiry .. => h.rto.next
  | .rectoExpiry .. => h.recto.next
  | .ackTimer .. => .next (.ite h.sendBare h)
  | .ackOnly .. => .next (.ite h (.ite h.count h.takeAck))
  | .remoteRead .. => .next (.ite (h.receive fun _ _ h => h.serveRead) h)
  | .remoteWrite .. => .next (.ite (h.receive fun _ _ h => h.serveWrite) h)
  | .remoteAtomic .. => .next (.ite (h.receive fun _ _ h => h.serveAtomic) h)
  | .readResponse .. | .writeResponse .. | .atomicResponse .. => .next (.ite (h.receive fun _ _ h => h.response) h)
  | .errorResponse .. => .next (.ite (h.receive fun _ _ h => h.errorResponse) h)
  | .streamReset .. => .next (.ite h.streamReset h)
  | .resetAcknowledge .. => .next (.ite h.resetAck h)
  | .discardedFrame .. => .next (.ite h.count h)
  | .portLinkChange .. => h.execPortLinkChange
  -- host commands
  | .cmdNop .. => h.execCmdNop
  | .launch .. => h.execLaunch
  | .launchi .. => h.execLaunchi
  | .waitv .. => h.execWaitv
  | .signal .. => h.execSignal
  | .cmdFence .. => h.execCmdFence
  | .cmdLoop .. => h.execCmdLoop
  | .ifv .. => h.execIfv
  | .jump .. => h.execJump
  | .copyh .. => h.execCopyh
  | .setpow .. => h.execSetpow
  | .regroup .. => h.execRegroup
  | .cmdResume .. => h.execCmdResume
  -- window writes
  | .qtailWrite .. => (h.window h.writeQtail).next
  | .qrestart .. => (h.window h.writeQrestart).next
  | .qcfgWrite .. => (h.window h.writeQcfg).next
  | .qbaseWrite .. => (h.window h.writeQbase).next
  | .queueSwitch .. => h.switchQueue.next
  | .fqheadWrite .. => (h.window h.writeFqhead).next
  | .fqbaseWrite .. => (h.window h.writeFqbase).next
  | .resume .. => (h.window h.answerFault).next
  | .tlbinv .. => (h.window h.startTlbinv).next
  | .peerpWrite .. => (h.window h.peerp).next
  | .repsetWrite .. => (h.window h.writeRepset).next
  | .rebaseGo .. => (h.window h.writeRebase).next
  | .aclkWrite .. | .pauseWrite .. => (h.window h.writePower).next
  | .registerWrite .. => (h.window h.writeReg).next
  -- power, reset, host agents, SPDM, debugger
  | .energyWindowStart | .moduleTrainingFailure .. => h.withFields.next
  | .powerOver .. => .next (.ite h h.withFields.judgePower)
  | .powerUnder .. => .next (.ite h.withFields.judgePower h)
  | .thermalStateChange .. => h.withCore.next
  | .packageReset .. => h.packageReset.next
  | .lossOfPower => State.Canonical.reset.withFields.next
  | .hostMemoryAccess .. => h.execHostMemoryAccess
  | .getVersion | .getCapabilities | .negotiateAlgorithms .. | .getDigests | .getCertificate .. | .challenge ..
  | .getMeasurements .. => h.answerSpdm.next
  | .debuggerStop .. => h.stopWave.next
  | .debuggerResume .. => h.resumeStopped.next
  | .debuggerWrite .. => h.execDebuggerWrite
  | .unassignedOpcode .. => h.encodingFault

/-! ## Machine/Issue -/

theorem State.Canonical.correctOne (h : s.Canonical) {i} : (s.correctOne i).Canonical := .ite h.count h

theorem State.Canonical.advance (h : s.Canonical) : s.advance.Canonical := h.withFields.foldl fun _ _ h => h.correctOne

theorem State.Canonical.tidyWave (h : s.Canonical) {w} : (s.tidyWave w).Canonical := by
  unfold State.tidyWave
  split
  · exact h
  · refine .ite h.depart ?_
    extract_lets s1 s2 s3
    have h1 : s1.Canonical := .ite h h.wakeWave
    have h2 : s2.Canonical := h1.settleTrap.settleStop.settleArrivals
    have h3 : s3.Canonical := by
      unfold s3
      split
      · exact .ite h2.swapOut h2
      · exact h2
    exact h3.takePending

theorem State.Canonical.tidyGroup (h : s.Canonical) {g} : (s.tidyGroup g).Canonical :=
  (State.Canonical.ite h h.settleStage).saveIdle

theorem State.Canonical.tidy (h : s.Canonical) : s.tidy.Canonical :=
  ((h.foldl fun _ _ h => h.tidyWave).foldl fun _ _ h => h.tidyGroup).holdPower

theorem State.Canonical.withQuad (h : s.Canonical) {core quad f} : (s.withQuad core quad f).Canonical := h.withCore

theorem State.Canonical.resumeJoin (h : s.Canonical) {w o} : (s.resumeJoin w o).Canonical := by
  unfold State.resumeJoin
  split
  · exact h.joinLeaves
  all_goals exact h

theorem State.Canonical.resumeWait (h : s.Canonical) {w e} : (s.resumeWait w e).Canonical := by
  unfold State.resumeWait
  split
  · exact h
  · extract_lets wv
    split
    · exact h.withWave
    · exact .ite h.stay h.withWave.endByWait.resumeJoin

theorem State.Canonical.fetchFault (h : s.Canonical) {w slot sp dom va c} : (s.fetchFault w slot sp dom va c).Canonical := by
  unfold State.fetchFault
  split
  · exact h
  · exact h.dropLeaf.withWave

theorem State.Canonical.issuing (h : s.Canonical) {w slot w0 w1 w2 replay} : (s.issuing w slot w0 w1 w2 replay).Canonical := h

theorem State.Canonical.execWord (h : s.Canonical) {fmt w0 w1 w2} : Result.Canonical (s.execWord fmt w0 w1 w2) := by
  unfold State.execWord
  split
  · exact h.exec _
  · exact h.encodingFault

theorem State.Canonical.issueSplit (h : s.Canonical) {w slot} : Result.Canonical (s.issueSplit w slot) := by
  unfold State.issueSplit
  split
  · exact h.next
  · split
    · split
      · exact h.learn.issuing.execWord
      · exact h.fetchFault.next
      · exact h.raiseP.next
    · exact h.next

theorem State.Canonical.issueCand (h : s.Canonical) {c} : Result.Canonical (s.issueCand c) := by
  unfold State.issueCand
  split
  · exact .ite h.resumeWait.next h.issuing.execWord
  · exact h.issueSplit

/-! The picks answer with a candidate and the state that has the quadrant's marks. -/

/-- The state of a pick, if there is one, is canonical. -/
def State.CanonicalPick (o : Option (Cand × State)) : Prop := ∀ x, o = some x → x.2.Canonical

theorem State.CanonicalPick.none : State.CanonicalPick none := fun x e => absurd e (Option.some_ne_none x).symm

theorem State.CanonicalPick.some {c : Cand} {t : State} (h : t.Canonical) : State.CanonicalPick (some (c, t)) :=
  fun _ e => Option.some.inj e ▸ h

theorem State.CanonicalPick.map {o : Option Cand} {f : Cand → State} (h : ∀ c, (f c).Canonical) :
    State.CanonicalPick (o.map fun c => (c, f c)) := by
  cases o with
  | none => exact .none
  | some c => exact .some (h c)

theorem State.Canonical.newRound (h : s.Canonical) {core quad} : (s.newRound core quad).Canonical := h.withQuad.withFields

theorem State.Canonical.pickNormal (h : s.Canonical) {core quad cs} : State.CanonicalPick (s.pickNormal core quad cs) :=
  .map fun _ => (State.Canonical.ite h.newRound h).withQuad

theorem State.Canonical.pickDet (h : s.Canonical) {core quad cs} : State.CanonicalPick (s.pickDet core quad cs) :=
  .map fun _ => h.withQuad

theorem State.Canonical.pickQuad (h : s.Canonical) {core quad cs} : State.CanonicalPick (s.pickQuad core quad cs) := by
  unfold State.pickQuad
  split
  · exact h.pickDet
  · split
    · exact .none
    · exact h.pickNormal

theorem State.Canonical.pickAmong (h : s.Canonical) {cs n} : State.CanonicalPick (s.pickAmong cs n) := by
  induction n generalizing cs with
  | zero => exact .none
  | succ n ih =>
    unfold State.pickAmong
    split
    · exact .none
    · extract_lets p here
      split
      next e => exact .some (State.Canonical.withCore (h.pickQuad _ e)).withFields
      next => exact ih

theorem State.Canonical.pick (h : s.Canonical) : State.CanonicalPick s.pick := h.pickAmong

theorem State.Canonical.second (h : s.Canonical) {c k} : State.CanonicalPick (s.second c k) := by
  unfold State.second
  extract_lets p here ds
  split
  · exact .none
  · exact .map fun _ => h.withQuad

/-- The state that a step of a canonical state leads to. -/
theorem Result.Canonical.of_next {r : Result} (h : r.Canonical) {t : State} (e : r = .next t) : t.Canonical := by
  rw [e] at h
  exact h

theorem State.Canonical.issuePair (h : s.Canonical) {c d} : State.CanonicalIn (s.issuePair c d) := by
  unfold State.issuePair
  refine .ite .none ?_
  split
  · exact .none
  · exact .none
  next t et =>
    have ht : t.Canonical := h.withWave.issueCand.of_next et
    split
    · exact .none
    · split
      · split
        · exact .none
        · exact .none
        next u eu =>
          have hu : u.Canonical := ht.issueCand.of_next eu
          split
          · exact .ite hu.withWave.settleTrap.inSome .none
          · exact .none
      · exact .none

theorem State.Canonical.issueNext (h : s.Canonical) {d} : Result.Canonical (s.issueNext d) := .ite h.withFields.issueCand h.next

theorem State.Canonical.issueBoth (h : s.Canonical) {c d} : Result.Canonical (s.issueBoth c d) := by
  have hp : State.CanonicalIn (if d.wave = c.wave then s.issuePair c d else .none) := .ite h.issuePair .none
  unfold State.issueBoth
  split
  next e => exact hp _ e
  next =>
    split
    next e => exact (h.issueCand.of_next e).issueNext
    next => exact .fault
    next => trivial

theorem State.Canonical.issueDual (h : s.Canonical) {c w2} : Result.Canonical (s.issueDual c w2) := by
  unfold State.issueDual
  extract_lets at'
  split
  next e => exact .ite (h.issueCand.of_next e).issueNext (h.issueCand.of_next e)
  next => exact .fault
  next => trivial

theorem State.Canonical.issueTurn (h : s.Canonical) {n c} : Result.Canonical (s.issueTurn n c) := by
  unfold State.issueTurn
  split
  · split
    next e => exact State.Canonical.issueBoth (h.second _ e)
    next => exact h.issueCand
  · exact h.issueDual
  · exact h.issueCand

theorem State.Canonical.effect (h : s.Canonical) {i} : State.CanonicalIn (s.effect i) := by
  unfold State.effect
  split
  next e => exact .ite .none ((h.exec _).of_next e).inSome
  · exact .none
  · exact .none

theorem State.Canonical.noteRing (h : s.Canonical) {o q} : (s.noteRing o q).Canonical := by
  unfold State.noteRing
  extract_lets x y
  split
  · exact h
  · refine .ite h (h.foldl fun _ _ h => ?_)
    split
    · exact h.noteCmd
    · exact h

theorem State.CanonicalIn.map {o : Option State} (ho : State.CanonicalIn o) {f : State → State}
    (hf : ∀ t, t.Canonical → (f t).Canonical) : State.CanonicalIn (o.map f) := by
  cases o with
  | none => exact .none
  | some t => exact (hf t (ho t rfl)).inSome

theorem State.Canonical.queueEffect (h : s.Canonical) {q} : State.CanonicalIn (s.queueEffect q) := by
  unfold State.queueEffect
  split
  · exact .none
  · exact h.withQueue.inSome
  · exact h.haltQueue.inSome
  · exact h.cmdAsk.inSome
  · exact h.effect.map fun _ h => h.noteRing

theorem State.CanonicalIn.findSome? {α : Type} {l : List α} {f : α → Option State} (hf : ∀ a, State.CanonicalIn (f a)) :
    State.CanonicalIn (l.findSome? f) := fun t e =>
  have ⟨a, _, ha⟩ := List.exists_of_findSome?_eq_some e
  hf a t ha

theorem State.Canonical.event (h : s.Canonical) : State.CanonicalIn s.event := by
  unfold State.event
  split
  next e => exact (State.CanonicalIn.findSome? (fun _ => h.effect) _ e).inSome
  next => exact .findSome? fun _ => h.queueEffect

theorem State.Canonical.eventAt (h : s.Canonical) {k} : State.CanonicalIn (s.eventAt k) := by
  cases k with
  | zero => exact h.event
  | succ k =>
    intro t e
    obtain ht | ht := List.mem_append.mp (List.mem_of_getElem? e)
    · obtain ⟨_, _, he⟩ := List.mem_filterMap.mp ht
      exact h.effect _ he
    · obtain ⟨_, _, he⟩ := List.mem_filterMap.mp ht
      exact h.queueEffect _ he

/-! ## Machine/Step -/

theorem State.Canonical.issueStep (h : s.Canonical) : Result.Canonical s.issueStep := by
  unfold State.issueStep
  split
  next e => exact (State.Canonical.withFields (h.pick _ e)).issueTurn
  next => exact State.Canonical.next (.ite h.withFields (h.getD h.event))

theorem State.Canonical.step (h : s.Canonical) : Result.Canonical (Machine.step s) := by
  unfold Machine.step
  split
  · exact h.advance.withFields.exec _
  · extract_lets o _ t
    have ht : t.Canonical := h.advance.tidy.withFields
    clear_value t
    split
    next u e =>
      have hu : u.Canonical := by
        split at e
        · exact State.CanonicalIn.none _ e
        · exact ht.eventAt _ e
      exact hu.withFields.next
    next => exact ht.issueStep

end

end Sys2Proof.Machine

/-- Settles O59: `State.Canonical.step`, read at a step that has a next state. -/
theorem memoryStaysCanonical : Obligations.MemoryStaysCanonical := fun _ _ e h =>
  (Sys2Proof.Machine.State.Canonical.step h).of_next e

/-! # Integer arithmetic, bits and moves (R94 to R110, R116, R117)

Every instruction of groups 1 and 2, and the moves of group 3, is a lane-by-lane operation, and `laneResult_of` says what such
an operation leaves. What remains is the value of one lane: that the model's arithmetic is the rules' own. The parts up to
the arms of `exec` say so for each operation of the model, over numbers alone; the others assemble the instructions. -/

section

namespace Sys2Proof

/-! ## Types (R48, R95, R96) -/

theorem IType.least_le_greatest (t : IType) : t.least ≤ t.greatest := by cases t <;> decide

theorem IType.regs_pos (t : IType) : 0 < t.regs := by cases t <;> decide

theorem IType.read_ui32 (v : BitVec 128) : IType.ui32.read v = ((v.toNat % 2 ^ 32 : Nat) : Int) := rfl

end Sys2Proof

namespace Sys2Proof.Machine

open Sys2Proof.Safety

/-! ## Results narrowed to a type (R97, R100, R101) -/

theorem clampTo_of_lt_least {t : IType} {v : Int} (h : v < t.least) : clampTo t v = t.least := by
  have := IType.least_le_greatest t
  unfold clampTo
  omega

theorem clampTo_of_greatest_lt {t : IType} {v : Int} (h : t.greatest < v) : clampTo t v = t.greatest := by
  have := IType.least_le_greatest t
  unfold clampTo
  omega

theorem clampTo_of_mem {t : IType} {v : Int} (h : t.least ≤ v) (h' : v ≤ t.greatest) : clampTo t v = v := by
  unfold clampTo
  omega

/-- An exception whose trap is not enabled gives the value and the flag (R78). -/
theorem intFlagged_of_off {fctl : Word} {kind : Nat} (t : IType) (v : BitVec 128) (h : trapOn fctl (5 + kind) = false) :
    intFlagged fctl kind t v = { val := v, flags := if kind = 0 then flIDZ else flIOV } := by
  simp [intFlagged, h]

theorem intResult_eq_narrowed {fctl : Word} {t : IType} {sat : Bool} {v : Int} (h : NoOverflowTrap fctl t sat v) :
    intResult fctl t sat v = narrowed t sat v := by
  cases sat with
  | false => simp [intResult, narrowed]
  | true =>
    have hg := IType.least_le_greatest t
    have off (hne : clampTo t v ≠ v) : trapOn fctl (5 + 1) = false := h rfl hne
    by_cases hlo : v < t.least
    · have hne : t.least ≠ v := by omega
      simp [intResult, narrowed, hlo, clampTo_of_lt_least hlo, hne,
        intFlagged_of_off t _ (off (clampTo_of_lt_least hlo ▸ hne))]
    by_cases hhi : t.greatest < v
    · have hne : t.greatest ≠ v := by omega
      simp [intResult, narrowed, hlo, hhi, clampTo_of_greatest_lt hhi, hne,
        intFlagged_of_off t _ (off (clampTo_of_greatest_lt hhi ▸ hne))]
    · simp [intResult, narrowed, hlo, hhi, clampTo_of_mem (Int.not_lt.mp hlo) (Int.not_lt.mp hhi)]

theorem divResult_eq_quotient {fctl : Word} {t : IType} (rem : Bool) {a b : Int} (h : NoDivisionTrap fctl t a b) :
    divResult fctl t rem a b = quotient t rem a b := by
  obtain ⟨hz, ho⟩ := h
  unfold divResult quotient
  split
  next hb => exact intFlagged_of_off (kind := 0) t 0 (hz hb)
  next =>
    split
    next hm =>
      obtain ⟨hs, rfl, hb⟩ := hm
      exact intFlagged_of_off (kind := 1) t _ (ho hs rfl hb)
    next => rfl

theorem quotient_trap (t : IType) (rem : Bool) (a b : Int) : (quotient t rem a b).trap = none := by
  unfold quotient
  split
  · rfl
  · split <;> rfl

/-! ## Results of one word and of two (R102, R103) -/

/-- A number written as a `w`-bit result is its residue modulo 2^w. -/
theorem setWidth_ofNat_eq (w n : Nat) : (BitVec.ofNat w n).setWidth 128 = BitVec.ofNat 128 (n % 2 ^ w) := by
  apply BitVec.eq_of_toNat_eq
  rw [BitVec.toNat_setWidth, BitVec.toNat_ofNat, BitVec.toNat_ofNat]

/-- An exact integer written as a `w`-bit result is its residue modulo 2^w. -/
theorem setWidth_ofInt_eq {w : Nat} {v : Int} {n : Nat} (h : v % (2 ^ w : Nat) = (n : Int)) :
    (BitVec.ofInt w v).setWidth 128 = BitVec.ofNat 128 n := by
  apply BitVec.eq_of_toNat_eq
  rw [BitVec.toNat_setWidth, BitVec.toNat_ofInt, h, Int.toNat_natCast, BitVec.toNat_ofNat]

/-- R102: the sum's word and its carry. -/
theorem carry_sum (a b c : Nat) :
    ((BitVec.ofInt 32 ((a : Int) + b + c)).setWidth 128 = BitVec.ofNat 128 ((a + b + c) % 2 ^ 32))
      ∧ (((a : Int) + b + c < 0 ∨ 2 ^ 32 ≤ (a : Int) + b + c) ↔ 2 ^ 32 ≤ a + b + c) :=
  ⟨setWidth_ofInt_eq (by omega), by omega⟩

/-- R102: the difference's word and its borrow. -/
theorem borrow_difference {a b c : Nat} (ha : a < 2 ^ 32) (hb : b < 2 ^ 32) (hc : c ≤ 1) :
    ((BitVec.ofInt 32 ((a : Int) - b - c)).setWidth 128 = BitVec.ofNat 128 ((2 ^ 33 + a - b - c) % 2 ^ 32))
      ∧ (((a : Int) - b - c < 0 ∨ 2 ^ 32 ≤ (a : Int) - b - c) ↔ a < b + c) :=
  ⟨setWidth_ofInt_eq (by omega), by omega⟩

theorem carryBit_le_one (x : Site) (o : CarryOp) (L : Lane) : carryBit x o L ≤ 1 := by
  unfold carryBit
  split <;> omega

/-- The carry-in that an issue reads is the one that stands in the wave (R102). -/
theorem carryIn_eq_carryBit {s : State} {x : Site} (h : Hdr) (u : Uses) (hi : Issues s x) (o : CarryOp) (L : Lane) :
    carryIn (Site.readState s x h u) (Site.ctx s x h u) o L = (carryBit x o L : Nat) := by
  unfold carryIn carryBit
  rw [Site.predOf h u hi]
  cases o.ci0 <;> cases (x.wv.pred o.cip).has L <;> rfl

/-- R103: the scale of LEA. -/
theorem lea_scale (sc : BitVec 2) :
    (2 : Int) ^ (if sc = 0 then 0 else sc.toNat + 1) = [1, 4, 8, 16].getD sc.toNat 1 := by
  revert sc
  decide

/-! ## Bits of numbers (R105 to R108) -/

/-- Counting up to `w` while a test holds stops at `k` when the test holds below `k` and fails at `k`. -/
theorem length_takeWhile_range {p : Nat → Bool} {k w : Nat} (hk : k ≤ w) (hp : ∀ i, i < k → p i = true)
    (hs : k < w → p k = false) : ((List.range w).takeWhile p).length = k := by
  rw [List.takeWhile_eq_take_findIdx_not, List.length_take, List.length_range]
  obtain hkw | rfl := Nat.lt_or_eq_of_le hk
  · have : (List.range w).findIdx (fun i => !p i) = k := by
      rw [List.findIdx_eq (by simpa using hkw)]
      simp only [List.getElem_range, hs hkw, Bool.not_false, true_and]
      intro j hj
      rw [hp j hj, Bool.not_true]
    omega
  · have : (List.range k).findIdx (fun i => !p i) = (List.range k).length := by
      rw [List.findIdx_eq_length]
      intro i hi
      rw [hp i (List.mem_range.mp hi), Bool.not_true]
    rw [this, List.length_range, Nat.min_self]

theorem lt_two_pow_bitLen (a : Nat) : a < 2 ^ bitLen a := by
  unfold bitLen
  split
  next h => simp [h]
  next => exact Nat.lt_log2_self

theorem testBit_bitLen_sub_one {a : Nat} (h : bitLen a ≠ 0) : a.testBit (bitLen a - 1) = true := by
  unfold bitLen at h ⊢
  split at h
  · exact absurd rfl h
  next h0 => simpa [h0] using Nat.testBit_log2 h0

theorem bitLen_le {a w : Nat} (h : a < 2 ^ w) : bitLen a ≤ w := by
  refine Nat.not_lt.mp (fun hw => Bool.false_ne_true ?_)
  have htop : a < 2 ^ (bitLen a - 1) := Nat.lt_of_lt_of_le h (Nat.pow_le_pow_right (by omega) (by omega))
  rw [← Nat.testBit_lt_two_pow htop, testBit_bitLen_sub_one (by omega)]

/-- R106: CLZ counts the zeros above the highest one. -/
theorem leadingZeros_eq {w a : Nat} (h : a < 2 ^ w) :
    w - bitLen a = ((List.range w).takeWhile (fun i => !a.testBit (w - 1 - i))).length := by
  have hle := bitLen_le h
  refine (length_takeWhile_range (Nat.sub_le ..) (fun i hi => ?_) (fun hlt => ?_)).symm
  · have hlow : 2 ^ bitLen a ≤ 2 ^ (w - 1 - i) := Nat.pow_le_pow_right (by omega) (by omega)
    rw [Nat.testBit_lt_two_pow (Nat.lt_of_lt_of_le (lt_two_pow_bitLen a) hlow), Bool.not_false]
  · have htop : w - 1 - (w - bitLen a) = bitLen a - 1 := by omega
    rw [htop, testBit_bitLen_sub_one (by omega), Bool.not_true]

/-- R106: CTZ counts the zeros below the lowest one. -/
theorem trailingZeros_eq (w a : Nat) :
    ((List.range w).find? (fun i => a.testBit i)).getD w = ((List.range w).takeWhile (fun i => !a.testBit i)).length := by
  cases hf : (List.range w).find? (fun i => a.testBit i) with
  | none => exact (length_takeWhile_range (Nat.le_refl w) (List.find?_range_eq_none.mp hf) (fun h => absurd h (Nat.lt_irrefl w))).symm
  | some k =>
    obtain ⟨hk, hw, hlo⟩ := List.find?_range_eq_some.mp hf
    exact (length_takeWhile_range (Nat.le_of_lt (List.mem_range.mp hw)) hlo (fun _ => by rw [hk, Bool.not_true])).symm

/-- R106: BREV's Horner sum, low bit first, is the bits in reverse order. -/
theorem reversedBits_eq (w a : Nat) :
    (List.range w).foldl (fun r i => 2 * r + (if a.testBit i then 1 else 0)) 0
      = (BitVec.ofBoolListLE ((List.range w).map (fun i => a.testBit (w - 1 - i)))).toNat := by
  induction w with
  | zero => rfl
  | succ w ih =>
    have hmap : (List.range (w + 1)).map (fun i => a.testBit (w + 1 - 1 - i))
        = a.testBit w :: (List.range w).map (fun i => a.testBit (w - 1 - i)) := by
      rw [List.range_succ_eq_map, List.map_cons, List.map_map]
      congr 1
      exact List.map_congr_left (fun i _ => by simp [Nat.sub_sub, Nat.add_comm])
    rw [hmap, BitVec.ofBoolListLE, BitVec.toNat_concat, List.range_succ, List.foldl_append, ih, List.foldl_cons,
      List.foldl_nil]
    cases a.testBit w <;> simp [Nat.mul_comm]

/-- R105: a bit of BLUT is the table's entry for the three input bits: of the eight terms, the one whose literals agree with the
inputs alone is left. -/
theorem getLsbD_blut (tt : BitVec 8) (a b c : BitVec 128) {i : Nat} (hi : i < 128) :
    (blut tt a b c).getLsbD i
      = tt.getLsbD ((if a.getLsbD i then 1 else 0) + (if b.getLsbD i then 2 else 0) + (if c.getLsbD i then 4 else 0)) := by
  have term (r v : BitVec 128) (t : Bool) : (if t then r ||| v else r).getLsbD i = (r.getLsbD i || (t && v.getLsbD i)) := by
    cases t <;> simp
  have literal (v : BitVec 128) (p : Prop) [Decidable p] : (if p then v else ~~~v).getLsbD i = (v.getLsbD i == decide p) := by
    by_cases hp : p <;> simp [hp, hi]
  have hr : List.range 8 = [0, 1, 2, 3, 4, 5, 6, 7] := rfl
  simp only [blut, hr, List.foldl_cons, List.foldl_nil, term, literal, BitVec.getLsbD_and]
  cases a.getLsbD i <;> cases b.getLsbD i <;> cases c.getLsbD i <;> simp

theorem sextInt_of_lt {n x : Nat} (hn : n ≠ 0) (hx : x < 2 ^ n) :
    sextInt n x = if (2 : Int) ^ (n - 1) ≤ x then (x : Int) - 2 ^ n else x := by
  obtain ⟨m, rfl⟩ := Nat.exists_eq_succ_of_ne_zero hn
  have h2 : 2 ^ (m + 1) = 2 * 2 ^ m := Nat.pow_succ'
  have hc : (2 : Int) ^ m = ((2 ^ m : Nat) : Int) := by push_cast; rfl
  have hc' : (2 : Int) ^ (m + 1) = ((2 ^ (m + 1) : Nat) : Int) := by push_cast; rfl
  rw [sextInt, BitVec.toInt_eq_toNat_cond, BitVec.toNat_ofNat, Nat.mod_eq_of_lt hx, Nat.succ_eq_add_one,
    Nat.add_sub_cancel, hc, hc']
  split <;> split <;> omega

theorem int_two_pow_pos (n : Nat) : (0 : Int) < 2 ^ n := Int.pow_pos (by decide)

/-- The lowest `n` bits of a value, read as a signed or an unsigned number. -/
theorem lowBits_read (signed : Bool) {n : Nat} (hn : n ≠ 0) (v : Int) :
    (if signed then sextInt n (v % 2 ^ n).toNat else v % 2 ^ n)
      = if signed = true ∧ 2 ^ (n - 1) ≤ v % 2 ^ n then v % 2 ^ n - 2 ^ n else v % 2 ^ n := by
  obtain ⟨x, hx⟩ := Int.eq_ofNat_of_zero_le (Int.emod_nonneg v (Int.ne_of_gt (int_two_pow_pos n)))
  have hlt : x < 2 ^ n := by
    have := Int.emod_lt_of_pos v (int_two_pow_pos n)
    rw [hx] at this
    exact_mod_cast this
  rw [hx, Int.toNat_natCast]
  cases signed with
  | false => simp
  | true => simpa using sextInt_of_lt hn hlt

/-- R107: BFE's field, as the model takes it, is the rule's. -/
theorem bitField_extracted (t : IType) (a ctl : Nat) :
    (let p := bitField t.width ctl
     if p.2 = 0 then 0
     else
       let field : Int := (if t.signed then sextInt t.width a else (a : Int)).fdiv (2 ^ p.1) % 2 ^ p.2
       if t.signed then sextInt p.2 field.toNat else field) = extracted t a ctl := by
  by_cases hn : min (ctl / 256 % 256) t.width = 0
  · simp only [bitField, extracted, hn, if_true]
  · simp only [bitField, extracted, hn, if_false]
    rw [Int.fdiv_eq_ediv_of_nonneg _ (Int.le_of_lt (int_two_pow_pos _))]
    exact lowBits_read t.signed hn _

/-- The mask of a field of `n` bits at `p` in `w` bits. -/
theorem testBit_fieldMask (w p n i : Nat) :
    ((2 ^ n - 1) * 2 ^ p % 2 ^ w).testBit i = decide (p ≤ i ∧ i < p + n ∧ i < w) := by
  rw [Nat.testBit_mod_two_pow, Nat.testBit_mul_two_pow, Nat.testBit_two_pow_sub_one, Bool.eq_iff_iff]
  simp only [Bool.and_eq_true, decide_eq_true_eq]
  omega

theorem testBit_insertField (w a p n c i : Nat) :
    ((c ^^^ (c &&& (2 ^ n - 1) * 2 ^ p % 2 ^ w)) ||| (a * 2 ^ p &&& (2 ^ n - 1) * 2 ^ p % 2 ^ w)).testBit i
      = if p ≤ i ∧ i < p + n ∧ i < w then a.testBit (i - p) else c.testBit i := by
  rw [Nat.testBit_or, Nat.testBit_xor, Nat.testBit_and, Nat.testBit_and, testBit_fieldMask, Nat.testBit_mul_two_pow]
  split
  next h => simp [h]
  next h => simp [h]

theorem testBit_ofBoolListLE_insertedBit {w : Nat} (a ctl : Nat) {c : Nat} (hc : c < 2 ^ w) (i : Nat) :
    (BitVec.ofBoolListLE ((List.range w).map (insertedBit w a ctl c))).toNat.testBit i = insertedBit w a ctl c i := by
  rw [BitVec.testBit_toNat, BitVec.getLsbD_ofBoolListLE]
  by_cases hi : i < w
  · simp [List.getD, hi]
  · have := Nat.testBit_lt_two_pow (Nat.lt_of_lt_of_le hc (Nat.pow_le_pow_right (by omega) (by omega : w ≤ i)))
    simp [List.getD, hi, insertedBit, this]

/-- R107: BFI's result has the field's bits inside the mask and the base's outside it. -/
theorem bitField_inserted {w : Nat} (a ctl : Nat) {c : Nat} (hc : c < 2 ^ w) :
    (let p := bitField w ctl
     let m := (2 ^ p.2 - 1) * 2 ^ p.1 % 2 ^ w
     if p.2 = 0 ∨ p.1 ≥ w then c else (c ^^^ (c &&& m)) ||| (a * 2 ^ p.1 &&& m))
      = (BitVec.ofBoolListLE ((List.range w).map (insertedBit w a ctl c))).toNat := by
  apply Nat.eq_of_testBit_eq
  intro i
  rw [testBit_ofBoolListLE_insertedBit a ctl hc]
  by_cases h : min (ctl / 256 % 256) w = 0 ∨ ctl % 256 ≥ w
  · simp only [bitField, insertedBit, h, if_true]
    rw [if_neg (by omega)]
  · simp only [bitField, insertedBit, h, if_false]
    exact testBit_insertField ..

theorem bselByte_lt (sel y : Nat) : bselByte sel y < 256 := by
  unfold bselByte
  dsimp only
  split
  · omega
  · omega
  · split <;> omega
  · omega

theorem ofBytes_concat (l : List Byte) (b : Byte) : ofBytes (l ++ [b]) = ofBytes l + b.toNat * 2 ^ (8 * l.length) := by
  induction l with
  | nil => simp [ofBytes]
  | cons a l ih =>
    have h8 : 2 ^ (8 * (l.length + 1)) = 256 * 2 ^ (8 * l.length) := by rw [Nat.mul_succ, Nat.pow_add, Nat.mul_comm]
    rw [List.cons_append, ofBytes, ofBytes, ih, List.length_cons, h8, Nat.mul_add, Nat.mul_left_comm, Nat.add_assoc]

/-- R108: a sum of bytes, each at its place, is the little-endian number of these bytes. -/
theorem sum_bytes_eq {f : Nat → Nat} (hf : ∀ i, f i < 256) (n : Nat) :
    (List.range n).foldl (fun r i => r + f i * 2 ^ (8 * i)) 0 = ofBytes ((List.range n).map (fun i => BitVec.ofNat 8 (f i))) := by
  induction n with
  | zero => rfl
  | succ n ih =>
    rw [List.range_succ, List.foldl_append, ih, List.map_append, List.map_singleton, ofBytes_concat, List.length_map,
      List.length_range, BitVec.toNat_ofNat, Nat.mod_eq_of_lt (hf n)]
    rfl

/-! ## The arms of `exec`

One equation per instruction, so that no later proof evaluates the match over all instructions. -/

section
variable (h : Hdr) (s : State)

theorem exec_iadd (o : IntOp) : exec (.iadd h o) s = execIadd h o s := rfl
theorem exec_isub (o : IntOp) : exec (.isub h o) s = execIsub h o s := rfl
theorem exec_imul (o : IntOp) : exec (.imul h o) s = execImul h o s := rfl
theorem exec_imulh (o : IntOp) : exec (.imulh h o) s = execImulh h o s := rfl
theorem exec_imin (o : IntOp) : exec (.imin h o) s = execImin h o s := rfl
theorem exec_imax (o : IntOp) : exec (.imax h o) s = execImax h o s := rfl
theorem exec_idiv (o : IntOp) : exec (.idiv h o) s = execIdiv h o s := rfl
theorem exec_irem (o : IntOp) : exec (.irem h o) s = execIrem h o s := rfl
theorem exec_iabs (o : IntUn) : exec (.iabs h o) s = execIabs h o s := rfl
theorem exec_ineg (o : IntUn) : exec (.ineg h o) s = execIneg h o s := rfl
theorem exec_imad (o : IntTri) : exec (.imad h o) s = execImad h o s := rfl
theorem exec_iadd3 (o : IntTri) : exec (.iadd3 h o) s = execIadd3 h o s := rfl
theorem exec_iaddI (o : IntImm) : exec (.iaddI h o) s = execIaddI h o s := rfl
theorem exec_iaddc (o : CarryOp) : exec (.iaddc h o) s = execIaddc h o s := rfl
theorem exec_isubb (o : CarryOp) : exec (.isubb h o) s = execIsubb h o s := rfl
theorem exec_imadw (o : IntTri) : exec (.imadw h o) s = execImadw h o s := rfl
theorem exec_lea (o : LeaOp) : exec (.lea h o) s = execLea h o s := rfl
theorem exec_isad (o : IntTri) : exec (.isad h o) s = execIsad h o s := rfl
theorem exec_shl (o : LogOp) : exec (.shl h o) s = execShl h o s := rfl
theorem exec_shr (o : LogOp) : exec (.shr h o) s = execShr h o s := rfl
theorem exec_sar (o : LogOp) : exec (.sar h o) s = execSar h o s := rfl
theorem exec_rot (o : LogOp) : exec (.rot h o) s = execRot h o s := rfl
theorem exec_funl (o : FunlOp) : exec (.funl h o) s = execFunl h o s := rfl
theorem exec_blut (o : BlutOp) : exec (.blut h o) s = execBlut h o s := rfl
theorem exec_blutI (o : BlutImm) : exec (.blutI h o) s = execBlutI h o s := rfl
theorem exec_bfe (o : LogOp) : exec (.bfe h o) s = execBfe h o s := rfl
theorem exec_bfi (o : LogTri) : exec (.bfi h o) s = execBfi h o s := rfl
theorem exec_bsel (o : LogTri) : exec (.bsel h o) s = execBsel h o s := rfl
theorem exec_popc (o : LogUn) : exec (.popc h o) s = execPopc h o s := rfl
theorem exec_clz (o : LogUn) : exec (.clz h o) s = execClz h o s := rfl
theorem exec_ctz (o : LogUn) : exec (.ctz h o) s = execCtz h o s := rfl
theorem exec_brev (o : LogUn) : exec (.brev h o) s = execBrev h o s := rfl
theorem exec_mov (o : LogUn) : exec (.mov h o) s = execMov h o s := rfl
theorem exec_movi (o : MoviOp) : exec (.movi h o) s = execMovi h o s := rfl
theorem exec_sel (o : LogTri) : exec (.sel h o) s = execSel h o s := rfl
theorem exec_shape (u : Bool) (d : Dst) (a : Src) : exec (.shape h u d a) s = execShape h u d a s := rfl
theorem exec_affine (d : Dst) (a b : Src) : exec (.affine h d a b) s = execAffine h d a b s := rfl

end

/-! ## Families of instructions -/

/-- The destination of an instruction has the registers that its type gives it. -/
theorem dst_pos {d e : Dst} {m n : Nat} (hm : 0 < m) (h : some (d, m) = some (e, n)) : 0 < n := by
  cases h
  exact hm

/-- Instructions that narrow a function of two operands: the model's function is the statement's. -/
theorem intTwo_of {mk : Hdr → IntOp → Instr} {f : IType → Int → Int → Int} {tag : IntOp → Ctx → Tag} {g : IntOp → Int → Int → Int}
    (he : ∀ h s o, exec (mk h o) s = int2 h o (tag o) (fun fctl a b => intResult fctl o.ty o.sat (g o a b)) s)
    (hg : ∀ o a b, g o a b = f o.ty a b) : IntTwo mk f := by
  refine laneResult_of _ _ _ (fun s _ h o _ => he h s o) (fun _ _ o _ _ => dst_pos o.ty.regs_pos) ?_
  intro s x h o L hi _ hok
  refine ⟨?_, rfl⟩
  simp only [Site.fctl _ _ hi, Site.ctx_v, hg]
  exact intResult_eq_narrowed hok

/-- Instructions that narrow a function of one operand. -/
theorem intOne_of {mk : Hdr → IntUn → Instr} {f : Int → Int} (he : ∀ h s o, exec (mk h o) s = int1 h o f s) : IntOne mk f := by
  refine laneResult_of _ _ _ (fun s _ h o _ => he h s o) (fun _ _ o _ _ => dst_pos o.ty.regs_pos) ?_
  intro s x h o L hi _ hok
  refine ⟨?_, rfl⟩
  simp only [Site.fctl _ _ hi, Site.ctx_v]
  exact intResult_eq_narrowed hok

/-- Instructions that narrow a function of three operands. -/
theorem intThree_of {mk : Hdr → IntTri → Instr} {f : Int → Int → Int → Int}
    (he : ∀ h s o, exec (mk h o) s = int3 h o f s) : IntThree mk f := by
  refine laneResult_of _ _ _ (fun s _ h o _ => he h s o) (fun _ _ o _ _ => dst_pos o.ty.regs_pos) ?_
  intro s x h o L hi _ hok
  refine ⟨?_, rfl⟩
  simp only [Site.fctl _ _ hi, Site.ctx_v]
  exact intResult_eq_narrowed hok

/-- IDIV and IREM. -/
theorem division_of {mk : Hdr → IntOp → Instr} {rem : Bool}
    (he : ∀ h s o, exec (mk h o) s = int2 h o Ctx.uniTag (fun fctl => divResult fctl o.ty rem) s) :
    LaneResult mk (fun _ _ o => int2Uses o)
      (fun s x h o L => NoDivisionTrap x.wv.fctl o.ty (intOperand s x h (int2Uses o) o.ty 0 L) (intOperand s x h (int2Uses o) o.ty 1 L))
      (fun s x h o L => quotient o.ty rem (intOperand s x h (int2Uses o) o.ty 0 L) (intOperand s x h (int2Uses o) o.ty 1 L))
      (fun _ => none) := by
  refine laneResult_of _ _ _ (fun s _ h o _ => he h s o) (fun _ _ o _ _ => dst_pos o.ty.regs_pos) ?_
  intro s x h o L hi _ hok
  refine ⟨?_, quotient_trap ..⟩
  simp only [Site.fctl _ _ hi, Site.ctx_v]
  exact divResult_eq_quotient rem hok

/-- Instructions of group 2 with two operands: the model's function is the statement's. -/
theorem bitsTwo_of {mk : Hdr → LogOp → Instr} {f : IType → Nat → Nat → Int} {g : LogOp → Nat → Nat → Nat → Int}
    (he : ∀ h s o, exec (mk h o) s = log2op h o (g o) s) (hg : ∀ o a n, g o o.ty.width a n = f o.ty a n) : BitsTwo mk f := by
  refine laneResult_of _ _ _ (fun s _ h o _ => he h s o) (fun _ _ o _ _ => dst_pos o.ty.regs_pos) ?_
  intro s x h o L _ _ _
  refine ⟨?_, rfl⟩
  simp only [Site.ctx_v, hg]
  rfl

/-- Instructions of group 2 with one operand: the two functions agree on numbers of the width. -/
theorem bitsOne_of {mk : Hdr → LogUn → Instr} {n : IType → Nat} {f g : Nat → Nat → Nat} (hn : ∀ t, 0 < n t)
    (he : ∀ h s o, exec (mk h o) s = log1op h o (n o.ty) g s) (hg : ∀ w a, a < 2 ^ w → g w a = f w a) : BitsOne mk n f := by
  refine laneResult_of _ _ _ (fun s _ h o _ => he h s o) (fun _ _ o _ _ => dst_pos (hn o.ty)) ?_
  intro s x h o L _ _ _
  refine ⟨?_, rfl⟩
  simp only [Site.ctx_v, hg _ _ (Nat.mod_lt _ (Nat.two_pow_pos _))]
  rfl

/-! ## Instructions of group 1 -/

theorem integerArithmeticResults : IntegerArithmeticResults := by
  refine ⟨?iadd, ?isub, ?imul, ?imulh, ?imin, ?imax, ?iabs, ?ineg, ?imad, ?iadd3, ?iaddI⟩
  case iadd => exact intTwo_of exec_iadd (fun _ _ _ => rfl)
  case isub => exact intTwo_of exec_isub (fun _ _ _ => rfl)
  case imul => exact intTwo_of exec_imul (fun _ _ _ => rfl)
  case imulh => exact intTwo_of exec_imulh (fun _ _ _ => Int.fdiv_eq_ediv_of_nonneg _ (Int.le_of_lt (int_two_pow_pos _)))
  case imin => exact intTwo_of exec_imin (fun _ a b => (Int.min_def a b).symm)
  case imax => exact intTwo_of exec_imax (fun _ a b => (Int.max_def a b).symm)
  case iabs => exact intOne_of exec_iabs
  case ineg => exact intOne_of exec_ineg
  case imad => exact intThree_of exec_imad
  case iadd3 => exact intThree_of exec_iadd3
  case iaddI =>
    refine laneResult_of _ _ _ (fun s _ h o _ => exec_iaddI h s o) (fun _ _ _ _ _ => dst_pos Nat.one_pos) ?_
    intro s x h o L hi _ hok
    refine ⟨?_, rfl⟩
    simp only [Site.fctl _ _ hi, Site.ctx_v]
    exact intResult_eq_narrowed hok

theorem integerDivision : IntegerDivision :=
  ⟨division_of exec_idiv, division_of exec_irem⟩

/-! ## Instructions of group 2 -/

theorem bitFieldsResults : BitFieldsResults := by
  refine ⟨?blut, ?blutI, fun tt a b c i hi => getLsbD_blut tt a b c hi, ?bfe, ?bfi, ?bsel⟩
  case blut =>
    refine laneResult_of _ _ _ (fun s _ h o _ => exec_blut h s o) (fun _ _ o _ _ => dst_pos o.ty.regs_pos) ?_
    intro s x h o L _ _ _
    simp only [Site.ctx_v, and_self]
  case blutI =>
    refine laneResult_of _ _ _ (fun s _ h o _ => exec_blutI h s o) (fun _ _ _ _ _ => dst_pos Nat.one_pos) ?_
    intro s x h o L _ _ _
    simp only [Site.ctx_v, and_self]
  case bfe => exact bitsTwo_of exec_bfe (fun o a ctl => bitField_extracted o.ty a ctl)
  case bfi =>
    refine laneResult_of _ _ _ (fun s _ h o _ => exec_bfi h s o) (fun _ _ o _ _ => dst_pos o.ty.regs_pos) ?_
    intro s x h o L _ _ _
    refine ⟨?_, rfl⟩
    simp only [Site.ctx_v]
    exact congrArg (fun n : Nat => ({ val := o.ty.write n } : LaneOut)) (bitField_inserted _ _ (Nat.mod_lt _ (Nat.two_pow_pos _)))
  case bsel =>
    refine laneResult_of _ _ _ (fun s _ h o _ => exec_bsel h s o) (fun _ _ o _ _ => dst_pos o.ty.regs_pos) ?_
    intro s x h o L _ _ hw
    refine ⟨?_, rfl⟩
    simp only [Site.ctx_v, hw, sum_bytes_eq fun _ => bselByte_lt _ _]
    rfl

theorem bitCounts : BitCounts :=
  ⟨bitsOne_of (fun _ => Nat.one_pos) exec_popc (fun _ _ _ => rfl),
   bitsOne_of (fun _ => Nat.one_pos) exec_clz (fun _ _ h => leadingZeros_eq h),
   bitsOne_of (fun _ => Nat.one_pos) exec_ctz (fun w a _ => trailingZeros_eq w a),
   bitsOne_of IType.regs_pos exec_brev (fun w a _ => reversedBits_eq w a)⟩

/-! ## Moves and shapes of group 3 -/

/-- The shape tag that SHAPE.Q reads is the one that stands in the wave: reading operands changes no register (R116). -/
theorem Site.readState_tag {s : State} {x : Site} (h : Hdr) (u : Uses) (hi : Issues s x) (r : Nat) :
    (((Site.readState s x h u).waves[(Site.ctx s x h u).w]?).map (fun wv => (wv.reg r).tag)).getD .gen = (x.wv.reg r).tag := by
  have hw := Site.readState_wave h u hi
  obtain ⟨fs, h0, _⟩ := Site.hasRead s x h u
  simp only [Site.ctx, hw, h0, Option.map_some, Option.getD_some]
  rfl

end Sys2Proof.Machine

open Sys2Proof Sys2Proof.Machine Sys2Proof.Safety

/-- Settles O1: the model's narrowing and its division are the rules' own (`intResult_eq_narrowed`, `divResult_eq_quotient`). -/
theorem integerArithmetic : Obligations.IntegerArithmetic := ⟨integerArithmeticResults, integerDivision⟩

/-- Settles O2: the exact sums and products, taken modulo 2^32 or 2^64. -/
theorem wideIntegers : Obligations.WideIntegers := by
  refine ⟨?iaddc, ?isubb, ?imadw, ?lea, ?isad⟩
  case iaddc =>
    refine laneResult_of _ _ _ (fun s _ h o _ => exec_iaddc h s o) (fun _ _ _ _ _ => dst_pos Nat.one_pos) ?_
    intro s x h o L hi _ _
    refine ⟨?_, rfl⟩
    obtain ⟨hv, hp⟩ := carry_sum (natOperand s x h (carryUses o) 0 L % 2 ^ 32) (natOperand s x h (carryUses o) 1 L % 2 ^ 32)
      (carryBit x o L)
    simp only [Site.ctx_v, carryIn_eq_carryBit _ _ hi, IType.read_ui32, LaneOut.mk.injEq, decide_eq_decide]
    exact ⟨hv, trivial, hp, trivial⟩
  case isubb =>
    refine laneResult_of _ _ _ (fun s _ h o _ => exec_isubb h s o) (fun _ _ _ _ _ => dst_pos Nat.one_pos) ?_
    intro s x h o L hi _ _
    refine ⟨?_, rfl⟩
    obtain ⟨hv, hp⟩ := borrow_difference (Nat.mod_lt (natOperand s x h (carryUses o) 0 L) (Nat.two_pow_pos 32))
      (Nat.mod_lt (natOperand s x h (carryUses o) 1 L) (Nat.two_pow_pos 32)) (carryBit_le_one x o L)
    simp only [Site.ctx_v, carryIn_eq_carryBit _ _ hi, IType.read_ui32, LaneOut.mk.injEq, decide_eq_decide]
    exact ⟨hv, trivial, hp, trivial⟩
  case imadw =>
    refine laneResult_of _ _ _ (fun s _ h o _ => exec_imadw h s o) (fun _ _ _ _ _ => dst_pos Nat.two_pos) ?_
    intro s x h o L _ _ _
    refine ⟨?_, rfl⟩
    simp only [Site.ctx_v]
    rfl
  case lea =>
    refine laneResult_of _ _ _ (fun s _ h o _ => exec_lea h s o) (fun _ _ _ _ _ => dst_pos Nat.two_pos) ?_
    intro s x h o L _ _ _
    refine ⟨?_, rfl⟩
    simp only [Site.ctx_v, lea_scale]
    rfl
  case isad =>
    refine laneResult_of _ _ _ (fun s _ h o _ => exec_isad h s o) (fun _ _ _ _ _ => dst_pos Nat.one_pos) ?_
    intro s x h o L _ _ _
    refine ⟨?_, rfl⟩
    simp only [Site.ctx_v, setWidth_ofNat_eq]
    rfl

/-- Settles O3: each shift of the model is the rule's multiplication or division by a power of two. -/
theorem shifts : Obligations.Shifts := by
  refine ⟨?shl, ?shr, ?sar, ?rot, ?funl⟩
  case shl => exact bitsTwo_of exec_shl (fun _ _ _ => rfl)
  case shr => exact bitsTwo_of exec_shr (fun _ a n => by push_cast; rfl)
  case sar =>
    refine bitsTwo_of exec_sar (fun o a n => ?_)
    rw [Int.fdiv_eq_ediv_of_nonneg _ (Int.le_of_lt (int_two_pow_pos _)), Nat.min_comm, Nat.min_def]
  case rot => exact bitsTwo_of exec_rot (fun _ _ _ => rfl)
  case funl =>
    refine laneResult_of _ _ _ (fun s _ h o _ => exec_funl h s o) (fun _ _ o _ _ => dst_pos o.ty.regs_pos) ?_
    intro s x h o L _ _ hw
    refine ⟨?_, rfl⟩
    simp only [Site.ctx_v, hw, apply_ite (fun n : Nat => (n : Int))]
    rfl

/-- Settles O4: the fields, bytes and counts of the model, bit for bit. -/
theorem bitFields : Obligations.BitFields := ⟨bitFieldsResults, bitCounts⟩

/-- Settles O5: the moves' values are their operands', read in the wave as it stands. -/
theorem movesAndShapes : Obligations.MovesAndShapes := by
  refine ⟨?mov, ?movi, ?sel, ?shapeQ, ?shapeU, ?affine⟩
  case mov =>
    refine laneResult_of _ _ _ (fun s _ h o _ => exec_mov h s o) (fun _ _ o _ _ => dst_pos o.ty.regs_pos) ?_
    intro s x h o L _ _ _
    refine ⟨?_, rfl⟩
    simp only [Site.ctx_v]
    rfl
  case movi =>
    refine laneResult_of _ _ _ (fun s _ h o _ => exec_movi h s o) (fun _ _ _ _ _ => dst_pos Nat.one_pos) ?_
    intro s x h o L _ _ _
    exact ⟨rfl, rfl⟩
  case sel =>
    refine laneResult_of _ _ _ (fun s _ h o _ => exec_sel h s o) (fun _ _ o _ _ => dst_pos o.ty.regs_pos) ?_
    intro s x h o L _ _ _
    refine ⟨?_, rfl⟩
    have hz : operand s x h (selUses o) 2 L = 0 ↔ natOperand s x h (selUses o) 2 L = 0 :=
      ⟨fun e => by rw [natOperand, e]; rfl, fun e => BitVec.eq_of_toNat_eq e⟩
    simp only [Site.ctx_v, ne_eq, hz, ite_not]
    split <;> rfl
  case shapeQ =>
    refine laneResult_of _ _ _ (fun s _ h o _ => exec_shape h s false o.1 _) (fun _ _ _ _ _ => dst_pos Nat.one_pos) ?_
    intro s x h o L hi _ _
    refine ⟨?_, rfl⟩
    simp only [Site.readState_tag _ _ hi]
    cases (x.wv.reg o.2.1.toNat).tag <;> rfl
  case shapeU =>
    refine laneResult_of _ _ _ (fun s _ h o _ => exec_shape h s true o.1 o.2) (fun _ _ _ _ _ => dst_pos Nat.one_pos) ?_
    intro s x h o L _ _ _
    refine ⟨?_, rfl⟩
    simp only [Site.ctx_u]
  case affine =>
    refine laneResult_of _ _ _ (fun s _ h o _ => exec_affine h s o.1 o.2.1 o.2.2) (fun _ _ _ _ _ => dst_pos Nat.one_pos) ?_
    intro s x h o L _ _ _
    refine ⟨?_, rfl⟩
    simp only [Site.ctx_v]
    rfl

end

/-! # Conversions and dot products (R128 to R133)

Each of them is a lane-by-lane operation whose lane ends in `floatOut` or `intResult`, and these keep value and flags where no
trap is due. What remains is that the value of a lane is the rules': of the element types that stand for integers, and of the
exact sum of a dot product. -/

section

namespace Sys2Proof.Machine

open Sys2Proof.Safety

/-! ## Results where no trap is due (R78, R84, R85) -/

theorem floatOut_of_noFloatTrap {fctl : Word} {fl : BitVec 8} (cause : Nat → Cause) (v : BitVec 128) (p : Bool)
    (h : NoFloatTrap fctl fl) : floatOut fctl cause v fl p = { val := v, flags := fl, p := p } := by
  have hn : firstEnabled fctl fl = none := by
    rw [firstEnabled, List.find?_range_eq_none]
    intro e he
    cases hfl : fl.getLsbD e with
    | false => rfl
    | true => simp [h e he hfl]
  rw [floatOut, hn]

/-- Where no trap of any kind is due, none of a float exception is. -/
theorem noFloatTrap_of_noTrap {fctl : Word} {fl : BitVec 8} (h : NoTrap fctl fl) : NoFloatTrap fctl fl :=
  fun e he => h e (by omega)

theorem floatOut_of_noTrap {fctl : Word} {fl : BitVec 8} (cause : Nat → Cause) (v : BitVec 128) (h : NoTrap fctl fl) :
    floatOut fctl cause v fl = { val := v, flags := fl } :=
  floatOut_of_noFloatTrap cause v false (noFloatTrap_of_noTrap h)

/-- The flag of a clamped result is IOV, so that no trap for its flags is none for its overflow (R78, R97). -/
theorem noOverflowTrap_of_noTrap {fctl : Word} {t : IType} {sat : Bool} {v : Int} (h : NoTrap fctl (narrowed t sat v).flags) :
    NoOverflowTrap fctl t sat v := by
  intro hs hne
  have hfl : (narrowed t sat v).flags = flIOV := if_pos ⟨hs, hne⟩
  exact h 6 (by decide) (by rw [hfl]; decide)

theorem intResult_of_noTrap {fctl : Word} {t : IType} {sat : Bool} {v : Int} (h : NoTrap fctl (narrowed t sat v).flags) :
    intResult fctl t sat v = narrowed t sat v := intResult_eq_narrowed (noOverflowTrap_of_noTrap h)

/-! ## The lane of a conversion (R128 to R131) -/

theorem eRegs_pos (t : EType) : 0 < eRegs t := by
  unfold eRegs
  split <;> decide

theorem cvtRegs_pos (t : CvtTy) : 0 < cvtRegs t := by
  cases t with
  | int t => exact t.regs_pos
  | elt t => exact eRegs_pos t

/-- An integer element code has the width of its integer type. -/
theorem width_eltInt {t : EType} (h : isIntElt t = true) : (eltInt t).width = t.width := by
  revert h
  cases t <;> decide

theorem cvtLane_eq_converted {fctl : Word} {o : CvtOp} {v : BitVec 128} (h : NoTrap fctl (converted fctl o v).flags) :
    cvtLane fctl o v = converted fctl o v := by
  obtain ⟨dst, src, rnd, sat, d, a⟩ := o
  cases dst with
  | int d =>
    cases src with
    | int t => exact intResult_of_noTrap h
    | elt t => exact floatOut_of_noTrap _ _ h
  | elt d =>
    cases src with
    | int t => exact floatOut_of_noTrap _ _ h
    | elt t =>
      by_cases hdt : d = t
      · simp only [converted, cvtLane, if_pos hdt] at h ⊢
        exact floatOut_of_noTrap _ _ h
      · simp only [converted, cvtLane, if_neg hdt] at h ⊢
        exact floatOut_of_noTrap _ _ h

theorem converted_trap (fctl : Word) (o : CvtOp) (v : BitVec 128) : (converted fctl o v).trap = none := by
  obtain ⟨dst, src, rnd, sat, d, a⟩ := o
  cases dst <;> cases src
  case elt.elt d t =>
    by_cases hdt : d = t
    · simp only [converted, if_pos hdt]
    · simp only [converted, if_neg hdt]
  all_goals rfl

/-- R130: a result in KF4 has its value and flags whatever traps are enabled. -/
theorem cvtnLane_eq_narrowElement {fctl : Word} {fmt : BitVec 10} {o : CvtnOp} {v : Nat}
    (h : o.dst.getD (fmtType (fmtA fmt)) = .kf4 ∨ NoTrap fctl (narrowElement fctl fmt o v).flags) :
    cvtnLane fctl (o.dst.getD (fmtType (fmtA fmt))) o.src o.rnd (o.sat || (o.dst.isNone && fmtSat fmt)) v
      = narrowElement fctl fmt o v := by
  unfold narrowElement at h ⊢
  generalize o.dst.getD (fmtType (fmtA fmt)) = d at h ⊢
  cases hd : isIntElt d with
  | true =>
    have hk : d ≠ .kf4 := by rintro rfl; cases hd
    simp only [cvtnLane, hd, if_true, width_eltInt hd] at h ⊢
    exact floatOut_of_noTrap _ _ (h.resolve_left hk)
  | false =>
    by_cases hk : d = .kf4
    · simp only [cvtnLane, hd, Bool.false_eq_true, if_false, if_pos hk]
    · simp only [cvtnLane, hd, Bool.false_eq_true, if_false, if_neg hk] at h ⊢
      exact floatOut_of_noTrap _ _ (h.resolve_left hk)

theorem narrowElement_trap (fctl : Word) (fmt : BitVec 10) (o : CvtnOp) (v : Nat) :
    (narrowElement fctl fmt o v).trap = none := by
  simp only [narrowElement]
  split <;> rfl

/-! ## The lane of a dot product (R91, R132, R133) -/

/-- The model adds the products one by one to the addend; R133 sums them. -/
theorem intDot_eq_sum (ta tb : IType) (w k a b : Nat) (c : Int) :
    intDot ta tb w k a b c = ((List.range k).map (fun i => ta.read (BitVec.ofNat 128 (element w i a))
      * tb.read (BitVec.ofNat 128 (element w i b)))).sum + c := by
  unfold intDot
  induction k with
  | zero => simp
  | succ k ih =>
    rw [List.range_succ, List.foldl_append, ih, List.map_append, List.sum_append, List.foldl_cons, List.foldl_nil,
      List.map_singleton, List.sum_singleton, Int.add_right_comm]
    rfl

theorem dpLane_eq_exactDotProduct {fctl : Word} {fmt : BitVec 10} {rnd : Rnd} {w a b c : Nat}
    (h : NoTrap fctl (exactDotProduct fctl fmt rnd w a b c).flags) :
    dpLane fctl fmt rnd w a b c = exactDotProduct fctl fmt rnd w a b c := by
  unfold exactDotProduct at h
  unfold dpLane exactDotProduct
  cases hacc : fmtAcc fmt with
  | true =>
    simp only [hacc, if_true, intDot_eq_sum] at h ⊢
    exact intResult_of_noTrap h
  | false =>
    simp only [hacc, Bool.false_eq_true, if_false] at h ⊢
    exact floatOut_of_noTrap _ _ h

theorem exactDotProduct_trap (fctl : Word) (fmt : BitVec 10) (rnd : Rnd) (w a b c : Nat) :
    (exactDotProduct fctl fmt rnd w a b c).trap = none := by
  simp only [exactDotProduct]
  split <;> rfl

/-! ## The arms of `exec` -/

section
variable (h : Hdr) (s : State)

theorem exec_cvt (o : CvtOp) : exec (.cvt h o) s = execCvt h o s := rfl
theorem exec_cvtp (o : CvtpOp) : exec (.cvtp h o) s = execCvtp h o s := rfl
theorem exec_cvtn (o : CvtnOp) : exec (.cvtn h o) s = execCvtn h o s := rfl
theorem exec_unpk (o : UnpkOp) : exec (.unpk h o) s = execUnpk h o s := rfl
theorem exec_dp2 (o : DpOp) : exec (.dp2 h o) s = dpOp h o 16 ((Instr.dp2 h o).fmtFaults s.curFmt) s := rfl
theorem exec_dp4 (o : DpOp) : exec (.dp4 h o) s = dpOp h o 8 ((Instr.dp4 h o).fmtFaults s.curFmt) s := rfl
theorem exec_dp8 (o : DpOp) : exec (.dp8 h o) s = dpOp h o 4 ((Instr.dp8 h o).fmtFaults s.curFmt) s := rfl

end

/-- An issue that is no re-injection reads the FMT of its split (R90). -/
theorem curFmt_of_issues {s : State} {x : Site} (hi : Issues s x) : s.curFmt = x.sp.fmt := by
  simp only [State.curFmt, hi.cur, hi.wave, Option.bind_some, hi.split, Option.map_some, Option.getD_some]

/-! ## Families of instructions -/

/-- DP2, DP4 and DP8. -/
theorem dotResult_of {mk : Hdr → DpOp → Instr} {w : Nat}
    (he : ∀ h s o, exec (mk h o) s = dpOp h o w ((mk h o).fmtFaults s.curFmt) s) : DotResult mk w := by
  refine laneResult_of (fun _ _ => Ctx.uniTag)
    (fun _ o s c L => dpLane (s.fctl c) c.fmt o.rnd w (wordOf (c.v 0 L) 0).toNat (wordOf (c.v 1 L) 0).toNat
      (wordOf (c.v 2 L) 0).toNat) (fun _ _ => none) ?_ (fun _ _ _ _ _ => dst_pos Nat.one_pos) ?_
  · intro s x h o hi
    rw [he, curFmt_of_issues hi]
    rfl
  · intro s x h o L hi _ hok
    refine ⟨?_, exactDotProduct_trap ..⟩
    simp only [Site.fctl _ _ hi, Site.ctx_v]
    exact dpLane_eq_exactDotProduct hok

end Sys2Proof.Machine

open Sys2Proof Sys2Proof.Machine Sys2Proof.Safety

/-- Settles O10: each lane's value is the rule's, and nothing traps where no raised flag is enabled. -/
theorem conversions : Obligations.Conversions := by
  refine ⟨?cvt, ?cvtp, ?cvtn, ?unpk, dotResult_of exec_dp2, dotResult_of exec_dp4, dotResult_of exec_dp8⟩
  case cvt =>
    refine laneResult_of _ _ _ (fun s _ h o _ => exec_cvt h s o) (fun _ _ o _ _ => dst_pos (cvtRegs_pos o.dst)) ?_
    intro s x h o L hi _ hok
    refine ⟨?_, converted_trap ..⟩
    simp only [Site.fctl _ _ hi, Site.ctx_v]
    exact cvtLane_eq_converted hok
  case cvtp =>
    refine laneResult_of _ _ _ (fun s _ h o _ => exec_cvtp h s o) (fun _ _ _ _ _ => dst_pos Nat.one_pos) ?_
    intro s x h o L hi _ hok
    refine ⟨?_, rfl⟩
    simp only [Site.fctl _ _ hi, Site.ctx_v]
    exact floatOut_of_noTrap _ _ hok
  case cvtn =>
    refine laneResult_of (fun _ _ => Ctx.uniTag)
      (fun _ o s c L => cvtnLane (s.fctl c) (o.dst.getD (fmtType (fmtA c.fmt))) o.src o.rnd
        (o.sat || (o.dst.isNone && fmtSat c.fmt)) (c.v 0 L).toNat)
      (fun _ _ => none) ?_ (fun _ _ _ _ _ => dst_pos Nat.one_pos) ?_
    · intro s x h o hi
      rw [exec_cvtn, execCvtn, curFmt_of_issues hi]
    · intro s x h o L hi _ hok
      refine ⟨?_, narrowElement_trap ..⟩
      simp only [Site.fctl _ _ hi, Site.ctx_v]
      exact cvtnLane_eq_narrowElement hok
  case unpk =>
    refine laneResult_of (fun _ _ => Ctx.uniTag)
      (fun _ o s c L => unpkLane (s.fctl c) (unpkType o c.fmt) (c.v 0 L).toNat)
      (fun _ _ => none) ?_ (fun _ _ _ _ _ => dst_pos Nat.one_pos) ?_
    · intro s x h o hi
      rw [exec_unpk, execUnpk, curFmt_of_issues hi]
    · intro s x h o L hi _ hok
      refine ⟨?_, rfl⟩
      simp only [Site.fctl _ _ hi, Site.ctx_v]
      exact floatOut_of_noTrap _ _ hok

end

/-! # Precise traps (R69, R212, R214, R215, R276)

A cause of delivery P makes the issuing wave enter its handler with nothing done. `Trapped` is first shown of a trap entry as such:
capturing a wave's unfinished work changes the results of that work and no other field, and with none in flight no value at all.
`trapsPrecise_of` then says it of every instruction whose course raises a cause, and the checking instructions and XSET supply the
cause that they raise. -/

section

namespace Sys2Proof.Machine

open Sys2Proof.Safety

/-! ## What landing and capturing results leaves of a wave (R276, R279, R282) -/

/-- `b` is `a` but for registers, predicates, the last ERR source and the lists of unfinished work. -/
def Wave.SameButResults (a b : Wave) : Prop :=
  ∃ rs ps es fs re fa, b = { a with regs := rs, preds := ps, errSrc := es, flights := fs, reinj := re, faulting := fa }

theorem Wave.SameButResults.refl (a : Wave) : Wave.SameButResults a a := ⟨_, _, _, _, _, _, rfl⟩

theorem Wave.SameButResults.trans {a b c : Wave} (h1 : Wave.SameButResults a b) (h2 : Wave.SameButResults b c) :
    Wave.SameButResults a c := by
  obtain ⟨_, _, _, _, _, _, rfl⟩ := h1
  obtain ⟨_, _, _, _, _, _, rfl⟩ := h2
  exact ⟨_, _, _, _, _, _, rfl⟩

theorem Wave.SameButRegs.sameButResults {a b : Wave} (h : Wave.SameButRegs a b) : Wave.SameButResults a b := by
  obtain ⟨_, rfl⟩ := h
  exact ⟨_, _, _, _, _, _, rfl⟩

theorem Wave.SameButResults.ite {c : Prop} {_ : Decidable c} {a b d : Wave} (h1 : Wave.SameButResults a b)
    (h2 : Wave.SameButResults a d) : Wave.SameButResults a (if c then b else d) := by split <;> assumption

theorem Wave.onRegs_same (wv : Wave) (r : Nat) (f : VReg → VReg) (n : Nat) : Wave.SameButRegs wv (wv.onRegs r f n) := by
  induction n with
  | zero => exact .refl _
  | succ n ih => exact ih.trans (.setReg _ _ _)

theorem Wave.markD_same (wv : Wave) (d : RDst) (full : Bool) : Wave.SameButRegs wv (wv.markD d full) := by
  unfold Wave.markD
  split
  · exact .refl _
  · exact Wave.onRegs_same _ _ _ _

theorem Wave.fillAll_same (wv : Wave) (es : List RQEntry) : Wave.SameButRegs wv (wv.fillAll es) :=
  foldl_keeps (Wave.SameButRegs wv) _ (fun w e h => h.trans (Wave.markD_same w e.dst true)) es wv (.refl wv)

theorem Wave.deliver_same (wv : Wave) (f : Flight) (m : Mask) : Wave.SameButResults wv (wv.deliver f m) := by
  unfold Wave.deliver
  extract_lets m live dst w1 w2 w3
  have h1 : Wave.SameButResults wv w1 := (Wave.writeD_same _ _ _ _ _ _).sameButResults
  have h2 : Wave.SameButResults wv w2 := .ite (h1.trans (Wave.markD_same _ _ _).sameButResults) h1
  have h3 : Wave.SameButResults wv w3 := .ite (h2.trans ⟨_, _, _, _, _, _, rfl⟩) h2
  split
  · exact h3
  · exact h3.trans ⟨_, _, _, _, _, _, rfl⟩

theorem Wave.landKnown_same (wv : Wave) : Wave.SameButResults wv wv.landKnown :=
  (foldl_keeps (Wave.SameButResults wv) _ (fun w f h => h.trans (Wave.deliver_same w f _)) _ wv (.refl wv)).trans
    ⟨_, _, _, _, _, _, rfl⟩

theorem State.landed_same (s : State) (wv : Wave) : Wave.SameButResults wv (s.landed wv) :=
  .ite (Wave.landKnown_same wv) (.refl wv)

theorem Wave.capture_same (wv : Wave) (own : Option RQEntry) : Wave.SameButResults wv (wv.capture own).1 := by
  have h := foldl_keeps (fun a : Wave × List RQEntry × List Flight => Wave.SameButResults wv a.1)
    (fun a f => if f.entry.kind = 3 ∧ f.entry.cause = 0 then (a.1.deliver f f.known, a.2.1, a.2.2 ++ (f.without f.known).toList)
      else (a.1, a.2.1 ++ [f.entry], a.2.2))
    (fun a f h => by
      split
      · exact h.trans (Wave.deliver_same _ _ _)
      · exact h) wv.flights (wv, [], []) (.refl wv)
  exact h.trans ⟨_, _, _, _, _, _, rfl⟩

/-- With no flight there is no result to land. -/
theorem State.landed_of_no_flights (s : State) {wv : Wave} (h : wv.flights = []) : s.landed wv = wv := by
  have hl : wv.landKnown = wv := by
    simp only [Wave.landKnown, h, List.filter_nil, List.foldl_nil, List.flatMap_nil]
    rw [← h]
  rw [State.landed, hl, ite_self]

theorem Wave.capture_of_no_flights {wv : Wave} (own : Option RQEntry) (h : wv.flights = []) :
    (wv.capture own).1 = { wv with flights := [], reinj := [], faulting := none } := by
  simp only [Wave.capture, h, List.foldl_nil]

/-- Marking destinations full changes no value. -/
theorem Wave.fillAll_val (wv : Wave) (es : List RQEntry) (r : Nat) : ((wv.fillAll es).reg r).val = (wv.reg r).val := by
  have onRegs (w : Wave) (q n : Nat) : ((w.onRegs q (fun v => { v with full := true }) n).reg r).val = (w.reg r).val := by
    induction n with
    | zero => rfl
    | succ n ih =>
      unfold Wave.onRegs
      by_cases hr : r = q + n
      · rw [← ih, hr, Wave.reg_setReg_self]
      · rw [← ih, Wave.reg_setReg_ne _ hr]
  refine foldl_keeps (fun w : Wave => (w.reg r).val = (wv.reg r).val) _ (fun w e h => ?_) es wv rfl
  rw [← h, Wave.markD]
  split
  · rfl
  · exact onRegs _ _ _

/-! ## The entered trap (R69, R276) -/

theorem ofNat_shiftLeft (w a n : Nat) : BitVec.ofNat w (a <<< n) = BitVec.ofNat w a <<< n := by
  apply BitVec.eq_of_toNat_eq
  simp [Nat.shiftLeft_eq]

/-- R69: the fields of TCAUSE do not overlap, so that the word is their sum. -/
theorem tcauseWord_eq (level : Nat) {lane : Nat} (c : Cause) (hl : lane < 32) :
    tcauseWord level lane c = BitVec.ofNat 32 (level * 2 ^ 14 + lane * 2 ^ 9 + c.toNat) := by
  have hc : c.toNat < 2 ^ 9 := c.isLt
  have e : level * 2 ^ 14 + lane * 2 ^ 9 + c.toNat = level <<< 14 ||| lane <<< 9 ||| c.toNat := by
    have hlow : lane <<< 9 + c.toNat < 2 ^ 14 := by rw [Nat.shiftLeft_eq]; omega
    rw [Nat.or_assoc, ← Nat.shiftLeft_add_eq_or_of_lt hc, ← Nat.shiftLeft_add_eq_or_of_lt hlow, Nat.shiftLeft_eq,
      Nat.shiftLeft_eq, Nat.add_assoc]
  have hw : c.setWidth 32 = BitVec.ofNat 32 c.toNat := by rw [← BitVec.ofNat_toNat]
  rw [e, tcauseWord, Nat.mod_eq_of_lt hl, hw, BitVec.ofNat_or, BitVec.ofNat_or, ofNat_shiftLeft,
    ofNat_shiftLeft]

theorem handlerTable_split? (live : Mask) (pc : Word) (k : Nat) :
    (handlerTable live pc).split? k
      = if k = 0 then some ⟨live, pc, 0xFFFFFFFF, live, 0xFFFF, 0, 31, false, false, none⟩ else none := by
  simp only [SplitTable.split?, handlerTable, SplitTable.empty, Vector.getElem?_set, Vector.getElem?_replicate]
  grind

theorem handlerTable_rec? (live : Mask) (pc : Word) (k : Nat) : (handlerTable live pc).rec? k = none := by
  simp only [SplitTable.rec?, handlerTable, SplitTable.empty, Vector.getElem?_replicate]
  grind

/-- What a trap entered into a handler leaves of its wave: the level, frame, table and saved state of R276, and the results that
were landed and captured. -/
theorem Wave.trap_fields (wv : Wave) (handler : Word) (t : TrapInfo) :
    ∃ b f rq n, Wave.SameButResults wv b ∧ f.resume = t.resume ∧ f.slot = t.slot ∧ f.frame = wv.frame ∧ f.rq = wv.rq
      ∧ wv.trap handler t = { b with
          saved := f :: wv.saved, level := wv.level + 1, rq := rq, frame := t.frame (wv.level + 1)
          table := handlerTable wv.live handler, traps := n, since := n } :=
  ⟨_, _, _, _, (Wave.capture_same wv t.entry).trans (Wave.fillAll_same _ _).sameButResults, rfl, rfl, rfl, rfl, rfl⟩

/-- With no flight a trap leaves predicates and register values as they were. -/
theorem State.trap_landed_values (s : State) {wv : Wave} (handler : Word) (t : TrapInfo) (h : wv.flights = []) :
    ((s.landed wv).trap handler t).preds = wv.preds
      ∧ ∀ r (L : Lane), (((s.landed wv).trap handler t).reg r).val[L] = (wv.reg r).val[L] := by
  rw [State.landed_of_no_flights s h]
  have hc := Wave.capture_of_no_flights t.entry h
  constructor
  · obtain ⟨rs, hrs⟩ := Wave.fillAll_same (wv.capture t.entry).1 (wv.capture t.entry).2
    change ((wv.capture t.entry).1.fillAll _).preds = _
    rw [hrs, hc]
  · intro r L
    change (((wv.capture t.entry).1.fillAll _).reg r).val[L] = _
    rw [Wave.fillAll_val, hc]
    rfl

/-- The trap is entered at once (R276): no handler is missing, no result awaited, and the level is not the last. -/
theorem State.enterTrap_taken {s : State} {w : Nat} {wv : Wave} {l : Launch} {t : TrapInfo} (hw : s.waves[w]? = some wv)
    (ha : wv.life ≠ .retired) (hv : wv.level < 2) (hl : s.launchOf wv = some l) (hh : l.record.handler ≠ 0xFFFFFFFF)
    (hc : wv.awaits t.flight = false) :
    s.enterTrap w t = s.withWave w (fun _ => (s.landed wv).trap l.record.handler t) := by
  simp only [State.enterTrap, hw, ha, Nat.ne_of_lt hv, hl, hh, hc, if_false, Bool.false_eq_true]
  exact withWave_const _ hw

/-! ## Instructions that raise a cause -/

section
variable {s : State} {x : Site} {h : Hdr} {u : Uses} {l : Launch}

/-- A cause raised once the operands have been read enters the handler, its instruction to be resumed at itself. -/
theorem trapped_raise (hi : Issues s x) (ht : CanTrap s x l) (i : IssueCause) (hlane : i.lane < 32) :
    ∃ wv2, Trapped s ((Site.readState s x h u).raise (Site.ctx s x h u) i) x l i.cause i.lane i.detail (some x.sp.pc) wv2
      ∧ wv2.qretired = x.wv.qretired := by
  let t : TrapInfo := ⟨i.cause, i.lane, i.detail, x.sp.pc, x.w0, x.w1, x.w2, x.slot, some x.sp.pc, none, none⟩
  let r := Site.readState s x h u
  obtain ⟨fs, h0, -⟩ := Site.hasRead s x h u
  have hw : r.waves[x.w]? = some { x.wv with fstat := fs } := h0 ▸ Site.readState_wave h u hi
  have he : r.raise (Site.ctx s x h u) i
      = r.withWave x.w (fun _ => (r.landed { x.wv with fstat := fs }).trap l.record.handler t) :=
    State.enterTrap_taken (t := t) hw hi.alive ht.level ht.launch ht.handler ht.calm
  obtain ⟨rs, ps, es, fl, re, fa, hland⟩ := State.landed_same r { x.wv with fstat := fs }
  obtain ⟨b, f, rq, n, ⟨rs', ps', es', fl', re', fa', rfl⟩, hres, hslot, hframe, hrq, hb⟩ :=
    Wave.trap_fields (r.landed { x.wv with fstat := fs }) l.record.handler t
  refine ⟨(r.landed { x.wv with fstat := fs }).trap l.record.handler t, ?_, by rw [hb, hland]⟩
  rw [hland] at hframe hrq
  have only : OnlyWave s (r.raise (Site.ctx s x h u) i) x.w := by
    rw [he]
    exact ((OnlyWave.taken s x.w).trans (OnlyWave.withWave rfl _ _)).trans (OnlyWave.withWave rfl _ _)
  refine { wave := ?_, level := ?_, frame := ?_, handler := ?_, alone := ?_, saved := ?_, lanes := ?_, kept := ?_, regs := ?_
           only := only }
  · rw [he]
    exact State.withWave_self _ hw
  · rw [hb, hland]
  · rw [hb, hland, TrapInfo.frame, tcauseWord_eq _ _ hlane]
  · rw [hb, hland]
    exact handlerTable_split? _ _ 0
  · intro k
    rw [hb, hland]
    exact ⟨fun hk => (handlerTable_split? _ _ k).trans (if_neg (Nat.ne_of_gt hk)), handlerTable_rec? _ _ k⟩
  · exact ⟨f, by rw [hb, hland], hres, hslot, hframe, hrq⟩
  · rw [hb, hland]
    exact ⟨rfl, rfl⟩
  · rw [hb, hland]
    exact ⟨rfl, rfl⟩
  · exact State.trap_landed_values r (wv := { x.wv with fstat := fs }) l.record.handler t

/-- An instruction whose course raises a cause once its operands have been read traps without effect. -/
theorem trapsPrecise_of {i : Instr} {k : State → Ctx → State} {c : Cause} {lane : Nat} {detail : Word}
    (hc : Clear s x h u) (ht : CanTrap s x l) (he : exec i s = issue h u k s) (hlane : lane < 32)
    (hk : k (Site.readState s x h u) (Site.ctx s x h u)
      = (Site.readState s x h u).raise (Site.ctx s x h u) ⟨c, lane, detail⟩) :
    TrapsPrecise i s x l c lane detail := by
  obtain ⟨wv2, htr, hq⟩ := trapped_raise (h := h) (u := u) hc.issues ht ⟨c, lane, detail⟩ hlane
  exact ⟨_, wv2, by rw [he, issue_clear hc, hk], htr, hq⟩

/-! ## Checking instructions (R214) -/

/-- The checks see the issuing split as it stands: reading operands changes neither splits nor lanes. -/
theorem sigFault_of_checking (hi : Issues s x) (sig : BitVec 16) (hk : s.checking x.wv = true) (hn : x.sp.nosig = false) :
    (Site.readState s x h u).sigFault (Site.ctx s x h u) sig
      = if x.sp.hash ≠ sig then some ⟨0x1E0, (Mask.lowest x.sp.mask).val, sig ++ x.sp.hash⟩
        else if x.sp.mask ≠ x.sp.emask &&& ~~~x.wv.gone then some ⟨0x1E1, (Mask.lowest x.sp.mask).val, x.sp.mask⟩
        else none := by
  obtain ⟨fs, h0, -⟩ := Site.hasRead s x h u
  have hw : (Site.readState s x h u).waves[x.w]? = some { x.wv with fstat := fs } := h0 ▸ Site.readState_wave h u hi
  have hck : (Site.readState s x h u).checking { x.wv with fstat := fs } = true := hk
  simp only [State.sigFault, Site.ctx, hw, hi.split, hck, hn, Bool.not_true, Bool.or_self, Bool.false_eq_true, if_false]
  rfl

end

/-- Instructions that raise what their signature checks find make those checks. -/
theorem checksSignature_of {mk : Hdr → BitVec 16 → Instr} {u : Uses} {k : BitVec 16 → State → Ctx → State}
    (he : ∀ h sig s, exec (mk h sig) s = issue h u (k sig) s)
    (hk : ∀ sig s c i, c.replay = none → s.sigFault c sig = some i → k sig s c = s.raise c i) : ChecksSignature mk u := by
  intro s x h sig l hc ht hck hn
  have hf := sigFault_of_checking (h := h) (u := u) hc.issues sig hck hn
  refine ⟨fun hne => ?_, fun heq hm => ?_⟩
  · exact trapsPrecise_of hc ht (he h sig s) (Fin.isLt _) (hk _ _ _ _ rfl (hf.trans (if_pos hne)))
  · exact trapsPrecise_of hc ht (he h sig s) (Fin.isLt _)
      (hk _ _ _ _ rfl (hf.trans ((if_neg (not_not_intro heq)).trans (if_pos hm))))

/-- A branch makes its checks first (R217). -/
theorem checksSignature_of_branch {mk : Hdr → BitVec 16 → Instr} (u : Uses) {taken : BitVec 16 → Ctx → Mask}
    {tgt r : BitVec 16 → Ctx → Word} {pre : BitVec 16 → Ctx → Wave → Wave} {arith : Bool}
    (he : ∀ h sig s, exec (mk h sig) s = branch h sig u (taken sig) (tgt sig) (r sig) (pre sig) arith s) :
    ChecksSignature mk { u with precise := true, checking := true } :=
  checksSignature_of he fun sig s c i hr hs => by
    have hb : s.branchFault c sig = some i := by rw [State.branchFault, hr, hs]
    rw [hb]

section
variable (h : Hdr) (sig : BitVec 16) (s : State)

theorem exec_bra (f : BraF) : exec (.bra h f) s = execBra h f s := rfl
theorem exec_brc (z : Bool) (r : VNum) (f : BraF) : exec (.brc h z r f) s = execBrc h z r f s := rfl
theorem exec_brx (rofs : BitVec 24) (b : Src) : exec (.brx h sig rofs b) s = execBrx h sig rofs b s := rfl
theorem exec_ret (rofs : BitVec 24) (b : Src) : exec (.ret h sig rofs b) s = execRet h sig rofs b s := rfl

/-- R220: the link register takes the next PC. -/
theorem exec_callDirect (link : VNum) (tofs : BitVec 24) :
    exec (.call h sig link (.direct tofs)) s
      = branch h sig { dst := some (.reg link .w32 0, 1) } (fun c => c.exec) (fun c => target c.pc tofs) (fun c => c.pc + 12)
        (fun c wv => wv.writeD c.dst c.exec (splat ((c.pc + 12).setWidth 128)) allClean .uni) false s := rfl

theorem exec_callReg (link : VNum) (b : Src) :
    exec (.call h sig link (.reg b)) s
      = branch h sig { srcs := [targetUse b], dst := some (.reg link .w32 0, 1) } (fun c => c.exec)
        (fun c => wordOf (c.u 0) 0) (fun c => c.pc + 12)
        (fun c wv => wv.writeD c.dst c.exec (splat ((c.pc + 12).setWidth 128)) allClean .uni) false s := rfl


/-- R218: the counter is written first, and decides. -/
theorem exec_loop (r : VNum) (tofs : BitVec 24) (rofs : BitVec 20) :
    exec (.loop h r ⟨sig, tofs, rofs⟩) s
      = branch h sig { srcs := [condUse 3 (plainSrc r)], dst := some (.reg r .w32 0, 1) }
        (fun c => c.exec &&& maskOf fun L => wordOf (c.v 0 L) 0 - 1 != 0) (fun c => target c.pc tofs) (fun c => target c.pc rofs)
        (fun c wv => wv.writeD c.dst c.exec (perLane fun L => (wordOf (c.v 0 L) 0 - 1).setWidth 128)
          (perLane fun L => c.poison L) c.uniTag) true s := rfl

theorem exec_sealB : exec (.sealB h sig) s = execSeal h sig s := rfl
theorem exec_exit : exec (.exit h sig) s = execExit h sig s := rfl
theorem exec_xset (n : XNum) (z : Bool) (a : Src) : exec (.xset h n z a) s = execXset h n z a s := rfl

end

/-- R142, R154: the model refuses what the rule does not accept. -/
theorem descBad_iff (v : Word) : descBad v = true ↔ ¬GoodDescriptor v := by
  have high : v.extractLsb' 23 9 = 0#9 ↔ v.toNat / 2 ^ 23 = 0 := by
    have := v.isLt
    rw [← BitVec.toNat_inj, BitVec.extractLsb'_toNat, Nat.shiftRight_eq_div_pow]
    simp
    omega
  have := v.isLt
  simp only [descBad, GoodDescriptor, Bool.or_eq_true, decide_eq_true_eq, beq_iff_eq, BitVec.extractLsb'_toNat,
    Nat.shiftRight_eq_div_pow, ne_eq, high, Nat.pow_zero, Nat.div_one]
  omega

end Sys2Proof.Machine

open Sys2Proof Sys2Proof.Machine Sys2Proof.Safety

/-- Settles O22: the checking instructions raise what their checks find before any effect, and XSET what it refuses. -/
theorem preciseTraps : Obligations.PreciseTraps := by
  refine ⟨?sealB, ?exit, ?bra, ?brc, ?jumps, ?call, ?callReg, ?loop, ?xset⟩
  case sealB => exact checksSignature_of exec_sealB (fun _ _ _ _ _ hs => by rw [hs])
  case exit => exact checksSignature_of exec_exit (fun _ _ _ _ _ hs => by rw [hs])
  case bra => exact fun _ _ => checksSignature_of_branch {} (fun h _ s => exec_bra h s _)
  case brc =>
    exact fun z r _ _ => checksSignature_of_branch { srcs := [condUse 3 (plainSrc r)] } (fun h _ s => exec_brc h s z r _)
  case jumps =>
    exact fun _ b => ⟨checksSignature_of_branch { srcs := [targetUse b] } (fun h sig s => exec_brx h sig s _ b),
      checksSignature_of_branch { srcs := [targetUse b] } (fun h sig s => exec_ret h sig s _ b)⟩
  case call =>
    exact fun link tofs => checksSignature_of_branch { dst := some (.reg link .w32 0, 1) }
      (fun h sig s => exec_callDirect h sig s link tofs)
  case callReg =>
    exact fun link b => checksSignature_of_branch { srcs := [targetUse b], dst := some (.reg link .w32 0, 1) }
      (fun h sig s => exec_callReg h sig s link b)
  case loop =>
    exact fun r tofs rofs => checksSignature_of_branch
      { srcs := [condUse 3 (plainSrc r)], dst := some (.reg r .w32 0, 1) } (fun h sig s => exec_loop h sig s r tofs rofs)
  case xset =>
    intro s x h n z a l hc ht hx hbad
    refine trapsPrecise_of hc ht (exec_xset h s n z a) (Fin.isLt _) ?_
    have hgo : ¬((Site.ctx s x h (xsetUses a)).exec = 0 ∨ (Site.ctx s x h (xsetUses a)).causes ≠ []) :=
      fun hs => hs.elim hx (fun hn => hn rfl)
    simp only [if_neg hgo, Site.ctx_u]
    exact if_pos ((descBad_iff _).mpr hbad)

end

/-! # An index register in mode RING with BOUND 0 (R142, R145, R155)

R145 reduces an index modulo BOUND, which R142 keeps from 0: XSET refuses such a descriptor. The statement of O12 speaks of every
state, also of one in which a descriptor holds RING with BOUND 0, as a wave has it whose save area says so (`Wave.loaded`). There
`XReg.reduce` gives 0 for a negative number, where the statement's `reducedIndex` keeps its low eight bits. -/

section

namespace Sys2Proof.Machine

open Sys2Proof.Safety

/-- A wave of one split, all of whose index registers hold RING with BOUND 0 and index 0. -/
def emptyRingWave : Wave :=
  { Wave.start 0 0 0 0 (0, ⟨1, 0, 256⟩) loaderRecord 0 ([], []) with
    life := .resident, xregs := Vector.replicate 8 ⟨0x200000, splat 0⟩ }

/-- Its split. -/
def emptyRingSplit : Split :=
  { mask := fullMask, pc := 0, rpc := 0xFFFFFFFF, emask := fullMask, hash := 0xFFFF, fmt := 0, link := 31, nosig := false,
    yielded := false, wait := none }

/-- Where the split issues. -/
def emptyRingSite : Site := ⟨0, 0, 0, 0, 0, emptyRingWave, emptyRingSplit⟩

/-- A state with that wave alone, its split about to issue. -/
def emptyRingState : State := { State.reset with waves := [emptyRingWave], cur := some ⟨0, 0, 0, 0, 0, none⟩ }

/-- An instruction in every lane. -/
def everyLane : Hdr := { neg := false, pred := 7, yld := false, last := false, stall := 0, dual := false }

/-- The immediate −1. -/
def minusOne : Src := .imm (-1)

theorem emptyRing_issues : Issues emptyRingState emptyRingSite := ⟨rfl, rfl, rfl, by decide, by decide, by decide, by decide⟩

theorem emptyRing_clear : Clear emptyRingState emptyRingSite everyLane (xidxUses minusOne) where
  issues := emptyRing_issues
  fmt := rfl
  ready := by decide +kernel
  free := rfl
  legal := by decide +kernel
  whole := by decide +kernel
  allowed := rfl
  clean := by
    intro p hp _ L _
    obtain rfl := List.mem_singleton.mp hp
    exact splat_get _ L
  sound := rfl

theorem emptyRing_operand : operandW emptyRingState emptyRingSite everyLane (xidxUses minusOne) 0 0 = 0xFFFFFFFF := by
  decide +kernel

theorem Wave.stepAll_nil (wv : Wave) (m : Mask) : wv.stepAll m [] = wv :=
  foldl_keeps (· = wv) _ (fun _ _ h => h) _ wv rfl

/-- The index of X0 in lane 0 after an instruction of wave 0, if it has a next state. -/
def Result.index0 : Result → Option Byte
  | .next t => (t.waves[0]?).map (fun (wv : Wave) => (wv.xreg 0).idx[(0 : Lane)])
  | .fault _ | .refused _ => none

/-- What the model does: −1 modulo 0 is below 0, and the index becomes 0. -/
theorem emptyRing_index0 : Result.index0 (exec (.xidx everyLane 0 minusOne) emptyRingState) = some 0 := by decide +kernel

end Sys2Proof.Machine

open Sys2Proof Sys2Proof.Machine Sys2Proof.Safety

/-- Refutes O12: XIDX of −1 in `emptyRingState`, where X0 is in mode RING with BOUND 0, leaves index 0, and the statement asks for
index 255. -/
theorem not_indexRegisters : ¬ Obligations.IndexRegisters := by
  unfold Obligations.IndexRegisters
  rintro ⟨-, hxidx, -⟩
  obtain ⟨t, wv0, wv1, wv2, he, ⟨fs, h0, -⟩, ⟨-, -, hidx, -⟩, hret, hw, -⟩ :=
    hxidx emptyRingState emptyRingSite everyLane 0 minusOne emptyRing_clear (.inl (by decide))
  have asked : (wv1.xreg 0).idx[(0 : Lane)] = 255 := by
    have noSteps (w : Wave) : w.stepAll (emptyRingSite.exec everyLane) (xidxUses minusOne).steps = w := Wave.stepAll_nil _ _
    have acts : (emptyRingSite.exec everyLane).has 0 = true := by decide
    refine (hidx 0).trans ((if_pos acts).trans ?_)
    rw [emptyRing_operand, noSteps, h0]
    change reducedIndex 0x200000 _ = 255
    decide
  have kept : wv2.xregs = wv1.xregs := by
    have hs := hret.steps
    change wv2.xregs = (wv1.stepAll _ []).xregs at hs
    rw [hs, Wave.stepAll_nil]
  have left : (wv2.xreg 0).idx[(0 : Lane)] = 0 := by
    have hi := emptyRing_index0
    rw [he] at hi
    change (t.waves[emptyRingSite.w]?).map _ = _ at hi
    rw [hw] at hi
    exact Option.some.inj hi
  rw [Wave.xreg, kept] at left
  exact absurd (asked.symm.trans left) (by decide)

end
